-- ==== Sys2Proof/Word.lean ====
section
/-! DEFINITION. Bytes, the bit sets the manual lays out as bits, and text. -/

namespace Sys2Proof

/-- A byte of the link, of a plant line character or of the billing store (R192). -/
abbrev Byte := BitVec 8

/-- A blackout zone set: zone z is bit z (R192). -/
abbrev ZoneSet := BitVec 8

/-- A tier set: tier t is bit t (R192). -/
abbrev TierSet := BitVec 16

/-- A pass set: channel c, 1 to 96, is bit c - 1 (R192). -/
abbrev PassSet := BitVec 96

/-- A set of segments: segment s is bit s (7.3). -/
abbrev SegmentSet := BitVec 32

/-- A word of the identity area (R161). -/
abbrev IdWord := BitVec 32

/-- A line of the craft port (R121, R122). -/
abbrev Text := List Char

end Sys2Proof
end

