-- ==== Sys2Proof/Vocabulary.lean ====
section
/-! DEFINITION. The operands of the commands: what an order's frame carries (R193, R194) and what the
outside gives with an event. An argument that can be out of its range is carried as the number its field
holds, because its owning rule refuses it by a status code. -/

namespace Sys2Proof

/-- The two banks of the billing store (R144). -/
inductive BankId where
  | a
  | b
deriving DecidableEq, Repr

/-- The three speeds of the message link (11.1). -/
inductive LinkSpeed where
  | s19200
  | s57600
  | s115200
deriving DecidableEq, Repr

/-- One character received on the plant line (R62): its data bits, its wake flag, and whether its stop bit
was correct. -/
structure PlantChar where
  data   : Byte
  wake   : Bool
  stopOk : Bool
deriving DecidableEq, Repr

/-- What the array took at the end of a programming (R148, R145, R161; log 4). `landed` is `none` when it
took the bytes given, or the bytes it took instead, of which those past the bytes given are not read. `voids` are the bytes that later programmings of state
bytes to 0x00 within the same event take, in order; past its end they take 0x00. -/
structure Programmed where
  landed : Option (List Byte)
  voids  : List Byte
deriving DecidableEq, Repr

/-- What is sampled at a reset (R189), and what the reset finds half done in the billing store (R148, R159;
log 5): the bits a programming had cleared (`torn`), and the bits a page erase had set in each bank. -/
structure ResetInputs where
  speed   : LinkSpeed
  service : Bool
  torn    : List Byte
  erasedA : List Byte
  erasedB : List Byte
deriving DecidableEq, Repr

/-- LOAD-CHANNEL (R6). Source 255 is NONE; class and request are the encoded bytes. -/
structure LoadChannelArgs where
  channel  : Nat
  source   : Nat
  cls      : Nat
  zones    : ZoneSet
  eligible : Nat
  request  : Nat
deriving DecidableEq, Repr

/-- SET-CHANNEL (R7): a channel and any selection of the base fields. -/
structure SetChannelArgs where
  channel  : Nat
  source   : Option Nat
  cls      : Option Nat
  zones    : Option ZoneSet
  eligible : Option Nat
deriving DecidableEq, Repr

/-- SCHEDULE-ADD (R23). -/
structure ScheduleArgs where
  due     : Nat
  channel : Nat
  kind    : Nat
  value   : Nat
  halt    : Nat
deriving DecidableEq, Repr

/-- BIND (R45), laid out by R193. -/
structure BindArgs where
  slot    : Nat
  account : Nat
  tap     : Nat
  port    : Nat
  tiers   : TierSet
  state   : Nat
  limit   : Nat
deriving DecidableEq, Repr

/-- SET-PARAMS (R186): any selection of the six parameters. -/
structure ParamArgs where
  rampStep        : Option Nat
  replyWindow     : Option Nat
  pollShare       : Option Nat
  missLimit       : Option Nat
  batteryWarn     : Option Nat
  creditThreshold : Option Nat
deriving DecidableEq, Repr

/-- LOAD-SEGMENT (R95). A parent or head of 255 is none (R192). -/
structure SegmentArgs where
  segment : Nat
  zone    : Nat
  parent  : Nat
  head    : Nat
deriving DecidableEq, Repr

/-- LOAD-TRANSPONDER (R85). The level limits are signed (R192). -/
structure TransponderArgs where
  index      : Nat
  address    : Nat
  segment    : Nat
  role       : Nat
  enable     : Nat
  low        : Int
  high       : Int
  hysteresis : Nat
deriving DecidableEq, Repr

/-- WATCH-SET (R111). `kinds` has one bit for each event kind in the order of R110. -/
structure WatchArgs where
  entry   : Nat
  kind    : Nat
  address : Nat
  span    : Nat
  kinds   : Nat
  cls     : Nat
  oneShot : Nat
deriving DecidableEq, Repr

/-- EVENT-DEFINE (R134). -/
structure EventArgs where
  event    : Nat
  channel  : Nat
  open_    : Nat
  start    : Nat
  stop     : Nat
  close    : Nat
  price    : Nat
deriving DecidableEq, Repr

/-- What RESYNC carries (R61): a slot or a tap address, each behind its presence bit (log 17). -/
structure ResyncArgs where
  slot    : Option Nat
  address : Option Nat
deriving DecidableEq, Repr

/-- The 49 orders of the catalogue (11.9), in its order, with the arguments their rules name. -/
inductive Order where
  | status
  | identity
  | noticeMask (urgent routine : Nat)
  | ackStart
  | reset
  | setTime (minute second : Nat)
  | setParams (p : ParamArgs)
  | go
  | loadChannel (p : LoadChannelArgs)
  | setChannel (p : SetChannelArgs)
  | carrier (channel request : Nat)
  | scheduleAdd (p : ScheduleArgs)
  | scheduleCancel (entry : Nat)
  | scheduleList (start : Nat)
  | stepMode (request : Nat)
  | step
  | alertStart (duration : Nat)
  | alertEnd
  | bind (p : BindArgs)
  | unbind (slot : Nat)
  | setState (slot state : Nat)
  | setTiers (slot : Nat) (tiers : TierSet)
  | setLimit (slot limit : Nat)
  | querySub (slot : Nat)
  | resync (p : ResyncArgs)
  | loadTap (index address segment : Nat)
  | queryTap (address : Nat)
  | loadSegment (p : SegmentArgs)
  | querySegment (segment : Nat)
  | loadTransponder (p : TransponderArgs)
  | queryTransponder (address : Nat)
  | listOutages (selection start : Nat)
  | ackOutage (outage : Nat)
  | watchSet (p : WatchArgs)
  | watchClear (entry : Nat)
  | releaseHeld (place : Nat)
  | dropHeld (place : Nat)
  | reclaimWatch
  | forceFree (segment : Nat)
  | eventDefine (p : EventArgs)
  | eventRemove (event : Nat)
  | eventCancel (event : Nat)
  | purchase (slot event : Nat)
  | readBank (bank index count : Nat)
  | releaseBank (sequence : Nat)
  | lockWrite (word : Nat) (value : Nat)
  | storeClear
  | setTariff (tier rate : Nat)
  | closePeriod
deriving DecidableEq, Repr

end Sys2Proof
end

