-- ==== Sys2Proof/Syntax.lean ====
section
/-! DEFINITION. The commands of the HE-396: one constructor for each row of spec/opcode_table.json. -/

namespace Sys2Proof

/-- The commands. The first 49 are the host orders, each a whole frame with a good CRC arriving at the message
link with its tag (log 2); then the events; then the craft commands, each a whole typed line (log 3). -/
inductive Instr where
  /-- STATUS, R191. -/
  | status (tag : Byte)
  /-- IDENTITY, R191. -/
  | identity (tag : Byte)
  /-- NOTICE_MASK, R182. -/
  | noticeMask (tag : Byte) (urgent routine : Nat)
  /-- ACK_START, R190. -/
  | ackStart (tag : Byte)
  /-- RESET, R189. -/
  | reset (tag : Byte)
  /-- SET_TIME, R185. -/
  | setTime (tag : Byte) (minute second : Nat)
  /-- SET_PARAMS, R186. -/
  | setParams (tag : Byte) (p : ParamArgs)
  /-- GO, R187, R188. -/
  | go (tag : Byte)
  /-- LOAD_CHANNEL, R6. -/
  | loadChannel (tag : Byte) (p : LoadChannelArgs)
  /-- SET_CHANNEL, R7. -/
  | setChannel (tag : Byte) (p : SetChannelArgs)
  /-- CARRIER, R9. -/
  | carrier (tag : Byte) (channel request : Nat)
  /-- SCHEDULE_ADD, R23. -/
  | scheduleAdd (tag : Byte) (p : ScheduleArgs)
  /-- SCHEDULE_CANCEL, R32. -/
  | scheduleCancel (tag : Byte) (entry : Nat)
  /-- SCHEDULE_LIST, R33. -/
  | scheduleList (tag : Byte) (start : Nat)
  /-- STEP_MODE, R30. -/
  | stepMode (tag : Byte) (request : Nat)
  /-- STEP, R31. -/
  | step (tag : Byte)
  /-- ALERT_START, R35. -/
  | alertStart (tag : Byte) (duration : Nat)
  /-- ALERT_END, R35. -/
  | alertEnd (tag : Byte)
  /-- BIND, R45. -/
  | bind (tag : Byte) (p : BindArgs)
  /-- UNBIND, R46. -/
  | unbind (tag : Byte) (slot : Nat)
  /-- SET_STATE, R47. -/
  | setState (tag : Byte) (slot state : Nat)
  /-- SET_TIERS, R47. -/
  | setTiers (tag : Byte) (slot : Nat) (tiers : TierSet)
  /-- SET_LIMIT, R48. -/
  | setLimit (tag : Byte) (slot limit : Nat)
  /-- QUERY_SUB, R49. -/
  | querySub (tag : Byte) (slot : Nat)
  /-- RESYNC, R61. -/
  | resync (tag : Byte) (p : ResyncArgs)
  /-- LOAD_TAP, R68. -/
  | loadTap (tag : Byte) (index address segment : Nat)
  /-- QUERY_TAP, R69. -/
  | queryTap (tag : Byte) (address : Nat)
  /-- LOAD_SEGMENT, R95, R96. -/
  | loadSegment (tag : Byte) (p : SegmentArgs)
  /-- QUERY_SEGMENT, R97. -/
  | querySegment (tag : Byte) (segment : Nat)
  /-- LOAD_TRANSPONDER, R85, R86. -/
  | loadTransponder (tag : Byte) (p : TransponderArgs)
  /-- QUERY_TRANSPONDER, R87. -/
  | queryTransponder (tag : Byte) (address : Nat)
  /-- LIST_OUTAGES, R109. -/
  | listOutages (tag : Byte) (selection start : Nat)
  /-- ACK_OUTAGE, R108. -/
  | ackOutage (tag : Byte) (outage : Nat)
  /-- WATCH_SET, R111. -/
  | watchSet (tag : Byte) (p : WatchArgs)
  /-- WATCH_CLEAR, R112. -/
  | watchClear (tag : Byte) (entry : Nat)
  /-- RELEASE_HELD, R118. -/
  | releaseHeld (tag : Byte) (place : Nat)
  /-- DROP_HELD, R119. -/
  | dropHeld (tag : Byte) (place : Nat)
  /-- RECLAIM_WATCH, R120. -/
  | reclaimWatch (tag : Byte)
  /-- FORCE_FREE, R125. -/
  | forceFree (tag : Byte) (segment : Nat)
  /-- EVENT_DEFINE, R134, R135. -/
  | eventDefine (tag : Byte) (p : EventArgs)
  /-- EVENT_REMOVE, R142. -/
  | eventRemove (tag : Byte) (event : Nat)
  /-- EVENT_CANCEL, R141. -/
  | eventCancel (tag : Byte) (event : Nat)
  /-- PURCHASE, R138, R139. -/
  | purchase (tag : Byte) (slot event : Nat)
  /-- READ_BANK, R158. -/
  | readBank (tag : Byte) (bank index count : Nat)
  /-- RELEASE_BANK, R159. -/
  | releaseBank (tag : Byte) (sequence : Nat)
  /-- LOCK_WRITE, R162. -/
  | lockWrite (tag : Byte) (word : Nat) (value : Nat)
  /-- STORE_CLEAR, R160. -/
  | storeClear (tag : Byte)
  /-- SET_TARIFF, R164. -/
  | setTariff (tag : Byte) (tier rate : Nat)
  /-- CLOSE_PERIOD, R165. -/
  | closePeriod (tag : Byte)
  /-- LINK_FRAME_RECEIVED, R177: the bytes of a frame, from its start byte. -/
  | linkFrameReceived (bytes : List Byte)
  /-- LINK_BAD_LENGTH, R177: the length read at the second length byte. -/
  | linkBadLength (length : Nat)
  /-- LINK_GAP_TIMEOUT, R177. -/
  | linkGapTimeout
  /-- OUTBOUND_FRAME_SENT, R179; the inputs count where the frame was the reply to RESET (R189). -/
  | outboundFrameSent (r : ResetInputs)
  /-- POWER_ON, R189. -/
  | powerOn (r : ResetInputs)
  /-- RESET_LINE, R189. -/
  | resetLine (r : ResetInputs)
  /-- CLOCK_FAULT, R189. -/
  | clockFault (r : ResetInputs)
  /-- RECOVERY_SCAN_END, R155 to R157, R190; what the scan's programmings of torn slots' state bytes take (R156). -/
  | recoveryScanEnd (voids : List Byte)
  /-- SECOND_TICK, R183. -/
  | secondTick
  /-- MINUTE_BOUNDARY, R183. -/
  | minuteBoundary
  /-- READY_ASSERT, R12. -/
  | readyAssert
  /-- READY_FALL, R12. -/
  | readyFall
  /-- READY_TIMER_EXPIRY, R13. -/
  | readyTimerExpiry
  /-- DWELL_TIMER_EXPIRY, R18: the channel whose ramp dwells. -/
  | dwellTimerExpiry (channel : Nat)
  /-- SETTLE_TIMER_EXPIRY, R21. -/
  | settleTimerExpiry
  /-- ALERT_ASSERT, R37. -/
  | alertAssert
  /-- ALERT_DEASSERT, R37. -/
  | alertDeassert
  /-- PLANT_FRAME_SENT, R64. -/
  | plantFrameSent
  /-- TURNAROUND_END, R64. -/
  | turnaroundEnd
  /-- PLANT_REPLY_RECEIVED, R65: the characters received. -/
  | plantReplyReceived (chars : List PlantChar)
  /-- REPLY_WINDOW_EXPIRY, R64. -/
  | replyWindowExpiry
  /-- JOURNAL_RECORD_PROGRAMMED, R148. -/
  | journalRecordProgrammed (p : Programmed)
  /-- HEADER_FIELD_PROGRAMMED, R145. -/
  | headerFieldProgrammed (p : Programmed)
  /-- STATEMENT_RECORD_PROGRAMMED, R174. -/
  | statementRecordProgrammed (p : Programmed)
  /-- IDENTITY_WORD_PROGRAMMED, R161. -/
  | identityWordProgrammed (p : Programmed)
  /-- ERASE_PAGE_DONE, R159: what the page's blank check finds not erased, and what a programming stopped by a fault leaves (R149). -/
  | erasePageDone (bank : BankId) (left : List Host.Cell) (torn : List Byte)
  /-- CRAFT_CHAR, R121. -/
  | craftChar (byte : Byte)
  /-- CRAFT_BACKSPACE, R121. -/
  | craftBackspace
  /-- CRAFT_LINE_END, R121; the level of the SERVICE input, which IDENT reads (R131). -/
  | craftLineEnd (service : Bool)
  /-- CRAFT_LINE_SENT, R122. -/
  | craftLineSent
  /-- HOLD, R123. -/
  | hold (segment : Nat)
  /-- FREE, R124. -/
  | free (segment : Nat)
  /-- SHOW_SEG, R126. -/
  | showSeg (segment : Nat)
  /-- SHOW_XP, R126. -/
  | showXp (address : Nat)
  /-- SHOW_TAP, R126. -/
  | showTap (address : Nat)
  /-- POLL, R127. -/
  | poll (address : Nat)
  /-- TEST, R127. -/
  | test (address port : Nat) (on : Bool)
  /-- TAKE, R128. -/
  | take
  /-- GIVE, R128. -/
  | give
  /-- WATCH, R129. -/
  | watch
  /-- WATCH_N_EVENT, R129. -/
  | watchNEvent (entry address span kinds : Nat) (urgent once : Bool)
  /-- WATCH_N_GUARD, R129. -/
  | watchNGuard (entry address span : Nat) (urgent once : Bool)
  /-- WATCH_N_OFF, R129. -/
  | watchNOff (entry : Nat)
  /-- RELEASE, R129. -/
  | release (place : Nat)
  /-- DROP, R129. -/
  | drop (place : Nat)
  /-- IDENT, R131; with the level of the SERVICE input at the check. -/
  | ident (id : Nat) (service : Bool)
deriving DecidableEq, Repr

end Sys2Proof
end

