-- ==== Sys2Proof/WellFormed.lean ====
section
/-! DEFINITION. Which commands can arise: an order's fields hold what their widths hold (R193, R194), and what the
outside gives with an event has the size the event has. A value out of a field's range but within its width is
well formed: the owning rule refuses or clamps it. -/

namespace Sys2Proof.WellFormed

/-- An unsigned field of n bytes holds v (R192). -/
def fits (n v : Nat) : Bool := decide (v < 256 ^ n)

/-- A field that may be absent from a selection (R193). -/
def fitsOpt (n : Nat) : Option Nat → Bool
  | none => true
  | some v => fits n v

/-- A signed field of two bytes holds v (R192). -/
def fitsLevel (v : Int) : Bool := decide (-32768 ≤ v) && decide (v ≤ 32767)

/-- The field widths of LOAD-CHANNEL (R6, R194). -/
def loadChannel (p : LoadChannelArgs) : Bool :=
  fits 1 p.channel && fits 1 p.source && fits 1 p.cls && fits 1 p.eligible && fits 1 p.request

/-- The field widths of SET-CHANNEL (R7, R193). -/
def setChannel (p : SetChannelArgs) : Bool :=
  fits 1 p.channel && fitsOpt 1 p.source && fitsOpt 1 p.cls && fitsOpt 1 p.eligible

/-- The field widths of SCHEDULE-ADD (R23, R194). -/
def schedule (p : ScheduleArgs) : Bool :=
  fits 4 p.due && fits 1 p.channel && fits 1 p.kind && fits 1 p.value && fits 1 p.halt

/-- The field widths of BIND (R193). -/
def bind (p : BindArgs) : Bool :=
  fits 2 p.slot && fits 4 p.account && fits 2 p.tap && fits 1 p.port && fits 1 p.state && fits 4 p.limit

/-- The field widths of SET-PARAMS (R186, R194). -/
def params (p : ParamArgs) : Bool :=
  fitsOpt 2 p.rampStep && fitsOpt 2 p.replyWindow && fitsOpt 1 p.pollShare && fitsOpt 1 p.missLimit
    && fitsOpt 2 p.batteryWarn && fitsOpt 2 p.creditThreshold

/-- The field widths of LOAD-SEGMENT (R95, R194). -/
def segment (p : SegmentArgs) : Bool :=
  fits 1 p.segment && fits 1 p.zone && fits 1 p.parent && fits 1 p.head

/-- The field widths of LOAD-TRANSPONDER (R85, R194). -/
def transponder (p : TransponderArgs) : Bool :=
  fits 1 p.index && fits 2 p.address && fits 1 p.segment && fits 1 p.role && fits 1 p.enable
    && fitsLevel p.low && fitsLevel p.high && fits 1 p.hysteresis

/-- The field widths of WATCH-SET (R111, R194). -/
def watchArgs (p : WatchArgs) : Bool :=
  fits 1 p.entry && fits 1 p.kind && fits 2 p.address && fits 2 p.span && fits 1 p.kinds && fits 1 p.cls
    && fits 1 p.oneShot

/-- The field widths of EVENT-DEFINE (R134, R194). -/
def event (p : EventArgs) : Bool :=
  fits 1 p.event && fits 1 p.channel && fits 4 p.open_ && fits 4 p.start && fits 4 p.stop && fits 4 p.close
    && fits 2 p.price

/-- The arguments of an order fit the fields of its body (R193, R194). -/
def order : Order → Bool
  | .status => true
  | .identity => true
  | .noticeMask urgent routine => fits 1 urgent && fits 1 routine
  | .ackStart => true
  | .reset => true
  | .setTime minute second => fits 4 minute && fits 1 second
  | .setParams p => params p
  | .go => true
  | .loadChannel p => loadChannel p
  | .setChannel p => setChannel p
  | .carrier channel request => fits 1 channel && fits 1 request
  | .scheduleAdd p => schedule p
  | .scheduleCancel entry => fits 2 entry
  | .scheduleList start => fits 1 start
  | .stepMode request => fits 1 request
  | .step => true
  | .alertStart duration => fits 1 duration
  | .alertEnd => true
  | .bind p => bind p
  | .unbind slot => fits 2 slot
  | .setState slot state => fits 2 slot && fits 1 state
  | .setTiers slot _ => fits 2 slot
  | .setLimit slot limit => fits 2 slot && fits 4 limit
  | .querySub slot => fits 2 slot
  | .resync p => fitsOpt 2 p.slot && fitsOpt 2 p.address
  | .loadTap index address segment => fits 2 index && fits 2 address && fits 1 segment
  | .queryTap address => fits 2 address
  | .loadSegment p => WellFormed.segment p
  | .querySegment segment => fits 1 segment
  | .loadTransponder p => transponder p
  | .queryTransponder address => fits 2 address
  | .listOutages selection start => fits 1 selection && fits 1 start
  | .ackOutage outage => fits 1 outage
  | .watchSet p => watchArgs p
  | .watchClear entry => fits 1 entry
  | .releaseHeld place => fits 1 place
  | .dropHeld place => fits 1 place
  | .reclaimWatch => true
  | .forceFree segment => fits 1 segment
  | .eventDefine p => WellFormed.event p
  | .eventRemove event => fits 1 event
  | .eventCancel event => fits 1 event
  | .purchase slot event => fits 2 slot && fits 1 event
  | .readBank bank index count => fits 1 bank && fits 2 index && fits 1 count
  | .releaseBank sequence => fits 2 sequence
  | .lockWrite word value => fits 1 word && fits 4 value
  | .storeClear => true
  | .setTariff tier rate => fits 1 tier && fits 4 rate
  | .closePeriod => true

/-- What the array took is at most one slot of 32 bytes (R144). -/
def programmed (p : Programmed) : Bool :=
  match p.landed with
  | none => true
  | some bs => decide (bs.length ≤ 32)

/-- What a reset finds half done: at most one slot of bytes, and at most one page of 4,096 in each bank (R144). -/
def resetInputs (r : ResetInputs) : Bool :=
  decide (r.torn.length ≤ 32) && decide (r.erasedA.length ≤ 4096) && decide (r.erasedB.length ≤ 4096)

end Sys2Proof.WellFormed

namespace Sys2Proof

/-- The order that an order command carries, with its tag; none for an event or a craft command. -/
def Instr.order : Instr → Option (Byte × Order)
  | .status t => some (t, .status)
  | .identity t => some (t, .identity)
  | .noticeMask t urgent routine => some (t, .noticeMask urgent routine)
  | .ackStart t => some (t, .ackStart)
  | .reset t => some (t, .reset)
  | .setTime t minute second => some (t, .setTime minute second)
  | .setParams t p => some (t, .setParams p)
  | .go t => some (t, .go)
  | .loadChannel t p => some (t, .loadChannel p)
  | .setChannel t p => some (t, .setChannel p)
  | .carrier t channel request => some (t, .carrier channel request)
  | .scheduleAdd t p => some (t, .scheduleAdd p)
  | .scheduleCancel t entry => some (t, .scheduleCancel entry)
  | .scheduleList t start => some (t, .scheduleList start)
  | .stepMode t request => some (t, .stepMode request)
  | .step t => some (t, .step)
  | .alertStart t duration => some (t, .alertStart duration)
  | .alertEnd t => some (t, .alertEnd)
  | .bind t p => some (t, .bind p)
  | .unbind t slot => some (t, .unbind slot)
  | .setState t slot state => some (t, .setState slot state)
  | .setTiers t slot tiers => some (t, .setTiers slot tiers)
  | .setLimit t slot limit => some (t, .setLimit slot limit)
  | .querySub t slot => some (t, .querySub slot)
  | .resync t p => some (t, .resync p)
  | .loadTap t index address segment => some (t, .loadTap index address segment)
  | .queryTap t address => some (t, .queryTap address)
  | .loadSegment t p => some (t, .loadSegment p)
  | .querySegment t segment => some (t, .querySegment segment)
  | .loadTransponder t p => some (t, .loadTransponder p)
  | .queryTransponder t address => some (t, .queryTransponder address)
  | .listOutages t selection start => some (t, .listOutages selection start)
  | .ackOutage t outage => some (t, .ackOutage outage)
  | .watchSet t p => some (t, .watchSet p)
  | .watchClear t entry => some (t, .watchClear entry)
  | .releaseHeld t place => some (t, .releaseHeld place)
  | .dropHeld t place => some (t, .dropHeld place)
  | .reclaimWatch t => some (t, .reclaimWatch)
  | .forceFree t segment => some (t, .forceFree segment)
  | .eventDefine t p => some (t, .eventDefine p)
  | .eventRemove t event => some (t, .eventRemove event)
  | .eventCancel t event => some (t, .eventCancel event)
  | .purchase t slot event => some (t, .purchase slot event)
  | .readBank t bank index count => some (t, .readBank bank index count)
  | .releaseBank t sequence => some (t, .releaseBank sequence)
  | .lockWrite t word value => some (t, .lockWrite word value)
  | .storeClear t => some (t, .storeClear)
  | .setTariff t tier rate => some (t, .setTariff tier rate)
  | .closePeriod t => some (t, .closePeriod)
  | .linkFrameReceived _ => none
  | .linkBadLength _ => none
  | .linkGapTimeout => none
  | .outboundFrameSent _ => none
  | .powerOn _ => none
  | .resetLine _ => none
  | .clockFault _ => none
  | .recoveryScanEnd _ => none
  | .secondTick => none
  | .minuteBoundary => none
  | .readyAssert => none
  | .readyFall => none
  | .readyTimerExpiry => none
  | .dwellTimerExpiry _ => none
  | .settleTimerExpiry => none
  | .alertAssert => none
  | .alertDeassert => none
  | .plantFrameSent => none
  | .turnaroundEnd => none
  | .plantReplyReceived _ => none
  | .replyWindowExpiry => none
  | .journalRecordProgrammed _ => none
  | .headerFieldProgrammed _ => none
  | .statementRecordProgrammed _ => none
  | .identityWordProgrammed _ => none
  | .erasePageDone _ _ _ => none
  | .craftChar _ => none
  | .craftBackspace => none
  | .craftLineEnd _ => none
  | .craftLineSent => none
  | .hold _ => none
  | .free _ => none
  | .showSeg _ => none
  | .showXp _ => none
  | .showTap _ => none
  | .poll _ => none
  | .test _ _ _ => none
  | .take => none
  | .give => none
  | .watch => none
  | .watchNEvent _ _ _ _ _ _ => none
  | .watchNGuard _ _ _ _ _ => none
  | .watchNOff _ => none
  | .release _ => none
  | .drop _ => none
  | .ident _ _ => none

/-- Commands that can arise. The one check of an order is that its arguments fit their fields; a link frame has
at most 608 bytes (R177: start, length, 602, CRC); a bad length is below 2 or above 602 and of two bytes; a
backspace and a carriage return come through their own rows, and a typed line has at most
80 characters, so no number in it has more than 80 digits (R121). -/
def Instr.wellFormed (i : Instr) : Bool :=
  match i with
  | .linkFrameReceived bytes => decide (bytes.length ≤ 608)
  | .linkBadLength n => WellFormed.fits 2 n && (decide (n < 2) || decide (602 < n))
  | .outboundFrameSent r => WellFormed.resetInputs r
  | .powerOn r => WellFormed.resetInputs r
  | .resetLine r => WellFormed.resetInputs r
  | .clockFault r => WellFormed.resetInputs r
  | .dwellTimerExpiry c => decide (1 ≤ c) && decide (c ≤ 96)
  | .journalRecordProgrammed p => WellFormed.programmed p
  | .headerFieldProgrammed p => WellFormed.programmed p
  | .statementRecordProgrammed p => WellFormed.programmed p
  | .identityWordProgrammed p => WellFormed.programmed p
  | .erasePageDone _ left torn => left.all (fun c => decide (c.1 < 4096)) && decide (torn.length ≤ 32)
  | .craftChar b => decide (b ≠ 0x08) && decide (b ≠ 0x0D) && decide (b ≠ 0x7F)
  | .hold n => decide (n < 10 ^ 80)
  | .free n => decide (n < 10 ^ 80)
  | .showSeg n => decide (n < 10 ^ 80)
  | .showXp n => decide (n < 10 ^ 80)
  | .showTap n => decide (n < 10 ^ 80)
  | .poll n => decide (n < 10 ^ 80)
  | .test a p _ => decide (a < 10 ^ 80) && decide (p < 10 ^ 80)
  | .take => true
  | .give => true
  | .watch => true
  | .watchNEvent n a w k _ _ => decide (n < 10 ^ 80) && decide (a < 10 ^ 80) && decide (w < 10 ^ 80) && decide (k < 128)
  | .watchNGuard n a w _ _ => decide (n < 10 ^ 80) && decide (a < 10 ^ 80) && decide (w < 10 ^ 80)
  | .watchNOff n => decide (n < 10 ^ 80)
  | .release n => decide (n < 10 ^ 80)
  | .drop n => decide (n < 10 ^ 80)
  | .ident h _ => decide (h < 10 ^ 80)
  | .linkGapTimeout => true
  | .recoveryScanEnd _ => true
  | .secondTick => true
  | .minuteBoundary => true
  | .readyAssert => true
  | .readyFall => true
  | .readyTimerExpiry => true
  | .settleTimerExpiry => true
  | .alertAssert => true
  | .alertDeassert => true
  | .plantFrameSent => true
  | .turnaroundEnd => true
  | .plantReplyReceived _ => true
  | .replyWindowExpiry => true
  | .craftBackspace => true
  | .craftLineEnd _ => true
  | .craftLineSent => true
  | .status _ => WellFormed.order (.status)
  | .identity _ => WellFormed.order (.identity)
  | .noticeMask _ urgent routine => WellFormed.order (.noticeMask urgent routine)
  | .ackStart _ => WellFormed.order (.ackStart)
  | .reset _ => WellFormed.order (.reset)
  | .setTime _ minute second => WellFormed.order (.setTime minute second)
  | .setParams _ p => WellFormed.order (.setParams p)
  | .go _ => WellFormed.order (.go)
  | .loadChannel _ p => WellFormed.order (.loadChannel p)
  | .setChannel _ p => WellFormed.order (.setChannel p)
  | .carrier _ channel request => WellFormed.order (.carrier channel request)
  | .scheduleAdd _ p => WellFormed.order (.scheduleAdd p)
  | .scheduleCancel _ entry => WellFormed.order (.scheduleCancel entry)
  | .scheduleList _ start => WellFormed.order (.scheduleList start)
  | .stepMode _ request => WellFormed.order (.stepMode request)
  | .step _ => WellFormed.order (.step)
  | .alertStart _ duration => WellFormed.order (.alertStart duration)
  | .alertEnd _ => WellFormed.order (.alertEnd)
  | .bind _ p => WellFormed.order (.bind p)
  | .unbind _ slot => WellFormed.order (.unbind slot)
  | .setState _ slot state => WellFormed.order (.setState slot state)
  | .setTiers _ slot tiers => WellFormed.order (.setTiers slot tiers)
  | .setLimit _ slot limit => WellFormed.order (.setLimit slot limit)
  | .querySub _ slot => WellFormed.order (.querySub slot)
  | .resync _ p => WellFormed.order (.resync p)
  | .loadTap _ index address segment => WellFormed.order (.loadTap index address segment)
  | .queryTap _ address => WellFormed.order (.queryTap address)
  | .loadSegment _ p => WellFormed.order (.loadSegment p)
  | .querySegment _ segment => WellFormed.order (.querySegment segment)
  | .loadTransponder _ p => WellFormed.order (.loadTransponder p)
  | .queryTransponder _ address => WellFormed.order (.queryTransponder address)
  | .listOutages _ selection start => WellFormed.order (.listOutages selection start)
  | .ackOutage _ outage => WellFormed.order (.ackOutage outage)
  | .watchSet _ p => WellFormed.order (.watchSet p)
  | .watchClear _ entry => WellFormed.order (.watchClear entry)
  | .releaseHeld _ place => WellFormed.order (.releaseHeld place)
  | .dropHeld _ place => WellFormed.order (.dropHeld place)
  | .reclaimWatch _ => WellFormed.order (.reclaimWatch)
  | .forceFree _ segment => WellFormed.order (.forceFree segment)
  | .eventDefine _ p => WellFormed.order (.eventDefine p)
  | .eventRemove _ event => WellFormed.order (.eventRemove event)
  | .eventCancel _ event => WellFormed.order (.eventCancel event)
  | .purchase _ slot event => WellFormed.order (.purchase slot event)
  | .readBank _ bank index count => WellFormed.order (.readBank bank index count)
  | .releaseBank _ sequence => WellFormed.order (.releaseBank sequence)
  | .lockWrite _ word value => WellFormed.order (.lockWrite word value)
  | .storeClear _ => WellFormed.order (.storeClear)
  | .setTariff _ tier rate => WellFormed.order (.setTariff tier rate)
  | .closePeriod _ => WellFormed.order (.closePeriod)

end Sys2Proof
end

