-- ==== Sys2Proof/Decode.lean ====
section
/-! DEFINITION. The table of commands gives no row any bits (98_reader.md: no row has fixed bits or fields), so no
word spells a command. The bytes of an order's frame are read by Machine/Operands.lean. -/

namespace Sys2Proof

/-- The command that a word spells by the table's bits: none, because no row of the table gives bits. -/
def decodeTableWord (_nbits _w : Nat) : Option Instr := none

end Sys2Proof
end

