-- ==== Sys2Proof/Config.lean ====
section
/-! DEFINITION. The free values: what the manual leaves open while the controller goes on. Each is a constant
without a body, so nothing in Lean can prove what it is, and a statement about the model holds whatever it is. -/

namespace Sys2Proof.Config

/-- The order in which the five takers of one minute boundary take it (R183: "in whatever order it arrives";
R169, R151, R181), as a code applied to the free counter of State (log 10). -/
opaque boundaryOrder : Nat → Nat

/-- The lines, after the first, in which a SHOW command prints the matter given (R126 gives no text for them),
before each is cut to 80 characters (log 11). -/
opaque showLines : List Byte → List (List Char)

/-- The text of one line of the craft command WATCH, printing the watch entry or held command whose fields
are given (R129 gives one line for each and no text; log 11). -/
opaque watchLine : List Byte → List Char

/-- The level of the SERVICE input at an event that reads it and does not bring it along (R191, R131), by the free counter of
State (log 6). -/
opaque serviceLevel : Nat → Bool

end Sys2Proof.Config
end

