-- ==== Sys2Proof/Machine/State.lean ====
section
/-! DEFINITION. State: everything the manual gives the HE-396, as plain data, block by block (00_scope 2.2), the queue of
commands, and the machine right after a reset. The reset values are those the manual states for any reset; where it
states none, the log entry is named at the field and in INVENTORY.md. -/

namespace Sys2Proof.Machine

/-! ## Message link unit and timebase (Chapter 11) -/

/-- The operating state (R184). -/
inductive OpState where
  | starting | unset | loading | run
deriving DecidableEq, Repr

/-- The status codes of replies, in the order of the table of 11.3. -/
inductive StatusCode where
  | ok | badOrder | badArg | state | noTime | busy | full | held | notReleased | journalFull | storeFault
  | limit | window | locked | nothingDue
deriving DecidableEq, Repr

/-- What an order that arrived whole asks (R178): a known order, a kind that names none, or a body whose length is not
the one the kind has. The two last are answered when the order is taken. -/
inductive OrderMatter where
  | known (o : Order)
  | unknown
  | badLength (kind : Byte)
deriving DecidableEq, Repr

/-- An order with its tag (R178). -/
structure TaggedOrder where
  tag    : Byte
  matter : OrderMatter
deriving DecidableEq, Repr

/-- A reply: the kind of its order plus 0x80, the order's tag, and the body from its status byte (R179, R193). -/
structure Reply where
  kind : Byte
  tag  : Byte
  body : List Byte
deriving DecidableEq, Repr

/-- A notice waiting to be sent: its kind, its class, the minute and second at its queueing (log 16), its matter. -/
structure Notice where
  kind   : Nat
  urgent : Bool
  time   : Option (Nat × Nat)
  body   : List Byte
deriving DecidableEq, Repr

/-- A frame on the outbound line (R179), a notice with its GAP mark (R181). -/
inductive OutFrame where
  | reply (r : Reply)
  | notice (n : Notice) (gap : Bool)
deriving DecidableEq, Repr

/-- The message link unit. -/
structure Link where
  op           : OpState := .starting
  hunting      : Bool := true
  speed        : LinkSpeed := .s57600
  waiting      : List TaggedOrder := []
  inFlight     : Option TaggedOrder := none
  resetPending : Bool := false
  replies      : List Reply := []
  urgent       : List Notice := []
  routine      : List Notice := []
  outbound     : Option OutFrame := none
  gap          : Bool := false
  urgentOn     : Bool := true
  routineOn    : Bool := true
deriving DecidableEq, Repr

/-- The four kinds of reset (R189). -/
inductive ResetCause where
  | powerOn | resetLine | clockFault | order
deriving DecidableEq, Repr

/-- The timebase (R183, R189). The clock is present while TIME_VALID is set. -/
structure Timebase where
  clock     : Option (Nat × Nat) := none
  cause     : ResetCause := .powerOn
  coldStart : Bool := true
deriving DecidableEq, Repr

/-- The six parameters of SET-PARAMS with their defaults (R186). -/
structure Params where
  rampStep        : Nat := 500
  replyWindow     : Nat := 40
  pollShare       : Nat := 4
  missLimit       : Nat := 3
  batteryWarn     : Nat := 30
  creditThreshold : Nat := 240
deriving DecidableEq, Repr

/-! ## Line-up engine (Chapter 1) -/

/-- The base classes of a channel (1.1). -/
inductive BaseClass where
  | dark | free | tier (t : Fin 16) | reserved
deriving DecidableEq, Repr

/-- The effective classes (1.1): a base class, or PPV e. -/
inductive EffClass where
  | base (c : BaseClass)
  | ppv (e : Fin 16)
deriving DecidableEq, Repr

/-- The carrier states, in the order of 12.3. -/
inductive Carrier where
  | off | waitUp | rampUp | on | waitDown | rampDown
deriving DecidableEq, Repr

/-- An entry of the channel map with the values of R1. `accepted` is the source of the last ROUTE the bank accepted
for the channel since the reset, if any (R15; log 34). -/
structure Channel where
  source   : Option Nat := none
  cls      : BaseClass := .dark
  zones    : ZoneSet := 0
  eligible : Bool := false
  overlay  : Option (Fin 16) := none
  eff      : EffClass := .base .dark
  route    : Option Nat := none
  carrier  : Carrier := .off
  level    : Nat := 0
  applied  : Bool := false
  accepted : Option (Option Nat) := none
deriving DecidableEq, Repr

/-- The tier table (R4): the FREE set, TIER_0 to TIER_15, and the channel of each showing event. -/
structure TierTable where
  free    : PassSet := 0
  tiers   : List PassSet := List.replicate 16 0
  showing : List (Option Nat) := List.replicate 16 none
deriving DecidableEq, Repr

/-- A matrix command (12.3). A LEVEL is marked when the channel's current ramp step issued it (R18). -/
inductive MatrixCmd where
  | route (channel : Nat) (source : Option Nat)
  | level (channel : Nat) (value : Nat) (step : Bool)
deriving DecidableEq, Repr

/-- An entry of the deferred list: a channel and whether its command is a LEVEL (R11). -/
structure Deferred where
  channel : Nat
  isLevel : Bool
deriving DecidableEq, Repr

/-- The phase of a ramp (1.5). -/
inductive RampPhase where
  | command | dwell
deriving DecidableEq, Repr

/-- A ramp record (1.5). -/
structure Ramp where
  channel : Nat
  up      : Bool
  phase   : RampPhase
  step    : Nat
  left    : Nat
deriving DecidableEq, Repr

/-- The line-up engine with the matrix line, the ramps and the settle window. `changed` says that the event in hand has changed
the effective class or the blackout set of a channel and has not handed the changed channels on yet (R5); it is the model's
own field and is clear between events. -/
structure Lineup where
  map         : List Channel := List.replicate 96 {}
  table       : TierTable := {}
  queue       : List MatrixCmd := []
  inTransfer  : Bool := false
  fault       : Bool := false
  deferred    : List Deferred := []
  ready       : Bool := false
  readyTimer  : Option Nat := none
  ramps       : List Ramp := []
  rampQueue   : List Nat := []
  settleOpen  : Bool := false
  settleTimer : Option Nat := none
  changed     : Bool := false
deriving DecidableEq, Repr

/-! ## Schedule unit (Chapter 2) -/

/-- What a schedule entry changes, with its value (R22). -/
inductive Change where
  | route (source : Option Nat)
  | cls (c : BaseClass)
  | blackout (zones : ZoneSet)
  | carrier (on : Bool)
deriving DecidableEq, Repr

/-- A schedule entry (R22). -/
structure Entry where
  id      : Nat
  due     : Nat
  channel : Nat
  change  : Change
  halt    : Bool
deriving DecidableEq, Repr

/-- The end of a held host claim (R34). -/
inductive ClaimEnd where
  | at (minute : Nat)
  | untilEnd
deriving DecidableEq, Repr

/-- The schedule unit with the alert claims. -/
structure Schedule where
  entries    : List Entry := []
  nextId     : Nat := 0
  stepMode   : Bool := false
  hostClaim  : Option ClaimEnd := none
  lineClaim  : Bool := false
  active     : Bool := false
  alertInput : Bool := false
deriving DecidableEq, Repr

/-! ## Subscriber unit (Chapter 3) -/

/-- The states of a slot that is in use (R40). -/
inductive SubState where
  | active | suspended | disconnected
deriving DecidableEq, Repr

/-- A bound subscriber slot (R40). The PPV spend is read from the billing store (R42). -/
structure Subscriber where
  state   : SubState
  account : Nat
  tap     : Nat
  port    : Nat
  tiers   : TierSet
  limit   : Nat
deriving DecidableEq, Repr

/-! ## Plant line scheduler (Chapters 3 and 4) -/

/-- The content of a port: an enable and a pass set (3.3). -/
structure Content where
  enable : Bool
  pass   : PassSet
deriving DecidableEq, Repr

/-- The sync states of a port (R53). -/
inductive Sync where
  | inSync | pending | sent | parked | held | dropped
deriving DecidableEq, Repr

/-- The pending classes (R52). -/
inductive PClass where
  | urgent | refresh
deriving DecidableEq, Repr

/-- A port record (R52), with the values of a newly loaded tap's ports. -/
structure Port where
  desired   : Content := ⟨false, 0⟩
  confirmed : Option Content := none
  sync      : Sync := .inSync
  cls       : Option PClass := none
  inFlight  : Option Content := none
  attempts  : Nat := 0
  unpark    : PClass := .refresh
  slot      : Option Nat := none
deriving DecidableEq, Repr

/-- A loaded tap (R67); it is UNREACHABLE exactly while its unreachable-since minute is present. -/
structure Tap where
  address     : Nat
  segment     : Nat
  unreachable : Option Nat := none
  tamper      : Bool := false
  ports       : List Port := List.replicate 4 {}
deriving DecidableEq, Repr

/-- A craft request (R83). -/
inductive CraftReq where
  | poll (address : Nat)
  | test (address port : Nat) (on : Bool)
deriving DecidableEq, Repr

/-- An entry of the URGENT queue: a port with its resume mark (R118), or a craft request (R72). -/
inductive UrgentItem where
  | port (tap port : Nat) (resume : Bool)
  | craft (r : CraftReq)
deriving DecidableEq, Repr

/-- The state of the plant line (R66). -/
inductive LineState where
  | off | idle | sending | turnaround | window
deriving DecidableEq, Repr

/-- The purposes of a transaction (R66). -/
inductive Purpose where
  | poll | probe | portCommand | craftPoll | craftTest
deriving DecidableEq, Repr

/-- The transaction record (R66), with the reply characters assembled so far (R65). -/
structure Transaction where
  purpose  : Purpose
  address  : Nat
  index    : Nat
  toTap    : Bool
  port     : Nat
  content  : Content
  position : Nat
  window   : Nat
  failed   : Bool := false
  buffer   : List Byte := []
deriving DecidableEq, Repr

/-- The plant line scheduler. -/
structure Plant where
  taps       : List (Nat × Tap) := []
  urgent     : List UrgentItem := []
  refresh    : List (Nat × Nat) := []
  line       : LineState := .off
  current    : Option Transaction := none
  timer      : Nat := 0
  position   : Nat := 0
  roundShare : Nat := 4
  cursor     : Option Nat := none
  probeDue   : Bool := false
  probeCur   : Option Nat := none
deriving DecidableEq, Repr

/-! ## Telemetry monitor (Chapter 5) -/

/-- The roles of a transponder (R84). -/
inductive Role where
  | amplifier | powerSupply | nodeHead
deriving DecidableEq, Repr

/-- The monitor's judgement of a transponder (R84). -/
inductive XpState where
  | unknown | ok | alarm | missing
deriving DecidableEq, Repr

/-- The alarm flags of a transponder (R84). -/
structure AlarmFlags where
  low        : Bool := false
  high       : Bool := false
  battery    : Bool := false
  batteryLow : Bool := false
  outputOff  : Bool := false
  tamper     : Bool := false
deriving DecidableEq, Repr

/-- The fields of a STATUS (R63). `role` is the character received. -/
structure StatusMsg where
  role      : Nat
  onBattery : Bool
  outputOff : Bool
  tamper    : Bool
  level     : Int
  supply    : Nat
  battery   : Nat
deriving DecidableEq, Repr

/-- A loaded transponder record (R84) with the judgement of a newly loaded one. -/
structure Transponder where
  address    : Nat
  segment    : Nat
  role       : Role
  enabled    : Bool
  low        : Int
  high       : Int
  hysteresis : Nat
  state      : XpState := .unknown
  misses     : Nat := 0
  firstMiss  : Option Nat := none
  lastReply  : Option (Nat × Nat) := none
  last       : Option StatusMsg := none
  flags      : AlarmFlags := {}
  deferred   : Bool := false
deriving DecidableEq, Repr

/-- The conditions of a segment (R98). -/
inductive Condition where
  | normal | degraded | outage
deriving DecidableEq, Repr

/-- The service states of a segment (R99). -/
inductive Service where
  | lit | dark | held | shadow
deriving DecidableEq, Repr

/-- A loaded segment record (R94) with the miss minute that R98 keeps. -/
structure Segment where
  zone       : Nat
  parent     : Option Nat
  head       : Option Nat
  condition  : Condition := .normal
  service    : Service := .lit
  openOutage : Option Nat := none
  missMinute : Option Nat := none
deriving DecidableEq, Repr

/-- The telemetry monitor. -/
structure Telemetry where
  transponders : List (Nat × Transponder) := []
  segments     : List (Nat × Segment) := []
deriving DecidableEq, Repr

/-! ## Outage log and watch unit (Chapter 6) -/

/-- The cause of an outage record (R102). -/
inductive OutageCause where
  | root
  | inherited (root : Nat)
deriving DecidableEq, Repr

/-- The close reasons of an outage record (R102). -/
inductive CloseReason where
  | restored | held | shadowed
deriving DecidableEq, Repr

/-- An outage record (R102). It is open while it has no end. -/
structure Outage where
  id      : Nat
  segment : Nat
  start   : Nat
  stop    : Option (Nat × CloseReason) := none
  cause   : OutageCause
  credit  : Bool := false
  acked   : Bool := false
deriving DecidableEq, Repr

/-- The fields of a watch entry that has been set (R110). A GUARD entry has no event kinds. -/
structure Watch where
  guard  : Bool
  base   : Nat
  span   : Nat
  kinds  : Nat
  urgent : Bool
  once   : Bool
deriving DecidableEq, Repr

/-- An entry of the watch table (R110). -/
structure WatchEntry where
  enabled : Bool := false
  watch   : Option Watch := none
  hits    : Nat := 0
deriving DecidableEq, Repr

/-- The owners of the watches (R110). -/
inductive Owner where
  | host | craft
deriving DecidableEq, Repr

/-- A held command (R116). -/
structure Held where
  tap     : Nat
  address : Nat
  port    : Nat
  entry   : Nat
  cls     : Option PClass
  minute  : Nat
deriving DecidableEq, Repr

/-- The outage log and watch unit. -/
structure OutageLog where
  records : List Outage := []
  nextId  : Nat := 0
  watches : List WatchEntry := List.replicate 8 {}
  owner   : Owner := .host
  held    : List (Option Held) := List.replicate 16 none
deriving DecidableEq, Repr

/-! ## Craft port unit (Chapter 7) -/

/-- The craft port unit. `output` is the text last put on the terminal line (log 31). -/
structure Craft where
  holds   : SegmentSet := 0
  buffer  : Text := []
  long    : Bool := false
  print   : List Text := []
  rest    : List Text := []
  lost    : Nat := 0
  ident   : Bool := false
  service : Bool := false
  output  : Text := []
deriving DecidableEq, Repr

/-! ## Event unit (Chapter 8) -/

/-- The states of an event (R132). -/
inductive EventState where
  | defined | onSale | showing | ended | cancelled
deriving DecidableEq, Repr

/-- An event (R132). The purchaser set is the list of its accounts in ascending order. -/
structure Event where
  channel    : Nat
  open_      : Nat
  start      : Nat
  stop       : Nat
  close      : Nat
  price      : Nat
  state      : EventState
  purchasers : List Nat
deriving DecidableEq, Repr

/-! ## Billing store (Chapter 9) -/

/-- The states of a bank, in the order of R193. -/
inductive BankState where
  | free | open_ | closing | closed | erasing
deriving DecidableEq, Repr

/-- A bank: its bytes, at 32 x slot + byte, where an unlisted byte reads 0xFF (R144, R145), and what is kept of it in
RAM: its state (R146), the append points of its two regions, its read watermark (R158) and the page an erase is at. -/
structure Bank where
  cells      : List Host.Cell := []
  state      : BankState := .free
  append     : Nat := 1
  stmtAppend : Nat := 16384
  watermark  : Nat := 0
  page       : Option Nat := none
deriving DecidableEq, Repr

/-- The identity area (R161). -/
structure Identity where
  serial : IdWord := 0
  headId : IdWord := 0xFFFFFFFF
  lockA  : IdWord := 0xFFFFFFFF
  lockB  : IdWord := 0xFFFFFFFF
deriving DecidableEq, Repr

/-- The words of the identity area that the controller programs (R161). -/
inductive IdTarget where
  | headId | lockA | lockB
deriving DecidableEq, Repr

/-- The fields and markers of a bank header (R145). -/
inductive HeaderField where
  | sequence (n : Nat)
  | openMinute (m : Nat)
  | closeMinute (m : Nat)
  | opened | closing | closed | released | overdue | overflow
deriving DecidableEq, Repr

/-- Who made a journal record, and so takes the store's report of it (R151). -/
inductive Origin where
  | order
  | outage (id : Option Nat)
  | roll
  | other
deriving DecidableEq, Repr

/-- An item of the append queue (R151). A record is its body of 31 bytes. -/
inductive StoreItem where
  | record (body : List Byte) (origin : Origin)
  | header (bank : BankId) (field : HeaderField)
  | identity (word : IdTarget) (value : IdWord)
deriving DecidableEq, Repr

/-- What the programming path is doing (R151). -/
inductive Path where
  | idle | append | statement
deriving DecidableEq, Repr

/-- The audit lock states (R162). -/
inductive LockState where
  | none | pending | effective
deriving DecidableEq, Repr

/-- Where the recovery scan stands (R157): reading, waiting on what it restarted, or ended. -/
inductive ScanPhase where
  | reading | waiting | ended
deriving DecidableEq, Repr

/-- The billing store. -/
structure Store where
  a          : Bank := {}
  b          : Bank := {}
  identity   : Identity := {}
  lock       : LockState := .none
  queue      : List StoreItem := []
  path       : Path := .idle
  mismatches : Nat := 0
  fault      : Bool := false
  spend      : List (Nat × Nat) := []
  lowMark    : Bool := false
  minute     : Nat := 0
  scan       : ScanPhase := .reading
deriving DecidableEq, Repr

/-! ## Statement engine (Chapter 10) -/

/-- The close states (R163). -/
inductive CloseState where
  | idle | sequence | rolling | computing
deriving DecidableEq, Repr

/-- An entry of the roll list (R165): a bound slot as it stood at the close minute. -/
structure RollEntry where
  slot    : Nat
  account : Nat
  state   : SubState
  tiers   : TierSet
  segment : Nat
deriving DecidableEq, Repr

/-- The account whose statement is being written (R174): the records not yet written, the slots already committed, and
what its completion adds to the counts. -/
structure Writing where
  account : Nat
  todo    : List (List Byte)
  slots   : List Nat
  lines   : Nat
  grand   : Nat
deriving DecidableEq, Repr

/-- The statement engine (R163, R164, R169, R174). `resume` is the resumption point: computation goes on at the lowest
account at or above it. `closeDone` says that the CLOSE record stands. -/
structure Engine where
  state      : CloseState := .idle
  bank       : BankId := .a
  minute     : Nat := 0
  rolls      : List RollEntry := []
  resume     : Nat := 0
  writing    : Option Writing := none
  statements : Nat := 0
  lines      : Nat := 0
  omitted    : Nat := 0
  control    : Nat := 0
  truncated  : Bool := false
  closeDone  : Bool := false
  tariff     : List Nat := List.replicate 16 0
  limitTaken : Bool := false
deriving DecidableEq, Repr

/-! ## The whole machine -/

/-- The state of the HE-396. `pending` is the queue of commands not yet run, and `freeCount` the model's own counter of
the free values taken (log 10). -/
structure State where
  link      : Link := {}
  time      : Timebase := {}
  params    : Params := {}
  lineup    : Lineup := {}
  schedule  : Schedule := {}
  subs      : List (Nat × Subscriber) := []
  plant     : Plant := {}
  telemetry : Telemetry := {}
  outage    : OutageLog := {}
  craft     : Craft := {}
  events    : List (Option Event) := List.replicate 16 none
  store     : Store := {}
  engine    : Engine := {}
  pending   : List Instr := []
  freeCount : Nat := 0
deriving DecidableEq, Repr

/-- The machine right after a reset of cause POWER_ON, with the speed strap not fitted and the store and the inputs as
logs 6, 7 and 8 give. -/
def State.reset : State := {}

/-- Why the machine would stop. No rule stops the HE-396: STORE_FAULT (R149) and the matrix FAULT (R13) are states it
goes on in, so no constructor stands here and no command raises one. -/
inductive Fault where
deriving DecidableEq, Repr

/-- Why a command has no meaning. -/
inductive Refusal where
  /-- Raised by a command of the table whose meaning is not written; safe, because nothing is claimed of it. No arm of
  exec raises it. -/
  | notModelled (mnemonic : String)
deriving DecidableEq, Repr

end Sys2Proof.Machine
end

