-- ==== Sys2Proof/Machine/Ops.lean ====
section
/-! DEFINITION. Shared operations: tables kept as ascending association lists, byte encodings (R192), the link CRC and the
plant sums (R195), and the bytes of a bank (R144, R145, R148). -/

namespace Sys2Proof.Machine

/-! ## Tables -/

/-- The record a table holds at an index. -/
def tget {α : Type} : List (Nat × α) → Nat → Option α
  | [], _ => none
  | (k, v) :: t, i => if k = i then some v else tget t i

/-- A table with a record written at an index, kept in ascending index. -/
def tset {α : Type} : List (Nat × α) → Nat → α → List (Nat × α)
  | [], i, x => [(i, x)]
  | (k, v) :: t, i, x => if k < i then (k, v) :: tset t i x else if k = i then (i, x) :: t else (i, x) :: (k, v) :: t

/-- A table with no record at an index. -/
def tdel {α : Type} : List (Nat × α) → Nat → List (Nat × α)
  | [], _ => []
  | (k, v) :: t, i => if k = i then t else (k, v) :: tdel t i

/-- A table with a function applied to the record at an index, if there is one. -/
def tmod {α : Type} : List (Nat × α) → Nat → (α → α) → List (Nat × α)
  | [], _, _ => []
  | (k, v) :: t, i, f => if k = i then (k, f v) :: t else (k, v) :: tmod t i f

/-- A member joined to an ascending list without repetition. -/
def insertAsc : List Nat → Nat → List Nat
  | [], x => [x]
  | y :: t, x => if y < x then y :: insertAsc t x else if y = x then y :: t else x :: y :: t

/-- A list with a function applied to the member at a position. -/
def lmod {α : Type} (l : List α) (i : Nat) (f : α → α) : List α :=
  match l[i]? with
  | none => l
  | some v => l.set i (f v)

/-- A quantity brought to the nearer end of its range (R180). -/
def clamp (lo hi v : Nat) : Nat := if v < lo then lo else if hi < v then hi else v

/-- A signed quantity brought to the nearer end of its range (R180). -/
def clampInt (lo hi v : Int) : Int := if v < lo then lo else if hi < v then hi else v

/-! ## Bytes -/

/-- An unsigned field of n bytes, high byte first (R192). -/
def be : Nat → Nat → List Byte
  | 0, _ => []
  | n + 1, v => BitVec.ofNat 8 (v / 256 ^ n) :: be n v

/-- The unsigned value of bytes, high byte first (R192). -/
def unbe (bs : List Byte) : Nat := bs.foldl (fun a b => a * 256 + b.toNat) 0

/-- A field of one byte. -/
def u8 (v : Nat) : List Byte := be 1 v

/-- A field of two bytes. -/
def u16 (v : Nat) : List Byte := be 2 v

/-- A field of four bytes. -/
def u32 (v : Nat) : List Byte := be 4 v

/-- A signed field of two bytes, in two's complement (R192). -/
def i16 (v : Int) : List Byte := be 2 (BitVec.ofInt 16 v).toNat

/-- A signed field of four bytes. -/
def i32 (v : Int) : List Byte := be 4 (BitVec.ofInt 32 v).toNat

/-- A field that is absent is sent with 0xFF in each of its bytes (R194). -/
def absent (n : Nat) : List Byte := List.replicate n 0xFF

/-- A field of n bytes that may be absent (R194). -/
def opt (n : Nat) : Option Nat → List Byte
  | none => absent n
  | some v => be n v

/-- Yes is 1 and no is 0 (R192). -/
def flag (b : Bool) : List Byte := if b then [1] else [0]

/-- A list: a one-byte count, then its members (R194). -/
def listOf {α : Type} (f : α → List Byte) (l : List α) : List Byte := u8 l.length ++ l.flatMap f

/-- A pass set of twelve bytes, channel 1 in bit 0 of the first (R192). -/
def passBytes (p : PassSet) : List Byte :=
  (List.range 12).map (fun i => BitVec.ofNat 8 (p.toNat / 256 ^ i))

/-- The set whose bits are given, as a number. -/
def setOfBits (n : Nat) (f : Nat → Bool) : Nat :=
  (List.range n).foldr (fun i a => 2 * a + if f i then 1 else 0) 0

/-- One step of the link CRC for one bit, most significant bit first (R177, R195). -/
def crcBit (crc : BitVec 16) (bit : Bool) : BitVec 16 :=
  if (crc.msb != bit) then (crc <<< 1) ^^^ 0x1021 else crc <<< 1

/-- The link CRC carried over one byte. -/
def crcByte (crc : BitVec 16) (b : Byte) : BitVec 16 :=
  [7, 6, 5, 4, 3, 2, 1, 0].foldl (fun c i => crcBit c (b.getLsbD i)) crc

/-- The link CRC of bytes (R195): polynomial x^16 + x^12 + x^5 + 1, from 0xFFFF, without inversion. -/
def crc16 (bs : List Byte) : BitVec 16 := bs.foldl crcByte 0xFFFF

/-- The sum modulo 256 that ends a plant frame and that a PORT-ACK carries (R195). -/
def sum8 (bs : List Byte) : Byte := bs.foldl (· + ·) 0

/-! ## The bytes of a bank -/

/-- What an erased byte reads (R145). -/
def erasedByte : Byte := 0xFF

/-- The byte at an address of a bank. -/
def cellGet : List Host.Cell → Nat → Byte
  | [], _ => erasedByte
  | (k, v) :: t, a => if k = a then v else cellGet t a

/-- The cells with a byte put at an address, in canonical form. -/
def cellPut : List Host.Cell → Nat → Byte → List Host.Cell
  | [], a, x => if x = erasedByte then [] else [(a, x)]
  | (k, v) :: t, a, x =>
    if k < a then (k, v) :: cellPut t a x
    else if k = a then (if x = erasedByte then t else (a, x) :: t)
    else if x = erasedByte then (k, v) :: t else (a, x) :: (k, v) :: t

/-- The canonical form: addresses strictly rising, no byte that reads as an unlisted one. -/
def cellsFrom : Nat → List Host.Cell → Bool
  | _, [] => true
  | lo, (k, v) :: t => decide (lo ≤ k) && decide (v ≠ erasedByte) && cellsFrom (k + 1) t

/-- The canonical form of a bank's cells. -/
abbrev cellsWf (m : List Host.Cell) : Bool := cellsFrom 0 m

/-- Bytes programmed from an address on: programming only clears bits (Chapter 9). -/
def cellsAnd : List Host.Cell → Nat → List Byte → List Host.Cell
  | m, _, [] => m
  | m, a, b :: t => cellsAnd (cellPut m a (cellGet m a &&& b)) (a + 1) t

/-- n bytes read from an address on. -/
def cellsRead (m : List Host.Cell) (a n : Nat) : List Byte := (List.range n).map (fun i => cellGet m (a + i))

/-- The cells with one page of 128 slots cleared (R144, R159). -/
def cellsErase (m : List Host.Cell) (page : Nat) : List Host.Cell :=
  m.filter (fun c => decide (c.1 / 4096 ≠ page))

/-- The bytes of a bank: 32,768 slots of 32 bytes (R144). -/
def bankBytes : Nat := 32 * 32768

/-- Every byte of the bank is erased (R146): no byte is listed below the end of its last slot. -/
def bankBlank (b : Bank) : Bool := b.cells.all (fun c => decide (bankBytes ≤ c.1))

/-- The canonical form of both banks. -/
def memoryWf (s : State) : Bool := cellsWf s.store.a.cells && cellsWf s.store.b.cells

/-- A bank. -/
def bank (s : State) : BankId → Bank
  | .a => s.store.a
  | .b => s.store.b

/-- The other bank. -/
def otherBank : BankId → BankId
  | .a => .b
  | .b => .a

/-- The state with a bank written. -/
def setBank (s : State) (i : BankId) (v : Bank) : State :=
  match i with
  | .a => { s with store.a := v }
  | .b => { s with store.b := v }

/-- The 32 bytes of a slot. -/
def slotBytes (b : Bank) (slot : Nat) : List Byte := cellsRead b.cells (32 * slot) 32

/-- The state byte of a slot (R148). -/
def slotState (b : Bank) (slot : Nat) : Byte := cellGet b.cells (32 * slot + 31)

/-- The slot holds a committed record (R148). -/
def committed (b : Bank) (slot : Nat) : Bool := slotState b slot = 0x0F

/-- Every byte of a slot is erased. -/
def slotErased (b : Bank) (slot : Nat) : Bool := (slotBytes b slot).all (· = erasedByte)

/-- The slots from `lo`, n of them, that hold a committed record, in slot order: those whose state byte stands in the
cells as 0x0F (R148). -/
def committedSlots (b : Bank) (lo n : Nat) : List Nat :=
  b.cells.filterMap (fun c =>
    if c.1 % 32 = 31 && c.2 = 0x0F && decide (lo ≤ c.1 / 32) && decide (c.1 / 32 < lo + n) then some (c.1 / 32) else none)

/-- The committed records of the slots from `lo`, n of them, in slot order, each as its 31 bytes of body. -/
def records (b : Bank) (lo n : Nat) : List (List Byte) :=
  (committedSlots b lo n).map (fun i => (slotBytes b i).take 31)

/-! ## Reading the state -/

/-- The current head-end minute, 0 while time is not valid. -/
def minuteOf (s : State) : Nat := match s.time.clock with | none => 0 | some (m, _) => m

/-- The current second, 0 while time is not valid. -/
def secondOf (s : State) : Nat := match s.time.clock with | none => 0 | some (_, n) => n

/-- The controller is in RUN. -/
def running (s : State) : Bool := s.link.op = .run

/-- The controller is in LOADING or RUN. -/
def working (s : State) : Bool := s.link.op = .loading || s.link.op = .run

/-- The state is one of those a function gives as the next one. -/
abbrev Result := Host.Outcome State Fault Refusal

end Sys2Proof.Machine
end

