-- ==== Sys2Proof/Machine/Operands.lean ====
section
/-! DEFINITION. The operand forms: how an order's body is laid out and read (R193, R194), and how the values of a class, a
source, a state, a request, a role or a kind are numbered in it (R192, R194). -/

namespace Sys2Proof.Machine

/-! ## Values by number -/

/-- A base source: 0 to 63, or 0xFF for NONE (R6, R192). -/
def sourceArg (v : Nat) : Option (Option Nat) :=
  if v < 64 then some (some v) else if v = 255 then some none else none

/-- A base class (R192): 0x00 DARK, 0x01 FREE, 0x02 PPV-RESERVED, 0x10 plus t for TIER t. -/
def classArg (v : Nat) : Option BaseClass :=
  if v = 0 then some .dark
  else if v = 1 then some .free
  else if v = 2 then some .reserved
  else if v / 16 = 1 then some (.tier (Fin.ofNat 16 v))
  else none

/-- A yes or no: 1 or 0, and no other value (R192; log 18). -/
def flagArg (v : Nat) : Option Bool := if v = 0 then some false else if v = 1 then some true else none

/-- A request named "ON or OFF" (R9, R22, R30): ON is 0 and OFF is 1 (R194). -/
def onOffArg (v : Nat) : Option Bool := if v = 0 then some true else if v = 1 then some false else none

/-- A subscriber state of a bound slot (R192): 1 ACTIVE, 2 SUSPENDED, 3 DISCONNECTED. -/
def subStateArg (v : Nat) : Option SubState :=
  if v = 1 then some .active else if v = 2 then some .suspended else if v = 3 then some .disconnected else none

/-- A role of a transponder record (R84), numbered from 0 (R194). -/
def roleArg (v : Nat) : Option Role :=
  if v = 0 then some .amplifier else if v = 1 then some .powerSupply else if v = 2 then some .nodeHead else none

/-- A bank, 0 for A and 1 for B (R194). -/
def bankArg (v : Nat) : Option BankId := if v = 0 then some .a else if v = 1 then some .b else none

/-- A schedule change: its kind, numbered from 0 in the order of R22, with the value that belongs to it (R23). -/
def changeArg (kind value : Nat) : Option Change :=
  match kind with
  | 0 => (sourceArg value).map .route
  | 1 => (classArg value).map .cls
  | 2 => if value < 256 then some (.blackout (BitVec.ofNat 8 value)) else none
  | 3 => (onOffArg value).map .carrier
  | _ => none

/-! ## Numbers of values -/

/-- A source or none (R192). -/
def sourceNum : Option Nat → Nat | none => 255 | some v => v

/-- A base class (R192). -/
def classNum : BaseClass → Nat
  | .dark => 0 | .free => 1 | .reserved => 2 | .tier t => 16 + t.val

/-- An effective class (R192): 0x20 plus e for PPV e. -/
def effNum : EffClass → Nat | .base c => classNum c | .ppv e => 32 + e.val

/-- A subscriber state (R192). -/
def subStateNum : SubState → Nat | .active => 1 | .suspended => 2 | .disconnected => 3

/-- A reset cause (R192). -/
def causeNum : ResetCause → Nat | .powerOn => 1 | .resetLine => 2 | .clockFault => 3 | .order => 4

/-- A status code, from 0 in the order of its table (R193). -/
def statusNum : StatusCode → Nat
  | .ok => 0 | .badOrder => 1 | .badArg => 2 | .state => 3 | .noTime => 4 | .busy => 5 | .full => 6 | .held => 7
  | .notReleased => 8 | .journalFull => 9 | .storeFault => 10 | .limit => 11 | .window => 12 | .locked => 13
  | .nothingDue => 14

/-- A carrier state (12.3). -/
def carrierNum : Carrier → Nat
  | .off => 0 | .waitUp => 1 | .rampUp => 2 | .on => 3 | .waitDown => 4 | .rampDown => 5

/-- A bank state (R193). -/
def bankStateNum : BankState → Nat | .free => 0 | .open_ => 1 | .closing => 2 | .closed => 3 | .erasing => 4

/-- A bank (R194). -/
def bankNum : BankId → Nat | .a => 0 | .b => 1

/-- An operating state, in the order of R184. -/
def opNum : OpState → Nat | .starting => 0 | .unset => 1 | .loading => 2 | .run => 3

/-- The change kind of a schedule entry, in the order of R22. -/
def changeKind : Change → Nat | .route _ => 0 | .cls _ => 1 | .blackout _ => 2 | .carrier _ => 3

/-- The value of a schedule entry, as SCHEDULE-ADD carries it. -/
def changeValue : Change → Nat
  | .route v => sourceNum v | .cls c => classNum c | .blackout z => z.toNat | .carrier on => if on then 0 else 1

/-- A sync state, in the order of R52. -/
def syncNum : Sync → Nat
  | .inSync => 0 | .pending => 1 | .sent => 2 | .parked => 3 | .held => 4 | .dropped => 5

/-- A pending class, in the order of R52: URGENT, REFRESH, none. -/
def pclassNum : Option PClass → Nat | some .urgent => 0 | some .refresh => 1 | none => 255

/-- A role, in the order of R84. -/
def roleNum : Role → Nat | .amplifier => 0 | .powerSupply => 1 | .nodeHead => 2

/-- The role character that a STATUS of a transponder carries (12.4). -/
def roleChar : Role → Nat | .amplifier => 1 | .powerSupply => 2 | .nodeHead => 3

/-- A transponder state, in the order of R84. -/
def xpStateNum : XpState → Nat | .unknown => 0 | .ok => 1 | .alarm => 2 | .missing => 3

/-- A condition, in the order of R94. -/
def conditionNum : Condition → Nat | .normal => 0 | .degraded => 1 | .outage => 2

/-- A service state, in the order of R94. -/
def serviceNum : Service → Nat | .lit => 0 | .dark => 1 | .held => 2 | .shadow => 3

/-- A close state, in the order of R163. -/
def closeStateNum : CloseState → Nat | .idle => 0 | .sequence => 1 | .rolling => 2 | .computing => 3

/-- An audit lock state, in the order of R162. -/
def lockNum : LockState → Nat | .none => 255 | .pending => 1 | .effective => 2

/-- An owner of the watches, in the order of R110. -/
def ownerNum : Owner → Nat | .host => 0 | .craft => 1

/-- An event state, in the order of R132; a slot that is EMPTY, which R132 lists first, is 0 (log 20). -/
def eventStateNum : Option EventState → Nat
  | none => 0 | some .defined => 1 | some .onSale => 2 | some .showing => 3 | some .ended => 4 | some .cancelled => 5

/-- The purpose of a transaction, in the order of R66. -/
def purposeNum : Purpose → Nat
  | .poll => 0 | .probe => 1 | .portCommand => 2 | .craftPoll => 3 | .craftTest => 4

/-- The link speed in the reply to IDENTITY: one byte, numbered from 0 in the order of 11.1 (R191; the model's choice, log 79). -/
def speedNum : LinkSpeed → Nat | .s19200 => 0 | .s57600 => 1 | .s115200 => 2

/-! ## Bodies of orders -/

/-- A field of n bytes at position i of a body. -/
def fld (b : List Byte) (i n : Nat) : Nat := unbe ((b.drop i).take n)

/-- A signed field of two bytes at position i of a body. -/
def fldInt (b : List Byte) (i : Nat) : Int := (BitVec.ofNat 16 (fld b i 2)).toInt

/-- A field of a selection: n bytes at position i, present when bit k of the presence byte is set, bit 0 the lowest (R193; the
model's choice, log 61). -/
def fldSel (b : List Byte) (k i n : Nat) : Option Nat :=
  if (fld b 0 1).testBit k then some (fld b i n) else none

/-- The presence byte of a selection, a bit for each field in the order of its rule, the first in the lowest bit (R193; the
model's choice, log 61). -/
def presence (fs : List Bool) : List Byte :=
  [BitVec.ofNat 8 (fs.foldr (fun f a => 2 * a + if f then 1 else 0) 0)]

/-- A field of a selection; an absent field is sent as 0 (R193). -/
def sel (n : Nat) : Option Nat → List Byte
  | none => be n 0
  | some v => be n v


/-- The number of an order's kind: from 0x01 in the order of the catalogue of 11.9 (R193). -/
def orderKind : Order → Nat
  | .status => 1
  | .identity => 2
  | .noticeMask _ _ => 3
  | .ackStart => 4
  | .reset => 5
  | .setTime _ _ => 6
  | .setParams _ => 7
  | .go => 8
  | .loadChannel _ => 9
  | .setChannel _ => 10
  | .carrier _ _ => 11
  | .scheduleAdd _ => 12
  | .scheduleCancel _ => 13
  | .scheduleList _ => 14
  | .stepMode _ => 15
  | .step => 16
  | .alertStart _ => 17
  | .alertEnd => 18
  | .bind _ => 19
  | .unbind _ => 20
  | .setState _ _ => 21
  | .setTiers _ _ => 22
  | .setLimit _ _ => 23
  | .querySub _ => 24
  | .resync _ => 25
  | .loadTap _ _ _ => 26
  | .queryTap _ => 27
  | .loadSegment _ => 28
  | .querySegment _ => 29
  | .loadTransponder _ => 30
  | .queryTransponder _ => 31
  | .listOutages _ _ => 32
  | .ackOutage _ => 33
  | .watchSet _ => 34
  | .watchClear _ => 35
  | .releaseHeld _ => 36
  | .dropHeld _ => 37
  | .reclaimWatch => 38
  | .forceFree _ => 39
  | .eventDefine _ => 40
  | .eventRemove _ => 41
  | .eventCancel _ => 42
  | .purchase _ _ => 43
  | .readBank _ _ _ => 44
  | .releaseBank _ => 45
  | .lockWrite _ _ => 46
  | .storeClear => 47
  | .setTariff _ _ => 48
  | .closePeriod => 49

/-- The length of the body of each order kind: the sum of the widths of its fields (R193, R194). -/
def bodyLengths : List Nat :=
  [0, 0, 2, 0, 0, 5, 11, 0, 6, 6, 2, 8, 2, 1, 1, 0, 1, 0, 16, 2, 3, 4, 6, 2, 5, 5, 2, 4, 1, 11, 2, 2, 1, 9, 1, 1, 1, 0, 1, 20, 1, 1, 3, 4, 2, 5, 0, 5, 0]

/-- The body of an order (R193, R194): its fields in the order of its rule, behind the presence byte of a selection. -/
def orderBody : Order → List Byte
  | .status => []
  | .identity => []
  | .noticeMask urgent routine => be 1 urgent ++ be 1 routine
  | .ackStart => []
  | .reset => []
  | .setTime minute second => be 4 minute ++ be 1 second
  | .setParams p => presence [p.rampStep.isSome, p.replyWindow.isSome, p.pollShare.isSome, p.missLimit.isSome, p.batteryWarn.isSome, p.creditThreshold.isSome] ++ sel 2 p.rampStep ++ sel 2 p.replyWindow ++ sel 1 p.pollShare ++ sel 1 p.missLimit ++ sel 2 p.batteryWarn ++ sel 2 p.creditThreshold
  | .go => []
  | .loadChannel p => be 1 p.channel ++ be 1 p.source ++ be 1 p.cls ++ be 1 p.zones.toNat ++ be 1 p.eligible ++ be 1 p.request
  | .setChannel p => presence [p.source.isSome, p.cls.isSome, p.zones.isSome, p.eligible.isSome] ++ be 1 p.channel ++ sel 1 p.source ++ sel 1 p.cls ++ sel 1 (p.zones.map (·.toNat)) ++ sel 1 p.eligible
  | .carrier channel request => be 1 channel ++ be 1 request
  | .scheduleAdd p => be 4 p.due ++ be 1 p.channel ++ be 1 p.kind ++ be 1 p.value ++ be 1 p.halt
  | .scheduleCancel entry => be 2 entry
  | .scheduleList start => be 1 start
  | .stepMode request => be 1 request
  | .step => []
  | .alertStart duration => be 1 duration
  | .alertEnd => []
  | .bind p => be 2 p.slot ++ be 4 p.account ++ be 2 p.tap ++ be 1 p.port ++ be 2 p.tiers.toNat ++ be 1 p.state ++ be 4 p.limit
  | .unbind slot => be 2 slot
  | .setState slot state => be 2 slot ++ be 1 state
  | .setTiers slot tiers => be 2 slot ++ be 2 tiers.toNat
  | .setLimit slot limit => be 2 slot ++ be 4 limit
  | .querySub slot => be 2 slot
  | .resync p => presence [p.slot.isSome, p.address.isSome] ++ sel 2 p.slot ++ sel 2 p.address
  | .loadTap index address segment => be 2 index ++ be 2 address ++ be 1 segment
  | .queryTap address => be 2 address
  | .loadSegment p => be 1 p.segment ++ be 1 p.zone ++ be 1 p.parent ++ be 1 p.head
  | .querySegment segment => be 1 segment
  | .loadTransponder p => be 1 p.index ++ be 2 p.address ++ be 1 p.segment ++ be 1 p.role ++ be 1 p.enable ++ i16 p.low ++ i16 p.high ++ be 1 p.hysteresis
  | .queryTransponder address => be 2 address
  | .listOutages selection start => be 1 selection ++ be 1 start
  | .ackOutage outage => be 1 outage
  | .watchSet p => be 1 p.entry ++ be 1 p.kind ++ be 2 p.address ++ be 2 p.span ++ be 1 p.kinds ++ be 1 p.cls ++ be 1 p.oneShot
  | .watchClear entry => be 1 entry
  | .releaseHeld place => be 1 place
  | .dropHeld place => be 1 place
  | .reclaimWatch => []
  | .forceFree segment => be 1 segment
  | .eventDefine p => be 1 p.event ++ be 1 p.channel ++ be 4 p.open_ ++ be 4 p.start ++ be 4 p.stop ++ be 4 p.close ++ be 2 p.price
  | .eventRemove event => be 1 event
  | .eventCancel event => be 1 event
  | .purchase slot event => be 2 slot ++ be 1 event
  | .readBank bank index count => be 1 bank ++ be 2 index ++ be 1 count
  | .releaseBank sequence => be 2 sequence
  | .lockWrite word value => be 1 word ++ be 4 value
  | .storeClear => []
  | .setTariff tier rate => be 1 tier ++ be 4 rate
  | .closePeriod => []

/-- The order whose kind has the number given and whose body is given, read field by field (R193, R194). Presence bits
beyond the fields of a selection are not read (log 17). The channel number of SET-CHANNEL, which every such order names, has no
presence bit (R7; the model's choice, log 61). -/
def parseBody (kind : Nat) (b : List Byte) : Option Order :=
  match kind with
  | 1 => some .status
  | 2 => some .identity
  | 3 => some (.noticeMask (fld b 0 1) (fld b 1 1))
  | 4 => some .ackStart
  | 5 => some .reset
  | 6 => some (.setTime (fld b 0 4) (fld b 4 1))
  | 7 => some (.setParams { rampStep := fldSel b 0 1 2, replyWindow := fldSel b 1 3 2, pollShare := fldSel b 2 5 1, missLimit := fldSel b 3 6 1, batteryWarn := fldSel b 4 7 2, creditThreshold := fldSel b 5 9 2 })
  | 8 => some .go
  | 9 => some (.loadChannel { channel := fld b 0 1, source := fld b 1 1, cls := fld b 2 1, zones := BitVec.ofNat 8 (fld b 3 1), eligible := fld b 4 1, request := fld b 5 1 })
  | 10 => some (.setChannel { channel := fld b 1 1, source := fldSel b 0 2 1, cls := fldSel b 1 3 1, zones := (fldSel b 2 4 1).map (BitVec.ofNat 8), eligible := fldSel b 3 5 1 })
  | 11 => some (.carrier (fld b 0 1) (fld b 1 1))
  | 12 => some (.scheduleAdd { due := fld b 0 4, channel := fld b 4 1, kind := fld b 5 1, value := fld b 6 1, halt := fld b 7 1 })
  | 13 => some (.scheduleCancel (fld b 0 2))
  | 14 => some (.scheduleList (fld b 0 1))
  | 15 => some (.stepMode (fld b 0 1))
  | 16 => some .step
  | 17 => some (.alertStart (fld b 0 1))
  | 18 => some .alertEnd
  | 19 => some (.bind { slot := fld b 0 2, account := fld b 2 4, tap := fld b 6 2, port := fld b 8 1, tiers := BitVec.ofNat 16 (fld b 9 2), state := fld b 11 1, limit := fld b 12 4 })
  | 20 => some (.unbind (fld b 0 2))
  | 21 => some (.setState (fld b 0 2) (fld b 2 1))
  | 22 => some (.setTiers (fld b 0 2) (BitVec.ofNat 16 (fld b 2 2)))
  | 23 => some (.setLimit (fld b 0 2) (fld b 2 4))
  | 24 => some (.querySub (fld b 0 2))
  | 25 => some (.resync { slot := fldSel b 0 1 2, address := fldSel b 1 3 2 })
  | 26 => some (.loadTap (fld b 0 2) (fld b 2 2) (fld b 4 1))
  | 27 => some (.queryTap (fld b 0 2))
  | 28 => some (.loadSegment { segment := fld b 0 1, zone := fld b 1 1, parent := fld b 2 1, head := fld b 3 1 })
  | 29 => some (.querySegment (fld b 0 1))
  | 30 => some (.loadTransponder { index := fld b 0 1, address := fld b 1 2, segment := fld b 3 1, role := fld b 4 1, enable := fld b 5 1, low := fldInt b 6, high := fldInt b 8, hysteresis := fld b 10 1 })
  | 31 => some (.queryTransponder (fld b 0 2))
  | 32 => some (.listOutages (fld b 0 1) (fld b 1 1))
  | 33 => some (.ackOutage (fld b 0 1))
  | 34 => some (.watchSet { entry := fld b 0 1, kind := fld b 1 1, address := fld b 2 2, span := fld b 4 2, kinds := fld b 6 1, cls := fld b 7 1, oneShot := fld b 8 1 })
  | 35 => some (.watchClear (fld b 0 1))
  | 36 => some (.releaseHeld (fld b 0 1))
  | 37 => some (.dropHeld (fld b 0 1))
  | 38 => some .reclaimWatch
  | 39 => some (.forceFree (fld b 0 1))
  | 40 => some (.eventDefine { event := fld b 0 1, channel := fld b 1 1, open_ := fld b 2 4, start := fld b 6 4, stop := fld b 10 4, close := fld b 14 4, price := fld b 18 2 })
  | 41 => some (.eventRemove (fld b 0 1))
  | 42 => some (.eventCancel (fld b 0 1))
  | 43 => some (.purchase (fld b 0 2) (fld b 2 1))
  | 44 => some (.readBank (fld b 0 1) (fld b 1 2) (fld b 3 1))
  | 45 => some (.releaseBank (fld b 0 2))
  | 46 => some (.lockWrite (fld b 0 1) (fld b 1 4))
  | 47 => some .storeClear
  | 48 => some (.setTariff (fld b 0 1) (fld b 1 4))
  | 49 => some .closePeriod
  | _ => none

/-- What an order of a kind and a body asks when it is taken (R178): a kind that names no order, a body whose length is
not the one its kind has, or the order. -/
def readOrder (kind : Byte) (b : List Byte) : OrderMatter :=
  if kind.toNat = 0 || 49 < kind.toNat then .unknown
  else if bodyLengths[kind.toNat - 1]? ≠ some b.length then .badLength kind
  else match parseBody kind.toNat b with
    | none => .unknown
    | some o => .known o

end Sys2Proof.Machine
end

