-- ==== Sys2Proof/Machine/Flags.lean ====
section
/-! DEFINITION. The flag computations: the alarm flags of a transponder (R89, R90, R91), the flags of a STATUS and of the
statement records (12.4, 12.5), and the kinds of watch events (R110). -/

namespace Sys2Proof.Machine

/-- LOW after a level is judged (R89); with the settle window OPEN no raise is made (R90). -/
def judgeLow (x : Transponder) (level : Int) (windowOpen : Bool) : Bool :=
  if x.flags.low then decide (level < x.low + x.hysteresis) else decide (level < x.low) && !windowOpen

/-- HIGH after a level is judged (R89); with the settle window OPEN no raise is made (R90). -/
def judgeHigh (x : Transponder) (level : Int) (windowOpen : Bool) : Bool :=
  if x.flags.high then decide (x.high - x.hysteresis < level) else decide (x.high < level) && !windowOpen

/-- A raise of LOW or HIGH is withheld under the OPEN settle window (R90). -/
def raiseWithheld (x : Transponder) (level : Int) (windowOpen : Bool) : Bool :=
  windowOpen && ((!x.flags.low && decide (level < x.low)) || (!x.flags.high && decide (x.high < level)))

/-- The level deferred field after a reply is taken (R90). -/
def judgeDeferred (x : Transponder) (level : Int) (windowOpen : Bool) : Bool :=
  if windowOpen then raiseWithheld x level windowOpen || x.deferred else false

/-- The alarm flags after a valid STATUS, its level clamped, is taken (R89, R90, R91). -/
def judgeFlags (x : Transponder) (m : StatusMsg) (windowOpen : Bool) (warn : Nat) : AlarmFlags :=
  { low := judgeLow x m.level windowOpen
    high := judgeHigh x m.level windowOpen
    battery := m.onBattery
    batteryLow := m.onBattery && decide (m.battery < warn)
    outputOff := m.outputOff
    tamper := m.tamper }

/-- Some alarm flag is set (R88). -/
def AlarmFlags.any (f : AlarmFlags) : Bool :=
  f.low || f.high || f.battery || f.batteryLow || f.outputOff || f.tamper

/-- A set of flags as one byte, the first in the lowest bit (log 20). -/
def flagBits (fs : List Bool) : Nat := fs.foldr (fun f a => 2 * a + if f then 1 else 0) 0

/-- The alarm flags as one byte, in the order of R84. -/
def alarmNum (f : AlarmFlags) : Nat := flagBits [f.low, f.high, f.battery, f.batteryLow, f.outputOff, f.tamper]

/-- The fields of a STATUS as a reply or notice carries them, in the order of 12.4. -/
def statusMsgBytes (m : StatusMsg) : List Byte :=
  u8 m.role ++ u8 (flagBits [m.onBattery, m.outputOff, m.tamper]) ++ i16 m.level ++ u16 m.supply ++ u8 m.battery

/-- A STATUS, or its seven bytes absent (R194). -/
def optStatus : Option StatusMsg → List Byte
  | none => absent 7
  | some m => statusMsgBytes m

/-- The STATUS in the seven body characters of a plant frame (12.4). -/
def statusOfChars (b : List Byte) : StatusMsg :=
  { role := fld b 0 1
    onBattery := (fld b 1 1).testBit 0
    outputOff := (fld b 1 1).testBit 1
    tamper := (fld b 1 1).testBit 2
    level := fldInt b 2
    supply := fld b 4 2
    battery := fld b 6 1 }

/-- The kinds of watch events, in the order of R110. -/
inductive WatchKind where
  | xpMissing | xpRestored | level | battery | outputOff | tamper | tapUnreachable
deriving DecidableEq, Repr

/-- The number of a watch event kind, in the order of R110. -/
def watchKindNum : WatchKind → Nat
  | .xpMissing => 0 | .xpRestored => 1 | .level => 2 | .battery => 3 | .outputOff => 4 | .tamper => 5
  | .tapUnreachable => 6

/-- The name of a watch event kind (R110). -/
def watchKindName : WatchKind → String
  | .xpMissing => "XP_MISSING" | .xpRestored => "XP_RESTORED" | .level => "LEVEL" | .battery => "BATTERY"
  | .outputOff => "OUTPUT_OFF" | .tamper => "TAMPER" | .tapUnreachable => "TAP_UNREACHABLE"

end Sys2Proof.Machine
end

