-- ==== Sys2Proof/Machine/Link.lean ====
section
/-! DEFINITION. The message link unit's shared operations (Chapter 11): replies, notices and the outbound line. -/

namespace Sys2Proof.Machine

/-- A frame of the message link (R177). -/
def frameBytes (kind tag : Byte) (body : List Byte) : List Byte :=
  let m := u16 (body.length + 2) ++ [kind, tag] ++ body
  0xC3 :: m ++ u16 (crc16 m).toNat

/-- The body of a notice: its head of seven bytes (R193), then its matter. -/
def noticeBody (n : Notice) (gap : Bool) : List Byte :=
  u8 n.kind ++ u8 (flagBits [n.urgent, gap, n.time.isSome])
    ++ (match n.time with | none => be 5 0 | some (m, x) => u32 m ++ u8 x) ++ n.body

/-- The bytes of a frame on the outbound line (R177, R193). -/
def outBytes : OutFrame → List Byte
  | .reply r => frameBytes r.kind r.tag r.body
  | .notice n gap => frameBytes 0xFF 0 (noticeBody n gap)

/-- The outbound line, when it is free, sends the head of the reply list, or else the head of the notice queue, which
carries and clears the GAP mark (R179, R181). -/
def pump (s : State) : State :=
  match s.link.outbound with
  | some _ => s
  | none =>
    match s.link.replies with
    | r :: rs => { s with link.outbound := some (.reply r), link.replies := rs }
    | [] =>
      match s.link.urgent with
      | n :: ns => { s with link.outbound := some (.notice n s.link.gap), link.urgent := ns, link.gap := false }
      | [] =>
        match s.link.routine with
        | n :: ns => { s with link.outbound := some (.notice n s.link.gap), link.routine := ns, link.gap := false }
        | [] => s

/-- The kind of the reply to an order (R193). -/
def replyKind : OrderMatter → Byte
  | .known o => BitVec.ofNat 8 (orderKind o + 128)
  | .unknown => 0x80
  | .badLength k => k + 0x80

/-- A reply joins the reply list (R179). -/
def joinReply (t : TaggedOrder) (code : StatusCode) (body : List Byte) (s : State) : State :=
  pump { s with link.replies := s.link.replies ++ [⟨replyKind t.matter, t.tag, u8 (statusNum code) ++ body⟩] }

/-- The order in flight is answered: its reply joins the reply list and it is no longer in flight (R178). -/
def answer (code : StatusCode) (body : List Byte) (s : State) : State :=
  match s.link.inFlight with
  | none => s
  | some t => joinReply t code body { s with link.inFlight := none }

/-- A refusal: a status code without further matter. -/
def refuse (code : StatusCode) (s : State) : State := answer code [] s

/-- A notice handed to the link unit (R181). A free outbound line takes it up at once, and so before a reply that the same event
gives later (the model's choice, log 52). -/
def notice (kind : Nat) (urgent : Bool) (body : List Byte) (s : State) : State :=
  if urgent then
    if !s.link.urgentOn then s
    else
      let n : Notice := ⟨kind, true, s.time.clock, body⟩
      if s.link.urgent.length + s.link.routine.length < 32 then pump { s with link.urgent := s.link.urgent ++ [n] }
      else match s.link.routine with
        | [] => { s with link.gap := true }
        | _ :: rs => pump { s with link.urgent := s.link.urgent ++ [n], link.routine := rs, link.gap := true }
  else
    if !s.link.routineOn then s
    else if s.link.urgent.length + s.link.routine.length < 32 then
      pump { s with link.routine := s.link.routine ++ [⟨kind, false, s.time.clock, body⟩] }
    else { s with link.gap := true }

/-! ## The kinds of notices, from 1 in the order of the class table of 11.4 (R193) -/

/-- START. -/
abbrev nkStart : Nat := 1
/-- OUTAGE_OPEN. -/
abbrev nkOutageOpen : Nat := 2
/-- XP_STATE. -/
abbrev nkXpState : Nat := 3
/-- MATRIX_FAULT. -/
abbrev nkMatrixFault : Nat := 4
/-- ALERT_STATE. -/
abbrev nkAlertState : Nat := 5
/-- JOURNAL_LOW. -/
abbrev nkJournalLow : Nat := 6
/-- STORE_FAULT. -/
abbrev nkStoreFault : Nat := 7
/-- PERIOD_OVERDUE. -/
abbrev nkPeriodOverdue : Nat := 8
/-- WATCH_HIT. -/
abbrev nkWatchHit : Nat := 9
/-- GUARD_HIT. -/
abbrev nkGuardHit : Nat := 10
/-- OUTAGE_CLOSE. -/
abbrev nkOutageClose : Nat := 11
/-- OUTAGE_EVICTED. -/
abbrev nkOutageEvicted : Nat := 12
/-- TAP_FAILED. -/
abbrev nkTapFailed : Nat := 13
/-- TAP_RESTORED. -/
abbrev nkTapRestored : Nat := 14
/-- MATRIX_READY. -/
abbrev nkMatrixReady : Nat := 15
/-- SCHEDULE_HALT. -/
abbrev nkScheduleHalt : Nat := 16
/-- EVENT_STATE. -/
abbrev nkEventState : Nat := 17
/-- STATEMENTS_READY. -/
abbrev nkStatementsReady : Nat := 18
/-- BANK_FREE. -/
abbrev nkBankFree : Nat := 19
/-- CRAFT_HOLD. -/
abbrev nkCraftHold : Nat := 20
/-- WATCH_CLAIM. -/
abbrev nkWatchClaim : Nat := 21

end Sys2Proof.Machine
end

