-- ==== Sys2Proof/Machine/Ports.lean ====
section
/-! DEFINITION. Pass-set derivation and the port records (Chapter 3): derived content, marking, the port queues, parking and
unparking, forced refresh, acknowledgment and failure. A port is named by its tap index and port number. -/

namespace Sys2Proof.Machine

/-! ## Reading -/

/-- The port record of a tap index and port number. -/
def portOf (s : State) (p : Nat × Nat) : Option Port :=
  (tget s.plant.taps p.1).bind (fun t => t.ports[p.2]?)

/-- The state with a function applied to a port record. -/
def modPort (p : Nat × Nat) (f : Port → Port) (s : State) : State :=
  { s with plant.taps := tmod s.plant.taps p.1 (fun t => { t with ports := lmod t.ports p.2 f }) }

/-- The loaded tap that holds a plant address, with its index (R67). -/
def tapAt (s : State) (a : Nat) : Option (Nat × Tap) := s.plant.taps.find? (fun t => t.2.address = a)

/-- The service state of a segment; a segment that is not loaded counts as LIT (R68 loads no tap into one). -/
def serviceOf (s : State) (seg : Nat) : Service :=
  match tget s.telemetry.segments seg with | none => .lit | some g => g.service

/-- The park conditions hold for the ports of a tap (R58). -/
def parkHolds (s : State) (t : Tap) : Bool := t.unreachable.isSome || decide (serviceOf s t.segment ≠ .lit)

/-- The park conditions hold for the ports of a tap index. -/
def parkHoldsAt (s : State) (tap : Nat) : Bool :=
  match tget s.plant.taps tap with | none => false | some t => parkHolds s t

/-- Every loaded tap's index, ascending. -/
def tapIndices (s : State) : List Nat := s.plant.taps.map (·.1)

/-- Every port of the tap indices given, in ascending tap index and port number. -/
def portsOf (taps : List Nat) : List (Nat × Nat) := taps.flatMap (fun i => [(i, 0), (i, 1), (i, 2), (i, 3)])

/-- The indices of the UNREACHABLE taps, ascending. -/
def unreachableTaps (s : State) : List Nat := (s.plant.taps.filter (fun t => t.2.unreachable.isSome)).map (·.1)

/-- The probe-due flag is cleared once no tap is UNREACHABLE any more, each restored or reloaded (R75). -/
def dropProbe (s : State) : State :=
  if (unreachableTaps s).isEmpty then { s with plant.probeDue := false } else s

/-! ## Derivation (R50) -/

/-- The set of one channel (R192). -/
def channelBit (c : Nat) : PassSet := if 1 ≤ c ∧ c ≤ 96 then BitVec.ofNat 96 (2 ^ (c - 1)) else 0

/-- The channels, as a set, whose entries satisfy a test. -/
def channelsWhere (m : List Channel) (f : Channel → Bool) : PassSet :=
  (m.zipIdx).foldl (fun a x => if f x.1 then a ||| channelBit (x.2 + 1) else a) 0

/-- The channels blacked out in a zone (R50). -/
def blackedOut (s : State) (zone : Nat) : PassSet := channelsWhere s.lineup.map (fun c => c.zones.getLsbD zone)

/-- The channels of the tiers held (R50). -/
def tierChannels (t : TierTable) (tiers : TierSet) : PassSet :=
  (t.tiers.zipIdx).foldl (fun a x => if tiers.getLsbD x.2 then a ||| x.1 else a) 0

/-- The channels of the showing events whose purchaser sets hold an account (R50). -/
def eventChannels (s : State) (account : Nat) : PassSet :=
  (s.lineup.table.showing.zipIdx).foldl
    (fun a x => match x.1, s.events[x.2]?.join with
      | some c, some e => if e.purchasers.contains account then a ||| channelBit c else a
      | _, _ => a) 0

/-- The zone of a tap: its segment's (R41). -/
def zoneOf (s : State) (seg : Nat) : Nat := match tget s.telemetry.segments seg with | none => 0 | some g => g.zone

/-- A disabled and empty content. -/
def noContent : Content := ⟨false, 0⟩

/-- The content of a port given by its bound slot (R50). -/
def deriveContent (s : State) (segment : Nat) (slot : Option Nat) : Content :=
  match slot.bind (tget s.subs) with
  | none => noContent
  | some u =>
    let out := blackedOut s (zoneOf s segment)
    match u.state with
    | .active =>
      ⟨true, (s.lineup.table.free ||| tierChannels s.lineup.table u.tiers ||| eventChannels s u.account) &&& ~~~ out⟩
    | .suspended => ⟨true, s.lineup.table.free &&& ~~~ out⟩
    | .disconnected => noContent

/-! ## The port queues (R55) -/

/-- A port leaves whatever queue it stands in. -/
def leaveQueues (p : Nat × Nat) (s : State) : State :=
  { s with
    plant.urgent := s.plant.urgent.filter
      (fun e => match e with | .port t q _ => decide ((t, q) ≠ p) | .craft _ => true)
    plant.refresh := s.plant.refresh.filter (· ≠ p) }

/-- A port joins the tail of the queue of a class. -/
def joinQueue (c : PClass) (p : Nat × Nat) (s : State) : State :=
  match c with
  | .urgent => { s with plant.urgent := s.plant.urgent ++ [.port p.1 p.2 false] }
  | .refresh => { s with plant.refresh := s.plant.refresh ++ [p] }

/-- A port joins the head of the URGENT queue, with or without a resume mark (R79, R118). -/
def joinUrgentHead (p : Nat × Nat) (resume : Bool) (s : State) : State :=
  { s with plant.urgent := .port p.1 p.2 resume :: s.plant.urgent }

/-- A port becomes PARKED (R58). -/
def parkPort (p : Nat × Nat) (s : State) : State :=
  leaveQueues p (modPort p (fun r => { r with sync := .parked, cls := none, attempts := 0 }) s)

/-- A port becomes PENDING with a class at the tail of its queue, or PARKED under the park conditions (R58). -/
def pend (c : PClass) (p : Nat × Nat) (s : State) : State :=
  if parkHoldsAt s p.1 then modPort p (fun r => { r with sync := .parked, cls := none }) s
  else joinQueue c p (modPort p (fun r => { r with sync := .pending, cls := some c }) s)

/-! ## Marking (R54) and re-derivation (R51) -/

/-- A port whose desired content has changed is marked with a class (R54). A PARKED port stays PARKED also where the change makes
it equal, by the table of R54 and by R58 against a word of R53 (the model's choice, log 64). -/
def markPort (c : PClass) (p : Nat × Nat) (s : State) : State :=
  match portOf s p with
  | none => s
  | some r =>
    let equal : Bool := r.confirmed = some r.desired
    match r.sync with
    | .inSync => pend c p s
    | .pending =>
      if equal then leaveQueues p (modPort p (fun r => { r with sync := .inSync, cls := none, attempts := 0 }) s)
      else if r.cls = some .refresh && c = .urgent then
        joinQueue .urgent p (leaveQueues p (modPort p (fun r => { r with cls := some .urgent }) s))
      else s
    | .sent => modPort p (fun r => { r with cls := if r.cls = none || c = .urgent then some c else r.cls }) s
    | .parked => s
    | .held => s
    | .dropped =>
      if equal then modPort p (fun r => { r with sync := .inSync, cls := none }) s else pend c p s

/-- A port is re-derived: a changed content becomes the desired content and the port is marked (R51). -/
def rederive (c : PClass) (p : Nat × Nat) (s : State) : State :=
  match tget s.plant.taps p.1, portOf s p with
  | some t, some r =>
    let d := deriveContent s t.segment r.slot
    if d = r.desired then s else markPort c p (modPort p (fun r => { r with desired := d }) s)
  | _, _ => s

/-- The bound slot of a port is ACTIVE or SUSPENDED. -/
def portServed (s : State) (p : Nat × Nat) : Bool :=
  match (portOf s p).bind (·.slot) with
  | none => false
  | some i => match tget s.subs i with | none => false | some u => u.state ≠ .disconnected

/-- The hand-off of changed channels re-derives every port whose slot is ACTIVE or SUSPENDED, class REFRESH (R5, R51). -/
def rederiveServed (s : State) : State :=
  (portsOf (tapIndices s)).foldl (fun s p => if portServed s p then rederive .refresh p s else s) s

/-- A change of a segment's zone re-derives every port of every tap in it, class REFRESH (R51, R96). -/
def rederiveSegment (seg : Nat) (s : State) : State :=
  (portsOf ((s.plant.taps.filter (fun t => t.2.segment = seg)).map (·.1))).foldl (fun s p => rederive .refresh p s) s

/-- The port that a subscriber slot is bound to (R41). -/
def slotPort (s : State) (u : Subscriber) : Option (Nat × Nat) := (tapAt s u.tap).map (fun t => (t.1, u.port))

/-- The port of a slot is re-derived, class URGENT (R43, R139). -/
def rederiveSlot (slot : Nat) (s : State) : State :=
  match (tget s.subs slot).bind (slotPort s) with
  | none => s
  | some p => rederive .urgent p s

/-! ## Parking, unparking and forced refresh (R58, R59, R60) -/

/-- A PARKED port whose park conditions have cleared leaves PARKED (R59). -/
def unparkPort (p : Nat × Nat) (s : State) : State :=
  match portOf s p with
  | none => s
  | some r =>
    if r.confirmed = some r.desired then modPort p (fun r => { r with sync := .inSync, cls := none, unpark := .refresh }) s
    else joinQueue r.unpark p (modPort p (fun x => { x with sync := .pending, cls := some r.unpark, unpark := .refresh }) s)

/-- The park conditions of a port are evaluated again: a PENDING port may park and a PARKED port may unpark. -/
def reparkPort (p : Nat × Nat) (s : State) : State :=
  match portOf s p with
  | none => s
  | some r =>
    if parkHoldsAt s p.1 then (if r.sync = .pending then parkPort p s else s)
    else (if r.sync = .parked then unparkPort p s else s)

/-- The same for every port of the tap indices given, in ascending tap index and port number. -/
def reparkTaps (taps : List Nat) (s : State) : State := (portsOf taps).foldl (fun s p => reparkPort p s) s

/-- The indices of the loaded taps in a segment. -/
def tapsIn (s : State) (seg : Nat) : List Nat := (s.plant.taps.filter (fun t => t.2.segment = seg)).map (·.1)

/-- A forced refresh of a port (R60). -/
def forceRefresh (p : Nat × Nat) (s : State) : State :=
  match portOf s p with
  | none => s
  | some r =>
    if r.sync = .inSync || r.sync = .dropped then
      if parkHoldsAt s p.1 then modPort p (fun r => { r with sync := .parked, cls := none, confirmed := none }) s
      else pend .refresh p s
    else s

/-- A forced refresh of every port of the tap indices given, in ascending tap index and port number. -/
def forceTaps (taps : List Nat) (s : State) : State := (portsOf taps).foldl (fun s p => forceRefresh p s) s

/-! ## The end of a command (R56, R57, R59) -/

/-- An acknowledgment of a port command is taken (R56). -/
def ackPort (p : Nat × Nat) (s : State) : State :=
  match portOf s p with
  | none => s
  | some r =>
    let s := modPort p (fun r => { r with confirmed := r.inFlight, inFlight := none, attempts := 0, cls := none }) s
    if r.inFlight = some r.desired then modPort p (fun r => { r with sync := .inSync }) s
    else pend (r.cls.getD .refresh) p s

/-- The outcome of a craft TEST acts on its port (R59, R83): the confirmed content is the test content, or UNKNOWN. -/
def testPort (p : Nat × Nat) (confirmed : Option Content) (s : State) : State :=
  modPort p (fun r =>
    { r with
      confirmed := confirmed
      unpark := .urgent
      sync := if r.sync = .inSync || r.sync = .dropped then .parked else r.sync
      cls := if r.sync = .inSync || r.sync = .dropped then none else r.cls }) s

/-! ## Port bodies in replies (R49, R69) -/

/-- A content as a reply carries it: the enable, then the pass set (R52, R194). -/
def contentBytes (c : Content) : List Byte := flag c.enable ++ passBytes c.pass

/-- A content that may be absent (R194). A confirmed content that is UNKNOWN (R52) is sent like an absent one (the model's choice,
log 71). -/
def optContent : Option Content → List Byte
  | none => absent 13
  | some c => contentBytes c

/-- A port record in the order of R52. -/
def portBytes (r : Port) : List Byte :=
  contentBytes r.desired ++ optContent r.confirmed ++ u8 (syncNum r.sync) ++ u8 (pclassNum r.cls) ++ optContent r.inFlight
    ++ u8 r.attempts ++ u8 (pclassNum (some r.unpark)) ++ opt 2 r.slot

end Sys2Proof.Machine
end

