-- ==== Sys2Proof/Machine/Lineup.lean ====
section
/-! DEFINITION. The line-up engine (Chapter 1): the channel map and the tier table, the matrix line, the carrier ramps and
the settle window. Channels are named by their numbers, 1 to 96. -/

namespace Sys2Proof.Machine

/-! ## The channel map -/

/-- The entry of a channel. -/
def chan (s : State) (c : Nat) : Channel := (s.lineup.map[c - 1]?).getD {}

/-- The state with a function applied to the entry of a channel. -/
def modChan (c : Nat) (f : Channel → Channel) (s : State) : State :=
  { s with lineup.map := lmod s.lineup.map (c - 1) f }

/-- The channels, 1 to 96, ascending. -/
def channels : List Nat := (List.range 96).map (· + 1)

/-- The channel record of 12.3, given whether the channel waits in the ramp queue. -/
def channelBytes (c : Nat) (e : Channel) (waits : Bool) : List Byte :=
  u8 c ++ u8 (sourceNum e.source) ++ u8 (classNum e.cls) ++ u8 e.zones.toNat ++ flag e.eligible
    ++ opt 1 (e.overlay.map (·.val)) ++ u8 (effNum e.eff) ++ u8 (sourceNum e.route) ++ u8 (carrierNum e.carrier)
    ++ u8 e.level ++ flag e.applied ++ flag waits

/-- The channel record of a channel as it stands. -/
def channelRecord (s : State) (c : Nat) : List Byte := channelBytes c (chan s c) (s.lineup.rampQueue.contains c)

/-- The first channel whose effective class is the one given. -/
def channelOfClass (m : List Channel) (k : EffClass) : Option Nat :=
  (m.findIdx? (fun c => c.eff = k)).map (· + 1)

/-- The tier table as the channel map gives it (R4). -/
def tierTableOf (m : List Channel) : TierTable :=
  { free := channelsWhere m (fun c => c.eff = .base .free)
    tiers := (List.range 16).map (fun t => channelsWhere m (fun c => c.eff = .base (.tier (Fin.ofNat 16 t))))
    showing := (List.range 16).map (fun e => channelOfClass m (.ppv (Fin.ofNat 16 e))) }

/-- The effective class that a channel's overlay and base class give (R2). -/
def effOf (c : Channel) : EffClass := match c.overlay with | some e => .ppv e | none => .base c.cls

/-- The displayed route that a channel's base source, its eligible flag and the alert state give (R3). -/
def routeOf (active : Bool) (c : Channel) : Option Nat := if active && c.eligible then some 64 else c.source

/-! ## The matrix command queue and the deferred list -/

/-- The commands of the queue that are unsent (R12). -/
def unsent (s : State) : List MatrixCmd := if s.lineup.inTransfer then s.lineup.queue.drop 1 else s.lineup.queue

/-- A command is a ROUTE for a channel. -/
def isRouteOf (c : Nat) : MatrixCmd → Bool | .route d _ => d = c | .level .. => false

/-- A command is the LEVEL of a channel's current ramp step (R18). -/
def isStepOf (c : Nat) : MatrixCmd → Bool | .route .. => false | .level d _ step => d = c && step

/-- The channel of a command. -/
def cmdChannel : MatrixCmd → Nat | .route c _ => c | .level c _ _ => c

/-- A command for the channel is queued, in transfer or deferred (R15). -/
def hasCommand (s : State) (c : Nat) : Bool :=
  s.lineup.queue.any (fun m => cmdChannel m = c) || s.lineup.deferred.any (fun d => d.channel = c)

/-- In IDLE, with a command in the queue and READY asserted, the head command is sent (R12). -/
def sendHead (s : State) : State :=
  if running s && !s.lineup.fault && !s.lineup.inTransfer && s.lineup.ready && !s.lineup.queue.isEmpty then
    { s with lineup.inTransfer := true }
  else s

/-- The READY timer runs while the queue is not empty and READY is deasserted, outside FAULT (R13). -/
def readyTimerRun (s : State) : State :=
  if !s.lineup.queue.isEmpty && !s.lineup.ready && !s.lineup.fault then
    match s.lineup.readyTimer with
    | some _ => s
    | none => { s with lineup.readyTimer := some 500 }
  else { s with lineup.readyTimer := none }

/-- What the matrix line does after a change of its queue or of READY. -/
def lineRun (s : State) : State := readyTimerRun (sendHead s)

/-- An automatic command joins the tail of the queue, or the deferred list when the queue is full (R10, R11). -/
def joinCommand (m : MatrixCmd) (d : Deferred) (s : State) : State :=
  if s.lineup.queue.length < 256 then lineRun { s with lineup.queue := s.lineup.queue ++ [m] }
  else if s.lineup.deferred.contains d then s
  else { s with lineup.deferred := s.lineup.deferred ++ [d] }

/-- An unsent ROUTE of the queue replaced by a newer one for its channel (R10). -/
def replaceRoute (c : Nat) (src : Option Nat) (s : State) : State :=
  let put := fun (l : List MatrixCmd) => l.map (fun m => if isRouteOf c m then .route c src else m)
  if s.lineup.inTransfer then { s with lineup.queue := s.lineup.queue.take 1 ++ put (s.lineup.queue.drop 1) }
  else { s with lineup.queue := put s.lineup.queue }

/-- A ROUTE carrying a channel's displayed route is queued, replaces the unsent one, or is deferred (R10, R11). -/
def queueRoute (c : Nat) (s : State) : State :=
  let src := (chan s c).route
  if (unsent s).any (isRouteOf c) then replaceRoute c src s
  else joinCommand (.route c src) ⟨c, false⟩ s

/-- A ROUTE for the channel needs room in the queue and there is none (R7). -/
def routeBlocked (s : State) (c : Nat) : Bool :=
  !(unsent s).any (isRouteOf c) && !s.lineup.deferred.contains ⟨c, false⟩ && decide (256 ≤ s.lineup.queue.length)

/-- The ramp record of a channel. -/
def rampOf (s : State) (c : Nat) : Option Ramp := s.lineup.ramps.find? (fun r => r.channel = c)

/-- The state with a function applied to the ramp record of a channel. -/
def modRamp (c : Nat) (f : Ramp → Ramp) (s : State) : State :=
  { s with lineup.ramps := s.lineup.ramps.map (fun r => if r.channel = c then f r else r) }

/-- The command that a deferred entry becomes when it is queued: the displayed route, or the level the channel's ramp
waits to command, as they then stand (R11). -/
def deferredCommand (s : State) (d : Deferred) : MatrixCmd :=
  if d.isLevel then .level d.channel (match rampOf s d.channel with | some r => r.step | none => (chan s d.channel).level) true
  else .route d.channel (chan s d.channel).route

/-- At a departure the head entry of the deferred list joins the tail of the queue (R11). -/
def departure (s : State) : State :=
  match s.lineup.deferred with
  | [] => s
  | d :: ds => { s with lineup.queue := s.lineup.queue ++ [deferredCommand s d], lineup.deferred := ds }

/-! ## Recomputation of routes and classes (R2, R3, R4, R5, R38) -/

/-- A channel's displayed route is recomputed; a change clears the applied flag and in RUN queues a ROUTE (R3). -/
def recomputeRoute (c : Nat) (s : State) : State :=
  let r := routeOf s.schedule.active (chan s c)
  if r = (chan s c).route then s
  else
    let s := modChan c (fun e => { e with route := r, applied := false }) s
    if running s then queueRoute c s else s

/-- The displayed route of every channel is recomputed, in ascending channel order (R38). -/
def recomputeRoutes (s : State) : State := channels.foldl (fun s c => recomputeRoute c s) s

/-- The event in hand has changed the effective class or the blackout set of a channel (R5). -/
def markChanged (s : State) : State := { s with lineup.changed := true }

/-- A change of a channel's base class, blackout set or overlay: the effective class and the tier table are recomputed,
and a channel whose effective class or blackout set changed is among those that the event will hand on (R2, R4, R5). -/
def changeClass (c : Nat) (f : Channel → Channel) (s : State) : State :=
  let old := chan s c
  let s := modChan c (fun e => let e := f e; { e with eff := effOf e }) s
  let new := chan s c
  let s := if new.eff = old.eff then s else { s with lineup.table := tierTableOf s.lineup.map }
  if new.eff = old.eff && new.zones = old.zones then s else markChanged s

/-- At the end of an event the channels whose effective class or blackout set it changed are handed to pass-set derivation,
once and together, those that returned to what they were included (R5). -/
def handOff (s : State) : State :=
  if s.lineup.changed then rederiveServed { s with lineup.changed := false } else s

/-- A write of base fields of a channel: the class and blackout part with R2, R4 and R5, then the route part with R3. -/
def writeBase (c : Nat) (source : Option (Option Nat)) (cls : Option BaseClass) (zones : Option ZoneSet)
    (eligible : Option Bool) (s : State) : State :=
  let s := changeClass c (fun e => { e with cls := cls.getD e.cls, zones := zones.getD e.zones }) s
  let s := modChan c (fun e => { e with source := source.getD e.source, eligible := eligible.getD e.eligible }) s
  recomputeRoute c s

/-- The event unit sets the overlay of a channel (R2, R137). -/
def setOverlay (c : Nat) (e : Fin 16) (s : State) : State := changeClass c (fun x => { x with overlay := some e }) s

/-- The event unit removes the overlay of a channel, naming its event; another event's overlay stays (R2, R137). -/
def removeOverlay (c : Nat) (e : Fin 16) (s : State) : State :=
  changeClass c (fun x => if x.overlay = some e then { x with overlay := none } else x) s

/-! ## Carrier ramps (R17, R18, R19, R21) -/

/-- The next step of a ramp is issued (R18): the step level, the phase COMMAND, and a LEVEL queued or deferred, which
clears the applied flag (R15). -/
def issueStep (c : Nat) (s : State) : State :=
  match rampOf s c with
  | none => s
  | some r =>
    let lvl := (chan s c).level
    let v := if r.up then lvl + 1 else lvl - 1
    let s := modRamp c (fun r => { r with phase := .command, step := v, left := 0 }) s
    joinCommand (.level c v true) ⟨c, true⟩ (modChan c (fun e => { e with applied := false }) s)

/-- The channel at the head of the ramp queue starts ramping if it may (R17), which opens the settle window (R21). -/
def startRamp (s : State) : State :=
  if running s && !s.lineup.fault && decide (s.lineup.ramps.length < 2) then
    match s.lineup.rampQueue with
    | [] => s
    | c :: q =>
      let up : Bool := (chan s c).carrier = .waitUp
      issueStep c (modChan c (fun e => { e with carrier := if up then .rampUp else .rampDown })
        { s with
          lineup.rampQueue := q
          lineup.ramps := s.lineup.ramps ++ [⟨c, up, .command, 0, 0⟩]
          lineup.settleOpen := true
          lineup.settleTimer := none })
  else s

/-- Waiting channels start while places are free, in queue order: at most two (R17). -/
def startRamps (s : State) : State := startRamp (startRamp s)

/-- A ramp ends: its channel leaves the ramp set, the settle timer starts if the set is empty, and the next waiting
channel may start (R17, R18, R21). -/
def endRamp (c : Nat) (s : State) : State :=
  let rest := s.lineup.ramps.filter (fun r => r.channel ≠ c)
  startRamps { s with
    lineup.ramps := rest
    lineup.deferred := s.lineup.deferred.filter (fun d => d ≠ ⟨c, true⟩)
    lineup.settleTimer := if rest.isEmpty then some 5000 else s.lineup.settleTimer }

/-- After a reversal the next step is issued in the new direction, or the ramp ends where there is none to take (R19). -/
def stepOrEnd (c : Nat) (up : Bool) (s : State) : State :=
  let lvl := (chan s c).level
  if up && decide (8 ≤ lvl) then endRamp c (modChan c (fun e => { e with carrier := .on }) s)
  else if !up && lvl = 0 then endRamp c (modChan c (fun e => { e with carrier := .off }) s)
  else issueStep c s

/-- The unsent LEVEL of a ramp's step removed from the queue (R19). -/
def removeStep (c : Nat) (s : State) : State :=
  if s.lineup.inTransfer then
    { s with lineup.queue := s.lineup.queue.take 1 ++ (s.lineup.queue.drop 1).filter (fun m => !isStepOf c m) }
  else { s with lineup.queue := s.lineup.queue.filter (fun m => !isStepOf c m) }

/-- A request turns the direction of a ramping channel (R19). Where that withdraws the channel's last command and ends the ramp
the applied flag is left no (R15; the model's choice, log 43). Where the withdrawn command was the only one of the queue and the
same event queues another with READY deasserted, be it the step in the new direction or, where the ramp ends, the first step
of a waiting channel, the READY timer runs on (R13; the model's choice, log 46). -/
def reverseRamp (c : Nat) (up : Bool) (s : State) : State :=
  match rampOf s c with
  | none => s
  | some r =>
    let s := modChan c (fun e => { e with carrier := if up then .rampUp else .rampDown })
      (modRamp c (fun r => { r with up := up }) s)
    match r.phase with
    | .dwell => stepOrEnd c up s
    | .command =>
      if (unsent s).any (isStepOf c) then lineRun (stepOrEnd c up (departure (removeStep c s)))
      else if s.lineup.deferred.contains ⟨c, true⟩ then
        stepOrEnd c up { s with lineup.deferred := s.lineup.deferred.filter (fun d => d ≠ ⟨c, true⟩) }
      else s

/-- A carrier request acts on the carrier state (R9). -/
def carrierRequest (c : Nat) (on : Bool) (s : State) : State :=
  match (chan s c).carrier, on with
  | .off, true =>
    startRamps { modChan c (fun e => { e with carrier := .waitUp }) s with lineup.rampQueue := s.lineup.rampQueue ++ [c] }
  | .waitUp, false =>
    { modChan c (fun e => { e with carrier := .off }) s with lineup.rampQueue := s.lineup.rampQueue.filter (· ≠ c) }
  | .rampUp, false => reverseRamp c false s
  | .on, false =>
    startRamps { modChan c (fun e => { e with carrier := .waitDown }) s with lineup.rampQueue := s.lineup.rampQueue ++ [c] }
  | .waitDown, true =>
    { modChan c (fun e => { e with carrier := .on }) s with lineup.rampQueue := s.lineup.rampQueue.filter (· ≠ c) }
  | .rampDown, true => reverseRamp c true s
  | _, _ => s

/-! ## The bank's READY line (R12, R13, R14, R15) -/

/-- The applied flag after the acceptance of a command for the channel (R15). -/
def judgeApplied (c : Nat) (s : State) : State :=
  if !hasCommand s c && (chan s c).accepted = some (chan s c).route then
    modChan c (fun e => { e with applied := true }) s
  else s

/-- The acceptance of a LEVEL (R18): the carrier level is recorded, and the ramp whose current step issued it ends or
dwells. -/
def acceptLevel (c v : Nat) (step : Bool) (s : State) : State :=
  let s := modChan c (fun e => { e with level := v }) s
  match rampOf s c with
  | none => s
  | some r =>
    if !step then s
    else if r.up && v = 8 then endRamp c (modChan c (fun e => { e with carrier := .on }) s)
    else if !r.up && v = 0 then endRamp c (modChan c (fun e => { e with carrier := .off }) s)
    else modRamp c (fun r => { r with phase := .dwell, left := s.params.rampStep }) s

/-- The bank accepts the command in transfer (R12): it leaves the queue, its effect is recorded, a deferred entry is
queued, and the next head command is sent. -/
def acceptHead (s : State) : State :=
  match s.lineup.queue with
  | [] => s
  | m :: q =>
    let s := { s with lineup.queue := q, lineup.inTransfer := false }
    match m with
    | .route c src => lineRun (judgeApplied c (departure (modChan c (fun e => { e with accepted := some src }) s)))
    | .level c v step => lineRun (judgeApplied c (acceptLevel c v step (departure s)))

/-- A READY assertion ends the fault (R14, R20): a ROUTE that was in transfer is dropped where a newer one for its channel
waits behind it. -/
def endFault (s : State) : State :=
  let sent := s.lineup.inTransfer
  let s := { s with lineup.fault := false, lineup.inTransfer := false }
  let s := notice nkMatrixReady false [] s
  let s := match s.lineup.queue with
    | .route c _ :: q => if sent && q.any (isRouteOf c) then departure { s with lineup.queue := q } else s
    | _ => s
  startRamps (lineRun s)

/-- The three bytes of a matrix command (12.3): 0x01 for ROUTE or 0x02 for LEVEL, the channel, and the source, 0xFF for NONE, or
the level. -/
def matrixBytes : MatrixCmd → List Byte
  | .route c src => u8 1 ++ u8 c ++ u8 (sourceNum src)
  | .level c v _ => u8 2 ++ u8 c ++ u8 v

/-- What the matrix line carries: the bytes of the command in transfer, or nothing (R12, R192). -/
def matrixLine (s : State) : List Byte :=
  if s.lineup.inTransfer then (s.lineup.queue.head?.map matrixBytes).getD [] else []

/-- The kind of a command: ROUTE 0, LEVEL 1 (R194; log 20). -/
def cmdKind : MatrixCmd → Nat | .route .. => 0 | .level .. => 1

/-- The READY timer expires: FAULT, with the notice MATRIX_FAULT (R13). -/
def raiseFault (s : State) : State :=
  let s := { s with lineup.fault := true, lineup.readyTimer := none }
  notice nkMatrixFault true
    (u16 s.lineup.queue.length ++ u16 s.lineup.deferred.length
      ++ opt 1 (s.lineup.queue.head?.map cmdChannel) ++ opt 1 (s.lineup.queue.head?.map cmdKind)) s

/-- GO queues one ROUTE and one LEVEL for each channel, in ascending order, and starts waiting ramps (R16, R17). -/
def goLineup (s : State) : State :=
  startRamps (channels.foldl (fun s c =>
    let e := chan s c
    joinCommand (.level c e.level false) ⟨c, true⟩
      (joinCommand (.route c e.route) ⟨c, false⟩ (modChan c (fun e => { e with applied := false }) s))) s)

end Sys2Proof.Machine
end

