-- ==== Sys2Proof/Machine/Schedule.lean ====
section
/-! DEFINITION. The line-up orders (R6, R7, R9), the schedule unit with its orders (Chapter 2), and the alert claims. -/

namespace Sys2Proof.Machine

/-! ## Line-up orders -/

/-- A channel number, 1 to 96. -/
def isChannel (c : Nat) : Bool := decide (1 ≤ c) && decide (c ≤ 96)

/-- LOAD-CHANNEL (R6). -/
def orderLoadChannel (p : LoadChannelArgs) (s : State) : State :=
  if running s then refuse .state s
  else match isChannel p.channel, sourceArg p.source, classArg p.cls, flagArg p.eligible with
    | true, some src, some cls, some el =>
      if 2 < p.request then refuse .badArg s
      else
        let c := p.channel
        let s := writeBase c (some src) (some cls) (some p.zones) (some el) s
        let s := modChan c (fun e => { e with
          applied := false
          carrier := if p.request = 0 then .off else if p.request = 1 then .on else .waitUp
          level := if p.request = 1 then 8 else 0 }) s
        let q := s.lineup.rampQueue
        let s := { s with lineup.rampQueue :=
          if p.request = 2 then (if q.contains c then q else q ++ [c]) else q.filter (· ≠ c) }
        answer .ok (channelRecord s c) (handOff s)
    | _, _, _, _ => refuse .badArg s

/-- The fields of SET-CHANNEL that are present have legal values (R6, R7). -/
def setChannelLegal (p : SetChannelArgs) : Bool :=
  isChannel p.channel && p.source.all (fun v => (sourceArg v).isSome) && p.cls.all (fun v => (classArg v).isSome)
    && p.eligible.all (fun v => (flagArg v).isSome)

/-- The writes of SET-CHANNEL would produce a ROUTE command in RUN (R3, R7). -/
def setChannelRoutes (p : SetChannelArgs) (s : State) : Bool :=
  let e := chan s p.channel
  let e' := { e with source := (p.source.bind sourceArg).getD e.source, eligible := (p.eligible.bind flagArg).getD e.eligible }
  running s && decide (routeOf s.schedule.active e' ≠ e.route)

/-- SET-CHANNEL (R7). -/
def orderSetChannel (p : SetChannelArgs) (s : State) : State :=
  if !setChannelLegal p then refuse .badArg s
  else if setChannelRoutes p s && routeBlocked s p.channel then refuse .full s
  else
    let s := writeBase p.channel (p.source.bind sourceArg) (p.cls.bind classArg) p.zones (p.eligible.bind flagArg) s
    answer .ok (channelRecord s p.channel) (handOff s)

/-- CARRIER (R9). -/
def orderCarrier (c request : Nat) (s : State) : State :=
  match isChannel c, onOffArg request with
  | true, some on => let s := carrierRequest c on s; answer .ok (channelRecord s c) s
  | _, _ => refuse .badArg s

/-! ## The schedule queue -/

/-- An entry is due: its due minute is at or before the current minute (2.1). -/
def isDue (s : State) (e : Entry) : Bool := decide (e.due ≤ minuteOf s)

/-- The number of due entries. -/
def dueCount (s : State) : Nat := (s.schedule.entries.filter (isDue s)).length

/-- An entry's change is made to the channel map (R8, R26). -/
def applyChange (c : Nat) (k : Change) (s : State) : State :=
  match k with
  | .route v => writeBase c (some v) none none none s
  | .cls v => writeBase c none (some v) none none s
  | .blackout z => writeBase c none none (some z) none s
  | .carrier on => carrierRequest c on s

/-- The head entry is applied and leaves the queue (R26). -/
def applyHead (s : State) : State :=
  match s.schedule.entries with
  | [] => s
  | e :: es => applyChange e.channel e.change { s with schedule.entries := es }

/-- SCHEDULE_HALT names the entry that turned step mode on (R28). -/
def haltNotice (e : Entry) (s : State) : State :=
  notice nkScheduleHalt false (u16 e.id ++ u32 e.due ++ u8 e.channel ++ u16 (dueCount s)) s

/-- Due entries are applied in queue order with step mode off, until a HALT entry turns it on (R27, R28). -/
def applyDue : Nat → State → State
  | 0, s => s
  | n + 1, s =>
    match s.schedule.entries with
    | [] => s
    | e :: _ =>
      if !isDue s e then s
      else if e.halt then haltNotice e { s with schedule.stepMode := true }
      else applyDue n (applyHead s)

/-- Every due entry is applied, whatever its flag (R30). -/
def applyAll : Nat → State → State
  | 0, s => s
  | n + 1, s =>
    match s.schedule.entries with
    | [] => s
    | e :: _ => if isDue s e then applyAll n (applyHead s) else s

/-- The schedule unit takes a minute boundary (R27, R29). -/
def scheduleBoundary (s : State) : State :=
  if s.schedule.stepMode then s else applyDue s.schedule.entries.length s

/-- The next id after one: past the values that queued entries hold (R22). -/
def nextFreeId : Nat → List Entry → Nat → Nat
  | 0, _, i => i
  | n + 1, es, i => if es.any (fun e => e.id = i) then nextFreeId n es ((i + 1) % 65536) else i

/-- An entry takes the next id, which advances (R22). -/
def advanceId (s : State) : State :=
  { s with schedule.nextId := nextFreeId 129 s.schedule.entries ((s.schedule.nextId + 1) % 65536) }

/-- Two entries have the same channel, change kind and due minute (R24). -/
def sameEntry (a b : Entry) : Bool :=
  a.channel = b.channel && changeKind a.change = changeKind b.change && a.due = b.due

/-- An entry's place: after every entry due at or before it, before every later one (R24). -/
def insertEntry (e : Entry) (es : List Entry) : List Entry :=
  es.takeWhile (fun x => decide (x.due ≤ e.due)) ++ e :: es.dropWhile (fun x => decide (x.due ≤ e.due))

/-- The insertion of R24: an equal entry is removed, and the id advances. -/
def insertR24 (e : Entry) (s : State) : State :=
  advanceId { s with schedule.entries := insertEntry e (s.schedule.entries.filter (fun x => !sameEntry x e)) }

/-- No equal entry stands in a queue of 128 (R24). -/
def scheduleFull (e : Entry) (s : State) : Bool :=
  !s.schedule.entries.any (fun x => sameEntry x e) && decide (128 ≤ s.schedule.entries.length)

/-- SCHEDULE-ADD (R23, R24, R25). The disposition is QUEUED 0, APPLIED 1 or HALTED 2. -/
def orderScheduleAdd (p : ScheduleArgs) (s : State) : State :=
  match isChannel p.channel, changeArg p.kind p.value, flagArg p.halt with
  | true, some k, some halt =>
    let e : Entry := ⟨s.schedule.nextId, p.due, p.channel, k, halt⟩
    if isDue s e && !s.schedule.stepMode && !halt then
      answer .ok (u16 e.id ++ u8 1) (handOff (applyChange e.channel e.change (advanceId s)))
    else if scheduleFull e s then refuse .full s
    else if isDue s e && !s.schedule.stepMode then
      answer .ok (u16 e.id ++ u8 2) (haltNotice e { insertR24 e s with schedule.stepMode := true })
    else answer .ok (u16 e.id ++ u8 0) (insertR24 e s)
  | _, _, _ => refuse .badArg s

/-- STEP-MODE (R30). The flag is reported as 1 for on (the model's choice, log 72). -/
def orderStepMode (request : Nat) (s : State) : State :=
  match onOffArg request with
  | none => refuse .badArg s
  | some true => answer .ok (flag true ++ u16 0) { s with schedule.stepMode := true }
  | some false =>
    let n := if s.schedule.stepMode then dueCount s else 0
    let s := if s.schedule.stepMode then
      handOff (applyAll s.schedule.entries.length { s with schedule.stepMode := false }) else s
    answer .ok (flag false ++ u16 n) s

/-- STEP (R31). -/
def orderStep (s : State) : State :=
  if !s.schedule.stepMode then refuse .state s
  else match s.schedule.entries with
    | [] => refuse .nothingDue s
    | e :: _ =>
      if !isDue s e then refuse .nothingDue s
      else
        let s := handOff (applyHead s)
        answer .ok (u16 e.id ++ u32 e.due ++ u8 e.channel ++ u8 (changeKind e.change) ++ u16 (dueCount s)) s

/-- SCHEDULE-CANCEL (R32). -/
def orderScheduleCancel (id : Nat) (s : State) : State :=
  match s.schedule.entries.find? (fun e => e.id = id) with
  | none => refuse .badArg s
  | some e =>
    answer .ok (u32 e.due ++ u8 e.channel ++ u8 (changeKind e.change))
      { s with schedule.entries := s.schedule.entries.filter (fun x => x.id ≠ id) }

/-- A schedule entry in the order of R22. -/
def entryBytes (e : Entry) : List Byte :=
  u16 e.id ++ u32 e.due ++ u8 e.channel ++ u8 (changeKind e.change) ++ u8 (changeValue e.change) ++ flag e.halt

/-- SCHEDULE-LIST (R33). -/
def orderScheduleList (start : Nat) (s : State) : State :=
  answer .ok (u16 s.schedule.entries.length ++ flag s.schedule.stepMode ++ u16 (dueCount s)
    ++ listOf entryBytes ((s.schedule.entries.drop start).take 32)) s

/-! ## The alert (2.4) -/

/-- The causes of a change of a claim, numbered in the order of R39. -/
inductive AlertCause where
  | alertStart | alertEnd | hostLapse | lineAssert | lineDeassert | lineAtStart
deriving DecidableEq, Repr

/-- The number of an alert cause (R39, R194). -/
def alertCauseNum : AlertCause → Nat
  | .alertStart => 0 | .alertEnd => 1 | .hostLapse => 2 | .lineAssert => 3 | .lineDeassert => 4 | .lineAtStart => 5

/-- The alert state and both claims as replies and notices carry them: ACTIVE 0 or INACTIVE 1, the host claim held with
its end, absent for UNTIL_END, and the line claim (R35, R39; log 20). -/
def alertBytes (s : State) : List Byte :=
  u8 (if s.schedule.active then 0 else 1) ++ flag s.schedule.hostClaim.isSome
    ++ (match s.schedule.hostClaim with | some (.at m) => u32 m | _ => absent 4) ++ flag s.schedule.lineClaim

/-- A change of a claim: the alert state is recomputed, a change of it recomputes every route, and one ALERT_STATE is
queued; a claim already in the state the event would give it queues none (R34, R38, R39). -/
def changeClaim (cause : AlertCause) (host : Option ClaimEnd) (line : Bool) (s : State) : State :=
  let active := host.isSome || line
  let was := s.schedule.active
  let same : Bool := s.schedule.hostClaim = host && s.schedule.lineClaim = line
  let s := { s with schedule.hostClaim := host, schedule.lineClaim := line, schedule.active := active }
  let s := if active = was then s else recomputeRoutes s
  if same then s else notice nkAlertState true (alertBytes s ++ u8 (alertCauseNum cause) ++ opt 4 (s.time.clock.map (·.1))) s

/-- ALERT-START (R35). -/
def orderAlertStart (duration : Nat) (s : State) : State :=
  let d := clamp 0 120 duration
  let s := changeClaim .alertStart (some (if d = 0 then .untilEnd else .at (minuteOf s + d))) s.schedule.lineClaim s
  answer .ok (alertBytes s) s

/-- ALERT-END (R35). -/
def orderAlertEnd (s : State) : State :=
  let s := if s.schedule.hostClaim.isSome then changeClaim .alertEnd none s.schedule.lineClaim s else s
  answer .ok (alertBytes s) s

/-- The host claim lapses at a boundary at or after its end minute (R36). -/
def claimBoundary (s : State) : State :=
  match s.schedule.hostClaim with
  | some (.at m) => if m ≤ minuteOf s then changeClaim .hostLapse none s.schedule.lineClaim s else s
  | _ => s

/-- The line claim follows the ALERT input outside STARTING (R37). -/
def alertInput (level : Bool) (s : State) : State :=
  let s := { s with schedule.alertInput := level }
  if s.link.op = .starting || s.schedule.lineClaim = level then s
  else changeClaim (if level then .lineAssert else .lineDeassert) s.schedule.hostClaim level s

end Sys2Proof.Machine
end

