-- ==== Sys2Proof/Machine/Print.lean ====
section
/-! DEFINITION. The print queue of the craft port (R122) and the words its lines are made of. -/

namespace Sys2Proof.Machine

/-- A number in decimal (R121). -/
def dec (n : Nat) : Text := Nat.toDigits 10 n

/-- A signed number in decimal. -/
def decInt (v : Int) : Text := if v < 0 then '-' :: dec v.natAbs else dec v.natAbs

/-- Words joined by single spaces (log 12). -/
def line : List Text → Text
  | [] => []
  | [w] => w
  | w :: ws => w ++ ' ' :: line ws

/-- A word. -/
def word (x : String) : Text := x.toList

/-- A yes or no in a craft line: 1 or 0 (log 12). -/
def flagWord (b : Bool) : Text := if b then ['1'] else ['0']

/-- The lines of a reply of more than 16 lines that join as room appears (R122). -/
def fillPrint (s : State) : State :=
  let n := 16 - s.craft.print.length
  { s with craft.print := s.craft.print ++ s.craft.rest.take n, craft.rest := s.craft.rest.drop n }

/-- A reply or a line of the controller's own joins the print queue, as a whole, or is discarded and counted; a reply of
more than 16 lines waits in the unit and joins line by line (R122). -/
def print (ls : List Text) (s : State) : State :=
  if !s.craft.rest.isEmpty then { s with craft.lost := min 255 (s.craft.lost + 1) }
  else if 16 < ls.length then fillPrint { s with craft.rest := ls }
  else if s.craft.print.length + ls.length ≤ 16 then { s with craft.print := s.craft.print ++ ls }
  else { s with craft.lost := min 255 (s.craft.lost + 1) }

/-- One line of words. -/
def printLine (ws : List Text) (s : State) : State := print [line ws] s

/-- An error reply of the craft port (R122). -/
def printErr (code : String) (s : State) : State := printLine [word "ERR", word code] s

/-- The end of a line on the terminal: carriage return and line feed (log 31). -/
def lineEnd : Text := ['\r', '\n']

/-- The line at the head of the print queue has been sent (R122): it leaves the queue, a partial line of the technician
is ended before it and sent again after it, waiting lines join, and LOST n joins where there is room. -/
def lineSent (s : State) : State :=
  match s.craft.print with
  | [] => s
  | l :: ls =>
    let out := if s.craft.buffer.isEmpty then l ++ lineEnd else lineEnd ++ l ++ lineEnd ++ s.craft.buffer
    let s := fillPrint { s with craft.print := ls, craft.output := out }
    if 0 < s.craft.lost && s.craft.rest.isEmpty && decide (s.craft.print.length < 16) then
      { s with craft.print := s.craft.print ++ [line [word "LOST", dec s.craft.lost]], craft.lost := 0 }
    else s

end Sys2Proof.Machine
end

