-- ==== Sys2Proof/Machine/Store.lean ====
section
/-! DEFINITION. The billing store (Chapter 9): bank headers and states, the append queue, journal records and their room, the
store fault, the orders that read, release, clear and lock, and the reading of the journal. -/

namespace Sys2Proof.Machine

/-! ## Headers (R145, R146) -/

/-- A byte of a bank's header. -/
def hdr (b : Bank) (i : Nat) : Byte := cellGet b.cells i

/-- A state byte or marker of the header is programmed: it reads other than 0xFF (R145). -/
def hdrSet (b : Bank) (i : Nat) : Bool := hdr b i ≠ erasedByte

/-- The sequence of a bank, its bytes as they read, whether the field is written, erased or torn (12.5; the model's choice, log
60). -/
def seqOf (b : Bank) : Nat := unbe (cellsRead b.cells 0 2)

/-- The sequence is written. -/
def seqWritten (b : Bank) : Bool := hdrSet b 2

/-- The open minute of a bank. -/
def openMinuteOf (b : Bank) : Nat := unbe (cellsRead b.cells 3 4)

/-- The open minute is written. -/
def openWritten (b : Bank) : Bool := hdrSet b 7

/-- The close minute of a bank. -/
def closeMinuteOf (b : Bank) : Nat := unbe (cellsRead b.cells 8 4)

/-- The close minute is written. -/
def closeWritten (b : Bank) : Bool := hdrSet b 12

/-- The OVERDUE marker is programmed. -/
def overdueSet (b : Bank) : Bool := hdrSet b 17

/-- The OVERFLOW marker is programmed. -/
def overflowSet (b : Bank) : Bool := hdrSet b 18

/-- The state of a bank by its header and content (R146). Rows of the table other than the last are read from the top,
and OPEN needs CLOSED not programmed too, since a marker programmed without those it follows falls under the last row
(log 25). -/
def bankStateOf (b : Bank) : BankState :=
  if bankBlank b then .free
  else if hdrSet b 16 then .erasing
  else if hdrSet b 13 && seqWritten b && !hdrSet b 14 && !hdrSet b 15 then .open_
  else if hdrSet b 13 && hdrSet b 14 && closeWritten b && !hdrSet b 15 then .closing
  else if hdrSet b 13 && hdrSet b 14 && hdrSet b 15 then .closed
  else .erasing

/-- Where a field stands in the header (12.5). -/
def fieldAt : HeaderField → Nat
  | .sequence _ => 0 | .openMinute _ => 3 | .closeMinute _ => 8 | .opened => 13 | .closing => 14 | .closed => 15
  | .released => 16 | .overdue => 17 | .overflow => 18

/-- The bytes programmed for a field: its value and its state byte 0x00, or the marker 0x00 (R145). -/
def fieldBytes : HeaderField → List Byte
  | .sequence n => u16 n ++ [0]
  | .openMinute m => u32 m ++ [0]
  | .closeMinute m => u32 m ++ [0]
  | .opened => [0] | .closing => [0] | .closed => [0] | .released => [0] | .overdue => [0] | .overflow => [0]

/-- The read-back of a field agrees: its value as given and its state byte written, or the marker other than 0xFF (R145). -/
def fieldAgrees (b : Bank) (f : HeaderField) : Bool :=
  match f with
  | .sequence n => cellsRead b.cells 0 2 = u16 n && hdrSet b 2
  | .openMinute m => cellsRead b.cells 3 4 = u32 m && hdrSet b 7
  | .closeMinute m => cellsRead b.cells 8 4 = u32 m && hdrSet b 12
  | .opened => hdrSet b 13
  | .closing => hdrSet b 14
  | .closed => hdrSet b 15
  | .released => hdrSet b 16
  | .overdue => hdrSet b 17
  | .overflow => hdrSet b 18

/-- The bank in a state, if one is. -/
def bankIn (s : State) (k : BankState) : Option BankId :=
  if s.store.a.state = k then some .a else if s.store.b.state = k then some .b else none

/-- The OPEN bank, if one is. Where the scan found two OPEN, which R146 forbids, it is bank A (the model's choice, log 68). -/
def openBank (s : State) : Option BankId := bankIn s .open_

/-! ## Room in the journal (R151, R152) -/

/-- The item is a journal record. -/
def isRecord : StoreItem → Bool | .record .. => true | _ => false

/-- The item is the programming of an OPENED marker. -/
def isOpened : StoreItem → Bool | .header _ .opened => true | _ => false

/-- The items behind the OPENED programming of an opening in the queue, if one is there. -/
def behindOpened (q : List StoreItem) : Option (List StoreItem) :=
  if q.any isOpened then some ((q.dropWhile (fun i => !isOpened i)).drop 1) else none

/-- The free slots of the journal (R151): while an opening waits in the queue they are counted for the new bank
(log 23). With no bank OPEN and no opening waiting there are none (the model's choice, log 77); with two, they are bank A's (the
model's choice, log 68). -/
def freeSlots (s : State) : Nat :=
  match behindOpened s.store.queue with
  | some q => 16383 - (q.filter isRecord).length
  | none =>
    match openBank s with
    | none => 0
    | some i => 16384 - (bank s i).append - (s.store.queue.filter isRecord).length

/-- An item joins the append queue; the path takes it up when it is idle (R151). -/
def joinItem (i : StoreItem) (s : State) : State :=
  { s with
    store.queue := s.store.queue ++ [i]
    store.path := if s.store.path = .idle then .append else s.store.path }

/-- The causes of JOURNAL_LOW, in the order of R152: LOST 0 with the kind of the lost record, LOW 1 with the bank, its
sequence and the free slots. -/
def lowCheck (s : State) : State :=
  match openBank s, behindOpened s.store.queue with
  | some i, none =>
    if freeSlots s ≤ 256 && !s.store.lowMark then
      notice nkJournalLow true (u8 1 ++ u8 (bankNum i) ++ u16 (seqOf (bank s i)) ++ u16 (freeSlots s))
        { s with store.lowMark := true }
    else s
  | _, _ => s

/-- A journal record in its 31 bytes of body: kind, minute, fields, and what is left erased (12.5). -/
def recordBody (kind minute : Nat) (fields : List Byte) : List Byte :=
  let b := u8 kind ++ u32 minute ++ fields
  b ++ List.replicate (31 - b.length) erasedByte

/-- A record joins the queue and claims its slot; the journal minute becomes its minute (R150, R151, R152). -/
def joinRecord (body : List Byte) (o : Origin) (s : State) : State :=
  lowCheck (joinItem (.record body o) { s with store.minute := minuteOf s })

/-- The OVERFLOW programming of a bank waits in the queue. -/
def overflowQueued (s : State) (i : BankId) : Bool :=
  s.store.queue.any (fun x => x = .header i .overflow)

/-- An automatic record is lost for want of a slot (R152): OVERFLOW is programmed once and JOURNAL_LOW queued, with the
kind of the record numbered from 0 in the order of R150 (R194; log 20). -/
def loseRecord (kind : Nat) (s : State) : State :=
  let s := match openBank s with
    | none => s
    | some i => if overflowSet (bank s i) || overflowQueued s i then s else joinItem (.header i .overflow) s
  notice nkJournalLow true (u8 0 ++ u8 (kind - 1)) s

/-- A record of the controller's own is handed to the store (R149, R152). The second result says whether it joined. -/
def appendAuto (kind : Nat) (fields : List Byte) (o : Origin) (s : State) : State × Bool :=
  if s.store.fault then (s, false)
  else if freeSlots s = 0 then (loseRecord kind s, false)
  else (joinRecord (recordBody kind (minuteOf s) fields) o s, true)

/-- A record of a host order is handed to the store; its room was checked at acceptance (R152). -/
def appendHost (kind : Nat) (fields : List Byte) (s : State) : State :=
  joinRecord (recordBody kind (minuteOf s) fields) .order s

/-! ## Record kinds (12.5) -/

/-- SERVICE. -/
abbrev rkService : Nat := 1
/-- PURCHASE. -/
abbrev rkPurchase : Nat := 2
/-- CANCEL. -/
abbrev rkCancel : Nat := 3
/-- OUTAGE. -/
abbrev rkOutage : Nat := 4
/-- MARK. -/
abbrev rkMark : Nat := 5
/-- POWER_UP. -/
abbrev rkPowerUp : Nat := 6
/-- TARIFF. -/
abbrev rkTariff : Nat := 7
/-- ROLL. -/
abbrev rkRoll : Nat := 8
/-- STATEMENT. -/
abbrev rkStatement : Nat := 0x41
/-- TIER_LINE. -/
abbrev rkTierLine : Nat := 0x42
/-- CLOSE. -/
abbrev rkClose : Nat := 0x43

/-- The kind of a record. -/
def recKind (r : List Byte) : Nat := fld r 0 1

/-- The minute of a journal record. -/
def recMinute (r : List Byte) : Nat := fld r 1 4

/-- The fields of a SERVICE or ROLL record. -/
def serviceFields (account slot : Nat) (state : Option SubState) (tiers : TierSet) (segment : Nat) : List Byte :=
  u32 account ++ u16 slot ++ u8 (state.elim 0 subStateNum) ++ u16 tiers.toNat ++ u8 segment

/-- The fields of an OUTAGE record. -/
def outageFields (segment id start cfrom cto : Nat) (qualifies : Bool) : List Byte :=
  u8 segment ++ u8 id ++ u32 start ++ u32 cfrom ++ u32 cto ++ flag qualifies

/-- The slot at which a bank's journal ends: the append point of an OPEN or CLOSING bank, which the recovery scan's walk fixes
(R156), else the end of the region. -/
def journalEnd (b : Bank) : Nat :=
  match b.state with
  | .open_ | .closing => min b.append 16384
  | _ => 16384

/-- The committed journal records of a bank, in slot order (9.3, R156). -/
def journal (b : Bank) : List (List Byte) := records b 1 (journalEnd b - 1)

/-- The rates of a bank: for each tier, its last TARIFF record (R164). -/
def ratesOf (b : Bank) : List Nat :=
  (journal b).foldl (fun l r => if recKind r = rkTariff then l.set (fld r 5 1) (fld r 6 2) else l) (List.replicate 16 0)

/-- The banks whose journals EVENT-DEFINE searches: OPEN, CLOSING or CLOSED (R135). -/
def searchedBanks (s : State) : List Bank :=
  [s.store.a, s.store.b].filter (fun b => b.state = .open_ || b.state = .closing || b.state = .closed)

/-- The accounts of the PURCHASE records of an event id and show start (R135). -/
def purchasersFound (s : State) (e start : Nat) : List Nat :=
  (searchedBanks s).foldl (fun l b => (journal b).foldl (fun l r =>
    if recKind r = rkPurchase && fld r 9 1 = e && fld r 10 4 = start then insertAsc l (fld r 5 4) else l) l) []

/-- A CANCEL record of an event id and show start stands in the banks searched (R134). -/
def cancelFound (s : State) (e start : Nat) : Bool :=
  (searchedBanks s).any (fun b => (journal b).any (fun r =>
    recKind r = rkCancel && fld r 5 1 = e && fld r 6 4 = start))

/-- What an account has spent in the open period (R42, R154). -/
def spendOf (s : State) (account : Nat) : Nat := (tget s.store.spend account).getD 0

/-- A price added to an account's entry of a spend list (R154). -/
def addSpend (l : List (Nat × Nat)) (account price : Nat) : List (Nat × Nat) :=
  tset l account ((tget l account).getD 0 + price)

/-! ## Opening (R147, R164) -/

/-- The sequence that a bank is opened with (R147). -/
def openingSequence (s : State) (i : BankId) : Nat :=
  let o := bank s (otherBank i)
  if o.state = .free || o.state = .erasing then 1 else (seqOf o + 1) % 65536

/-- The opening of a period in a bank with its open minute (R147). -/
def openPeriod (i : BankId) (minute : Nat) (s : State) : State :=
  joinItem (.header i .opened)
    (joinItem (.header i (.openMinute minute)) (joinItem (.header i (.sequence (openingSequence s i))) s))

/-- The 16 TARIFF records of an opening join the queue, in ascending tier order (R164). -/
def joinTariff (s : State) : State :=
  (s.engine.tariff.zipIdx).foldl (fun s x => (appendAuto rkTariff (u8 x.2 ++ u16 x.1) .other s).1) s

/-! ## STORE_FAULT (R149) -/

/-- The causes of STORE_FAULT, in the order of R149. -/
inductive FaultCause where
  | mismatch | voidFailed | erase | scan
deriving DecidableEq, Repr

/-- The number of a cause of STORE_FAULT. -/
def faultCauseNum : FaultCause → Nat | .mismatch => 0 | .voidFailed => 1 | .erase => 2 | .scan => 3

/-- An IDENT whose programming cannot be made is reported to the craft port unit (R131, R149). -/
def identFailed (s : State) : State :=
  if s.craft.ident then printErr "STORE" { s with craft.ident := false } else s

/-- The store enters STORE_FAULT (R149): the notice, the queue discarded, the order that waits on it answered, statement
writing and erases stopped, and a close in SEQUENCE or ROLLING taken on as R166 and R168 give. A page whose erase it stops keeps
its bytes (the model's choice, log 59). -/
def storeFault (cause : FaultCause) (at_ : Option (BankId × Nat)) (s : State) : State :=
  let s := { s with
    store.fault := true
    store.queue := []
    store.path := .idle
    store.a.page := none
    store.b.page := none
    engine.rolls := []
    engine.state := match s.engine.state with | .sequence => .idle | .rolling => .computing | x => x }
  let s := notice nkStoreFault true
    (u8 (faultCauseNum cause) ++ opt 1 (at_.map (fun x => bankNum x.1)) ++ opt 2 (at_.map (·.2))
      ++ opt 4 (s.time.clock.map (·.1))) s
  refuse .storeFault (identFailed s)

/-! ## Orders (9.6, 9.7, R164) -/

/-- The append point that replies report: that of the journal region of an OPEN bank, that of the statement region of a
CLOSING bank, and none for a bank in any other state (R158). -/
def appendShown (b : Bank) : Option Nat :=
  match b.state with | .open_ => some b.append | .closing => some b.stmtAppend | _ => none

/-- One slot as READ-BANK gives it: its state byte and 31 bytes (R158, R193). -/
def slotShown (b : Bank) (i : Nat) : List Byte :=
  if i = 0 then u8 3 ++ (slotBytes b 0).take 31
  else if slotState b i = 0xFF then u8 0 ++ absent 31
  else if slotState b i = 0x0F then u8 1 ++ (slotBytes b i).take 31
  else u8 2 ++ absent 31

/-- READ-BANK (R158). -/
def orderReadBank (bk index count : Nat) (s : State) : State :=
  match bankArg bk with
  | none => refuse .badArg s
  | some i =>
    if count = 0 || 16 < count || 32768 < index + count then refuse .badArg s
    else
      let b := bank s i
      match b.state with
      | .free => refuse .state s
      | .erasing => refuse .busy s
      | .closing => refuse .busy s
      | _ =>
        answer .ok (u8 (bankStateNum b.state) ++ u16 (seqOf b) ++ slotBytes b 0 ++ opt 2 (appendShown b) ++ u8 count
            ++ (List.range count).flatMap (fun k => slotShown b (index + k)))
          (setBank s i { b with watermark := max b.watermark (index + count) })

/-- A bank holds a sequence. -/
def holdsSequence (n : Nat) (b : Bank) : Bool := seqWritten b && seqOf b = n

/-- The bank that RELEASE-BANK names: of two that hold the sequence, the one that is not ERASING (R159). -/
def releaseTarget (s : State) (n : Nat) : Option BankId :=
  let ha := holdsSequence n s.store.a
  let hb := holdsSequence n s.store.b
  if ha && hb then (if s.store.a.state = .erasing then some .b else some .a)
  else if ha then some .a else if hb then some .b else none

/-- The slot of a bank's CLOSE record (R159, R175), if one stands (log 76). -/
def closeSlot (b : Bank) : Option Nat :=
  (committedSlots b 16384 16384).find? (fun i => cellGet b.cells (32 * i) = 0x43)

/-- RELEASE-BANK (R159): answered at the commit of RELEASED. A bank closed without a CLOSE record has no slot for the read
watermark to pass (the model's choice, log 76). -/
def orderReleaseBank (n : Nat) (s : State) : State :=
  if s.store.fault then refuse .storeFault s
  else match releaseTarget s n with
    | none => refuse .badArg s
    | some i =>
      let b := bank s i
      match b.state with
      | .erasing => refuse .busy s
      | .closing => refuse .busy s
      | .closed =>
        if s.store.lock = .effective && (closeSlot b).any (fun k => decide (b.watermark ≤ k)) then refuse .state s
        else joinItem (.header i .released) s
      | _ => refuse .state s

/-- STORE-CLEAR (R160): answered when the RELEASED markers it programs have committed. The spend list is emptied and the read
watermarks are set to 0 at acceptance (the model's choice, log 66). -/
def orderStoreClear (s : State) : State :=
  if running s then refuse .state s
  else if s.store.lock = .effective then refuse .locked s
  else if s.store.fault then refuse .storeFault s
  else if (bankIn s .closing).isSome then refuse .busy s
  else
    let need := fun (i : BankId) => decide ((bank s i).state ≠ .free) && !hdrSet (bank s i) 16
    let s' := { s with store.spend := [], store.a.watermark := 0, store.b.watermark := 0 }
    let s' := if need .a then joinItem (.header .a .released) s' else s'
    let s' := if need .b then joinItem (.header .b .released) s' else s'
    if need .a || need .b then s' else answer .ok [] s'

/-- A word of the identity area. -/
def idWord (d : Identity) : IdTarget → IdWord | .headId => d.headId | .lockA => d.lockA | .lockB => d.lockB

/-- The identity area with a word written. -/
def setIdWord (d : Identity) (w : IdTarget) (v : IdWord) : Identity :=
  match w with | .headId => { d with headId := v } | .lockA => { d with lockA := v } | .lockB => { d with lockB := v }

/-- A word of the identity area is programmed (R161). -/
def idProgrammed (v : IdWord) : Bool := v ≠ 0xFFFFFFFF

/-- Both lock words hold their values (R162). -/
def lockHolds (d : Identity) : Bool := idProgrammed d.headId && d.lockA = d.headId && d.lockB = ~~~ d.headId

/-- LOCK-WRITE (R162): answered when the word has been read back. -/
def orderLockWrite (w value : Nat) (s : State) : State :=
  match bankArg w with
  | none => refuse .badArg s
  | some k =>
    let t : IdTarget := match k with | .a => .lockA | .b => .lockB
    let want := match k with | .a => s.store.identity.headId | .b => ~~~ s.store.identity.headId
    if s.store.fault then refuse .storeFault s
    else if idProgrammed (idWord s.store.identity t) then refuse .locked s
    else if !idProgrammed s.store.identity.headId then refuse .state s
    else if BitVec.ofNat 32 value ≠ want then refuse .badArg s
    else joinItem (.identity t want) s

/-- The sixteen rates as a reply carries them, without a count (R164; the model's choice, log 67). -/
def rateBytes (l : List Nat) : List Byte := l.flatMap u16

/-- The rates of the OPEN bank, absent where none is OPEN. -/
def openRates (s : State) : List Byte :=
  match openBank s with | none => absent 32 | some i => rateBytes (ratesOf (bank s i))

/-- SET-TARIFF (R164). -/
def orderSetTariff (tier rate : Nat) (s : State) : State :=
  if 15 < tier then refuse .badArg s
  else
    let s := { s with engine.tariff := s.engine.tariff.set tier (clamp 0 65535 rate) }
    answer .ok (rateBytes s.engine.tariff ++ openRates s) s

end Sys2Proof.Machine
end

