-- ==== Sys2Proof/Machine/Subs.lean ====
section
/-! DEFINITION. The subscriber unit (3.2) and the event unit (Chapter 8): their orders, what a commit of their records does,
and the event windows. -/

namespace Sys2Proof.Machine

/-! ## Subscriber orders -/

/-- A subscriber slot with its port, as QUERY-SUB gives it (R40, R49). An UNBOUND slot gives its state only. The PPV spend, the
last field of R40's record, is the spend that R49 lists behind it, and is sent once (the model's choice, log 62). The orders that
answer with the slot record as QUERY-SUB gives it (R45 to R47) send all of it (the model's choice, log 74). -/
def subBytes (s : State) (slot : Nat) : List Byte :=
  match tget s.subs slot with
  | none => u8 0
  | some u =>
    u8 (subStateNum u.state) ++ u32 u.account ++ u16 u.tap ++ u8 u.port ++ u16 u.tiers.toNat ++ u32 u.limit
      ++ u32 (spendOf s u.account)
      ++ (match tapAt s u.tap with
          | none => []
          | some (_, t) => match t.ports[u.port]? with
            | none => []
            | some r => contentBytes r.desired ++ optContent r.confirmed ++ u8 (syncNum r.sync) ++ u8 (pclassNum r.cls)
                ++ u8 r.attempts ++ flag t.unreachable.isSome ++ u8 (serviceNum (serviceOf s t.segment)))

/-- The first three checks of the orders that write the journal (R44, R138): RUN, a working store, room. -/
def journalCheck (s : State) : Option StatusCode :=
  if !running s then some .state
  else if s.store.fault then some .storeFault
  else if freeSlots s ≤ 256 then some .journalFull
  else none

/-- The named port has a bound slot (R44, check 6). -/
def portBound (s : State) (tap port : Nat) : Bool :=
  match tapAt s tap with
  | none => false
  | some (_, t) => match t.ports[port]? with | none => false | some r => r.slot.isSome

/-- A bound slot holds the account (R44, check 7). -/
def accountBound (s : State) (account : Nat) : Bool := s.subs.any (fun x => x.2.account = account)

/-- The checks of BIND from the fourth on (R44). -/
def bindCheck (p : BindArgs) (s : State) : Option StatusCode :=
  if 2047 < p.slot then some .badArg
  else if (tget s.subs p.slot).isSome then some .state
  else if portBound s p.tap p.port then some .state
  else if accountBound s p.account then some .state
  else if (tapAt s p.tap).isNone || 3 < p.port || p.account = 0 || (subStateArg p.state).isNone then some .badArg
  else none

/-- The segment of a tap address (R41). -/
def segmentOfTap (s : State) (tap : Nat) : Nat := ((tapAt s tap).map (·.2.segment)).getD 0

/-- BIND at acceptance (R43, R44, R45). -/
def orderBind (p : BindArgs) (s : State) : State :=
  match (journalCheck s).or (bindCheck p s) with
  | some c => refuse c s
  | none => appendHost rkService (serviceFields p.account p.slot (subStateArg p.state) p.tiers (segmentOfTap s p.tap)) s

/-- UNBIND at acceptance (R43, R44, R46). -/
def orderUnbind (slot : Nat) (s : State) : State :=
  match journalCheck s with
  | some c => refuse c s
  | none =>
    if 2047 < slot then refuse .badArg s
    else match tget s.subs slot with
      | none => refuse .state s
      | some u => appendHost rkService (serviceFields u.account slot none 0 (segmentOfTap s u.tap)) s

/-- SET-STATE at acceptance (R43, R44, R47). -/
def orderSetState (slot state : Nat) (s : State) : State :=
  match journalCheck s with
  | some c => refuse c s
  | none =>
    if 2047 < slot then refuse .badArg s
    else match tget s.subs slot with
      | none => refuse .state s
      | some u =>
        match subStateArg state with
        | none => refuse .badArg s
        | some v =>
          if v = u.state then answer .ok (subBytes s slot) s
          else appendHost rkService (serviceFields u.account slot (some v) u.tiers (segmentOfTap s u.tap)) s

/-- SET-TIERS at acceptance (R43, R44, R47). -/
def orderSetTiers (slot : Nat) (tiers : TierSet) (s : State) : State :=
  match journalCheck s with
  | some c => refuse c s
  | none =>
    if 2047 < slot then refuse .badArg s
    else match tget s.subs slot with
      | none => refuse .state s
      | some u =>
        if tiers = u.tiers then answer .ok (subBytes s slot) s
        else appendHost rkService (serviceFields u.account slot (some u.state) tiers (segmentOfTap s u.tap)) s

/-- The greatest PPV limit (R40). -/
def maxLimit : Nat := 1000000

/-- SET-LIMIT (R48). -/
def orderSetLimit (slot limit : Nat) (s : State) : State :=
  if !running s then refuse .state s
  else if 2047 < slot then refuse .badArg s
  else match tget s.subs slot with
    | none => refuse .state s
    | some u =>
      let l := clamp 0 maxLimit limit
      answer .ok (u32 l ++ u32 (spendOf s u.account)) { s with subs := tset s.subs slot { u with limit := l } }

/-- QUERY-SUB (R49). -/
def orderQuerySub (slot : Nat) (s : State) : State :=
  if 2047 < slot then refuse .badArg s else answer .ok (subBytes s slot) s

/-- The sync states of the ports that RESYNC concerned, behind their count, though there is always one or four (R61, R194; the
model's choice, log 80). -/
def syncList (s : State) (ps : List (Nat × Nat)) : List Byte :=
  listOf (fun p => u8 (((portOf s p).map (fun r => syncNum r.sync)).getD 255)) ps

/-- RESYNC (R61) of a slot's port or of a tap's four ports. -/
def orderResync (p : ResyncArgs) (s : State) : State :=
  match p.slot, p.address with
  | some slot, none =>
    if 2047 < slot then refuse .badArg s
    else match (tget s.subs slot).bind (slotPort s) with
      | none => refuse .state s
      | some q => let s := forceRefresh q s; answer .ok (syncList s [q]) s
  | none, some a =>
    if 4095 < a then refuse .badArg s
    else match tapAt s a with
      | none => refuse .badArg s
      | some (i, _) => let s := forceTaps [i] s; answer .ok (syncList s (portsOf [i])) s
  | _, _ => refuse .badArg s

/-- The commit of a SERVICE record: the slot, the binding and the port change, and the order is answered (R43). The reply shows
the port before the choice of work that ends the event (the model's choice, log 42). -/
def serviceCommit (o : Order) (s : State) : State :=
  match o with
  | .bind p =>
    let u : Subscriber := ⟨(subStateArg p.state).getD .active, p.account, p.tap, p.port, p.tiers, clamp 0 maxLimit p.limit⟩
    let s := { s with subs := tset s.subs p.slot u }
    let s := match slotPort s u with | none => s | some q => modPort q (fun r => { r with slot := some p.slot }) s
    let s := rederiveSlot p.slot s
    answer .ok (subBytes s p.slot) s
  | .unbind slot =>
    match tget s.subs slot with
    | none => s
    | some u =>
      let q := slotPort s u
      let s := { s with subs := tdel s.subs slot }
      let s := match q with
        | none => s
        | some q => rederive .urgent q (modPort q (fun r => { r with slot := none }) s)
      answer .ok (u32 u.account ++ u16 u.tap ++ u8 u.port) s
  | .setState slot v =>
    let s := { s with subs := tmod s.subs slot (fun u => { u with state := (subStateArg v).getD u.state }) }
    let s := rederiveSlot slot s
    answer .ok (subBytes s slot) s
  | .setTiers slot v =>
    let s := { s with subs := tmod s.subs slot (fun u => { u with tiers := v }) }
    let s := rederiveSlot slot s
    answer .ok (subBytes s slot) s
  | _ => s

/-! ## Events -/

/-- The event in a slot. -/
def eventOf (s : State) (e : Nat) : Option Event := s.events[e]?.join

/-- The state with an event slot written. -/
def setEvent (e : Nat) (v : Option Event) (s : State) : State := { s with events := s.events.set e v }

/-- The state that an event's minutes give for a minute (R133). -/
def stateGiven (v : Event) (m : Nat) : EventState :=
  if m < v.open_ then .defined else if m < v.start then .onSale else if m < v.stop then .showing else .ended

/-- The place of a state along DEFINED, ON_SALE, SHOWING and ENDED. -/
def stateRank : EventState → Nat
  | .defined => 0 | .onSale => 1 | .showing => 2 | .ended => 3 | .cancelled => 4

/-- The state moves only forward (R133). -/
def forward (old new : EventState) : EventState := if stateRank old < stateRank new then new else old

/-- The event is DEFINED, ON_SALE or SHOWING. -/
def live (v : Event) : Bool := v.state = .defined || v.state = .onSale || v.state = .showing

/-- The event is ON_SALE or SHOWING. -/
def onOffer (v : Event) : Bool := v.state = .onSale || v.state = .showing

/-- The record of an event as replies carry it, with its purchaser count (R132, R135, R140). The state is sent once, in its place
in the record, and no event id is sent (the model's choice, log 51). -/
def eventBytes (v : Event) : List Byte :=
  u8 v.channel ++ u32 v.open_ ++ u32 v.start ++ u32 v.stop ++ u32 v.close ++ u16 v.price
    ++ u8 (eventStateNum (some v.state)) ++ u16 v.purchasers.length

/-- EVENT_STATE (R143). The causes are DEFINE 0, TIME 1, CANCEL 2, REMOVE 3. -/
def eventNotice (e : Nat) (v : Event) (before after : Option EventState) (cause : Nat) (s : State) : State :=
  notice nkEventState false
    (u8 e ++ u8 v.channel ++ u32 v.start ++ u32 v.stop ++ u8 (eventStateNum before) ++ u8 (eventStateNum after) ++ u8 cause
      ++ u16 v.purchasers.length ++ opt 4 (s.time.clock.map (·.1))) s

/-- An event's state is written, and its overlay set when it becomes SHOWING and removed when it leaves it (R137). -/
def moveEvent (e : Nat) (v : Event) (new : EventState) (s : State) : State :=
  let s := setEvent e (some { v with state := new }) s
  if new = .showing && v.state ≠ .showing then setOverlay v.channel (Fin.ofNat 16 e) s
  else if v.state = .showing && new ≠ .showing then removeOverlay v.channel (Fin.ofNat 16 e) s
  else s

/-- Two showings share a minute (R134). -/
def showingsMeet (a b start stop : Nat) : Bool := decide (a < stop) && decide (start < b)

/-- The fifth check of EVENT-DEFINE (R134): an event of another slot stands in the way. -/
def eventClash (p : EventArgs) (s : State) : Bool :=
  (s.events.zipIdx).any (fun x => match x.1 with
    | none => false
    | some v => x.2 ≠ p.event && v.channel = p.channel
        && ((live v && showingsMeet v.start v.stop p.start p.stop) || (v.state = .showing && decide (p.start < v.stop))))

/-- The checks of EVENT-DEFINE (R134). -/
def eventCheck (p : EventArgs) (s : State) : Option StatusCode :=
  if 15 < p.event || !isChannel p.channel then some .badArg
  else if (eventOf s p.event).any onOffer then some .state
  else if !(decide (p.open_ ≤ p.start) && decide (p.start < p.stop) && decide (p.open_ ≤ p.close)
      && decide (p.close ≤ p.stop)) then some .badArg
  else if p.stop ≤ minuteOf s then some .badArg
  else if eventClash p s then some .badArg
  else if cancelFound s p.event p.start then some .state
  else if 2048 < (purchasersFound s p.event p.start).length then some .full
  else none

/-- EVENT-DEFINE (R134, R135). -/
def orderEventDefine (p : EventArgs) (s : State) : State :=
  match eventCheck p s with
  | some c => refuse c s
  | none =>
    let v : Event := ⟨p.channel, p.open_, p.start, p.stop, p.close, p.price, .defined, purchasersFound s p.event p.start⟩
    let before := (eventOf s p.event).map (·.state)
    let new := stateGiven v (minuteOf s)
    let s := handOff (moveEvent p.event v new s)
    let s := eventNotice p.event v before (some new) 0 s
    answer .ok (eventBytes { v with state := new }) s

/-- One event at a minute boundary (R136). -/
def eventBoundaryOne (s : State) (e : Nat) : State :=
  match eventOf s e with
  | none => s
  | some v =>
    let new := forward v.state (stateGiven v (minuteOf s))
    if !live v || new = v.state then s
    else eventNotice e v (some v.state) (some new) 1 (moveEvent e v new s)

/-- The event unit takes a minute boundary, in ascending slot number (R136). -/
def eventBoundary (s : State) : State := (List.range 16).foldl eventBoundaryOne s

/-- EVENT-REMOVE (R142). -/
def orderEventRemove (e : Nat) (s : State) : State :=
  match eventOf s e with
  | none => refuse .badArg s
  | some v =>
    if onOffer v then refuse .state s
    else answer .ok (eventBytes v) (eventNotice e v (some v.state) none 3 (setEvent e none s))

/-- EVENT-CANCEL at acceptance (R141). -/
def orderEventCancel (e : Nat) (s : State) : State :=
  match journalCheck s with
  | some c => refuse c s
  | none =>
    if 15 < e then refuse .badArg s
    else match eventOf s e with
      | none => refuse .state s
      | some v => if onOffer v then appendHost rkCancel (u8 e ++ u32 v.start) s else refuse .state s

/-- The commit of a CANCEL record (R141). -/
def cancelCommit (e : Nat) (s : State) : State :=
  match eventOf s e with
  | none => s
  | some v =>
    let s := eventNotice e v (some v.state) (some .cancelled) 2 (handOff (moveEvent e v .cancelled s))
    answer .ok (eventBytes { v with state := .cancelled }) s

/-- The checks of PURCHASE from the fourth on (R138), with what the record needs. -/
def purchaseCheck (slot e : Nat) (s : State) : Except StatusCode (Subscriber × Event) :=
  if 2047 < slot || 15 < e then .error .badArg
  else match tget s.subs slot with
    | none => .error .state
    | some u =>
      if u.state ≠ .active then .error .state
      else match eventOf s e with
        | none => .error .window
        | some v =>
          if !onOffer v || v.close ≤ minuteOf s then .error .window
          else if v.purchasers.contains u.account then .error .state
          else if 2048 ≤ v.purchasers.length then .error .full
          else if u.limit < spendOf s u.account + v.price then .error .limit
          else .ok (u, v)

/-- PURCHASE at acceptance (R138, R139). -/
def orderPurchase (slot e : Nat) (s : State) : State :=
  match journalCheck s with
  | some c => refuse c s
  | none =>
    match purchaseCheck slot e s with
    | .error c => refuse c s
    | .ok (u, v) => appendHost rkPurchase (u32 u.account ++ u8 e ++ u32 v.start ++ u32 v.stop ++ u16 v.price) s

/-- The commit of a PURCHASE record (R139). -/
def purchaseCommit (slot e : Nat) (s : State) : State :=
  match tget s.subs slot, eventOf s e with
  | some u, some v =>
    let s := { s with store.spend := addSpend s.store.spend u.account v.price }
    let s := setEvent e (some { v with purchasers := insertAsc v.purchasers u.account }) s
    let s := if v.state = .showing then rederiveSlot slot s else s
    answer .ok (u32 u.account ++ u8 e ++ u16 v.price ++ u32 (spendOf s u.account) ++ u32 u.limit) s
  | _, _ => s

end Sys2Proof.Machine
end

