-- ==== Sys2Proof/Machine/Watch.lean ====
section
/-! DEFINITION. The outage log and the plant watches (Chapter 6): opening, closing and eviction of outage records, watch hits,
the watch table and the held list, with their orders. -/

namespace Sys2Proof.Machine

/-! ## Hand-offs of service states (R100) -/

/-- The causes of a hand-off, in the order of R100. -/
inductive HandCause where
  | reply | miss | reload | hold | free | forceFree
deriving DecidableEq, Repr

/-- The number of a hand-off cause (R194). -/
def handCauseNum : HandCause → Nat
  | .reply => 0 | .miss => 1 | .reload => 2 | .hold => 3 | .free => 4 | .forceFree => 5

/-- A change of a segment's service state as it is handed on (R100). -/
structure HandOff where
  segment : Nat
  before  : Service
  after   : Service
deriving DecidableEq, Repr

/-- A segment record. -/
def segOf (s : State) (n : Nat) : Option Segment := tget s.telemetry.segments n

/-- The state with a function applied to a segment record. -/
def modSeg (n : Nat) (f : Segment → Segment) (s : State) : State :=
  { s with telemetry.segments := tmod s.telemetry.segments n f }

/-- The walk of R94 from a segment, its ancestors nearest first: it ends at a segment without a parent, at a parent that
names an empty record, at a segment met for the second time, or after seven links. -/
def ancestorsFrom (segs : List (Nat × Segment)) : Nat → List Nat → Nat → List Nat
  | 0, _, _ => []
  | k + 1, seen, n =>
    match (tget segs n).bind (·.parent) with
    | none => []
    | some p => if (tget segs p).isNone || seen.contains p then [] else p :: ancestorsFrom segs k (p :: seen) p

/-- The ancestors of a segment (R94). -/
def ancestors (segs : List (Nat × Segment)) (n : Nat) : List Nat := ancestorsFrom segs 7 [n] n

/-- The parent of a segment is DARK (R99, R100). -/
def parentDark (s : State) (n : Nat) : Bool :=
  match (segOf s n).bind (·.parent) with
  | none => false
  | some p => match segOf s p with | none => false | some g => g.service = .dark

/-! ## The outage log -/

/-- The record of an outage id. -/
def outageOf (s : State) (id : Nat) : Option Outage := s.outage.records.find? (fun r => r.id = id)

/-- The DARK ancestors of a segment, nearest first, up to the one whose parent is not DARK (R104). -/
def darkAncestors (s : State) (n : Nat) : List Nat :=
  (ancestors s.telemetry.segments n).takeWhile (fun a => (segOf s a).any (fun g => g.service = .dark))

/-- The root record id of an INHERITED record (R104). -/
def rootRecord (s : State) (n : Nat) : Nat :=
  let ids := (darkAncestors s n).filterMap (fun a => (segOf s a).bind (·.openOutage))
  match ids.find? (fun i => (outageOf s i).any (fun r => r.cause = .root)) with
  | some i => i
  | none => ids.getLast?.getD 0

/-- The fields of an outage record in the order of R102. -/
def outageBytes (r : Outage) : List Byte :=
  u8 r.id ++ u8 r.segment ++ u32 r.start ++ opt 4 (r.stop.map (·.1))
    ++ (match r.cause with | .root => u8 0 ++ absent 1 | .inherited i => u8 1 ++ u8 i)
    ++ opt 1 (r.stop.map (fun x => match x.2 with | .restored => 0 | .held => 1 | .shadowed => 2))
    ++ flag r.credit ++ flag r.acked

/-- The first outage id, from one on, that no record of the log holds (R103). -/
def freeOutageId : Nat → List Outage → Nat → Nat
  | 0, _, i => i
  | k + 1, l, i => if l.any (fun r => r.id = i) then freeOutageId k l ((i + 1) % 256) else i

/-- A full log removes its oldest closed record (R103). Its OUTAGE record still in the append queue is written in its
turn, but its commit is not reported to the log any more (log 32). -/
def evict (s : State) : State :=
  if s.outage.records.length < 64 then s
  else match s.outage.records.find? (fun r => r.stop.isSome) with
    | none => s
    | some r =>
      let s := { s with
        outage.records := s.outage.records.filter (fun x => x.id ≠ r.id)
        store.queue := s.store.queue.map (fun i => match i with
          | .record b (.outage (some k)) => if k = r.id then .record b (.outage none) else i
          | i => i) }
      if r.acked then s else notice nkOutageEvicted false (outageBytes r) s

/-- A segment that became DARK opens an outage record (R103, R104): the next id is assigned and advances past those of the
records in the log, then a full log removes a record, and the new one joins. -/
def openOutage (n : Nat) (cause : HandCause) (s : State) : State :=
  match segOf s n with
  | none => s
  | some g =>
    let root : Bool := g.condition = .outage && !parentDark s n
    let minute := minuteOf s
    let start := if root && (cause = .reply || cause = .miss || cause = .reload) then g.missMinute.getD minute else minute
    let kind : OutageCause := if root then .root else .inherited (rootRecord s n)
    let id := s.outage.nextId
    let s := evict { s with outage.nextId := freeOutageId 65 s.outage.records ((id + 1) % 256) }
    let s := { s with outage.records := s.outage.records ++ [⟨id, n, start, none, kind, false, false⟩] }
    let s := modSeg n (fun g => { g with openOutage := some id }) s
    notice nkOutageOpen root
      (u8 id ++ u8 n ++ (match kind with | .root => u8 0 ++ absent 1 | .inherited i => u8 1 ++ u8 i) ++ u32 start
        ++ u32 minute ++ u8 (handCauseNum cause)) s

/-- The qualifies value of an outage of a length (R106, R167). -/
def qualifies (threshold length : Nat) : Bool :=
  if threshold = 0 then decide (1 ≤ length) else decide (threshold ≤ length)

/-- The open minute that the outage log reads: during a close sequence c (R165), else that of the OPEN bank (R105). While an
opening is under way it is the minute that the opening bears, whether that stands in the queue or is programmed already,
and with neither an OPEN bank nor an opening it is 0 (the model's choice, log 57). -/
def currentOpenMinute (s : State) : Nat :=
  if s.engine.state = .sequence then s.engine.minute
  else match s.store.queue.findSome? (fun i => match i with
      | .header _ (.openMinute m) => some m
      | .header k .opened => if openWritten (bank s k) then some (openMinuteOf (bank s k)) else none
      | _ => none) with
    | some m => m
    | none => match openBank s with
      | none => 0
      | some i => if openWritten (bank s i) then openMinuteOf (bank s i) else 0

/-- The close reason for a service state that follows DARK (R105). -/
def closeReason : Service → CloseReason | .held => .held | .shadow => .shadowed | _ => .restored

/-- A segment that left DARK closes its open record: the OUTAGE record is handed to the store and OUTAGE_CLOSE queued
(R105, R106). -/
def closeOutage (n : Nat) (after : Service) (s : State) : State :=
  match (segOf s n).bind (·.openOutage) with
  | none => s
  | some id =>
    match outageOf s id with
    | none => s
    | some r =>
      let minute := minuteOf s
      let r := { r with stop := some (minute, closeReason after) }
      let q := qualifies s.params.creditThreshold (minute - r.start)
      let s := { s with outage.records := s.outage.records.map (fun x => if x.id = id then r else x) }
      let s := modSeg n (fun g => { g with openOutage := none }) s
      let s := (appendAuto rkOutage
        (outageFields n id r.start (max r.start (currentOpenMinute s)) minute q) (.outage (some id)) s).1
      notice nkOutageClose false (outageBytes r ++ flag q) s

/-- The outage log takes one hand-off (6.2). -/
def takeHandOff (cause : HandCause) (s : State) (h : HandOff) : State :=
  if h.after = .dark then openOutage h.segment cause s
  else if h.before = .dark then closeOutage h.segment h.after s
  else s

/-- The commit of the OUTAGE record of an outage (R107). -/
def creditCommit (id : Option Nat) (s : State) : State :=
  match id with
  | none => s
  | some i => { s with outage.records := s.outage.records.map (fun r => if r.id = i then { r with credit := true } else r) }

/-- ACK-OUTAGE (R108). -/
def orderAckOutage (id : Nat) (s : State) : State :=
  match outageOf s id with
  | none => refuse .badArg s
  | some r =>
    let r := { r with acked := true }
    answer .ok (outageBytes r) { s with outage.records := s.outage.records.map (fun x => if x.id = id then r else x) }

/-- The OUTAGE record of an outage still waits in the append queue (R107). -/
def creditWaiting (s : State) (id : Nat) : Bool :=
  s.store.queue.any (fun i => match i with | .record _ (.outage (some k)) => k = id | _ => false)

/-- The records of a selection of LIST-OUTAGES: ALL 0, OPEN 1, UNACKNOWLEDGED 2 (R109). -/
def outageSelection (k : Nat) (l : List Outage) : Option (List Outage) :=
  match k with
  | 0 => some l
  | 1 => some (l.filter (fun r => r.stop.isNone))
  | 2 => some (l.filter (fun r => !r.acked))
  | _ => none

/-- LIST-OUTAGES (R109). -/
def orderListOutages (k start : Nat) (s : State) : State :=
  match outageSelection k s.outage.records with
  | none => refuse .badArg s
  | some l =>
    answer .ok (u16 s.outage.records.length ++ u16 l.length ++ u8 s.outage.nextId ++ u16 s.params.creditThreshold
      ++ listOf (fun r => outageBytes r
          ++ (if r.stop.isSome && !r.credit then flag (creditWaiting s r.id) else absent 1)) ((l.drop start).take 16)) s

/-! ## The watch table (R110 to R114) -/

/-- An address lies in the range of a watch (R110). -/
def inRange (w : Watch) (a : Nat) : Bool := a / w.span * w.span = w.base

/-- Whose address it is, with its table index: a tap's or a transponder's (R114). -/
def deviceOf (s : State) (a : Nat) : Option (Bool × Nat) :=
  match tapAt s a with
  | some (i, _) => some (true, i)
  | none => (s.telemetry.transponders.find? (fun t => t.2.address = a)).map (fun t => (false, t.1))

/-- A hit of an EVENT entry is reported, to the host or on the craft port (R114, R130). The line HIT carries what R130 lists and
not the minute, which R114's "the same matter" would add (the model's choice, log 83). -/
def reportHit (n : Nat) (w : Watch) (k : WatchKind) (a hits : Nat) (s : State) : State :=
  let dev := deviceOf s a
  match s.outage.owner with
  | .host =>
    notice nkWatchHit w.urgent
      (u8 n ++ u8 (watchKindNum k) ++ u16 a
        ++ (match dev with | some (true, i) => u8 0 ++ u16 i | some (false, i) => u8 1 ++ u8 i | none => absent 2)
        ++ u8 hits ++ flag w.once ++ opt 4 (s.time.clock.map (·.1))) s
  | .craft =>
    printLine ([word "HIT", dec n, word (watchKindName k), dec a]
      ++ (match dev with | some (true, i) => [word "TAP", dec i] | some (false, i) => [word "XP", dec i] | none => [])
      ++ [dec hits] ++ (if w.once then [word "OFF"] else [])) s

/-- One entry of the watch table is checked against an event (R113). -/
def checkEntry (k : WatchKind) (a : Nat) (s : State) (n : Nat) : State :=
  match s.outage.watches[n]? with
  | none => s
  | some e => match e.watch with
    | none => s
    | some w =>
      if e.enabled && !w.guard && inRange w a && w.kinds.testBit (watchKindNum k) then
        let hits := min 255 (e.hits + 1)
        let s := { s with outage.watches := lmod s.outage.watches n (fun e => { e with hits := hits }) }
        let s := reportHit n w k a hits s
        if w.once then { s with outage.watches := lmod s.outage.watches n (fun e => { e with enabled := false }) } else s
      else s

/-- An event handed to the watch unit is checked against every EVENT entry, ascending (R113). -/
def watchEvent (k : WatchKind) (a : Nat) (s : State) : State := (List.range 8).foldl (checkEntry k a) s

/-! ## Replies with the watch table and the held list -/

/-- A watch entry in the order of R110. A field that is absent is sent as 0xFF. -/
def watchBytes (e : WatchEntry) : List Byte :=
  flag e.enabled
    ++ (match e.watch with
        | none => absent 8
        | some w => u8 (if w.guard then 1 else 0) ++ u16 w.base ++ u16 w.span ++ (if w.guard then absent 1 else u8 w.kinds)
            ++ u8 (if w.urgent then 0 else 1) ++ flag w.once)
    ++ u8 e.hits

/-- A held command with its content and the port's confirmed content as they stand (R116). -/
def heldBytes (s : State) (h : Held) : List Byte :=
  u16 h.tap ++ u16 h.address ++ u8 h.port ++ u8 h.entry ++ u8 (pclassNum h.cls) ++ u32 h.minute
    ++ (match portOf s (h.tap, h.port) with
        | none => absent 26
        | some r => contentBytes r.desired ++ optContent r.confirmed)

/-- The held commands with their places, in ascending place. -/
def heldPlaces (s : State) : List (Nat × Held) :=
  s.outage.held.zipIdx.filterMap (fun x => x.1.map (fun h => (x.2, h)))

/-- The held list, place by place (R116, R194): the count of the held commands, then for each its place and the command. That
the empty places are not sent and the place goes before its command is the model's choice (log 21). -/
def heldListBytes (s : State) : List Byte := listOf (fun x => u8 x.1 ++ heldBytes s x.2) (heldPlaces s)

/-- The whole watch table, the held list and the owner (R111, R112, R120). The table has always 8 entries and is sent without a
count (log 21). -/
def watchReply (s : State) : List Byte :=
  s.outage.watches.flatMap watchBytes ++ heldListBytes s ++ u8 (ownerNum s.outage.owner)

/-! ## Changing the watches and the held list -/

/-- The nine spans (R110). -/
def isSpan (n : Nat) : Bool := [1, 2, 4, 8, 16, 32, 64, 128, 256].contains n

/-- The watch that legal arguments of WATCH-SET describe, with its entry number (R111). The set of event kinds is that of an
EVENT entry alone; a GUARD entry has none, whatever stands in its place. -/
def watchOfArgs (p : WatchArgs) : Option (Nat × Watch) :=
  match flagArg p.kind, flagArg p.cls, flagArg p.oneShot with
  | some guard, some routine, some once =>
    if 7 < p.entry || 4095 < p.address || !isSpan p.span || (!guard && (127 < p.kinds || p.kinds = 0)) then none
    else some (p.entry, ⟨guard, p.address / p.span * p.span, p.span, if guard then 0 else p.kinds, !routine, once⟩)
  | _, _, _ => none

/-- A watch entry is written whole, enabled, with hit count 0 (R111). -/
def writeWatch (n : Nat) (w : Watch) (s : State) : State :=
  { s with outage.watches := s.outage.watches.set n ⟨true, some w, 0⟩ }

/-- A watch entry is disabled and keeps its other fields (R112). -/
def clearWatch (n : Nat) (s : State) : State :=
  { s with outage.watches := lmod s.outage.watches n (fun e => { e with enabled := false }) }

/-- WATCH-SET (R111). -/
def orderWatchSet (p : WatchArgs) (s : State) : State :=
  if s.outage.owner = .craft then refuse .held s
  else match watchOfArgs p with
    | none => refuse .badArg s
    | some (n, w) => let s := writeWatch n w s; answer .ok (watchReply s) s

/-- WATCH-CLEAR (R112). -/
def orderWatchClear (n : Nat) (s : State) : State :=
  if s.outage.owner = .craft then refuse .held s
  else if 7 < n then refuse .badArg s
  else let s := clearWatch n s; answer .ok (watchReply s) s

/-- The held command of a place. -/
def heldAt (s : State) (n : Nat) : Option Held := s.outage.held[n]?.join

/-- A held command is released (R118): its place empties, and its port leaves HELD. The count of its failed attempts stays as it
was, wherever the port goes (the model's choice, log 53). -/
def releaseHeld (n : Nat) (h : Held) (s : State) : State :=
  let p := (h.tap, h.port)
  let s := { s with outage.held := s.outage.held.set n none }
  match portOf s p with
  | none => s
  | some r =>
    if parkHoldsAt s h.tap then modPort p (fun r => { r with sync := .parked, cls := none }) s
    else if r.confirmed = some r.desired then modPort p (fun r => { r with sync := .inSync, cls := none }) s
    else joinUrgentHead p true (modPort p (fun r => { r with sync := .pending, cls := some .urgent }) s)

/-- A held command is dropped (R119). The count of its failed attempts stays as it was (the model's choice, log 53). -/
def dropHeld (n : Nat) (h : Held) (s : State) : State :=
  modPort (h.tap, h.port) (fun r => { r with sync := .dropped, cls := none })
    { s with outage.held := s.outage.held.set n none }

/-- RELEASE-HELD (R118). -/
def orderReleaseHeld (n : Nat) (s : State) : State :=
  if s.outage.owner = .craft then refuse .held s
  else match heldAt s n with
    | none => refuse .badArg s
    | some h =>
      let s := releaseHeld n h s
      answer .ok (heldListBytes s ++ u8 (((portOf s (h.tap, h.port)).map (fun r => syncNum r.sync)).getD 255)) s

/-- DROP-HELD (R119). -/
def orderDropHeld (n : Nat) (s : State) : State :=
  if s.outage.owner = .craft then refuse .held s
  else match heldAt s n with
    | none => refuse .badArg s
    | some h => let s := dropHeld n h s; answer .ok (heldListBytes s) s

/-- The number of enabled watch entries. -/
def enabledCount (s : State) : Nat := (s.outage.watches.filter (·.enabled)).length

/-- The number of held commands. -/
def heldCount (s : State) : Nat := (s.outage.held.filter (·.isSome)).length

/-- The owner of the watches changes, with WATCH_CLAIM (R120). The causes are TAKE 0, GIVE 1, RECLAIM 2. -/
def changeOwner (o : Owner) (cause : Nat) (s : State) : State :=
  let s := { s with outage.owner := o }
  notice nkWatchClaim false
    (u8 (ownerNum o) ++ u8 cause ++ u16 (enabledCount s) ++ u16 (heldCount s) ++ opt 4 (s.time.clock.map (·.1))) s

/-- RECLAIM-WATCH (R120, R128). -/
def orderReclaimWatch (s : State) : State :=
  let s := if s.outage.owner = .craft then
    printLine [word "RECLAIMED", word "BY", word "OFFICE"] (changeOwner .host 2 s) else s
  answer .ok (watchReply s) s

end Sys2Proof.Machine
end

