-- ==== Sys2Proof/Machine/Telemetry.lean ====
section
/-! DEFINITION. The telemetry monitor (Chapter 5): poll outcomes, segment conditions and service states, holds, the orders of
the transponder and segment tables, and the tap table's orders (R68, R69). -/

namespace Sys2Proof.Machine

/-! ## Conditions (R98) -/

/-- The transponder of an index. -/
def xpOf (s : State) (i : Nat) : Option Transponder := tget s.telemetry.transponders i

/-- The loaded transponder that holds a plant address, with its index. -/
def xpAt (s : State) (a : Nat) : Option (Nat × Transponder) :=
  s.telemetry.transponders.find? (fun t => t.2.address = a)

/-- The enabled transponders of a segment, with their indices. -/
def enabledIn (s : State) (n : Nat) : List (Nat × Transponder) :=
  s.telemetry.transponders.filter (fun t => t.2.enabled && t.2.segment = n)

/-- The head of a segment when it counts (R94): the index and record of a loaded, enabled transponder in the segment. -/
def countingHead (s : State) (n : Nat) : Option (Nat × Transponder) :=
  match (segOf s n).bind (·.head) with
  | none => none
  | some h => match xpOf s h with
    | none => none
    | some x => if x.enabled && x.segment = n then some (h, x) else none

/-- The condition of a segment holds through a silence (R98): its miss minute, or none where no silence darkens it. -/
def silence (s : State) (n : Nat) : Option (Option Nat) :=
  let xs := enabledIn s n
  match countingHead s n with
  | some (_, x) => if x.state = .missing then some x.firstMiss else none
  | none =>
    if !xs.isEmpty && xs.all (fun t => t.2.state = .missing) then some ((xs.filterMap (·.2.firstMiss)).min?) else none

/-- A POWER_SUPPLY record of the segment has OUTPUT_OFF set (R98). -/
def supplyOff (s : State) (n : Nat) : Bool :=
  (enabledIn s n).any (fun t => t.2.role = .powerSupply && t.2.flags.outputOff)

/-- The condition of a segment, the first that holds, with its miss minute (R98). -/
def conditionOf (s : State) (n : Nat) : Condition × Option Nat :=
  match silence s n with
  | some m => (.outage, m)
  | none =>
    if supplyOff s n then (.outage, none)
    else if (enabledIn s n).any (fun t => t.2.state = .alarm
        || (t.2.state = .missing && (countingHead s n).map (·.1) ≠ some t.1)) then (.degraded, none)
    else (.normal, none)

/-- The condition of a loaded segment is recomputed (R98). -/
def recomputeCondition (s : State) (n : Nat) : State :=
  let c := conditionOf s n
  modSeg n (fun g => { g with condition := c.1, missMinute := c.2 }) s

/-! ## Service states (R99, R100) -/

/-- The hold set holds a segment (7.3). -/
def isHeld (s : State) (n : Nat) : Bool := s.craft.holds.getLsbD n

/-- The service state of a segment, the first that holds, by its ancestors and its parent's state (R99). -/
def serviceFor (s : State) (n : Nat) (g : Segment) : Service :=
  if isHeld s n then .held
  else if (ancestors s.telemetry.segments n).any (isHeld s) then .shadow
  else if g.condition = .outage || parentDark s n then .dark
  else .lit

/-- The depth of a segment in its chain of parent links (5.3): how many segments the walk up from it meets, the walk followed
past the seven links of R94 until it ends or would meet a segment again. -/
def depthOf (segs : List (Nat × Segment)) (n : Nat) : Nat := (ancestorsFrom segs segs.length [n] n).length

/-- The segments given and all their descendants, parent before child and ascending at one depth (R99, R100). Segments on a cycle
of parent links, which LOADING allows, are all at the depth of that cycle, and so in ascending number (the model's choice,
log 65). -/
def affected (s : State) (ns : List Nat) : List Nat :=
  let hit := (s.telemetry.segments.map (·.1)).filter
    (fun n => ns.contains n || (ancestors s.telemetry.segments n).any (fun a => ns.contains a))
  (List.range (s.telemetry.segments.length + 1)).flatMap (fun d => hit.filter (fun n => depthOf s.telemetry.segments n = d))

/-- The service state of one segment is recomputed; a change of it is added to the hand-offs. -/
def recomputeService (x : State × List HandOff) (n : Nat) : State × List HandOff :=
  match segOf x.1 n with
  | none => x
  | some g =>
    let v := serviceFor x.1 n g
    if v = g.service then x else (modSeg n (fun g => { g with service := v }) x.1, x.2 ++ [⟨n, g.service, v⟩])

/-- The service states of the segments given and their descendants are recomputed, and each change handed on: to the
outage log parent before child, and to the plant line scheduler, which parks and unparks the ports of the taps concerned
in one pass, in ascending tap index and port number over all the changed segments (R59, R99, R100; the model's choice, log
47). -/
def recomputeServices (ns : List Nat) (cause : HandCause) (s : State) : State × List HandOff :=
  let r := (affected s ns).foldl recomputeService (s, [])
  let s := r.2.foldl (takeHandOff cause) r.1
  let taps := (s.plant.taps.filter (fun t => r.2.any (fun h => h.segment = t.2.segment))).map (·.1)
  (reparkTaps taps s, r.2)

/-- The conditions of segments are recomputed, then the service states that follow (R98, R99, R100). -/
def recomputeSegments (ns : List Nat) (cause : HandCause) (s : State) : State :=
  (recomputeServices ns cause (ns.foldl recomputeCondition s)).1

/-! ## Poll outcomes (R88 to R93) -/

/-- The XP_STATE notice of a change of a record's state or alarm flags (R93). -/
def xpNotice (i : Nat) (old new : Transponder) (cause : HandCause) (s : State) : State :=
  if new.state = old.state && new.flags = old.flags then s
  else
    let urgent := (new.state = .missing && old.state ≠ .missing) || (new.flags.outputOff && !old.flags.outputOff)
      || (new.flags.batteryLow && !old.flags.batteryLow)
    notice nkXpState urgent
      (u8 i ++ u16 new.address ++ u8 new.segment ++ u8 (roleNum new.role) ++ u8 (xpStateNum old.state)
        ++ u8 (xpStateNum new.state) ++ u8 (alarmNum old.flags) ++ u8 (alarmNum new.flags) ++ flag new.deferred
        ++ u8 new.misses ++ opt 4 new.firstMiss ++ optStatus new.last ++ opt 4 (s.time.clock.map (·.1))
        ++ u8 (handCauseNum cause)) s

/-- The watch events of a poll outcome, in the order of R93. -/
def xpEvents (old new : Transponder) : List WatchKind :=
  (if new.state = .missing && old.state ≠ .missing then [.xpMissing] else [])
    ++ (if old.state = .missing && new.state ≠ .missing then [.xpRestored] else [])
    ++ (if (new.flags.low && !old.flags.low) || (new.flags.high && !old.flags.high) then [.level] else [])
    ++ (if (new.flags.battery && !old.flags.battery) || (new.flags.batteryLow && !old.flags.batteryLow) then [.battery] else [])
    ++ (if new.flags.outputOff && !old.flags.outputOff then [.outputOff] else [])
    ++ (if new.flags.tamper && !old.flags.tamper then [.tamper] else [])

/-- A valid STATUS of the record's role is taken (R88, R89, R90, R91). -/
def takeStatus (x : Transponder) (m : StatusMsg) (windowOpen : Bool) (warn : Nat) (clock : Option (Nat × Nat)) : Transponder :=
  let m := { m with level := clampInt (-200) 600 m.level }
  let f := judgeFlags x m windowOpen warn
  { x with
    misses := 0
    firstMiss := none
    lastReply := clock
    last := some m
    flags := f
    deferred := judgeDeferred x m.level windowOpen
    state := if f.any then .alarm else .ok }

/-- A miss (R92). -/
def takeMiss (x : Transponder) (limit minute : Nat) : Transponder :=
  let n := min 15 (x.misses + 1)
  { x with
    misses := n
    firstMiss := if x.misses = 0 then some minute else x.firstMiss
    state := if limit ≤ n then .missing else x.state }

/-- The outcome of a poll to an enabled record: the record, XP_STATE, the watch events and the segment (R88 to R93). -/
def takeOutcome (i : Nat) (o : Option StatusMsg) (s : State) : State :=
  match xpOf s i with
  | none => s
  | some x =>
    let taken := match o with | some m => if m.role = roleChar x.role then some m else none | none => none
    let new := match taken with
      | some m => takeStatus x m s.lineup.settleOpen s.params.batteryWarn s.time.clock
      | none => takeMiss x s.params.missLimit (minuteOf s)
    let cause : HandCause := if taken.isSome then .reply else .miss
    let s := { s with telemetry.transponders := tset s.telemetry.transponders i new }
    let s := xpNotice i x new cause s
    let s := (xpEvents x new).foldl (fun s k => watchEvent k x.address s) s
    recomputeSegments [x.segment] cause s

/-! ## LOAD-TRANSPONDER and QUERY-TRANSPONDER (R85, R86, R87) -/

/-- A record with the arguments of LOAD-TRANSPONDER, clamped, and the judgement of a newly loaded record (R84, R85). -/
def freshXp (p : TransponderArgs) (role : Role) (enable : Bool) : Transponder :=
  { address := p.address, segment := p.segment, role := role, enabled := enable
    low := clampInt (-200) 600 p.low, high := clampInt (-200) 600 p.high, hysteresis := clamp 0 50 p.hysteresis }

/-- The index is the head that a segment names. -/
def isHeadIndex (s : State) (i : Nat) : Bool := s.telemetry.segments.any (fun g => g.2.head = some i)

/-- The checks of LOAD-TRANSPONDER from the second on (R85). -/
def xpCheck (p : TransponderArgs) (new : Transponder) (s : State) : Bool :=
  (segOf s p.segment).isSome
    && (tapAt s p.address).isNone && !s.telemetry.transponders.any (fun t => t.2.address = p.address && t.1 ≠ p.index)
    && decide (new.low ≤ new.high)
    && !(running s && isHeadIndex s p.index
          && (xpOf s p.index).any (fun x => x.segment ≠ new.segment || (x.enabled && !new.enabled)))

/-- The record after an accepted LOAD-TRANSPONDER (R86). -/
def reloadXp (old : Option Transponder) (new : Transponder) : Transponder :=
  match old with
  | none => new
  | some x =>
    if x.address = new.address && x.enabled = new.enabled then
      { x with segment := new.segment, role := new.role, low := new.low, high := new.high, hysteresis := new.hysteresis }
    else new

/-- A transponder record as QUERY-TRANSPONDER gives it (R84, R87). A POLL in progress is one to this record when its index is the
record's, at whatever address it started (the model's choice, log 49). The poll enable is sent as 1 for set (the model's choice,
log 72). -/
def xpBytes (s : State) (i : Nat) (x : Transponder) : List Byte :=
  u8 i ++ u16 x.address ++ u8 x.segment ++ u8 (roleNum x.role) ++ flag x.enabled ++ i16 x.low ++ i16 x.high
    ++ u8 x.hysteresis ++ u8 (xpStateNum x.state) ++ u8 x.misses ++ opt 4 x.firstMiss
    ++ opt 4 (x.lastReply.map (·.1)) ++ opt 1 (x.lastReply.map (·.2)) ++ optStatus x.last ++ u8 (alarmNum x.flags)
    ++ flag x.deferred
    ++ opt 1 ((segOf s x.segment).map (fun g => conditionNum g.condition)) ++ u8 (serviceNum (serviceOf s x.segment))
    ++ flag ((segOf s x.segment).any (fun g => g.head = some i))
    ++ flag (s.plant.current.any (fun t => (t.purpose = .poll || t.purpose = .craftPoll) && !t.toTap && t.index = i))

/-- LOAD-TRANSPONDER (R85, R86). An index that was empty has no state before, and its loading queues no XP_STATE (the model's
choice, log 55). Its poll enable is 1 for set and 0 for clear (the model's choice, log 72), and its reply is the whole matter of
QUERY-TRANSPONDER (the model's choice, log 74), as it stands before the choice of work (the model's choice, log 42). -/
def orderLoadTransponder (p : TransponderArgs) (s : State) : State :=
  match roleArg p.role, flagArg p.enable with
  | some role, some enable =>
    let new := freshXp p role enable
    if 127 < p.index || 4095 < p.address || 31 < p.segment || !xpCheck p new s then refuse .badArg s
    else
      let old := xpOf s p.index
      let x := reloadXp old new
      let s := { s with telemetry.transponders := tset s.telemetry.transponders p.index x }
      let s := match old with | none => s | some o => xpNotice p.index o x .reload s
      let segs := match old with
        | none => [x.segment]
        | some o => if o.segment = x.segment then [x.segment] else [o.segment, x.segment]
      let s := recomputeSegments segs .reload s
      answer .ok (xpBytes s p.index x) s
  | _, _ => refuse .badArg s

/-- QUERY-TRANSPONDER (R87). -/
def orderQueryTransponder (a : Nat) (s : State) : State :=
  match xpAt s a with
  | none => refuse .badArg s
  | some (i, x) => answer .ok (xpBytes s i x) s

/-! ## LOAD-SEGMENT and QUERY-SEGMENT (R95, R96, R97) -/

/-- A segment's chain is sound: its walk reaches a segment without a parent within depth 8 (R95, R187). The two ways to
fail are CYCLE, a segment met again, and DEPTH. -/
inductive ChainFault where
  | cycle | depth
deriving DecidableEq, Repr

/-- The walk of R94 from a segment, followed through seven links, and how it fails to reach a segment without a parent. Where
the eighth link would meet a segment again, as in a cycle of eight, the failure is CYCLE (R187; the model's choice, log 70). -/
def chainFault (segs : List (Nat × Segment)) : Nat → List Nat → Nat → Option ChainFault
  | k, seen, n =>
    match (tget segs n).bind (·.parent) with
    | none => none
    | some p =>
      if seen.contains p then some .cycle
      else match k with
        | 0 => some .depth
        | k + 1 => chainFault segs k (p :: seen) p

/-- The chain of a segment fails (R187). -/
def chainBad (segs : List (Nat × Segment)) (n : Nat) : Option ChainFault := chainFault segs 7 [n] n

/-- The head may be named in RUN: a loaded, enabled record whose segment is this one (R95). -/
def headLegal (s : State) (n : Nat) (h : Nat) : Bool := (xpOf s h).any (fun x => x.enabled && x.segment = n)

/-- The segment record that LOAD-SEGMENT writes, keeping what the order does not name (R96). -/
def reloadSeg (s : State) (p : SegmentArgs) : Segment :=
  let parent := if p.parent = 255 then none else some p.parent
  let head := if p.head = 255 then none else some p.head
  match segOf s p.segment with
  | none => { zone := p.zone, parent := parent, head := head }
  | some g => { g with zone := p.zone, parent := parent, head := head }

/-- The checks of LOAD-SEGMENT (R95). -/
def segmentCheck (p : SegmentArgs) (s : State) : Bool :=
  decide (p.segment ≤ 31) && decide (p.zone ≤ 7) && (decide (p.parent ≤ 31) || p.parent = 255)
    && (decide (p.head ≤ 127) || p.head = 255)
    && (p.parent = 255 || (p.parent ≠ p.segment && (segOf s p.parent).isSome))
    && (!running s ||
        (let segs := tset s.telemetry.segments p.segment (reloadSeg s p)
         (segs.all (fun g => (chainBad segs g.1).isNone)) && (p.head = 255 || headLegal s p.segment p.head)))

/-- A segment as QUERY-SEGMENT gives it (R94, R97). The numbers of its enabled records in each state are four numbers of 2 bytes,
in the order UNKNOWN, OK, ALARM, MISSING of R84, without a count before them (the model's choice, log 82). The indices of its
records MISSING or in ALARM are one list, in ascending index (the model's choice, log 56). -/
def segBytes (s : State) (n : Nat) (g : Segment) : List Byte :=
  let anc := ancestors s.telemetry.segments n
  let xs := enabledIn s n
  let taps := s.plant.taps.filter (fun t => t.2.segment = n)
  u8 g.zone ++ opt 1 g.parent ++ opt 1 g.head ++ u8 (conditionNum g.condition) ++ u8 (serviceNum g.service)
    ++ opt 1 g.openOutage ++ flag (isHeld s n) ++ opt 1 (anc.find? (isHeld s)) ++ listOf u8 anc
    ++ [XpState.unknown, .ok, .alarm, .missing].flatMap (fun k => u16 (xs.filter (fun t => t.2.state = k)).length)
    ++ listOf (fun t => u8 t.1) (xs.filter (fun t => t.2.state = .missing || t.2.state = .alarm))
    ++ flag (countingHead s n).isSome ++ u16 taps.length ++ u16 (taps.filter (fun t => t.2.unreachable.isSome)).length
    ++ u16 (taps.flatMap (fun t => t.2.ports.filter (fun r => r.sync = .parked))).length

/-- LOAD-SEGMENT (R95, R96). The service states are handed on, with the parking and unparking, before a changed zone re-derives
the ports of the segment (the model's choice, log 48). Its reply is the whole matter of QUERY-SEGMENT (the model's choice, log
74). -/
def orderLoadSegment (p : SegmentArgs) (s : State) : State :=
  if !segmentCheck p s then refuse .badArg s
  else
    let old := segOf s p.segment
    let g := reloadSeg s p
    let s := { s with telemetry.segments := tset s.telemetry.segments p.segment g }
    let s := recomputeSegments [p.segment] .reload s
    let s := if old.any (fun o => o.zone ≠ g.zone) then rederiveSegment p.segment s else s
    answer .ok (((segOf s p.segment).map (segBytes s p.segment)).getD []) s

/-- QUERY-SEGMENT (R97). -/
def orderQuerySegment (n : Nat) (s : State) : State :=
  match segOf s n with
  | none => refuse .badArg s
  | some g => answer .ok (segBytes s n g) s

/-! ## Holds (R123, R124, R125) -/

/-- CRAFT_HOLD (R125). The actions are HOLD 0, FREE 1, FORCE_FREE 2. -/
def holdNotice (n action : Nat) (hs : List HandOff) (s : State) : State :=
  notice nkCraftHold false
    (u8 n ++ u8 action
      ++ listOf (fun h => u8 h.segment ++ u8 (serviceNum h.before) ++ u8 (serviceNum h.after)) hs
      ++ u16 (hs.filter (fun h => h.before = .dark)).length ++ u16 (hs.filter (fun h => h.after = .dark)).length
      ++ opt 4 (s.time.clock.map (·.1))) s

/-- A segment joins the hold set (R123); the number of segments whose service state changed is the second result. -/
def holdSegment (n : Nat) (s : State) : State × Nat :=
  let s := { s with craft.holds := s.craft.holds ||| BitVec.ofNat 32 (2 ^ n) }
  let r := recomputeServices [n] .hold s
  (holdNotice n 0 r.2 r.1, r.2.length)

/-- A hand-off frees its segment: HELD or SHADOW before, LIT or DARK after (R124). -/
def frees (h : HandOff) : Bool :=
  (h.before = .held || h.before = .shadow) && (h.after = .lit || h.after = .dark)

/-- A segment leaves the hold set (R124), with a forced refresh of the freed segments' ports; the number of segments
freed is the second result. -/
def freeSegment (n : Nat) (cause : HandCause) (action : Nat) (s : State) : State × Nat :=
  let s := { s with craft.holds := s.craft.holds &&& ~~~ BitVec.ofNat 32 (2 ^ n) }
  let r := recomputeServices [n] cause s
  let freed := r.2.filter frees
  let taps := (r.1.plant.taps.filter (fun t => freed.any (fun h => h.segment = t.2.segment))).map (·.1)
  (holdNotice n action r.2 (forceTaps taps r.1), freed.length)

/-- FORCE-FREE (R125). Its reply is the whole matter of QUERY-SEGMENT (the model's choice, log 74). -/
def orderForceFree (n : Nat) (s : State) : State :=
  if 31 < n then refuse .badArg s
  else if !isHeld s n then refuse .state s
  else
    let s := (freeSegment n .forceFree 2 s).1
    let s := printLine [word "FREED", word "BY", word "OFFICE", dec n] s
    answer .ok (((segOf s n).map (segBytes s n)).getD []) s

/-! ## The tap table's orders (R68, R69) -/

/-- A tap as QUERY-TAP gives it (R67, R69). The four port records, which R67 makes part of the tap record and R69 lists again
behind the service state, are sent once, behind the service state, and without a count (the model's choice, log 63). The tamper flag is sent as 1 for
set (the model's choice, log 72), and the purpose of a transaction addressed to another device as absent (the model's choice,
log 73). -/
def tapBytes (s : State) (i : Nat) (t : Tap) : List Byte :=
  let cur := s.plant.current.filter (fun x => x.toTap && x.address = t.address)
  u16 i ++ u16 t.address ++ u8 t.segment ++ flag t.unreachable.isSome ++ opt 4 t.unreachable ++ flag t.tamper
    ++ u8 (serviceNum (serviceOf s t.segment)) ++ t.ports.flatMap portBytes
    ++ u16 s.plant.urgent.length ++ u16 s.plant.refresh.length ++ flag cur.isSome
    ++ opt 1 (cur.map (fun x => purposeNum x.purpose))

/-- A tap is loaded afresh (R52, R68): its ports come into being PENDING REFRESH, or PARKED. -/
def freshTap (i a seg : Nat) (s : State) : State :=
  let s := (portsOf [i]).foldl (fun s p => leaveQueues p s) s
  let s := { s with plant.taps := tset s.plant.taps i { address := a, segment := seg } }
  dropProbe ((portsOf [i]).foldl (fun s p => pend .refresh p s) s)

/-- LOAD-TAP (R68). Its reply is the whole matter of QUERY-TAP (the model's choice, log 63), as it stands before the choice of
work (the model's choice, log 42). -/
def orderLoadTap (i a seg : Nat) (s : State) : State :=
  if 511 < i || 4095 < a || 31 < seg || (segOf s seg).isNone || (xpAt s a).isSome
      || s.plant.taps.any (fun t => t.2.address = a && t.1 ≠ i) then refuse .badArg s
  else
    let done := fun (s : State) => answer .ok (((tget s.plant.taps i).map (tapBytes s i)).getD []) s
    match tget s.plant.taps i with
    | none => done (freshTap i a seg s)
    | some t =>
      if t.address ≠ a then
        if t.ports.any (fun r => r.slot.isSome || r.sync = .sent || r.sync = .held) then refuse .state s
        else done (freshTap i a seg s)
      else if t.segment = seg then done s
      else if t.ports.any (fun r => r.slot.isSome) then refuse .state s
      else done (reparkTaps [i] { s with plant.taps := tset s.plant.taps i { t with segment := seg } })

/-- QUERY-TAP (R69). -/
def orderQueryTap (a : Nat) (s : State) : State :=
  match tapAt s a with
  | none => refuse .badArg s
  | some (i, t) => answer .ok (tapBytes s i t) s

end Sys2Proof.Machine
end

