-- ==== Sys2Proof/Machine/Plant.lean ====
section
/-! DEFINITION. The plant line (Chapter 4): frames, transactions, the slot round, the choice of work with the guard check
(R115), and what outcomes do to taps, ports and transponders. -/

namespace Sys2Proof.Machine

/-! ## Frames (R62, R63, 12.4) -/

/-- The message kind of a purpose's outbound frame (12.4): PORT-SET 3, PROBE 2, POLL 1. -/
def txKind (t : Transaction) : Nat :=
  match t.purpose with
  | .portCommand => 3
  | .craftTest => 3
  | .probe => 2
  | .poll => 1
  | .craftPoll => if t.toTap then 2 else 1

/-- The two address characters of a frame (12.4). -/
def addressChars (a kind : Nat) : List Byte := [BitVec.ofNat 8 (a / 16), BitVec.ofNat 8 (a % 16 * 16 + kind)]

/-- The characters of a frame's data bits (R62): the first has wake flag 1 and every other wake flag 0, and each stop bit is
as it should be. -/
def wakeFirst : List Byte → List PlantChar
  | [] => []
  | b :: bs => ⟨b, true, true⟩ :: bs.map (fun x => ⟨x, false, true⟩)

/-- The outbound frame of a transaction, its check character last (R62, R195). -/
def txFrame (t : Transaction) : List PlantChar :=
  let b := addressChars t.address (txKind t)
    ++ (if txKind t = 3 then u8 (t.port + if t.content.enable then 128 else 0) ++ passBytes t.content.pass else [])
  wakeFirst (b ++ [sum8 b])

/-- The kind a valid reply has: PORT-ACK 9 for PORT-SET, STATUS 8 otherwise (R65). -/
def replyKindOf (t : Transaction) : Nat := if txKind t = 3 then 9 else 8

/-- The characters of a reply frame of a kind (R63). -/
def replyLength (kind : Nat) : Nat := if kind = 9 then 5 else 10

/-- A whole reply frame of the expected kind is valid (R65). -/
def replyValid (t : Transaction) (f : List Byte) : Bool :=
  fld f 0 1 = t.address / 16 && fld f 1 1 / 16 = t.address % 16
    && f.getLast? = some (sum8 f.dropLast)
    && (if replyKindOf t = 9 then
          fld f 2 1 % 4 = t.port && (fld f 2 1).testBit 7 = t.content.enable
            && BitVec.ofNat 8 (fld f 3 1) = sum8 (passBytes t.content.pass)
        else if t.toTap then fld f 2 1 = 4 else fld f 2 1 ≠ 4)

/-- What one character does to a transaction whose receiver is open (R65): the transaction, and the frame where this
character completes a valid one. -/
def takeChar (t : Transaction) (c : PlantChar) : Transaction × Option (List Byte) :=
  if t.failed || (t.buffer.isEmpty && !c.wake) then (t, none)
  else
    let b := if c.wake then [c.data] else t.buffer ++ [c.data]
    let t' := { t with buffer := b }
    if !c.stopOk then ({ t' with failed := true }, none)
    else if b.length = 2 && c.data.toNat % 16 ≠ replyKindOf t then ({ t' with failed := true }, none)
    else if b.length < replyLength (replyKindOf t) then (t', none)
    else if replyValid t b then (t', some b) else ({ t' with failed := true }, none)

/-- Characters received in order, until one completes a valid reply (R65). -/
def takeChars : Transaction → List PlantChar → Transaction × Option (List Byte)
  | t, [] => (t, none)
  | t, c :: cs => match takeChar t c with
    | (t', some f) => (t', some f)
    | (t', none) => takeChars t' cs

/-! ## Starting a transaction (R66, R70, R78) -/

/-- The position is a poll slot under a POLL_SHARE (R70). -/
def isPollSlot (share position : Nat) : Bool := ([0, 2, 4, 6, 1, 3, 5].take share).contains position

/-- The POLL_SHARE of the current position: fixed for a round at its position 0 (R70, R73). It is fixed as the transaction of
position 0 starts, so a SET-PARAMS that comes before that start, during the transaction of position 7 too, acts on the round
(the model's choice, log 78). -/
def shareNow (s : State) : Nat := if s.plant.position = 0 then s.params.pollShare else s.plant.roundShare

/-- A transaction starts: it takes the current position, and the line enters SENDING (R64, R66, R70). -/
def startTx (purpose : Purpose) (address index : Nat) (toTap : Bool) (port : Nat) (content : Content) (s : State) : State :=
  { s with
    plant.current := some
      { purpose := purpose, address := address, index := index, toTap := toTap, port := port, content := content
        position := s.plant.position, window := s.params.replyWindow }
    plant.line := .sending
    plant.timer := 0
    plant.roundShare := shareNow s
    plant.position := (s.plant.position + 1) % 8 }

/-- A PENDING port's command starts (R56, R78). -/
def startPort (p : Nat × Nat) (s : State) : State :=
  match tget s.plant.taps p.1, portOf s p with
  | some t, some r =>
    startTx .portCommand t.address p.1 true p.2 r.desired
      (leaveQueues p (modPort p (fun r => { r with sync := .sent, inFlight := some r.desired, cls := none }) s))
  | _, _ => s

/-! ## The guard check (R77, R115) -/

/-- The answers of the guard check (R77). -/
inductive Guard where
  | pass | hold (entry place : Nat) | wait
deriving DecidableEq, Repr

/-- The lowest-numbered enabled GUARD entry whose range contains an address (R115). -/
def guardFor (s : State) (a : Nat) : Option Nat :=
  s.outage.watches.findIdx? (fun e => e.enabled && e.watch.any (fun w => w.guard && inRange w a))

/-- The guard check for a port command (R115). -/
def guardCheck (s : State) (a : Nat) (resume : Bool) : Guard :=
  if resume then .pass
  else match guardFor s a with
    | none => .pass
    | some n => match s.outage.held.findIdx? (·.isNone) with
      | some k => .hold n k
      | none => .wait

/-- A pending class in a craft line (R130). -/
def pclassWord : Option PClass → Text | some .urgent => word "URGENT" | some .refresh => word "REFRESH" | none => word "NONE"

/-- A GUARD hit is reported (R115, R130). The line GUARD carries what R130 lists and neither the tap index nor the minute, which
R115 gives GUARD_HIT under either owner (the model's choice, log 83). -/
def reportGuard (n k : Nat) (h : Held) (s : State) : State :=
  match s.outage.owner with
  | .host =>
    notice nkGuardHit ((s.outage.watches[n]?.bind (·.watch)).any (·.urgent))
      (u8 n ++ u8 k ++ u16 h.tap ++ u16 h.address ++ u8 h.port ++ u8 (pclassNum h.cls) ++ opt 4 (s.time.clock.map (·.1))) s
  | .craft => printLine [word "GUARD", dec n, dec k, dec h.address, dec h.port, pclassWord h.cls] s

/-- A command goes to the held list (R115). -/
def holdCommand (n k : Nat) (p : Nat × Nat) (a : Nat) (s : State) : State :=
  let h : Held := ⟨p.1, a, p.2, n, (portOf s p).bind (·.cls), minuteOf s⟩
  let s := { s with
    outage.watches := lmod s.outage.watches n (fun e =>
      { e with hits := min 255 (e.hits + 1), enabled := e.enabled && !e.watch.any (·.once) })
    outage.held := s.outage.held.set k (some h) }
  reportGuard n k h (leaveQueues p (modPort p (fun r => { r with sync := .held, cls := none }) s))

/-- A port entry is offered to the guard check and started, held or passed over; the second result says whether a
transaction started (R72, R77). -/
def offerPort (p : Nat × Nat) (resume : Bool) (s : State) : State × Bool :=
  match tget s.plant.taps p.1 with
  | none => (s, false)
  | some t => match guardCheck s t.address resume with
    | .pass => (startPort p s, true)
    | .hold n k => (holdCommand n k p t.address s, false)
    | .wait => (s, false)

/-! ## Craft requests (R83, R127) -/

/-- All 96 channels enabled, or the disabled and empty content (R83). -/
def testContent (on : Bool) : Content := if on then ⟨true, BitVec.allOnes 96⟩ else noContent

/-- A craft request cannot be started: the error that is printed (R127). -/
def craftBlocked (s : State) : CraftReq → Option String
  | .poll a => if (tapAt s a).isSome || (xpAt s a).isSome then none else some "NOT_LOADED"
  | .test a _ _ => match tapAt s a with
    | none => some "NOT_LOADED"
    | some (_, t) => if serviceOf s t.segment = .held then none else some "NOT_HELD"

/-- A craft request leaves the URGENT queue. -/
def leaveCraft (s : State) : State :=
  { s with plant.urgent := s.plant.urgent.filter (fun e => match e with | .craft _ => false | .port .. => true) }

/-- A craft request taken from the queue is checked again, then started or removed with its error (R72, R83, R127). -/
def offerCraft (r : CraftReq) (s : State) : State × Bool :=
  let s := leaveCraft s
  match craftBlocked s r with
  | some e => (printErr e s, false)
  | none => match r with
    | .poll a => match tapAt s a, xpAt s a with
      | some (i, _), _ => (startTx .craftPoll a i true 0 noContent s, true)
      | none, some (i, _) => (startTx .craftPoll a i false 0 noContent s, true)
      | none, none => (s, false)
    | .test a p on => match tapAt s a with
      | some (i, _) => (startTx .craftTest a i true p (testContent on) s, true)
      | none => (s, false)

/-- A craft request stands: it waits in the URGENT queue or is in progress on the line (R83). -/
def craftBusy (s : State) : Bool :=
  s.plant.urgent.any (fun e => match e with | .craft _ => true | .port .. => false)
    || s.plant.current.any (fun t => t.purpose = .craftPoll || t.purpose = .craftTest)

/-- A craft request handed to the scheduler: refused with its error, or placed at the head of the URGENT queue (R83, R127). -/
def craftRequest (r : CraftReq) (s : State) : State :=
  if !running s then printErr "STATE" s
  else if craftBusy s then printErr "BUSY" s
  else match craftBlocked s r with
    | some e => printErr e s
    | none => { s with plant.urgent := .craft r :: s.plant.urgent }

/-! ## The choice of work (R71, R72, R74, R75) -/

/-- The entries of the URGENT queue are offered in order until one starts (R72). -/
def offerUrgent : List UrgentItem → State → State × Bool
  | [], s => (s, false)
  | e :: es, s =>
    let r := match e with | .port t p resume => offerPort (t, p) resume s | .craft c => offerCraft c s
    if r.2 then r else offerUrgent es r.1

/-- The entries of the REFRESH queue are offered in order until one starts (R72). -/
def offerRefresh : List (Nat × Nat) → State → State × Bool
  | [], s => (s, false)
  | p :: ps, s => let r := offerPort p false s; if r.2 then r else offerRefresh ps r.1

/-- Command work: the URGENT queue, then the REFRESH queue (R72). -/
def commandWork (s : State) : State × Bool :=
  let r := offerUrgent s.plant.urgent s
  if r.2 then r else offerRefresh r.1.plant.refresh r.1

/-- The indices of the enabled transponders, ascending. -/
def enabledXps (s : State) : List Nat := (s.telemetry.transponders.filter (fun t => t.2.enabled)).map (·.1)

/-- The lowest index above a cursor; START is below every index (R74, R75). -/
def above (l : List Nat) : Option Nat → Option Nat
  | none => l.head?
  | some c => l.find? (fun i => decide (c < i))

/-- The round-robin cycle is complete: the cursor returns to START, and a probe becomes due if a tap is UNREACHABLE (R74,
R75). -/
def completeCycle (s : State) : State :=
  { s with plant.cursor := none, plant.probeDue := s.plant.probeDue || !(unreachableTaps s).isEmpty }

/-- The due probe, if one is: the UNREACHABLE tap above the probe cursor, or else the lowest (R75). -/
def startProbe (s : State) : Option State :=
  if !s.plant.probeDue then none
  else
    let l := unreachableTaps s
    match (above l s.plant.probeCur).or l.head? with
    | none => none
    | some i => (tget s.plant.taps i).map (fun t =>
        startTx .probe t.address i true 0 noContent { s with plant.probeDue := false, plant.probeCur := some i })

/-- A poll of a transponder starts: the cursor takes its index, and the cycle is complete at that start if no enabled
record lies above it (R74). -/
def startPoll (i : Nat) (s : State) : State :=
  match xpOf s i with
  | none => s
  | some x =>
    let s := startTx .poll x.address i false 0 noContent { s with plant.cursor := some i }
    if (above (enabledXps s) (some i)).isNone then completeCycle s else s

/-- The next due poll starts: the probe if one is due, else the transponder the cursor gives. With no enabled record above
the cursor the cycle is complete here (log 29). -/
def startDuePoll (s : State) : State × Bool :=
  let s := dropProbe s
  match startProbe s with
  | some s => (s, true)
  | none => match above (enabledXps s) s.plant.cursor with
    | some i => (startPoll i s, true)
    | none =>
      if (enabledXps s).isEmpty then (s, false)
      else
        let s := completeCycle s
        match startProbe s with
        | some s => (s, true)
        | none => match (enabledXps s).head? with
          | some i => (startPoll i s, true)
          | none => (s, false)

/-- The scheduler's choice at a choice point (R71): poll or command work by the slot, then the other; with no enabled
transponder a cycle is counted at position 0 and where no work is found, after which the probe is taken (R74). -/
def choose (s : State) : State :=
  let idle := (enabledXps s).isEmpty
  let s := if idle && s.plant.position = 0 then completeCycle s else s
  let first := if isPollSlot (shareNow s) s.plant.position then startDuePoll s else commandWork s
  let second := if first.2 then first
    else if isPollSlot (shareNow s) s.plant.position then commandWork first.1 else startDuePoll first.1
  if second.2 then second.1
  else if idle then (startDuePoll (completeCycle second.1)).1
  else second.1

/-- In RUN, with the line IDLE, the scheduler chooses (R71). -/
def kick (s : State) : State := if running s && s.plant.line = .idle then choose s else s

/-! ## Outcomes -/

/-- The state with a function applied to a tap record. -/
def modTap (i : Nat) (f : Tap → Tap) (s : State) : State := { s with plant.taps := tmod s.plant.taps i f }

/-- A tap's tamper flag is taken; clear to set is a TAMPER event (R82). -/
def takeTamper (i : Nat) (v : Bool) (s : State) : State :=
  match tget s.plant.taps i with
  | none => s
  | some t =>
    let s := modTap i (fun t => { t with tamper := v }) s
    if v && !t.tamper then watchEvent .tamper t.address s else s

/-- A valid reply from a tap (R81, R82), where `test` is what a craft TEST does to its port first. The causes are PROBE 0,
CRAFT_POLL 1, CRAFT_TEST 2. -/
def tapReply (i : Nat) (tamper : Bool) (cause : Nat) (test : State → State) (s : State) : State :=
  match tget s.plant.taps i with
  | none => s
  | some t =>
    match t.unreachable with
    | none => test (takeTamper i tamper s)
    | some since =>
      let s := dropProbe (modTap i (fun t => { t with unreachable := none }) s)
      let s := takeTamper i tamper s
      let s := test s
      let s := reparkTaps [i] s
      let s := forceTaps [i] s
      notice nkTapRestored false
        (u16 i ++ u16 t.address ++ u8 t.segment ++ u32 since ++ opt 4 (s.time.clock.map (·.1)) ++ u8 cause) s

/-- A tap becomes UNREACHABLE at a port's third failure (R80). -/
def failTap (i : Nat) (p : Nat) (s : State) : State :=
  match tget s.plant.taps i with
  | none => s
  | some t =>
    let s := modTap i (fun t => { t with unreachable := some (minuteOf s) }) s
    let s := (portsOf [i]).foldl
      (fun s q => match portOf s q with
        | none => s
        | some r => if q.2 = p || r.sync = .pending then parkPort q s else s) s
    let s := notice nkTapFailed false
      (u16 i ++ u16 t.address ++ u8 t.segment ++ u8 p ++ opt 4 (s.time.clock.map (·.1))) s
    watchEvent .tapUnreachable t.address s

/-- A port command failed (R57, R79): it is retried at the URGENT head, parked, or makes its tap UNREACHABLE. -/
def failPort (p : Nat × Nat) (s : State) : State :=
  match portOf s p with
  | none => s
  | some r =>
    let n := r.attempts + 1
    let s := modPort p (fun r => { r with confirmed := none, inFlight := none, attempts := n, cls := none }) s
    if 3 ≤ n then failTap p.1 p.2 s
    else if parkHoldsAt s p.1 then parkPort p s
    else joinUrgentHead p false (modPort p (fun r => { r with sync := .pending, cls := some .urgent }) s)

/-- The tap record at a transaction's index is still loaded at its address (R76). -/
def tapStands (s : State) (t : Transaction) : Bool := (tget s.plant.taps t.index).any (fun x => x.address = t.address)

/-- The record at a transaction's index is still loaded, enabled and at its address (R76). -/
def xpStands (s : State) (t : Transaction) : Bool :=
  (xpOf s t.index).any (fun x => x.address = t.address && x.enabled)

/-- The name of a role character in a craft line (12.4), an unknown one as its number (the model's choice, log 50). -/
def roleWord (n : Nat) : Text :=
  if n = 1 then word "AMPLIFIER" else if n = 2 then word "POWER_SUPPLY" else if n = 3 then word "NODE_HEAD"
  else if n = 4 then word "TAP" else dec n

/-- ON or OFF. -/
def onWord (b : Bool) : Text := if b then word "ON" else word "OFF"

/-- The outcome of a craft request is printed (R127). The text of the role, the level and the supply, and that the level is the
STATUS's own and not the one that R89 clamps, are the model's choice (log 50). -/
def printOutcome (t : Transaction) (reply : Option (List Byte)) (s : State) : State :=
  match reply with
  | none => printLine [word "ERR", word "NO_REPLY", dec t.address] s
  | some f =>
    if t.purpose = .craftTest then
      printLine [word "OK", word "TEST", dec t.address, dec t.port, onWord t.content.enable, flagWord ((fld f 2 1).testBit 6)] s
    else
      let m := statusOfChars (f.drop 2)
      if t.toTap then printLine [word "OK", word "POLL", dec t.address, word "TAP", flagWord m.tamper] s
      else printLine [word "OK", word "POLL", dec t.address, roleWord m.role, decInt m.level, dec m.supply, dec m.battery,
        flagWord m.onBattery, flagWord m.outputOff, flagWord m.tamper] s

/-- The outcome of a transaction is handed on (R76, R79, R81, R82, R83): a valid reply frame, or none for NO_REPLY. The line of a
craft outcome is printed behind the HIT lines of the watch events that the same outcome hands on (the model's choice, log
54). -/
def handOutcome (t : Transaction) (reply : Option (List Byte)) (s : State) : State :=
  let p := (t.index, t.port)
  match t.purpose with
  | .poll => if xpStands s t then takeOutcome t.index (reply.map (fun f => statusOfChars (f.drop 2))) s else s
  | .probe =>
    match reply with
    | none => s
    | some f => if tapStands s t then tapReply t.index (statusOfChars (f.drop 2)).tamper 0 id s else s
  | .portCommand =>
    match reply with
    | none => failPort p s
    | some f => takeTamper t.index ((fld f 2 1).testBit 6) (ackPort p s)
  | .craftPoll =>
    let s :=
      if t.toTap then
        match reply with
        | none => s
        | some f => if tapStands s t then tapReply t.index (statusOfChars (f.drop 2)).tamper 1 id s else s
      else if xpStands s t then takeOutcome t.index (reply.map (fun f => statusOfChars (f.drop 2))) s else s
    printOutcome t reply s
  | .craftTest =>
    let s :=
      if !tapStands s t then s
      else match reply with
        | none => reparkPort p (testPort p none s)
        | some f => reparkPort p (tapReply t.index ((fld f 2 1).testBit 6) 2 (testPort p (some t.content)) s)
    printOutcome t reply s

/-- A transaction ends: its outcome is handed on and its record given up; the line is IDLE for the choice that follows
(R64, R66, R71). -/
def endTx (reply : Option (List Byte)) (s : State) : State :=
  match s.plant.current with
  | none => s
  | some t => handOutcome t reply { s with plant.current := none, plant.line := .idle, plant.timer := 0 }

/-- Characters received on the plant line (R64, R65): outside TURNAROUND and WINDOW they are discarded. -/
def plantReceive (cs : List PlantChar) (s : State) : State :=
  if s.plant.line = .turnaround || s.plant.line = .window then
    match s.plant.current with
    | none => s
    | some t => match takeChars t cs with
      | (_, some f) => endTx (some f) s
      | (t', none) => { s with plant.current := some t' }
  else s

end Sys2Proof.Machine
end

