-- ==== Sys2Proof/Machine/Statements.lean ====
section
/-! DEFINITION. The statement engine (Chapter 10): the statement computation from a bank's journal (R170 to R173), the
statement records (R174, R175), the close sequence (R165 to R169) and the resumption walk (R176). -/

namespace Sys2Proof.Machine

/-! ## The inputs of the computation (R170, R171) -/

/-- The period limit (R169). -/
def periodLimit : Nat := 89280

/-- The end E of a bank's period (R170). -/
def periodEnd (b : Bank) : Nat := min (closeMinuteOf b) (openMinuteOf b + periodLimit)

/-- The account of a SERVICE, ROLL or PURCHASE record. -/
def recAccount (r : List Byte) : Nat := fld r 5 4

/-- The record names its account for a statement (R170). -/
def namesAccount (r : List Byte) : Bool := recKind r = rkRoll || recKind r = rkService || recKind r = rkPurchase

/-- The accounts that statements are computed for, ascending (R170). -/
def accountsOf (js : List (List Byte)) : List Nat :=
  js.foldl (fun l r => if namesAccount r then insertAsc l (recAccount r) else l) []

/-- What an account has at a minute: a state, a tier set and a segment, or nothing when it is unserved (R171). -/
abbrev Served := Option (SubState × TierSet × Nat)

/-- What a SERVICE or ROLL record gives its account; state NONE makes it unserved (R171). -/
def recServed (r : List Byte) : Served :=
  (subStateArg (fld r 11 1)).map (fun k => (k, BitVec.ofNat 16 (fld r 12 2), fld r 14 1))

/-- The SERVICE and POWER_UP changes of an account in journal order, each with the minute from which it holds; the minute
of a POWER_UP's change is that of the record before it, or the open minute (R171). -/
def laterChanges (account : Nat) : Nat → List (List Byte) → List (Nat × Served)
  | _, [] => []
  | g, r :: rs =>
    if recKind r = rkPowerUp then (g, none) :: laterChanges account (recMinute r) rs
    else if recKind r = rkService && recAccount r = account then
      (recMinute r, recServed r) :: laterChanges account (recMinute r) rs
    else laterChanges account (recMinute r) rs

/-- The change of the account's last ROLL, which holds from the open minute (R171). -/
def rollChange (account o : Nat) (js : List (List Byte)) : List (Nat × Served) :=
  match (js.filter (fun r => recKind r = rkRoll && recAccount r = account)).getLast? with
  | none => []
  | some r => [(o, recServed r)]

/-- The changes of an account in the order they are taken: its ROLL first (R171). -/
def changesOf (account o : Nat) (js : List (List Byte)) : List (Nat × Served) :=
  rollChange account o js ++ laterChanges account o js

/-- The timeline of an account at a minute: the last change that holds from a minute at or before it (R171). -/
def timelineAt (cs : List (Nat × Served)) (m : Nat) : Served :=
  cs.foldl (fun v c => if c.1 ≤ m then c.2 else v) none

/-- The account was ACTIVE or SUSPENDED at the gap minute of some POWER_UP of the journal, as the changes before that
POWER_UP give (R171). -/
def powerGapFrom (account : Nat) : Nat → List (Nat × Served) → List (List Byte) → Bool
  | _, _, [] => false
  | g, before, r :: rs =>
    if recKind r = rkPowerUp then
      (timelineAt before g).any (fun v => v.1 ≠ .disconnected)
        || powerGapFrom account (recMinute r) (before ++ [(g, none)]) rs
    else if recKind r = rkService && recAccount r = account then
      powerGapFrom account (recMinute r) (before ++ [(recMinute r, recServed r)]) rs
    else powerGapFrom account (recMinute r) before rs

/-- An account is marked POWER_GAP (R171). -/
def powerGap (account o : Nat) (js : List (List Byte)) : Bool :=
  powerGapFrom account o (rollChange account o js) js

/-! ## The figures (R172, R173) -/

/-- The number of minutes of a span [a, b) at which something holds. -/
def countMinutes (a b : Nat) (p : Nat → Bool) : Nat := (List.range (b - a)).countP (fun i => p (a + i))

/-- A minute lies in the qualifying outage minutes of a segment (R172). -/
def qualifying (js : List (List Byte)) (segment m : Nat) : Bool :=
  js.any (fun r => recKind r = rkOutage && fld r 5 1 = segment && fld r 19 1 = 1
    && decide (fld r 11 4 ≤ m) && decide (m < fld r 15 4))

/-- The account is ACTIVE (R172). -/
def isActive (v : Served) : Bool := v.any (fun x => x.1 = .active)

/-- The account is ACTIVE with a tier in its tier set (R172). -/
def holdsTier (t : Nat) (v : Served) : Bool := v.any (fun x => x.1 = .active && x.2.1.getLsbD t)

/-- The minute lies in the qualifying outage minutes of the account's segment. -/
def credited (js : List (List Byte)) (v : Served) (m : Nat) : Bool := v.any (fun x => qualifying js x.2.2 m)

/-- The charge of a tier line: the rate prorated to the billable minutes, a half cent rounding up (R172). -/
def charge (rate billable : Nat) : Nat := (rate * billable + 21600) / 43200

/-- The figures of one tier line (R172). -/
structure TierLine where
  tier     : Nat
  rate     : Nat
  active   : Nat
  credited : Nat
deriving DecidableEq, Repr

/-- The billable minutes of a tier line (R172). -/
def TierLine.billable (l : TierLine) : Nat := l.active - l.credited

/-- The charge of a tier line (R172). -/
def TierLine.charge (l : TierLine) : Nat := Machine.charge l.rate l.billable

/-- The tier lines of an account: one for each tier with active minutes, ascending (R172, R174). -/
def tierLines (b : Bank) (js : List (List Byte)) (cs : List (Nat × Served)) : List TierLine :=
  let o := openMinuteOf b
  let e := periodEnd b
  let rates := ratesOf b
  ((List.range 16).map (fun t =>
    { tier := t
      rate := (rates[t]?).getD 0
      active := countMinutes o e (fun m => holdsTier t (timelineAt cs m))
      credited := countMinutes o e (fun m => holdsTier t (timelineAt cs m) && credited js (timelineAt cs m) m) : TierLine })).filter
    (fun l => decide (0 < l.active))

/-- A purchase is refunded (R173): its event was cancelled, or qualifying outages covered more than half its showing. -/
def refunded (b : Bank) (js : List (List Byte)) (cs : List (Nat × Served)) (r : List Byte) : Bool :=
  let start := fld r 10 4
  let stop := fld r 14 4
  js.any (fun x => recKind x = rkCancel && fld x 5 1 = fld r 9 1 && fld x 6 4 = start)
    || decide (stop - start < 2 * countMinutes (max start (openMinuteOf b)) (min stop (periodEnd b))
        (fun m => credited js (timelineAt cs m) m))

/-- The statement of one account (R172, R173, R174). -/
structure Statement where
  account  : Nat
  active   : Nat
  credited : Nat
  lines    : List TierLine
  ppv      : Nat
  refund   : Nat
  gap      : Bool
deriving DecidableEq, Repr

/-- The service total: the sum of the charges of the tier lines (R173). -/
def Statement.service (v : Statement) : Nat := (v.lines.map TierLine.charge).sum

/-- The grand total (R173). -/
def Statement.grand (v : Statement) : Nat := v.service + v.ppv - v.refund

/-- The statement computation for one account of a bank (R170 to R173). -/
def statementOf (b : Bank) (account : Nat) : Statement :=
  let js := journal b
  let o := openMinuteOf b
  let e := periodEnd b
  let cs := changesOf account o js
  let buys := js.filter (fun r => recKind r = rkPurchase && recAccount r = account)
  { account := account
    active := countMinutes o e (fun m => isActive (timelineAt cs m))
    credited := countMinutes o e (fun m => isActive (timelineAt cs m) && credited js (timelineAt cs m) m)
    lines := tierLines b js cs
    ppv := (buys.map (fun r => fld r 18 2)).sum
    refund := ((buys.filter (refunded b js cs)).map (fun r => fld r 18 2)).sum
    gap := powerGap account o js }

/-! ## The records of the statement region (R174, R175, 12.5) -/

/-- A record of the statement region in its 31 bytes of body. -/
def stmtBody (kind : Nat) (fields : List Byte) : List Byte :=
  let b := u8 kind ++ fields
  b ++ List.replicate (31 - b.length) erasedByte

/-- c is later than o + 89,280 (R170). -/
def pastLimit (b : Bank) : Bool := decide (openMinuteOf b + periodLimit < closeMinuteOf b)

/-- The STATEMENT header of an account (R174). -/
def headerRecord (b : Bank) (v : Statement) : List Byte :=
  stmtBody rkStatement (u32 v.account ++ u16 (seqOf b) ++ be 3 v.active ++ be 3 v.credited ++ be 3 v.service ++ u32 v.ppv
    ++ u32 v.refund ++ u32 v.grand ++ u8 v.lines.length ++ u8 (flagBits [pastLimit b, v.gap, overflowSet b]))

/-- A TIER_LINE record (R174). -/
def lineRecord (account : Nat) (l : TierLine) : List Byte :=
  stmtBody rkTierLine (u32 account ++ u8 l.tier ++ u16 l.rate ++ be 3 l.active ++ be 3 l.credited ++ be 3 l.billable
    ++ be 3 l.charge)

/-- The records of an account's statement: its header, then its lines (R174). -/
def statementRecords (b : Bank) (v : Statement) : List (List Byte) :=
  headerRecord b v :: v.lines.map (lineRecord v.account)

/-- The CLOSE record (R175). -/
def closeRecord (b : Bank) (g : Engine) : List Byte :=
  stmtBody rkClose (u16 (seqOf b) ++ u32 (openMinuteOf b) ++ u32 (closeMinuteOf b) ++ u32 (periodEnd b) ++ u16 g.statements
    ++ u16 g.lines ++ u16 g.omitted ++ be 6 g.control
    ++ u8 (flagBits [g.truncated, overflowSet b, pastLimit b || overdueSet b]))

/-! ## Writing (R174) -/

/-- The accounts from the resumption point on, ascending. -/
def accountsLeft (s : State) : List Nat :=
  (accountsOf (journal (bank s s.engine.bank))).filter (fun a => decide (s.engine.resume ≤ a))

/-- The slots of the region from its append point to slot 32,767. -/
def regionLeft (s : State) : Nat := 32768 - (bank s s.engine.bank).stmtAppend

/-- The next account is taken up if the region has room for it, or else it and every later one are omitted (R174). -/
def takeAccount (s : State) : State :=
  match s.engine.writing, s.engine.truncated, accountsLeft s with
  | none, false, a :: as =>
    let b := bank s s.engine.bank
    let v := statementOf b a
    if regionLeft s < v.lines.length + 5 then
      { s with engine.omitted := s.engine.omitted + (a :: as).length, engine.truncated := true }
    else { s with engine.writing := some ⟨a, statementRecords b v, [], v.lines.length, v.grand⟩ }
  | _, _, _ => s

/-- The record that the statement programming in hand writes: the next of the account, or the CLOSE record (R174, R175). -/
def statementHead (s : State) : List Byte :=
  match s.engine.writing with
  | some w => w.todo.head?.getD []
  | none => closeRecord (bank s s.engine.bank) s.engine

/-- With the path idle and the append queue empty, the engine starts its next slot (R151, R174). -/
def startStatement (s : State) : State :=
  if s.engine.state = .computing && !s.engine.closeDone && s.store.path = .idle && s.store.queue.isEmpty && !s.store.fault
      && s.link.op ≠ .starting then
    { takeAccount s with store.path := .statement }
  else s

/-- The record written at a slot of the statement region has committed: the account goes on or is complete, or the CLOSE
record stands and CLOSED is programmed (R174, R175). -/
def statementCommit (slot : Nat) (s : State) : State :=
  match s.engine.writing with
  | none => joinItem (.header s.engine.bank .closed) { s with engine.closeDone := true }
  | some w =>
    match w.todo with
    | _ :: t :: ts => { s with engine.writing := some { w with todo := t :: ts, slots := w.slots ++ [slot] } }
    | _ =>
      { s with
        engine.writing := none
        engine.resume := w.account + 1
        engine.statements := s.engine.statements + 1
        engine.lines := s.engine.lines + w.lines
        engine.control := s.engine.control + w.grand }

/-! ## The close sequence (R165, R167, R168, R169) -/

/-- The roll list (R165): every bound slot, ascending. -/
def rollList (s : State) : List RollEntry :=
  s.subs.map (fun x => ⟨x.1, x.2.account, x.2.state, x.2.tiers, segmentOfTap s x.2.tap⟩)

/-- The OUTAGE record of a record still open at the close minute (R167). -/
def portionFields (s : State) (o : Nat) (c : Nat) (r : Outage) : List Byte :=
  outageFields r.segment r.id r.start (max r.start o) c (qualifies s.params.creditThreshold (c - r.start))

/-- A close is accepted for the OPEN bank with close minute c (R165). -/
def beginClose (i : BankId) (c : Nat) (s : State) : State :=
  let o := openMinuteOf (bank s i)
  let rolls := rollList s
  let s := (s.outage.records.filter (fun r => r.stop.isNone)).foldl
    (fun s r => (appendAuto rkOutage (portionFields s o c r) .other s).1) s
  let s := (appendAuto rkMark [] .other s).1
  let s := joinItem (.header i (.closeMinute c)) s
  let s := joinItem (.header i .closing) s
  let s := openPeriod (otherBank i) c s
  { s with
    store.minute := c
    engine.state := .sequence
    engine.bank := i
    engine.minute := c
    engine.rolls := rolls
    engine.resume := 0
    engine.writing := none
    engine.statements := 0
    engine.lines := 0
    engine.omitted := 0
    engine.control := 0
    engine.truncated := false
    engine.closeDone := false }

/-- The checks of CLOSE-PERIOD (R165). -/
def closeCheck (s : State) : Except StatusCode BankId :=
  if !running s || s.engine.state = .sequence || (bankIn s .closing).isSome then .error .state
  else match openBank s with
    | none => .error .state
    | some i =>
      if !openWritten (bank s i) then .error .state
      else if (bank s (otherBank i)).state ≠ .free then .error .notReleased
      else if s.store.fault then .error .storeFault
      else .ok i

/-- CLOSE-PERIOD at acceptance (R165). -/
def orderClosePeriod (s : State) : State :=
  match closeCheck s with
  | .error c => refuse c s
  | .ok i => beginClose i (minuteOf s) s

/-- The fields of a ROLL record (R168). -/
def rollFields (r : RollEntry) : List Byte := serviceFields r.account r.slot (some r.state) r.tiers r.segment

/-- The next ROLL is handed to the store; one that is not written is reported at once, and the next follows. After the
last the close state becomes COMPUTING (R168). -/
def rollNext : List RollEntry → State → State
  | [], s => { s with engine.rolls := [], engine.state := .computing }
  | r :: rs, s =>
    let x := appendAuto rkRoll (rollFields r) .roll { s with engine.rolls := rs }
    if x.2 then x.1 else rollNext rs x.1

/-- The statement engine takes a minute boundary (R169): an automatic close, or the OVERDUE marker and PERIOD_OVERDUE. -/
def limitBoundary (s : State) : State :=
  match openBank s with
  | none => s
  | some i =>
    let b := bank s i
    let limit := openMinuteOf b + periodLimit
    let m := minuteOf s
    if !running s || s.engine.limitTaken || s.engine.state = .sequence || s.store.fault || !openWritten b || m < limit then s
    else
      let s := { s with engine.limitTaken := true }
      let o := bank s (otherBank i)
      if o.state = .free && (bankIn s .closing).isNone then beginClose i m s
      else
        notice nkPeriodOverdue true
          (u8 (bankNum i) ++ u16 (seqOf b) ++ u32 (openMinuteOf b) ++ u32 limit ++ u32 m ++ u8 (bankStateNum o.state))
          (joinItem (.header i .overdue) s)

/-! ## Resumption (R176) -/

/-- The committed records of a bank's statement region with their slots, in slot order. -/
def regionRecords (b : Bank) : List (Nat × List Byte) :=
  (committedSlots b 16384 16384).map (fun i => (i, (slotBytes b i).take 31))

/-- The committed STATEMENT headers of the region. -/
def headersOf (b : Bank) : List (Nat × List Byte) := (regionRecords b).filter (fun r => recKind r.2 = rkStatement)

/-- The slots of the committed TIER_LINE records after a slot. -/
def linesAfter (b : Bank) (k : Nat) : List Nat :=
  ((regionRecords b).filter (fun r => recKind r.2 = rkTierLine && decide (k < r.1))).map (·.1)

/-- The last header and its lines are incomplete: the slots to void, the header first (R176). -/
def incomplete (b : Bank) : List Nat :=
  match (headersOf b).getLast? with
  | none => []
  | some (k, r) => let ls := linesAfter b k; if ls.length < fld r 28 1 then k :: ls else []

/-- The headers of the complete statements: all but an incomplete last one (R176). -/
def completeHeaders (b : Bank) : List (Nat × List Byte) :=
  if (incomplete b).isEmpty then headersOf b else (headersOf b).dropLast

/-- The resumption point that the region gives (R176), read before an incomplete account is voided. -/
def resumePoint (b : Bank) : Nat :=
  match (headersOf b).getLast? with
  | none => 0
  | some (_, r) => if (incomplete b).isEmpty then fld r 1 4 + 1 else fld r 1 4

end Sys2Proof.Machine
end

