-- ==== Sys2Proof/Machine/Commit.lean ====
section
/-! DEFINITION. The ends of the billing store's operations (Chapter 9): programming of records, header fields, identity words
and statement slots, the erase of pages, and the recovery scan. -/

namespace Sys2Proof.Machine

/-! ## The programming path (R151, R152) -/

/-- A record at the head of the queue has no slot to take: the append point has passed the journal, or no bank is OPEN
(R152; log 24). -/
def noSlot (s : State) : Bool :=
  match openBank s with | none => true | some i => decide (16383 < (bank s i).append)

/-- A record that reached the head without a slot is reported not written with cause FULL (R152, R168). -/
def loseHead (body : List Byte) (o : Origin) (s : State) : State :=
  match o with
  | .order => refuse .journalFull s
  | .roll => let s := loseRecord (recKind body) s; rollNext s.engine.rolls s
  | _ => loseRecord (recKind body) s

/-- The idle path takes up the head of the queue, passing over records that find no slot, or the next statement slot (R151,
R152). The first argument bounds how many heads are passed over. -/
def pumpStore : Nat → State → State
  | 0, s => s
  | n + 1, s =>
    if s.store.fault || s.store.path ≠ .idle then s
    else match s.store.queue with
      | [] => startStatement s
      | .record body o :: q =>
        if noSlot s then
          let s := loseHead body o { s with store.queue := q, store.path := .append }
          pumpStore n { s with store.path := .idle }
        else { s with store.path := .append }
      | _ => { s with store.path := .append }

/-- The path is free for the next item (R151). -/
def nextItem (s : State) : State :=
  pumpStore (s.store.queue.length + s.engine.rolls.length + 20) { s with store.path := .idle }

/-- What the array took of the bytes given (log 4): as many bytes as were given, whatever the operand holds. A byte that it does
not give is 0xFF, which clears no bit; a byte past those given is not read, since a programming reaches the bytes given and no
others, also where it fails (R145, R148 and R161 do not say how far; the model's choice, log 4). -/
def took (p : Programmed) (given : List Byte) : List Byte :=
  match p.landed with
  | none => given
  | some bs => given.zipIdx.map (fun x => (bs[x.2]?).getD erasedByte)

/-- A bank with bytes programmed at an address. -/
def programBank (i : BankId) (a : Nat) (bs : List Byte) (s : State) : State :=
  let b := bank s i
  setBank s i { b with cells := cellsAnd b.cells a bs }

/-- A slot's state byte programmed to 0x00 after a mismatch, with what the array took (R148). -/
def voidSlot (i : BankId) (slot : Nat) (v : Byte) (s : State) : State := programBank i (32 * slot + 31) [v] s

/-- A mismatch is counted; four in a row fault the store (R148, R149). -/
def countMismatch (i : BankId) (slot : Nat) (s : State) : State :=
  let s := { s with store.mismatches := s.store.mismatches + 1 }
  if 4 ≤ s.store.mismatches then storeFault .mismatch (some (i, slot)) s else s

/-! ## Journal records (R148) -/

/-- The commit of a host record acts by the order in flight (R43, R139, R141). -/
def orderCommit (s : State) : State :=
  match s.link.inFlight with
  | some ⟨_, .known (.purchase slot e)⟩ => purchaseCommit slot e s
  | some ⟨_, .known (.eventCancel e)⟩ => cancelCommit e s
  | some ⟨_, .known o⟩ => serviceCommit o s
  | _ => s

/-- A committed record is reported to its producer (R148, R151). -/
def recordCommit (o : Origin) (s : State) : State :=
  match o with
  | .order => orderCommit s
  | .outage id => creditCommit id s
  | .roll => rollNext s.engine.rolls s
  | .other => s

/-- The append point of a bank's journal region advances by one. -/
def advanceAppend (i : BankId) (s : State) : State :=
  let b := bank s i
  setBank s i { b with append := b.append + 1 }

/-- The programming of a journal record ends with its read-back (R148): committed, or voided and written again. -/
def recordProgrammed (p : Programmed) (s : State) : State :=
  match s.store.path, s.store.queue, openBank s with
  | .append, .record body o :: q, some i =>
    let slot := (bank s i).append
    let given := body ++ [0x0F]
    let s := advanceAppend i (programBank i (32 * slot) (took p given) s)
    if slotBytes (bank s i) slot = given then
      nextItem (recordCommit o { s with store.queue := q, store.mismatches := 0 })
    else
      let s := voidSlot i slot (p.voids.head?.getD 0) s
      if committed (bank s i) slot then storeFault .voidFailed (some (i, slot)) s
      else
        let s := countMismatch i slot s
        if s.store.fault then s else nextItem (lowCheck s)
  | _, _, _ => s

/-! ## Header fields (R145, R147, R159, R166, R175) -/

/-- STATEMENTS_READY, from the bank's CLOSE record: sequence, c, E, the counts, the control total and the flags (R175). Where no
CLOSE record stands, since the region had no slot left for it, the notice carries what the record would have held (the
model's choice, log 76). -/
def statementsReady (i : BankId) (s : State) : State :=
  let b := bank s i
  let r := match closeSlot b with | none => closeRecord b s.engine | some k => slotBytes b k
  notice nkStatementsReady false (((r.drop 1).take 2) ++ ((r.drop 7).take 21)) s

/-- The commit of RELEASED answers its order: RELEASE-BANK with the sequence, STORE-CLEAR after its last marker (R159,
R160). -/
def releaseReply (i : BankId) (s : State) : State :=
  match s.link.inFlight with
  | some ⟨_, .known (.releaseBank _)⟩ => answer .ok (u16 (seqOf (bank s i))) s
  | some ⟨_, .known .storeClear⟩ =>
    if s.store.queue.any (fun x => match x with | .header _ .released => true | _ => false) then s else answer .ok [] s
  | _ => s

/-- The commit of OPENED during a close (R166): ROLLING begins and CLOSE-PERIOD is answered. -/
def closeOpened (s : State) : State :=
  if s.engine.state = .sequence then
    let c := s.engine.minute
    let closing := seqOf (bank s s.engine.bank)
    let s := { s with engine.state := .rolling }
    let s := rollNext s.engine.rolls s
    match s.link.inFlight with
    | some ⟨_, .known .closePeriod⟩ => answer .ok (u16 closing ++ u32 c) s
    | _ => s
  else s

/-- The commit of OPENED (R147): the bank is OPEN at slot 1, the spend list and the low mark are cleared, and TARIFF
records follow where the open minute is written (R164). -/
def openedCommit (i : BankId) (s : State) : State :=
  let b := bank s i
  let s := setBank s i { b with state := .open_, append := 1 }
  let s := { s with store.spend := [], store.lowMark := false }
  let s := if openWritten b then joinTariff s else s
  closeOpened s

/-- The statement engine takes up a CLOSING bank after a reset (R176), its region walked and its last account complete or
voided. The counts are those of the complete statements that stand there. -/
def resumeEngine (i : BankId) (s : State) : State :=
  let b := bank s i
  let hs := completeHeaders b
  let done := (closeSlot b).isSome
  let s := { s with
    engine.state := .computing
    engine.bank := i
    engine.writing := none
    engine.statements := hs.length
    engine.lines := (hs.map (fun r => fld r.2 28 1)).sum
    engine.omitted := 0
    engine.control := (hs.map (fun r => fld r.2 24 4)).sum
    engine.truncated := false
    engine.closeDone := done }
  if done && !s.store.fault then joinItem (.header i .closed) s else s

/-- What the commit of a header field does. The commit of RELEASED leaves the low mark as it is, also where it leaves no bank
OPEN (the model's choice, log 84). -/
def headerCommit (i : BankId) (f : HeaderField) (s : State) : State :=
  let b := bank s i
  match f with
  | .openMinute _ =>
    let s := { s with engine.limitTaken := false }
    if hdrSet b 13 then joinTariff s else s
  | .opened => openedCommit i s
  | .closing =>
    let s := setBank s i { b with state := .closing, stmtAppend := 16384 }
    if s.link.op = .starting then resumeEngine i { s with engine.resume := 0 } else s
  | .closed =>
    statementsReady i { setBank s i { b with state := .closed } with engine.state := .idle }
  | .released => releaseReply i (setBank s i { b with state := .erasing, page := some 255 })
  | _ => s

/-! ## The end of STARTING (R157, R190) -/

/-- The START notice's matter (R190), the cold-start flag as 1 for set (the model's choice, log 72) and the sequences as their bytes
read (the model's choice, log 60). -/
def startBytes (s : State) : List Byte :=
  u8 (causeNum s.time.cause) ++ flag s.time.coldStart
    ++ u8 (bankStateNum s.store.a.state) ++ u16 (seqOf s.store.a) ++ u8 (bankStateNum s.store.b.state)
    ++ u16 (seqOf s.store.b) ++ flag (s.store.lock = .effective) ++ u32 s.store.identity.headId.toNat ++ flag s.store.fault

/-- JOURNAL_LOW of a low mark that the scan set (R156, R190); where two banks are OPEN, that of bank A (the model's choice, log
68). -/
def startLow (s : State) : State :=
  match openBank s with
  | some i =>
    if s.store.lowMark then
      notice nkJournalLow true (u8 1 ++ u8 (bankNum i) ++ u16 (seqOf (bank s i)) ++ u16 (freeSlots s)) s
    else s
  | none => s

/-- STARTING ends: UNSET, START, the JOURNAL_LOW of a low mark, and the line claim of an asserted ALERT input (R37, R190). -/
def finishStart (s : State) : State :=
  let s := { s with store.scan := .ended, link.op := .unset }
  let s := notice nkStart true (startBytes s) s
  let s := startLow s
  let s := if s.schedule.alertInput then changeClaim .lineAtStart s.schedule.hostClaim true s else s
  if s.store.path = .idle then nextItem s else s

/-- Where the recovery scan stands after its walks (R157, R176): it opens the other bank of a CLOSING one with the open
minute deferred, waits for what it queued or for an erase, or ends STARTING. -/
def scanAdvance (s : State) : State :=
  if s.link.op ≠ .starting || s.store.scan ≠ .waiting then s
  else if s.store.fault then finishStart s
  else if s.store.queue.any (fun x => match x with | .header _ .closing => true | .header _ .opened => true | _ => false) then s
  else match bankIn s .closing, openBank s with
    | some i, none =>
      let o := otherBank i
      if (bank s o).state = .free then
        { joinItem (.header o .opened) (joinItem (.header o (.sequence (openingSequence s o))) s) with
          store.minute := closeMinuteOf (bank s i) }
      else if (bank s o).state = .erasing then s
      else finishStart s
    | _, _ => finishStart s

/-- The programming of a header field ends with its read-back: it commits, or is programmed again (R145). Only the bytes of the
field can change, also where the programming fails (the model's choice, log 4). -/
def headerProgrammed (p : Programmed) (s : State) : State :=
  match s.store.path, s.store.queue with
  | .append, .header i f :: q =>
    let s := programBank i (fieldAt f) (took p (fieldBytes f)) s
    if fieldAgrees (bank s i) f then
      scanAdvance (nextItem (headerCommit i f { s with store.queue := q, store.mismatches := 0 }))
    else scanAdvance (countMismatch i 0 s)
  | _, _ => s

/-! ## Identity words (R161, R162, R131) -/

/-- The programming of an identity word ends with its read-back. The reply to LOCK-WRITE carries the value read with STORE_FAULT
alone, and nothing with OK (R162; the model's choice, log 81). -/
def identityProgrammed (p : Programmed) (s : State) : State :=
  match s.store.path, s.store.queue with
  | .append, .identity w v :: q =>
    let old := idWord s.store.identity w
    let new := old &&& BitVec.ofNat 32 (unbe (took p (u32 v.toNat)))
    let s := { s with store.identity := setIdWord s.store.identity w new, store.queue := q }
    let s := match w with
      | .headId =>
        let s := { s with craft.ident := false }
        if new = v then printLine [word "OK", word "IDENT", dec v.toNat] s else printErr "STORE" s
      | _ =>
        let s := if new = v && lockHolds s.store.identity && s.store.lock ≠ .effective then
          { s with store.lock := .pending } else s
        if new = v then answer .ok [] s else answer .storeFault (u32 new.toNat) s
    nextItem s
  | _, _ => s

/-! ## Statement slots (R174) -/

/-- Slots of an abandoned account voided in turn; a void that still reads 0x0F faults the store (R148, R174). -/
def voidSlots (i : BankId) : List Nat → List Byte → State → State
  | [], _, s => s
  | k :: ks, vs, s =>
    if s.store.fault then s
    else
      let s := voidSlot i k (vs.head?.getD 0) s
      let s := if committed (bank s i) k then storeFault .voidFailed (some (i, k)) s else s
      voidSlots i ks (vs.drop 1) s

/-- After a void the account in hand is abandoned when the slots left are fewer than its unwritten records plus 4: its
committed records are voided, and it and every later account are omitted (R174). -/
def abandon (vs : List Byte) (s : State) : State :=
  match s.engine.writing with
  | none => s
  | some w =>
    if regionLeft s < w.todo.length + 4 then
      let left := (accountsLeft s).length
      voidSlots s.engine.bank w.slots vs
        { s with engine.writing := none, engine.omitted := s.engine.omitted + left, engine.truncated := true }
    else s

/-- The programming of a statement slot ends with its read-back (R148, R174, R175). Where no slot of the region is left for the
CLOSE record, nothing is programmed, and CLOSED follows (the model's choice, log 76). -/
def statementProgrammed (p : Programmed) (s : State) : State :=
  if s.store.path ≠ .statement then s
  else
    let i := s.engine.bank
    let slot := (bank s i).stmtAppend
    if s.engine.writing.isNone && decide (32768 ≤ slot) then nextItem (statementCommit slot s) else
    let given := statementHead s ++ [0x0F]
    let s := programBank i (32 * slot) (took p given) s
    let b := bank s i
    let s := setBank s i { b with stmtAppend := b.stmtAppend + 1 }
    if slotBytes (bank s i) slot = given then nextItem (statementCommit slot { s with store.mismatches := 0 })
    else
      let s := voidSlot i slot (p.voids.head?.getD 0) s
      if committed (bank s i) slot then storeFault .voidFailed (some (i, slot)) s
      else
        let s := countMismatch i slot s
        if s.store.fault then s
        else
          let s := abandon (p.voids.drop 1) s
          if s.store.fault then s else nextItem s

/-! ## The erase (R159) -/

/-- What the programming path is programming in a bank: the bank, the address and the bytes given, if it programs one. A CLOSE
record that finds no slot is none (log 76), and an identity word in hand is no slot of a bank: `tearIdentity` says what is left
of it (log 5). -/
def inHand (s : State) : Option (BankId × Nat × List Byte) :=
  match s.store.path, s.store.queue with
  | .statement, _ =>
    let slot := (bank s s.engine.bank).stmtAppend
    if slot < 32768 then some (s.engine.bank, 32 * slot, statementHead s ++ [0x0F]) else none
  | .append, .record body _ :: _ => (openBank s).map (fun i => (i, 32 * (bank s i).append, body ++ [0x0F]))
  | .append, .header i f :: _ => some (i, fieldAt f, fieldBytes f)
  | _, _ => none

/-- What a programming cut short has programmed of the bytes given, where the array offers `torn` (logs 5 and 35): no bit is
cleared that was not to be, the last byte is reached only behind all the others, and a record's state byte is left
short of 0x0F (R148). A marker and the state byte of a header field may be left at any value (R145). -/
def tornBytes (given torn : List Byte) : List Byte :=
  let w := given.zipIdx.map (fun x => x.1 ||| (torn[x.2]?).getD 0xFF)
  if w.dropLast ≠ given.dropLast then w.dropLast ++ [0xFF]
  else if given.getLast? = some 0x0F && w.getLast? = some 0x0F then w.dropLast ++ [0xFF]
  else w

/-- What a programming that a fault or a reset stopped leaves in its bank (R148, R149). -/
def tearSlot (torn : List Byte) (s : State) : State :=
  match inHand s with
  | none => s
  | some (i, a, given) => programBank i a (tornBytes given torn) s

/-- What an identity programming that a fault or a reset stopped leaves of its word (R161; log 5). -/
def tearIdentity (torn : List Byte) (s : State) : State :=
  match s.store.path, s.store.queue with
  | .append, .identity w v :: _ =>
    let got := (u32 v.toNat).zipIdx.map (fun x => x.1 ||| (torn[x.2]?).getD 0xFF)
    { s with store.identity :=
        setIdWord s.store.identity w (idWord s.store.identity w &&& BitVec.ofNat 32 (unbe got)) }
  | _, _ => s

/-- One page of an erasing bank is cleared and blank-checked (R159). `left` is what the blank check finds. STORE_FAULT names the
slot of the lowest byte found (R149; the model's choice, log 58). BANK_FREE carries the bank's sequence as its two bytes read
before page 0 is cleared, also where no order released the bank or a cut erase damaged them (the model's choice, log 60). -/
def erasePage (i : BankId) (left : List Host.Cell) (torn : List Byte) (s : State) : State :=
  let b := bank s i
  match b.page with
  | none => s
  | some p =>
    let seq := seqOf b
    let cells := (left.filter (fun c => decide (c.1 < 4096))).foldl (fun m c => cellPut m (4096 * p + c.1) c.2)
      (cellsErase b.cells p)
    let s := setBank s i { b with cells := cells }
    match cells.find? (fun c => c.1 / 4096 = p) with
    | some c => scanAdvance (storeFault .erase (some (i, c.1 / 32)) (tearIdentity torn (tearSlot torn s)))
    | none =>
      if p = 0 then
        scanAdvance (notice nkBankFree false (u8 (bankNum i) ++ u16 seq)
          (setBank s i { b with cells := cells, state := .free, watermark := 0, page := none }))
      else setBank s i { b with cells := cells, page := some (p - 1) }

/-! ## The recovery scan (R155, R156, R157, R176) -/

/-- A torn slot's state byte is programmed to 0x00, again after a mismatch, until it reads other than 0xFF or the store
faults (R148, R156; log 27). -/
def voidTorn (i : BankId) (slot : Nat) : Nat → List Byte → State → State × List Byte
  | 0, vs, s => (s, vs)
  | n + 1, vs, s =>
    if s.store.fault then (s, vs)
    else
      let s := voidSlot i slot (vs.head?.getD 0) s
      if committed (bank s i) slot then (storeFault .voidFailed (some (i, slot)) s, vs.drop 1)
      else if slotState (bank s i) slot = 0xFF then voidTorn i slot n (vs.drop 1) (countMismatch i slot s)
      else ({ s with store.mismatches := 0 }, vs.drop 1)

/-- A region walked upward from a slot: torn slots are voided, and the walk stops at the first wholly erased slot, which is
the append point (R156, R176). -/
def walk (i : BankId) : Nat → Nat → List Byte → State → State × Nat × List Byte
  | 0, k, vs, s => (s, k, vs)
  | n + 1, k, vs, s =>
    if slotState (bank s i) k = 0xFF then
      if slotErased (bank s i) k then (s, k, vs)
      else let r := voidTorn i k 4 vs s; walk i n (k + 1) r.2 r.1
    else walk i n (k + 1) vs s

/-- The journal of a bank walked from slot 1 (R156). -/
def walkJournal (i : BankId) (vs : List Byte) (s : State) : State × List Byte :=
  let r := walk i 16383 1 vs s
  let b := bank r.1 i
  (setBank r.1 i { b with append := r.2.1 }, r.2.2)

/-- The statement region of a CLOSING bank walked, and an incomplete last account voided (R176). -/
def walkRegion (i : BankId) (vs : List Byte) (s : State) : State :=
  let r := walk i 16384 16384 vs s
  let b := bank r.1 i
  let s := setBank r.1 i { b with stmtAppend := r.2.1 }
  let b := bank s i
  if (closeSlot b).isSome then resumeEngine i s
  else resumeEngine i (voidSlots i (incomplete b) r.2.2 { s with engine.resume := resumePoint b })

/-- What the scan takes from the OPEN bank's journal (R154, R156, R169): the spend list, the journal minute, the low mark
and the limit state. While its open minute is unwritten the journal minute is the CLOSING bank's close minute (R150). Where the
scan finds two banks OPEN, it is run for bank A alone (the model's choice, log 68). -/
def readOpenBank (i : BankId) (s : State) : State :=
  let b := bank s i
  let js := journal b
  let s := { s with
    store.spend := js.foldl
      (fun l r => if recKind r = rkPurchase then addSpend l (fld r 5 4) (fld r 18 2) else l) []
    store.minute := match js.getLast? with
      | some r => recMinute r
      | none => if openWritten b then openMinuteOf b else closeMinuteOf (bank s (otherBank i))
    engine.limitTaken := overdueSet b }
  { s with store.lowMark := decide (freeSlots s ≤ 256) }

/-- The staged tariff after a reset (R164): the rates of the OPEN bank, else of the CLOSING, else of the CLOSED one. Where the
scan finds two banks OPEN, or two CLOSED or two CLOSING, bank A is taken (the model's choice, log 68). -/
def scanTariff (s : State) : List Nat :=
  match (openBank s).or ((bankIn s .closing).or (bankIn s .closed)) with
  | none => List.replicate 16 0
  | some i => ratesOf (bank s i)

/-- The law of R146 is broken: two banks OPEN, or two each CLOSING or CLOSED. -/
def lawBroken (s : State) : Bool :=
  let past := fun (b : Bank) => b.state = .closing || b.state = .closed
  (s.store.a.state = .open_ && s.store.b.state = .open_) || (past s.store.a && past s.store.b)

/-- The scan's walk of one bank, if it is OPEN or CLOSING (R156). -/
def walkBank (i : BankId) (vs : List Byte) (s : State) : State × List Byte :=
  if (bank s i).state = .open_ || (bank s i).state = .closing then walkJournal i vs s else (s, vs)

/-- Banks that are ERASING are erased from the start (R157). -/
def restartErase (i : BankId) (s : State) : State :=
  let b := bank s i
  if b.state = .erasing && !s.store.fault then setBank s i { b with page := some 255 } else s

/-- A close cut off between its close minute and CLOSING: the scan programs CLOSING (R176), where the other bank can take
the opening that follows (log 26). -/
def completeClose (s : State) : State :=
  match openBank s with
  | none => s
  | some i =>
    let o := (bank s (otherBank i)).state
    if closeWritten (bank s i) && !s.store.fault && (o = .free || o = .erasing) then joinItem (.header i .closing) s else s

/-- The scan reads the identity area and the bank states (R155, R162). -/
def scanHeaders (s : State) : State :=
  { s with
    store.lock := if lockHolds s.store.identity then .effective else .none
    store.a.state := bankStateOf s.store.a
    store.b.state := bankStateOf s.store.b }

/-- The OPEN bank's spend list, journal minute, low mark and limit state are read, where there is one (R156). Where the scan finds
two banks OPEN and faults, they are those of bank A (the model's choice, log 68). -/
def scanOpen (s : State) : State :=
  match openBank s with
  | none => s
  | some i => readOpenBank i s

/-- The CLOSING bank's statement region is walked, where there is one. Where the scan finds two, the engine takes up bank A, which
STATUS then reports (the model's choice, log 68). -/
def scanClosing (vs : List Byte) (s : State) : State :=
  match bankIn s .closing with
  | none => s
  | some i => walkRegion i vs s

/-- What the scan reads behind the two journals: the OPEN bank, the tariff, the CLOSING bank, and the erases it restarts. -/
def scanBanks (vs : List Byte) (s : State) : State :=
  let s := scanOpen s
  let s := { s with engine.tariff := scanTariff s }
  completeClose (restartErase .b (restartErase .a (scanClosing vs s)))

/-- The recovery scan, read to its end (R155 to R157, R176); STARTING ends with it unless what it restarted is waited for. A
STORE_FAULT of cause SCAN names no bank and no slot (R149; the model's choice, log 58). -/
def recoveryScan (vs : List Byte) (s : State) : State :=
  if s.link.op ≠ .starting || s.store.scan ≠ .reading then s
  else
    let s := scanHeaders s
    let s := if lawBroken s then storeFault .scan none s else s
    let r := walkBank .a vs s
    let r := walkBank .b r.2 r.1
    scanAdvance { scanBanks r.2 r.1 with store.scan := .waiting }

end Sys2Proof.Machine
end

