-- ==== Sys2Proof/Machine/Craft.lean ====
section
/-! DEFINITION. The craft port unit (Chapter 7): what each craft command does, the states in which a line is taken (R121),
and the line buffer. -/

namespace Sys2Proof.Machine

/-! ## The states in which a line is taken (R121) -/

/-- The answer to every line but IDENT in STARTING and in UNSET (R121). -/
def craftGate (s : State) : Option String :=
  match s.link.op with | .starting => some "BUSY" | .unset => some "NO_TIME" | _ => none

/-- A command taken in LOADING and in RUN only. -/
def craftWorking (f : State → State) (s : State) : State :=
  match craftGate s with | some e => printErr e s | none => f s

/-- A watch command, taken only while the craft port owns the watches (R129). -/
def craftOwned (f : State → State) (s : State) : State :=
  craftWorking (fun s => if s.outage.owner = .host then printErr "OWNER" s else f s) s

/-! ## Holds (R123, R124) -/

/-- HOLD s (R123). -/
def craftHold (n : Nat) (s : State) : State :=
  craftWorking (fun s =>
    if 31 < n then printErr "RANGE" s
    else if (segOf s n).isNone then printErr "NOT_LOADED" s
    else if isHeld s n then printLine [word "OK", word "HELD", dec n] s
    else
      let r := holdSegment n s
      printLine [word "OK", word "HELD", dec n, dec r.2] r.1) s

/-- FREE s (R124). -/
def craftFree (n : Nat) (s : State) : State :=
  craftWorking (fun s =>
    if 31 < n then printErr "RANGE" s
    else if !isHeld s n then printErr "NOT_HELD" s
    else
      let r := freeSegment n .free 1 s
      printLine [word "OK", word "FREED", dec n, dec r.2] r.1) s

/-! ## SHOW (R126) -/

/-- The lines of a SHOW reply: "OK" with the command's words, then the matter in lines of at most 80 characters (log 11). The
number among the words is printed in plain decimal, as it was read (the model's choice, log 75). -/
def showReply (what : String) (n : Nat) (matter : List Byte) : List Text :=
  line [word "OK", word "SHOW", word what, dec n] :: (Config.showLines matter).map (·.take 80)

/-- SHOW SEG s (R126). -/
def craftShowSeg (n : Nat) (s : State) : State :=
  craftWorking (fun s =>
    if 31 < n then printErr "RANGE" s
    else match segOf s n with
      | none => printErr "NOT_LOADED" s
      | some g => print (showReply "SEG" n (segBytes s n g)) s) s

/-- SHOW XP a (R126). -/
def craftShowXp (a : Nat) (s : State) : State :=
  craftWorking (fun s =>
    if 4095 < a then printErr "RANGE" s
    else match xpAt s a with
      | none => printErr "NOT_LOADED" s
      | some (i, x) => print (showReply "XP" a (xpBytes s i x)) s) s

/-- SHOW TAP a (R126). -/
def craftShowTap (a : Nat) (s : State) : State :=
  craftWorking (fun s =>
    if 4095 < a then printErr "RANGE" s
    else match tapAt s a with
      | none => printErr "NOT_LOADED" s
      | some (i, t) => print (showReply "TAP" a (tapBytes s i t)) s) s

/-! ## Polls and tests (R127) -/

/-- POLL a (R127). -/
def craftPoll (a : Nat) (s : State) : State :=
  craftWorking (fun s => if 4095 < a then printErr "RANGE" s else craftRequest (.poll a) s) s

/-- TEST a p ON and TEST a p OFF (R127). -/
def craftTest (a p : Nat) (on : Bool) (s : State) : State :=
  craftWorking (fun s => if 4095 < a || 3 < p then printErr "RANGE" s else craftRequest (.test a p on) s) s

/-! ## Watches (R128, R129) -/

/-- TAKE (R128). -/
def craftTake (s : State) : State :=
  craftWorking (fun s =>
    if s.outage.owner = .craft then printLine [word "OK", word "TAKEN"] s
    else printLine [word "OK", word "TAKEN", dec (enabledCount s), dec (heldCount s)] (changeOwner .craft 0 s)) s

/-- GIVE (R128). -/
def craftGive (s : State) : State :=
  craftOwned (fun s => printLine [word "OK", word "GIVEN"] (changeOwner .host 1 s)) s

/-- One line for each enabled entry of the watch table, from entry n on (R129). -/
def watchLines : Nat → List WatchEntry → List Text
  | _, [] => []
  | n, e :: es =>
    if e.enabled then (Config.watchLine (u8 0 ++ u8 n ++ watchBytes e)).take 80 :: watchLines (n + 1) es
    else watchLines (n + 1) es

/-- One line for each held command, from place n on (R129). -/
def heldLines (s : State) : Nat → List (Option Held) → List Text
  | _, [] => []
  | n, none :: hs => heldLines s (n + 1) hs
  | n, some h :: hs => (Config.watchLine (u8 1 ++ u8 n ++ heldBytes s h)).take 80 :: heldLines s (n + 1) hs

/-- WATCH (R129). -/
def craftWatch (s : State) : State :=
  craftOwned (fun s =>
    print ([word "OK"] :: [watchLines 0 s.outage.watches, heldLines s 0 s.outage.held]).flatten s) s

/-- A WATCH form that sets an entry with the checks of WATCH-SET (R111, R129). -/
def craftWatchSet (p : WatchArgs) (s : State) : State :=
  craftOwned (fun s =>
    match watchOfArgs p with
    | none => printErr "RANGE" s
    | some (n, w) => printLine [word "OK", word "WATCH", dec n, dec w.base] (writeWatch n w s)) s

/-- WATCH n EVENT (R129). -/
def craftWatchEvent (n a span kinds : Nat) (urgent once : Bool) (s : State) : State :=
  craftWatchSet ⟨n, 0, a, span, kinds, if urgent then 0 else 1, if once then 1 else 0⟩ s

/-- WATCH n GUARD (R129). -/
def craftWatchGuard (n a span : Nat) (urgent once : Bool) (s : State) : State :=
  craftWatchSet ⟨n, 1, a, span, 0, if urgent then 0 else 1, if once then 1 else 0⟩ s

/-- WATCH n OFF (R129). -/
def craftWatchOff (n : Nat) (s : State) : State :=
  craftOwned (fun s =>
    if 7 < n then printErr "RANGE" s
    else printLine [word "OK", word "WATCH", dec n, word "OFF", dec (((s.outage.watches[n]?).map (·.hits)).getD 0)]
      (clearWatch n s)) s

/-- The name of a sync state (R52). -/
def syncWord : Sync → Text
  | .inSync => word "IN_SYNC" | .pending => word "PENDING" | .sent => word "SENT" | .parked => word "PARKED"
  | .held => word "HELD" | .dropped => word "DROPPED"

/-- A command of a held place: a place above 15 is out of range, an empty one is answered STATE (R129). -/
def craftHeld (n : Nat) (f : Held → State → State) (s : State) : State :=
  craftOwned (fun s =>
    if 15 < n then printErr "RANGE" s
    else match heldAt s n with | none => printErr "STATE" s | some h => f h s) s

/-- RELEASE n (R118, R129). The line carries the port's sync state as the release leaves it, before the choice of work that ends
the event (R71; the model's choice, log 42). -/
def craftRelease (n : Nat) (s : State) : State :=
  craftHeld n (fun h s =>
    let s := releaseHeld n h s
    printLine [word "OK", word "RELEASE", dec n, ((portOf s (h.tap, h.port)).map (fun r => syncWord r.sync)).getD []] s) s

/-- DROP n (R119, R129). -/
def craftDrop (n : Nat) (s : State) : State :=
  craftHeld n (fun h s => printLine [word "OK", word "DROP", dec n] (dropHeld n h s)) s

/-! ## IDENT (R131) -/

/-- The checks of IDENT, in order (R131). -/
def identCheck (h : Nat) (service : Bool) (s : State) : Option String :=
  if !service then some "SERVICE"
  else if h = 0 || 4294967294 < h then some "RANGE"
  else if idProgrammed s.store.identity.headId then some "PROGRAMMED"
  else if s.craft.ident then some "BUSY"
  else if s.store.fault then some "STORE"
  else none

/-- IDENT h, with the level of the SERVICE input (R131). -/
def craftIdent (h : Nat) (service : Bool) (s : State) : State :=
  if s.link.op = .starting then printErr "BUSY" s
  else match identCheck h service s with
    | some e => printErr e s
    | none => joinItem (.identity .headId (BitVec.ofNat 32 h)) { s with craft.ident := true }

/-! ## The words of a line (R121) -/

/-- A letter without regard to case (R121). -/
def upper (c : Char) : Char := if 97 ≤ c.toNat ∧ c.toNat ≤ 122 then Char.ofNat (c.toNat - 32) else c

/-- The parts of a text between the separators given, the empty ones left out. -/
def parts (sep : Char) : Text → Text → List Text
  | w, [] => if w.isEmpty then [] else [w]
  | w, c :: cs => if c = sep then (if w.isEmpty then parts sep [] cs else w :: parts sep [] cs) else parts sep (w ++ [c]) cs

/-- The words of a line, in capitals (R121). -/
def words (l : Text) : List Text := parts ' ' [] (l.map upper)

/-- A decimal number (R121). -/
def number (w : Text) : Option Nat :=
  if w.isEmpty || !w.all (fun c => decide (48 ≤ c.toNat) && decide (c.toNat ≤ 57)) then none
  else some (w.foldl (fun n c => n * 10 + (c.toNat - 48)) 0)

/-- One of two words, the first giving true. -/
def either (x y : String) (w : Text) : Option Bool :=
  if w = word x then some true else if w = word y then some false else none

/-- The watch event kinds in the order of R110. -/
def watchKinds : List WatchKind := [.xpMissing, .xpRestored, .level, .battery, .outputOff, .tamper, .tapUnreachable]

/-- The bit of an event kind's name (R110). -/
def kindBit (w : Text) : Option Nat :=
  (watchKinds.find? (fun k => word (watchKindName k) = w)).map (fun k => 2 ^ watchKindNum k)

/-- The set of the event kinds whose names are joined by commas (R129). -/
def kindSet (w : Text) : Option Nat :=
  (parts ',' [] w).foldl (fun a k => match a, kindBit k with | some a, some b => some (a ||| b) | _, _ => none) (some 0)

/-- What a line of words asks, where it is well formed (R121, 7.2). -/
def craftCommand (service : Bool) (ws : List Text) : Option (State → State) :=
  match ws with
  | [c] =>
    if c = word "TAKE" then some craftTake
    else if c = word "GIVE" then some craftGive
    else if c = word "WATCH" then some craftWatch
    else none
  | [c, n] =>
    (number n).bind (fun n =>
      if c = word "HOLD" then some (craftHold n)
      else if c = word "FREE" then some (craftFree n)
      else if c = word "POLL" then some (craftPoll n)
      else if c = word "RELEASE" then some (craftRelease n)
      else if c = word "DROP" then some (craftDrop n)
      else if c = word "IDENT" then some (craftIdent n service)
      else none)
  | [c, k, n] =>
    if c = word "SHOW" then
      (number n).bind (fun n =>
        if k = word "SEG" then some (craftShowSeg n)
        else if k = word "XP" then some (craftShowXp n)
        else if k = word "TAP" then some (craftShowTap n)
        else none)
    else if c = word "WATCH" && n = word "OFF" then (number k).map craftWatchOff
    else none
  | [c, a, p, v] =>
    if c = word "TEST" then
      match number a, number p, either "ON" "OFF" v with
      | some a, some p, some on => some (craftTest a p on)
      | _, _, _ => none
    else none
  | [c, n, k, a, span, cl, once] =>
    if c = word "WATCH" && k = word "GUARD" then
      match number n, number a, number span, either "U" "R" cl, either "ONCE" "MANY" once with
      | some n, some a, some span, some u, some o => some (craftWatchGuard n a span u o)
      | _, _, _, _, _ => none
    else none
  | [c, n, k, a, span, kinds, cl, once] =>
    if c = word "WATCH" && k = word "EVENT" then
      match number n, number a, number span, kindSet kinds, either "U" "R" cl, either "ONCE" "MANY" once with
      | some n, some a, some span, some ks, some u, some o => some (craftWatchEvent n a span ks u o)
      | _, _, _, _, _, _ => none
    else none
  | _ => none

/-! ## The line buffer (R121) -/

/-- A character received (R121): a printable one is kept and echoed, or marks the line long; any other is discarded. -/
def craftKeep (b : Byte) (s : State) : State :=
  if b.toNat < 32 || 126 < b.toNat then s
  else if 80 ≤ s.craft.buffer.length then { s with craft.long := true }
  else
    let c := Char.ofNat b.toNat
    { s with craft.buffer := s.craft.buffer ++ [c], craft.output := [c] }

/-- A backspace (R121). -/
def craftErase (s : State) : State :=
  if s.craft.buffer.isEmpty then s
  else { s with craft.buffer := s.craft.buffer.dropLast, craft.output := [Char.ofNat 8] }

/-- The line that has been ended is taken as one event (R121; log 12). -/
def takeLine (long service : Bool) (l : Text) (s : State) : State :=
  match words l with
  | [] => s
  | w :: ws =>
    if long then printErr "LONG" s
    else if s.link.op = .starting then printErr "BUSY" s
    else if s.link.op = .unset && w ≠ word "IDENT" then printErr "NO_TIME" s
    else match craftCommand service (w :: ws) with
      | none => printErr "SYNTAX" s
      | some f => f s

/-- A carriage return ends the line: the buffer empties and the line is taken (R121). -/
def craftEnd (service : Bool) (s : State) : State :=
  takeLine s.craft.long service s.craft.buffer
    { s with craft.buffer := [], craft.long := false, craft.service := service }

end Sys2Proof.Machine
end

