-- ==== Sys2Proof/Machine/Timebase.lean ====
section
/-! DEFINITION. The timebase and the operating states (11.5 to 11.7): the minute boundary, SET-TIME, SET-PARAMS, GO, the
resets, and the running down of the timers. -/

namespace Sys2Proof.Machine

/-! ## The minute boundary (R183) -/

/-- The greatest minute (R183). -/
def lastMinute : Nat := 4294967295

/-- The timebase takes a minute boundary (R153): a MARK at a multiple of 60, or at any forward jump in RUN. The records made
while a close sequence runs go to the bank that it opens (R165; log 37). -/
def markBoundary (jump : Bool) (s : State) : State :=
  if (jump && running s)
      || (working s && minuteOf s % 60 = 0 && ((openBank s).isSome || s.engine.state = .sequence)) then
    (appendAuto rkMark [] .other s).1
  else s

/-- The five takers of a minute boundary, in the order in which R183 lists them. -/
def takers (jump : Bool) : List (State → State) :=
  [scheduleBoundary, eventBoundary, claimBoundary, markBoundary jump, limitBoundary]

/-- One of the orders of a list's members, by a code. The first argument bounds the length. -/
def arrange {α : Type} : Nat → Nat → List α → List α
  | 0, _, l => l
  | _, _, [] => []
  | n + 1, k, l =>
    match l[k % l.length]? with
    | none => l
    | some x => x :: arrange n (k / l.length) (l.eraseIdx (k % l.length))

/-- The minute boundary of the minute that now stands: each taker takes it, in whatever order it arrives (R183; log 10), and
the channels that the boundary changed are handed on together (R5, R51). -/
def boundary (jump : Bool) (s : State) : State :=
  handOff ((arrange 5 (Config.boundaryOrder s.freeCount) (takers jump)).foldl (fun s f => f s)
    { s with freeCount := s.freeCount + 1 })

/-- The second passes from 59 to 0 (R183): the minute advances and its boundary is taken, but not from the last minute. -/
def passMinute (m : Nat) (s : State) : State :=
  if lastMinute ≤ m then { s with time.clock := some (m, 0) }
  else boundary false { s with time.clock := some (m + 1, 0) }

/-- The second advances (R183). -/
def tickSecond (s : State) : State :=
  match s.time.clock with
  | none => s
  | some (m, n) => if n < 59 then { s with time.clock := some (m, n + 1) } else passMinute m s

/-- The second passes from 59 to 0, where it stands at 59 (R183; log 13). -/
def tickMinute (s : State) : State :=
  match s.time.clock with
  | none => s
  | some (m, n) => if n < 59 then s else passMinute m s

/-! ## SET-TIME (R185) -/

/-- The checks of SET-TIME (R185). -/
def setTimeCheck (m n : Nat) (s : State) : Bool :=
  decide (n ≤ 59) && !((openBank s).isSome && decide (m < s.store.minute))
    && !(running s && decide (minuteOf s + 1440 < m))

/-- The first SET-TIME's record work (R153, R185): a deferred open minute is programmed, then POWER_UP is handed over. -/
def powerUp (m : Nat) (s : State) : State :=
  match openBank s with
  | none => s
  | some i =>
    let s := if !openWritten (bank s i) && !s.store.fault then
      { joinItem (.header i (.openMinute m)) s with store.minute := m } else s
    (appendAuto rkPowerUp (u8 (causeNum s.time.cause)) .other s).1

/-- The reply to SET-TIME: the time that stands, TIME_VALID, the operating state and the jump, absent where no minute stood
before (R185, R194). A jump outside the signed 32 bits is sent modulo 2^32 (the model's choice, log 20), and TIME_VALID as 1
for set (the model's choice, log 72). -/
def timeBytes (jump : Option Int) (s : State) : List Byte :=
  u32 (minuteOf s) ++ u8 (secondOf s) ++ flag s.time.clock.isSome ++ u8 (opNum s.link.op)
    ++ (match jump with | none => absent 4 | some d => i32 d)

/-- SET-TIME (R185). -/
def orderSetTime (m n : Nat) (s : State) : State :=
  if !setTimeCheck m n s then refuse .badArg s
  else
    let old := s.time.clock
    let s := { s with time.clock := some (m, n) }
    match old with
    | none =>
      let s := powerUp m { s with link.op := .loading }
      answer .ok (timeBytes none s) s
    | some (was, _) =>
      let s := if was < m then boundary true s else s
      answer .ok (timeBytes (some ((m : Int) - was)) s) s

/-! ## SET-PARAMS (R186) -/

/-- A parameter after an order that may name it, clamped to its range (R180). -/
def param (lo hi : Nat) (given : Option Nat) (old : Nat) : Nat :=
  match given with | none => old | some v => clamp lo hi v

/-- The six parameters after SET-PARAMS (R186). -/
def newParams (p : ParamArgs) (q : Params) : Params :=
  { rampStep := param 100 2000 p.rampStep q.rampStep
    replyWindow := param 20 200 p.replyWindow q.replyWindow
    pollShare := param 1 7 p.pollShare q.pollShare
    missLimit := param 1 15 p.missLimit q.missLimit
    batteryWarn := param 0 255 p.batteryWarn q.batteryWarn
    creditThreshold := param 0 1440 p.creditThreshold q.creditThreshold }

/-- The six parameters as replies carry them (R186, R194). -/
def paramBytes (q : Params) : List Byte :=
  u16 q.rampStep ++ u16 q.replyWindow ++ u8 q.pollShare ++ u8 q.missLimit ++ u16 q.batteryWarn ++ u16 q.creditThreshold

/-- SET-PARAMS (R186). -/
def orderSetParams (p : ParamArgs) (s : State) : State :=
  answer .ok (paramBytes (newParams p s.params)) { s with params := newParams p s.params }

/-! ## GO (R187, R188) -/

/-- The first check of GO: the lowest segment whose chain fails, with the failure, CYCLE 0 or DEPTH 1 (R187). -/
def goChain (s : State) : Option (List Byte) :=
  s.telemetry.segments.findSome? (fun g => (chainBad s.telemetry.segments g.1).map (fun f =>
    u8 g.1 ++ u8 (match f with | .cycle => 0 | .depth => 1)))

/-- The second check of GO: the lowest segment whose named head does not serve, with the head (R187). -/
def goHead (s : State) : Option (List Byte) :=
  s.telemetry.segments.findSome? (fun g => g.2.head.bind (fun h =>
    if headLegal s g.1 h then none else some (u8 g.1 ++ u8 h)))

/-- The bank in which GO opens a period, when none is OPEN: A when both are FREE (R147, R188). -/
def goBank (s : State) : Option BankId :=
  if s.store.a.state = .free then some .a else if s.store.b.state = .free then some .b else none

/-- The opening of GO: the bank to be reported, its sequence, and whether a period is opened; or the refusal (R187, R188). -/
def goOpening (s : State) : Except StatusCode (BankId × Nat × Bool) :=
  match openBank s with
  | some i => .ok (i, seqOf (bank s i), false)
  | none =>
    if s.store.fault then .error .storeFault
    else match goBank s with
      | none => .error .busy
      | some i => .ok (i, openingSequence s i, true)

/-- What an accepted GO does (R188). -/
def goRun (i : BankId) (opens : Bool) (s : State) : State :=
  let s := if opens then { openPeriod i (minuteOf s) s with store.minute := minuteOf s } else s
  let s := goLineup { s with link.op := .run }
  let s := forceTaps (tapIndices s) s
  { s with plant.line := .idle }

/-- GO (R187, R188). -/
def orderGo (s : State) : State :=
  if running s then refuse .state s
  else match (goChain s).or (goHead s) with
    | some item => answer .badArg item s
    | none => match goOpening s with
      | .error c => refuse c s
      | .ok (i, q, opens) =>
        let s := goRun i opens s
        answer .ok (u8 (bankNum i) ++ u16 q ++ flag opens ++ u16 (4 * (tapIndices s).length)) s

/-! ## Resets (R189) -/

/-- The bytes of a page with the bits that an erase had set (R159). -/
def cellsRise : List Host.Cell → Nat → List Byte → List Host.Cell
  | m, _, [] => m
  | m, a, b :: t => cellsRise (cellPut m a (cellGet m a ||| b)) (a + 1) t

/-- The cells of a bank whose erase a reset cut short: the page in hand stands between its bytes and erased, and the header
page still reads as ERASING (R159; log 28). -/
def cutErase (b : Bank) (erased : List Byte) : List Host.Cell :=
  match b.page with
  | none => b.cells
  | some p =>
    let m := cellsRise b.cells (4096 * p) (erased.take 4096)
    if bankStateOf { b with cells := m } = .erasing then m else b.cells

/-- The state after a reset (R189): every block at its reset values, the store, the identity area and the inputs as they
stand, the speed strap and the SERVICE input sampled. -/
def resetState (cause : ResetCause) (r : ResetInputs) (s : State) : State :=
  { link := { speed := r.speed }
    time := { cause := cause, coldStart := cause = .powerOn || s.time.coldStart }
    lineup := { ready := s.lineup.ready }
    schedule := { alertInput := s.schedule.alertInput }
    craft := { service := r.service }
    store := { a := { cells := cutErase s.store.a r.erasedA }
               b := { cells := cutErase s.store.b r.erasedB }
               identity := s.store.identity }
    pending := s.pending
    freeCount := s.freeCount }

/-- A reset arrives (R189): the programming in hand is abandoned where it stands, and every block is reset. -/
def resetEvent (cause : ResetCause) (r : ResetInputs) (s : State) : State :=
  resetState cause r (tearIdentity r.torn (tearSlot r.torn s))

/-! ## The running down of the timers (log 1) -/

/-- One millisecond of a timer that may run. -/
def tickTimer (t : Option Nat) : Option Nat := t.map (· - 1)

/-- One millisecond of a ramp's dwell timer, which FAULT stops (R18, R20). -/
def tickRamp (fault : Bool) (r : Ramp) : Ramp := if r.phase = .dwell && !fault then { r with left := r.left - 1 } else r

/-- One millisecond passes with no command (log 1): the timers that run go down, and their ends are commands. -/
def tick (s : State) : State :=
  { s with
    lineup.readyTimer := tickTimer s.lineup.readyTimer
    lineup.ramps := s.lineup.ramps.map (tickRamp s.lineup.fault)
    lineup.settleTimer := tickTimer s.lineup.settleTimer
    plant.timer := s.plant.timer - 1 }

end Sys2Proof.Machine
end

