-- ==== Sys2Proof/Machine/Orders.lean ====
section
/-! DEFINITION. Taking orders (11.2, 11.6): the gate, the orders of the link unit itself, the hand-over of each order to its
block, the input queue, and the end of every event. -/

namespace Sys2Proof.Machine

/-! ## The orders of the link unit (R182, R189, R190, R191) -/

/-- A field that the recovery scan rebuilds, reported as 0xFF in each byte until it has read it (R191). -/
def rebuilt (s : State) (n : Nat) (bs : List Byte) : List Byte :=
  if s.store.scan = .reading then absent n else bs

/-- A bank in STATUS: its state, sequence and append point (R191). -/
def bankStatus (s : State) (b : Bank) : List Byte :=
  rebuilt s 5 (u8 (bankStateNum b.state) ++ u16 (seqOf b) ++ opt 2 (appendShown b))

/-- The sequence of the closing bank, where a close stands (R163, R191). -/
def closingSeq (s : State) : Option Nat :=
  if s.engine.state = .idle then none else some (seqOf (bank s s.engine.bank))

/-- The number of statements written, where a close stands: IDLE holds nothing, so the field is then absent (R163, R194; log
45). -/
def writtenCount (s : State) : Option Nat :=
  if s.engine.state = .idle then none else some s.engine.statements

/-- The state of the matrix line: IDLE 0, BUSY 1, FAULT 2 (R12, R13). -/
def matrixNum (s : State) : Nat := if s.lineup.fault then 2 else if s.lineup.inTransfer then 1 else 0

/-- The matter of the reply to STATUS, in the order of R191. The orders waiting and the held commands are sent as counts (the
model's choice, log 69), a flag that is set or on as 1 (the model's choice, log 72), and the low mark with no bank OPEN as it
last stood (the model's choice, log 84). -/
def statusBytes (s : State) : List Byte :=
  u8 (opNum s.link.op) ++ flag s.time.clock.isSome ++ opt 4 (s.time.clock.map (·.1)) ++ opt 1 (s.time.clock.map (·.2))
    ++ u8 (causeNum s.time.cause) ++ flag s.time.coldStart
    ++ flag s.link.urgentOn ++ flag s.link.routineOn ++ flag s.link.gap ++ u16 s.link.urgent.length
    ++ u16 s.link.routine.length ++ u16 s.link.waiting.length
    ++ bankStatus s s.store.a ++ bankStatus s s.store.b ++ rebuilt s 2 (u16 (freeSlots s)) ++ rebuilt s 1 (flag s.store.lowMark)
    ++ flag s.store.fault ++ rebuilt s 1 (u8 (lockNum s.store.lock))
    ++ rebuilt s 5 (u8 (closeStateNum s.engine.state) ++ opt 2 (closingSeq s) ++ opt 2 (writtenCount s))
    ++ flag s.schedule.stepMode ++ flag s.schedule.hostClaim.isSome
    ++ (match s.schedule.hostClaim with | some (.at m) => u32 m | _ => absent 4) ++ flag s.schedule.lineClaim
    ++ u8 (if s.schedule.active then 0 else 1)
    ++ u8 (matrixNum s) ++ u16 s.lineup.queue.length ++ u16 s.lineup.deferred.length ++ u16 s.lineup.ramps.length
    ++ u8 (if s.lineup.settleOpen then 0 else 1)
    ++ u16 s.plant.urgent.length ++ u16 s.plant.refresh.length ++ u16 (heldCount s) ++ u8 (ownerNum s.outage.owner)
    ++ paramBytes s.params

/-- The SERVICE input is read at an event that does not bring its level along: the level is a free value (log 6). -/
def readService (s : State) : State :=
  { s with craft.service := Config.serviceLevel s.freeCount, freeCount := s.freeCount + 1 }

/-- The matter of the reply to IDENTITY, the SERVICE input as it has just been read (R191). The part serial is sent in 4 bytes,
the 32 bits of R161, where R194 gives a serial no width (the model's choice, log 85). -/
def identityBytes (s : State) : List Byte :=
  u32 s.store.identity.serial.toNat ++ u32 s.store.identity.headId.toNat ++ u32 s.store.identity.lockA.toNat
    ++ u32 s.store.identity.lockB.toNat ++ rebuilt s 1 (u8 (lockNum s.store.lock)) ++ u8 (speedNum s.link.speed)
    ++ flag s.craft.service

/-- IDENTITY (R191). -/
def orderIdentity (s : State) : State :=
  let s := readService s
  answer .ok (identityBytes s) s

/-- NOTICE-MASK (R182). An enable is taken and sent as 1 for enabled (the model's choice, log 72). -/
def orderNoticeMask (urgent routine : Nat) (s : State) : State :=
  match flagArg urgent, flagArg routine with
  | some u, some r =>
    answer .ok (flag u ++ flag r ++ u16 s.link.urgent.length ++ u16 s.link.routine.length)
      { s with link.urgentOn := u, link.routineOn := r }
  | _, _ => refuse .badArg s

/-- ACK-START (R190). The flag is sent as 1 for set (the model's choice, log 72). -/
def orderAckStart (s : State) : State := answer .ok (flag s.time.coldStart) { s with time.coldStart := false }

/-- RESET (R189): answered OK, and from then on no order is taken until the reset that follows the reply. -/
def orderReset (s : State) : State := answer .ok [] { s with link.resetPending := true }

/-! ## Handing an order to its block (R178) -/

/-- An order that passed the gate is handed to the block that owns it (R178, 11.9). -/
def handOver (o : Order) : State → State :=
  match o with
  | .status => fun s => answer .ok (statusBytes s) s
  | .identity => orderIdentity
  | .noticeMask urgent routine => orderNoticeMask urgent routine
  | .ackStart => orderAckStart
  | .reset => orderReset
  | .setTime minute second => orderSetTime minute second
  | .setParams p => orderSetParams p
  | .go => orderGo
  | .loadChannel p => orderLoadChannel p
  | .setChannel p => orderSetChannel p
  | .carrier channel request => orderCarrier channel request
  | .scheduleAdd p => orderScheduleAdd p
  | .scheduleCancel entry => orderScheduleCancel entry
  | .scheduleList start => orderScheduleList start
  | .stepMode request => orderStepMode request
  | .step => orderStep
  | .alertStart duration => orderAlertStart duration
  | .alertEnd => orderAlertEnd
  | .bind p => orderBind p
  | .unbind slot => orderUnbind slot
  | .setState slot state => orderSetState slot state
  | .setTiers slot tiers => orderSetTiers slot tiers
  | .setLimit slot limit => orderSetLimit slot limit
  | .querySub slot => orderQuerySub slot
  | .resync p => orderResync p
  | .loadTap index address segment => orderLoadTap index address segment
  | .queryTap address => orderQueryTap address
  | .loadSegment p => orderLoadSegment p
  | .querySegment segment => orderQuerySegment segment
  | .loadTransponder p => orderLoadTransponder p
  | .queryTransponder address => orderQueryTransponder address
  | .listOutages selection start => orderListOutages selection start
  | .ackOutage outage => orderAckOutage outage
  | .watchSet p => orderWatchSet p
  | .watchClear entry => orderWatchClear entry
  | .releaseHeld place => orderReleaseHeld place
  | .dropHeld place => orderDropHeld place
  | .reclaimWatch => orderReclaimWatch
  | .forceFree segment => orderForceFree segment
  | .eventDefine p => orderEventDefine p
  | .eventRemove event => orderEventRemove event
  | .eventCancel event => orderEventCancel event
  | .purchase slot event => orderPurchase slot event
  | .readBank bank index count => orderReadBank bank index count
  | .releaseBank sequence => orderReleaseBank sequence
  | .lockWrite word value => orderLockWrite word value
  | .storeClear => orderStoreClear
  | .setTariff tier rate => orderSetTariff tier rate
  | .closePeriod => orderClosePeriod

/-- The number of the kind of an order, known or not; 0 for a kind that names none. -/
def matterKind : OrderMatter → Nat
  | .known o => orderKind o
  | .unknown => 0
  | .badLength k => k.toNat

/-- The gate of R184: what refuses an order of a kind in an operating state. STATUS and IDENTITY are kinds 1 and 2,
NOTICE-MASK, ACK-START, RESET and SET-TIME kinds 3 to 6 (R193). -/
def gate (op : OpState) (kind : Nat) : Option StatusCode :=
  if kind = 1 || kind = 2 then none
  else match op with
    | .starting => some .busy
    | .unset => if 3 ≤ kind && kind ≤ 6 then none else some .noTime
    | _ => none

/-- An order is taken (R178): the gate, its kind, the length of its body, then its block. -/
def takeMatter (m : OrderMatter) (s : State) : State :=
  match gate s.link.op (matterKind m) with
  | some c => refuse c s
  | none => match m with
    | .unknown => refuse .badOrder s
    | .badLength _ => refuse .badArg s
    | .known o => handOver o s

/-! ## The input queue (R178, R179) -/

/-- An order may be taken: none is in flight, no reset is awaited, and the reply list has a place for its reply (log 15). -/
def mayTake (s : State) : Bool :=
  s.link.inFlight.isNone && !s.link.resetPending && decide (s.link.replies.length < 8)

/-- An order is taken from the input queue: it is in flight, and is answered or waits on the store; then the plant line
chooses from what it has made available (R71). -/
def takeOrder (t : TaggedOrder) (s : State) : State := kick (takeMatter t.matter { s with link.inFlight := some t })

/-- Orders are taken one at a time from the head of the input queue. The first argument bounds how many. -/
def takeOrders : Nat → State → State
  | 0, s => s
  | n + 1, s =>
    match s.link.waiting, mayTake s with
    | t :: ts, true => takeOrders n (takeOrder t { s with link.waiting := ts })
    | _, _ => s

/-- Orders are taken while one waits that may be taken. -/
def takeWaiting (s : State) : State := takeOrders s.link.waiting.length s

/-- The end of every event but an order's arrival: what it leaves to be chosen on the plant line (R71), and to be taken from
the input queue (R178). -/
def finish (s : State) : State := takeWaiting (kick s)

/-- An order arrives whole (R178, R179): it joins the input queue, or is answered BUSY, or is discarded. -/
def offerOrder (t : TaggedOrder) (s : State) : State :=
  if s.link.waiting.length < 4 then { s with link.waiting := s.link.waiting ++ [t] }
  else if s.link.replies.length < 7 then joinReply t .busy [] s
  else s

/-- The event of an order's arrival (R178). -/
def orderArrives (t : TaggedOrder) (s : State) : State := takeWaiting (offerOrder t s)

end Sys2Proof.Machine
end

