-- ==== Sys2Proof/Machine/LinkEvents.lean ====
section
/-! DEFINITION. The events of the message link (11.1, 11.2): frames received and the end of a frame sent. -/

namespace Sys2Proof.Machine

/-- The bytes from the first start byte on: the hunting receiver discards what stands before it (R177). -/
def hunt (bs : List Byte) : List Byte := bs.dropWhile (fun b => decide (b ≠ 0xC3))

/-- The tagged order of a frame from its start byte (R177, R195): its length within bounds, its bytes all there, its CRC
agreeing; none for a frame that is discarded or aborted (log 33). -/
def frameOrder (bs : List Byte) : Option TaggedOrder :=
  let n := fld bs 1 2
  if n < 2 || 602 < n || bs.length < n + 5 then none
  else if (BitVec.ofNat 16 (fld bs (n + 3) 2)) ≠ crc16 ((bs.drop 1).take (n + 2)) then none
  else some ⟨BitVec.ofNat 8 (fld bs 4 1), readOrder (BitVec.ofNat 8 (fld bs 3 1)) ((bs.drop 5).take (n - 2))⟩

/-- LINK_FRAME_RECEIVED (R177). -/
def execLinkFrameReceived (bytes : List Byte) (s : State) : Result :=
  .next (match frameOrder (hunt bytes) with | none => s | some t => orderArrives t s)

/-- LINK_BAD_LENGTH (R177): the frame is discarded without reply, and the receiver hunts. -/
def execLinkBadLength (_length : Nat) (s : State) : Result := .next { s with link.hunting := true }

/-- LINK_GAP_TIMEOUT (R177): the frame is aborted without reply, and the receiver hunts. -/
def execLinkGapTimeout (s : State) : Result := .next { s with link.hunting := true }

/-- The frame on the line is the reply to an accepted RESET (R189): the reply of kind 0x85 with status OK. -/
def isResetReply : OutFrame → Bool
  | .reply r => r.kind = 0x85 && r.body = u8 (statusNum .ok)
  | .notice .. => false

/-- OUTBOUND_FRAME_SENT (R179, R189): the line sends the next frame, or the reset of cause ORDER arrives. -/
def execOutboundFrameSent (r : ResetInputs) (s : State) : Result :=
  .next (match s.link.outbound with
    | none => s
    | some f =>
      if isResetReply f then resetEvent .order r s else finish (pump { s with link.outbound := none }))

end Sys2Proof.Machine
end

