-- ==== Sys2Proof/Machine/TimeEvents.lean ====
section
/-! DEFINITION. The resets, the end of the recovery scan, and the events of the timebase (11.5, 11.7). -/

namespace Sys2Proof.Machine

/-- POWER_ON (R189). -/
def execPowerOn (r : ResetInputs) (s : State) : Result := .next (resetEvent .powerOn r s)

/-- RESET_LINE (R189). -/
def execResetLine (r : ResetInputs) (s : State) : Result := .next (resetEvent .resetLine r s)

/-- CLOCK_FAULT (R189). -/
def execClockFault (r : ResetInputs) (s : State) : Result := .next (resetEvent .clockFault r s)

/-- RECOVERY_SCAN_END (R155 to R157, R176, R190). -/
def execRecoveryScanEnd (voids : List Byte) (s : State) : Result := .next (finish (recoveryScan voids s))

/-- SECOND_TICK (R183). -/
def execSecondTick (s : State) : Result := .next (finish (tickSecond s))

/-- MINUTE_BOUNDARY (R183). -/
def execMinuteBoundary (s : State) : Result := .next (finish (tickMinute s))

end Sys2Proof.Machine
end

