-- ==== Sys2Proof/Machine/LineEvents.lean ====
section
/-! DEFINITION. The events of the matrix line and its timers, of the ALERT input, and of the plant line (Chapters 1, 2, 4). -/

namespace Sys2Proof.Machine

/-- READY is asserted (R12, R14): the fault ends, or the command in transfer is accepted, or the head command is sent. -/
def readyAssert (s : State) : State :=
  let s := { s with lineup.ready := true, lineup.readyTimer := none }
  if s.lineup.fault then endFault s else if s.lineup.inTransfer then acceptHead s else lineRun s

/-- READY_ASSERT (R12, R14). -/
def execReadyAssert (s : State) : Result := .next (finish (readyAssert s))

/-- READY_FALL (R12, R13): the READY timer starts where commands are queued. -/
def execReadyFall (s : State) : Result := .next (finish (readyTimerRun { s with lineup.ready := false }))

/-- READY_TIMER_EXPIRY (R13). -/
def execReadyTimerExpiry (s : State) : Result :=
  .next (finish (if s.lineup.readyTimer.isSome then raiseFault s else s))

/-- DWELL_TIMER_EXPIRY (R18, R20): the next step of a channel whose ramp dwells, outside FAULT. -/
def execDwellTimerExpiry (channel : Nat) (s : State) : Result :=
  .next (finish (if (rampOf s channel).any (fun r => r.phase = .dwell) && !s.lineup.fault then issueStep channel s else s))

/-- SETTLE_TIMER_EXPIRY (R21). -/
def execSettleTimerExpiry (s : State) : Result :=
  .next (finish (if s.lineup.settleTimer.isSome then { s with lineup.settleOpen := false, lineup.settleTimer := none } else s))

/-- ALERT_ASSERT (R37). -/
def execAlertAssert (s : State) : Result := .next (finish (alertInput true s))

/-- ALERT_DEASSERT (R37). -/
def execAlertDeassert (s : State) : Result := .next (finish (alertInput false s))

/-- PLANT_FRAME_SENT (R64): TURNAROUND begins, for 2 ms. -/
def execPlantFrameSent (s : State) : Result :=
  .next (finish (if s.plant.line = .sending then { s with plant.line := .turnaround, plant.timer := 2 } else s))

/-- The reply window of the transaction in progress (R66). -/
def windowOf (s : State) : Nat := match s.plant.current with | none => 0 | some t => t.window

/-- TURNAROUND_END (R64): the reply window timer starts. -/
def execTurnaroundEnd (s : State) : Result :=
  .next (finish (if s.plant.line = .turnaround then { s with plant.line := .window, plant.timer := windowOf s } else s))

/-- PLANT_REPLY_RECEIVED (R64, R65). -/
def execPlantReplyReceived (chars : List PlantChar) (s : State) : Result := .next (finish (plantReceive chars s))

/-- REPLY_WINDOW_EXPIRY (R64): the transaction ends with NO_REPLY. -/
def execReplyWindowExpiry (s : State) : Result := .next (finish (if s.plant.line = .window then endTx none s else s))

end Sys2Proof.Machine
end

