-- ==== Sys2Proof/Machine/StoreEvents.lean ====
section
/-! DEFINITION. The ends of the billing store's programmings and of a page erase (Chapters 9 and 10). -/

namespace Sys2Proof.Machine

/-- JOURNAL_RECORD_PROGRAMMED (R148). -/
def execJournalRecordProgrammed (p : Programmed) (s : State) : Result := .next (finish (recordProgrammed p s))

/-- HEADER_FIELD_PROGRAMMED (R145). -/
def execHeaderFieldProgrammed (p : Programmed) (s : State) : Result := .next (finish (headerProgrammed p s))

/-- STATEMENT_RECORD_PROGRAMMED (R174). -/
def execStatementRecordProgrammed (p : Programmed) (s : State) : Result := .next (finish (statementProgrammed p s))

/-- IDENTITY_WORD_PROGRAMMED (R161). -/
def execIdentityWordProgrammed (p : Programmed) (s : State) : Result := .next (finish (identityProgrammed p s))

/-- ERASE_PAGE_DONE (R159). -/
def execErasePageDone (bank : BankId) (left : List Host.Cell) (torn : List Byte) (s : State) : Result :=
  .next (finish (erasePage bank left torn s))

end Sys2Proof.Machine
end

