-- ==== Sys2Proof/Machine/ExecOrders.lean ====
section
/-! DEFINITION. The 49 host orders as commands: each arrives whole with its tag and its arguments (R178; log 2). What an order
does when it is taken is its block's operation. -/

namespace Sys2Proof.Machine

/-- STATUS (R191). -/
def execStatus (tag : Byte) (s : State) : Result :=
  .next (orderArrives ⟨tag, .known .status⟩ s)

/-- IDENTITY (R191). -/
def execIdentity (tag : Byte) (s : State) : Result :=
  .next (orderArrives ⟨tag, .known .identity⟩ s)

/-- NOTICE_MASK (R182). -/
def execNoticeMask (tag : Byte) (urgent routine : Nat) (s : State) : Result :=
  .next (orderArrives ⟨tag, .known (.noticeMask urgent routine)⟩ s)

/-- ACK_START (R190). -/
def execAckStart (tag : Byte) (s : State) : Result :=
  .next (orderArrives ⟨tag, .known .ackStart⟩ s)

/-- RESET (R189). -/
def execReset (tag : Byte) (s : State) : Result :=
  .next (orderArrives ⟨tag, .known .reset⟩ s)

/-- SET_TIME (R185). -/
def execSetTime (tag : Byte) (minute second : Nat) (s : State) : Result :=
  .next (orderArrives ⟨tag, .known (.setTime minute second)⟩ s)

/-- SET_PARAMS (R186). -/
def execSetParams (tag : Byte) (p : ParamArgs) (s : State) : Result :=
  .next (orderArrives ⟨tag, .known (.setParams p)⟩ s)

/-- GO (R187, R188). -/
def execGo (tag : Byte) (s : State) : Result :=
  .next (orderArrives ⟨tag, .known .go⟩ s)

/-- LOAD_CHANNEL (R6). -/
def execLoadChannel (tag : Byte) (p : LoadChannelArgs) (s : State) : Result :=
  .next (orderArrives ⟨tag, .known (.loadChannel p)⟩ s)

/-- SET_CHANNEL (R7). -/
def execSetChannel (tag : Byte) (p : SetChannelArgs) (s : State) : Result :=
  .next (orderArrives ⟨tag, .known (.setChannel p)⟩ s)

/-- CARRIER (R9). -/
def execCarrier (tag : Byte) (channel request : Nat) (s : State) : Result :=
  .next (orderArrives ⟨tag, .known (.carrier channel request)⟩ s)

/-- SCHEDULE_ADD (R23). -/
def execScheduleAdd (tag : Byte) (p : ScheduleArgs) (s : State) : Result :=
  .next (orderArrives ⟨tag, .known (.scheduleAdd p)⟩ s)

/-- SCHEDULE_CANCEL (R32). -/
def execScheduleCancel (tag : Byte) (entry : Nat) (s : State) : Result :=
  .next (orderArrives ⟨tag, .known (.scheduleCancel entry)⟩ s)

/-- SCHEDULE_LIST (R33). -/
def execScheduleList (tag : Byte) (start : Nat) (s : State) : Result :=
  .next (orderArrives ⟨tag, .known (.scheduleList start)⟩ s)

/-- STEP_MODE (R30). -/
def execStepMode (tag : Byte) (request : Nat) (s : State) : Result :=
  .next (orderArrives ⟨tag, .known (.stepMode request)⟩ s)

/-- STEP (R31). -/
def execStep (tag : Byte) (s : State) : Result :=
  .next (orderArrives ⟨tag, .known .step⟩ s)

/-- ALERT_START (R35). -/
def execAlertStart (tag : Byte) (duration : Nat) (s : State) : Result :=
  .next (orderArrives ⟨tag, .known (.alertStart duration)⟩ s)

/-- ALERT_END (R35). -/
def execAlertEnd (tag : Byte) (s : State) : Result :=
  .next (orderArrives ⟨tag, .known .alertEnd⟩ s)

/-- BIND (R45). -/
def execBind (tag : Byte) (p : BindArgs) (s : State) : Result :=
  .next (orderArrives ⟨tag, .known (.bind p)⟩ s)

/-- UNBIND (R46). -/
def execUnbind (tag : Byte) (slot : Nat) (s : State) : Result :=
  .next (orderArrives ⟨tag, .known (.unbind slot)⟩ s)

/-- SET_STATE (R47). -/
def execSetState (tag : Byte) (slot state : Nat) (s : State) : Result :=
  .next (orderArrives ⟨tag, .known (.setState slot state)⟩ s)

/-- SET_TIERS (R47). -/
def execSetTiers (tag : Byte) (slot : Nat) (tiers : TierSet) (s : State) : Result :=
  .next (orderArrives ⟨tag, .known (.setTiers slot tiers)⟩ s)

/-- SET_LIMIT (R48). -/
def execSetLimit (tag : Byte) (slot limit : Nat) (s : State) : Result :=
  .next (orderArrives ⟨tag, .known (.setLimit slot limit)⟩ s)

/-- QUERY_SUB (R49). -/
def execQuerySub (tag : Byte) (slot : Nat) (s : State) : Result :=
  .next (orderArrives ⟨tag, .known (.querySub slot)⟩ s)

/-- RESYNC (R61). -/
def execResync (tag : Byte) (p : ResyncArgs) (s : State) : Result :=
  .next (orderArrives ⟨tag, .known (.resync p)⟩ s)

/-- LOAD_TAP (R68). -/
def execLoadTap (tag : Byte) (index address segment : Nat) (s : State) : Result :=
  .next (orderArrives ⟨tag, .known (.loadTap index address segment)⟩ s)

/-- QUERY_TAP (R69). -/
def execQueryTap (tag : Byte) (address : Nat) (s : State) : Result :=
  .next (orderArrives ⟨tag, .known (.queryTap address)⟩ s)

/-- LOAD_SEGMENT (R95, R96). -/
def execLoadSegment (tag : Byte) (p : SegmentArgs) (s : State) : Result :=
  .next (orderArrives ⟨tag, .known (.loadSegment p)⟩ s)

/-- QUERY_SEGMENT (R97). -/
def execQuerySegment (tag : Byte) (segment : Nat) (s : State) : Result :=
  .next (orderArrives ⟨tag, .known (.querySegment segment)⟩ s)

/-- LOAD_TRANSPONDER (R85, R86). -/
def execLoadTransponder (tag : Byte) (p : TransponderArgs) (s : State) : Result :=
  .next (orderArrives ⟨tag, .known (.loadTransponder p)⟩ s)

/-- QUERY_TRANSPONDER (R87). -/
def execQueryTransponder (tag : Byte) (address : Nat) (s : State) : Result :=
  .next (orderArrives ⟨tag, .known (.queryTransponder address)⟩ s)

/-- LIST_OUTAGES (R109). -/
def execListOutages (tag : Byte) (selection start : Nat) (s : State) : Result :=
  .next (orderArrives ⟨tag, .known (.listOutages selection start)⟩ s)

/-- ACK_OUTAGE (R108). -/
def execAckOutage (tag : Byte) (outage : Nat) (s : State) : Result :=
  .next (orderArrives ⟨tag, .known (.ackOutage outage)⟩ s)

/-- WATCH_SET (R111). -/
def execWatchSet (tag : Byte) (p : WatchArgs) (s : State) : Result :=
  .next (orderArrives ⟨tag, .known (.watchSet p)⟩ s)

/-- WATCH_CLEAR (R112). -/
def execWatchClear (tag : Byte) (entry : Nat) (s : State) : Result :=
  .next (orderArrives ⟨tag, .known (.watchClear entry)⟩ s)

/-- RELEASE_HELD (R118). -/
def execReleaseHeld (tag : Byte) (place : Nat) (s : State) : Result :=
  .next (orderArrives ⟨tag, .known (.releaseHeld place)⟩ s)

/-- DROP_HELD (R119). -/
def execDropHeld (tag : Byte) (place : Nat) (s : State) : Result :=
  .next (orderArrives ⟨tag, .known (.dropHeld place)⟩ s)

/-- RECLAIM_WATCH (R120). -/
def execReclaimWatch (tag : Byte) (s : State) : Result :=
  .next (orderArrives ⟨tag, .known .reclaimWatch⟩ s)

/-- FORCE_FREE (R125). -/
def execForceFree (tag : Byte) (segment : Nat) (s : State) : Result :=
  .next (orderArrives ⟨tag, .known (.forceFree segment)⟩ s)

/-- EVENT_DEFINE (R134, R135). -/
def execEventDefine (tag : Byte) (p : EventArgs) (s : State) : Result :=
  .next (orderArrives ⟨tag, .known (.eventDefine p)⟩ s)

/-- EVENT_REMOVE (R142). -/
def execEventRemove (tag : Byte) (event : Nat) (s : State) : Result :=
  .next (orderArrives ⟨tag, .known (.eventRemove event)⟩ s)

/-- EVENT_CANCEL (R141). -/
def execEventCancel (tag : Byte) (event : Nat) (s : State) : Result :=
  .next (orderArrives ⟨tag, .known (.eventCancel event)⟩ s)

/-- PURCHASE (R138, R139). -/
def execPurchase (tag : Byte) (slot event : Nat) (s : State) : Result :=
  .next (orderArrives ⟨tag, .known (.purchase slot event)⟩ s)

/-- READ_BANK (R158). -/
def execReadBank (tag : Byte) (bank index count : Nat) (s : State) : Result :=
  .next (orderArrives ⟨tag, .known (.readBank bank index count)⟩ s)

/-- RELEASE_BANK (R159). -/
def execReleaseBank (tag : Byte) (sequence : Nat) (s : State) : Result :=
  .next (orderArrives ⟨tag, .known (.releaseBank sequence)⟩ s)

/-- LOCK_WRITE (R162). -/
def execLockWrite (tag : Byte) (word : Nat) (value : Nat) (s : State) : Result :=
  .next (orderArrives ⟨tag, .known (.lockWrite word value)⟩ s)

/-- STORE_CLEAR (R160). -/
def execStoreClear (tag : Byte) (s : State) : Result :=
  .next (orderArrives ⟨tag, .known .storeClear⟩ s)

/-- SET_TARIFF (R164). -/
def execSetTariff (tag : Byte) (tier rate : Nat) (s : State) : Result :=
  .next (orderArrives ⟨tag, .known (.setTariff tier rate)⟩ s)

/-- CLOSE_PERIOD (R165). -/
def execClosePeriod (tag : Byte) (s : State) : Result :=
  .next (orderArrives ⟨tag, .known .closePeriod⟩ s)

end Sys2Proof.Machine
end

