-- ==== Sys2Proof/Machine/ExecCraft.lean ====
section
/-! DEFINITION. The events of the craft port (R121, R122), and its 16 commands, each as the whole line typed and ended (log 3). -/

namespace Sys2Proof.Machine

/-- CRAFT_CHAR (R121). The bytes of a backspace and of a carriage return act as their own events do; the carriage return finds
the SERVICE input at a level that it does not bring along (log 6). -/
def execCraftChar (byte : Byte) (s : State) : Result :=
  .next (finish (
    if byte = 0x08 || byte = 0x7F then craftErase s
    else if byte = 0x0D then (let s := readService s; craftEnd s.craft.service s)
    else craftKeep byte s))

/-- CRAFT_BACKSPACE (R121). -/
def execCraftBackspace (s : State) : Result := .next (finish (craftErase s))

/-- CRAFT_LINE_END (R121), with the level of the SERVICE input that an IDENT reads (R131). -/
def execCraftLineEnd (service : Bool) (s : State) : Result := .next (finish (craftEnd service s))

/-- CRAFT_LINE_SENT (R122). -/
def execCraftLineSent (s : State) : Result := .next (finish (lineSent s))

/-- HOLD (R123). -/
def execHold (segment : Nat) (s : State) : Result := .next (finish (craftHold segment s))

/-- FREE (R124). -/
def execFree (segment : Nat) (s : State) : Result := .next (finish (craftFree segment s))

/-- SHOW_SEG (R126). -/
def execShowSeg (segment : Nat) (s : State) : Result := .next (finish (craftShowSeg segment s))

/-- SHOW_XP (R126). -/
def execShowXp (address : Nat) (s : State) : Result := .next (finish (craftShowXp address s))

/-- SHOW_TAP (R126). -/
def execShowTap (address : Nat) (s : State) : Result := .next (finish (craftShowTap address s))

/-- POLL (R127). -/
def execPoll (address : Nat) (s : State) : Result := .next (finish (craftPoll address s))

/-- TEST (R127). -/
def execTest (address port : Nat) (on : Bool) (s : State) : Result := .next (finish (craftTest address port on s))

/-- TAKE (R128). -/
def execTake (s : State) : Result := .next (finish (craftTake s))

/-- GIVE (R128). -/
def execGive (s : State) : Result := .next (finish (craftGive s))

/-- WATCH (R129). -/
def execWatch (s : State) : Result := .next (finish (craftWatch s))

/-- WATCH_N_EVENT (R129). -/
def execWatchNEvent (entry address span kinds : Nat) (urgent once : Bool) (s : State) : Result := .next (finish (craftWatchEvent entry address span kinds urgent once s))

/-- WATCH_N_GUARD (R129). -/
def execWatchNGuard (entry address span : Nat) (urgent once : Bool) (s : State) : Result := .next (finish (craftWatchGuard entry address span urgent once s))

/-- WATCH_N_OFF (R129). -/
def execWatchNOff (entry : Nat) (s : State) : Result := .next (finish (craftWatchOff entry s))

/-- RELEASE (R129). -/
def execRelease (place : Nat) (s : State) : Result := .next (finish (craftRelease place s))

/-- DROP (R129). -/
def execDrop (place : Nat) (s : State) : Result := .next (finish (craftDrop place s))

/-- IDENT (R131). -/
def execIdent (id : Nat) (service : Bool) (s : State) : Result := .next (finish (craftIdent id service { s with craft.service := service }))

end Sys2Proof.Machine
end

