-- ==== Sys2Proof/Machine/Dispatch.lean ====
section
/-! DEFINITION. The effect of each command of spec/opcode_table.json on everything but the queue: one arm for each
constructor of Instr, each one direct call of its meaning. -/

namespace Sys2Proof.Machine

/-- The effect of a command. -/
def exec (i : Instr) (s : State) : Host.Outcome State Fault Refusal :=
  match i with
  | .status tag => Sys2Proof.Machine.execStatus tag s
  | .identity tag => Sys2Proof.Machine.execIdentity tag s
  | .noticeMask tag urgent routine => Sys2Proof.Machine.execNoticeMask tag urgent routine s
  | .ackStart tag => Sys2Proof.Machine.execAckStart tag s
  | .reset tag => Sys2Proof.Machine.execReset tag s
  | .setTime tag minute second => Sys2Proof.Machine.execSetTime tag minute second s
  | .setParams tag p => Sys2Proof.Machine.execSetParams tag p s
  | .go tag => Sys2Proof.Machine.execGo tag s
  | .loadChannel tag p => Sys2Proof.Machine.execLoadChannel tag p s
  | .setChannel tag p => Sys2Proof.Machine.execSetChannel tag p s
  | .carrier tag channel request => Sys2Proof.Machine.execCarrier tag channel request s
  | .scheduleAdd tag p => Sys2Proof.Machine.execScheduleAdd tag p s
  | .scheduleCancel tag entry => Sys2Proof.Machine.execScheduleCancel tag entry s
  | .scheduleList tag start => Sys2Proof.Machine.execScheduleList tag start s
  | .stepMode tag request => Sys2Proof.Machine.execStepMode tag request s
  | .step tag => Sys2Proof.Machine.execStep tag s
  | .alertStart tag duration => Sys2Proof.Machine.execAlertStart tag duration s
  | .alertEnd tag => Sys2Proof.Machine.execAlertEnd tag s
  | .bind tag p => Sys2Proof.Machine.execBind tag p s
  | .unbind tag slot => Sys2Proof.Machine.execUnbind tag slot s
  | .setState tag slot state => Sys2Proof.Machine.execSetState tag slot state s
  | .setTiers tag slot tiers => Sys2Proof.Machine.execSetTiers tag slot tiers s
  | .setLimit tag slot limit => Sys2Proof.Machine.execSetLimit tag slot limit s
  | .querySub tag slot => Sys2Proof.Machine.execQuerySub tag slot s
  | .resync tag p => Sys2Proof.Machine.execResync tag p s
  | .loadTap tag index address segment => Sys2Proof.Machine.execLoadTap tag index address segment s
  | .queryTap tag address => Sys2Proof.Machine.execQueryTap tag address s
  | .loadSegment tag p => Sys2Proof.Machine.execLoadSegment tag p s
  | .querySegment tag segment => Sys2Proof.Machine.execQuerySegment tag segment s
  | .loadTransponder tag p => Sys2Proof.Machine.execLoadTransponder tag p s
  | .queryTransponder tag address => Sys2Proof.Machine.execQueryTransponder tag address s
  | .listOutages tag selection start => Sys2Proof.Machine.execListOutages tag selection start s
  | .ackOutage tag outage => Sys2Proof.Machine.execAckOutage tag outage s
  | .watchSet tag p => Sys2Proof.Machine.execWatchSet tag p s
  | .watchClear tag entry => Sys2Proof.Machine.execWatchClear tag entry s
  | .releaseHeld tag place => Sys2Proof.Machine.execReleaseHeld tag place s
  | .dropHeld tag place => Sys2Proof.Machine.execDropHeld tag place s
  | .reclaimWatch tag => Sys2Proof.Machine.execReclaimWatch tag s
  | .forceFree tag segment => Sys2Proof.Machine.execForceFree tag segment s
  | .eventDefine tag p => Sys2Proof.Machine.execEventDefine tag p s
  | .eventRemove tag event => Sys2Proof.Machine.execEventRemove tag event s
  | .eventCancel tag event => Sys2Proof.Machine.execEventCancel tag event s
  | .purchase tag slot event => Sys2Proof.Machine.execPurchase tag slot event s
  | .readBank tag bank index count => Sys2Proof.Machine.execReadBank tag bank index count s
  | .releaseBank tag sequence => Sys2Proof.Machine.execReleaseBank tag sequence s
  | .lockWrite tag word value => Sys2Proof.Machine.execLockWrite tag word value s
  | .storeClear tag => Sys2Proof.Machine.execStoreClear tag s
  | .setTariff tag tier rate => Sys2Proof.Machine.execSetTariff tag tier rate s
  | .closePeriod tag => Sys2Proof.Machine.execClosePeriod tag s
  | .linkFrameReceived bytes => Sys2Proof.Machine.execLinkFrameReceived bytes s
  | .linkBadLength length => Sys2Proof.Machine.execLinkBadLength length s
  | .linkGapTimeout => Sys2Proof.Machine.execLinkGapTimeout s
  | .outboundFrameSent r => Sys2Proof.Machine.execOutboundFrameSent r s
  | .powerOn r => Sys2Proof.Machine.execPowerOn r s
  | .resetLine r => Sys2Proof.Machine.execResetLine r s
  | .clockFault r => Sys2Proof.Machine.execClockFault r s
  | .recoveryScanEnd voids => Sys2Proof.Machine.execRecoveryScanEnd voids s
  | .secondTick => Sys2Proof.Machine.execSecondTick s
  | .minuteBoundary => Sys2Proof.Machine.execMinuteBoundary s
  | .readyAssert => Sys2Proof.Machine.execReadyAssert s
  | .readyFall => Sys2Proof.Machine.execReadyFall s
  | .readyTimerExpiry => Sys2Proof.Machine.execReadyTimerExpiry s
  | .dwellTimerExpiry channel => Sys2Proof.Machine.execDwellTimerExpiry channel s
  | .settleTimerExpiry => Sys2Proof.Machine.execSettleTimerExpiry s
  | .alertAssert => Sys2Proof.Machine.execAlertAssert s
  | .alertDeassert => Sys2Proof.Machine.execAlertDeassert s
  | .plantFrameSent => Sys2Proof.Machine.execPlantFrameSent s
  | .turnaroundEnd => Sys2Proof.Machine.execTurnaroundEnd s
  | .plantReplyReceived chars => Sys2Proof.Machine.execPlantReplyReceived chars s
  | .replyWindowExpiry => Sys2Proof.Machine.execReplyWindowExpiry s
  | .journalRecordProgrammed p => Sys2Proof.Machine.execJournalRecordProgrammed p s
  | .headerFieldProgrammed p => Sys2Proof.Machine.execHeaderFieldProgrammed p s
  | .statementRecordProgrammed p => Sys2Proof.Machine.execStatementRecordProgrammed p s
  | .identityWordProgrammed p => Sys2Proof.Machine.execIdentityWordProgrammed p s
  | .erasePageDone bank left torn => Sys2Proof.Machine.execErasePageDone bank left torn s
  | .craftChar byte => Sys2Proof.Machine.execCraftChar byte s
  | .craftBackspace => Sys2Proof.Machine.execCraftBackspace s
  | .craftLineEnd service => Sys2Proof.Machine.execCraftLineEnd service s
  | .craftLineSent => Sys2Proof.Machine.execCraftLineSent s
  | .hold segment => Sys2Proof.Machine.execHold segment s
  | .free segment => Sys2Proof.Machine.execFree segment s
  | .showSeg segment => Sys2Proof.Machine.execShowSeg segment s
  | .showXp address => Sys2Proof.Machine.execShowXp address s
  | .showTap address => Sys2Proof.Machine.execShowTap address s
  | .poll address => Sys2Proof.Machine.execPoll address s
  | .test address port on => Sys2Proof.Machine.execTest address port on s
  | .take => Sys2Proof.Machine.execTake s
  | .give => Sys2Proof.Machine.execGive s
  | .watch => Sys2Proof.Machine.execWatch s
  | .watchNEvent entry address span kinds urgent once => Sys2Proof.Machine.execWatchNEvent entry address span kinds urgent once s
  | .watchNGuard entry address span urgent once => Sys2Proof.Machine.execWatchNGuard entry address span urgent once s
  | .watchNOff entry => Sys2Proof.Machine.execWatchNOff entry s
  | .release place => Sys2Proof.Machine.execRelease place s
  | .drop place => Sys2Proof.Machine.execDrop place s
  | .ident id service => Sys2Proof.Machine.execIdent id service s

end Sys2Proof.Machine
end

