-- ==== Sys2Proof/Safety.lean ====
section
/-! DEFINITION. What claims about the controller speak of: the sound states, whose queues and sets keep the bounds and forms the
rules give them; the quiet link, at which an order is taken in the event of its arrival; and the replies on their way. -/

namespace Sys2Proof.Safety

open Sys2Proof.Machine

/-! ## Sound states -/

/-- The bounds of the link: 4 orders waiting (R178), 8 replies with a place kept for the order in flight (R179), 32 notices
(R181). -/
def linkBounds (l : Link) : Prop :=
  l.waiting.length ≤ 4 ∧ l.replies.length ≤ 8 ∧ (l.inFlight.isSome = true → l.replies.length ≤ 7)
    ∧ l.urgent.length + l.routine.length ≤ 32

/-- The second lies within the minute (R183). -/
def secondRange (t : Timebase) : Prop := ∀ c, t.clock = some c → c.2 ≤ 59

/-- The parameters lie within their ranges (R186). -/
def paramRanges (q : Params) : Prop :=
  (100 ≤ q.rampStep ∧ q.rampStep ≤ 2000) ∧ (20 ≤ q.replyWindow ∧ q.replyWindow ≤ 200)
    ∧ (1 ≤ q.pollShare ∧ q.pollShare ≤ 7) ∧ (1 ≤ q.missLimit ∧ q.missLimit ≤ 15) ∧ q.batteryWarn ≤ 255
    ∧ q.creditThreshold ≤ 1440

/-- Every channel's effective class is the one its overlay and base class give (R2), and the tier table is the one the
channel map gives (R4). -/
def classesDerived (l : Lineup) : Prop := (∀ c ∈ l.map, c.eff = effOf c) ∧ l.table = tierTableOf l.map

/-- Every channel's displayed route is the one its base source, its eligible flag and the alert state give (R3). -/
def routesDerived (active : Bool) (l : Lineup) : Prop := ∀ c ∈ l.map, c.route = routeOf active c

/-- The bounds of the line-up engine: 96 channels (R1), 256 matrix commands (R10), two ramps (R17). -/
def lineupBounds (l : Lineup) : Prop := l.map.length = 96 ∧ l.queue.length ≤ 256 ∧ l.ramps.length ≤ 2

/-- The bounds of the craft port: 16 lines waiting, a lost count of at most 255 (R122), 80 characters (R121). -/
def craftBounds (c : Craft) : Prop := c.print.length ≤ 16 ∧ c.lost ≤ 255 ∧ c.buffer.length ≤ 80

/-- A state whose queues, sets and tables keep the bounds and forms that the rules give them, with the mark of the changed
channels as given: within an event it may be set. -/
structure SoundAt (changed : Bool) (s : State) : Prop where
  link     : linkBounds s.link
  second   : secondRange s.time
  params   : paramRanges s.params
  lineup   : lineupBounds s.lineup
  classes  : classesDerived s.lineup
  routes   : routesDerived s.schedule.active s.lineup
  schedule : s.schedule.entries.length ≤ 128
  watches  : s.outage.watches.length = 8
  held     : s.outage.held.length = 16
  craft    : craftBounds s.craft
  events   : s.events.length = 16
  tariff   : s.engine.tariff.length = 16
  memory   : memoryWf s = true
  handed   : s.lineup.changed = changed

/-- A sound state between events: the bounds and forms hold, and every changed channel has been handed on (R5). -/
abbrev Sound (s : State) : Prop := SoundAt false s

/-! ## The quiet link -/

/-- A link at which an order is taken in the event of its arrival (R178): no order in flight or waiting, no reset awaited, and
a place for its reply. -/
structure Quiet (s : State) : Prop where
  inFlight : s.link.inFlight = none
  waiting  : s.link.waiting = []
  noReset  : s.link.resetPending = false
  room     : s.link.replies.length < 8

/-- An order with its tag. -/
def tagged (tag : Byte) (o : Order) : TaggedOrder := ⟨tag, .known o⟩

/-- The state in which the block that owns an order takes it: the order is in flight. -/
def taken (tag : Byte) (o : Order) (s : State) : State := { s with link.inFlight := some (tagged tag o) }

/-- The reply to an order: its kind plus 0x80, its tag, the status byte and the matter (R193). -/
def replyTo (tag : Byte) (o : Order) (code : StatusCode) (body : List Byte) : Reply :=
  ⟨BitVec.ofNat 8 (orderKind o + 128), tag, u8 (statusNum code) ++ body⟩

/-- A reply is on its way: it is on the outbound line or in the reply list (R179). -/
def Replying (s : State) (r : Reply) : Prop := s.link.outbound = some (.reply r) ∨ r ∈ s.link.replies

/-- From s, a command that carries the order o with its tag is answered in its event: the next state is s' but for the reply,
which has joined the reply list (R179), and the choice of work on the plant line that ends every event (R71). A notice that s'
has queued stands before the reply where the outbound line is free (the model's choice, log 52). -/
def Answers (i : Instr) (s s' : State) (tag : Byte) (o : Order) (code : StatusCode) (body : List Byte) : Prop :=
  exec i s = .next (kick (joinReply (tagged tag o) code body s'))

/-- From s, a command that carries the order o with its tag leaves it in flight, to be answered later: the next state is s'
with the order in flight, but for the choice of work that ends every event. -/
def Awaits (i : Instr) (s s' : State) (tag : Byte) (o : Order) : Prop :=
  exec i s = .next (kick { s' with link.inFlight := some (tagged tag o) })

/-- The words of a line spell a craft command, with the level that the SERVICE input has as the line ends (R121, 7.2). -/
def Spells (service : Bool) (typed : List Text) (i : Instr) : Prop :=
  match i with
  | .take => typed = [word "TAKE"]
  | .give => typed = [word "GIVE"]
  | .watch => typed = [word "WATCH"]
  | .hold n => ∃ w, number w = some n ∧ typed = [word "HOLD", w]
  | .free n => ∃ w, number w = some n ∧ typed = [word "FREE", w]
  | .poll n => ∃ w, number w = some n ∧ typed = [word "POLL", w]
  | .release n => ∃ w, number w = some n ∧ typed = [word "RELEASE", w]
  | .drop n => ∃ w, number w = some n ∧ typed = [word "DROP", w]
  | .ident n x => x = service ∧ ∃ w, number w = some n ∧ typed = [word "IDENT", w]
  | .showSeg n => ∃ w, number w = some n ∧ typed = [word "SHOW", word "SEG", w]
  | .showXp n => ∃ w, number w = some n ∧ typed = [word "SHOW", word "XP", w]
  | .showTap n => ∃ w, number w = some n ∧ typed = [word "SHOW", word "TAP", w]
  | .watchNOff n => ∃ w, number w = some n ∧ typed = [word "WATCH", w, word "OFF"]
  | .test a p on => ∃ v w, number v = some a ∧ number w = some p
    ∧ typed = [word "TEST", v, w, if on then word "ON" else word "OFF"]
  | .watchNGuard n a span urgent once => ∃ u v w, number u = some n ∧ number v = some a ∧ number w = some span
    ∧ typed = [word "WATCH", u, word "GUARD", v, w, if urgent then word "U" else word "R",
      if once then word "ONCE" else word "MANY"]
  | .watchNEvent n a span kinds urgent once => ∃ u v w k, number u = some n ∧ number v = some a ∧ number w = some span
    ∧ kindSet k = some kinds ∧ typed = [word "WATCH", u, word "EVENT", v, w, k, if urgent then word "U" else word "R",
      if once then word "ONCE" else word "MANY"]
  | _ => False

/-- The controller is in LOADING or RUN. -/
def Working (s : State) : Prop := s.link.op = .loading ∨ s.link.op = .run

/-! ## What the choice of work on the plant line may change -/

/-- What is fixed of a port record while the plant line chooses its work: everything but its sync state, its pending class and
its in-flight content. -/
def portFixed (r : Port) : Content × Option Content × Nat × PClass × Option Nat :=
  (r.desired, r.confirmed, r.attempts, r.unpark, r.slot)

/-- What is fixed of a tap: the record itself, and what is fixed of each of its ports. -/
def tapFixed (t : Tap) : Nat × Nat × Option Nat × Bool × List (Content × Option Content × Nat × PClass × Option Nat) :=
  (t.address, t.segment, t.unreachable, t.tamper, t.ports.map portFixed)

/-- What the choice of work keeps of the link: everything but the notices that report a guard hit, for which a full queue gives
up its oldest routine notices and a free outbound line is taken (R115, R181). -/
structure LinkKept (s t : Link) : Prop where
  op        : t.op = s.op
  speed     : t.speed = s.speed
  hunting   : t.hunting = s.hunting
  waiting   : t.waiting = s.waiting
  inFlight  : t.inFlight = s.inFlight
  noReset   : t.resetPending = s.resetPending
  urgentOn  : t.urgentOn = s.urgentOn
  routineOn : t.routineOn = s.routineOn
  outbound  : ∀ f, s.outbound = some f → t.outbound = some f ∧ t.replies = s.replies
  replies   : ∀ r, (s.outbound = some (.reply r) ∨ r ∈ s.replies) → (t.outbound = some (.reply r) ∨ r ∈ t.replies)
  urgent    : ∀ n ∈ t.urgent, n ∈ s.urgent ∨ n.kind = nkGuardHit
  routine   : ∀ n ∈ t.routine, n ∈ s.routine ∨ n.kind = nkGuardHit

/-- What the choice of work keeps of the outage log and the watch unit: everything but the hit counts and the enables of the
guard watches and the empty places of the held list (R115). -/
structure WatchesKept (s t : OutageLog) : Prop where
  records : t.records = s.records
  nextId  : t.nextId = s.nextId
  owner   : t.owner = s.owner
  watches : t.watches.map (·.watch) = s.watches.map (·.watch)
  places  : t.held.length = s.held.length
  held    : ∀ (n : Nat) (h : Held), s.held[n]? = some (some h) → t.held[n]? = some (some h)

/-- What the choice of work keeps of the craft port: everything but the lines that report a guard hit or a craft request that
cannot start, which join the print queue or are counted lost (R115, R122, R127). -/
structure CraftKept (s t : Craft) : Prop where
  holds   : t.holds = s.holds
  buffer  : t.buffer = s.buffer
  long    : t.long = s.long
  rest    : t.rest = s.rest
  ident   : t.ident = s.ident
  service : t.service = s.service
  output  : t.output = s.output
  print   : s.print <+: t.print
  lost    : min 255 s.lost ≤ t.lost

/-- The choice of work on the plant line (R71) leaves everything as it was but the plant line and the ports it starts or
holds, the hit counts and the held list of the guard watches (R115), and the notices and lines that report a hit. No port joins
a queue, and what stays queued keeps its order. -/
structure OnlyChoice (s t : State) : Prop where
  time      : t.time = s.time
  params    : t.params = s.params
  lineup    : t.lineup = s.lineup
  schedule  : t.schedule = s.schedule
  subs      : t.subs = s.subs
  telemetry : t.telemetry = s.telemetry
  events    : t.events = s.events
  store     : t.store = s.store
  engine    : t.engine = s.engine
  pending   : t.pending = s.pending
  freeCount : t.freeCount = s.freeCount
  link      : LinkKept s.link t.link
  outage    : WatchesKept s.outage t.outage
  craft     : CraftKept s.craft t.craft
  taps      : t.plant.taps.map (fun x => (x.1, tapFixed x.2)) = s.plant.taps.map (fun x => (x.1, tapFixed x.2))
  urgent    : t.plant.urgent.Sublist s.plant.urgent
  refresh   : t.plant.refresh.Sublist s.plant.refresh

end Sys2Proof.Safety
end

