-- ==== Sys2Proof/Certificates/Slice0/Obligations.lean ====
section
/-! DEFINITION. The statements about the controller that are given to the provers. -/

open Sys2Proof Sys2Proof.Machine Sys2Proof.Safety

/-! ## Steps, the invariant, the choice of work -/

/-- Whatever command stands at the front of the queue, a step takes it and runs it on the rest. -/
def Obligations.StepRunsFrontCommand : Prop :=
  ∀ (c : Instr) (cs : List Instr) (s : State), step { s with pending := c :: cs } = exec c { s with pending := cs }

/-- With no command waiting a step is one millisecond: the timers that run go down by one, the dwell of a ramp only outside
FAULT, and nothing else changes (the model's choice, log 1). -/
def Obligations.IdleStepCountsTimersDown : Prop :=
  ∀ s : State, s.pending = [] → step s = .next { s with
    lineup.readyTimer := s.lineup.readyTimer.map (· - 1)
    lineup.settleTimer := s.lineup.settleTimer.map (· - 1)
    lineup.ramps := s.lineup.ramps.map
      (fun r => if r.phase = .dwell ∧ s.lineup.fault = false then { r with left := r.left - 1 } else r)
    plant.timer := s.plant.timer - 1 }

/-- The state after a reset keeps every bound, derived field and form of `Sound`. -/
def Obligations.ResetStateSound : Prop := Sound State.reset

/-- Every step keeps every bound, derived field and form of `Sound`. -/
def Obligations.StepKeepsSound : Prop := ∀ s t : State, Sound s → step s = .next t → Sound t

/-- The choice of work that ends every event (R71). It keeps everything but what it starts or holds: a port it takes becomes
SENT with its desired content in flight, or HELD, and every other port stands as it was; with no GUARD entry enabled no watch,
held command or notice changes. A poll slot goes to the next due poll: the probe if one is due, to the UNREACHABLE tap above
the probe cursor, else the enabled transponder above the poll cursor, whose cycle's completion makes a probe due; a command
slot to the first entry of the URGENT and then the REFRESH queue that can start, and each to the other where it finds nothing
(R70 to R75, R78). A guarded port command goes to the held list with a GUARD hit, or waits in its place while the list is full
(R77, R115); a craft request is started, or given up with its error (R83, R127). With a cursor above every enabled record the
cycle is complete (the model's choice, log 29). The share of a round is the POLL_SHARE that stands as position 0's transaction
starts (the model's choice, log 78), and the line GUARD carries neither the tap index nor the minute (the model's choice, log
83). What follows the outcomes of probes and craft requests: a tap's tamper flag is taken, an UNREACHABLE tap restored with
TAP_RESTORED (R81, R82), a tested port judged (R83), the outcome printed (R127; its text is the model's choice, log 50). The
outcome of a craft TEST is taken whether or not the segment's hold still stands (log 41, DEDUCED), its HIT lines before its own
line (log 54), with a yes or no printed as 1 or 0 (log 12). -/
def Obligations.ChoiceOfPlantWork : Prop :=
  (∀ s : State,
    (let guards (e : WatchEntry) : Bool := e.enabled && e.watch.any (·.guard)
    let t := kick s
    OnlyChoice s t
    ∧ (s.link.op ≠ .run ∨ s.plant.line ≠ .idle → t = s)
    ∧ (∀ q r', portOf t q = some r' → ∃ r, portOf s q = some r ∧ (r' = r ∨ r' = { r with sync := .held, cls := none }
      ∨ (r' = { r with sync := .sent, inFlight := some r.desired, cls := none }
        ∧ ∃ x, t.plant.current = some x ∧ x.purpose = .portCommand ∧ (x.index, x.port) = q ∧ x.content = r.desired)))
    ∧ (∀ (n : Nat) (e : WatchEntry), s.outage.watches[n]? = some e → guards e = false →
      t.outage.watches[n]? = some e)
    ∧ ((∀ e ∈ s.outage.watches, guards e = false) → t.outage = s.outage ∧ t.link = s.link
      ∧ ((∀ r, .craft r ∉ s.plant.urgent) → t.craft = s.craft))
    ∧ ((t.plant.line = s.plant.line ∧ t.plant.current = s.plant.current ∧ t.plant.timer = s.plant.timer
        ∧ t.plant.position = s.plant.position ∧ t.plant.roundShare = s.plant.roundShare ∧ t.plant.probeCur = s.plant.probeCur)
      ∨ ∃ x, t.plant.current = some x ∧ x.position = s.plant.position ∧ x.window = s.params.replyWindow ∧ x.failed = false
        ∧ x.buffer = [] ∧ t.plant.line = .sending ∧ t.plant.timer = 0 ∧ t.plant.position = (s.plant.position + 1) % 8)))
  ∧ (∀ s v : State, s.link.op = .run → s.plant.line = .idle →
    (let p := s.plant
    let xps := (s.telemetry.transponders.filter (fun x => x.2.enabled)).map (·.1)
    let lost := (p.taps.filter (fun x => x.2.unreachable.isSome)).map (·.1)
    let next (l : List Nat) (c : Option Nat) : Option Nat :=
      match c with | none => l.head? | some j => l.find? (fun i => decide (j < i))
    let share := if p.position = 0 then s.params.pollShare else p.roundShare
    let pollSlot : Prop := p.position ∈ [0, 2, 4, 6, 1, 3, 5].take share
    let guard (a : Nat) : Option Nat := s.outage.watches.findIdx? (fun e =>
      e.enabled && e.watch.any (fun w => w.guard && decide (a / w.span * w.span = w.base)))
    let waits (j : Nat) : Prop := none ∉ s.outage.held ∧ ∃ t, tget p.taps j = some t ∧ guard t.address ≠ none
    let passed (l : List UrgentItem) : Prop := ∀ x ∈ l, ∃ j q, x = .port j q false ∧ waits j
    let barren : Prop := passed p.urgent ∧ ∀ x ∈ p.refresh, waits x.1
    let cycle : Prop := xps = [] ∧ (p.position = 0 ∨ (barren ∧ (p.probeDue && !lost.isEmpty) = false))
    (cycle → v = { s with plant.cursor := none, plant.probeDue := p.probeDue || !lost.isEmpty }) → (¬ cycle → v = s) →
    (let due : Bool := v.plant.probeDue && !lost.isEmpty
    let toCommands : Prop := ¬ pollSlot ∨ (xps = [] ∧ v.plant.probeDue = false)
    let without (j q : Nat) (u : State) : State := { u with
      plant.urgent := p.urgent.filter (fun x => match x with | .port a b _ => decide ((a, b) ≠ (j, q)) | .craft _ => true)
      plant.refresh := p.refresh.filter (fun x => decide (x ≠ (j, q))) }
    let put (j q : Nat) (r : Port) (u : State) : State :=
      { u with plant.taps := tmod p.taps j (fun x => { x with ports := x.ports.set q r }) }
    let starts (j q : Nat) (t : Tap) (r : Port) : Prop := kick s = startTx .portCommand t.address j true q r.desired
      (without j q (put j q { r with sync := .sent, inFlight := some r.desired, cls := none } v))
    let holds (j q n : Nat) (t : Tap) (r : Port) : Prop := ∀ (e : WatchEntry) (l₁ l₂ : List (Option Held)),
      guard t.address = some n → s.outage.watches[n]? = some e → s.outage.held = l₁ ++ none :: l₂ → none ∉ l₁ →
      (let u : State := { without j q (put j q { r with sync := .held, cls := none } s) with
        outage.watches := s.outage.watches.set n
          { e with hits := min 255 (e.hits + 1), enabled := !e.watch.any (·.once) }
        outage.held := l₁ ++ some ⟨j, t.address, q, n, r.cls, minuteOf s⟩ :: l₂ }
      (s.outage.owner = .host → kick s = kick (notice nkGuardHit (e.watch.any (·.urgent))
        (u8 n ++ u8 l₁.length ++ u16 j ++ u16 t.address ++ u8 q ++ u8 (pclassNum r.cls) ++ opt 4 (s.time.clock.map (·.1))) u))
      ∧ (s.outage.owner = .craft → kick s = kick (printLine
        [word "GUARD", dec n, dec l₁.length, dec t.address, dec q, pclassWord r.cls] u)))
    (pollSlot ∨ barren →
      (∀ i x, due = true → (next lost p.probeCur).or lost.head? = some i → tget p.taps i = some x →
        kick s = { startTx .probe x.address i true 0 ⟨false, 0⟩ v with plant.probeDue := false, plant.probeCur := some i })
      ∧ (∀ i x, due = false → next xps v.plant.cursor = some i → tget s.telemetry.transponders i = some x →
        kick s = { startTx .poll x.address i false 0 ⟨false, 0⟩ v with
          plant.cursor := if next xps (some i) = none then none else some i
          plant.probeDue := decide (next xps (some i) = none) && !lost.isEmpty })
      ∧ (due = false → xps ≠ [] → next xps p.cursor = none →
        kick s = kick { s with plant.cursor := none, plant.probeDue := !lost.isEmpty }))
    ∧ (barren → xps = [] → lost = [] → kick s = { s with plant.cursor := none, plant.probeDue := false })
    ∧ (toCommands → ∀ j q t r, tget p.taps j = some t → t.ports[q]? = some r →
      (∀ l m l', p.urgent = l ++ .port j q m :: l' → passed l → m = true ∨ guard t.address = none → starts j q t r)
      ∧ (∀ l l', passed p.urgent → p.refresh = l ++ (j, q) :: l' → (∀ x ∈ l, waits x.1) → guard t.address = none → starts j q t r)
      ∧ (∀ n l, p.urgent = .port j q false :: l → (∀ m, .port j q m ∉ l) → (j, q) ∉ p.refresh → holds j q n t r)
      ∧ (∀ n l, p.urgent = [] → p.refresh = (j, q) :: l → (j, q) ∉ l → holds j q n t r))
    ∧ (toCommands → ∀ l r l', p.urgent = l ++ .craft r :: l' → passed l → (∀ x, .craft x ∉ l') →
      (let given (u : State) : State := { u with plant.urgent := l ++ l' }
      let fails (code : String) : Prop := kick s = kick (printLine [word "ERR", word code] (given s))
      match r with
      | .poll a =>
        (∀ i x, tapAt s a = some (i, x) → kick s = startTx .craftPoll a i true 0 ⟨false, 0⟩ (given v))
        ∧ (∀ i x, tapAt s a = none → xpAt s a = some (i, x) → kick s = startTx .craftPoll a i false 0 ⟨false, 0⟩ (given v))
        ∧ (tapAt s a = none → xpAt s a = none → fails "NOT_LOADED")
      | .test a q on =>
        (∀ i x, tapAt s a = some (i, x) → serviceOf s x.segment = .held →
          kick s = startTx .craftTest a i true q (if on then ⟨true, BitVec.allOnes 96⟩ else ⟨false, 0⟩) (given v))
        ∧ (tapAt s a = none → fails "NOT_LOADED")
        ∧ (∀ i x, tapAt s a = some (i, x) → serviceOf s x.segment ≠ .held → fails "NOT_HELD"))))))
  ∧ (∀ (t : Transaction) (role flags battery : Byte) (level : Int) (supply : Nat) (b : Bool) (s : State), s.link.waiting = [] →
    s.plant.current = some t → s.plant.line = .window → t.failed = false → t.buffer = [] → t.address ≤ 4095 → t.port ≤ 3 →
    -32768 ≤ level → level ≤ 32767 → supply ≤ 65535 →
    (let chars (l : List Byte) : List PlantChar := (l ++ [sum8 l]).zipIdx.map (fun c => ⟨c.1, c.2 = 0, true⟩)
    let address (kind : Nat) : List Byte := [BitVec.ofNat 8 (t.address / 16), BitVec.ofNat 8 (t.address % 16 * 16 + kind)]
    let status : Instr := .plantReplyReceived (chars (address 8 ++ [role, flags] ++ i16 level ++ u16 supply ++ [battery]))
    let ack : Instr := .plantReplyReceived (chars (address 9 ++ [BitVec.ofNat 8
      (t.port + (if b then 64 else 0) + (if t.content.enable then 128 else 0)), sum8 (passBytes t.content.pass)]))
    let idle : State := { s with plant.current := none, plant.line := .idle, plant.timer := 0 }
    let ends (i : Instr) (u : State) : Prop := exec i s = .next (kick u)
    let tamper := flags.getLsbD 2
    let clears (v : Bool) (x : Tap) (f : Tap → Tap) : State :=
      let u : State := { idle with plant.taps := tmod s.plant.taps t.index (fun y => { f y with tamper := v }) }
      let u : State := { u with plant.probeDue :=
        s.plant.probeDue && (x.unreachable.isNone || u.plant.taps.any (fun y => y.2.unreachable.isSome)) }
      if v = true ∧ x.tamper = false then watchEvent .tamper x.address u else u
    let heard (v : Bool) (x : Tap) (cause : Nat) (test : State → State) : State :=
      match x.unreachable with
      | none => test (clears v x (fun y => y))
      | some since => notice nkTapRestored false
        (u16 t.index ++ u16 x.address ++ u8 x.segment ++ u32 since ++ opt 4 (s.time.clock.map (·.1)) ++ u8 cause)
        (forceTaps [t.index] (reparkTaps [t.index] (test (clears v x (fun y => { y with unreachable := none })))))
    let tested (c : Option Content) (u : State) : State := modPort (t.index, t.port) (fun r =>
      let settled : Bool := r.sync = .inSync || r.sync = .dropped
      { r with
        confirmed := c
        unpark := .urgent
        sync := if settled then .parked else r.sync
        cls := if settled then none else r.cls }) u
    let silent := printLine [word "ERR", word "NO_REPLY", dec t.address]
    let gone : Prop := ∀ x, tget s.plant.taps t.index = some x → x.address ≠ t.address
    let xpGone : Prop := ∀ x, tget s.telemetry.transponders t.index = some x → ¬ (x.address = t.address ∧ x.enabled = true)
    (t.purpose = .probe → t.toTap = true →
      ends .replyWindowExpiry idle
      ∧ (role = 4 → (gone → ends status idle)
        ∧ ∀ x, tget s.plant.taps t.index = some x → x.address = t.address → ends status (heard tamper x 0 (fun u => u))))
    ∧ (t.purpose = .craftPoll → t.toTap = true →
      ends .replyWindowExpiry (silent idle)
      ∧ (role = 4 →
        (let told := printLine [word "OK", word "POLL", dec t.address, word "TAP", flagWord tamper]
        (gone → ends status (told idle))
        ∧ ∀ x, tget s.plant.taps t.index = some x → x.address = t.address →
          ends status (told (heard tamper x 1 (fun u => u))))))
    ∧ (t.purpose = .craftPoll → t.toTap = false →
      (let judged (m : Option StatusMsg) (u : State) : Prop := (xpGone → u = idle) ∧ (¬ xpGone → u = takeOutcome t.index m idle)
      (∀ u, judged none u → ends .replyWindowExpiry (silent u))
      ∧ (role ≠ 4 → ∀ u,
        judged (some ⟨role.toNat, flags.getLsbD 0, flags.getLsbD 1, tamper, level, supply, battery.toNat⟩) u →
        ends status (printLine [word "OK", word "POLL", dec t.address, roleWord role.toNat, decInt level, dec supply,
          dec battery.toNat, flagWord (flags.getLsbD 0), flagWord (flags.getLsbD 1), flagWord tamper] u))))
    ∧ (t.purpose = .craftTest →
      (let told := printLine [word "OK", word "TEST", dec t.address, dec t.port, onWord t.content.enable, flagWord b]
      (gone → ends .replyWindowExpiry (silent idle) ∧ ends ack (told idle))
      ∧ ∀ x, tget s.plant.taps t.index = some x → x.address = t.address →
        ends .replyWindowExpiry (silent (reparkPort (t.index, t.port) (tested none idle)))
        ∧ ends ack (told (reparkPort (t.index, t.port) (heard b x 2 (tested (some t.content)))))))))

/-- The tier table holds a FREE set, TIER_0 to TIER_15 and the showing-event map, and follows the effective classes after every
step, whatever event changed one: a channel is in the FREE set exactly when its class is FREE, in TIER_t exactly when it is
TIER t, and the map holds entry e for it exactly when it is PPV e, the one channel that shows the event; so a DARK or PPV-
RESERVED channel is in none, and no channel is in two. The blackout zone sets are no part of it: they are read from the channel
map. After any reset every set and the map are empty, as the channel map then is (R4). -/
def Obligations.TierTableFollowsTheClasses : Prop :=
  (let follows (l : Lineup) : Prop := l.map.length = 96 ∧ l.table.tiers.length = 16 ∧ l.table.showing.length = 16
    ∧ ∀ (i : Nat) (x : Channel), l.map[i]? = some x →
      (l.table.free.getLsbD i = true ↔ x.eff = .base .free)
      ∧ (∀ t : Fin 16, (∃ v, l.table.tiers[t.val]? = some v ∧ v.getLsbD i = true) ↔ x.eff = .base (.tier t))
      ∧ (∀ e : Fin 16, (l.table.showing[e.val]? = some (some (i + 1)) → x.eff = .ppv e)
        ∧ (x.eff = .ppv e → ∃ c, l.table.showing[e.val]? = some (some c))
        ∧ (x.eff = .ppv e → (∀ (j : Nat) (y : Channel), l.map[j]? = some y → y.eff = .ppv e → j = i) →
          l.table.showing[e.val]? = some (some (i + 1))))
      ∧ (x.eff = .base .dark ∨ x.eff = .base .reserved → l.table.free.getLsbD i = false
        ∧ (∀ v ∈ l.table.tiers, v.getLsbD i = false) ∧ some (i + 1) ∉ l.table.showing)
  (∀ s : State, Sound s → follows s.lineup)
  ∧ (∀ s t : State, Sound s → step s = .next t → follows t.lineup)
  ∧ (∀ s t : State, Sound s → Sound t → s.lineup.map.map (·.eff) = t.lineup.map.map (·.eff) → s.lineup.table = t.lineup.table)
  ∧ (∀ (segment slot i : Nat) (x : Channel) (g : Segment) (s : State), Sound s → tget s.telemetry.segments segment = some g →
    s.lineup.map[i]? = some x → x.zones.getLsbD g.zone = true →
    (deriveContent s segment (some slot)).pass.getLsbD i = false)
  ∧ (∀ (r : ResetInputs) (i : Instr) (s : State),
    (i = .powerOn r ∨ i = .resetLine r ∨ i = .clockFault r
      ∨ (i = .outboundFrameSent r ∧ ∃ x : Reply, s.link.outbound = some (.reply x) ∧ x.kind = 0x85 ∧ x.body = [0])) →
    ∃ t, exec i s = .next t ∧ follows t.lineup
      ∧ t.lineup.table = { free := 0, tiers := List.replicate 16 0, showing := List.replicate 16 none }))

/-! ## Chapter 11: the message link and the operating states -/

/-- While an order is in flight, or the reply to RESET is awaited, an order that arrives waits in the input queue of 4; with 4
waiting it is answered BUSY at once, and with 7 replies waiting too it is discarded (R178, R179). A reply that joins the reply
list is on its way, and changes the reply list and the outbound line alone (R179). -/
def Obligations.OrderWaitsOrIsBusy : Prop :=
  (∀ (i : Instr) (tag : Byte) (o : Order) (s : State), i.order = some (tag, o) →
    (s.link.inFlight ≠ none ∨ s.link.resetPending = true) →
    (s.link.waiting.length < 4 → exec i s = .next { s with link.waiting := s.link.waiting ++ [tagged tag o] })
    ∧ (s.link.waiting.length = 4 → s.link.replies.length < 7 → exec i s = .next (joinReply (tagged tag o) .busy [] s))
    ∧ (s.link.waiting.length = 4 → 7 ≤ s.link.replies.length → exec i s = .next s))
  ∧ (∀ (tag : Byte) (o : Order) (code : StatusCode) (body : List Byte) (s : State),
    Replying (joinReply (tagged tag o) code body s) (replyTo tag o code body)
    ∧ ∃ rs ob, joinReply (tagged tag o) code body s = { s with link.replies := rs, link.outbound := ob })

/-- The gate of R184: in STARTING every order but STATUS and IDENTITY is refused BUSY; in UNSET every order but the first six
of the catalogue is refused NO_TIME. A refused order changes nothing. The orders that change subscriber service and money are
refused STATE in LOADING, and the orders that build the controller from nothing are refused STATE in RUN (R184); nothing
changes. -/
def Obligations.GateRefusesOrders : Prop :=
  (∀ (i : Instr) (tag : Byte) (o : Order) (s : State), i.order = some (tag, o) → Quiet s →
    (s.link.op = .starting → o ≠ .status → o ≠ .identity → exec i s = .next (joinReply (tagged tag o) .busy [] s))
    ∧ (s.link.op = .unset → 6 < orderKind o → exec i s = .next (joinReply (tagged tag o) .noTime [] s)))
  ∧ (∀ (i : Instr) (tag : Byte) (o : Order) (s : State), i.order = some (tag, o) → Quiet s →
    (s.link.op = .loading →
      (match o with
        | .bind _ | .unbind _ | .setState _ _ | .setTiers _ _ | .setLimit _ _ | .purchase _ _ | .eventCancel _ | .closePeriod => True
        | _ => False) →
      Answers i s s tag o .state [])
    ∧ (s.link.op = .run → (match o with | .loadChannel _ | .storeClear | .go => True | _ => False) →
      Answers i s s tag o .state []))

/-- The body of every order whose arguments fit their fields has the length of its kind, and is read back as that order (R193,
R194). The presence byte of RESYNC and the slot byte of EVENT-DEFINE in the layout are the model's choice (logs 17 and 19),
and so is the order of the bits of a presence byte (log 61). -/
def Obligations.OrderBodiesReadBack : Prop :=
  ∀ o : Order, WellFormed.order o = true →
    bodyLengths[orderKind o - 1]? = some (orderBody o).length ∧ parseBody (orderKind o) (orderBody o) = some o

/-- A frame laid out by R177, with the kind and body of a well-formed order, is that order's command; what stands before its
start byte is discarded. So a frame that carries STATUS is answered with the status report (R178, R191). -/
def Obligations.FrameCarriesItsOrder : Prop :=
  ∀ (i : Instr) (tag : Byte) (o : Order) (junk : List Byte) (s : State), i.order = some (tag, o) → i.wellFormed = true →
    (∀ b ∈ junk, b ≠ 0xC3) →
    (let frame := junk ++ frameBytes (BitVec.ofNat 8 (orderKind o)) tag (orderBody o)
    exec (.linkFrameReceived frame) s = exec i s
    ∧ (o = .status → Quiet s → exec (.linkFrameReceived frame) s
      = .next (kick (joinReply (tagged tag .status) .ok (statusBytes s) s))))

/-- A frame with a CRC that does not agree, a length out of bounds and a gap in a frame are discarded without reply and leave
no trace but a hunting receiver (R177). A whole frame whose kind names no order is answered BAD_ORDER with kind 0x80, and one
whose body has not the length of its kind BAD_ARG; nothing changes (R178, R193). -/
def Obligations.BrokenAndUnknownFrames : Prop :=
  (∀ (kind tag : Byte) (body : List Byte) (crc n : Nat) (s : State), body.length ≤ 600 → crc < 65536 →
    crc ≠ (crc16 (u16 (body.length + 2) ++ [kind, tag] ++ body)).toNat →
    exec (.linkFrameReceived ([0xC3] ++ u16 (body.length + 2) ++ [kind, tag] ++ body ++ u16 crc)) s = .next s
    ∧ exec (.linkBadLength n) s = .next { s with link.hunting := true }
    ∧ exec .linkGapTimeout s = .next { s with link.hunting := true })
  ∧ (∀ (kind tag : Byte) (body : List Byte) (s : State), body.length ≤ 600 → Quiet s → Working s →
    ((kind = 0 ∨ 49 < kind.toNat) → exec (.linkFrameReceived (frameBytes kind tag body)) s
      = .next (kick (pump { s with link.replies := s.link.replies ++ [⟨0x80, tag, [1]⟩] })))
    ∧ (1 ≤ kind.toNat → kind.toNat ≤ 49 → bodyLengths[kind.toNat - 1]? ≠ some body.length →
      exec (.linkFrameReceived (frameBytes kind tag body)) s
        = .next (kick (pump { s with link.replies := s.link.replies ++ [⟨kind + 0x80, tag, [2]⟩] }))))

/-- When a frame has left, the outbound line sends the head of the reply list, else the oldest urgent notice, else the oldest
routine notice, which carries and clears the GAP mark; else it is free (R179, R181). -/
def Obligations.OutboundLineSendsNext : Prop :=
  ∀ (r : ResetInputs) (f : OutFrame) (s : State), s.link.outbound = some f → s.link.waiting = [] →
    (∀ x, f = .reply x → ¬(x.kind = 0x85 ∧ x.body = [0])) →
    (∀ x xs, s.link.replies = x :: xs →
      exec (.outboundFrameSent r) s = .next (kick { s with link.outbound := some (.reply x), link.replies := xs }))
    ∧ (∀ n ns, s.link.replies = [] → s.link.urgent = n :: ns →
      exec (.outboundFrameSent r) s
        = .next (kick { s with link.outbound := some (.notice n s.link.gap), link.urgent := ns, link.gap := false }))
    ∧ (∀ n ns, s.link.replies = [] → s.link.urgent = [] → s.link.routine = n :: ns →
      exec (.outboundFrameSent r) s
        = .next (kick { s with link.outbound := some (.notice n s.link.gap), link.routine := ns, link.gap := false }))
    ∧ (s.link.replies = [] → s.link.urgent = [] → s.link.routine = [] →
      exec (.outboundFrameSent r) s = .next (kick { s with link.outbound := none }))

/-- A notice handed to a busy link meets the table of R181: it joins its class's tail, or at a full queue an urgent one takes
the place of the oldest routine notice, and every discard sets the GAP mark; a disabled class queues nothing. The head is
stamped at the queueing (the model's choice, log 16). -/
def Obligations.NoticesQueueByClass : Prop :=
  ∀ (k : Nat) (b : List Byte) (f : OutFrame) (s : State), s.link.outbound = some f →
    (s.link.urgentOn = false → notice k true b s = s)
    ∧ (s.link.routineOn = false → notice k false b s = s)
    ∧ (s.link.urgentOn = true → s.link.urgent.length + s.link.routine.length < 32 →
      notice k true b s = { s with link.urgent := s.link.urgent ++ [⟨k, true, s.time.clock, b⟩] })
    ∧ (s.link.routineOn = true → s.link.urgent.length + s.link.routine.length < 32 →
      notice k false b s = { s with link.routine := s.link.routine ++ [⟨k, false, s.time.clock, b⟩] })
    ∧ (s.link.routineOn = true → 32 ≤ s.link.urgent.length + s.link.routine.length →
      notice k false b s = { s with link.gap := true })
    ∧ (s.link.urgentOn = true → 32 ≤ s.link.urgent.length → s.link.routine = [] → notice k true b s = { s with link.gap := true })
    ∧ (∀ n ns, s.link.urgentOn = true → 32 ≤ s.link.urgent.length + s.link.routine.length → s.link.routine = n :: ns →
      notice k true b s = { s with
        link.urgent := s.link.urgent ++ [⟨k, true, s.time.clock, b⟩], link.routine := ns, link.gap := true })

/-- NOTICE-MASK writes both enables and answers with them and the notices then queued of each class, which stay; STATUS reports
the enables (R182). ACK-START answers with the cold-start flag and clears it (R190); RESET is answered OK, and from then on no
order is taken (R189). Nothing else changes. The enables and the cold-start flag are sent as 1 where they stand (the model's
choice, log 72). -/
def Obligations.NoticeMaskAckStartAndReset : Prop :=
  (∀ (tag : Byte) (urgent routine : Bool) (s : State), Quiet s → s.link.op ≠ .starting →
    Answers (.noticeMask tag urgent.toNat routine.toNat) s
      { s with link.urgentOn := urgent, link.routineOn := routine } tag (.noticeMask urgent.toNat routine.toNat) .ok
      (flag urgent ++ flag routine ++ u16 s.link.urgent.length ++ u16 s.link.routine.length)
    ∧ ((statusBytes s).drop 9).take 2 = flag s.link.urgentOn ++ flag s.link.routineOn)
  ∧ (∀ (tag : Byte) (s : State), Quiet s → s.link.op ≠ .starting →
    Answers (.ackStart tag) s { s with time.coldStart := false } tag .ackStart .ok (flag s.time.coldStart)
    ∧ Answers (.reset tag) s { s with link.resetPending := true } tag .reset .ok [])

/-- At a reset every block takes its values after a reset, and the billing store's content, the identity area and the inputs
stand but for what a programming or an erase in hand leaves; POWER_ON sets the cold-start flag and the others leave it, and the
reset of cause ORDER arrives when the reply to RESET has left the line (R189). With nothing in hand the content stands. A
programming cut short is abandoned where it stands: a record's slot does not read committed, no bit is cleared but those to be
programmed (R148), a marker may stand at any value, and any but 0xFF counts (R145), nor of an identity word (R161); an erase
cut short sets bits of its page alone, and its bank still reads ERASING (R159). What was left is given with the reset (logs 5,
28, 35); the levels of READY and ALERT stand (the model's choice, log 6). The recovery scan voids torn slots (R156), reads an
OPEN bank's journal, and programs CLOSING where a close stood between its close minute and CLOSING (R176; log 26). Of a CLOSING
bank it takes up the statement region: CLOSED follows a CLOSE record, an incomplete last account is voided, and the counts are
those of the complete ones (R176). The other bank, whose opening was cut off, is erased first (R146), and then opened with its
open minute deferred, at which STARTING ends (R157, R190). A broken law of R146 faults the store (R155). A header programming
reaches the bytes of its field alone (the model's choice, log 4). START carries the sequence bytes as they read (the model's
choice, log 60) and the cold-start flag as 1 for set (the model's choice, log 72), BANK_FREE the sequence bytes as they read
(log 60), and what no rule gives a value before its first writing has a placeholder (the model's choice, log 9). A bank whose
every byte is erased reads as FREE (R146). -/
def Obligations.ResetsAndRecovery : Prop :=
  (∀ (r : ResetInputs) (s : State),
    (let cut := tearIdentity r.torn (tearSlot r.torn s)
    let after (cause : ResetCause) (cold : Bool) : State :=
      { link := { speed := r.speed }
        time := { clock := none, cause := cause, coldStart := cold }
        lineup := { ready := s.lineup.ready }
        schedule := { alertInput := s.schedule.alertInput }
        craft := { service := r.service }
        store := { a := { cells := cutErase cut.store.a r.erasedA }, b := { cells := cutErase cut.store.b r.erasedB },
                   identity := cut.store.identity }
        pending := s.pending
        freeCount := s.freeCount }
    exec (.powerOn r) s = .next (after .powerOn true)
    ∧ exec (.resetLine r) s = .next (after .resetLine s.time.coldStart)
    ∧ exec (.clockFault r) s = .next (after .clockFault s.time.coldStart)
    ∧ (∀ x : Reply, s.link.outbound = some (.reply x) → x.kind = 0x85 → x.body = [0] →
      exec (.outboundFrameSent r) s = .next (after .order s.time.coldStart))))
  ∧ (∀ (torn : List Byte) (s : State), s.store.path = .idle → tearIdentity torn (tearSlot torn s) = s)
  ∧ (∀ (b : Bank) (erased : List Byte), b.page = none → cutErase b erased = b.cells)
  ∧ (∀ (k : BankId) (a : Nat) (given torn : List Byte) (s : State), memoryWf s = true → inHand s = some (k, a, given) →
    (let t := tearIdentity torn (tearSlot torn s)
    let got (i : Nat) : Byte := cellGet (bank t k).cells i
    let had (i : Nat) : Byte := cellGet (bank s k).cells i
    bank t (otherBank k) = bank s (otherBank k) ∧ t.store.identity = s.store.identity
    ∧ (∀ i, i < a ∨ a + given.length ≤ i → got i = had i)
    ∧ (∀ i b, given[i]? = some b → ∃ x, got (a + i) = had (a + i) &&& (b ||| x))
    ∧ (∀ body, given = body ++ [0x0F] → had (a + body.length) = 0xFF → got (a + body.length) ≠ 0x0F)
    ∧ (∀ x, given = [0] → torn = [x] → got a = had a &&& x)))
  ∧ (∀ (k : BankId) (q : List StoreItem) (s : State), s.store.path = .append →
    (∀ body o, s.store.queue = .record body o :: q → openBank s = some k →
      inHand s = some (k, 32 * (bank s k).append, body ++ [0x0F]))
    ∧ (∀ f, s.store.queue = .header k f :: q → inHand s = some (k, fieldAt f, fieldBytes f)))
  ∧ (∀ (w : IdTarget) (v : IdWord) (q : List StoreItem) (torn : List Byte) (s : State), s.store.path = .append →
    s.store.queue = .identity w v :: q →
    ∃ x : IdWord, tearIdentity torn (tearSlot torn s) = { s with
      store.identity := setIdWord s.store.identity w (idWord s.store.identity w &&& (v ||| x)) })
  ∧ (∀ (b : Bank) (p : Nat) (erased : List Byte), cellsWf b.cells = true → b.page = some p → bankStateOf b = .erasing →
    (let cells := cutErase b erased
    bankStateOf { b with cells := cells } = .erasing
    ∧ (∀ a, a / 4096 ≠ p → cellGet cells a = cellGet b.cells a)
    ∧ (∀ a, cellGet b.cells a &&& cellGet cells a = cellGet b.cells a)))
  ∧ (∀ b : Bank, cellsWf b.cells = true → (∀ a, a < 1048576 → cellGet b.cells a = 0xFF) → bankStateOf b = .free)
  ∧ (∀ (b : Bank) (a : Nat), a < 1048576 → cellGet b.cells a ≠ 0xFF → hdr b 13 = 0xFF → bankStateOf b = .erasing)
  ∧ (∀ (k : BankId) (i n : Nat) (v : Byte) (vs : List Byte) (s : State), memoryWf s = true → s.store.fault = false → 1 ≤ i →
    i < n → n ≤ 16383 → (∀ j, 1 ≤ j → j < n → j ≠ i → slotState (bank s k) j ≠ 0xFF) → slotState (bank s k) i = 0xFF →
    slotErased (bank s k) i = false → slotErased (bank s k) n = true → v ≠ 0xFF → v ≠ 0x0F →
    walkJournal k (v :: vs) s = ({ setBank s k { bank s k with
      cells := cellsAnd (bank s k).cells (32 * i + 31) [v], append := n } with store.mismatches := 0 }, vs))
  ∧ (∀ (k : BankId) (n : Nat) (voids : List Byte) (s : State), s.link.waiting = [] → s.link.op = .starting →
    s.store.scan = .reading → s.store.queue = [] → s.store.path = .idle → s.store.fault = false → s.engine.state = .idle →
    memoryWf s = true → 1 ≤ n → n ≤ 16383 → (∀ j, 1 ≤ j → j < n → slotState (bank s k) j ≠ 0xFF) →
    slotErased (bank s k) n = true →
    (let b := bank s k
    let o := otherBank k
    let found := bankStateOf b
    let beside := bankStateOf (bank s o)
    let d := s.store.identity
    let locked : Bool := d.headId ≠ 0xFFFFFFFF && d.lockA = d.headId && d.lockB = ~~~ d.headId
    let ends (t : State) : Prop := exec (.recoveryScanEnd voids) s = .next (kick t)
    let opening : List StoreItem := [.header o (.sequence ((seqOf b + 1) % 65536)), .header o .opened]
    let read (x : Bank) (rates : List Nat) : State := { setBank (setBank s o { bank s o with
        state := beside, page := if beside = .erasing then some 255 else (bank s o).page }) k x with
      store.lock := if locked then .effective else .none
      store.scan := .waiting
      engine.tariff := rates }
    let x : Bank := { b with state := .open_, append := n }
    let js := journal x
    let low : Bool := decide (16384 - n ≤ 256)
    let opened : State := { read x (ratesOf x) with
      store.spend := js.foldl (fun l r => if fld r 0 1 = 2 then tset l (fld r 5 4) ((tget l (fld r 5 4)).getD 0 + fld r 18 2) else l) []
      store.minute := match js.getLast? with
        | some r => fld r 1 4
        | none => if hdr b 7 ≠ 0xFF then openMinuteOf b else closeMinuteOf (bank s o)
      store.lowMark := low
      engine.limitTaken := decide (hdr b 17 ≠ 0xFF) }
    let started : State := notice nkStart true
      (u8 (causeNum s.time.cause) ++ flag s.time.coldStart ++ u8 (bankStateNum opened.store.a.state) ++ u16 (seqOf s.store.a)
        ++ u8 (bankStateNum opened.store.b.state) ++ u16 (seqOf s.store.b) ++ flag locked ++ u32 d.headId.toNat ++ [0])
      { opened with link.op := .unset, store.scan := .ended }
    (found = .open_ → hdr b 12 = 0xFF → beside ≠ .open_ → beside ≠ .closing → s.schedule.alertInput = false →
      ends (if low then notice nkJournalLow true (u8 1 ++ u8 (bankNum k) ++ u16 (seqOf b) ++ u16 (16384 - n)) started else started))
    ∧ (found = .open_ → hdr b 12 ≠ 0xFF → beside = .free ∨ beside = .erasing →
      ends { opened with store.queue := [.header k .closing], store.path := .append })
    ∧ (∀ m, found = .closing → beside = .free ∨ beside = .erasing → 16384 ≤ m → m ≤ 32767 →
      (∀ j, 16384 ≤ j → j < m → slotState b j ≠ 0xFF) → slotErased b m = true →
      (let slots := committedSlots b 16384 16384
      let kind (j : Nat) : Byte := cellGet b.cells (32 * j)
      let heads := slots.filter (fun j => kind j = 0x41)
      let lines (j : Nat) := slots.filter (fun i => kind i = 0x42 && decide (j < i))
      let want (j : Nat) := fld (slotBytes b j) 28 1
      let taken (cells : List Host.Cell) (hs : List Nat) (resume : Nat) (done : Bool) (l : List StoreItem) : Prop :=
        let t : State := read { b with cells := cells, state := .closing, append := n, stmtAppend := m }
          (ratesOf { b with state := .closing, append := n })
        let t : State := { t with engine := { t.engine with
          state := .computing, bank := k, resume := resume, writing := none, statements := hs.length, lines := (hs.map want).sum
          omitted := 0, control := (hs.map (fun j => fld (slotBytes b j) 24 4)).sum, truncated := false, closeDone := done } }
        (beside = .erasing → ends { t with store.queue := l, store.path := if l = [] then .idle else .append })
        ∧ (beside = .free → ends { t with
          store.queue := l ++ opening, store.path := .append, store.minute := closeMinuteOf b })
      ((∀ j ∈ slots, kind j ≠ 0x43) →
        (heads = [] → taken b.cells [] 0 false [])
        ∧ (∀ hs h, heads = hs ++ [h] → want h ≤ (lines h).length → taken b.cells heads (fld (slotBytes b h) 1 4 + 1) false [])
        ∧ (∀ hs h, heads = hs ++ [h] → (lines h).length < want h → voids = [] →
          (∀ hs' g, hs = hs' ++ [g] → want g ≤ ((lines g).filter (fun j => decide (j < h))).length) →
          taken ((h :: lines h).foldl (fun c j => cellsAnd c (32 * j + 31) [0]) b.cells) hs (fld (slotBytes b h) 1 4) false []))
      ∧ ((∃ j ∈ slots, kind j = 0x43) → (∀ hs h, heads = hs ++ [h] → want h ≤ (lines h).length) →
        taken b.cells heads s.engine.resume true [.header k .closed])))))
  ∧ (∀ (k : BankId) (p : Programmed) (torn : List Byte) (s : State), s.link.waiting = [] → s.link.op = .starting →
    s.store.scan = .waiting → s.store.fault = false →
    (let o := otherBank k
    let opening (t : State) : State := { t with
      store.queue := [.header o (.sequence ((seqOf (bank s k) + 1) % 65536)), .header o .opened]
      store.path := .append
      store.minute := closeMinuteOf (bank s k) }
    let wrote (i : BankId) (a : Nat) : Bank := { bank s i with cells := cellsAnd (bank s i).cells a (took p [0]) }
    (s.store.path = .append → s.store.queue = [.header k .closing] → hdr (wrote k 14) 14 ≠ 0xFF →
      committedSlots (wrote k 14) 16384 16384 = [] → (bank s o).state = .free ∨ (bank s o).state = .erasing →
      (let t : State := { setBank s k { wrote k 14 with state := .closing, stmtAppend := 16384 } with
        store.queue := []
        store.path := .idle
        store.mismatches := 0
        engine := { s.engine with
          state := .computing, bank := k, resume := 0, writing := none, statements := 0, lines := 0, omitted := 0, control := 0
          truncated := false, closeDone := false } }
      exec (.headerFieldProgrammed p) s = .next (kick (if (bank s o).state = .free then opening t else t))))
    ∧ ((bank s k).state = .closing → (bank s o).page = some 0 → s.store.queue = [] → s.store.path = .idle →
      exec (.erasePageDone o [] torn) s = .next (kick (opening (notice nkBankFree false (u8 (bankNum o) ++ u16 (seqOf (bank s o)))
        (setBank s o { bank s o with
          cells := (bank s o).cells.filter (fun c => decide (c.1 / 4096 ≠ 0)), state := .free, watermark := 0, page := none })))))
    ∧ ((bank s k).state = .closing → s.store.path = .append → s.store.queue = [.header o .opened] →
      hdr (wrote o 13) 13 ≠ 0xFF → hdr (wrote o 13) 7 = 0xFF → s.engine.state = .computing → s.engine.closeDone = false →
      s.schedule.alertInput = false →
      (let t : State := { setBank s o { wrote o 13 with state := .open_, append := 1 } with
        link.op := .unset
        store.queue := []
        store.path := .idle
        store.mismatches := 0
        store.spend := []
        store.lowMark := false
        store.scan := .ended }
      exec (.headerFieldProgrammed p) s = .next (kick { takeAccount (notice nkStart true
        (u8 (causeNum s.time.cause) ++ flag s.time.coldStart ++ u8 (bankStateNum t.store.a.state) ++ u16 (seqOf t.store.a)
          ++ u8 (bankStateNum t.store.b.state) ++ u16 (seqOf t.store.b) ++ flag (s.store.lock = .effective)
          ++ u32 s.store.identity.headId.toNat ++ [0]) t) with store.path := .statement })))))
  ∧ (∀ (voids : List Byte) (s : State), s.link.waiting = [] → s.link.op = .starting → s.store.scan = .reading →
    (let past (b : Bank) : Prop := bankStateOf b = .closing ∨ bankStateOf b = .closed
    (bankStateOf s.store.a = .open_ ∧ bankStateOf s.store.b = .open_) ∨ (past s.store.a ∧ past s.store.b) →
    ∃ t, exec (.recoveryScanEnd voids) s = .next t ∧ t.store.fault = true ∧ t.link.op = .unset ∧ t.store.queue = []
      ∧ t.store.a.state = bankStateOf s.store.a ∧ t.store.b.state = bankStateOf s.store.b
      ∧ t.store.a.cells = s.store.a.cells ∧ t.store.b.cells = s.store.b.cells ∧ t.store.identity = s.store.identity))

/-- STATUS and IDENTITY are answered OK in every operating state and change nothing but the level of SERVICE last read; the
reply to STATUS carries the operating state, TIME_VALID, the minute and second, the reset cause and the cold-start flag, the
notice queue, the banks and the journal's room, the close, the schedule and the alert, the matrix line, the plant queues and
the watches, and the parameters, and that to IDENTITY carries the identity words as they read, the lock, the speed and the
SERVICE input (R191). The level of SERVICE at that event is a free value (log 6). The model's choices are 0xFF for what the
scan has not yet rebuilt (logs 9 and 20), the alert and matrix fields (log 20), the count of statements absent while no close
stands (log 45, DEDUCED), the sequence as its bytes read (log 60), no free journal slot with no bank OPEN (log 77), the low
mark as it last stood with no bank OPEN (log 84), a flag that stands as 1 (log 72), counts for the orders waiting and the held
commands (log 69), and the link speed as one byte, numbered from 0 in the order of 11.1 (log 79), and the part serial in 4
bytes (log 85). -/
def Obligations.StatusAndIdentityReport : Prop :=
  ∀ (tag : Byte) (s : State), Quiet s →
    Answers (.status tag) s s tag .status .ok (statusBytes s)
    ∧ (statusBytes s).take 9 = u8 (opNum s.link.op) ++ flag s.time.clock.isSome ++ opt 4 (s.time.clock.map (·.1))
        ++ opt 1 (s.time.clock.map (·.2)) ++ u8 (causeNum s.time.cause) ++ flag s.time.coldStart
    ∧ Answers (.identity tag) s
        { s with craft.service := Config.serviceLevel s.freeCount, freeCount := s.freeCount + 1 } tag .identity .ok
        (u32 s.store.identity.serial.toNat ++ u32 s.store.identity.headId.toNat ++ u32 s.store.identity.lockA.toNat
          ++ u32 s.store.identity.lockB.toNat
          ++ (if s.store.scan = .reading then [0xFF] else u8 (lockNum s.store.lock))
          ++ u8 (speedNum s.link.speed) ++ flag (Config.serviceLevel s.freeCount))
    ∧ (let scanned (n : Nat) (bs : List Byte) : List Byte := if s.store.scan = .reading then List.replicate n 0xFF else bs
      let shown (b : Bank) : List Byte := scanned 5 (u8 (bankStateNum b.state) ++ u16 (seqOf b)
        ++ (match b.state with | .open_ => u16 b.append | .closing => u16 b.stmtAppend | _ => [0xFF, 0xFF]))
      statusBytes s = (statusBytes s).take 9
        ++ (flag s.link.urgentOn ++ flag s.link.routineOn ++ flag s.link.gap ++ u16 s.link.urgent.length
          ++ u16 s.link.routine.length ++ u16 s.link.waiting.length)
        ++ (shown s.store.a ++ shown s.store.b ++ scanned 2 (u16 (freeSlots s)) ++ scanned 1 (flag s.store.lowMark)
          ++ flag s.store.fault ++ scanned 1 (u8 (lockNum s.store.lock)))
        ++ scanned 5 (u8 (closeStateNum s.engine.state) ++ (if s.engine.state = .idle then [0xFF, 0xFF, 0xFF, 0xFF] else
          u16 (seqOf (bank s s.engine.bank)) ++ u16 s.engine.statements))
        ++ (flag s.schedule.stepMode ++ flag s.schedule.hostClaim.isSome
          ++ (match s.schedule.hostClaim with | some (.at m) => u32 m | _ => [0xFF, 0xFF, 0xFF, 0xFF])
          ++ flag s.schedule.lineClaim ++ (if s.schedule.active then [0] else [1]))
        ++ ((if s.lineup.fault then [2] else if s.lineup.inTransfer then [1] else [0]) ++ u16 s.lineup.queue.length
          ++ u16 s.lineup.deferred.length ++ u16 s.lineup.ramps.length ++ (if s.lineup.settleOpen then [0] else [1]))
        ++ (u16 s.plant.urgent.length ++ u16 s.plant.refresh.length
          ++ u16 (s.outage.held.filter (fun h => h.isSome)).length ++ u8 (ownerNum s.outage.owner))
        ++ (u16 s.params.rampStep ++ u16 s.params.replyWindow ++ u8 s.params.pollShare ++ u8 s.params.missLimit
          ++ u16 s.params.batteryWarn ++ u16 s.params.creditThreshold))

/-- SET-TIME: the checks of R185; in UNSET with no bank OPEN the clock is set and the state becomes LOADING; with one OPEN a
deferred open minute is programmed besides, where none stands, and a POWER_UP record with the reset cause is handed to the
store (R153, R185). Later, a minute at or before the current one is written and nothing else changes, and at a later one each
of the five takers takes its boundary once, in some order (R183; the order is the model's free value, log 10), and the channels
it changed are handed on (R5), before the reply; a notice that a taker queues goes before the reply on a free outbound line
(the model's choice, log 52). In the reply to the first SET-TIME the jump is absent, and a jump outside the signed 32 bits of
its field is sent modulo 2^32 (the model's choice, log 20); TIME_VALID is sent as 1 where it stands (the model's choice, log
72); that a minute before the journal's is refused only with a bank OPEN rests on log 22. The taker `markBoundary true` hands a
MARK to the store in RUN, whatever the minute, as ClockTicksAndTakersAct says. -/
def Obligations.SetTimeSetsTheClock : Prop :=
  ∀ (tag : Byte) (m n : Nat) (s : State), Quiet s → s.link.op ≠ .starting →
    ((59 < n ∨ (openBank s ≠ none ∧ m < s.store.minute) ∨ (s.link.op = .run ∧ minuteOf s + 1440 < m)) →
      Answers (.setTime tag m n) s s tag (.setTime m n) .badArg [])
    ∧ (n ≤ 59 → openBank s = none → s.time.clock = none → s.link.op = .unset →
      Answers (.setTime tag m n) s { s with time.clock := some (m, n), link.op := .loading } tag (.setTime m n) .ok
        (u32 m ++ u8 n ++ [1] ++ u8 2 ++ absent 4))
    ∧ (∀ was sec, n ≤ 59 → (openBank s ≠ none → s.store.minute ≤ m) → s.time.clock = some (was, sec) → Working s →
      (m ≤ was →
        Answers (.setTime tag m n) s { s with time.clock := some (m, n) } tag (.setTime m n) .ok
          (u32 m ++ u8 n ++ [1] ++ u8 (opNum s.link.op) ++ i32 ((m : Int) - was)))
      ∧ (was < m → (s.link.op = .run → m ≤ minuteOf s + 1440) → ∃ order : List (State → State),
        order.Perm [scheduleBoundary, eventBoundary, claimBoundary, markBoundary true, limitBoundary]
        ∧ (let u := handOff (order.foldl (fun t take => take t)
            { taken tag (.setTime m n) s with time.clock := some (m, n), freeCount := s.freeCount + 1 })
          exec (.setTime tag m n) s = .next (kick (answer .ok (timeBytes (some ((m : Int) - was)) u) u)))))
    ∧ (∀ k, n ≤ 59 → openBank s = some k → s.store.minute ≤ m → s.time.clock = none → s.link.op = .unset →
      (let set : State := { s with time.clock := some (m, n), link.op := .loading }
      let ends (t : State) : Prop := Answers (.setTime tag m n) s t tag (.setTime m n) .ok (u32 m ++ u8 n ++ [1] ++ u8 2 ++ absent 4)
      (s.store.fault = true → ends set)
      ∧ (s.store.fault = false → 257 < freeSlots s → ends { set with
        store.minute := m
        store.queue := s.store.queue ++ (if hdr (bank s k) 7 = 0xFF then [.header k (.openMinute m)] else [])
          ++ [.record (u8 6 ++ u32 m ++ u8 (causeNum s.time.cause) ++ absent 25) .other]
        store.path := if s.store.path = .idle then .append else s.store.path })))

/-- SET-PARAMS writes each parameter named, clamped to its range, leaves the others, and answers with all six (R186, R180). -/
def Obligations.SetParamsClampsAndWrites : Prop :=
  ∀ (tag : Byte) (p : ParamArgs) (s : State), Quiet s → Working s →
    (let set (lo hi : Nat) (given : Option Nat) (old : Nat) : Nat :=
      match given with | none => old | some v => if v < lo then lo else if hi < v then hi else v
    let q : Params :=
      { rampStep := set 100 2000 p.rampStep s.params.rampStep
        replyWindow := set 20 200 p.replyWindow s.params.replyWindow
        pollShare := set 1 7 p.pollShare s.params.pollShare
        missLimit := set 1 15 p.missLimit s.params.missLimit
        batteryWarn := set 0 255 p.batteryWarn s.params.batteryWarn
        creditThreshold := set 0 1440 p.creditThreshold s.params.creditThreshold }
    Answers (.setParams tag p) s { s with params := q } tag (.setParams p) .ok
      (u16 q.rampStep ++ u16 q.replyWindow ++ u8 q.pollShare ++ u8 q.missLimit ++ u16 q.batteryWarn ++ u16 q.creditThreshold))

/-! ## Chapter 1: the line-up -/

/-- LOAD-CHANNEL in LOADING writes the whole entry, recomputes its class and route and the tier table, sets the carrier and
the ramp queue by its request, hands the channel to pass-set derivation where its class or blackout set changed, and answers
with the channel record (R2 to R6). A request that reverses the one ramping channel turns its direction: in DWELL, and with
its LEVEL unsent in the queue or deferred, which is withdrawn, the next step is issued in the new direction or the ramp ends
where there is none to take; a LEVEL in transfer stands (R9, R19). A withdrawal that ends the ramp leaves the applied flag as
it was (the model's choice, log 43), and the READY timer runs on over the exchange (the model's choice, log 46). Each
departure queues the head of the deferred list with the value then standing; a step that finds the queue full is deferred,
once (R10, R11). LOAD-CHANNEL is refused STATE in RUN, and BAD_ARG for an argument that R6 does not list, or an eligible byte
above 1 (the model's choice, log 18). -/
def Obligations.ChannelsLoadReverseAndDefer : Prop :=
  (∀ (tag : Byte) (p : LoadChannelArgs) (src : Option Nat) (cls : BaseClass) (el : Bool) (s : State), Quiet s → Sound s →
    s.link.op = .loading → 1 ≤ p.channel → p.channel ≤ 96 → sourceArg p.source = some src → classArg p.cls = some cls →
    flagArg p.eligible = some el → p.request ≤ 2 →
    (let c := p.channel
    let b : Channel := { chan s c with source := src, cls := cls, zones := p.zones, eligible := el, applied := false,
                                       carrier := if p.request = 0 then .off else if p.request = 1 then .on else .waitUp,
                                       level := if p.request = 1 then 8 else 0 }
    let e : Channel := { b with eff := effOf b, route := routeOf s.schedule.active b }
    let q := s.lineup.rampQueue
    let q' := if p.request = 2 then (if c ∈ q then q else q ++ [c]) else q.filter (· ≠ c)
    let written : State := { taken tag (.loadChannel p) s with
      lineup.map := s.lineup.map.set (c - 1) e
      lineup.table := tierTableOf (s.lineup.map.set (c - 1) e)
      lineup.rampQueue := q' }
    exec (.loadChannel tag p) s = .next (kick (answer .ok (channelBytes c e (q'.contains c))
      (if e.eff ≠ (chan s c).eff ∨ e.zones ≠ (chan s c).zones then rederiveServed written else written)))))
  ∧ (∀ (tag : Byte) (c : Nat) (up : Bool) (r : Ramp) (s : State), Quiet s → Sound s → s.link.op = .run → 1 ≤ c → c ≤ 96 →
    (chan s c).carrier = (if up then .rampDown else .rampUp) → s.lineup.ramps = [r] → r.channel = c → s.lineup.rampQueue = [] →
    (let old := chan s c
    let turned : Channel := { old with carrier := if up then .rampUp else .rampDown }
    let v := if up then old.level + 1 else old.level - 1
    let atEnd : Prop := if up then 8 ≤ old.level else old.level = 0
    let put (e : Channel) (ramps : List Ramp) (q : List MatrixCmd) (d : List Deferred) : State := { s with
      lineup.map := s.lineup.map.set (c - 1) e, lineup.ramps := ramps, lineup.queue := q, lineup.deferred := d }
    let answers (t : State) (e : Channel) : Prop :=
      Answers (.carrier tag c (if up then 0 else 1)) s t tag (.carrier c (if up then 0 else 1)) .ok (channelBytes c e false)
    let step (q : List MatrixCmd) (d : List Deferred) : State :=
      put { turned with applied := false } [⟨c, up, .command, v, 0⟩] q d
    let ended (q : List MatrixCmd) (d : List Deferred) : State :=
      { put { old with carrier := if up then .on else .off } [] q d with lineup.settleTimer := some 5000 }
    let endsOn (t : State) : Prop := answers t { old with carrier := if up then .on else .off }
    let stepsOn (t : State) : Prop := answers t { turned with applied := false }
    let mine (m : MatrixCmd) : Bool := isStepOf c m
    (r.phase = .dwell → s.lineup.deferred = [] → s.lineup.queue.length < 256 →
      (¬ atEnd → stepsOn (lineRun (step (s.lineup.queue ++ [.level c v true]) [])))
      ∧ (atEnd → endsOn (ended s.lineup.queue [])))
    ∧ (∀ l₁ l₂ w, r.phase = .command → s.lineup.queue = l₁ ++ .level c w true :: l₂ → (s.lineup.inTransfer = true → l₁ ≠ []) →
      (∀ m ∈ l₁ ++ l₂, mine m = false) →
      (s.lineup.deferred = [] →
        (¬ atEnd → stepsOn (lineRun (step (l₁ ++ l₂ ++ [.level c v true]) [])))
        ∧ (atEnd → endsOn (lineRun (ended (l₁ ++ l₂) []))))
      ∧ (∀ d ds, s.lineup.deferred = ⟨d, false⟩ :: ds → ⟨c, true⟩ ∉ ds → s.lineup.queue.length = 256 →
        (let q := l₁ ++ l₂ ++ [.route d (chan s d).route]
        (¬ atEnd → stepsOn (lineRun (step q (ds ++ [⟨c, true⟩]))))
        ∧ (atEnd → endsOn (lineRun (ended q ds))))))
    ∧ (∀ l₁ l₂, r.phase = .command → (unsent s).any mine = false → s.lineup.deferred = l₁ ++ ⟨c, true⟩ :: l₂ →
      ⟨c, true⟩ ∉ l₁ ++ l₂ →
      (¬ atEnd → s.lineup.queue.length < 256 → stepsOn (lineRun (step (s.lineup.queue ++ [.level c v true]) (l₁ ++ l₂))))
      ∧ (¬ atEnd → s.lineup.queue.length = 256 → stepsOn (step s.lineup.queue (l₁ ++ l₂ ++ [⟨c, true⟩])))
      ∧ (atEnd → endsOn (ended s.lineup.queue (l₁ ++ l₂))))
    ∧ (∀ w q, r.phase = .command → s.lineup.inTransfer = true → s.lineup.queue = .level c w true :: q → q.any mine = false →
      ⟨c, true⟩ ∉ s.lineup.deferred →
      answers (put turned [{ r with up := up }] s.lineup.queue s.lineup.deferred) turned)))
  ∧ (∀ s : State, Sound s → s.link.waiting = [] → s.lineup.fault = false → s.link.op = .run →
    (∀ c src q d ds, s.lineup.queue = .route c src :: q → s.lineup.inTransfer = true → s.lineup.deferred = d :: ds →
      1 ≤ c → c ≤ 96 →
      (let m : MatrixCmd := if d.isLevel then .level d.channel ((rampOf s d.channel).elim (chan s d.channel).level (·.step)) true
        else .route d.channel (chan s d.channel).route
      let done : Bool := !(q ++ [m]).any (fun x => cmdChannel x = c) && !ds.any (fun x => x.channel = c) && src = (chan s c).route
      exec .readyAssert s = .next (kick { s with
        lineup.ready := true
        lineup.readyTimer := none
        lineup.queue := q ++ [m]
        lineup.deferred := ds
        lineup.inTransfer := true
        lineup.map := s.lineup.map.set (c - 1)
          { chan s c with accepted := some src, applied := if done then true else (chan s c).applied } })))
    ∧ (∀ c r, rampOf s c = some r → r.phase = .dwell → s.lineup.queue.length = 256 → 1 ≤ c → c ≤ 96 →
      (let v := if r.up then (chan s c).level + 1 else (chan s c).level - 1
      exec (.dwellTimerExpiry c) s = .next (kick { s with
        lineup.ramps := s.lineup.ramps.map
          (fun x => if x.channel = c then { x with phase := .command, step := v, left := 0 } else x)
        lineup.map := s.lineup.map.set (c - 1) { chan s c with applied := false }
        lineup.deferred := if s.lineup.deferred.contains ⟨c, true⟩ then s.lineup.deferred
          else s.lineup.deferred ++ [⟨c, true⟩] }))))
  ∧ (∀ (tag : Byte) (p : LoadChannelArgs) (s : State), Quiet s →
    (let refused (c : StatusCode) : Prop := Answers (.loadChannel tag p) s s tag (.loadChannel p) c []
    (s.link.op = .run → refused .state)
    ∧ (s.link.op = .loading → p.channel < 1 ∨ 96 < p.channel ∨ (63 < p.source ∧ p.source ≠ 255) ∨ (2 < p.cls ∧ p.cls < 16)
      ∨ 31 < p.cls ∨ 1 < p.eligible ∨ 2 < p.request → refused .badArg)))

/-- SET-CHANNEL that passes its checks writes the fields it names, recomputes class, route and tier table, hands the channel
on where its effective class or blackout set changed, and answers with the record; the applied flag is cleared where the route
changes (R7, R2 to R5). In LOADING no command is produced. In RUN a changed route joins the matrix queue where it has room,
takes the place of the channel's unsent ROUTE, or rests with the deferred one; with none of these the order is refused FULL
and writes nothing (R7, R10, R11). An eligible byte above 1 is refused BAD_ARG (the model's choice, log 18). -/
def Obligations.SetChannelWritesNamedFields : Prop :=
  ∀ (tag : Byte) (p : SetChannelArgs) (s : State), Quiet s → Sound s → Working s →
    (let c := p.channel
    let old := chan s c
    let b : Channel := { old with source := (p.source.bind sourceArg).getD old.source, cls := (p.cls.bind classArg).getD old.cls,
                                  zones := p.zones.getD old.zones, eligible := (p.eligible.bind flagArg).getD old.eligible }
    let r := routeOf s.schedule.active b
    let e : Channel := { b with eff := effOf b, route := r, applied := if r = old.route then old.applied else false }
    let m := s.lineup.map.set (c - 1) e
    let written : State := { taken tag (.setChannel p) s with lineup.map := m, lineup.table := tierTableOf m }
    let ok (t : State) : Prop := exec (.setChannel tag p) s = .next (kick (answer .ok
      (channelBytes c e (s.lineup.rampQueue.contains c))
      (if e.eff ≠ old.eff ∨ e.zones ≠ old.zones then rederiveServed t else t)))
    let put (l : List MatrixCmd) : List MatrixCmd := l.map (fun x => if isRouteOf c x then .route c r else x)
    let waits : Bool := (unsent s).any (isRouteOf c)
    (setChannelLegal p = false → Answers (.setChannel tag p) s s tag (.setChannel p) .badArg [])
    ∧ (setChannelLegal p = true →
      ((s.link.op = .loading ∨ r = old.route) → ok written)
      ∧ (s.link.op = .run → r ≠ old.route → waits = true → ok { written with
        lineup.queue := if s.lineup.inTransfer then s.lineup.queue.take 1 ++ put (s.lineup.queue.drop 1) else put s.lineup.queue })
      ∧ (s.link.op = .run → r ≠ old.route → waits = false → s.lineup.queue.length < 256 →
        ok (lineRun { written with lineup.queue := s.lineup.queue ++ [.route c r] }))
      ∧ (s.link.op = .run → r ≠ old.route → waits = false → s.lineup.deferred.contains ⟨c, false⟩ = true →
        s.lineup.queue.length = 256 → ok written)
      ∧ (s.link.op = .run → r ≠ old.route → waits = false → s.lineup.deferred.contains ⟨c, false⟩ = false →
        s.lineup.queue.length = 256 → Answers (.setChannel tag p) s s tag (.setChannel p) .full [])))

/-- CARRIER in LOADING acts by the table of R9: ON queues an OFF carrier to ramp up and takes back a waiting ramp down, OFF
the reverse, and any other request changes nothing (of a ramp under way, which LOADING never holds, nothing is said); the
reply is the record. CARRIER ON in RUN for an OFF channel, with a ramp place free, no channel waiting, no fault and room in
the queue, starts the ramp in its event: RAMP_UP, the first step's LEVEL joins the matrix queue, and the settle window opens
(R9, R17, R18). A channel outside 1 to 96 and a request other than the two are refused BAD_ARG (R9). -/
def Obligations.CarrierRequestsAct : Prop :=
  (∀ (tag : Byte) (c : Nat) (on : Bool) (s : State), Quiet s → Sound s → s.link.op = .loading → 1 ≤ c → c ≤ 96 →
    (let old := chan s c
    let req := if on then 0 else 1
    let put (k : Carrier) (q : List Nat) : State :=
      { s with lineup.map := s.lineup.map.set (c - 1) { old with carrier := k }, lineup.rampQueue := q }
    let joins (k : Carrier) : Prop :=
      Answers (.carrier tag c req) s (put k (s.lineup.rampQueue ++ [c])) tag (.carrier c req) .ok
        (channelBytes c { old with carrier := k } true)
    let leaves (k : Carrier) : Prop :=
      Answers (.carrier tag c req) s (put k (s.lineup.rampQueue.filter (· ≠ c))) tag (.carrier c req) .ok
        (channelBytes c { old with carrier := k } false)
    let stays : Prop := Answers (.carrier tag c req) s s tag (.carrier c req) .ok (channelRecord s c)
    match old.carrier, on with
    | .off, true => joins .waitUp
    | .on, false => joins .waitDown
    | .waitUp, false => leaves .off
    | .waitDown, true => leaves .on
    | .rampUp, false => True
    | .rampDown, true => True
    | _, _ => stays))
  ∧ (∀ (tag : Byte) (c : Nat) (s : State), Quiet s → Sound s → s.link.op = .run → 1 ≤ c → c ≤ 96 → (chan s c).carrier = .off →
    s.lineup.fault = false → s.lineup.rampQueue = [] → s.lineup.ramps.length < 2 → (∀ r ∈ s.lineup.ramps, r.channel ≠ c) →
    s.lineup.queue.length < 256 →
    (let e : Channel := { chan s c with carrier := .rampUp, applied := false }
    Answers (.carrier tag c 0) s
      (lineRun { s with
        lineup.map := s.lineup.map.set (c - 1) e
        lineup.ramps := s.lineup.ramps ++ [⟨c, true, .command, (chan s c).level + 1, 0⟩]
        lineup.queue := s.lineup.queue ++ [.level c ((chan s c).level + 1) true]
        lineup.settleOpen := true
        lineup.settleTimer := none }) tag (.carrier c 0) .ok (channelBytes c e false)))
  ∧ (∀ (tag : Byte) (c request : Nat) (s : State), Quiet s → Working s → c < 1 ∨ 96 < c ∨ 1 < request →
    Answers (.carrier tag c request) s s tag (.carrier c request) .badArg [])

/-- READY asserted in IDLE sends the head command in RUN, or does nothing with the queue empty; in BUSY it is the acceptance
of the head ROUTE, whose channel's applied flag it judges. READY falling starts the 500 ms timer while commands are queued
(R12, R13, R15). The line carries the three bytes of the command in transfer (R12, R192, 12.3). -/
def Obligations.ReadyLineMovesTheQueue : Prop :=
  ∀ s : State, Sound s → s.link.waiting = [] → s.lineup.fault = false →
    (s.lineup.queue = [] → s.lineup.inTransfer = false →
      exec .readyAssert s = .next (kick { s with lineup.ready := true, lineup.readyTimer := none }))
    ∧ (s.lineup.queue ≠ [] → s.lineup.inTransfer = false → s.link.op = .run →
      exec .readyAssert s
        = .next (kick { s with lineup.ready := true, lineup.readyTimer := none, lineup.inTransfer := true }))
    ∧ (∀ c src q, s.lineup.queue = .route c src :: q → s.lineup.inTransfer = true → s.lineup.deferred = [] → s.link.op = .run →
        1 ≤ c → c ≤ 96 →
      (let done : Bool := !q.any (fun m => cmdChannel m = c) && src = (chan s c).route
      exec .readyAssert s = .next (kick { s with
        lineup.ready := true, lineup.readyTimer := none, lineup.queue := q, lineup.inTransfer := !q.isEmpty
        lineup.map := s.lineup.map.set (c - 1)
          { chan s c with accepted := some src, applied := if done then true else (chan s c).applied } })))
    ∧ exec .readyFall s = .next (kick { s with
        lineup.ready := false
        lineup.readyTimer := if s.lineup.queue = [] then none else some (s.lineup.readyTimer.getD 500) })
    ∧ (s.lineup.inTransfer = false → matrixLine s = [])
    ∧ (∀ m q, s.lineup.queue = m :: q → s.lineup.inTransfer = true → matrixLine s = match m with
      | .route c none => [1, BitVec.ofNat 8 c, 0xFF]
      | .route c (some n) => [1, BitVec.ofNat 8 c, BitVec.ofNat 8 n]
      | .level c v _ => [2, BitVec.ofNat 8 c, BitVec.ofNat 8 v])

/-- The acceptance of a ramp step's LEVEL records the level; a ramp that has reached its end leaves the ramp set, with its
carrier ON or OFF and the settle timer started at 5 s, and any other dwells for RAMP_STEP (R12, R18, R21). The READY timer's
expiry puts the matrix line in FAULT with an urgent MATRIX_FAULT, and every command stays (R13); READY asserted then ends the
fault with MATRIX_READY: a ROUTE that was in transfer is dropped where a newer one for its channel waits behind it, which is a
departure, and any other head stays; the head is sent, where there is one, and waiting ramps start (R14, R10, R11, R17, R20).
The dwell's expiry issues the next step's LEVEL (R18), and the settle timer's closes the window (R21). The kind in
MATRIX_FAULT is numbered from 0 (log 20, DEDUCED). -/
def Obligations.RampStepsAndMatrixTimers : Prop :=
  (∀ (c v : Nat) (r : Ramp) (s : State), Sound s → s.link.waiting = [] → s.link.op = .run → s.lineup.fault = false →
    s.lineup.inTransfer = true → s.lineup.deferred = [] → s.lineup.queue = [.level c v true] → s.lineup.ramps = [r] →
    r.channel = c → s.lineup.rampQueue = [] → 1 ≤ c → c ≤ 96 →
    (let e (k : Carrier) : Channel :=
      { chan s c with level := v, carrier := k, applied := (chan s c).applied || (chan s c).accepted = some (chan s c).route }
    let ends (k : Carrier) : Prop :=
      exec .readyAssert s = .next (kick { s with
        lineup.ready := true, lineup.readyTimer := none, lineup.queue := [], lineup.inTransfer := false, lineup.ramps := []
        lineup.settleTimer := some 5000, lineup.map := s.lineup.map.set (c - 1) (e k) })
    (r.up = true → v = 8 → ends .on) ∧ (r.up = false → v = 0 → ends .off)
    ∧ ((r.up = true ∧ v ≠ 8) ∨ (r.up = false ∧ v ≠ 0) →
      exec .readyAssert s = .next (kick { s with
        lineup.ready := true, lineup.readyTimer := none, lineup.queue := [], lineup.inTransfer := false
        lineup.ramps := [{ r with phase := .dwell, left := s.params.rampStep }]
        lineup.map := s.lineup.map.set (c - 1) (e (chan s c).carrier) }))))
  ∧ (∀ s : State, Sound s → s.link.waiting = [] →
    (∀ n m q, s.lineup.readyTimer = some n → s.lineup.queue = m :: q →
      exec .readyTimerExpiry s
        = .next (kick (notice nkMatrixFault true
            (u16 (q.length + 1) ++ u16 s.lineup.deferred.length ++ u8 (cmdChannel m) ++ u8 (cmdKind m))
            { s with lineup.fault := true, lineup.readyTimer := none })))
    ∧ (∀ c v st q, s.lineup.fault = true → s.link.op = .run → s.lineup.queue = .level c v st :: q → s.lineup.rampQueue = [] →
      exec .readyAssert s
        = .next (kick (lineRun (notice nkMatrixReady false []
            { s with lineup.ready := true, lineup.readyTimer := none, lineup.fault := false, lineup.inTransfer := false }))))
    ∧ (s.lineup.fault = true → s.link.op = .run →
      (let mended (q : List MatrixCmd) (d : List Deferred) : State := notice nkMatrixReady false [] { s with
        lineup.ready := true, lineup.readyTimer := none, lineup.fault := false, lineup.inTransfer := false, lineup.queue := q
        lineup.deferred := d }
      let resumes (t : State) : Prop := exec .readyAssert s = .next (kick (startRamps t))
      (s.lineup.queue = [] → resumes (mended [] s.lineup.deferred))
      ∧ (∀ c v st q, s.lineup.queue = .level c v st :: q → resumes (lineRun (mended s.lineup.queue s.lineup.deferred)))
      ∧ (∀ c src q, s.lineup.queue = .route c src :: q →
        (s.lineup.inTransfer = false ∨ q.any (isRouteOf c) = false → resumes (lineRun (mended s.lineup.queue s.lineup.deferred)))
        ∧ (s.lineup.inTransfer = true → q.any (isRouteOf c) = true →
          (s.lineup.deferred = [] → resumes (lineRun (mended q [])))
          ∧ (∀ d ds, s.lineup.deferred = d :: ds →
            (let m : MatrixCmd := if d.isLevel then .level d.channel ((rampOf s d.channel).elim (chan s d.channel).level (·.step)) true
              else .route d.channel (chan s d.channel).route
            resumes (lineRun (mended (q ++ [m]) ds))))))))
    ∧ (∀ c r, rampOf s c = some r → r.phase = .dwell → s.lineup.fault = false → s.lineup.queue.length < 256 → 1 ≤ c → c ≤ 96 →
      (let v := if r.up then (chan s c).level + 1 else (chan s c).level - 1
      exec (.dwellTimerExpiry c) s = .next (kick (lineRun { s with
        lineup.ramps := s.lineup.ramps.map
          (fun x => if x.channel = c then { x with phase := .command, step := v, left := 0 } else x)
        lineup.map := s.lineup.map.set (c - 1) { chan s c with applied := false }
        lineup.queue := s.lineup.queue ++ [.level c v true] }))))
    ∧ (∀ n, s.lineup.settleTimer = some n →
      exec .settleTimerExpiry s = .next (kick { s with lineup.settleOpen := false, lineup.settleTimer := none })))

/-! ## Chapter 2: the schedule and the alert -/

/-- SCHEDULE-ADD: an entry not due is queued at the place of R24 under the next id, in place of an equal one, and a queue of
128 refuses it FULL; a due one without HALT, with step mode off, is not queued but applied in its event, whether or not the
queue has room, and the channel handed on where its class or blackout set changed, which changes the line-up and the ports
alone, and answered as applied; a due HALT entry is queued and turns step mode on with SCHEDULE_HALT, or is refused FULL (R23,
R24, R25, R28). That SCHEDULE_HALT goes before the reply on a free outbound line is the model's choice (log 52). A channel,
change kind or value that R23 does not list is refused BAD_ARG, and so is a HALT byte above 1 (the model's choice, log 18). -/
def Obligations.ScheduleAddQueuesOrApplies : Prop :=
  (∀ (tag : Byte) (p : ScheduleArgs) (k : Change) (halt : Bool) (s : State), Quiet s → Working s → 1 ≤ p.channel →
    p.channel ≤ 96 → changeArg p.kind p.value = some k → flagArg p.halt = some halt →
    (let e : Entry := ⟨s.schedule.nextId, p.due, p.channel, k, halt⟩
    let same (x : Entry) : Bool := x.channel = e.channel && changeKind x.change = changeKind k && x.due = e.due
    let rest := s.schedule.entries.filter (fun x => !same x)
    let entries := rest.takeWhile (fun x => decide (x.due ≤ e.due)) ++ e :: rest.dropWhile (fun x => decide (x.due ≤ e.due))
    let queued : State :=
      { s with schedule.entries := entries, schedule.nextId := nextFreeId 129 entries ((e.id + 1) % 65536) }
    let full : Prop := s.schedule.entries.any same = false ∧ 128 ≤ s.schedule.entries.length
    let waits : Prop := minuteOf s < p.due ∨ s.schedule.stepMode = true
    (waits → ¬ full → Answers (.scheduleAdd tag p) s queued tag (.scheduleAdd p) .ok (u16 e.id ++ u8 0))
    ∧ (waits → full → Answers (.scheduleAdd tag p) s s tag (.scheduleAdd p) .full [])
    ∧ (p.due ≤ minuteOf s → s.schedule.stepMode = false → halt = true → ¬ full →
      Answers (.scheduleAdd tag p) s (haltNotice e { queued with schedule.stepMode := true }) tag (.scheduleAdd p) .ok
        (u16 e.id ++ u8 2))
    ∧ (p.due ≤ minuteOf s → s.schedule.stepMode = false → halt = true → full →
      Answers (.scheduleAdd tag p) s s tag (.scheduleAdd p) .full [])
    ∧ (p.due ≤ minuteOf s → s.schedule.stepMode = false → halt = false →
      (let numbered : State := { s with schedule.nextId := nextFreeId 129 s.schedule.entries ((e.id + 1) % 65536) }
      exec (.scheduleAdd tag p) s = .next (kick (answer .ok (u16 e.id ++ u8 1)
        (handOff (applyChange p.channel k (taken tag (.scheduleAdd p) numbered)))))
      ∧ ∃ (l : Lineup) (pl : Plant), handOff (applyChange p.channel k (taken tag (.scheduleAdd p) numbered))
        = taken tag (.scheduleAdd p) { numbered with lineup := l, plant := pl }))))
  ∧ (∀ (tag : Byte) (p : ScheduleArgs) (s : State), Quiet s → Working s →
    p.channel < 1 ∨ 96 < p.channel ∨ 3 < p.kind ∨ (p.kind = 0 ∧ 63 < p.value ∧ p.value ≠ 255)
      ∨ (p.kind = 1 ∧ ((2 < p.value ∧ p.value < 16) ∨ 31 < p.value)) ∨ (p.kind = 2 ∧ 255 < p.value)
      ∨ (p.kind = 3 ∧ 1 < p.value) ∨ 1 < p.halt →
    Answers (.scheduleAdd tag p) s s tag (.scheduleAdd p) .badArg [])

/-- SCHEDULE-CANCEL refuses an id that no entry holds, and removes the entry that holds it and changes nothing else (R32). -/
def Obligations.ScheduleCancelRemovesTheEntry : Prop :=
  ∀ (tag : Byte) (id : Nat) (s : State), Quiet s → Working s →
    ((∀ e ∈ s.schedule.entries, e.id ≠ id) → Answers (.scheduleCancel tag id) s s tag (.scheduleCancel id) .badArg [])
    ∧ (∀ e l₁ l₂, s.schedule.entries = l₁ ++ e :: l₂ → e.id = id → (∀ x ∈ l₁ ++ l₂, x.id ≠ id) →
      Answers (.scheduleCancel tag id) s { s with schedule.entries := l₁ ++ l₂ } tag (.scheduleCancel id) .ok
        (u32 e.due ++ u8 e.channel ++ u8 (changeKind e.change)))

/-- SCHEDULE-LIST answers with the length, step mode, the due entries and up to 32 entries from the position, and changes
nothing (R33). The step mode flag is sent as 1 for on (the model's choice, log 72). -/
def Obligations.ScheduleListReports : Prop :=
  ∀ (tag : Byte) (start : Nat) (s : State), Quiet s → Working s →
    (let due := s.schedule.entries.filter (fun e => decide (e.due ≤ minuteOf s))
    let page := (s.schedule.entries.drop start).take 32
    Answers (.scheduleList tag start) s s tag (.scheduleList start) .ok
      (u16 s.schedule.entries.length ++ flag s.schedule.stepMode ++ u16 due.length
        ++ (u8 page.length ++ page.flatMap (fun e =>
          u16 e.id ++ u32 e.due ++ u8 e.channel ++ u8 (changeKind e.change) ++ u8 (changeValue e.change) ++ flag e.halt)))
    ∧ (s.schedule.entries.length ≤ start → page = []))

/-- STEP is refused STATE with step mode off, answered NOTHING_DUE where the head is not due, and else applies the head alone
and hands the channel on where its class or blackout set changed (R31, R5). STEP-MODE ON sets the flag; OFF clears it, applies
the due entries in queue order whatever their HALT flags, and hands their channels on together; any other request is refused
BAD_ARG (R30, R26, R5). An applied ROUTE entry writes the base source of its channel, a CLASS entry the base class and a
BLACKOUT entry the blackout zone set, and no other base field; the class, the route and the tier table follow, and in RUN a
changed route joins the matrix queue, takes the place of the channel's unsent ROUTE, or is deferred, once; a CARRIER entry acts
as the CARRIER order with its request (R26, R8, R2 to R4, R10, R11). The flag in the reply is 1 for on (the model's choice, log
72). -/
def Obligations.StepAppliesTheHead : Prop :=
  (∀ (tag : Byte) (s : State), Quiet s → Sound s → Working s →
    (s.schedule.stepMode = false → Answers (.step tag) s s tag .step .state [])
    ∧ (s.schedule.stepMode = true → (∀ e es, s.schedule.entries = e :: es → minuteOf s < e.due) →
      Answers (.step tag) s s tag .step .nothingDue [])
    ∧ (∀ e es, s.schedule.stepMode = true → s.schedule.entries = e :: es → e.due ≤ minuteOf s → ∃ (l : Lineup) (pl : Plant),
      handOff (applyChange e.channel e.change (taken tag .step { s with schedule.entries := es }))
        = taken tag .step { s with schedule.entries := es, lineup := l, plant := pl }
      ∧ Answers (.step tag) s { s with schedule.entries := es, lineup := l, plant := pl } tag .step .ok
        (u16 e.id ++ u32 e.due ++ u8 e.channel ++ u8 (changeKind e.change)
          ++ u16 (es.filter (fun x => decide (x.due ≤ minuteOf s))).length))
    ∧ Answers (.stepMode tag 0) s { s with schedule.stepMode := true } tag (.stepMode 0) .ok ([1] ++ u16 0)
    ∧ (s.schedule.stepMode = false → Answers (.stepMode tag 1) s s tag (.stepMode 1) .ok ([0] ++ u16 0))
    ∧ ((∀ e ∈ s.schedule.entries, minuteOf s < e.due) →
      Answers (.stepMode tag 1) s { s with schedule.stepMode := false } tag (.stepMode 1) .ok ([0] ++ u16 0))
    ∧ (∀ due rest, s.schedule.stepMode = true → s.schedule.entries = due ++ rest → (∀ e ∈ due, e.due ≤ minuteOf s) →
      (∀ e ∈ rest, minuteOf s < e.due) → exec (.stepMode tag 1) s = .next (kick (answer .ok ([0] ++ u16 due.length)
        (handOff (due.foldl (fun t e => applyChange e.channel e.change { t with schedule.entries := t.schedule.entries.drop 1 })
          (taken tag (.stepMode 1) { s with schedule.stepMode := false }))))))
    ∧ (∀ request, 1 < request → Answers (.stepMode tag request) s s tag (.stepMode request) .badArg []))
  ∧ (∀ (c : Nat) (k : Change) (handed : Bool) (s : State), SoundAt handed s → 1 ≤ c → c ≤ 96 → (∀ on, k ≠ .carrier on) →
    (let old := chan s c
    let b : Channel := match k with
      | .route v => { old with source := v }
      | .cls v => { old with cls := v }
      | .blackout z => { old with zones := z }
      | .carrier _ => old
    let r := routeOf s.schedule.active b
    let e : Channel := { b with eff := effOf b, route := r, applied := if r = old.route then old.applied else false }
    let m := s.lineup.map.set (c - 1) e
    let written : State := { s with
      lineup.map := m
      lineup.table := tierTableOf m
      lineup.changed := handed || decide (e.eff ≠ old.eff ∨ e.zones ≠ old.zones) }
    let put (l : List MatrixCmd) : List MatrixCmd := l.map (fun x => if isRouteOf c x then .route c r else x)
    let waits : Bool := (unsent s).any (isRouteOf c)
    (s.link.op ≠ .run ∨ r = old.route → applyChange c k s = written)
    ∧ (s.link.op = .run → r ≠ old.route → waits = true → applyChange c k s = { written with
        lineup.queue := if s.lineup.inTransfer then s.lineup.queue.take 1 ++ put (s.lineup.queue.drop 1) else put s.lineup.queue })
    ∧ (s.link.op = .run → r ≠ old.route → waits = false → s.lineup.queue.length < 256 →
      applyChange c k s = lineRun { written with lineup.queue := s.lineup.queue ++ [.route c r] })
    ∧ (s.link.op = .run → r ≠ old.route → waits = false → s.lineup.queue.length = 256 → applyChange c k s = { written with
        lineup.deferred := if s.lineup.deferred.contains ⟨c, false⟩ then s.lineup.deferred else s.lineup.deferred ++ [⟨c, false⟩] })))
  ∧ (∀ (tag : Byte) (c : Nat) (on : Bool) (s : State), Quiet s → Working s → 1 ≤ c → c ≤ 96 →
    (let request := if on then 0 else 1
    let u := applyChange c (.carrier on) (taken tag (.carrier c request) s)
    exec (.carrier tag c request) s = .next (kick (answer .ok (channelRecord u c) u))))

/-- With the alert ACTIVE and staying so: ALERT-START makes the host claim held with its duration clamped to 120, and
ALERT-END makes it absent; each change of a claim queues one urgent ALERT_STATE, a claim that stands so already queues none,
and no route changes (R34, R35, R39). Where an order in RUN makes the alert ACTIVE or ends it, every channel's displayed route
becomes 64 where it is eligible, or its base source again, and with room in the matrix queue and no ROUTE of it unsent each
channel whose route changed clears its applied flag and queues one ROUTE, in ascending order (R3, R10, R38). That ALERT_STATE
goes before the reply on a free outbound line is the model's choice (log 52), and so are the bytes of the alert state in both
(log 20). -/
def Obligations.AlertOrdersChangeTheHostClaim : Prop :=
  (∀ (tag : Byte) (d : Nat) (s : State), Quiet s → Working s → s.schedule.active = true →
    (let stop : ClaimEnd := if d = 0 then .untilEnd else .at (minuteOf s + if 120 < d then 120 else d)
    let claimed : State := { s with schedule.hostClaim := some stop }
    (s.schedule.hostClaim ≠ some stop → Answers (.alertStart tag d) s
      (notice nkAlertState true (alertBytes claimed ++ u8 0 ++ opt 4 (s.time.clock.map (·.1))) claimed)
      tag (.alertStart d) .ok (alertBytes claimed))
    ∧ (s.schedule.hostClaim = some stop → Answers (.alertStart tag d) s s tag (.alertStart d) .ok (alertBytes s)))
    ∧ (s.schedule.hostClaim = none → Answers (.alertEnd tag) s s tag .alertEnd .ok (alertBytes s))
    ∧ (s.schedule.hostClaim ≠ none → s.schedule.lineClaim = true →
      (let freed : State := { s with schedule.hostClaim := none }
      Answers (.alertEnd tag) s (notice nkAlertState true (alertBytes freed ++ u8 1 ++ opt 4 (s.time.clock.map (·.1))) freed)
        tag .alertEnd .ok (alertBytes freed))))
  ∧ (∀ (tag : Byte) (d : Nat) (on : Bool) (s : State), Quiet s → Sound s → s.link.op = .run → s.schedule.active = !on →
    s.schedule.hostClaim.isSome = !on → s.schedule.lineClaim = false →
    (let route (c : Channel) : Option Nat := if on && c.eligible then some 64 else c.source
    let moved := ((List.range 96).map (· + 1)).filter (fun c => decide (route (chan s c) ≠ (chan s c).route))
    let stop : ClaimEnd := if d = 0 then .untilEnd else .at (minuteOf s + if 120 < d then 120 else d)
    let u : State := { s with
      schedule.hostClaim := if on then some stop else none
      schedule.active := on
      lineup.map := s.lineup.map.map (fun c => if route c = c.route then c else { c with route := route c, applied := false })
      lineup.queue := s.lineup.queue ++ moved.map (fun c => .route c (route (chan s c))) }
    let t := if moved = [] then u else lineRun u
    let told := notice nkAlertState true (alertBytes t ++ u8 (if on then 0 else 1) ++ opt 4 (s.time.clock.map (·.1))) t
    (∀ c ∈ moved, (unsent s).any (isRouteOf c) = false) → s.lineup.queue.length + moved.length ≤ 256 →
    (on = true → Answers (.alertStart tag d) s told tag (.alertStart d) .ok (alertBytes told))
    ∧ (on = false → Answers (.alertEnd tag) s told tag .alertEnd .ok (alertBytes told))))

/-- An assertion of the ALERT input outside STARTING makes the line claim held and a deassertion not held, each queueing an
urgent ALERT_STATE, and with the host claim held nothing else changes; in STARTING, or where the claim stands so already,
nothing but the input changes (R37, R39). When the alert becomes ACTIVE in LOADING every eligible channel's displayed route
becomes 64, and when it ends its base source as it then stands; a changed route clears the applied flag, and no matrix command
is produced (R38, R3). The bytes of the alert state in ALERT_STATE are the model's choice (log 20). -/
def Obligations.AlertInputMovesClaimAndRoutes : Prop :=
  (∀ (level : Bool) (s : State), s.link.waiting = [] →
    (let i : Instr := if level then .alertAssert else .alertDeassert
    ((s.link.op = .starting ∨ s.schedule.lineClaim = level) →
      exec i s = .next (kick { s with schedule.alertInput := level }))
    ∧ (s.link.op ≠ .starting → s.schedule.lineClaim ≠ level → s.schedule.hostClaim ≠ none → s.schedule.active = true →
      (let u : State := { s with schedule.alertInput := level, schedule.lineClaim := level }
      exec i s = .next (kick (notice nkAlertState true
        (alertBytes u ++ u8 (if level then 3 else 4) ++ opt 4 (s.time.clock.map (·.1))) u))))))
  ∧ (∀ (level : Bool) (s : State), Sound s → s.link.waiting = [] → s.link.op = .loading → s.schedule.hostClaim = none →
    s.schedule.active = s.schedule.lineClaim → s.schedule.lineClaim ≠ level →
    (let moved (c : Channel) : Channel :=
      if c.route = (if level && c.eligible then some 64 else c.source) then c
      else { c with route := if level && c.eligible then some 64 else c.source, applied := false }
    let u : State := { s with schedule.alertInput := level, schedule.lineClaim := level, schedule.active := level,
                              lineup.map := s.lineup.map.map moved }
    exec (if level then .alertAssert else .alertDeassert) s = .next (kick (notice nkAlertState true
      (alertBytes u ++ u8 (if level then 3 else 4) ++ opt 4 (s.time.clock.map (·.1))) u))))

/-- GO in LOADING: a segment whose chain fails, then a named head that does not serve, is answered BAD_ARG with the first such
item; with no bank OPEN, STORE_FAULT stands in the way, and so does the want of a FREE bank (R187). Else the controller enters
RUN: a period is opened in a FREE bank, A first, unless one is OPEN; every port of every loaded tap is forcibly refreshed, in
ascending tap index and port number, those that become PENDING at the tail of the REFRESH queue (R60); and the line is IDLE
(R188). With an empty matrix queue it queues one ROUTE with the displayed route and one LEVEL with the carrier level for each
channel, ascending, clears every applied flag, sends the head where READY is asserted, or starts the READY timer, and then
starts the ramps that wait (R16, R12, R13, R17). The count of ports refreshed in the reply is four for each tap (the model's
choice, log 38). A cycle of eight segments is answered CYCLE (the model's choice, log 70). -/
def Obligations.GoEntersRun : Prop :=
  ∀ (tag : Byte) (s : State), Quiet s → s.link.op = .loading →
    (let segs := s.telemetry.segments
    let legal (g : Nat × Segment) : Prop :=
      ∀ h, g.2.head = some h → ∃ x, tget s.telemetry.transponders h = some x ∧ x.enabled = true ∧ x.segment = g.1
    let queued : Lineup := { s.lineup with
      queue := (List.range 96).flatMap (fun k => [.route (k + 1) (chan s (k + 1)).route, .level (k + 1) (chan s (k + 1)).level false])
      map := s.lineup.map.map (fun c => { c with applied := false })
      inTransfer := s.lineup.ready
      readyTimer := if s.lineup.ready then none else some (s.lineup.readyTimer.getD 500) }
    let l : Lineup := (goLineup { s with link.op := .run }).lineup
    let p : Plant := { (forceTaps (tapIndices s) s).plant with line := .idle }
    let joins (q : Nat × Nat) : Prop :=
      (∃ r, portOf s q = some r ∧ (r.sync = .inSync ∨ r.sync = .dropped)) ∧ parkHoldsAt s q.1 = false
    let runs (u : State) (body : List Byte) : Prop :=
      Answers (.go tag) s { u with link.op := .run, lineup := l, plant := p } tag .go .ok (body ++ u16 (4 * s.plant.taps.length))
    (∀ l₁ g l₂ f, segs = l₁ ++ g :: l₂ → (∀ x ∈ l₁, chainBad segs x.1 = none) → chainBad segs g.1 = some f →
      Answers (.go tag) s s tag .go .badArg (u8 g.1 ++ u8 (if f = .cycle then 0 else 1)))
    ∧ (∀ l₁ g l₂ h, segs = l₁ ++ g :: l₂ → (∀ x ∈ segs, chainBad segs x.1 = none) → (∀ x ∈ l₁, legal x) → g.2.head = some h →
      ¬ legal g → Answers (.go tag) s s tag .go .badArg (u8 g.1 ++ u8 h))
    ∧ ((∀ x ∈ segs, chainBad segs x.1 = none ∧ legal x) →
      (∀ i, openBank s = some i → runs s (u8 (bankNum i) ++ u16 (seqOf (bank s i)) ++ [0]))
      ∧ (openBank s = none → s.store.fault = true → Answers (.go tag) s s tag .go .storeFault [])
      ∧ (openBank s = none → s.store.fault = false → s.store.a.state ≠ .free → s.store.b.state ≠ .free →
        Answers (.go tag) s s tag .go .busy [])
      ∧ (∀ i, openBank s = none → s.store.fault = false → (bank s i).state = .free → (i = .b → s.store.a.state ≠ .free) →
        (let other := bank s (otherBank i)
        let q := if other.state = .free ∨ other.state = .erasing then 1 else (seqOf other + 1) % 65536
        runs { s with
          store.minute := minuteOf s
          store.queue := s.store.queue ++ [.header i (.sequence q), .header i (.openMinute (minuteOf s)), .header i .opened]
          store.path := if s.store.path = .idle then .append else s.store.path }
          (u8 (bankNum i) ++ u16 q ++ [1]))))
    ∧ (Sound s → s.lineup.queue = [] → s.lineup.deferred = [] → s.lineup.inTransfer = false → s.lineup.fault = false →
      l = (startRamps { s with link.op := .run, lineup := queued }).lineup ∧ (s.lineup.rampQueue = [] → l = queued))
    ∧ (∀ q r, q.2 ≤ 3 → portOf s q = some r → portOf { s with plant := p } q = some (
        if r.sync = .inSync ∨ r.sync = .dropped then
          if parkHoldsAt s q.1 then { r with sync := .parked, cls := none, confirmed := none }
          else { r with sync := .pending, cls := some .refresh }
        else r))
    ∧ p = { s.plant with taps := p.taps, line := .idle, refresh := p.refresh }
    ∧ (∃ tail, p.refresh = s.plant.refresh ++ tail ∧ tail.Sublist (portsOf (tapIndices s)) ∧ tail.Nodup
      ∧ ∀ q, q ∈ tail ↔ joins q ∧ q.2 ≤ 3))

/-- With TIME_VALID clear the second does not pass; below 59 it advances by one; from 59 it passes to 0 and the minute
advances, each of the five takers takes that boundary once, in some order (R183; the order is the model's free value, log 10),
and the channels it changed are handed on together (R5). At the greatest minute the second passes without a boundary and
the minute stays (R183). When each of SECOND_TICK and MINUTE_BOUNDARY acts is read from R183 (log 13, DEDUCED). What the takers
do: due entries up to a HALT entry leave the schedule in step mode off (R27, R28); the host claim lapses at its end (R36); a
MARK record joins the append queue at a multiple of 60 with a bank OPEN, and at a forward jump in RUN whatever the minute
(R153); every event DEFINED, ON_SALE or SHOWING is brought forward to the state its minutes give, in ascending slots, setting
its overlay as it becomes SHOWING and removing it as it ends, with one EVENT_STATE (R133, R136, R137); and from the minute
89,280 after the OPEN bank's open minute the period is closed, once, as CLOSE-PERIOD closes it, where the other bank is FREE
and none is CLOSING, or else OVERDUE is programmed and PERIOD_OVERDUE queued (R169). The bytes of the alert state in
ALERT_STATE are the model's choice (log 20). -/
def Obligations.ClockTicksAndTakersAct : Prop :=
  (∀ s : State, s.link.waiting = [] →
    (s.time.clock = none → exec .secondTick s = .next (kick s) ∧ exec .minuteBoundary s = .next (kick s))
    ∧ (∀ m n, s.time.clock = some (m, n) → n < 59 →
      exec .secondTick s = .next (kick { s with time.clock := some (m, n + 1) }) ∧ exec .minuteBoundary s = .next (kick s))
    ∧ (∀ m n, s.time.clock = some (m, n) → 59 ≤ n → m < 4294967295 → ∃ order : List (State → State),
      order.Perm [scheduleBoundary, eventBoundary, claimBoundary, markBoundary false, limitBoundary]
      ∧ ∀ i ∈ [Instr.secondTick, .minuteBoundary], exec i s = .next (kick (handOff
        (order.foldl (fun t take => take t) { s with time.clock := some (m + 1, 0), freeCount := s.freeCount + 1 }))))
    ∧ (∀ m n, s.time.clock = some (m, n) → 59 ≤ n → 4294967295 ≤ m →
      ∀ i ∈ [Instr.secondTick, .minuteBoundary], exec i s = .next (kick { s with time.clock := some (m, 0) })))
  ∧ (∀ s : State,
    (s.schedule.stepMode = true → scheduleBoundary s = s)
    ∧ (∀ e es, s.schedule.entries = e :: es → minuteOf s < e.due → scheduleBoundary s = s)
    ∧ (∀ e es, s.schedule.stepMode = false → s.schedule.entries = e :: es → e.due ≤ minuteOf s → e.halt = true →
      scheduleBoundary s = notice nkScheduleHalt false
        (u16 e.id ++ u32 e.due ++ u8 e.channel ++ u16 (((e :: es).filter (fun x => decide (x.due ≤ minuteOf s))).length))
        { s with schedule.stepMode := true })
    ∧ (∀ e es, s.schedule.stepMode = false → s.schedule.entries = e :: es → e.due ≤ minuteOf s → e.halt = false →
      ∃ (l : Lineup) (p : Plant), applyChange e.channel e.change { s with schedule.entries := es }
          = { s with schedule.entries := es, lineup := l, plant := p }
        ∧ scheduleBoundary s = scheduleBoundary { s with schedule.entries := es, lineup := l, plant := p })
    ∧ (∀ m, s.schedule.hostClaim = some (.at m) → minuteOf s < m → claimBoundary s = s)
    ∧ (∀ m, s.schedule.hostClaim = some (.at m) → m ≤ minuteOf s → s.schedule.lineClaim = true → s.schedule.active = true →
      (let freed : State := { s with schedule.hostClaim := none }
      claimBoundary s = notice nkAlertState true (alertBytes freed ++ u8 2 ++ opt 4 (s.time.clock.map (·.1))) freed))
    ∧ (minuteOf s % 60 ≠ 0 → markBoundary false s = s)
    ∧ (∀ i, minuteOf s % 60 = 0 → Working s → openBank s = some i → s.store.fault = false → 257 < freeSlots s →
      markBoundary false s = { s with
        store.minute := minuteOf s
        store.queue := s.store.queue ++ [.record (u8 5 ++ u32 (minuteOf s) ++ absent 26) .other]
        store.path := if s.store.path = .idle then .append else s.store.path })
    ∧ (s.link.op ≠ .run → markBoundary true s = markBoundary false s)
    ∧ (s.link.op = .run → s.store.fault = false → 257 < freeSlots s → markBoundary true s = { s with
        store.minute := minuteOf s
        store.queue := s.store.queue ++ [.record (u8 5 ++ u32 (minuteOf s) ++ absent 26) .other]
        store.path := if s.store.path = .idle then .append else s.store.path })
    ∧ (let m := minuteOf s
      let given (v : Event) : EventState :=
        if m < v.open_ then .defined else if m < v.start then .onSale else if m < v.stop then .showing else .ended
      let later (v : Event) : Bool :=
        match v.state, given v with
        | .defined, .onSale => true | .defined, .showing => true | .defined, .ended => true
        | .onSale, .showing => true | .onSale, .ended => true | .showing, .ended => true
        | _, _ => false
      let brought (t : State) (e : Nat) : State :=
        match eventOf t e with
        | none => t
        | some v =>
          if later v then
            let w : State := { t with events := t.events.set e (some { v with state := given v }) }
            let w := if given v = .showing then setOverlay v.channel (Fin.ofNat 16 e) w
              else if v.state = .showing then removeOverlay v.channel (Fin.ofNat 16 e) w else w
            notice nkEventState false (u8 e ++ u8 v.channel ++ u32 v.start ++ u32 v.stop ++ u8 (eventStateNum (some v.state))
              ++ u8 (eventStateNum (some (given v))) ++ [1] ++ u16 v.purchasers.length ++ opt 4 (s.time.clock.map (·.1))) w
          else t
      eventBoundary s = (List.range 16).foldl brought s)
    ∧ (∀ (c : Nat) (e : Fin 16), Sound s → 1 ≤ c → c ≤ 96 →
      (chan (setOverlay c e s) c).eff = .ppv e
      ∧ ((chan s c).overlay = some e → (chan (removeOverlay c e s) c).eff = .base (chan s c).cls)
      ∧ ((chan s c).overlay ≠ some e → removeOverlay c e s = s))
    ∧ (openBank s = none → limitBoundary s = s)
    ∧ (∀ k, openBank s = some k →
      (let m := minuteOf s
      let o := openMinuteOf (bank s k)
      let other := bank s (otherBank k)
      let free : Prop := other.state = .free ∧ s.store.a.state ≠ .closing ∧ s.store.b.state ≠ .closing
      let tested : Prop := s.link.op = .run ∧ s.engine.limitTaken = false ∧ s.engine.state ≠ .sequence ∧ s.store.fault = false
        ∧ hdr (bank s k) 7 ≠ 0xFF ∧ o + 89280 ≤ m
      let records := s.outage.records.filter (fun r => r.stop.isNone)
      let credit (r : Outage) : Bool :=
        if s.params.creditThreshold = 0 then decide (1 ≤ m - r.start) else decide (s.params.creditThreshold ≤ m - r.start)
      let portion (r : Outage) : StoreItem := .record (u8 4 ++ u32 m ++ u8 r.segment ++ u8 r.id ++ u32 r.start
        ++ u32 (max r.start o) ++ u32 m ++ flag (credit r) ++ absent 11) .other
      let segment (u : Subscriber) : Nat := match tapAt s u.tap with | none => 0 | some (_, t) => t.segment
      (¬ tested → limitBoundary s = s)
      ∧ (tested → free → records.length + 257 < freeSlots s → limitBoundary s = { s with
        store.minute := m
        store.queue := s.store.queue ++ records.map portion
          ++ [.record (u8 5 ++ u32 m ++ absent 26) .other, .header k (.closeMinute m), .header k .closing,
            .header (otherBank k) (.sequence ((seqOf (bank s k) + 1) % 65536)), .header (otherBank k) (.openMinute m),
            .header (otherBank k) .opened]
        store.path := if s.store.path = .idle then .append else s.store.path
        engine := { s.engine with
          state := .sequence, bank := k, minute := m, rolls := s.subs.map (fun x => ⟨x.1, x.2.account, x.2.state, x.2.tiers, segment x.2⟩)
          resume := 0, writing := none, statements := 0, lines := 0, omitted := 0, control := 0, truncated := false
          closeDone := false, limitTaken := true } })
      ∧ (tested → ¬ free → limitBoundary s = notice nkPeriodOverdue true
        (u8 (bankNum k) ++ u16 (seqOf (bank s k)) ++ u32 o ++ u32 (o + 89280) ++ u32 m ++ u8 (bankStateNum other.state)) { s with
          store.queue := s.store.queue ++ [.header k .overdue]
          store.path := if s.store.path = .idle then .append else s.store.path
          engine.limitTaken := true }))))

/-- The recovery scan of a blank store ends STARTING: both banks are FREE, the lock stands as the identity area gives it, the
state becomes UNSET, and START is queued with the reset cause, the cold-start flag, the banks, the lock, the head-end id and
the fault flag (R155, R162, R190). The scan's walk of a journal ends at the first wholly erased slot, which becomes the append
point; with no torn slot before it, nothing else changes (R156). The cold-start flag is sent as 1 for set (the model's choice,
log 72), and an erased sequence as its bytes read (the model's choice, log 60). -/
def Obligations.RecoveryScanReadsTheStore : Prop :=
  (∀ (voids : List Byte) (s : State), s.link.waiting = [] → s.link.op = .starting → s.store.scan = .reading →
    s.store.a.cells = [] → s.store.b.cells = [] → s.store.queue = [] → s.store.path = .idle → s.engine.state = .idle →
    s.schedule.alertInput = false → s.store.lowMark = false →
    (let d := s.store.identity
    let locked : Bool := d.headId ≠ 0xFFFFFFFF && d.lockA = d.headId && d.lockB = ~~~ d.headId
    exec (.recoveryScanEnd voids) s = .next (kick (notice nkStart true
      (u8 (causeNum s.time.cause) ++ flag s.time.coldStart ++ [0, 0xFF, 0xFF, 0, 0xFF, 0xFF] ++ flag locked
        ++ u32 d.headId.toNat ++ flag s.store.fault)
      { s with
        link.op := .unset
        store.lock := if locked then .effective else .none
        store.a.state := .free
        store.b.state := .free
        store.scan := .ended
        engine.tariff := List.replicate 16 0 }))))
  ∧ (∀ (i : BankId) (k : Nat) (voids : List Byte) (s : State), 1 ≤ k → k ≤ 16383 →
    (∀ j, 1 ≤ j → j < k → slotState (bank s i) j ≠ 0xFF) → slotErased (bank s i) k = true →
    walkJournal i voids s = (setBank s i { bank s i with append := k }, voids))

/-! ## Chapters 3 and 8: subscribers and events -/

/-- The six orders that write the journal are checked in the order of R44, R138 and R141; the first check that fails gives the
reply, and a refused order changes nothing. With no bank OPEN and no opening waiting there is no free slot (the model's choice,
log 77). -/
def Obligations.JournalOrdersAreChecked : Prop :=
  ∀ (i : Instr) (tag : Byte) (o : Order) (s : State), i.order = some (tag, o) → Quiet s → s.link.op = .run →
    (match o with
      | .bind _ | .unbind _ | .setState _ _ | .setTiers _ _ | .purchase _ _ | .eventCancel _ => True
      | _ => False) →
    (let refused (c : StatusCode) : Prop := Answers i s s tag o c []
    let bound (slot : Nat) : Prop := tget s.subs slot ≠ none
    let named (slot : Nat) : Prop := (2047 < slot → refused .badArg) ∧ (slot ≤ 2047 → ¬ bound slot → refused .state)
    (s.store.fault = true → refused .storeFault)
    ∧ (s.store.fault = false → freeSlots s ≤ 256 → refused .journalFull)
    ∧ (s.store.fault = false → 256 < freeSlots s →
      match o with
      | .bind p =>
        let portTaken : Prop := ∃ j t r, tapAt s p.tap = some (j, t) ∧ t.ports[p.port]? = some r ∧ r.slot ≠ none
        let accountTaken : Prop := ∃ x ∈ s.subs, x.2.account = p.account
        (2047 < p.slot → refused .badArg)
        ∧ (p.slot ≤ 2047 → bound p.slot ∨ portTaken ∨ accountTaken → refused .state)
        ∧ (p.slot ≤ 2047 → ¬ bound p.slot → ¬ portTaken → ¬ accountTaken →
          tapAt s p.tap = none ∨ 3 < p.port ∨ p.account = 0 ∨ p.state = 0 ∨ 3 < p.state → refused .badArg)
      | .unbind slot => named slot
      | .setState slot v => named slot ∧ (slot ≤ 2047 → bound slot → v = 0 ∨ 3 < v → refused .badArg)
      | .setTiers slot _ => named slot
      | .eventCancel e =>
        (15 < e → refused .badArg)
        ∧ (e ≤ 15 → (∀ v, eventOf s e = some v → v.state ≠ .onSale ∧ v.state ≠ .showing) → refused .state)
      | .purchase slot e =>
        (2047 < slot ∨ 15 < e → refused .badArg)
        ∧ (slot ≤ 2047 → e ≤ 15 →
          ((∀ u, tget s.subs slot = some u → u.state ≠ .active) → refused .state)
          ∧ (∀ u, tget s.subs slot = some u → u.state = .active →
            ((∀ v, eventOf s e = some v → (v.state ≠ .onSale ∧ v.state ≠ .showing) ∨ v.close ≤ minuteOf s) → refused .window)
            ∧ (∀ v, eventOf s e = some v → v.state = .onSale ∨ v.state = .showing → minuteOf s < v.close →
              (u.account ∈ v.purchasers → refused .state)
              ∧ (u.account ∉ v.purchasers → 2048 ≤ v.purchasers.length → refused .full)
              ∧ (u.account ∉ v.purchasers → v.purchasers.length < 2048 → u.limit < spendOf s u.account + v.price →
                refused .limit))))
      | _ => True))

/-- An order that passes those checks and would change something puts one record, stamped with the current minute, at the tail
of the append queue, and is in flight until the store reports it (R43, R45 to R47, R139, R141). A SET-STATE or SET-TIERS that
would change nothing is answered OK at once. That answer is the whole matter of QUERY-SUB (the model's choice, log 74). -/
def Obligations.JournalOrdersAwaitTheirRecord : Prop :=
  ∀ (i : Instr) (tag : Byte) (o : Order) (s : State), i.order = some (tag, o) → Quiet s → s.link.op = .run →
    s.store.fault = false → 256 < freeSlots s →
    (let awaits (kind : Nat) (fields : List Byte) : Prop :=
      Awaits i s (lowCheck { s with
        store.minute := minuteOf s
        store.queue := s.store.queue ++ [.record (recordBody kind (minuteOf s) fields) .order]
        store.path := if s.store.path = .idle then .append else s.store.path }) tag o
    let service (slot account state : Nat) (tiers : TierSet) (t : Tap) : Prop :=
      awaits 1 (u32 account ++ u16 slot ++ u8 state ++ u16 tiers.toNat ++ u8 t.segment)
    match o with
    | .bind p => ∀ j t r, p.slot ≤ 2047 → tget s.subs p.slot = none → tapAt s p.tap = some (j, t) →
        t.ports[p.port]? = some r → r.slot = none → (∀ x ∈ s.subs, x.2.account ≠ p.account) → p.port ≤ 3 → p.account ≠ 0 →
        1 ≤ p.state → p.state ≤ 3 → service p.slot p.account p.state p.tiers t
    | .unbind slot => ∀ u j t, slot ≤ 2047 → tget s.subs slot = some u → tapAt s u.tap = some (j, t) →
        service slot u.account 0 0 t
    | .setState slot v => ∀ u j t, slot ≤ 2047 → tget s.subs slot = some u → tapAt s u.tap = some (j, t) → 1 ≤ v → v ≤ 3 →
        (subStateNum u.state ≠ v → service slot u.account v u.tiers t)
        ∧ (subStateNum u.state = v → Answers i s s tag o .ok (subBytes s slot))
    | .setTiers slot tiers => ∀ u j t, slot ≤ 2047 → tget s.subs slot = some u → tapAt s u.tap = some (j, t) →
        (u.tiers ≠ tiers → service slot u.account (subStateNum u.state) tiers t)
        ∧ (u.tiers = tiers → Answers i s s tag o .ok (subBytes s slot))
    | .eventCancel e => ∀ v, e ≤ 15 → eventOf s e = some v → v.state = .onSale ∨ v.state = .showing →
        awaits 3 (u8 e ++ u32 v.start)
    | .purchase slot e => ∀ u v, slot ≤ 2047 → e ≤ 15 → tget s.subs slot = some u → u.state = .active → eventOf s e = some v →
        v.state = .onSale ∨ v.state = .showing → minuteOf s < v.close → u.account ∉ v.purchasers →
        v.purchasers.length < 2048 → spendOf s u.account + v.price ≤ u.limit →
        awaits 2 (u32 u.account ++ u8 e ++ u32 v.start ++ u32 v.stop ++ u16 v.price)
    | _ => True)

/-- The commit of a host order's record changes what the order names, re-derives the slot's port in class URGENT, and answers
OK (R43, R45 to R47, R139, R141); the record stands in the journal. A cancelled event that was SHOWING gives up its overlay,
and the channels it changed are handed on once (R5). The event record in the reply of EVENT-CANCEL is the model's choice (log
51), and so are EVENT_STATE before the reply on a free outbound line (log 52), the port as it stands before the choice of work
(log 42), and the whole matter of QUERY-SUB in the reply (log 74). -/
def Obligations.RecordCommitsCompleteTheirOrders : Prop :=
  ∀ (tag : Byte) (o : Order) (k : BankId) (body voids : List Byte) (s : State), s.link.waiting = [] →
    s.link.inFlight = some (tagged tag o) → s.store.path = .append → s.store.queue = [.record body .order] →
    openBank s = some k → body.length = 31 → (bank s k).append < 16383 → slotErased (bank s k) (bank s k).append = true →
    memoryWf s = true → s.engine.state = .idle →
    (let u : State := setBank
      { s with store.queue := [], store.mismatches := 0, store.path := .idle, link.inFlight := none } k
      { bank s k with
        cells := cellsAnd (bank s k).cells (32 * (bank s k).append) (body ++ [0x0F]), append := (bank s k).append + 1 }
    let answered (t : State) (reply : List Byte) : Prop :=
      exec (.journalRecordProgrammed ⟨none, voids⟩) s = .next (kick (joinReply (tagged tag o) .ok reply t))
    match o with
    | .bind p => ∀ st, subStateArg p.state = some st →
        (let v : Subscriber := ⟨st, p.account, p.tap, p.port, p.tiers, if 1000000 < p.limit then 1000000 else p.limit⟩
        let t := { u with subs := tset u.subs p.slot v }
        let t := match tapAt s p.tap with
          | none => t
          | some (j, _) => rederive .urgent (j, p.port) (modPort (j, p.port) (fun r => { r with slot := some p.slot }) t)
        answered t (subBytes t p.slot))
    | .unbind slot => ∀ v, tget s.subs slot = some v →
        (let t := { u with subs := tdel u.subs slot }
        let t := match tapAt s v.tap with
          | none => t
          | some (j, _) => rederive .urgent (j, v.port) (modPort (j, v.port) (fun r => { r with slot := none }) t)
        answered t (u32 v.account ++ u16 v.tap ++ u8 v.port))
    | .setState slot n => ∀ v st, tget s.subs slot = some v → subStateArg n = some st →
        (let t := rederiveSlot slot { u with subs := tmod u.subs slot (fun x => { x with state := st }) }
        answered t (subBytes t slot))
    | .setTiers slot tiers => ∀ v, tget s.subs slot = some v →
        (let t := rederiveSlot slot { u with subs := tmod u.subs slot (fun x => { x with tiers := tiers }) }
        answered t (subBytes t slot))
    | .eventCancel e => ∀ v, eventOf s e = some v →
        (let t := { u with events := u.events.set e (some { v with state := .cancelled }) }
        let t := handOff (if v.state = .showing then removeOverlay v.channel (Fin.ofNat 16 e) t else t)
        answered (notice nkEventState false (u8 e ++ u8 v.channel ++ u32 v.start ++ u32 v.stop
            ++ u8 (eventStateNum (some v.state)) ++ [5, 2] ++ u16 v.purchasers.length ++ opt 4 (s.time.clock.map (·.1))) t)
          (eventBytes { v with state := .cancelled }))
    | .purchase slot e => ∀ x v, tget s.subs slot = some x → eventOf s e = some v →
        (let spent := (tget s.store.spend x.account).getD 0 + v.price
        let t := { u with
          store.spend := tset u.store.spend x.account spent
          events := u.events.set e (some { v with purchasers := insertAsc v.purchasers x.account }) }
        let t := if v.state = .showing then rederiveSlot slot t else t
        answered t (u32 x.account ++ u8 e ++ u16 v.price ++ u32 spent ++ u32 x.limit))
    | _ => True)

/-- SET-LIMIT in RUN writes the limit, clamped to 1,000,000, and changes nothing else, whatever the store's state; QUERY-SUB
gives the record, and the state alone for an UNBOUND slot (R48, R49). The spend is sent once (the model's choice, log 62). So
are the bytes of a confirmed content that is UNKNOWN (log 71). -/
def Obligations.LimitsAndSlotQueries : Prop :=
  ∀ (tag : Byte) (slot limit : Nat) (s : State), Quiet s → Working s →
    (s.link.op = .loading → Answers (.setLimit tag slot limit) s s tag (.setLimit slot limit) .state [])
    ∧ (s.link.op = .run → 2047 < slot → Answers (.setLimit tag slot limit) s s tag (.setLimit slot limit) .badArg [])
    ∧ (s.link.op = .run → slot ≤ 2047 → tget s.subs slot = none →
      Answers (.setLimit tag slot limit) s s tag (.setLimit slot limit) .state [])
    ∧ (∀ u, s.link.op = .run → slot ≤ 2047 → tget s.subs slot = some u →
      (let l := if 1000000 < limit then 1000000 else limit
      Answers (.setLimit tag slot limit) s { s with subs := tset s.subs slot { u with limit := l } } tag (.setLimit slot limit)
        .ok (u32 l ++ u32 ((tget s.store.spend u.account).getD 0))))
    ∧ (2047 < slot → Answers (.querySub tag slot) s s tag (.querySub slot) .badArg [])
    ∧ (slot ≤ 2047 → tget s.subs slot = none → Answers (.querySub tag slot) s s tag (.querySub slot) .ok [0])
    ∧ (∀ u j t r, slot ≤ 2047 → tget s.subs slot = some u → tapAt s u.tap = some (j, t) → t.ports[u.port]? = some r →
      Answers (.querySub tag slot) s s tag (.querySub slot) .ok
        (u8 (subStateNum u.state) ++ u32 u.account ++ u16 u.tap ++ u8 u.port ++ u16 u.tiers.toNat ++ u32 u.limit
          ++ u32 ((tget s.store.spend u.account).getD 0) ++ contentBytes r.desired ++ optContent r.confirmed
          ++ u8 (syncNum r.sync) ++ u8 (pclassNum r.cls) ++ u8 r.attempts ++ flag t.unreachable.isSome
          ++ u8 (serviceNum (serviceOf s t.segment))))

/-- RESYNC forces a refresh of the slot's port, or of the tap's four ports in order: an IN_SYNC or DROPPED port becomes
PENDING REFRESH at the tail of its queue, or PARKED with its confirmed content UNKNOWN; any other port stays (R60, R61). The
reply is composed before the choice of work (the model's choice, log 42), and gives the sync states behind their count (the
model's choice, log 80). One that names both a slot and an address, or
neither, is refused BAD_ARG (the model's choice, log 17). -/
def Obligations.ResyncForcesRefresh : Prop :=
  (∀ (tag : Byte) (n : Nat) (s : State), Quiet s → Working s →
    (let forced (t : State) (q : Nat × Nat) : State :=
      match portOf t q with
      | none => t
      | some r =>
        if r.sync = .inSync ∨ r.sync = .dropped then
          if parkHoldsAt t q.1 then modPort q (fun r => { r with sync := .parked, cls := none, confirmed := none }) t
          else { modPort q (fun r => { r with sync := .pending, cls := some .refresh }) t with
            plant.refresh := t.plant.refresh ++ [q] }
        else t
    let sync (t : State) (q : Nat × Nat) : List Byte := u8 ((portOf t q).elim 255 (fun r => syncNum r.sync))
    let bySlot (t : State) (code : StatusCode) (reply : List Byte) : Prop :=
      Answers (.resync tag ⟨some n, none⟩) s t tag (.resync ⟨some n, none⟩) code reply
    let byTap (t : State) (code : StatusCode) (reply : List Byte) : Prop :=
      Answers (.resync tag ⟨none, some n⟩) s t tag (.resync ⟨none, some n⟩) code reply
    (2047 < n → bySlot s .badArg []) ∧ (n ≤ 2047 → tget s.subs n = none → bySlot s .state [])
    ∧ (∀ u j x, n ≤ 2047 → tget s.subs n = some u → tapAt s u.tap = some (j, x) →
      (let t := forced s (j, u.port)
      bySlot t .ok ([1] ++ sync t (j, u.port))))
    ∧ (4095 < n ∨ tapAt s n = none → byTap s .badArg [])
    ∧ (∀ j x, n ≤ 4095 → tapAt s n = some (j, x) →
      (let t := [(j, 0), (j, 1), (j, 2), (j, 3)].foldl forced s
      byTap t .ok ([4] ++ sync t (j, 0) ++ sync t (j, 1) ++ sync t (j, 2) ++ sync t (j, 3))))))
  ∧ (∀ (tag : Byte) (n a : Nat) (s : State), Quiet s → Working s →
    Answers (.resync tag ⟨some n, some a⟩) s s tag (.resync ⟨some n, some a⟩) .badArg []
    ∧ Answers (.resync tag ⟨none, none⟩) s s tag (.resync ⟨none, none⟩) .badArg [])

/-- The content of a port (R50): an ACTIVE slot passes, outside the zone's blackouts, the FREE channels, those of the tiers it
holds, and those of the showing events its account has bought; a SUSPENDED slot the FREE ones alone; a DISCONNECTED slot and an
unbound port are disabled and empty. A port re-derived to the content it has stays as it is; one whose content changes takes it
as its desired content and is marked with the class of the event, by the table of R54, or parked under the park conditions of
R58 (R51); a PARKED port made equal stays PARKED (the model's choice, log 64), and a DROPPED one keeps its attempts (the model's
choice, log 53). The hand-off of changed channels re-derives the ports of ACTIVE and SUSPENDED slots in class REFRESH, in
ascending tap and port, and leaves each with the content derived as its desired content (R5, R51). -/
def Obligations.DerivedContentByChannel : Prop :=
  (∀ (segment slot c : Nat) (u : Subscriber) (s : State), Sound s → tget s.subs slot = some u → 1 ≤ c → c ≤ 96 →
    (let content := deriveContent s segment (some slot)
    let passed : Bool := content.pass.getLsbD (c - 1)
    let dark : Bool := (chan s c).zones.getLsbD (match tget s.telemetry.segments segment with | none => 0 | some g => g.zone)
    deriveContent s segment none = ⟨false, 0⟩
    ∧ (u.state = .disconnected → content = ⟨false, 0⟩)
    ∧ (u.state = .suspended → content.enable = true ∧ passed = (!dark && decide ((chan s c).eff = .base .free)))
    ∧ (u.state = .active → content.enable = true ∧
      (match (chan s c).eff with
      | .base .free => passed = !dark
      | .base (.tier t) => passed = (!dark && u.tiers.getLsbD t.val)
      | .base _ => passed = false
      | .ppv e => (∀ d, 1 ≤ d → d < c → (chan s d).eff ≠ .ppv e) →
        passed = (!dark && (eventOf s e.val).any (fun v => v.purchasers.contains u.account))))))
  ∧ (∀ (k : PClass) (i q : Nat) (t : Tap) (r : Port) (s : State), tget s.plant.taps i = some t → t.ports[q]? = some r →
    (let new := deriveContent s t.segment r.slot
    let equal : Prop := r.confirmed = some new
    let parks : Prop := t.unreachable ≠ none ∨ serviceOf s t.segment ≠ .lit
    let set (f : Port → Port) : State := modPort (i, q) (fun x => f { x with desired := new }) s
    let out (u : State) : State := { u with
      plant.urgent := u.plant.urgent.filter (fun e => match e with | .port a b _ => decide ((a, b) ≠ (i, q)) | .craft _ => true)
      plant.refresh := u.plant.refresh.filter (· ≠ (i, q)) }
    let join (k : PClass) (u : State) : State := match k with
      | .urgent => { u with plant.urgent := u.plant.urgent ++ [.port i q false] }
      | .refresh => { u with plant.refresh := u.plant.refresh ++ [(i, q)] }
    let parked := set (fun x => { x with sync := .parked, cls := none })
    let pending := join k (set (fun x => { x with sync := .pending, cls := some k }))
    let ends (u : State) : Prop := rederive k (i, q) s = u
    (new = r.desired → ends s)
    ∧ (new ≠ r.desired →
      (r.sync = .inSync ∨ (r.sync = .dropped ∧ ¬ equal) → (parks → ends parked) ∧ (¬ parks → ends pending))
      ∧ (r.sync = .pending → equal → ends (out (set (fun x => { x with sync := .inSync, cls := none, attempts := 0 }))))
      ∧ (r.sync = .pending → ¬ equal → r.cls = some .refresh → k = .urgent →
        ends (join .urgent (out (set (fun x => { x with cls := some .urgent })))))
      ∧ (r.sync = .pending → ¬ equal → r.cls ≠ some .refresh ∨ k = .refresh → ends (set id))
      ∧ (r.sync = .sent → ends (set (fun x => { x with cls := if x.cls = none ∨ k = .urgent then some k else x.cls })))
      ∧ (r.sync = .parked ∨ r.sync = .held → ends (set id))
      ∧ (r.sync = .dropped → equal → ends (set (fun x => { x with sync := .inSync, cls := none }))))))
  ∧ (∀ s : State,
    (let served (n : Nat) : Bool := (tget s.subs n).any (fun u => u.state ≠ .disconnected)
    let due (u : State) (p : Nat × Nat) : Bool := ((portOf u p).bind (·.slot)).any served
    (s.lineup.changed = false → handOff s = s)
    ∧ (s.lineup.changed = true → handOff s = rederiveServed { s with lineup.changed := false })
    ∧ rederiveServed s = (s.plant.taps.flatMap (fun t => [(t.1, 0), (t.1, 1), (t.1, 2), (t.1, 3)])).foldl
      (fun u p => if due u p then rederive .refresh p u else u) s
    ∧ (∀ i q t r n, tget (rederiveServed s).plant.taps i = some t → t.ports[q]? = some r → q ≤ 3 → r.slot = some n →
      served n = true → r.desired = deriveContent s t.segment (some n))))

/-- EVENT-DEFINE that passes the checks of R134 writes the event with the accounts found in the journal, in the state its
minutes give, sets the overlay and hands the channel on where that is SHOWING, and queues EVENT_STATE (R135, R137, R143, R5).
EVENT-REMOVE refuses an EMPTY slot and an event ON_SALE or SHOWING; else it empties the slot, changes nothing more, and queues
EVENT_STATE (R142, R143). The event record of the replies is the model's choice (log 51), and so is the notice's place before
the reply on a free outbound line (log 52). -/
def Obligations.EventsAreDefinedAndRemoved : Prop :=
  (∀ (tag : Byte) (p : EventArgs) (s : State), Quiet s → Sound s → Working s →
    (let refused (c : StatusCode) : Prop := Answers (.eventDefine tag p) s s tag (.eventDefine p) c []
    let now := minuteOf s
    let onOffer (v : Event) : Prop := v.state = .onSale ∨ v.state = .showing
    let inOrder : Prop := p.open_ ≤ p.start ∧ p.start < p.stop ∧ p.open_ ≤ p.close ∧ p.close ≤ p.stop
    let clash (e : Nat) (v : Event) : Prop := e ≠ p.event ∧ eventOf s e = some v ∧ v.channel = p.channel
      ∧ (((v.state = .defined ∨ onOffer v) ∧ v.start < p.stop ∧ p.start < v.stop) ∨ (v.state = .showing ∧ p.start < v.stop))
    let found := purchasersFound s p.event p.start
    let before := (eventOf s p.event).map (·.state)
    let after : EventState :=
      if now < p.open_ then .defined else if now < p.start then .onSale else if now < p.stop then .showing else .ended
    let v : Event := ⟨p.channel, p.open_, p.start, p.stop, p.close, p.price, after, found⟩
    let told (t : State) : State := notice nkEventState false
      (u8 p.event ++ u8 p.channel ++ u32 p.start ++ u32 p.stop ++ u8 (eventStateNum before) ++ u8 (eventStateNum (some after))
        ++ [0] ++ u16 found.length ++ opt 4 (s.time.clock.map (·.1))) t
    let reply := u8 p.channel ++ u32 p.open_ ++ u32 p.start ++ u32 p.stop ++ u32 p.close ++ u16 p.price
      ++ u8 (eventStateNum (some after)) ++ u16 found.length
    let named : Prop := p.event ≤ 15 ∧ 1 ≤ p.channel ∧ p.channel ≤ 96
    (¬ named → refused .badArg)
    ∧ (named → (∃ w, eventOf s p.event = some w ∧ onOffer w) → refused .state)
    ∧ (named → (∀ w, eventOf s p.event = some w → ¬ onOffer w) →
      (¬ inOrder ∨ p.stop ≤ now ∨ (∃ e w, clash e w) → refused .badArg)
      ∧ (inOrder → now < p.stop → (∀ e w, ¬ clash e w) →
        (cancelFound s p.event p.start = true → refused .state)
        ∧ (cancelFound s p.event p.start = false → 2048 < found.length → refused .full)
        ∧ (cancelFound s p.event p.start = false → found.length ≤ 2048 →
          (let w : State := { s with events := s.events.set p.event (some v) }
          (after ≠ .showing → Answers (.eventDefine tag p) s (told w) tag (.eventDefine p) .ok reply)
          ∧ (after = .showing →
            (let u := handOff (setOverlay p.channel (Fin.ofNat 16 p.event) (taken tag (.eventDefine p) w))
            exec (.eventDefine tag p) s = .next (kick (answer .ok reply (told u)))
            ∧ (chan u p.channel).overlay = some (Fin.ofNat 16 p.event) ∧ (chan u p.channel).eff = .ppv (Fin.ofNat 16 p.event)
            ∧ (∀ c, c ≠ p.channel → 1 ≤ c → chan u c = chan s c) ∧ u.lineup.table = tierTableOf u.lineup.map))))))))
  ∧ (∀ (tag : Byte) (e : Nat) (s : State), Quiet s → Sound s → Working s →
    (let refused (c : StatusCode) : Prop := Answers (.eventRemove tag e) s s tag (.eventRemove e) c []
    (15 < e ∨ eventOf s e = none → refused .badArg)
    ∧ (∀ v, eventOf s e = some v → v.state = .onSale ∨ v.state = .showing → refused .state)
    ∧ (∀ v, eventOf s e = some v → v.state ≠ .onSale → v.state ≠ .showing →
      Answers (.eventRemove tag e) s (notice nkEventState false
        (u8 e ++ u8 v.channel ++ u32 v.start ++ u32 v.stop ++ u8 (eventStateNum (some v.state)) ++ [0, 3]
          ++ u16 v.purchasers.length ++ opt 4 (s.time.clock.map (·.1))) { s with events := s.events.set e none })
        tag (.eventRemove e) .ok
        (u8 v.channel ++ u32 v.open_ ++ u32 v.start ++ u32 v.stop ++ u32 v.close ++ u16 v.price
          ++ u8 (eventStateNum (some v.state)) ++ u16 v.purchasers.length))))

/-! ## Chapter 4: the plant line -/

/-- LOAD-TAP: the checks of R68; an empty index, or one whose tap at another address has no port bound, SENT or HELD, is loaded
afresh with its four ports PENDING REFRESH at their queue's tail, or PARKED, and no probe stays due once no tap is UNREACHABLE
(R75); a known tap keeps everything but its segment. QUERY-TAP reports the tap record and changes nothing (R67 to R69). The
queue lengths in QUERY-TAP count the whole queues (the model's reading, log 44). The port records are sent once, without a
count, and the reply of LOAD-TAP is the whole matter of QUERY-TAP (the model's choice, log 63). So are that reply as it stands
before the choice of work (log 42), the bytes of a confirmed content that is UNKNOWN (log 71), the tamper flag as 1 for set
(log 72), and no purpose of a transaction addressed to another device (log 73). -/
def Obligations.TapOrdersLoadAndReport : Prop :=
  ∀ (tag : Byte) (i a g : Nat) (s : State), Quiet s → Working s →
    (let answers (t : State) (code : StatusCode) (reply : List Byte) : Prop :=
      Answers (.loadTap tag i a g) s t tag (.loadTap i a g) code reply
    let refused : Prop := 511 < i ∨ 4095 < a ∨ 31 < g ∨ tget s.telemetry.segments g = none
      ∨ (∃ x ∈ s.telemetry.transponders, x.2.address = a) ∨ (∃ x ∈ s.plant.taps, x.2.address = a ∧ x.1 ≠ i)
    let isOf (e : UrgentItem) : Bool := match e with | .port j _ _ => j = i | .craft _ => false
    let shut : Bool := (tget s.telemetry.segments g).any (fun x => x.service ≠ .lit)
    let fresh (t : State) : Prop :=
      let port : Port := if shut then { sync := .parked } else { sync := .pending, cls := some .refresh }
      let tap : Tap := { address := a, segment := g, ports := List.replicate 4 port }
      t = { s with
        plant.taps := tset s.plant.taps i tap
        plant.urgent := s.plant.urgent.filter (fun e => !isOf e || (match e with | .port _ q _ => decide (3 < q) | .craft _ => true))
        plant.refresh := s.plant.refresh.filter (fun e => decide (e.1 ≠ i) || decide (3 < e.2))
          ++ (if shut then [] else [(i, 0), (i, 1), (i, 2), (i, 3)])
        plant.probeDue := s.plant.probeDue && (tset s.plant.taps i tap).any (fun y => y.2.unreachable.isSome) }
      ∧ answers t .ok (tapBytes t i tap)
    (refused → answers s .badArg [])
    ∧ (¬ refused → tget s.plant.taps i = none → ∃ t, fresh t)
    ∧ (∀ x, ¬ refused → tget s.plant.taps i = some x → x.address ≠ a →
      ((∃ r ∈ x.ports, r.slot ≠ none ∨ r.sync = .sent ∨ r.sync = .held) → answers s .state [])
      ∧ ((∀ r ∈ x.ports, r.slot = none ∧ r.sync ≠ .sent ∧ r.sync ≠ .held) → ∃ t, fresh t))
    ∧ (∀ x, ¬ refused → tget s.plant.taps i = some x → x.address = a →
      (x.segment = g → answers s .ok (tapBytes s i x))
      ∧ (x.segment ≠ g → (∃ r ∈ x.ports, r.slot ≠ none) → answers s .state [])
      ∧ (x.segment ≠ g → (∀ r ∈ x.ports, r.slot = none) →
        (let t := reparkTaps [i] { s with plant.taps := tset s.plant.taps i { x with segment := g } }
        answers t .ok (((tget t.plant.taps i).map (tapBytes t i)).getD []))))
    ∧ (tapAt s a = none → Answers (.queryTap tag a) s s tag (.queryTap a) .badArg [])
    ∧ (∀ j x, tapAt s a = some (j, x) → Answers (.queryTap tag a) s s tag (.queryTap a) .ok
      (let here := s.plant.current.filter (fun t => t.toTap && decide (t.address = x.address))
      u16 j ++ u16 x.address ++ u8 x.segment ++ flag x.unreachable.isSome ++ opt 4 x.unreachable ++ flag x.tamper
        ++ u8 (serviceNum (serviceOf s x.segment))
        ++ x.ports.flatMap (fun r => contentBytes r.desired ++ optContent r.confirmed ++ u8 (syncNum r.sync)
          ++ u8 (pclassNum r.cls) ++ optContent r.inFlight ++ u8 r.attempts ++ u8 (pclassNum (some r.unpark)) ++ opt 2 r.slot)
        ++ u16 s.plant.urgent.length ++ u16 s.plant.refresh.length ++ flag here.isSome
        ++ opt 1 (here.map (fun t => purposeNum t.purpose)))))

/-- The end of the outbound frame begins TURNAROUND of 2 ms, and its end the WINDOW of the transaction's REPLY_WINDOW (R64);
characters outside the two, those before a wake character, and those behind a failure do nothing (R65); a transaction that
starts takes the current position, which advances by one (R66, R70). A PORT-ACK that agrees with the command sent makes its
content the confirmed one, with no attempts, and the port IN_SYNC where that is what it desires, else PENDING or PARKED again;
then the tap's tamper flag is taken (R56, R65, R79, R82). The characters are laid out as log 39 reads them, and the end of a
frame or of TURNAROUND outside its phase, and characters outside the window, do nothing by log 14 (DEDUCED). The share of a
round is fixed as position 0's transaction starts (the model's choice, log 78). -/
def Obligations.PlantLineTurnsAndAcks : Prop :=
  (∀ (t : Transaction) (cs : List PlantChar) (s : State), s.link.waiting = [] → s.plant.current = some t →
    (s.plant.line = .sending → exec .plantFrameSent s = .next { s with plant.line := .turnaround, plant.timer := 2 })
    ∧ (s.plant.line ≠ .sending → exec .plantFrameSent s = .next (kick s))
    ∧ (s.plant.line = .turnaround → exec .turnaroundEnd s = .next { s with plant.line := .window, plant.timer := t.window })
    ∧ (s.plant.line ≠ .turnaround → exec .turnaroundEnd s = .next (kick s))
    ∧ (s.plant.line ≠ .turnaround → s.plant.line ≠ .window → exec (.plantReplyReceived cs) s = .next (kick s))
    ∧ (s.plant.line = .turnaround ∨ s.plant.line = .window →
        t.failed = true ∨ (t.buffer = [] ∧ ∀ c ∈ cs, c.wake = false) → exec (.plantReplyReceived cs) s = .next s)
    ∧ (s.plant.line ≠ .window → exec .replyWindowExpiry s = .next (kick s))
    ∧ (∀ p a i toTap port c, startTx p a i toTap port c s = { s with
        plant.current := some ⟨p, a, i, toTap, port, c, s.plant.position, s.params.replyWindow, false, []⟩
        plant.line := .sending
        plant.timer := 0
        plant.roundShare := if s.plant.position = 0 then s.params.pollShare else s.plant.roundShare
        plant.position := (s.plant.position + 1) % 8 }))
  ∧ (∀ (t : Transaction) (x : Tap) (r : Port) (tamper : Bool) (s : State), s.link.waiting = [] → s.plant.current = some t →
    s.plant.line = .turnaround ∨ s.plant.line = .window → t.purpose = .portCommand → t.failed = false → t.buffer = [] →
    t.address ≤ 4095 → t.port ≤ 3 → tget s.plant.taps t.index = some x → x.ports[t.port]? = some r → r.inFlight = some t.content →
    (let head : List Byte := [BitVec.ofNat 8 (t.address / 16), BitVec.ofNat 8 (t.address % 16 * 16 + 9),
      BitVec.ofNat 8 (t.port + (if tamper then 64 else 0) + (if t.content.enable then 128 else 0)), sum8 (passBytes t.content.pass)]
    let chars := (head ++ [sum8 head]).zipIdx.map (fun c => (⟨c.1, c.2 = 0, true⟩ : PlantChar))
    let q := (t.index, t.port)
    let settled : Port := { r with confirmed := some t.content, inFlight := none, attempts := 0, cls := none }
    let put (v : Port) : State := { s with
      plant.current := none
      plant.line := .idle
      plant.timer := 0
      plant.taps := tmod s.plant.taps t.index (fun y => { y with ports := y.ports.set t.port v, tamper := tamper }) }
    let ends (u : State) : Prop := exec (.plantReplyReceived chars) s
      = .next (kick (if tamper = true ∧ x.tamper = false then watchEvent .tamper x.address u else u))
    (r.desired = t.content → ends (put { settled with sync := .inSync }))
    ∧ (r.desired ≠ t.content → parkHolds s x = true → ends (put { settled with sync := .parked }))
    ∧ (r.desired ≠ t.content → parkHolds s x = false →
      (let c := r.cls.getD .refresh
      let u := put { settled with sync := .pending, cls := some c }
      ends (match c with
        | .urgent => { u with plant.urgent := s.plant.urgent ++ [.port q.1 q.2 false] }
        | .refresh => { u with plant.refresh := s.plant.refresh ++ [q] })))))

/-- A port command without a valid reply leaves the confirmed content UNKNOWN and counts an attempt: below 3 the port is
retried at the head of the URGENT queue, or PARKED with no attempts; at 3 the tap is UNREACHABLE, that port and every PENDING
one of it PARKED, TAP_FAILED queued, and the watch unit handed TAP_UNREACHABLE (R57, R79, R80). -/
def Obligations.SilentPortCommandsAreRetried : Prop :=
  ∀ (t : Transaction) (x : Tap) (r : Port) (s : State), s.link.waiting = [] → s.plant.current = some t → s.plant.line = .window →
    t.purpose = .portCommand → tget s.plant.taps t.index = some x → x.ports.length = 4 → x.ports[t.port]? = some r →
    (let idle : State := { s with plant.current := none, plant.line := .idle, plant.timer := 0 }
    let failed : Port := { r with confirmed := none, inFlight := none, attempts := r.attempts + 1, cls := none }
    let put (v : Port) : State :=
      { idle with plant.taps := tmod s.plant.taps t.index (fun y => { y with ports := y.ports.set t.port v }) }
    let parks (q : Nat) (y : Port) : Bool := decide (q = t.port) || decide (y.sync = .pending)
    let leaves (q : Nat) : Bool := (x.ports[q]?).any (parks q)
    let parked (y : Port) : Port := { y with sync := .parked, cls := none, attempts := 0 }
    let quit (test : Nat → Bool) (u : State) : State := { u with
      plant.urgent := u.plant.urgent.filter (fun e => match e with | .port j q _ => !(decide (j = t.index) && test q) | .craft _ => true)
      plant.refresh := u.plant.refresh.filter (fun e => !(decide (e.1 = t.index) && test e.2)) }
    (r.attempts < 2 → parkHolds s x = false →
      exec .replyWindowExpiry s = .next (kick { put { failed with sync := .pending, cls := some .urgent } with
        plant.urgent := .port t.index t.port false :: s.plant.urgent }))
    ∧ (r.attempts < 2 → parkHolds s x = true →
      exec .replyWindowExpiry s = .next (kick (quit (fun q => decide (q = t.port)) (put (parked failed)))))
    ∧ (2 ≤ r.attempts →
      exec .replyWindowExpiry s = .next (kick (watchEvent .tapUnreachable x.address
        (notice nkTapFailed false
          (u16 t.index ++ u16 x.address ++ u8 x.segment ++ u8 t.port ++ opt 4 (s.time.clock.map (·.1)))
          (quit leaves { idle with plant.taps := tmod s.plant.taps t.index (fun y => { y with
            unreachable := some (minuteOf s)
            ports := (x.ports.set t.port failed).zipIdx.map (fun z => if parks z.2 z.1 then parked z.1 else z.1) }) }))))))

/-! ## Chapters 5 and 6: telemetry, outages and watches -/

/-- LOAD-SEGMENT and LOAD-TRANSPONDER: the checks of R95 and R85, the last of each in RUN only; an accepted order writes the
record, keeping the judgement that R86 and R96 keep, and the conditions and service states are recomputed. QUERY-SEGMENT and
QUERY-TRANSPONDER report the record and change nothing (R87, R97). The model's choices are an enable byte above 1 refused
BAD_ARG (log 18), the recomputation before the re-derivation of a LOAD-SEGMENT (log 48), the POLL in progress told by its index
(log 49), the role's number (log 20, DEDUCED), no XP_STATE for the first state of a record (log 55), the four numbers of
records without a count (log 82), the one list of records MISSING or in ALARM (log 56), the poll enable as 1 for set (log 72),
the whole matter of the query in the reply of each load (log 74), that reply as it stands before the choice of work (log 42),
and a notice before the reply on a free outbound line (log 52). -/
def Obligations.PlantTableOrders : Prop :=
  ∀ (tag : Byte) (p : SegmentArgs) (x : TransponderArgs) (n a : Nat) (s : State), Quiet s → Working s →
    (let segs := s.telemetry.segments
    let xps := s.telemetry.transponders
    let known (v : Nat) : Option Nat := if v = 255 then none else some v
    let seg : Segment := { (tget segs p.segment).getD { zone := 0, parent := none, head := none } with
      zone := p.zone, parent := known p.parent, head := known p.head }
    let segs' := tset segs p.segment seg
    let segAnswers (t : State) (code : StatusCode) (reply : List Byte) : Prop :=
      Answers (.loadSegment tag p) s t tag (.loadSegment p) code reply
    let segRefused : Prop := 31 < p.segment ∨ 7 < p.zone ∨ (31 < p.parent ∧ p.parent ≠ 255) ∨ (127 < p.head ∧ p.head ≠ 255)
      ∨ (p.parent ≠ 255 ∧ (p.parent = p.segment ∨ tget segs p.parent = none))
    let segUnfit : Prop := (∃ g ∈ segs', chainBad segs' g.1 ≠ none)
      ∨ (p.head ≠ 255 ∧ ∀ h, tget xps p.head = some h → ¬ (h.enabled = true ∧ h.segment = p.segment))
    let clampLevel (v : Int) : Int := if v < -200 then -200 else if 600 < v then 600 else v
    let xpAnswers (t : State) (code : StatusCode) (reply : List Byte) : Prop :=
      Answers (.loadTransponder tag x) s t tag (.loadTransponder x) code reply
    let xpRefused : Prop := 127 < x.index ∨ 4095 < x.address ∨ 31 < x.segment ∨ 2 < x.role ∨ tget segs x.segment = none
      ∨ (∃ t ∈ s.plant.taps, t.2.address = x.address) ∨ (∃ t ∈ xps, t.2.address = x.address ∧ t.1 ≠ x.index)
      ∨ clampLevel x.high < clampLevel x.low
    let xpUnfit : Prop := (∃ g ∈ segs, g.2.head = some x.index)
      ∧ ∃ o, tget xps x.index = some o ∧ (o.segment ≠ x.segment ∨ (o.enabled = true ∧ x.enable = 0))
    (segRefused → segAnswers s .badArg [])
    ∧ (s.link.op = .run → segUnfit → segAnswers s .badArg [])
    ∧ (¬ segRefused → s.link.op = .loading ∨ ¬ segUnfit →
      (let t := recomputeSegments [p.segment] .reload { s with telemetry.segments := segs' }
      let t := if (tget segs p.segment).any (fun g => g.zone ≠ p.zone) then rederiveSegment p.segment t else t
      ∃ g, tget t.telemetry.segments p.segment = some g ∧ g.zone = p.zone ∧ g.parent = known p.parent ∧ g.head = known p.head
        ∧ segAnswers t .ok (segBytes t p.segment g)))
    ∧ (x.enable ≤ 1 →
      (xpRefused → xpAnswers s .badArg []) ∧ (s.link.op = .run → xpUnfit → xpAnswers s .badArg [])
      ∧ (∀ role, roleArg x.role = some role → ¬ xpRefused → s.link.op = .loading ∨ ¬ xpUnfit →
        (let fresh : Transponder :=
          { address := x.address, segment := x.segment, role := role, enabled := x.enable = 1
            low := clampLevel x.low, high := clampLevel x.high, hysteresis := if 50 < x.hysteresis then 50 else x.hysteresis }
        let loads (new : Transponder) (told : State → State) (old : List Nat) : Prop :=
          let t := recomputeSegments (old ++ [x.segment]) .reload
            (told { s with telemetry.transponders := tset xps x.index new })
          xpAnswers t .ok (xpBytes t x.index new)
        (tget xps x.index = none → loads fresh (fun t => t) [])
        ∧ (∀ o, tget xps x.index = some o →
          (let new := if o.address = x.address ∧ o.enabled = fresh.enabled then
            { o with segment := fresh.segment, role := role, low := fresh.low, high := fresh.high, hysteresis := fresh.hysteresis }
            else fresh
          loads new (xpNotice x.index o new .reload) (if o.segment = x.segment then [] else [o.segment]))))))
    ∧ (1 < x.enable → xpAnswers s .badArg [])
    ∧ (tget segs n = none → Answers (.querySegment tag n) s s tag (.querySegment n) .badArg [])
    ∧ (∀ g, tget segs n = some g → Answers (.querySegment tag n) s s tag (.querySegment n) .ok
      (let above := ancestors segs n
      let mine := xps.filter (fun t => t.2.enabled && decide (t.2.segment = n))
      let taps := s.plant.taps.filter (fun t => decide (t.2.segment = n))
      let count (k : XpState) : List Byte := u16 (mine.filter (fun t => t.2.state = k)).length
      let bad := mine.filter (fun t => t.2.state = .missing || t.2.state = .alarm)
      u8 g.zone ++ opt 1 g.parent ++ opt 1 g.head ++ u8 (conditionNum g.condition) ++ u8 (serviceNum g.service)
        ++ opt 1 g.openOutage ++ flag (s.craft.holds.getLsbD n) ++ opt 1 (above.find? (fun m => s.craft.holds.getLsbD m))
        ++ (u8 above.length ++ above.flatMap u8) ++ count .unknown ++ count .ok ++ count .alarm ++ count .missing
        ++ (u8 bad.length ++ bad.flatMap (fun t => u8 t.1))
        ++ flag ((g.head.bind (tget xps)).any (fun h => h.enabled && decide (h.segment = n)))
        ++ u16 taps.length ++ u16 (taps.filter (fun t => t.2.unreachable.isSome)).length
        ++ u16 (taps.flatMap (fun t => t.2.ports.filter (fun r => r.sync = .parked))).length))
    ∧ (xpAt s a = none → Answers (.queryTransponder tag a) s s tag (.queryTransponder a) .badArg [])
    ∧ (∀ i o, xpAt s a = some (i, o) → Answers (.queryTransponder tag a) s s tag (.queryTransponder a) .ok
      (u8 i ++ u16 o.address ++ u8 o.segment ++ u8 (roleNum o.role) ++ flag o.enabled ++ i16 o.low ++ i16 o.high ++ u8 o.hysteresis
        ++ u8 (xpStateNum o.state) ++ u8 o.misses ++ opt 4 o.firstMiss ++ opt 4 (o.lastReply.map (·.1))
        ++ opt 1 (o.lastReply.map (·.2)) ++ optStatus o.last ++ u8 (alarmNum o.flags) ++ flag o.deferred
        ++ opt 1 ((tget segs o.segment).map (fun g => conditionNum g.condition)) ++ u8 (serviceNum (serviceOf s o.segment))
        ++ flag ((tget segs o.segment).any (fun g => g.head = some i))
        ++ flag (s.plant.current.any (fun t => (t.purpose = .poll || t.purpose = .craftPoll) && !t.toTap && t.index = i)))))

/-- The outcome of a poll to an enabled record: a valid STATUS of its role clears the misses, is kept with its level clamped,
judges the alarm flags by the limits, the hysteresis and the settle window, and makes the state OK or ALARM; anything else is a
miss, and MISS_LIMIT of them make it MISSING. XP_STATE, the watch events and the segment follow (R88 to R93). XP_STATE is made
where the state or a flag changed, urgent where the record became MISSING or OUTPUT_OFF or BATTERY_LOW was raised, and the
events handed on are those that occurred, in the order of R93. The flags as one byte with the first in the lowest bit are the
model's choice (log 20). -/
def Obligations.PollOutcomesAreJudged : Prop :=
  (∀ (t : Transaction) (x : Transponder) (role flags battery : Byte) (level : Int) (supply : Nat) (s : State),
    s.link.waiting = [] → s.plant.current = some t → s.plant.line = .window → t.purpose = .poll → t.toTap = false →
    t.failed = false → t.buffer = [] → t.address ≤ 4095 → tget s.telemetry.transponders t.index = some x →
    x.address = t.address → x.enabled = true → -32768 ≤ level → level ≤ 32767 → supply ≤ 65535 → role ≠ 4 →
    (let head : List Byte := [BitVec.ofNat 8 (t.address / 16), BitVec.ofNat 8 (t.address % 16 * 16 + 8), role, flags]
      ++ i16 level ++ u16 supply ++ [battery]
    let chars := (head ++ [sum8 head]).zipIdx.map (fun c => (⟨c.1, c.2 = 0, true⟩ : PlantChar))
    let judged (i : Instr) (new : Transponder) (cause : HandCause) : Prop :=
      exec i s = .next (kick (recomputeSegments [x.segment] cause ((xpEvents x new).foldl (fun u k => watchEvent k x.address u)
        (xpNotice t.index x new cause { s with
          plant.current := none
          plant.line := .idle
          plant.timer := 0
          telemetry.transponders := tset s.telemetry.transponders t.index new }))))
    let miss : Transponder :=
      let n := if x.misses < 15 then x.misses + 1 else 15
      { x with
        misses := n
        firstMiss := if x.misses = 0 then some (minuteOf s) else x.firstMiss
        state := if s.params.missLimit ≤ n then .missing else x.state }
    let l := if level < -200 then -200 else if 600 < level then 600 else level
    let low : Bool := if x.flags.low then decide (l < x.low + x.hysteresis) else decide (l < x.low) && !s.lineup.settleOpen
    let high : Bool := if x.flags.high then decide (x.high - x.hysteresis < l) else decide (x.high < l) && !s.lineup.settleOpen
    let withheld : Bool := (!x.flags.low && decide (l < x.low)) || (!x.flags.high && decide (x.high < l))
    let batteryLow : Bool := flags.getLsbD 0 && decide (battery.toNat < s.params.batteryWarn)
    let reply : Transponder :=
      { x with
        misses := 0
        firstMiss := none
        lastReply := s.time.clock
        last := some ⟨role.toNat, flags.getLsbD 0, flags.getLsbD 1, flags.getLsbD 2, l, supply, battery.toNat⟩
        flags := ⟨low, high, flags.getLsbD 0, batteryLow, flags.getLsbD 1, flags.getLsbD 2⟩
        deferred := s.lineup.settleOpen && (withheld || x.deferred)
        state := if low || high || flags.getLsbD 0 || flags.getLsbD 1 || flags.getLsbD 2 then .alarm else .ok }
    judged .replyWindowExpiry miss .miss
    ∧ (role.toNat ≠ roleChar x.role → judged (.plantReplyReceived chars) miss .miss)
    ∧ (role.toNat = roleChar x.role → judged (.plantReplyReceived chars) reply .reply)))
  ∧ (∀ (i : Nat) (old new : Transponder) (cause : HandCause) (s : State),
    (let bits (f : AlarmFlags) : List Byte := u8 (flagBits [f.low, f.high, f.battery, f.batteryLow, f.outputOff, f.tamper])
    let last : List Byte := match new.last with
      | none => absent 7
      | some m => u8 m.role ++ u8 (flagBits [m.onBattery, m.outputOff, m.tamper]) ++ i16 m.level ++ u16 m.supply ++ u8 m.battery
    let lost : Bool := decide (new.state = .missing ∧ old.state ≠ .missing)
    let found : Bool := decide (old.state = .missing ∧ new.state ≠ .missing)
    let raised (f : AlarmFlags → Bool) : Bool := f new.flags && !f old.flags
    let told (b : Bool) (k : WatchKind) : List WatchKind := if b then [k] else []
    (new.state = old.state → new.flags = old.flags → xpNotice i old new cause s = s)
    ∧ (new.state ≠ old.state ∨ new.flags ≠ old.flags → xpNotice i old new cause s
      = notice nkXpState (lost || raised (·.outputOff) || raised (·.batteryLow))
        (u8 i ++ u16 new.address ++ u8 new.segment ++ u8 (roleNum new.role) ++ u8 (xpStateNum old.state)
          ++ u8 (xpStateNum new.state) ++ bits old.flags ++ bits new.flags ++ flag new.deferred ++ u8 new.misses
          ++ opt 4 new.firstMiss ++ last ++ opt 4 (s.time.clock.map (·.1)) ++ u8 (handCauseNum cause)) s)
    ∧ xpEvents old new = told lost .xpMissing ++ told found .xpRestored ++ told (raised (·.low) || raised (·.high)) .level
      ++ told (raised (·.battery) || raised (·.batteryLow)) .battery ++ told (raised (·.outputOff)) .outputOff
      ++ told (raised (·.tamper)) .tamper))

/-- The miss that makes a segment's counting head MISSING puts the segment in OUTAGE and, neither held nor shadowed, DARK: the
outage log opens a ROOT record from the first miss, OUTAGE_OPEN is urgent, and the segment's PENDING ports are PARKED (R92,
R93, R98 to R100, R103, R104, R58). -/
def Obligations.SilentHeadDarkensItsSegment : Prop :=
  ∀ (t : Transaction) (x : Transponder) (g : Segment) (s : State), s.link.waiting = [] → s.plant.current = some t →
    s.plant.line = .window → t.purpose = .poll → tget s.telemetry.transponders t.index = some x → x.address = t.address →
    x.enabled = true → x.state ≠ .missing → s.params.missLimit ≤ min 15 (x.misses + 1) →
    tget s.telemetry.segments x.segment = some g → g.head = some t.index → g.parent = none → g.service = .lit →
    s.craft.holds.getLsbD x.segment = false →
    (∀ y ∈ s.telemetry.segments, x.segment ∉ ancestors s.telemetry.segments y.1) →
    (s.telemetry.segments.map (·.1)).Nodup → s.outage.records.length < 64 →
    (let n := x.segment
    let first := if x.misses = 0 then some (minuteOf s) else x.firstMiss
    let new : Transponder := { x with misses := min 15 (x.misses + 1), firstMiss := first, state := .missing }
    let id := s.outage.nextId
    let start := first.getD (minuteOf s)
    let log := s.outage.records ++ [⟨id, n, start, none, .root, false, false⟩]
    let seen := watchEvent .xpMissing x.address (xpNotice t.index x new .miss { s with
      plant.current := none
      plant.line := .idle
      plant.timer := 0
      telemetry.transponders := tset s.telemetry.transponders t.index new })
    let dark : State := { seen with
      telemetry.segments := tmod s.telemetry.segments n (fun g =>
        { g with condition := .outage, missMinute := first, service := .dark, openOutage := some id })
      outage.records := log
      outage.nextId := freeOutageId 65 log ((id + 1) % 256) }
    exec .replyWindowExpiry s = .next (kick (reparkTaps (tapsIn s n)
      (notice nkOutageOpen true (u8 id ++ u8 n ++ [0, 0xFF] ++ u32 start ++ u32 (minuteOf s) ++ [1]) dark))))

/-- ACK-OUTAGE acknowledges the record; LIST-OUTAGES reports up to 16 records of a selection and changes nothing (R108, R109).
A segment that leaves DARK closes its record, hands one OUTAGE record to the store, and queues OUTAGE_CLOSE (R105, R106). One
that goes DARK while the log holds 64 records gets the next id, which advances past those in the log; the oldest closed record
is removed, with OUTAGE_EVICTED before OUTAGE_OPEN where it was not acknowledged, and its OUTAGE record still in the append
queue is written with no record to report to (R103, R104; log 32, DEDUCED). The open minute of a close while no bank is OPEN is
the model's choice (log 57). -/
def Obligations.OutageRecordsAreKept : Prop :=
  ∀ (tag : Byte) (id k start : Nat) (s : State), Quiet s → Working s →
    (let entry (r : Outage) : List Byte := u8 r.id ++ u8 r.segment ++ u32 r.start ++ opt 4 (r.stop.map (·.1))
      ++ (match r.cause with | .root => [0, 0xFF] | .inherited j => [1] ++ u8 j)
      ++ opt 1 (r.stop.map (fun x => match x.2 with | .restored => 0 | .held => 1 | .shadowed => 2))
      ++ flag r.credit ++ flag r.acked
    let known := s.outage.records.find? (fun r => r.id = id)
    (known = none → Answers (.ackOutage tag id) s s tag (.ackOutage id) .badArg [])
    ∧ (∀ r, known = some r → Answers (.ackOutage tag id) s
      { s with outage.records := s.outage.records.map (fun x => if x.id = id then { r with acked := true } else x) }
      tag (.ackOutage id) .ok (entry { r with acked := true }))
    ∧ (2 < k → Answers (.listOutages tag k start) s s tag (.listOutages k start) .badArg [])
    ∧ (k ≤ 2 →
      (let chosen := s.outage.records.filter (fun r => if k = 0 then true else if k = 1 then r.stop.isNone else !r.acked)
      let page := (chosen.drop start).take 16
      Answers (.listOutages tag k start) s s tag (.listOutages k start) .ok
        (u16 s.outage.records.length ++ u16 chosen.length ++ u8 s.outage.nextId ++ u16 s.params.creditThreshold
          ++ (u8 page.length ++ page.flatMap (fun r => entry r
            ++ (if r.stop.isSome && !r.credit then flag (creditWaiting s r.id) else [0xFF]))))))
    ∧ (∀ (n : Nat) (after : Service) (g : Segment) (r : Outage), tget s.telemetry.segments n = some g →
      g.openOutage = some id → known = some r → s.store.fault = false → 257 < freeSlots s →
      (let now := minuteOf s
      let closed : Outage := { r with
        stop := some (now, match after with | .held => .held | .shadow => .shadowed | _ => .restored) }
      let length := now - r.start
      let credit : Bool :=
        if s.params.creditThreshold = 0 then decide (1 ≤ length) else decide (s.params.creditThreshold ≤ length)
      let body := u8 4 ++ u32 now ++ u8 n ++ u8 id ++ u32 r.start ++ u32 (max r.start (currentOpenMinute s)) ++ u32 now
        ++ flag credit ++ absent 11
      closeOutage n after s = notice nkOutageClose false (entry closed ++ flag credit) { s with
        outage.records := s.outage.records.map (fun x => if x.id = id then closed else x)
        telemetry.segments := tmod s.telemetry.segments n (fun g => { g with openOutage := none })
        store.minute := now
        store.queue := s.store.queue ++ [.record body (.outage (some id))]
        store.path := if s.store.path = .idle then .append else s.store.path }))
    ∧ (∀ (n : Nat) (cause : HandCause) (g : Segment) (l₁ l₂ : List Outage) (r : Outage),
      tget s.telemetry.segments n = some g → s.outage.records = l₁ ++ r :: l₂ → s.outage.records.length = 64 →
      (∀ x ∈ l₁, x.stop = none) → r.stop ≠ none →
      (let now := minuteOf s
      let fresh := s.outage.nextId
      let next := freeOutageId 65 s.outage.records ((fresh + 1) % 256)
      let root : Bool := g.condition = .outage && !parentDark s n
      let start := if root ∧ (cause = .reply ∨ cause = .miss ∨ cause = .reload) then g.missMinute.getD now else now
      let why : OutageCause := if root then .root else .inherited (rootRecord s n)
      let forgets (i : StoreItem) : StoreItem := match i with
        | .record body (.outage (some j)) => .record body (.outage (if j = r.id then none else some j))
        | i => i
      let removed : State := { s with
        outage.records := s.outage.records.filter (fun x => x.id ≠ r.id)
        outage.nextId := next
        store.queue := s.store.queue.map forgets }
      let told := if r.acked then removed else notice nkOutageEvicted false (entry r) removed
      (∃ j, next = (fresh + 1 + j) % 256 ∧ (∀ x ∈ s.outage.records, x.id ≠ next)
        ∧ ∀ i < j, ∃ x ∈ s.outage.records, x.id = (fresh + 1 + i) % 256)
      ∧ openOutage n cause s = notice nkOutageOpen root
        (u8 fresh ++ u8 n ++ (match why with | .root => [0, 0xFF] | .inherited j => [1] ++ u8 j) ++ u32 start ++ u32 now
          ++ u8 (handCauseNum cause)) { told with
        outage.records := told.outage.records ++ [⟨fresh, n, start, none, why, false, false⟩]
        telemetry.segments := tmod s.telemetry.segments n (fun g => { g with openOutage := some fresh }) })))

/-- WATCH-SET writes its entry, enabled, on the range that holds the address, with no hits; WATCH-CLEAR disables one and keeps
the rest; both are refused HELD while the craft port owns the watches; RECLAIM-WATCH gives them back to the host (R111, R112,
R120). An event hits every enabled EVENT entry of its range and kind, in ascending entry: each hit is counted, reported to the
host or, with the craft port as owner, printed, and disables a one-shot entry (R113, R114, R130). The refusal of an EVENT
entry's set of kinds above 127 and of a one-shot byte above 1 is the model's choice (logs 20 and 18), and so are the watch
table and the held list in the replies (log 21), the words of the HIT line (log 12), which has no minute (log 83), and the
notice's place before the reply on a free outbound line (log 52). -/
def Obligations.WatchOrdersAndHits : Prop :=
  ∀ (tag : Byte) (p : WatchArgs) (n : Nat) (s : State), Quiet s → Sound s → Working s →
    (let sets (t : State) (code : StatusCode) (reply : List Byte) : Prop := Answers (.watchSet tag p) s t tag (.watchSet p) code reply
    let clears (t : State) (code : StatusCode) (reply : List Byte) : Prop :=
      Answers (.watchClear tag n) s t tag (.watchClear n) code reply
    let wrong : Prop := 7 < p.entry ∨ 1 < p.kind ∨ 4095 < p.address ∨ p.span ∉ [1, 2, 4, 8, 16, 32, 64, 128, 256]
      ∨ (p.kind = 0 ∧ (p.kinds = 0 ∨ 127 < p.kinds)) ∨ 1 < p.cls ∨ 1 < p.oneShot
    let entry : WatchEntry := ⟨true, some ⟨p.kind = 1, p.address - p.address % p.span, p.span,
      if p.kind = 1 then 0 else p.kinds, p.cls = 0, p.oneShot = 1⟩, 0⟩
    (s.outage.owner = .craft → sets s .held [] ∧ clears s .held []
      ∧ (let u : State := { s with outage.owner := .host }
        let told := notice nkWatchClaim false ([0, 2] ++ u16 (s.outage.watches.filter (fun e => e.enabled)).length
          ++ u16 (s.outage.held.filter (fun h => h.isSome)).length ++ opt 4 (s.time.clock.map (·.1))) u
        Answers (.reclaimWatch tag) s (printLine [word "RECLAIMED", word "BY", word "OFFICE"] told) tag .reclaimWatch .ok
          (watchReply u)))
    ∧ (s.outage.owner = .host →
      (wrong → sets s .badArg [])
      ∧ (¬ wrong →
        (let t : State := { s with outage.watches := s.outage.watches.set p.entry entry }
        sets t .ok (watchReply t)))
      ∧ (7 < n → clears s .badArg [])
      ∧ (∀ e, s.outage.watches[n]? = some e →
        (let t : State := { s with outage.watches := s.outage.watches.set n { e with enabled := false } }
        clears t .ok (watchReply t)))
      ∧ Answers (.reclaimWatch tag) s s tag .reclaimWatch .ok (watchReply s))
    ∧ (∀ (k : WatchKind) (a : Nat),
      (let hit (e : WatchEntry) : Bool := e.enabled && e.watch.any (fun w =>
        !w.guard && decide (a / w.span * w.span = w.base) && w.kinds.testBit (watchKindNum k))
      ((∀ e ∈ s.outage.watches, hit e = false) → watchEvent k a s = s)
      ∧ (∀ l₁ l₂ (w : Watch) (hits : Nat), s.outage.watches = l₁ ++ ⟨true, some w, hits⟩ :: l₂ → hit ⟨true, some w, hits⟩ = true →
        (∀ e ∈ l₁ ++ l₂, hit e = false) → s.outage.owner = .host →
        (let n := if hits < 255 then hits + 1 else 255
        watchEvent k a s = notice nkWatchHit w.urgent
          (u8 l₁.length ++ u8 (watchKindNum k) ++ u16 a
            ++ (match deviceOf s a with | some (true, i) => [0] ++ u16 i | some (false, i) => [1] ++ u8 i | none => [0xFF, 0xFF])
            ++ u8 n ++ flag w.once ++ opt 4 (s.time.clock.map (·.1)))
          { s with outage.watches := l₁ ++ ⟨!w.once, some w, n⟩ :: l₂ }))
      ∧ (let count (e : WatchEntry) : Nat := if e.hits < 255 then e.hits + 1 else 255
        let struck (e : WatchEntry) : WatchEntry :=
          if hit e then { e with enabled := !(e.watch.any (fun w => w.once)), hits := count e } else e
        let report (t : State) (x : WatchEntry × Nat) : State := match x.1.watch with
          | none => t
          | some w => match s.outage.owner with
            | .host => notice nkWatchHit w.urgent
              (u8 x.2 ++ u8 (watchKindNum k) ++ u16 a
                ++ (match deviceOf s a with | some (true, i) => [0] ++ u16 i | some (false, i) => [1] ++ u8 i | none => [0xFF, 0xFF])
                ++ u8 (count x.1) ++ flag w.once ++ opt 4 (s.time.clock.map (·.1))) t
            | .craft => printLine ([word "HIT", dec x.2, word (watchKindName k), dec a]
              ++ (match deviceOf s a with | some (true, i) => [word "TAP", dec i] | some (false, i) => [word "XP", dec i] | none => [])
              ++ [dec (count x.1)] ++ (if w.once then [word "OFF"] else [])) t
        watchEvent k a s = ((s.outage.watches.zipIdx).filter (fun x => hit x.1)).foldl report
          { s with outage.watches := s.outage.watches.map struck }))))

/-- RELEASE-HELD and the craft RELEASE empty a held place and move its port by the table of R118; DROP-HELD and the craft DROP
empty it and leave the port DROPPED (R119, R129). The one answers the host, the other prints. The reply of the order and the
line of the craft RELEASE are composed before the choice of work (the model's choice, log 42). So are the held list in the
replies (log 21), the attempts that the port keeps (log 53) and the bytes of a confirmed content that is UNKNOWN (log 71). -/
def Obligations.HeldCommandsLeaveTheList : Prop :=
  ∀ (tag : Byte) (n : Nat) (s : State), Quiet s → Sound s → Working s →
    (let releases (t : State) (code : StatusCode) (reply : List Byte) : Prop :=
      Answers (.releaseHeld tag n) s t tag (.releaseHeld n) code reply
    let drops (t : State) (code : StatusCode) (reply : List Byte) : Prop :=
      Answers (.dropHeld tag n) s t tag (.dropHeld n) code reply
    let typed (i : Instr) (t : State) (ws : List String) : Prop := exec i s = .next (kick (printLine (ws.map word) t))
    let number := String.ofList (dec n)
    (s.outage.owner = .craft → releases s .held [] ∧ drops s .held []
      ∧ (15 < n → typed (.release n) s ["ERR", "RANGE"] ∧ typed (.drop n) s ["ERR", "RANGE"])
      ∧ (s.outage.held[n]? = some none → typed (.release n) s ["ERR", "STATE"] ∧ typed (.drop n) s ["ERR", "STATE"]))
    ∧ (s.outage.owner = .host → typed (.release n) s ["ERR", "OWNER"] ∧ typed (.drop n) s ["ERR", "OWNER"]
      ∧ ((15 < n ∨ s.outage.held[n]? = some none) → releases s .badArg [] ∧ drops s .badArg []))
    ∧ (∀ (h : Held) (r : Port), s.outage.held[n]? = some (some h) → portOf s (h.tap, h.port) = some r →
      (let empty : State := { s with outage.held := s.outage.held.set n none }
      let put (k : Sync) (c : Option PClass) : State := modPort (h.tap, h.port) (fun r => { r with sync := k, cls := c }) empty
      let ends (t : State) (k : Sync) (name : String) : Prop :=
        (s.outage.owner = .host → releases t .ok (heldListBytes t ++ u8 (syncNum k)))
        ∧ (s.outage.owner = .craft → typed (.release n) t ["OK", "RELEASE", number, name])
      (parkHoldsAt s h.tap = true → ends (put .parked none) .parked "PARKED")
      ∧ (parkHoldsAt s h.tap = false → r.confirmed = some r.desired → ends (put .inSync none) .inSync "IN_SYNC")
      ∧ (parkHoldsAt s h.tap = false → r.confirmed ≠ some r.desired →
        ends { put .pending (some .urgent) with plant.urgent := .port h.tap h.port true :: s.plant.urgent } .pending "PENDING")
      ∧ (s.outage.owner = .host → drops (put .dropped none) .ok (heldListBytes (put .dropped none)))
      ∧ (s.outage.owner = .craft → typed (.drop n) (put .dropped none) ["OK", "DROP", number]))))

/-! ## Chapter 7: the craft port -/

/-- A printable character is kept and echoed while the buffer holds fewer than 80, or marks the line long; a backspace removes
the last; a carriage return empties the buffer, and the line typed is the command its words name, or is answered by its error;
a line of spaces is ignored (R121). A line sent leaves the print queue; the lines of a longer reply that wait join as room
appears, and then LOST n where lines were lost (R122). In STARTING every craft command is answered ERR BUSY and in UNSET every
one but IDENT ERR NO_TIME (R121); lines that find room in the print queue of 16 join it as a whole, a reply of more than 16
waits and joins line by line, and others, all of them while it waits, are counted lost (R122). The order of the outcomes of a
line and the words of the lines are the model's choice (log 12), and so is the output field (log 31); a carriage return that
comes as a character reads SERVICE as a free value (log 6). A line sent with an empty print queue changes nothing (log 14,
DEDUCED). -/
def Obligations.CraftLinesAreTaken : Prop :=
  (∀ (c : Byte) (service : Bool) (s : State), s.link.waiting = [] →
    (let text := s.craft.buffer
    let ended : State := { s with craft.buffer := [], craft.long := false, craft.service := service }
    let err (code : String) : Prop := exec (.craftLineEnd service) s = .next (kick (printLine [word "ERR", word code] ended))
    let erased : State := { s with craft.buffer := text.dropLast, craft.output := [Char.ofNat 8] }
    (32 ≤ c.toNat → c.toNat ≤ 126 → text.length < 80 → exec (.craftChar c) s
      = .next (kick { s with craft.buffer := text ++ [Char.ofNat c.toNat], craft.output := [Char.ofNat c.toNat] }))
    ∧ (32 ≤ c.toNat → c.toNat ≤ 126 → 80 ≤ text.length → exec (.craftChar c) s = .next (kick { s with craft.long := true }))
    ∧ (c.toNat < 32 ∨ 127 < c.toNat → c ≠ 8 → c ≠ 13 → exec (.craftChar c) s = .next (kick s))
    ∧ (∀ i ∈ [Instr.craftBackspace, .craftChar 0x08, .craftChar 0x7F],
      exec i s = .next (kick (if text = [] then s else erased)))
    ∧ exec (.craftChar 0x0D) s
        = exec (.craftLineEnd (Config.serviceLevel s.freeCount)) { s with freeCount := s.freeCount + 1 }
    ∧ (words text = [] → exec (.craftLineEnd service) s = .next (kick ended))
    ∧ (words text ≠ [] → s.craft.long = true → err "LONG")
    ∧ (words text ≠ [] → s.craft.long = false →
      (s.link.op = .starting → err "BUSY")
      ∧ (s.link.op = .unset → (words text).head? ≠ some (word "IDENT") → err "NO_TIME")
      ∧ (∀ (typed : List Text) (i : Instr), words text = typed → s.link.op ≠ .starting →
        Spells service typed i → exec (.craftLineEnd service) s = exec i ended)
      ∧ (s.link.op = .loading ∨ s.link.op = .run →
        ∀ w ws, words text = w :: ws → w ∉ ["HOLD", "FREE", "SHOW", "POLL", "TEST", "TAKE", "GIVE", "WATCH", "RELEASE", "DROP", "IDENT"].map word →
          err "SYNTAX")
      ∧ ((s.link.op = .loading ∨ s.link.op = .run) ∨ (s.link.op = .unset ∧ (words text).head? = some (word "IDENT")) →
        (∀ i, ¬ Spells service (words text) i) → err "SYNTAX"))
    ∧ (s.craft.print = [] → exec .craftLineSent s = .next (kick s))
    ∧ (∀ l ls, s.craft.print = l :: ls →
      (let n := 16 - ls.length
      let joined := ls ++ s.craft.rest.take n
      let told : Prop := 0 < s.craft.lost ∧ s.craft.rest.length ≤ n ∧ joined.length < 16
      exec .craftLineSent s = .next (kick { s with
        craft.print := if told then joined ++ [word "LOST " ++ dec s.craft.lost] else joined
        craft.rest := s.craft.rest.drop n
        craft.lost := if told then 0 else s.craft.lost
        craft.output := if text = [] then l ++ ['\r', '\n'] else ['\r', '\n'] ++ l ++ ['\r', '\n'] ++ text })))))
  ∧ (∀ (i : Instr) (s : State), s.link.waiting = [] →
    (match i with
      | .hold _ | .free _ | .showSeg _ | .showXp _ | .showTap _ | .poll _ | .test _ _ _ | .take | .give | .watch
      | .watchNEvent _ _ _ _ _ _ | .watchNGuard _ _ _ _ _ | .watchNOff _ | .release _ | .drop _ => True
      | _ => False) →
    (s.link.op = .starting → exec i s = .next (kick (printLine [word "ERR", word "BUSY"] s)))
    ∧ (s.link.op = .unset → exec i s = .next (kick (printLine [word "ERR", word "NO_TIME"] s)))
    ∧ (∀ l : List Text,
      (let n := 16 - s.craft.print.length
      (s.craft.rest = [] → s.craft.print.length + l.length ≤ 16 → print l s = { s with craft.print := s.craft.print ++ l })
      ∧ (s.craft.rest = [] → 16 < l.length →
        print l s = { s with craft.print := s.craft.print ++ l.take n, craft.rest := l.drop n })
      ∧ (s.craft.rest ≠ [] ∨ (16 < s.craft.print.length + l.length ∧ l.length ≤ 16) →
        print l s = { s with craft.lost := if s.craft.lost < 255 then s.craft.lost + 1 else 255 }))))

/-- HOLD puts a loaded segment in the hold set and FREE takes it out, each with the recomputation of R99, the hand-offs of
R100, CRAFT_HOLD and its reply; FREE forces a refresh of the freed segments' ports; FORCE-FREE is the host's FREE (R123 to
R125). The order in which the ports of the freed segments leave PARKED (log 47), which enters through the recomputation, and
CRAFT_HOLD before the reply on a free outbound line (log 52) are the model's choice. So are the order of segments on a cycle of
parent links (log 65) and the whole matter of QUERY-SEGMENT in the reply of FORCE-FREE (log 74), with the four numbers of
records without a count (log 82). -/
def Obligations.SegmentHolds : Prop :=
  ∀ (tag : Byte) (n : Nat) (s : State), Quiet s → Working s →
    (let typed (i : Instr) (ws : List Text) (t : State) : Prop := exec i s = .next (kick (printLine ws t))
    let forced (t : State) (code : StatusCode) (reply : List Byte) : Prop :=
      Answers (.forceFree tag n) s t tag (.forceFree n) code reply
    let held : Bool := s.craft.holds.getLsbD n
    let told (action : Nat) (hs : List HandOff) (t : State) : State := notice nkCraftHold false
      (u8 n ++ u8 action ++ (u8 hs.length ++ hs.flatMap (fun h => u8 h.segment ++ u8 (serviceNum h.before) ++ u8 (serviceNum h.after)))
        ++ u16 (hs.filter (fun h => h.before = .dark)).length ++ u16 (hs.filter (fun h => h.after = .dark)).length
        ++ opt 4 (s.time.clock.map (·.1))) t
    let freed (cause : HandCause) (action : Nat) (ends : State → List HandOff → Prop) : Prop :=
      let r := recomputeServices [n] cause { s with craft.holds := s.craft.holds &&& ~~~ BitVec.ofNat 32 (2 ^ n) }
      let out := r.2.filter (fun h => (h.before = .held || h.before = .shadow) && (h.after = .lit || h.after = .dark))
      let taps := (r.1.plant.taps.filter (fun t => out.any (fun h => h.segment = t.2.segment))).map (·.1)
      ends (told action r.2 ((portsOf taps).foldl (fun t q => forceRefresh q t) r.1)) out
    (31 < n → typed (.hold n) [word "ERR", word "RANGE"] s ∧ typed (.free n) [word "ERR", word "RANGE"] s ∧ forced s .badArg [])
    ∧ (n ≤ 31 → held = false →
      typed (.free n) [word "ERR", word "NOT_HELD"] s ∧ forced s .state []
      ∧ (tget s.telemetry.segments n = none → typed (.hold n) [word "ERR", word "NOT_LOADED"] s)
      ∧ (tget s.telemetry.segments n ≠ none →
        (let r := recomputeServices [n] .hold { s with craft.holds := s.craft.holds ||| BitVec.ofNat 32 (2 ^ n) }
        typed (.hold n) [word "OK", word "HELD", dec n, dec r.2.length] (told 0 r.2 r.1))))
    ∧ (n ≤ 31 → held = true →
      (tget s.telemetry.segments n ≠ none → typed (.hold n) [word "OK", word "HELD", dec n] s)
      ∧ freed .free 1 (fun t out => typed (.free n) [word "OK", word "FREED", dec n, dec out.length] t)
      ∧ freed .forceFree 2 (fun t _ => forced (printLine [word "FREED", word "BY", word "OFFICE", dec n] t) .ok
          (((tget t.telemetry.segments n).map (segBytes t n)).getD []))))

/-- When service states are recomputed with no cycle of parents standing, every segment given and every descendant of one ends
in the state of R99: HELD, SHADOW under a hold, DARK by its own condition or under a DARK parent, else LIT. Every segment
whose state changes, and no other, is handed on with the state before and after, in the order of depth, so that a parent goes
before its child, and at one depth in the order of the table (R100); on a cycle of parent links the order is the model's
choice (log 65). The ports of the taps in those segments are then gone through once, in ascending tap and port: with the park
conditions standing a PENDING port leaves its queue and is PARKED with no attempts; with none standing a PARKED one goes to
IN_SYNC where its contents are equal, or else to PENDING at the tail of the queue of its unpark class, which returns to REFRESH
(R100, R58, R59; one pass over all the segments is the model's choice, log 47). -/
def Obligations.ServiceStatesFollowTheirRule : Prop :=
  (∀ (ns : List Nat) (cause : HandCause) (s : State), (s.telemetry.segments.map (·.1)).Nodup →
    (∀ g ∈ s.telemetry.segments, chainBad s.telemetry.segments g.1 = none) →
    (let t := (recomputeServices ns cause s).1
    let above (m : Nat) := ancestors s.telemetry.segments m
    ∀ m g, tget t.telemetry.segments m = some g → m ∈ ns ∨ (∃ n ∈ ns, n ∈ above m) →
      (s.craft.holds.getLsbD m = true → g.service = .held)
      ∧ (s.craft.holds.getLsbD m = false → (∃ a ∈ above m, s.craft.holds.getLsbD a = true) → g.service = .shadow)
      ∧ (s.craft.holds.getLsbD m = false → (∀ a ∈ above m, s.craft.holds.getLsbD a = false) →
        (let parentDark : Prop := ∃ p h, g.parent = some p ∧ tget t.telemetry.segments p = some h ∧ h.service = .dark
        (g.condition = .outage ∨ parentDark → g.service = .dark) ∧ (g.condition ≠ .outage → ¬ parentDark → g.service = .lit)))))
  ∧ (∀ (ns : List Nat) (cause : HandCause) (s : State),
    (let segs := s.telemetry.segments
    let walk (n : Nat) : List Nat := ancestorsFrom segs segs.length [n] n
    let r := recomputeServices ns cause s
    let before (n : Nat) := (tget segs n).map (·.service)
    let after (n : Nat) := (tget r.1.telemetry.segments n).map (·.service)
    (r.2.map (·.segment)).Sublist
      ((List.range (segs.length + 1)).flatMap (fun d => (segs.map (·.1)).filter (fun n => (walk n).length = d)))
    ∧ (∀ n p g, tget segs n = some g → g.parent = some p → tget segs p ≠ none → p ≠ n → n ∉ walk p →
      (walk n).length = (walk p).length + 1)
    ∧ ((segs.map (·.1)).Nodup →
      (∀ h ∈ r.2, h.before ≠ h.after ∧ before h.segment = some h.before ∧ after h.segment = some h.after)
      ∧ ∀ n, before n ≠ after n → ∃ h ∈ r.2, h.segment = n)))
  ∧ (∀ (ns : List Nat) (cause : HandCause) (s : State),
    (let r := recomputeServices ns cause s
    let moved (u : State) (p : Nat × Nat) : State :=
      match portOf u p, tget u.plant.taps p.1 with
      | some x, some t =>
        let parks : Bool := t.unreachable.isSome || decide (serviceOf r.1 t.segment ≠ .lit)
        if parks ∧ x.sync = .pending then
          { modPort p (fun x => { x with sync := .parked, cls := none, attempts := 0 }) u with
            plant.urgent := u.plant.urgent.filter (fun e => match e with | .port a b _ => decide ((a, b) ≠ p) | .craft _ => true)
            plant.refresh := u.plant.refresh.filter (· ≠ p) }
        else if ¬ parks ∧ x.sync = .parked then
          if x.confirmed = some x.desired then modPort p (fun y => { y with sync := .inSync, cls := none, unpark := .refresh }) u
          else
            let v := modPort p (fun y => { y with sync := .pending, cls := some x.unpark, unpark := .refresh }) u
            match x.unpark with
            | .urgent => { v with plant.urgent := u.plant.urgent ++ [.port p.1 p.2 false] }
            | .refresh => { v with plant.refresh := u.plant.refresh ++ [p] }
        else u
      | _, _ => u
    let taps := (s.plant.taps.filter (fun t => r.2.any (fun h => h.segment = t.2.segment))).map (·.1)
    r.1.plant = ((taps.flatMap (fun i => [(i, 0), (i, 1), (i, 2), (i, 3)])).foldl moved s).plant))

/-- SHOW prints the matter that the host's query returns and changes nothing; POLL and TEST are refused by the causes of R83,
or put one craft request at the head of the URGENT queue (R126, R127, R83). The text of the matter is free (log 11). The number
in the first line is printed in plain decimal (the model's choice, log 75), and the matter of SHOW SEG has the four numbers of
records without a count (the model's choice, log 82). -/
def Obligations.CraftShowsAndRequests : Prop :=
  ∀ (n p : Nat) (on : Bool) (s : State), s.link.waiting = [] → Working s →
    (let typed (i : Instr) (ws : List Text) : Prop := exec i s = .next (kick (printLine ws s))
    let err (i : Instr) (code : String) : Prop := typed i [word "ERR", word code]
    let shows (i : Instr) (what : String) (matter : List Byte) : Prop := exec i s = .next (kick (print
      (line [word "OK", word "SHOW", word what, dec n] :: (Config.showLines matter).map (fun l => l.take 80)) s))
    let queued (i : Instr) (r : CraftReq) : Prop := exec i s = .next (kick { s with plant.urgent := .craft r :: s.plant.urgent })
    let busy : Prop := (∃ r, .craft r ∈ s.plant.urgent)
      ∨ ∃ t, s.plant.current = some t ∧ (t.purpose = .craftPoll ∨ t.purpose = .craftTest)
    (31 < n → err (.showSeg n) "RANGE")
    ∧ (n ≤ 31 → tget s.telemetry.segments n = none → err (.showSeg n) "NOT_LOADED")
    ∧ (∀ g, n ≤ 31 → tget s.telemetry.segments n = some g → shows (.showSeg n) "SEG" (segBytes s n g))
    ∧ (4095 < n → err (.showXp n) "RANGE" ∧ err (.showTap n) "RANGE" ∧ err (.poll n) "RANGE")
    ∧ (n ≤ 4095 → xpAt s n = none → err (.showXp n) "NOT_LOADED")
    ∧ (∀ i x, n ≤ 4095 → xpAt s n = some (i, x) → shows (.showXp n) "XP" (xpBytes s i x))
    ∧ (n ≤ 4095 → tapAt s n = none → err (.showTap n) "NOT_LOADED")
    ∧ (∀ i x, n ≤ 4095 → tapAt s n = some (i, x) → shows (.showTap n) "TAP" (tapBytes s i x))
    ∧ (4095 < n ∨ 3 < p → err (.test n p on) "RANGE")
    ∧ (n ≤ 4095 →
      (s.link.op ≠ .run → err (.poll n) "STATE")
      ∧ (s.link.op = .run → busy → err (.poll n) "BUSY")
      ∧ (s.link.op = .run → ¬ busy → xpAt s n = none → tapAt s n = none → err (.poll n) "NOT_LOADED")
      ∧ (s.link.op = .run → ¬ busy → xpAt s n ≠ none ∨ tapAt s n ≠ none → queued (.poll n) (.poll n)))
    ∧ (n ≤ 4095 → p ≤ 3 →
      (s.link.op ≠ .run → err (.test n p on) "STATE")
      ∧ (s.link.op = .run → busy → err (.test n p on) "BUSY")
      ∧ (s.link.op = .run → ¬ busy → tapAt s n = none → err (.test n p on) "NOT_LOADED")
      ∧ (∀ i x, s.link.op = .run → ¬ busy → tapAt s n = some (i, x) →
        (serviceOf s x.segment ≠ .held → err (.test n p on) "NOT_HELD")
        ∧ (serviceOf s x.segment = .held → queued (.test n p on) (.test n p on)))))

/-- TAKE and GIVE change the owner of the watches with WATCH_CLAIM; with the host as owner every other watch command is
answered ERR OWNER; with the craft port as owner each acts as its host order and prints its reply (R128, R129). The text of a
WATCH listing is free (log 11). A set of kinds above 127 is refused as the model chooses (log 20). -/
def Obligations.CraftWatchCommands : Prop :=
  ∀ (n a span kinds : Nat) (urgent once guard : Bool) (s : State), s.link.waiting = [] → Working s → Sound s →
    (let typed (i : Instr) (ws : List Text) (t : State) : Prop := exec i s = .next (kick (printLine ws t))
    let set : Instr := if guard then .watchNGuard n a span urgent once else .watchNEvent n a span kinds urgent once
    let enabled := (s.outage.watches.filter (fun e => e.enabled)).length
    let held := (s.outage.held.filter (fun h => h.isSome)).length
    let claimed (o : Owner) (cause : Nat) : State := notice nkWatchClaim false
      (u8 (ownerNum o) ++ u8 cause ++ u16 enabled ++ u16 held ++ opt 4 (s.time.clock.map (·.1))) { s with outage.owner := o }
    (s.outage.owner = .host →
      typed .take [word "OK", word "TAKEN", dec enabled, dec held] (claimed .craft 0)
      ∧ ∀ i ∈ [Instr.give, .watch, set, .watchNOff n], typed i [word "ERR", word "OWNER"] s)
    ∧ (s.outage.owner = .craft →
      typed .take [word "OK", word "TAKEN"] s
      ∧ typed .give [word "OK", word "GIVEN"] (claimed .host 1)
      ∧ exec .watch s = .next (kick (print ([word "OK"] :: [watchLines 0 s.outage.watches, heldLines s 0 s.outage.held]).flatten s))
      ∧ (watchLines 0 s.outage.watches).length = enabled ∧ (heldLines s 0 s.outage.held).length = held
      ∧ (7 < n → typed (.watchNOff n) [word "ERR", word "RANGE"] s)
      ∧ (∀ e, s.outage.watches[n]? = some e →
        typed (.watchNOff n) [word "OK", word "WATCH", dec n, word "OFF", dec e.hits]
          { s with outage.watches := s.outage.watches.set n { e with enabled := false } })
      ∧ (let wrong : Prop := 7 < n ∨ 4095 < a ∨ span ∉ [1, 2, 4, 8, 16, 32, 64, 128, 256]
          ∨ (guard = false ∧ (kinds = 0 ∨ 127 < kinds))
        (wrong → typed set [word "ERR", word "RANGE"] s)
        ∧ (¬ wrong → typed set [word "OK", word "WATCH", dec n, dec (a - a % span)] { s with
          outage.watches := s.outage.watches.set n
            ⟨true, some ⟨guard, a - a % span, span, if guard then 0 else kinds, urgent, once⟩, 0⟩ }))))

/-- IDENT and LOCK-WRITE make their checks in order and hand one identity programming to the store; when it has been read back
the word holds what the array took of it, IDENT prints and LOCK-WRITE is answered, and the lock is PENDING once both words hold
their values (R131, R161, R162). The reply to LOCK-WRITE carries the value read with STORE_FAULT alone (the model's choice, log
81). A byte that the operand does not give clears no bit, and one past the word is not read (the model's choice, log 4). -/
def Obligations.IdentityWordsAreProgrammed : Prop :=
  ∀ (tag : Byte) (h w v : Nat) (service : Bool) (p : Programmed) (s : State), s.link.waiting = [] →
    (let d := s.store.identity
    let blank : IdWord := 0xFFFFFFFF
    let u : State := { s with craft.service := service }
    let typed (code : String) : Prop := exec (.ident h service) s = .next (kick (printLine [word "ERR", word code] u))
    let joined (k : IdTarget) (x : IdWord) (t : State) : State := { t with
      store.queue := t.store.queue ++ [.identity k x]
      store.path := if t.store.path = .idle then .append else t.store.path }
    let ranged : Prop := 1 ≤ h ∧ h ≤ 4294967294
    let writes (code : StatusCode) : Prop := Answers (.lockWrite tag w v) s s tag (.lockWrite w v) code []
    let target : IdTarget := if w = 0 then .lockA else .lockB
    let old : IdWord := if w = 0 then d.lockA else d.lockB
    let want : IdWord := if w = 0 then d.headId else ~~~ d.headId
    (s.link.op = .starting → typed "BUSY")
    ∧ (s.link.op ≠ .starting →
      (service = false → typed "SERVICE")
      ∧ (service = true → ¬ ranged → typed "RANGE")
      ∧ (service = true → ranged → d.headId ≠ blank → typed "PROGRAMMED")
      ∧ (service = true → ranged → d.headId = blank → s.craft.ident = true → typed "BUSY")
      ∧ (service = true → ranged → d.headId = blank → s.craft.ident = false → s.store.fault = true → typed "STORE")
      ∧ (service = true → ranged → d.headId = blank → s.craft.ident = false → s.store.fault = false →
        exec (.ident h service) s = .next (kick (joined .headId (BitVec.ofNat 32 h) { u with craft.ident := true }))))
    ∧ (Quiet s → Working s →
      (1 < w → writes .badArg)
      ∧ (w ≤ 1 → s.store.fault = true → writes .storeFault)
      ∧ (w ≤ 1 → s.store.fault = false → old ≠ blank → writes .locked)
      ∧ (w ≤ 1 → s.store.fault = false → old = blank → d.headId = blank → writes .state)
      ∧ (w ≤ 1 → s.store.fault = false → old = blank → d.headId ≠ blank → BitVec.ofNat 32 v ≠ want → writes .badArg)
      ∧ (w ≤ 1 → s.store.fault = false → old = blank → d.headId ≠ blank → BitVec.ofNat 32 v = want →
        Awaits (.lockWrite tag w v) s (joined target want s) tag (.lockWrite w v)))
    ∧ (∀ x : IdWord, s.store.path = .append → s.engine.state = .idle →
      (let taken (old : IdWord) : IdWord := old &&& BitVec.ofNat 32 (unbe (took p (u32 x.toNat)))
      (s.store.queue = [.identity .headId x] →
        (let got := taken d.headId
        let t : State := { s with
          store.identity := { d with headId := got }, store.queue := [], store.path := .idle, craft.ident := false }
        exec (.identityWordProgrammed p) s = .next (kick (printLine
          (if got = x then [word "OK", word "IDENT", dec x.toNat] else [word "ERR", word "STORE"]) t))))
      ∧ (w ≤ 1 → s.link.inFlight = some (tagged tag (.lockWrite w v)) → s.store.queue = [.identity target x] →
        (let got := taken old
        let new : Identity := if w = 0 then { d with lockA := got } else { d with lockB := got }
        let t : State := { s with
          store.identity := new
          store.queue := []
          store.path := .idle
          store.lock := if got = x ∧ d.headId ≠ blank ∧ new.lockA = d.headId ∧ new.lockB = ~~~ d.headId
            ∧ s.store.lock ≠ .effective then .pending else s.store.lock
          link.inFlight := none }
        exec (.identityWordProgrammed p) s = .next (kick (
          if got = x then joinReply (tagged tag (.lockWrite w v)) .ok [] t
          else joinReply (tagged tag (.lockWrite w v)) .storeFault (u32 got.toNat) t)))))))

/-! ## Chapters 9 and 10: the billing store, periods and statements -/

/-- READ-BANK reports slots as they read and raises the read watermark; RELEASE-BANK and STORE-CLEAR make their checks and
queue the RELEASED markers they need; SET-TARIFF writes one staged rate, clamped (R158 to R160, R164). STORE-CLEAR empties the
spend list and the watermarks at acceptance, the rates are sent without a count, and a bank closed without a CLOSE record asks
no watermark (the model's choice, logs 66, 67 and 76). -/
def Obligations.StoreOrdersReadAndRelease : Prop :=
  ∀ (tag : Byte) (k : BankId) (i c n r : Nat) (s : State), Quiet s → Working s →
    (let b := bank s k
    let reads (t : State) (code : StatusCode) (reply : List Byte) : Prop :=
      Answers (.readBank tag (bankNum k) i c) s t tag (.readBank (bankNum k) i c) code reply
    let slot (j : Nat) : List Byte :=
      if j = 0 then [3] ++ (slotBytes b 0).take 31
      else if slotState b j = 0xFF then [0] ++ absent 31
      else if slotState b j = 0x0F then [1] ++ (slotBytes b j).take 31
      else [2] ++ absent 31
    let releases (code : StatusCode) : Prop := Answers (.releaseBank tag n) s s tag (.releaseBank n) code []
    let clears (t : State) (code : StatusCode) : Prop := Answers (.storeClear tag) s t tag .storeClear code []
    let joined (l : List StoreItem) (t : State) : State := { t with
      store.queue := t.store.queue ++ l
      store.path := if t.store.path = .idle then .append else t.store.path }
    let holds (x : Bank) : Prop := hdr x 2 ≠ 0xFF ∧ seqOf x = n
    let needs (x : Bank) : Bool := decide (x.state ≠ .free) && decide (hdr x 16 = 0xFF)
    let range : Prop := 1 ≤ c ∧ c ≤ 16 ∧ i + c ≤ 32768
    (∀ m, 1 < m → Answers (.readBank tag m i c) s s tag (.readBank m i c) .badArg [])
    ∧ (¬ range → reads s .badArg [])
    ∧ (range → b.state = .free → reads s .state [])
    ∧ (range → b.state = .erasing ∨ b.state = .closing → reads s .busy [])
    ∧ (range → b.state = .open_ ∨ b.state = .closed →
      reads (setBank s k { b with watermark := max b.watermark (i + c) }) .ok
        (u8 (if b.state = .open_ then 1 else 3) ++ u16 (seqOf b) ++ slotBytes b 0
          ++ (if b.state = .open_ then u16 b.append else [0xFF, 0xFF]) ++ u8 c ++ (List.range c).flatMap (fun j => slot (i + j))))
    ∧ (s.store.fault = true → releases .storeFault)
    ∧ (s.store.fault = false → ¬ holds s.store.a → ¬ holds s.store.b → releases .badArg)
    ∧ (s.store.fault = false → holds b → (holds (bank s (otherBank k)) → b.state ≠ .erasing ∧ (bank s (otherBank k)).state = .erasing) →
      (b.state = .erasing ∨ b.state = .closing → releases .busy)
      ∧ (b.state = .free ∨ b.state = .open_ → releases .state)
      ∧ (b.state = .closed → closeSlot b = none →
        Awaits (.releaseBank tag n) s (joined [.header k .released] s) tag (.releaseBank n))
      ∧ (∀ j, b.state = .closed → closeSlot b = some j →
        (s.store.lock = .effective → b.watermark ≤ j → releases .state)
        ∧ (s.store.lock ≠ .effective ∨ j < b.watermark →
          Awaits (.releaseBank tag n) s (joined [.header k .released] s) tag (.releaseBank n))))
    ∧ (s.link.op = .loading →
      (s.store.lock = .effective → clears s .locked)
      ∧ (s.store.lock ≠ .effective → s.store.fault = true → clears s .storeFault)
      ∧ (s.store.lock ≠ .effective → s.store.fault = false → s.store.a.state = .closing ∨ s.store.b.state = .closing → clears s .busy)
      ∧ (s.store.lock ≠ .effective → s.store.fault = false → s.store.a.state ≠ .closing → s.store.b.state ≠ .closing →
        (let t : State := { s with store.spend := [], store.a.watermark := 0, store.b.watermark := 0 }
        (needs s.store.a = false → needs s.store.b = false → clears t .ok)
        ∧ (needs s.store.a = true ∨ needs s.store.b = true → Awaits (.storeClear tag) s
          (joined ((if needs s.store.a then [.header .a .released] else []) ++ if needs s.store.b then [.header .b .released] else []) t)
          tag .storeClear))))
    ∧ (15 < n → Answers (.setTariff tag n r) s s tag (.setTariff n r) .badArg [])
    ∧ (n ≤ 15 →
      (let staged := s.engine.tariff.set n (if 65535 < r then 65535 else r)
      Answers (.setTariff tag n r) s { s with engine.tariff := staged } tag (.setTariff n r) .ok
        (staged.flatMap u16 ++ match openBank s with | none => absent 32 | some j => (ratesOf (bank s j)).flatMap u16))))

/-- A journal record whose read-back agrees commits: the append point advances, the mismatch count returns to 0, and the next
item is taken. One that disagrees is voided, counted, and written again; the fourth mismatch in a row, and a void that still
reads as committed, fault the store: the queue is discarded and STORE_FAULT queued (R148, R149). An automatic record that finds
a free slot joins the queue, one that finds none is lost: OVERFLOW is programmed once and JOURNAL_LOW names its kind; the first
fall of the free slots to 256 marks the bank and queues JOURNAL_LOW; and a record whose last slot was voided is lost at the
head of the queue, or its order answered JOURNAL_FULL (R151, R152). The number of a lost record's kind and the fields of
JOURNAL_LOW are the model's choice (log 20). A page being erased as the store faults keeps its bytes (the model's choice, log
59). A programming reaches its own slot alone (the model's choice, log 4). -/
def Obligations.RecordsCommitOrAreVoided : Prop :=
  (∀ (p : Programmed) (k : BankId) (body : List Byte) (q : List StoreItem) (s : State), s.link.waiting = [] →
    s.link.inFlight = none → s.craft.ident = false → s.store.fault = false → s.store.path = .append → s.engine.state = .idle →
    s.store.queue = .record body .other :: q → openBank s = some k → (bank s k).append < 16000 → q.length < 100 →
    behindOpened q = none →
    (let b := bank s k
    let j := b.append
    let given := body ++ [0x0F]
    let wrote : Bank := { b with cells := cellsAnd b.cells (32 * j) (took p given), append := j + 1 }
    let voided : Bank := { wrote with cells := cellsAnd wrote.cells (32 * j + 31) [p.voids.head?.getD 0] }
    let faulted (cause : Nat) (count : Nat) : State := notice nkStoreFault true
      (u8 cause ++ u8 (bankNum k) ++ u16 j ++ opt 4 (s.time.clock.map (·.1)))
      (let t := setBank s k voided
      { t with
        store.mismatches := count
        store.fault := true
        store.queue := []
        store.path := .idle
        store.a.page := none
        store.b.page := none
        engine.rolls := [] })
    (slotBytes wrote j = given → exec (.journalRecordProgrammed p) s = .next (kick { setBank s k wrote with
      store.queue := q, store.mismatches := 0, store.path := if q = [] then .idle else .append }))
    ∧ (slotBytes wrote j ≠ given → slotState voided j = 0x0F →
      exec (.journalRecordProgrammed p) s = .next (kick (faulted 1 s.store.mismatches)))
    ∧ (slotBytes wrote j ≠ given → slotState voided j ≠ 0x0F → 3 ≤ s.store.mismatches →
      exec (.journalRecordProgrammed p) s = .next (kick (faulted 0 (s.store.mismatches + 1))))
    ∧ (slotBytes wrote j ≠ given → slotState voided j ≠ 0x0F → s.store.mismatches < 3 →
      exec (.journalRecordProgrammed p) s = .next (kick { setBank s k voided with store.mismatches := s.store.mismatches + 1 }))))
  ∧ (∀ (kind : Nat) (fields : List Byte) (o : Origin) (k : BankId) (s : State), s.store.fault = false → openBank s = some k →
    (let body := u8 kind ++ u32 (minuteOf s) ++ fields
    let joined (o : Origin) : State := { s with
      store.minute := minuteOf s
      store.queue := s.store.queue ++ [.record (body ++ List.replicate (31 - body.length) 0xFF) o]
      store.path := if s.store.path = .idle then .append else s.store.path }
    let low (t : State) : State := if freeSlots s ≤ 257 ∧ s.store.lowMark = false then
      notice nkJournalLow true (u8 1 ++ u8 (bankNum k) ++ u16 (seqOf (bank s k)) ++ u16 (freeSlots s - 1))
        { t with store.lowMark := true } else t
    let marked : State := if hdr (bank s k) 18 ≠ 0xFF ∨ .header k .overflow ∈ s.store.queue then s else { s with
      store.queue := s.store.queue ++ [.header k .overflow]
      store.path := if s.store.path = .idle then .append else s.store.path }
    (freeSlots s = 0 → appendAuto kind fields o s = (notice nkJournalLow true (u8 0 ++ u8 (kind - 1)) marked, false))
    ∧ (0 < freeSlots s → behindOpened s.store.queue = none →
      appendAuto kind fields o s = (low (joined o), true) ∧ appendHost kind fields s = low (joined .order))))
  ∧ (∀ (p : Programmed) (k : BankId) (body : List Byte) (o : Origin) (q : List StoreItem) (s : State), s.link.waiting = [] →
    s.store.fault = false → s.store.path = .append → s.engine.state = .idle → s.store.queue = .record body o :: q →
    q.all (fun i => !isRecord i) = true → behindOpened q = none → openBank s = some k → (bank s k).append = 16383 →
    s.store.lowMark = true → s.store.mismatches < 3 →
    (let b := bank s k
    let given := body ++ [0x0F]
    let wrote : Bank := { b with cells := cellsAnd b.cells (32 * 16383) (took p given), append := 16384 }
    let voided : Bank := { wrote with cells := cellsAnd wrote.cells (32 * 16383 + 31) [p.voids.head?.getD 0] }
    let left (q : List StoreItem) : State := { setBank s k voided with
      store.mismatches := s.store.mismatches + 1, store.queue := q, store.path := if q = [] then .idle else .append }
    slotBytes wrote 16383 ≠ given → slotState voided 16383 ≠ 0x0F →
    (∀ tag ord, o = .order → s.link.inFlight = some (tagged tag ord) → exec (.journalRecordProgrammed p) s
      = .next (kick (joinReply (tagged tag ord) .journalFull [] { left q with link.inFlight := none })))
    ∧ (o = .other ∨ (∃ id, o = .outage id) → s.link.inFlight = none → exec (.journalRecordProgrammed p) s
      = .next (kick (notice nkJournalLow true (u8 0 ++ u8 (fld body 0 1 - 1))
        (left (if hdr voided 18 ≠ 0xFF ∨ .header k .overflow ∈ q then q else q ++ [.header k .overflow])))))))

/-- A header field whose read-back agrees commits, and the marker OPENED, CLOSING, CLOSED or RELEASED brings its bank to OPEN,
CLOSING, CLOSED or ERASING with what belongs to it, whatever order is in flight and whatever waits behind it, and where nothing
waits and the engine is COMPUTING the next statement slot is taken up (R151); one that disagrees is counted and programmed
again, and the fourth in a row faults the store, which answers the order in flight, said where no IDENT is in hand (R145 to
R149, R175). TARIFF records follow OPENED, or a deferred open minute (R164). RELEASED answers RELEASE-BANK with the sequence,
and the last of them STORE-CLEAR (R159, R160). OPENED in a close empties the spend list, joins the TARIFF records and the first
ROLL, and answers CLOSE-PERIOD, where no host order but the limit began the close nothing (R166, R169); each ROLL reported
brings the next, and the last COMPUTING, at which the first statement is taken up where nothing waits (R168, R174). Each page
of an erase reads blank or faults the store, and the last makes the bank FREE (R159; the marks of the pages are the model's,
log 28, and so is the slot that an erase's STORE_FAULT names, log 58). The commit of an open minute makes the limit state
PENDING (R169). A bank with no page in hand is left alone (log 14, DEDUCED), and STORE_FAULT goes before the order's reply on a
free outbound line (the model's choice, log 52). A page then being erased in the other bank keeps its bytes (the model's
choice, log 59). A bank closed without a CLOSE record is reported as the record would have stood (the model's choice, log 76),
and BANK_FREE carries the sequence bytes as they read (the model's choice, log 60). The array takes as many bytes as were
given, so a header programming changes no byte outside its field (the model's choice, log 4). RELEASED leaves the low mark (the
model's choice, log 84). A record that waits behind the field and finds no slot is the matter of RecordsCommitOrAreVoided. -/
def Obligations.HeadersErasesAndRolls : Prop :=
  (∀ (p : Programmed) (given : List Byte), (took p given).length = given.length ∧ (p.landed = none → took p given = given)
    ∧ (∀ (bs : List Byte) (i : Nat), p.landed = some bs → i < given.length → (took p given)[i]? = some ((bs[i]?).getD 0xFF)))
  ∧ (∀ (p : Programmed) (k : BankId) (f : HeaderField) (q : List StoreItem) (s : State), s.link.waiting = [] →
    s.link.op ≠ .starting → s.store.fault = false → s.store.path = .append → s.store.queue = .header k f :: q →
    (let b := bank s k
    let wrote : Bank := { b with cells := cellsAnd b.cells (fieldAt f) (took p (fieldBytes f)) }
    let ends (t : State) : Prop := exec (.headerFieldProgrammed p) s = .next (kick t)
    let faulted : State := notice nkStoreFault true ([0] ++ u8 (bankNum k) ++ [0, 0] ++ opt 4 (s.time.clock.map (·.1)))
      (let t := setBank s k wrote
      { t with
        store.mismatches := s.store.mismatches + 1
        store.fault := true
        store.queue := []
        store.path := .idle
        store.a.page := none
        store.b.page := none
        engine.rolls := []
        engine.state := match s.engine.state with | .sequence => .idle | .rolling => .computing | x => x })
    let goesOn (x : Bank) : Prop := match q with
      | .record _ _ :: _ => ∃ i, openBank (setBank s k x) = some i ∧ (bank (setBank s k x) i).append ≤ 16383
      | _ => True
    let next (t : State) : State :=
      if q = [] ∧ s.engine.state = .computing ∧ s.engine.closeDone = false then { takeAccount t with store.path := .statement } else t
    let commit (x : Bank) : State :=
      { setBank s k x with store.queue := q, store.mismatches := 0, store.path := if q = [] then .idle else .append }
    let answered (tag : Byte) (o : Order) (body : List Byte) (t : State) : State :=
      joinReply (tagged tag o) .ok body { t with link.inFlight := none }
    let rates : List StoreItem := s.engine.tariff.zipIdx.map (fun x =>
      .record (u8 7 ++ u32 (minuteOf s) ++ u8 x.2 ++ u16 x.1 ++ absent 23) .other)
    let withRates (t : State) : State :=
      { t with store.minute := minuteOf s, store.queue := q ++ rates, store.path := .append }
    let room : Prop := s.engine.tariff.length = 16 ∧ behindOpened q = none ∧ (q.filter isRecord).length < 16000
    let released : Bank := { wrote with state := .erasing, page := some 255 }
    let opened : Bank := { wrote with state := .open_, append := 1 }
    let emptied (t : State) : State := { t with store.spend := [], store.lowMark := false }
    (fieldAgrees wrote f = false → s.store.mismatches < 3 → ends { setBank s k wrote with
      store.mismatches := s.store.mismatches + 1 })
    ∧ (fieldAgrees wrote f = false → 3 ≤ s.store.mismatches → s.craft.ident = false →
      (∀ tag o, s.link.inFlight = some (tagged tag o) →
        ends (joinReply (tagged tag o) .storeFault [] { faulted with link.inFlight := none }))
      ∧ (s.link.inFlight = none → ends faulted))
    ∧ (fieldAgrees wrote f = true →
      (match f with
      | .sequence _ => goesOn wrote → ends (next (commit wrote))
      | .closeMinute _ => goesOn wrote → ends (next (commit wrote))
      | .overdue => goesOn wrote → ends (next (commit wrote))
      | .overflow => goesOn wrote → ends (next (commit wrote))
      | .openMinute _ =>
        (hdr wrote 13 = 0xFF → goesOn wrote → ends (next { commit wrote with engine.limitTaken := false }))
        ∧ (hdr wrote 13 ≠ 0xFF → openBank s = some k → room → b.append + (q.filter isRecord).length < 16000 →
          ends (withRates { commit wrote with engine.limitTaken := false }))
      | .closing =>
        goesOn { wrote with state := .closing, stmtAppend := 16384 } →
          ends (next (commit { wrote with state := .closing, stmtAppend := 16384 }))
      | .closed => goesOn { wrote with state := .closed } →
        (let r : List Byte := match closeSlot wrote with | some j => slotBytes wrote j | none => closeRecord wrote s.engine
        ends (notice nkStatementsReady false ((r.drop 1).take 2 ++ (r.drop 7).take 21)
          { commit { wrote with state := .closed } with engine.state := .idle }))
      | .released => goesOn released →
        (∀ tag n, s.link.inFlight = some (tagged tag (.releaseBank n)) →
          ends (next (answered tag (.releaseBank n) (u16 (seqOf wrote)) (commit released))))
        ∧ (∀ tag, s.link.inFlight = some (tagged tag .storeClear) →
          ((∃ i, .header i .released ∈ q) → ends (next (commit released)))
          ∧ ((∀ i, .header i .released ∉ q) → ends (next (answered tag .storeClear [] (commit released)))))
        ∧ ((∀ tag n, s.link.inFlight ≠ some (tagged tag (.releaseBank n))) →
          (∀ tag, s.link.inFlight ≠ some (tagged tag .storeClear)) → ends (next (commit released)))
      | .opened => (bank s (otherBank k)).state ≠ .open_ →
        (s.engine.state ≠ .sequence → hdr wrote 7 = 0xFF → goesOn opened → ends (next (emptied (commit opened))))
        ∧ (s.engine.state ≠ .sequence → hdr wrote 7 ≠ 0xFF → room → ends (withRates (emptied (commit opened))))
        ∧ (s.engine.state = .sequence → hdr wrote 7 ≠ 0xFF → room →
          (let reply := u16 (seqOf (bank (commit opened) s.engine.bank)) ++ u32 s.engine.minute
          let t := withRates (emptied (commit opened))
          let begun : State := match s.engine.rolls with
            | [] => { t with engine.state := .computing }
            | r :: rs => { t with
              store.queue := q ++ rates ++ [.record (u8 8 ++ u32 (minuteOf s) ++ u32 r.account ++ u16 r.slot
                ++ u8 (subStateNum r.state) ++ u16 r.tiers.toNat ++ u8 r.segment ++ absent 16) .roll]
              engine.state := .rolling
              engine.rolls := rs }
          (∀ tag, s.link.inFlight = some (tagged tag .closePeriod) → ends (answered tag .closePeriod reply begun))
          ∧ ((∀ tag, s.link.inFlight ≠ some (tagged tag .closePeriod)) → ends begun)))))))
  ∧ (∀ (p : Programmed) (i : BankId) (body : List Byte) (q : List StoreItem) (s : State), s.link.waiting = [] →
    s.link.op ≠ .starting → s.store.fault = false → s.store.path = .append → s.store.queue = .record body .roll :: q →
    openBank s = some i → behindOpened q = none → 257 < freeSlots s → s.engine.state = .rolling →
    (let j := (bank s i).append
    let wrote : Bank := { bank s i with cells := cellsAnd (bank s i).cells (32 * j) (took p (body ++ [0x0F])), append := j + 1 }
    let base : State := { setBank s i wrote with store.mismatches := 0 }
    let ends (t : State) : Prop := exec (.journalRecordProgrammed p) s = .next (kick t)
    slotBytes wrote j = body ++ [0x0F] →
    (∀ r rs, s.engine.rolls = r :: rs → ends { base with
      store.minute := minuteOf s
      store.queue := q ++ [.record (u8 8 ++ u32 (minuteOf s) ++ u32 r.account ++ u16 r.slot ++ u8 (subStateNum r.state)
        ++ u16 r.tiers.toNat ++ u8 r.segment ++ absent 16) .roll]
      engine.rolls := rs })
    ∧ (s.engine.rolls = [] → q ≠ [] → ends { base with store.queue := q, engine.state := .computing })
    ∧ (s.engine.rolls = [] → q = [] → s.engine.closeDone = false →
      ends { takeAccount { base with store.queue := [], store.path := .idle, engine.state := .computing } with
        store.path := .statement })))
  ∧ (∀ (k : BankId) (torn : List Byte) (s : State), s.link.waiting = [] → s.link.op ≠ .starting → s.store.fault = false →
    (let b := bank s k
    let blank (n : Nat) : List Host.Cell := b.cells.filter (fun c => decide (c.1 / 4096 ≠ n))
    let ends (left : List Host.Cell) (t : State) : Prop := exec (.erasePageDone k left torn) s = .next (kick t)
    (∀ n, b.page = some n → 0 < n → ends [] (setBank s k { b with cells := blank n, page := some (n - 1) }))
    ∧ (b.page = some 0 → ends [] (notice nkBankFree false (u8 (bankNum k) ++ u16 (seqOf b))
      (setBank s k { b with cells := blank 0, state := .free, watermark := 0, page := none })))
    ∧ (∀ left, b.page = none → ends left s)
    ∧ (∀ (n a : Nat) (v : Byte), b.page = some n → a < 4096 → v ≠ 0xFF → s.store.path = .idle → s.craft.ident = false →
      s.link.inFlight = none →
      ends [(a, v)] (notice nkStoreFault true
        ([2] ++ u8 (bankNum k) ++ u16 ((4096 * n + a) / 32) ++ opt 4 (s.time.clock.map (·.1)))
        (let t := setBank s k { b with cells := cellPut (blank n) (4096 * n + a) v }
        { t with
          store.fault := true, store.queue := [], store.a.page := none, store.b.page := none, engine.rolls := []
          engine.state := match s.engine.state with | .sequence => .idle | .rolling => .computing | x => x })))))

/-- CLOSE-PERIOD: the checks of R165; accepted, the current minute is the close minute c, the roll list is every bound slot,
and the queue takes an OUTAGE record for each open outage, a MARK, the closing bank's close minute and CLOSING, and the other
bank's opening at c (R165, R167). -/
def Obligations.ClosePeriodStartsTheSequence : Prop :=
  ∀ (tag : Byte) (s : State), Quiet s → s.link.op = .run →
    (let refused (c : StatusCode) : Prop := Answers (.closePeriod tag) s s tag .closePeriod c []
    let closable (k : BankId) : Prop := s.engine.state ≠ .sequence ∧ s.store.a.state ≠ .closing ∧ s.store.b.state ≠ .closing
      ∧ openBank s = some k ∧ hdr (bank s k) 7 ≠ 0xFF
    ((∀ k, ¬ closable k) → refused .state)
    ∧ (∀ k, closable k →
      ((bank s (otherBank k)).state ≠ .free → refused .notReleased)
      ∧ ((bank s (otherBank k)).state = .free → s.store.fault = true → refused .storeFault)
      ∧ ((bank s (otherBank k)).state = .free → s.store.fault = false →
        (s.outage.records.filter (fun r => r.stop.isNone)).length + 257 < freeSlots s →
        (let c := minuteOf s
        let o := openMinuteOf (bank s k)
        let credit (r : Outage) : Bool :=
          if s.params.creditThreshold = 0 then decide (1 ≤ c - r.start) else decide (s.params.creditThreshold ≤ c - r.start)
        let portion (r : Outage) : StoreItem := .record (u8 4 ++ u32 c ++ u8 r.segment ++ u8 r.id ++ u32 r.start
          ++ u32 (max r.start o) ++ u32 c ++ flag (credit r) ++ absent 11) .other
        let segment (u : Subscriber) : Nat := match tapAt s u.tap with | none => 0 | some (_, t) => t.segment
        Awaits (.closePeriod tag) s { s with
          store.minute := c
          store.queue := s.store.queue ++ (s.outage.records.filter (fun r => r.stop.isNone)).map portion
            ++ [.record (u8 5 ++ u32 c ++ absent 26) .other, .header k (.closeMinute c), .header k .closing,
              .header (otherBank k) (.sequence ((seqOf (bank s k) + 1) % 65536)), .header (otherBank k) (.openMinute c),
              .header (otherBank k) .opened]
          store.path := if s.store.path = .idle then .append else s.store.path
          engine.state := .sequence
          engine.bank := k
          engine.minute := c
          engine.rolls := s.subs.map (fun x => ⟨x.1, x.2.account, x.2.state, x.2.tiers, segment x.2⟩)
          engine.resume := 0
          engine.writing := none
          engine.statements := 0
          engine.lines := 0
          engine.omitted := 0
          engine.control := 0
          engine.truncated := false
          engine.closeDone := false } tag .closePeriod))))

/-- A statement slot whose read-back agrees commits: the account in hand goes on to its next record, or is complete and adds to
the counts and the control total before the next account is taken up; behind the CLOSE record, CLOSED joins the queue (R174,
R175). A slot that disagrees, an account's or that of the CLOSE record, is voided and its record written again, and the fourth
in a row, or a void that still reads as committed, faults the store (R148, R149). Where the region has fewer slots left than an
account's lines and five, it and every later account are omitted and the CLOSE record is next; where after a void the slots
left are fewer than the account's unwritten records and four, its committed records are voided too and it and every later
account are omitted (R174). The 31 bytes of the header, of a tier line and of the CLOSE record are those of 12.5 (R174, R175).
With no slot left for it the CLOSE record is not written and CLOSED joins the queue (the model's choice, log 76). A page being
erased as the store faults keeps its bytes (the model's choice, log 59). A programming reaches its own slot alone (the model's
choice, log 4). -/
def Obligations.StatementSlotsCommit : Prop :=
  (∀ (p : Programmed) (s : State), s.link.waiting = [] → s.link.op ≠ .starting → s.store.path = .statement → s.store.queue = [] →
    s.store.fault = false → s.engine.state = .computing → s.engine.closeDone = false →
    (let k := s.engine.bank
    let b := bank s k
    let j := b.stmtAppend
    let wrote (body : List Byte) : Bank :=
      { b with cells := cellsAnd b.cells (32 * j) (took p (body ++ [0x0F])), stmtAppend := j + 1 }
    let base (body : List Byte) : State := { setBank s k (wrote body) with store.mismatches := 0 }
    (∀ w body t ts, s.engine.writing = some w → w.todo = body :: t :: ts → slotBytes (wrote body) j = body ++ [0x0F] →
      exec (.statementRecordProgrammed p) s = .next (kick { base body with
        engine.writing := some { w with todo := t :: ts, slots := w.slots ++ [j] } }))
    ∧ (∀ w body, s.engine.writing = some w → w.todo = [body] → slotBytes (wrote body) j = body ++ [0x0F] →
      exec (.statementRecordProgrammed p) s = .next (kick { takeAccount { base body with
        engine.writing := none
        engine.resume := w.account + 1
        engine.statements := s.engine.statements + 1
        engine.lines := s.engine.lines + w.lines
        engine.control := s.engine.control + w.grand
        store.path := .idle } with store.path := .statement }))
    ∧ (s.engine.writing = none → j < 32768 →
      (let body := closeRecord b s.engine
      let voided : Bank := { wrote body with cells := cellsAnd (wrote body).cells (32 * j + 31) [p.voids.head?.getD 0] }
      (slotBytes (wrote body) j = body ++ [0x0F] → exec (.statementRecordProgrammed p) s = .next (kick { base body with
        engine.closeDone := true, store.queue := [.header k .closed], store.path := .append }))
      ∧ (slotBytes (wrote body) j ≠ body ++ [0x0F] → slotState voided j ≠ 0x0F → s.store.mismatches < 3 →
        exec (.statementRecordProgrammed p) s = .next (kick { takeAccount { setBank s k voided with
          store.mismatches := s.store.mismatches + 1, store.path := .idle } with store.path := .statement }))))
    ∧ (s.engine.writing = none → 32768 ≤ j → exec (.statementRecordProgrammed p) s = .next (kick { s with
      engine.closeDone := true, store.queue := [.header k .closed], store.path := .append }))
    ∧ (s.engine.writing ≠ none ∨ j < 32768 → s.link.inFlight = none → s.craft.ident = false →
      (let body := statementHead s
      let voided : Bank := { wrote body with cells := cellsAnd (wrote body).cells (32 * j + 31) [p.voids.head?.getD 0] }
      let faulted (cause : Nat) (count : Nat) : State := notice nkStoreFault true
        (u8 cause ++ u8 (bankNum k) ++ u16 j ++ opt 4 (s.time.clock.map (·.1)))
        (let t := setBank s k voided
        { t with
          store.mismatches := count
          store.fault := true
          store.path := .idle
          store.a.page := none
          store.b.page := none
          engine.rolls := [] })
      slotBytes (wrote body) j ≠ body ++ [0x0F] →
        (slotState voided j = 0x0F → exec (.statementRecordProgrammed p) s = .next (kick (faulted 1 s.store.mismatches)))
        ∧ (slotState voided j ≠ 0x0F → 3 ≤ s.store.mismatches →
          exec (.statementRecordProgrammed p) s = .next (kick (faulted 0 (s.store.mismatches + 1))))))
    ∧ (∀ w body ts, s.engine.writing = some w → w.todo = body :: ts → slotBytes (wrote body) j ≠ body ++ [0x0F] →
      (let voided : Bank := { wrote body with cells := cellsAnd (wrote body).cells (32 * j + 31) [p.voids.head?.getD 0] }
      slotState voided j ≠ 0x0F → s.store.mismatches < 3 → ts.length + 5 ≤ 32768 - (j + 1) →
      exec (.statementRecordProgrammed p) s
        = .next (kick { setBank s k voided with store.mismatches := s.store.mismatches + 1 }))
    ∧ (∀ w body ts, s.engine.writing = some w → w.todo = body :: ts → slotBytes (wrote body) j ≠ body ++ [0x0F] →
      (let voided : Bank := { wrote body with cells := cellsAnd (wrote body).cells (32 * j + 31) [p.voids.head?.getD 0] }
      let marks := p.voids.drop 1
      let cleared := w.slots.zipIdx.foldl (fun m x => cellsAnd m (32 * x.1 + 31) [(marks[x.2]?).getD 0]) voided.cells
      slotState voided j ≠ 0x0F → s.store.mismatches < 3 → 32768 - (j + 1) < ts.length + 5 →
      (∀ v ∈ marks, v &&& 0x0F ≠ 0x0F) →
      exec (.statementRecordProgrammed p) s = .next (kick { setBank s k { voided with cells := cleared } with
        store.mismatches := s.store.mismatches + 1
        engine.writing := none
        engine.omitted := s.engine.omitted + (accountsLeft (setBank s k voided)).length
        engine.truncated := true }))))))
  ∧ (∀ s : State,
    (let left := accountsLeft s
    let b := bank s s.engine.bank
    (s.engine.writing ≠ none ∨ s.engine.truncated = true ∨ left = [] → takeAccount s = s)
    ∧ (∀ a as, s.engine.writing = none → s.engine.truncated = false → left = a :: as →
      (let v := statementOf b a
      (32768 - b.stmtAppend < v.lines.length + 5 →
        takeAccount s = { s with engine.omitted := s.engine.omitted + as.length + 1, engine.truncated := true })
      ∧ (v.lines.length + 5 ≤ 32768 - b.stmtAppend → takeAccount s = { s with
        engine.writing := some ⟨a, headerRecord b v :: v.lines.map (lineRecord a), [], v.lines.length, v.grand⟩ })))
    ∧ (s.engine.writing = none → statementHead s = closeRecord b s.engine)))
  ∧ (∀ (b : Bank) (v : Statement) (account : Nat) (l : TierLine) (g : Engine),
    (let o := openMinuteOf b
    let c := closeMinuteOf b
    let bit (n : Nat) (p : Prop) [Decidable p] : Nat := if p then n else 0
    headerRecord b v = [0x41] ++ u32 v.account ++ u16 (seqOf b) ++ be 3 v.active ++ be 3 v.credited ++ be 3 v.service
      ++ u32 v.ppv ++ u32 v.refund ++ u32 v.grand ++ u8 v.lines.length
      ++ u8 (bit 1 (o + 89280 < c) + bit 2 (v.gap = true) + bit 4 (hdr b 18 ≠ 0xFF)) ++ [0xFF]
    ∧ lineRecord account l = [0x42] ++ u32 account ++ u8 l.tier ++ u16 l.rate ++ be 3 l.active ++ be 3 l.credited
      ++ be 3 l.billable ++ be 3 l.charge ++ List.replicate 11 0xFF
    ∧ closeRecord b g = [0x43] ++ u16 (seqOf b) ++ u32 o ++ u32 c ++ u32 (min c (o + 89280)) ++ u16 g.statements ++ u16 g.lines
      ++ u16 g.omitted ++ be 6 g.control
      ++ u8 (bit 1 (g.truncated = true) + bit 2 (hdr b 18 ≠ 0xFF) + bit 4 (o + 89280 < c ∨ hdr b 17 ≠ 0xFF))
      ++ List.replicate 3 0xFF))

/-- The statement of every account of every bank. Its timeline is the last change that holds from a minute at or before: the
last ROLL from the open minute, each SERVICE from its own minute, and each POWER_UP, which leaves the account unserved, from
the minute of the record before it or the open minute (R171). The active and credited minutes, the tier lines with each tier's
last TARIFF rate, the PPV total, the refunds, each of a cancelled event or of a showing more than half of it credited, and
POWER_GAP are read from that timeline (R164, R171 to R173). In every statement the minutes, charges and totals keep their
bounds: credited minutes are among the active ones and those within the period of at most 89,280 minutes, a charge is at most
135,439, the service total at most 2,167,024, the refund within the PPV total, and the grand total their sum less the refund
(R170 to R174). -/
def Obligations.StatementFiguresKeepTheirBounds : Prop :=
  ∀ (b : Bank) (account : Nat),
    (let v := statementOf b account
    let length := periodEnd b - openMinuteOf b
    let o := openMinuteOf b
    let e := min (closeMinuteOf b) (o + 89280)
    let js := journal b
    let served (r : List Byte) : Option (SubState × TierSet × Nat) :=
      (subStateArg (fld r 11 1)).map (fun k => (k, BitVec.ofNat 16 (fld r 12 2), fld r 14 1))
    let roll : List (Nat × Option (SubState × TierSet × Nat)) :=
      (((js.filter (fun r => fld r 0 1 = 8 && fld r 5 4 = account)).getLast?).map (fun r => (o, served r))).toList
    let later (rs : List (List Byte)) : List (Nat × Option (SubState × TierSet × Nat)) :=
      ((o :: rs.map (fun r => fld r 1 4)).zip rs).filterMap (fun x =>
        if fld x.2 0 1 = 6 then some (x.1, none)
        else if fld x.2 0 1 = 1 ∧ fld x.2 5 4 = account then some (fld x.2 1 4, served x.2) else none)
    let at_ (cs : List (Nat × Option (SubState × TierSet × Nat))) (m : Nat) : Option (SubState × TierSet × Nat) :=
      ((cs.filter (fun c => decide (c.1 ≤ m))).getLast?).bind (fun c => c.2)
    let now (m : Nat) : Option (SubState × TierSet × Nat) := at_ (roll ++ later js) m
    let out (m : Nat) : Bool := (now m).any (fun x => js.any (fun r => fld r 0 1 = 4 && fld r 5 1 = x.2.2 && fld r 19 1 = 1
      && decide (fld r 11 4 ≤ m) && decide (m < fld r 15 4)))
    let minutes (a z : Nat) (p : Nat → Bool) : Nat := ((List.range (z - a)).filter (fun n => p (a + n))).length
    let holds (t : Nat) (m : Nat) : Bool := (now m).any (fun x => x.1 = .active && x.2.1.getLsbD t)
    let rate (t : Nat) : Nat :=
      (((js.filter (fun r => fld r 0 1 = 7 && fld r 5 1 = t)).getLast?).map (fun r => fld r 6 2)).getD 0
    let buys := js.filter (fun r => fld r 0 1 = 2 && fld r 5 4 = account)
    let showing (r : List Byte) (m : Nat) : Bool := decide (fld r 10 4 ≤ m) && decide (m < fld r 14 4)
    let refund (r : List Byte) : Bool :=
      js.any (fun x => fld x 0 1 = 3 && fld x 5 1 = fld r 9 1 && fld x 6 4 = fld r 10 4)
      || decide (fld r 14 4 - fld r 10 4 < 2 * minutes o e (fun m => showing r m && out m))
    (v.account = account
    ∧ v.active = minutes o e (fun m => (now m).any (fun x => x.1 = .active))
    ∧ v.credited = minutes o e (fun m => (now m).any (fun x => x.1 = .active) && out m)
    ∧ v.lines = (List.range 16).filterMap (fun t => if 0 < minutes o e (holds t) then
        some ⟨t, rate t, minutes o e (holds t), minutes o e (fun m => holds t m && out m)⟩ else none)
    ∧ v.ppv = (buys.map (fun r => fld r 18 2)).sum
    ∧ v.refund = ((buys.filter refund).map (fun r => fld r 18 2)).sum
    ∧ (v.gap = true ↔ ∃ n r, js[n]? = some r ∧ fld r 0 1 = 6
      ∧ (let g := ((o :: js.map (fun x => fld x 1 4))[n]?).getD 0
        (at_ (roll ++ later (js.take n)) g).any (fun x => x.1 ≠ .disconnected) = true)))
    ∧ length ≤ 89280 ∧ v.credited ≤ v.active ∧ v.active ≤ length ∧ v.lines.length ≤ 16 ∧ v.service ≤ 2167024
    ∧ v.refund ≤ v.ppv ∧ v.grand + v.refund = v.service + v.ppv
    ∧ (∀ l ∈ v.lines, l.tier < 16 ∧ l.rate ≤ 65535 ∧ 0 < l.active ∧ l.active ≤ length ∧ l.credited ≤ l.active
      ∧ l.billable + l.credited = l.active ∧ l.charge = (l.rate * l.billable + 21600) / 43200 ∧ l.charge ≤ 135439))
end

