-- ==== Sys2Proof/Laws/Bodies.lean ====
section
/-! SUPPORT. Fields of bytes written and read back (R192), and the parts of a frame (R177). -/

set_option Elab.async false

namespace Sys2Proof.Machine

/-- A field of n bytes has n bytes. -/
@[simp] theorem be_length : ∀ (n v : Nat), (be n v).length = n
  | 0, _ => rfl
  | n + 1, v => by unfold be; simp only [List.length_cons, be_length n v]

/-- The value of bytes behind a first byte. -/
theorem unbe_foldl : ∀ (bs : List Byte) (a : Nat),
    bs.foldl (fun a b => a * 256 + b.toNat) a = a * 256 ^ bs.length + unbe bs
  | [], a => by simp [unbe]
  | b :: t, a => by
    have h1 := unbe_foldl t (a * 256 + b.toNat)
    have h2 := unbe_foldl t (0 * 256 + b.toNat)
    unfold unbe
    simp only [List.foldl_cons, List.length_cons, h1, h2]
    rw [Nat.pow_succ, Nat.add_mul, Nat.add_mul, Nat.mul_assoc, Nat.mul_comm 256 (256 ^ t.length)]
    omega

/-- What a field of n bytes holds. -/
theorem unbe_be_mod : ∀ (n v : Nat), unbe (be n v) = v % 256 ^ n
  | 0, v => by simp [be, unbe, Nat.mod_one]
  | n + 1, v => by
    have e : unbe (be (n + 1) v)
        = (be n v).foldl (fun a b => a * 256 + b.toNat) (0 * 256 + (BitVec.ofNat 8 (v / 256 ^ n)).toNat) := rfl
    rw [e, unbe_foldl, be_length, unbe_be_mod n v, BitVec.toNat_ofNat, Nat.pow_succ 256, Nat.mod_mul, Nat.zero_mul,
      Nat.zero_add, Nat.mul_comm _ (256 ^ n), Nat.add_comm]

/-- A number that fits its field is read back. -/
theorem unbe_be {n v : Nat} (h : v < 256 ^ n) : unbe (be n v) = v := by
  rw [unbe_be_mod, Nat.mod_eq_of_lt h]

/-- The field at the head of bytes. -/
theorem fld_here (n v : Nat) (r : List Byte) : fld (be n v ++ r) 0 n = v % 256 ^ n := by
  unfold fld
  rw [List.drop_zero, List.take_append_of_le_length (Nat.le_of_eq (be_length _ _).symm), List.take_of_length_le (Nat.le_of_eq (be_length _ _)),
    unbe_be_mod]

/-- The field at the end of bytes. -/
theorem fld_last (n v : Nat) : fld (be n v) 0 n = v % 256 ^ n := by
  have := fld_here n v []
  rwa [List.append_nil] at this

/-- A field behind another field. -/
theorem fld_skip {m i : Nat} (h : m ≤ i) (v n : Nat) (r : List Byte) : fld (be m v ++ r) i n = fld r (i - m) n := by
  unfold fld
  rw [List.drop_append, be_length, List.drop_eq_nil_of_le (by rw [be_length]; exact h), List.nil_append]

/-- A field behind a first byte. -/
theorem fld_cons {i : Nat} (h : 1 ≤ i) (b : Byte) (n : Nat) (r : List Byte) : fld (b :: r) i n = fld r (i - 1) n := by
  obtain ⟨j, rfl⟩ : ∃ j, i = j + 1 := ⟨i - 1, by omega⟩
  unfold fld
  simp

/-- The first byte as a field. -/
theorem fld_head (b : Byte) (r : List Byte) : fld (b :: r) 0 1 = b.toNat := by
  unfold fld
  simp [unbe]

/-- A signed field is read back. -/
theorem i16_back {v : Int} (h1 : -32768 ≤ v) (h2 : v ≤ 32767) :
    (BitVec.ofNat 16 ((BitVec.ofInt 16 v).toNat % 256 ^ 2)).toInt = v := by
  have : (BitVec.ofInt 16 v).toNat % 256 ^ 2 = (BitVec.ofInt 16 v).toNat := Nat.mod_eq_of_lt (BitVec.ofInt 16 v).isLt
  rw [this, BitVec.ofNat_toNat, BitVec.setWidth_eq, BitVec.toInt_ofInt,
    Int.bmod_eq_of_le (by omega) (by omega)]

/-- The length of a field of a selection. -/
@[simp] theorem sel_length (n : Nat) (v : Option Nat) : (sel n v).length = n := by
  cases v <;> simp [sel]

/-- A frame's CRC is read back from its two bytes. -/
theorem crc_back (c : BitVec 16) : BitVec.ofNat 16 (unbe (u16 c.toNat)) = c := by
  unfold u16
  rw [unbe_be (n := 2) (by have := c.isLt; omega), BitVec.ofNat_toNat, BitVec.setWidth_eq]

/-- The order of a frame laid out by R177 with a CRC of its own: taken when that is the CRC, else discarded. -/
theorem frameOrder_laid {body : List Byte} (h : body.length ≤ 600) (kind tag : Byte) {c : Nat} (hc : c < 65536) :
    frameOrder ([0xC3] ++ u16 (body.length + 2) ++ [kind, tag] ++ body ++ u16 c)
      = if c = (crc16 (u16 (body.length + 2) ++ [kind, tag] ++ body)).toNat then some ⟨tag, readOrder kind body⟩ else none := by
  have e : [0xC3] ++ u16 (body.length + 2) ++ [kind, tag] ++ body ++ u16 c
      = 0xC3 :: (be 2 (body.length + 2) ++ (kind :: tag :: (body ++ be 2 c))) := by
    simp [u16]
  have hn : fld (0xC3 :: (be 2 (body.length + 2) ++ (kind :: tag :: (body ++ be 2 c)))) 1 2 = body.length + 2 := by
    rw [fld_cons (by omega), fld_here, Nat.mod_eq_of_lt (by omega)]
  have h3 : fld (0xC3 :: (be 2 (body.length + 2) ++ (kind :: tag :: (body ++ be 2 c)))) 3 1 = kind.toNat := by
    rw [fld_cons (by omega), fld_skip (by omega), fld_head]
  have h4 : fld (0xC3 :: (be 2 (body.length + 2) ++ (kind :: tag :: (body ++ be 2 c)))) 4 1 = tag.toNat := by
    rw [fld_cons (by omega), fld_skip (by omega), fld_cons (by omega), fld_head]
  have h5 : fld (0xC3 :: (be 2 (body.length + 2) ++ (kind :: tag :: (body ++ be 2 c)))) (body.length + 2 + 3) 2 = c := by
    rw [fld_cons (by omega), fld_skip (by omega), fld_cons (by omega), fld_cons (by omega)]
    unfold fld
    rw [List.drop_append, List.drop_eq_nil_of_le (by omega), List.nil_append,
      show body.length + 2 + 3 - 1 - 2 - 1 - 1 - body.length = 0 by omega, List.drop_zero,
      List.take_of_length_le (Nat.le_of_eq (be_length _ _)), unbe_be (by omega)]
  have h6 : List.drop 5 (0xC3 :: (be 2 (body.length + 2) ++ (kind :: tag :: (body ++ be 2 c)))) = body ++ be 2 c := by
    simp [be]
  have h7 : (List.drop 1 (0xC3 :: (be 2 (body.length + 2) ++ (kind :: tag :: (body ++ be 2 c))))).take (body.length + 2 + 2)
      = u16 (body.length + 2) ++ [kind, tag] ++ body := by
    simp [be, u16]
  unfold frameOrder
  rw [e]
  dsimp only
  rw [hn, h3, h4, h5, h6, h7, if_neg (by simp [be_length]; omega),
    show body.length + 2 - 2 = body.length by omega, List.take_append_of_le_length (by omega), List.take_length]
  have hk : BitVec.ofNat 8 kind.toNat = kind := by simp
  have ht : BitVec.ofNat 8 tag.toNat = tag := by simp
  rw [hk, ht]
  generalize crc16 (u16 (body.length + 2) ++ [kind, tag] ++ body) = d
  by_cases hd : c = d.toNat
  · rw [if_pos hd, if_neg]
    simp [hd]
  · rw [if_neg hd, if_pos]
    intro hh
    apply hd
    rw [← hh, BitVec.toNat_ofNat, Nat.mod_eq_of_lt hc]

/-- The order of a frame as the link lays it out (R177). -/
theorem frameOrder_frameBytes {body : List Byte} (h : body.length ≤ 600) (kind tag : Byte) :
    frameOrder (frameBytes kind tag body) = some ⟨tag, readOrder kind body⟩ := by
  have := frameOrder_laid h kind tag (c := (crc16 (u16 (body.length + 2) ++ [kind, tag] ++ body)).toNat)
    (BitVec.isLt _)
  rw [if_pos rfl] at this
  rw [← this]
  congr 1

/-- What stands before a start byte is discarded (R177). -/
theorem hunt_junk : ∀ (junk : List Byte) (r : List Byte), (∀ b ∈ junk, b ≠ 0xC3) → hunt (junk ++ 0xC3 :: r) = 0xC3 :: r
  | [], _, _ => by simp [hunt]
  | b :: t, r, h => by
    have hb := h b List.mem_cons_self
    have := hunt_junk t r (fun x hx => h x (List.mem_cons_of_mem _ hx))
    unfold hunt at *
    simp only [List.cons_append, List.dropWhile_cons, decide_eq_true_eq]
    rw [if_pos hb]
    exact this

end Sys2Proof.Machine
end

