-- ==== Sys2Proof/Laws/Choice.lean ====
section
/-! SUPPORT. The steps of the choice of work on the plant line each keep what `OnlyChoice` says is kept. -/

set_option Elab.async false

namespace Sys2Proof.Safety

open Sys2Proof.Machine

/-- A tap record under a function that keeps what is fixed of it keeps the fixed parts of the table. -/
theorem tmod_fixed (f : Tap → Tap) (hf : ∀ t, tapFixed (f t) = tapFixed t) :
    ∀ (l : List (Nat × Tap)) (i : Nat), (tmod l i f).map (fun x => (x.1, tapFixed x.2)) = l.map (fun x => (x.1, tapFixed x.2))
  | [], _ => rfl
  | (k, v) :: t, i => by
    unfold tmod
    split
    · simp only [List.map_cons, hf]
    · simp only [List.map_cons, tmod_fixed f hf t i]

/-- A list under a function on one member that keeps what is read of it keeps the reading. -/
theorem lmod_map {α β : Type} (g : α → β) (f : α → α) (hf : ∀ x, g (f x) = g x) (l : List α) (i : Nat) :
    (lmod l i f).map g = l.map g := by
  unfold lmod
  split
  · rfl
  · rename_i v hv
    rw [List.map_set, hf]
    apply List.ext_getElem?
    intro j
    by_cases hj : i = j
    · subst hj
      have hi : i < l.length := by
        rcases Nat.lt_or_ge i l.length with h | h
        · exact h
        · rw [List.getElem?_eq_none h] at hv; cases hv
      rw [List.getElem?_set_self (by rw [List.length_map]; exact hi), List.getElem?_map, hv]; rfl
    · rw [List.getElem?_set_ne hj]

theorem LinkKept.refl (l : Link) : LinkKept l l :=
  ⟨rfl, rfl, rfl, rfl, rfl, rfl, rfl, rfl, fun _ h => ⟨h, rfl⟩, fun _ h => h, fun _ h => .inl h, fun _ h => .inl h⟩

theorem LinkKept.trans {a b c : Link} (h : LinkKept a b) (k : LinkKept b c) : LinkKept a c :=
  ⟨k.op.trans h.op, k.speed.trans h.speed, k.hunting.trans h.hunting, k.waiting.trans h.waiting, k.inFlight.trans h.inFlight,
    k.noReset.trans h.noReset, k.urgentOn.trans h.urgentOn, k.routineOn.trans h.routineOn,
    fun f hf => ⟨(k.outbound f (h.outbound f hf).1).1, (k.outbound f (h.outbound f hf).1).2.trans (h.outbound f hf).2⟩,
    fun r hr => k.replies r (h.replies r hr),
    fun n hn => (k.urgent n hn).elim (h.urgent n) .inr, fun n hn => (k.routine n hn).elim (h.routine n) .inr⟩

theorem WatchesKept.refl (o : OutageLog) : WatchesKept o o := ⟨rfl, rfl, rfl, rfl, rfl, fun _ _ h => h⟩

theorem WatchesKept.trans {a b c : OutageLog} (h : WatchesKept a b) (k : WatchesKept b c) : WatchesKept a c :=
  ⟨k.records.trans h.records, k.nextId.trans h.nextId, k.owner.trans h.owner, k.watches.trans h.watches,
    k.places.trans h.places, fun n x hx => k.held n x (h.held n x hx)⟩

theorem CraftKept.refl (c : Craft) : CraftKept c c :=
  ⟨rfl, rfl, rfl, rfl, rfl, rfl, rfl, List.prefix_refl _, Nat.min_le_right ..⟩

theorem CraftKept.trans {a b c : Craft} (h : CraftKept a b) (k : CraftKept b c) : CraftKept a c :=
  ⟨k.holds.trans h.holds, k.buffer.trans h.buffer, k.long.trans h.long, k.rest.trans h.rest, k.ident.trans h.ident,
    k.service.trans h.service, k.output.trans h.output, h.print.trans k.print,
    Nat.le_trans (Nat.le_min.2 ⟨Nat.min_le_left .., h.lost⟩) k.lost⟩

theorem OnlyChoice.refl (s : State) : OnlyChoice s s :=
  ⟨rfl, rfl, rfl, rfl, rfl, rfl, rfl, rfl, rfl, rfl, rfl, .refl _, .refl _, .refl _, rfl, .refl _, .refl _⟩

theorem OnlyChoice.trans {s t u : State} (h : OnlyChoice s t) (k : OnlyChoice t u) : OnlyChoice s u :=
  ⟨k.time.trans h.time, k.params.trans h.params, k.lineup.trans h.lineup, k.schedule.trans h.schedule, k.subs.trans h.subs,
    k.telemetry.trans h.telemetry, k.events.trans h.events, k.store.trans h.store, k.engine.trans h.engine,
    k.pending.trans h.pending, k.freeCount.trans h.freeCount, h.link.trans k.link, h.outage.trans k.outage,
    h.craft.trans k.craft, k.taps.trans h.taps, k.urgent.trans h.urgent, k.refresh.trans h.refresh⟩

/-- A change of the link, of the watches, of the craft port and of the plant line that keeps what each of them keeps is only the
choice. -/
theorem OnlyChoice.of {s t : State} (hl : LinkKept s.link t.link := by exact .refl _)
    (ho : WatchesKept s.outage t.outage := by exact .refl _) (hc : CraftKept s.craft t.craft := by exact .refl _)
    (ht : t.plant.taps.map (fun x => (x.1, tapFixed x.2)) = s.plant.taps.map (fun x => (x.1, tapFixed x.2)) := by rfl)
    (hu : t.plant.urgent.Sublist s.plant.urgent := by exact .refl _)
    (hr : t.plant.refresh.Sublist s.plant.refresh := by exact .refl _)
    (e1 : t.time = s.time := by rfl)
    (e2 : t.params = s.params := by rfl) (e3 : t.lineup = s.lineup := by rfl) (e4 : t.schedule = s.schedule := by rfl)
    (e5 : t.subs = s.subs := by rfl) (e6 : t.telemetry = s.telemetry := by rfl) (e7 : t.events = s.events := by rfl)
    (e8 : t.store = s.store := by rfl) (e9 : t.engine = s.engine := by rfl) (e10 : t.pending = s.pending := by rfl)
    (e11 : t.freeCount = s.freeCount := by rfl) : OnlyChoice s t :=
  ⟨e1, e2, e3, e4, e5, e6, e7, e8, e9, e10, e11, hl, ho, hc, ht, hu, hr⟩

/-! ## The link -/

/-- A free outbound line takes the head of the reply list or of the notice queue, and gives up the GAP mark at most. -/
theorem pump_kept (s : State) : LinkKept s.link (pump s).link := by
  unfold pump
  split
  · exact .refl _
  · rename_i ho
    split
    · rename_i r rs hr
      refine ⟨rfl, rfl, rfl, rfl, rfl, rfl, rfl, rfl, fun f hf => ?_, fun x hx => ?_, fun _ h => .inl h, fun _ h => .inl h⟩
      · rw [ho] at hf; cases hf
      · rcases hx with hx | hx
        · rw [ho] at hx; cases hx
        · rw [hr] at hx
          rcases List.mem_cons.1 hx with rfl | hx
          · exact .inl rfl
          · exact .inr hx
    · rename_i hr
      split
      · rename_i n ns hn
        refine ⟨rfl, rfl, rfl, rfl, rfl, rfl, rfl, rfl, fun f hf => ?_, fun x hx => ?_, fun m h => .inl ?_, fun _ h => .inl h⟩
        · rw [ho] at hf; cases hf
        · rcases hx with hx | hx
          · rw [ho] at hx; cases hx
          · rw [hr] at hx; cases hx
        · rw [hn]; exact List.mem_cons_of_mem _ h
      · rename_i hn
        split
        · rename_i n ns hn
          refine ⟨rfl, rfl, rfl, rfl, rfl, rfl, rfl, rfl, fun f hf => ?_, fun x hx => ?_, fun _ h => .inl h, fun m h => .inl ?_⟩
          · rw [ho] at hf; cases hf
          · rcases hx with hx | hx
            · rw [ho] at hx; cases hx
            · rw [hr] at hx; cases hx
          · rw [hn]; exact List.mem_cons_of_mem _ h
        · exact .refl _

theorem pump_only (s : State) : OnlyChoice s (pump s) := by
  have h := pump_kept s
  revert h
  unfold pump
  repeat' split
  all_goals intro h; exact .of h

/-- A guard hit's notice keeps the link but for itself and what a full queue gives up. -/
theorem guardNotice_only (u : Bool) (b : List Byte) (s : State) : OnlyChoice s (notice nkGuardHit u b s) := by
  have key : ∀ (ur ro : List Notice) (g : Bool),
      (∀ n ∈ ur, n ∈ s.link.urgent ∨ n.kind = nkGuardHit) → (∀ n ∈ ro, n ∈ s.link.routine ∨ n.kind = nkGuardHit) →
      OnlyChoice s { s with link.urgent := ur, link.routine := ro, link.gap := g } := fun ur ro g h1 h2 =>
    .of ⟨rfl, rfl, rfl, rfl, rfl, rfl, rfl, rfl, fun _ h => ⟨h, rfl⟩, fun _ h => h, h1, h2⟩
  have tail : ∀ (l : List Notice) (x : Notice), x.kind = nkGuardHit → ∀ n ∈ l ++ [x], n ∈ l ∨ n.kind = nkGuardHit := by
    intro l x hx n hn
    rcases List.mem_append.1 hn with hn | hn
    · exact .inl hn
    · rw [List.mem_singleton] at hn; subst hn; exact .inr hx
  unfold notice
  split
  · split
    · exact .refl s
    · dsimp only
      split
      · exact (key _ s.link.routine s.link.gap (tail _ _ rfl) (fun _ h => .inl h)).trans (pump_only _)
      · split
        · exact key s.link.urgent s.link.routine true (fun _ h => .inl h) (fun _ h => .inl h)
        · rename_i hr
          exact (key _ _ true (tail _ _ rfl) (fun n hn => .inl (by rw [hr]; exact List.mem_cons_of_mem _ hn))).trans (pump_only _)
  · split
    · exact .refl s
    · split
      · exact (key s.link.urgent _ s.link.gap (fun _ h => .inl h) (tail _ _ rfl)).trans (pump_only _)
      · exact key s.link.urgent s.link.routine true (fun _ h => .inl h) (fun _ h => .inl h)

/-! ## The craft port -/

theorem printLine_only (ws : List Text) (s : State) : OnlyChoice s (printLine ws s) := by
  unfold printLine print
  have lost : OnlyChoice s { s with craft.lost := min 255 (s.craft.lost + 1) } :=
    .of (hc := ⟨rfl, rfl, rfl, rfl, rfl, rfl, rfl, List.prefix_refl _, by dsimp only; omega⟩)
  split
  · exact lost
  · split
    · rename_i h; simp at h
    · split
      · exact .of (hc := ⟨rfl, rfl, rfl, rfl, rfl, rfl, rfl, List.prefix_append .., by dsimp only; omega⟩)
      · exact lost

theorem printErr_only (e : String) (s : State) : OnlyChoice s (printErr e s) := printLine_only _ _

/-! ## The plant line -/

theorem modPort_only (p : Nat × Nat) (f : Port → Port) (hf : ∀ r, portFixed (f r) = portFixed r) (s : State) :
    OnlyChoice s (modPort p f s) := by
  refine .of (ht := ?_)
  exact tmod_fixed _ (fun t => by
    unfold tapFixed
    dsimp only
    rw [lmod_map portFixed f hf]) _ _

theorem leaveQueues_only (p : Nat × Nat) (s : State) : OnlyChoice s (leaveQueues p s) :=
  .of (hu := List.filter_sublist ..) (hr := List.filter_sublist ..)

theorem startTx_only (q : Purpose) (a i : Nat) (t : Bool) (p : Nat) (c : Content) (s : State) :
    OnlyChoice s (startTx q a i t p c s) := .of

theorem startPort_only (p : Nat × Nat) (s : State) : OnlyChoice s (startPort p s) := by
  unfold startPort
  split
  · exact (modPort_only p _ (by intro _; rfl) s).trans ((leaveQueues_only p _).trans (startTx_only ..))
  · exact .refl s

theorem reportGuard_only (n k : Nat) (h : Held) (s : State) : OnlyChoice s (reportGuard n k h s) := by
  unfold reportGuard
  split
  · exact guardNotice_only ..
  · exact printLine_only ..

/-- An empty place that the guard check finds holds no command. -/
theorem place_empty {l : List (Option Held)} {k : Nat} (h : l.findIdx? (·.isNone) = some k) : l[k]? = some none := by
  obtain ⟨hk, hn, _⟩ := List.findIdx?_eq_some_iff_getElem.1 h
  rw [List.getElem?_eq_getElem hk]
  cases e : l[k] with
  | none => rfl
  | some x => rw [e] at hn; cases hn

theorem holdCommand_only (n k : Nat) (p : Nat × Nat) (a : Nat) (s : State) (hk : s.outage.held[k]? = some none) :
    OnlyChoice s (holdCommand n k p a s) := by
  unfold holdCommand
  dsimp only
  have h1 : ∀ (f : WatchEntry → WatchEntry) (x : Held), (∀ e, (f e).watch = e.watch) →
      OnlyChoice s { s with
        outage.watches := lmod s.outage.watches n f, outage.held := s.outage.held.set k (some x) } := fun f x hf => by
    refine .of (ho := ⟨rfl, rfl, rfl, lmod_map _ f hf _ _, List.length_set, fun m h hm => ?_⟩)
    by_cases e : k = m
    · subst e; rw [hk] at hm; cases hm
    · dsimp only; rw [List.getElem?_set_ne e]; exact hm
  exact (h1 _ _ (by intro _; rfl)).trans
    ((modPort_only p _ (by intro _; rfl) _).trans ((leaveQueues_only p _).trans (reportGuard_only ..)))

theorem offerPort_only (p : Nat × Nat) (m : Bool) (s : State) : OnlyChoice s (offerPort p m s).1 := by
  unfold offerPort
  split
  · exact .refl s
  · split
    · exact startPort_only ..
    · rename_i h
      refine holdCommand_only _ _ _ _ _ (place_empty ?_)
      unfold guardCheck at h
      split at h
      · cases h
      · split at h
        · cases h
        · split at h
          · rename_i hk; injection h with _ h; rw [← h]; exact hk
          · cases h
    · exact .refl s

theorem leaveCraft_only (s : State) : OnlyChoice s (leaveCraft s) := .of (hu := List.filter_sublist ..)

theorem offerCraft_only (r : CraftReq) (s : State) : OnlyChoice s (offerCraft r s).1 := by
  unfold offerCraft
  dsimp only
  refine (leaveCraft_only s).trans ?_
  generalize leaveCraft s = u
  repeat' split
  all_goals first
    | exact .refl u
    | exact printErr_only ..
    | exact startTx_only ..

theorem offerUrgent_only : ∀ (l : List UrgentItem) (s : State), OnlyChoice s (offerUrgent l s).1
  | [], s => .refl s
  | e :: es, s => by
    cases e with
    | port a b m =>
      unfold offerUrgent
      dsimp only
      split
      · exact offerPort_only ..
      · exact (offerPort_only (a, b) m s).trans (offerUrgent_only es _)
    | craft c =>
      unfold offerUrgent
      dsimp only
      split
      · exact offerCraft_only ..
      · exact (offerCraft_only c s).trans (offerUrgent_only es _)

theorem offerRefresh_only : ∀ (l : List (Nat × Nat)) (s : State), OnlyChoice s (offerRefresh l s).1
  | [], s => .refl s
  | p :: ps, s => by
    unfold offerRefresh
    dsimp only
    split
    · exact offerPort_only ..
    · exact (offerPort_only p false s).trans (offerRefresh_only ps _)

theorem commandWork_only (s : State) : OnlyChoice s (commandWork s).1 := by
  unfold commandWork
  dsimp only
  split
  · exact offerUrgent_only ..
  · exact (offerUrgent_only _ s).trans (offerRefresh_only ..)

theorem completeCycle_only (s : State) : OnlyChoice s (completeCycle s) := .of

theorem dropProbe_only (s : State) : OnlyChoice s (dropProbe s) := by
  unfold dropProbe
  split
  · exact .of
  · exact .refl s

theorem startProbe_only {s t : State} (h : startProbe s = some t) : OnlyChoice s t := by
  unfold startProbe at h
  split at h
  · cases h
  · dsimp only at h
    split at h
    · cases h
    · rename_i i _
      simp only [Option.map_eq_some_iff] at h
      obtain ⟨x, _, rfl⟩ := h
      have h1 : OnlyChoice s { s with plant.probeDue := false, plant.probeCur := some i } := .of
      exact h1.trans (startTx_only ..)

theorem startPoll_only (i : Nat) (s : State) : OnlyChoice s (startPoll i s) := by
  unfold startPoll
  split
  · exact .refl s
  · rename_i x _
    have h1 : OnlyChoice s { s with plant.cursor := some i } := .of
    have h2 := h1.trans (startTx_only .poll x.address i false 0 noContent _)
    dsimp only
    split
    · exact h2.trans (completeCycle_only _)
    · exact h2

theorem startDuePoll_only (s : State) : OnlyChoice s (startDuePoll s).1 := by
  unfold startDuePoll
  dsimp only
  refine (dropProbe_only s).trans ?_
  generalize dropProbe s = u
  split
  · rename_i h; exact startProbe_only h
  · split
    · exact startPoll_only ..
    · split
      · exact .refl u
      · split
        · rename_i h; exact (completeCycle_only u).trans (startProbe_only h)
        · split
          · exact (completeCycle_only u).trans (startPoll_only ..)
          · exact completeCycle_only u

/-- The choice changes only what a choice may change. -/
theorem choose_only (s : State) : OnlyChoice s (choose s) := by
  unfold choose
  dsimp only
  have h0 : OnlyChoice s (if ((enabledXps s).isEmpty && decide (s.plant.position = 0)) = true then completeCycle s else s) := by
    split
    · exact completeCycle_only s
    · exact .refl s
  revert h0
  generalize (if ((enabledXps s).isEmpty && decide (s.plant.position = 0)) = true then completeCycle s else s) = u
  intro h0
  have h1 : OnlyChoice u (if isPollSlot (shareNow u) u.plant.position = true then startDuePoll u else commandWork u).1 := by
    split
    · exact startDuePoll_only u
    · exact commandWork_only u
  revert h1
  generalize (if isPollSlot (shareNow u) u.plant.position = true then startDuePoll u else commandWork u) = v
  intro h1
  have h2 : OnlyChoice v.1 (if v.2 = true then v
      else if isPollSlot (shareNow u) u.plant.position = true then commandWork v.1 else startDuePoll v.1).1 := by
    split
    · exact .refl _
    · split
      · exact commandWork_only _
      · exact startDuePoll_only _
  revert h2
  generalize (if v.2 = true then v
      else if isPollSlot (shareNow u) u.plant.position = true then commandWork v.1 else startDuePoll v.1) = w
  intro h2
  refine h0.trans (h1.trans (h2.trans ?_))
  split
  · exact .refl _
  · split
    · exact (completeCycle_only _).trans (startDuePoll_only _)
    · exact .refl _

/-- The choice keeps the orders that wait and the order in flight. -/
theorem kick_waiting (s : State) : (kick s).link.waiting = s.link.waiting := by
  unfold kick
  split
  · exact (choose_only s).link.waiting
  · rfl

/-- With the plant line not idle, or outside RUN, nothing is chosen. -/
theorem kick_of_not_idle {s : State} (h : s.link.op ≠ .run ∨ s.plant.line ≠ .idle) : kick s = s := by
  unfold kick running
  rcases h with h | h <;> simp [h]

end Sys2Proof.Safety
end

