-- ==== Sys2Proof/Laws/Orders.lean ====
section
/-! SUPPORT. How a command's meaning runs: an order at a quiet link is taken in the event of its arrival, an answer joins the
reply list, and an event ends with the choice of work where no order waits. -/

set_option Elab.async false

namespace Sys2Proof.Safety

open Sys2Proof.Machine

/-- With no order waiting, none is taken. -/
theorem takeWaiting_of_none {s : State} (h : s.link.waiting = []) : takeWaiting s = s := by
  unfold takeWaiting
  rw [h]
  rfl

/-- With no order waiting, an event ends with the choice of work alone. -/
theorem finish_of_none {s : State} (h : s.link.waiting = []) : finish s = kick s :=
  takeWaiting_of_none ((kick_waiting s).trans h)

/-- Every order command is the arrival of its order. -/
theorem exec_order {i : Instr} {tag : Byte} {o : Order} (h : i.order = some (tag, o)) (s : State) :
    exec i s = .next (orderArrives (tagged tag o) s) := by
  cases i <;> (first | (cases h; rfl) | cases h)

/-- At a quiet link an order is taken in the event of its arrival. -/
theorem orderArrives_quiet {s : State} (q : Quiet s) (tag : Byte) (o : Order) :
    orderArrives (tagged tag o) s = kick (takeMatter (.known o) (taken tag o s)) := by
  have e : offerOrder (tagged tag o) s = { s with link.waiting := [tagged tag o] } := by
    unfold offerOrder
    rw [q.waiting]
    rfl
  unfold orderArrives takeWaiting
  rw [e]
  have m : mayTake { s with link.waiting := [tagged tag o] } = true := by
    unfold mayTake
    simp [q.inFlight, q.noReset, q.room]
  show takeOrders 1 _ = _
  unfold takeOrders
  rw [m]
  show takeOrder _ _ = _
  unfold takeOrder
  show kick (takeMatter _ { s with link.waiting := [], link.inFlight := some (tagged tag o) }) = _
  rw [← q.waiting]
  rfl

/-- At a quiet link an order command runs its block's operation, then the choice of work. -/
theorem exec_quiet {i : Instr} {tag : Byte} {o : Order} (h : i.order = some (tag, o)) {s : State} (q : Quiet s) :
    exec i s = .next (kick (takeMatter (.known o) (taken tag o s))) := by
  rw [exec_order h, orderArrives_quiet q]

/-- An order that passes the gate is handed over. -/
theorem takeMatter_of_gate {s : State} {o : Order} (h : gate s.link.op (orderKind o) = none) :
    takeMatter (.known o) s = handOver o s := by
  unfold takeMatter
  rw [show matterKind (.known o) = orderKind o from rfl, h]

/-- In LOADING and in RUN every order passes the gate. -/
theorem gate_working {s : State} (w : Working s) (k : Nat) : gate s.link.op k = none := by
  unfold gate
  split
  · rfl
  · rcases w with w | w <;> rw [w]

/-- In LOADING and in RUN an order command at a quiet link is handed to its block, then work is chosen. -/
theorem exec_working {i : Instr} {tag : Byte} {o : Order} (h : i.order = some (tag, o)) {s : State} (q : Quiet s)
    (w : Working s) : exec i s = .next (kick (handOver o (taken tag o s))) := by
  rw [exec_quiet h q, takeMatter_of_gate (gate_working (s := taken tag o s) w _)]

/-- The answer to an order in flight. -/
theorem answer_inFlight {s : State} {t : TaggedOrder} (h : s.link.inFlight = some t) (code : StatusCode) (body : List Byte) :
    answer code body s = joinReply t code body { s with link.inFlight := none } := by
  unfold answer
  rw [h]

/-- A reply that joins leaves the orders that wait, the order in flight, the awaited reset and the operating state. -/
theorem joinReply_queue (t : TaggedOrder) (code : StatusCode) (body : List Byte) (s : State) :
    (joinReply t code body s).link.waiting = s.link.waiting ∧ (joinReply t code body s).link.inFlight = s.link.inFlight
      ∧ (joinReply t code body s).link.resetPending = s.link.resetPending
      ∧ (joinReply t code body s).link.op = s.link.op :=
  have h := pump_kept { s with
    link.replies := s.link.replies ++ [⟨replyKind t.matter, t.tag, u8 (statusNum code) ++ body⟩] }
  ⟨h.waiting, h.inFlight, h.noReset, h.op⟩

/-- A link with no order in flight is as it was when that is written to it again. -/
theorem link_idle {l : Link} (h : l.inFlight = none) : { l with inFlight := none } = l := by
  cases l
  cases h
  rfl

/-- An order taken at a quiet link and given up again leaves the state as it was. -/
theorem taken_none {s : State} (h : s.link.inFlight = none) (tag : Byte) (o : Order) :
    { taken tag o s with link.inFlight := none } = s := by
  rcases s with ⟨l⟩
  have e := link_idle h
  unfold taken
  dsimp only at *
  congr 1

/-- The answer to an order taken at a quiet link. -/
theorem answer_taken {s : State} (h : s.link.inFlight = none) (tag : Byte) (o : Order) (code : StatusCode) (body : List Byte) :
    answer code body (taken tag o s) = joinReply (tagged tag o) code body s := by
  rw [answer_inFlight (t := tagged tag o) rfl, taken_none h]

/-- An order that passes the gate is answered in its event when its block's operation answers it. -/
theorem answers_of_gate {i : Instr} {tag : Byte} {o : Order} (h : i.order = some (tag, o)) {s s' : State} (q : Quiet s)
    (g : gate s.link.op (orderKind o) = none) (n : s'.link.inFlight = none) {code : StatusCode} {body : List Byte}
    (e : handOver o (taken tag o s) = answer code body (taken tag o s')) : Answers i s s' tag o code body := by
  unfold Answers
  rw [exec_quiet h q, takeMatter_of_gate (s := taken tag o s) g, e, answer_taken n]

/-- The same in LOADING and in RUN. -/
theorem answers_of {i : Instr} {tag : Byte} {o : Order} (h : i.order = some (tag, o)) {s s' : State} (q : Quiet s)
    (w : Working s) (n : s'.link.inFlight = none) {code : StatusCode} {body : List Byte}
    (e : handOver o (taken tag o s) = answer code body (taken tag o s')) : Answers i s s' tag o code body :=
  answers_of_gate h q (gate_working w _) n e

/-- An order that passes the gate waits when its block's operation leaves it in flight. -/
theorem awaits_of {i : Instr} {tag : Byte} {o : Order} (h : i.order = some (tag, o)) {s s' : State} (q : Quiet s)
    (w : Working s) (e : handOver o (taken tag o s) = taken tag o s') : Awaits i s s' tag o := by
  unfold Awaits
  rw [exec_working h q w, e]
  rfl

end Sys2Proof.Safety
end

