-- ==== Sys2Proof/Laws/Frames.lean ====
section
/-! SUPPORT. What the shared operations of the ports and of the line-up change: the plant line's record alone, or that and the
line-up. -/

set_option Elab.async false

namespace Sys2Proof.Safety

open Sys2Proof.Machine

/-- t is s but for the plant line scheduler's record. -/
def PlantOnly (s t : State) : Prop := ∃ pl : Plant, t = { s with plant := pl }

/-- t is s but for the line-up engine's and the plant line scheduler's records. -/
def LinePlant (s t : State) : Prop := ∃ (l : Lineup) (pl : Plant), t = { s with lineup := l, plant := pl }

theorem PlantOnly.refl (s : State) : PlantOnly s s := ⟨_, rfl⟩

theorem PlantOnly.trans {s t u : State} : PlantOnly s t → PlantOnly t u → PlantOnly s u := by
  rintro ⟨_, rfl⟩ ⟨_, rfl⟩
  exact ⟨_, rfl⟩

theorem LinePlant.refl (s : State) : LinePlant s s := ⟨_, _, rfl⟩

theorem LinePlant.trans {s t u : State} : LinePlant s t → LinePlant t u → LinePlant s u := by
  rintro ⟨_, _, rfl⟩ ⟨_, _, rfl⟩
  exact ⟨_, _, rfl⟩

/-- A choice between two such states is one. -/
theorem ite_line {c : Prop} [Decidable c] {s t u : State} (h1 : LinePlant s t) (h2 : LinePlant s u) :
    LinePlant s (if c then t else u) := by
  split
  · exact h1
  · exact h2

theorem PlantOnly.line {s t : State} : PlantOnly s t → LinePlant s t := by
  rintro ⟨_, rfl⟩
  exact ⟨_, _, rfl⟩

/-- A fold of steps that change the plant line's record alone does too. -/
theorem foldl_plant {α : Type} (f : State → α → State) (hf : ∀ s a, PlantOnly s (f s a)) :
    ∀ (l : List α) (s : State), PlantOnly s (l.foldl f s)
  | [], s => .refl s
  | a :: t, s => (hf s a).trans (foldl_plant f hf t _)

/-- A fold of steps that change the line-up and the plant line alone does too. -/
theorem foldl_line {α : Type} (f : State → α → State) (hf : ∀ s a, LinePlant s (f s a)) :
    ∀ (l : List α) (s : State), LinePlant s (l.foldl f s)
  | [], s => .refl s
  | a :: t, s => (hf s a).trans (foldl_line f hf t _)

/-! ## The ports -/

theorem modPort_plant (p : Nat × Nat) (f : Port → Port) (s : State) : PlantOnly s (modPort p f s) := ⟨_, rfl⟩

theorem leaveQueues_plant (p : Nat × Nat) (s : State) : PlantOnly s (leaveQueues p s) := ⟨_, rfl⟩

theorem joinQueue_plant (c : PClass) (p : Nat × Nat) (s : State) : PlantOnly s (joinQueue c p s) := by
  cases c <;> exact ⟨_, rfl⟩

theorem pend_plant (c : PClass) (p : Nat × Nat) (s : State) : PlantOnly s (pend c p s) := by
  unfold pend
  split
  · exact modPort_plant ..
  · exact (modPort_plant ..).trans (joinQueue_plant ..)

theorem parkPort_plant (p : Nat × Nat) (s : State) : PlantOnly s (parkPort p s) := ⟨_, rfl⟩

theorem markPort_plant (c : PClass) (p : Nat × Nat) (s : State) : PlantOnly s (markPort c p s) := by
  unfold markPort
  split
  · exact .refl s
  · dsimp only
    split
    · exact pend_plant ..
    · split
      · exact (modPort_plant ..).trans (leaveQueues_plant ..)
      · split
        · exact (modPort_plant ..).trans ((leaveQueues_plant ..).trans (joinQueue_plant ..))
        · exact .refl s
    · exact modPort_plant ..
    · exact .refl s
    · exact .refl s
    · split
      · exact modPort_plant ..
      · exact pend_plant ..

theorem rederive_plant (c : PClass) (p : Nat × Nat) (s : State) : PlantOnly s (rederive c p s) := by
  unfold rederive
  split
  · dsimp only
    split
    · exact .refl s
    · exact (modPort_plant ..).trans (markPort_plant ..)
  · exact .refl s

theorem rederiveServed_plant (s : State) : PlantOnly s (rederiveServed s) :=
  foldl_plant _ (fun s p => by
    split
    · exact rederive_plant ..
    · exact .refl s) _ _

theorem rederiveSegment_plant (n : Nat) (s : State) : PlantOnly s (rederiveSegment n s) :=
  foldl_plant _ (fun _ _ => rederive_plant ..) _ _

theorem rederiveSlot_plant (n : Nat) (s : State) : PlantOnly s (rederiveSlot n s) := by
  unfold rederiveSlot
  split
  · exact .refl s
  · exact rederive_plant ..

theorem unparkPort_plant (p : Nat × Nat) (s : State) : PlantOnly s (unparkPort p s) := by
  unfold unparkPort
  split
  · exact .refl s
  · split
    · exact modPort_plant ..
    · exact (modPort_plant ..).trans (joinQueue_plant ..)

theorem reparkPort_plant (p : Nat × Nat) (s : State) : PlantOnly s (reparkPort p s) := by
  unfold reparkPort
  split
  · exact .refl s
  · split
    · split
      · exact parkPort_plant ..
      · exact .refl s
    · split
      · exact unparkPort_plant ..
      · exact .refl s

theorem reparkTaps_plant (l : List Nat) (s : State) : PlantOnly s (reparkTaps l s) :=
  foldl_plant _ (fun _ _ => reparkPort_plant ..) _ _

theorem forceRefresh_plant (p : Nat × Nat) (s : State) : PlantOnly s (forceRefresh p s) := by
  unfold forceRefresh
  split
  · exact .refl s
  · split
    · split
      · exact modPort_plant ..
      · exact pend_plant ..
    · exact .refl s

theorem forceTaps_plant (l : List Nat) (s : State) : PlantOnly s (forceTaps l s) :=
  foldl_plant _ (fun _ _ => forceRefresh_plant ..) _ _

/-! ## The line-up -/

theorem modChan_line (c : Nat) (f : Channel → Channel) (s : State) : LinePlant s (modChan c f s) := ⟨_, _, rfl⟩

theorem withLineup_line (l : Lineup) (s : State) : LinePlant s { s with lineup := l } := ⟨_, _, rfl⟩

theorem sendHead_line (s : State) : LinePlant s (sendHead s) := by
  unfold sendHead
  split
  · exact ⟨_, _, rfl⟩
  · exact .refl s

theorem readyTimerRun_line (s : State) : LinePlant s (readyTimerRun s) := by
  unfold readyTimerRun
  split
  · split
    · exact .refl s
    · exact ⟨_, _, rfl⟩
  · exact ⟨_, _, rfl⟩

theorem lineRun_line (s : State) : LinePlant s (lineRun s) := (sendHead_line s).trans (readyTimerRun_line _)

theorem joinCommand_line (m : MatrixCmd) (d : Deferred) (s : State) : LinePlant s (joinCommand m d s) := by
  unfold joinCommand
  split
  · exact (withLineup_line _ s).trans (lineRun_line _)
  · split
    · exact .refl s
    · exact ⟨_, _, rfl⟩

theorem replaceRoute_line (c : Nat) (r : Option Nat) (s : State) : LinePlant s (replaceRoute c r s) := by
  unfold replaceRoute
  dsimp only
  split
  · exact ⟨_, _, rfl⟩
  · exact ⟨_, _, rfl⟩

theorem queueRoute_line (c : Nat) (s : State) : LinePlant s (queueRoute c s) := by
  unfold queueRoute
  dsimp only
  split
  · exact replaceRoute_line ..
  · exact joinCommand_line ..

theorem recomputeRoute_line (c : Nat) (s : State) : LinePlant s (recomputeRoute c s) := by
  unfold recomputeRoute
  dsimp only
  split
  · exact .refl s
  · split
    · exact (modChan_line ..).trans (queueRoute_line ..)
    · exact modChan_line ..

theorem recomputeRoutes_line (s : State) : LinePlant s (recomputeRoutes s) :=
  foldl_line _ (fun _ _ => recomputeRoute_line ..) _ _

theorem markChanged_line (s : State) : LinePlant s (markChanged s) := ⟨_, _, rfl⟩

theorem changeClass_line (c : Nat) (f : Channel → Channel) (s : State) : LinePlant s (changeClass c f s) := by
  have h1 := modChan_line c (fun e => { f e with eff := effOf (f e) }) s
  have h2 := ite_line (c := (chan (modChan c (fun e => { f e with eff := effOf (f e) }) s) c).eff = (chan s c).eff) h1
    (h1.trans (withLineup_line { (modChan c (fun e => { f e with eff := effOf (f e) }) s).lineup with
      table := tierTableOf (modChan c (fun e => { f e with eff := effOf (f e) }) s).lineup.map } _))
  exact ite_line h2 (h2.trans (markChanged_line _))

/-- The hand-off changes the flag of the line-up and the plant line alone (R5). -/
theorem handOff_line (s : State) : LinePlant s (handOff s) :=
  ite_line ((withLineup_line { s.lineup with changed := false } s).trans (rederiveServed_plant _).line) (.refl s)

/-- With no channel changed in the event the hand-off does nothing (R5). -/
theorem handOff_none {s : State} (h : s.lineup.changed = false) : handOff s = s := by
  unfold handOff
  rw [h]
  rfl

theorem writeBase_line (c : Nat) (a : Option (Option Nat)) (k : Option BaseClass) (z : Option ZoneSet) (e : Option Bool)
    (s : State) : LinePlant s (writeBase c a k z e s) :=
  (changeClass_line ..).trans ((modChan_line ..).trans (recomputeRoute_line ..))

theorem issueStep_line (c : Nat) (s : State) : LinePlant s (issueStep c s) := by
  unfold issueStep
  split
  · exact .refl s
  · dsimp only
    exact (withLineup_line _ _).trans ((modChan_line ..).trans (joinCommand_line ..))

theorem startRamp_line (s : State) : LinePlant s (startRamp s) := by
  unfold startRamp
  split
  · split
    · exact .refl s
    · dsimp only
      exact (withLineup_line _ s).trans ((modChan_line ..).trans (issueStep_line ..))
  · exact .refl s

theorem startRamps_line (s : State) : LinePlant s (startRamps s) := (startRamp_line s).trans (startRamp_line _)

theorem endRamp_line (c : Nat) (s : State) : LinePlant s (endRamp c s) := (withLineup_line _ s).trans (startRamps_line _)

theorem stepOrEnd_line (c : Nat) (u : Bool) (s : State) : LinePlant s (stepOrEnd c u s) := by
  unfold stepOrEnd
  dsimp only
  split
  · exact (modChan_line ..).trans (endRamp_line ..)
  · split
    · exact (modChan_line ..).trans (endRamp_line ..)
    · exact issueStep_line ..

theorem removeStep_line (c : Nat) (s : State) : LinePlant s (removeStep c s) := by
  unfold removeStep
  split <;> exact ⟨_, _, rfl⟩

theorem departure_line (s : State) : LinePlant s (departure s) := by
  unfold departure
  split
  · exact .refl s
  · exact ⟨_, _, rfl⟩

theorem reverseRamp_line (c : Nat) (u : Bool) (s : State) : LinePlant s (reverseRamp c u s) := by
  unfold reverseRamp
  split
  · exact .refl s
  · rename_i r _
    dsimp only
    have h1 : LinePlant s (modChan c (fun e => { e with carrier := if u = true then .rampUp else .rampDown })
        (modRamp c (fun r => { r with up := u }) s)) := (withLineup_line _ s).trans (modChan_line ..)
    refine h1.trans ?_
    generalize modChan c (fun e => { e with carrier := if u = true then .rampUp else .rampDown })
        (modRamp c (fun r => { r with up := u }) s) = v
    split
    · exact stepOrEnd_line ..
    · split
      · exact (removeStep_line ..).trans ((departure_line _).trans ((stepOrEnd_line ..).trans (lineRun_line _)))
      · split
        · exact (withLineup_line _ v).trans (stepOrEnd_line ..)
        · exact .refl v

theorem carrierRequest_line (c : Nat) (on : Bool) (s : State) : LinePlant s (carrierRequest c on s) := by
  unfold carrierRequest
  split
  · exact (withLineup_line _ s).trans (startRamps_line _)
  · exact ⟨_, _, rfl⟩
  · exact reverseRamp_line ..
  · exact (withLineup_line _ s).trans (startRamps_line _)
  · exact ⟨_, _, rfl⟩
  · exact reverseRamp_line ..
  · exact .refl s

/-- What a schedule entry does changes the line-up and the plant line alone (R8, R26). -/
theorem applyChange_line (c : Nat) (k : Change) (s : State) : LinePlant s (applyChange c k s) := by
  unfold applyChange
  split
  · exact writeBase_line ..
  · exact writeBase_line ..
  · exact writeBase_line ..
  · exact carrierRequest_line ..

theorem goLineup_line (s : State) : LinePlant s (goLineup s) :=
  (foldl_line _ (fun _ _ => (modChan_line ..).trans ((joinCommand_line ..).trans (joinCommand_line ..))) _ _).trans
    (startRamps_line _)

/-! ## Notices and an order in flight -/

/-- A notice does not look at the order in flight. -/
theorem notice_taken (k : Nat) (u : Bool) (b : List Byte) (tag : Byte) (o : Order) (s : State) :
    notice k u b (taken tag o s) = taken tag o (notice k u b s) := by
  have hp : ∀ s : State, pump (taken tag o s) = taken tag o (pump s) := by
    intro s
    unfold pump taken
    dsimp only
    split
    · rfl
    · split
      · rfl
      · split
        · rfl
        · split
          · rfl
          · rfl
  have key : ∀ (ur ro : List Notice) (g : Bool), ({ taken tag o s with link.urgent := ur, link.routine := ro, link.gap := g } : State)
      = taken tag o { s with link.urgent := ur, link.routine := ro, link.gap := g } := fun _ _ _ => rfl
  unfold notice
  split
  · show (if (!s.link.urgentOn) = true then _ else _) = taken tag o (if (!s.link.urgentOn) = true then _ else _)
    split
    · rfl
    · dsimp only
      show (if s.link.urgent.length + s.link.routine.length < 32 then _ else _)
        = taken tag o (if s.link.urgent.length + s.link.routine.length < 32 then _ else _)
      split
      · exact hp { s with link.urgent := s.link.urgent ++ [⟨k, true, s.time.clock, b⟩] }
      · show (match s.link.routine with | [] => _ | _ :: rs => _) = taken tag o (match s.link.routine with | [] => _ | _ :: rs => _)
        split
        · rfl
        · rename_i rs _
          exact hp { s with
            link.urgent := s.link.urgent ++ [⟨k, true, s.time.clock, b⟩], link.routine := rs, link.gap := true }
  · show (if (!s.link.routineOn) = true then _ else _) = taken tag o (if (!s.link.routineOn) = true then _ else _)
    split
    · rfl
    · show (if s.link.urgent.length + s.link.routine.length < 32 then _ else _)
        = taken tag o (if s.link.urgent.length + s.link.routine.length < 32 then _ else _)
      split
      · exact hp { s with link.routine := s.link.routine ++ [⟨k, false, s.time.clock, b⟩] }
      · rfl

end Sys2Proof.Safety
end

