-- ==== Sys2Proof/Laws/State.lean ====
section
/-! SUPPORT. What each named update of one block leaves as it was, block by block. -/

set_option Elab.async false

namespace Sys2Proof.Machine

/-! ## modPort -/

@[simp] theorem modPort_link (p : Nat × Nat) (f : Port → Port) (s : State) : (modPort p f s).link = s.link := rfl
@[simp] theorem modPort_time (p : Nat × Nat) (f : Port → Port) (s : State) : (modPort p f s).time = s.time := rfl
@[simp] theorem modPort_params (p : Nat × Nat) (f : Port → Port) (s : State) : (modPort p f s).params = s.params := rfl
@[simp] theorem modPort_lineup (p : Nat × Nat) (f : Port → Port) (s : State) : (modPort p f s).lineup = s.lineup := rfl
@[simp] theorem modPort_schedule (p : Nat × Nat) (f : Port → Port) (s : State) : (modPort p f s).schedule = s.schedule := rfl
@[simp] theorem modPort_subs (p : Nat × Nat) (f : Port → Port) (s : State) : (modPort p f s).subs = s.subs := rfl
@[simp] theorem modPort_telemetry (p : Nat × Nat) (f : Port → Port) (s : State) : (modPort p f s).telemetry = s.telemetry := rfl
@[simp] theorem modPort_outage (p : Nat × Nat) (f : Port → Port) (s : State) : (modPort p f s).outage = s.outage := rfl
@[simp] theorem modPort_craft (p : Nat × Nat) (f : Port → Port) (s : State) : (modPort p f s).craft = s.craft := rfl
@[simp] theorem modPort_events (p : Nat × Nat) (f : Port → Port) (s : State) : (modPort p f s).events = s.events := rfl
@[simp] theorem modPort_store (p : Nat × Nat) (f : Port → Port) (s : State) : (modPort p f s).store = s.store := rfl
@[simp] theorem modPort_engine (p : Nat × Nat) (f : Port → Port) (s : State) : (modPort p f s).engine = s.engine := rfl
@[simp] theorem modPort_pending (p : Nat × Nat) (f : Port → Port) (s : State) : (modPort p f s).pending = s.pending := rfl
@[simp] theorem modPort_freeCount (p : Nat × Nat) (f : Port → Port) (s : State) : (modPort p f s).freeCount = s.freeCount := rfl

/-! ## modTap -/

@[simp] theorem modTap_link (i : Nat) (f : Tap → Tap) (s : State) : (modTap i f s).link = s.link := rfl
@[simp] theorem modTap_time (i : Nat) (f : Tap → Tap) (s : State) : (modTap i f s).time = s.time := rfl
@[simp] theorem modTap_params (i : Nat) (f : Tap → Tap) (s : State) : (modTap i f s).params = s.params := rfl
@[simp] theorem modTap_lineup (i : Nat) (f : Tap → Tap) (s : State) : (modTap i f s).lineup = s.lineup := rfl
@[simp] theorem modTap_schedule (i : Nat) (f : Tap → Tap) (s : State) : (modTap i f s).schedule = s.schedule := rfl
@[simp] theorem modTap_subs (i : Nat) (f : Tap → Tap) (s : State) : (modTap i f s).subs = s.subs := rfl
@[simp] theorem modTap_telemetry (i : Nat) (f : Tap → Tap) (s : State) : (modTap i f s).telemetry = s.telemetry := rfl
@[simp] theorem modTap_outage (i : Nat) (f : Tap → Tap) (s : State) : (modTap i f s).outage = s.outage := rfl
@[simp] theorem modTap_craft (i : Nat) (f : Tap → Tap) (s : State) : (modTap i f s).craft = s.craft := rfl
@[simp] theorem modTap_events (i : Nat) (f : Tap → Tap) (s : State) : (modTap i f s).events = s.events := rfl
@[simp] theorem modTap_store (i : Nat) (f : Tap → Tap) (s : State) : (modTap i f s).store = s.store := rfl
@[simp] theorem modTap_engine (i : Nat) (f : Tap → Tap) (s : State) : (modTap i f s).engine = s.engine := rfl
@[simp] theorem modTap_pending (i : Nat) (f : Tap → Tap) (s : State) : (modTap i f s).pending = s.pending := rfl
@[simp] theorem modTap_freeCount (i : Nat) (f : Tap → Tap) (s : State) : (modTap i f s).freeCount = s.freeCount := rfl

/-! ## leaveQueues -/

@[simp] theorem leaveQueues_link (p : Nat × Nat) (s : State) : (leaveQueues p s).link = s.link := rfl
@[simp] theorem leaveQueues_time (p : Nat × Nat) (s : State) : (leaveQueues p s).time = s.time := rfl
@[simp] theorem leaveQueues_params (p : Nat × Nat) (s : State) : (leaveQueues p s).params = s.params := rfl
@[simp] theorem leaveQueues_lineup (p : Nat × Nat) (s : State) : (leaveQueues p s).lineup = s.lineup := rfl
@[simp] theorem leaveQueues_schedule (p : Nat × Nat) (s : State) : (leaveQueues p s).schedule = s.schedule := rfl
@[simp] theorem leaveQueues_subs (p : Nat × Nat) (s : State) : (leaveQueues p s).subs = s.subs := rfl
@[simp] theorem leaveQueues_telemetry (p : Nat × Nat) (s : State) : (leaveQueues p s).telemetry = s.telemetry := rfl
@[simp] theorem leaveQueues_outage (p : Nat × Nat) (s : State) : (leaveQueues p s).outage = s.outage := rfl
@[simp] theorem leaveQueues_craft (p : Nat × Nat) (s : State) : (leaveQueues p s).craft = s.craft := rfl
@[simp] theorem leaveQueues_events (p : Nat × Nat) (s : State) : (leaveQueues p s).events = s.events := rfl
@[simp] theorem leaveQueues_store (p : Nat × Nat) (s : State) : (leaveQueues p s).store = s.store := rfl
@[simp] theorem leaveQueues_engine (p : Nat × Nat) (s : State) : (leaveQueues p s).engine = s.engine := rfl
@[simp] theorem leaveQueues_pending (p : Nat × Nat) (s : State) : (leaveQueues p s).pending = s.pending := rfl
@[simp] theorem leaveQueues_freeCount (p : Nat × Nat) (s : State) : (leaveQueues p s).freeCount = s.freeCount := rfl

/-! ## joinUrgentHead -/

@[simp] theorem joinUrgentHead_link (p : Nat × Nat) (resume : Bool) (s : State) : (joinUrgentHead p resume s).link = s.link := rfl
@[simp] theorem joinUrgentHead_time (p : Nat × Nat) (resume : Bool) (s : State) : (joinUrgentHead p resume s).time = s.time := rfl
@[simp] theorem joinUrgentHead_params (p : Nat × Nat) (resume : Bool) (s : State) : (joinUrgentHead p resume s).params = s.params := rfl
@[simp] theorem joinUrgentHead_lineup (p : Nat × Nat) (resume : Bool) (s : State) : (joinUrgentHead p resume s).lineup = s.lineup := rfl
@[simp] theorem joinUrgentHead_schedule (p : Nat × Nat) (resume : Bool) (s : State) : (joinUrgentHead p resume s).schedule = s.schedule := rfl
@[simp] theorem joinUrgentHead_subs (p : Nat × Nat) (resume : Bool) (s : State) : (joinUrgentHead p resume s).subs = s.subs := rfl
@[simp] theorem joinUrgentHead_telemetry (p : Nat × Nat) (resume : Bool) (s : State) : (joinUrgentHead p resume s).telemetry = s.telemetry := rfl
@[simp] theorem joinUrgentHead_outage (p : Nat × Nat) (resume : Bool) (s : State) : (joinUrgentHead p resume s).outage = s.outage := rfl
@[simp] theorem joinUrgentHead_craft (p : Nat × Nat) (resume : Bool) (s : State) : (joinUrgentHead p resume s).craft = s.craft := rfl
@[simp] theorem joinUrgentHead_events (p : Nat × Nat) (resume : Bool) (s : State) : (joinUrgentHead p resume s).events = s.events := rfl
@[simp] theorem joinUrgentHead_store (p : Nat × Nat) (resume : Bool) (s : State) : (joinUrgentHead p resume s).store = s.store := rfl
@[simp] theorem joinUrgentHead_engine (p : Nat × Nat) (resume : Bool) (s : State) : (joinUrgentHead p resume s).engine = s.engine := rfl
@[simp] theorem joinUrgentHead_pending (p : Nat × Nat) (resume : Bool) (s : State) : (joinUrgentHead p resume s).pending = s.pending := rfl
@[simp] theorem joinUrgentHead_freeCount (p : Nat × Nat) (resume : Bool) (s : State) : (joinUrgentHead p resume s).freeCount = s.freeCount := rfl

/-! ## leaveCraft -/

@[simp] theorem leaveCraft_link (s : State) : (leaveCraft s).link = s.link := rfl
@[simp] theorem leaveCraft_time (s : State) : (leaveCraft s).time = s.time := rfl
@[simp] theorem leaveCraft_params (s : State) : (leaveCraft s).params = s.params := rfl
@[simp] theorem leaveCraft_lineup (s : State) : (leaveCraft s).lineup = s.lineup := rfl
@[simp] theorem leaveCraft_schedule (s : State) : (leaveCraft s).schedule = s.schedule := rfl
@[simp] theorem leaveCraft_subs (s : State) : (leaveCraft s).subs = s.subs := rfl
@[simp] theorem leaveCraft_telemetry (s : State) : (leaveCraft s).telemetry = s.telemetry := rfl
@[simp] theorem leaveCraft_outage (s : State) : (leaveCraft s).outage = s.outage := rfl
@[simp] theorem leaveCraft_craft (s : State) : (leaveCraft s).craft = s.craft := rfl
@[simp] theorem leaveCraft_events (s : State) : (leaveCraft s).events = s.events := rfl
@[simp] theorem leaveCraft_store (s : State) : (leaveCraft s).store = s.store := rfl
@[simp] theorem leaveCraft_engine (s : State) : (leaveCraft s).engine = s.engine := rfl
@[simp] theorem leaveCraft_pending (s : State) : (leaveCraft s).pending = s.pending := rfl
@[simp] theorem leaveCraft_freeCount (s : State) : (leaveCraft s).freeCount = s.freeCount := rfl

/-! ## completeCycle -/

@[simp] theorem completeCycle_link (s : State) : (completeCycle s).link = s.link := rfl
@[simp] theorem completeCycle_time (s : State) : (completeCycle s).time = s.time := rfl
@[simp] theorem completeCycle_params (s : State) : (completeCycle s).params = s.params := rfl
@[simp] theorem completeCycle_lineup (s : State) : (completeCycle s).lineup = s.lineup := rfl
@[simp] theorem completeCycle_schedule (s : State) : (completeCycle s).schedule = s.schedule := rfl
@[simp] theorem completeCycle_subs (s : State) : (completeCycle s).subs = s.subs := rfl
@[simp] theorem completeCycle_telemetry (s : State) : (completeCycle s).telemetry = s.telemetry := rfl
@[simp] theorem completeCycle_outage (s : State) : (completeCycle s).outage = s.outage := rfl
@[simp] theorem completeCycle_craft (s : State) : (completeCycle s).craft = s.craft := rfl
@[simp] theorem completeCycle_events (s : State) : (completeCycle s).events = s.events := rfl
@[simp] theorem completeCycle_store (s : State) : (completeCycle s).store = s.store := rfl
@[simp] theorem completeCycle_engine (s : State) : (completeCycle s).engine = s.engine := rfl
@[simp] theorem completeCycle_pending (s : State) : (completeCycle s).pending = s.pending := rfl
@[simp] theorem completeCycle_freeCount (s : State) : (completeCycle s).freeCount = s.freeCount := rfl

/-! ## startTx -/

@[simp] theorem startTx_link (purpose : Purpose) (address index : Nat) (toTap : Bool) (port : Nat) (content : Content) (s : State) : (startTx purpose address index toTap port content s).link = s.link := rfl
@[simp] theorem startTx_time (purpose : Purpose) (address index : Nat) (toTap : Bool) (port : Nat) (content : Content) (s : State) : (startTx purpose address index toTap port content s).time = s.time := rfl
@[simp] theorem startTx_params (purpose : Purpose) (address index : Nat) (toTap : Bool) (port : Nat) (content : Content) (s : State) : (startTx purpose address index toTap port content s).params = s.params := rfl
@[simp] theorem startTx_lineup (purpose : Purpose) (address index : Nat) (toTap : Bool) (port : Nat) (content : Content) (s : State) : (startTx purpose address index toTap port content s).lineup = s.lineup := rfl
@[simp] theorem startTx_schedule (purpose : Purpose) (address index : Nat) (toTap : Bool) (port : Nat) (content : Content) (s : State) : (startTx purpose address index toTap port content s).schedule = s.schedule := rfl
@[simp] theorem startTx_subs (purpose : Purpose) (address index : Nat) (toTap : Bool) (port : Nat) (content : Content) (s : State) : (startTx purpose address index toTap port content s).subs = s.subs := rfl
@[simp] theorem startTx_telemetry (purpose : Purpose) (address index : Nat) (toTap : Bool) (port : Nat) (content : Content) (s : State) : (startTx purpose address index toTap port content s).telemetry = s.telemetry := rfl
@[simp] theorem startTx_outage (purpose : Purpose) (address index : Nat) (toTap : Bool) (port : Nat) (content : Content) (s : State) : (startTx purpose address index toTap port content s).outage = s.outage := rfl
@[simp] theorem startTx_craft (purpose : Purpose) (address index : Nat) (toTap : Bool) (port : Nat) (content : Content) (s : State) : (startTx purpose address index toTap port content s).craft = s.craft := rfl
@[simp] theorem startTx_events (purpose : Purpose) (address index : Nat) (toTap : Bool) (port : Nat) (content : Content) (s : State) : (startTx purpose address index toTap port content s).events = s.events := rfl
@[simp] theorem startTx_store (purpose : Purpose) (address index : Nat) (toTap : Bool) (port : Nat) (content : Content) (s : State) : (startTx purpose address index toTap port content s).store = s.store := rfl
@[simp] theorem startTx_engine (purpose : Purpose) (address index : Nat) (toTap : Bool) (port : Nat) (content : Content) (s : State) : (startTx purpose address index toTap port content s).engine = s.engine := rfl
@[simp] theorem startTx_pending (purpose : Purpose) (address index : Nat) (toTap : Bool) (port : Nat) (content : Content) (s : State) : (startTx purpose address index toTap port content s).pending = s.pending := rfl
@[simp] theorem startTx_freeCount (purpose : Purpose) (address index : Nat) (toTap : Bool) (port : Nat) (content : Content) (s : State) : (startTx purpose address index toTap port content s).freeCount = s.freeCount := rfl

/-! ## modSeg -/

@[simp] theorem modSeg_link (n : Nat) (f : Segment → Segment) (s : State) : (modSeg n f s).link = s.link := rfl
@[simp] theorem modSeg_time (n : Nat) (f : Segment → Segment) (s : State) : (modSeg n f s).time = s.time := rfl
@[simp] theorem modSeg_params (n : Nat) (f : Segment → Segment) (s : State) : (modSeg n f s).params = s.params := rfl
@[simp] theorem modSeg_lineup (n : Nat) (f : Segment → Segment) (s : State) : (modSeg n f s).lineup = s.lineup := rfl
@[simp] theorem modSeg_schedule (n : Nat) (f : Segment → Segment) (s : State) : (modSeg n f s).schedule = s.schedule := rfl
@[simp] theorem modSeg_subs (n : Nat) (f : Segment → Segment) (s : State) : (modSeg n f s).subs = s.subs := rfl
@[simp] theorem modSeg_plant (n : Nat) (f : Segment → Segment) (s : State) : (modSeg n f s).plant = s.plant := rfl
@[simp] theorem modSeg_outage (n : Nat) (f : Segment → Segment) (s : State) : (modSeg n f s).outage = s.outage := rfl
@[simp] theorem modSeg_craft (n : Nat) (f : Segment → Segment) (s : State) : (modSeg n f s).craft = s.craft := rfl
@[simp] theorem modSeg_events (n : Nat) (f : Segment → Segment) (s : State) : (modSeg n f s).events = s.events := rfl
@[simp] theorem modSeg_store (n : Nat) (f : Segment → Segment) (s : State) : (modSeg n f s).store = s.store := rfl
@[simp] theorem modSeg_engine (n : Nat) (f : Segment → Segment) (s : State) : (modSeg n f s).engine = s.engine := rfl
@[simp] theorem modSeg_pending (n : Nat) (f : Segment → Segment) (s : State) : (modSeg n f s).pending = s.pending := rfl
@[simp] theorem modSeg_freeCount (n : Nat) (f : Segment → Segment) (s : State) : (modSeg n f s).freeCount = s.freeCount := rfl

/-! ## modChan -/

@[simp] theorem modChan_link (c : Nat) (f : Channel → Channel) (s : State) : (modChan c f s).link = s.link := rfl
@[simp] theorem modChan_time (c : Nat) (f : Channel → Channel) (s : State) : (modChan c f s).time = s.time := rfl
@[simp] theorem modChan_params (c : Nat) (f : Channel → Channel) (s : State) : (modChan c f s).params = s.params := rfl
@[simp] theorem modChan_schedule (c : Nat) (f : Channel → Channel) (s : State) : (modChan c f s).schedule = s.schedule := rfl
@[simp] theorem modChan_subs (c : Nat) (f : Channel → Channel) (s : State) : (modChan c f s).subs = s.subs := rfl
@[simp] theorem modChan_plant (c : Nat) (f : Channel → Channel) (s : State) : (modChan c f s).plant = s.plant := rfl
@[simp] theorem modChan_telemetry (c : Nat) (f : Channel → Channel) (s : State) : (modChan c f s).telemetry = s.telemetry := rfl
@[simp] theorem modChan_outage (c : Nat) (f : Channel → Channel) (s : State) : (modChan c f s).outage = s.outage := rfl
@[simp] theorem modChan_craft (c : Nat) (f : Channel → Channel) (s : State) : (modChan c f s).craft = s.craft := rfl
@[simp] theorem modChan_events (c : Nat) (f : Channel → Channel) (s : State) : (modChan c f s).events = s.events := rfl
@[simp] theorem modChan_store (c : Nat) (f : Channel → Channel) (s : State) : (modChan c f s).store = s.store := rfl
@[simp] theorem modChan_engine (c : Nat) (f : Channel → Channel) (s : State) : (modChan c f s).engine = s.engine := rfl
@[simp] theorem modChan_pending (c : Nat) (f : Channel → Channel) (s : State) : (modChan c f s).pending = s.pending := rfl
@[simp] theorem modChan_freeCount (c : Nat) (f : Channel → Channel) (s : State) : (modChan c f s).freeCount = s.freeCount := rfl

/-! ## markChanged -/

@[simp] theorem markChanged_link (s : State) : (markChanged s).link = s.link := rfl
@[simp] theorem markChanged_time (s : State) : (markChanged s).time = s.time := rfl
@[simp] theorem markChanged_params (s : State) : (markChanged s).params = s.params := rfl
@[simp] theorem markChanged_schedule (s : State) : (markChanged s).schedule = s.schedule := rfl
@[simp] theorem markChanged_subs (s : State) : (markChanged s).subs = s.subs := rfl
@[simp] theorem markChanged_plant (s : State) : (markChanged s).plant = s.plant := rfl
@[simp] theorem markChanged_telemetry (s : State) : (markChanged s).telemetry = s.telemetry := rfl
@[simp] theorem markChanged_outage (s : State) : (markChanged s).outage = s.outage := rfl
@[simp] theorem markChanged_craft (s : State) : (markChanged s).craft = s.craft := rfl
@[simp] theorem markChanged_events (s : State) : (markChanged s).events = s.events := rfl
@[simp] theorem markChanged_store (s : State) : (markChanged s).store = s.store := rfl
@[simp] theorem markChanged_engine (s : State) : (markChanged s).engine = s.engine := rfl
@[simp] theorem markChanged_pending (s : State) : (markChanged s).pending = s.pending := rfl
@[simp] theorem markChanged_freeCount (s : State) : (markChanged s).freeCount = s.freeCount := rfl

/-! ## readService -/

@[simp] theorem readService_link (s : State) : (readService s).link = s.link := rfl
@[simp] theorem readService_time (s : State) : (readService s).time = s.time := rfl
@[simp] theorem readService_params (s : State) : (readService s).params = s.params := rfl
@[simp] theorem readService_lineup (s : State) : (readService s).lineup = s.lineup := rfl
@[simp] theorem readService_schedule (s : State) : (readService s).schedule = s.schedule := rfl
@[simp] theorem readService_subs (s : State) : (readService s).subs = s.subs := rfl
@[simp] theorem readService_plant (s : State) : (readService s).plant = s.plant := rfl
@[simp] theorem readService_telemetry (s : State) : (readService s).telemetry = s.telemetry := rfl
@[simp] theorem readService_outage (s : State) : (readService s).outage = s.outage := rfl
@[simp] theorem readService_events (s : State) : (readService s).events = s.events := rfl
@[simp] theorem readService_store (s : State) : (readService s).store = s.store := rfl
@[simp] theorem readService_engine (s : State) : (readService s).engine = s.engine := rfl
@[simp] theorem readService_pending (s : State) : (readService s).pending = s.pending := rfl

/-! ## modRamp -/

@[simp] theorem modRamp_link (c : Nat) (f : Ramp → Ramp) (s : State) : (modRamp c f s).link = s.link := rfl
@[simp] theorem modRamp_time (c : Nat) (f : Ramp → Ramp) (s : State) : (modRamp c f s).time = s.time := rfl
@[simp] theorem modRamp_params (c : Nat) (f : Ramp → Ramp) (s : State) : (modRamp c f s).params = s.params := rfl
@[simp] theorem modRamp_schedule (c : Nat) (f : Ramp → Ramp) (s : State) : (modRamp c f s).schedule = s.schedule := rfl
@[simp] theorem modRamp_subs (c : Nat) (f : Ramp → Ramp) (s : State) : (modRamp c f s).subs = s.subs := rfl
@[simp] theorem modRamp_plant (c : Nat) (f : Ramp → Ramp) (s : State) : (modRamp c f s).plant = s.plant := rfl
@[simp] theorem modRamp_telemetry (c : Nat) (f : Ramp → Ramp) (s : State) : (modRamp c f s).telemetry = s.telemetry := rfl
@[simp] theorem modRamp_outage (c : Nat) (f : Ramp → Ramp) (s : State) : (modRamp c f s).outage = s.outage := rfl
@[simp] theorem modRamp_craft (c : Nat) (f : Ramp → Ramp) (s : State) : (modRamp c f s).craft = s.craft := rfl
@[simp] theorem modRamp_events (c : Nat) (f : Ramp → Ramp) (s : State) : (modRamp c f s).events = s.events := rfl
@[simp] theorem modRamp_store (c : Nat) (f : Ramp → Ramp) (s : State) : (modRamp c f s).store = s.store := rfl
@[simp] theorem modRamp_engine (c : Nat) (f : Ramp → Ramp) (s : State) : (modRamp c f s).engine = s.engine := rfl
@[simp] theorem modRamp_pending (c : Nat) (f : Ramp → Ramp) (s : State) : (modRamp c f s).pending = s.pending := rfl
@[simp] theorem modRamp_freeCount (c : Nat) (f : Ramp → Ramp) (s : State) : (modRamp c f s).freeCount = s.freeCount := rfl

/-! ## setEvent -/

@[simp] theorem setEvent_link (e : Nat) (v : Option Event) (s : State) : (setEvent e v s).link = s.link := rfl
@[simp] theorem setEvent_time (e : Nat) (v : Option Event) (s : State) : (setEvent e v s).time = s.time := rfl
@[simp] theorem setEvent_params (e : Nat) (v : Option Event) (s : State) : (setEvent e v s).params = s.params := rfl
@[simp] theorem setEvent_lineup (e : Nat) (v : Option Event) (s : State) : (setEvent e v s).lineup = s.lineup := rfl
@[simp] theorem setEvent_schedule (e : Nat) (v : Option Event) (s : State) : (setEvent e v s).schedule = s.schedule := rfl
@[simp] theorem setEvent_subs (e : Nat) (v : Option Event) (s : State) : (setEvent e v s).subs = s.subs := rfl
@[simp] theorem setEvent_plant (e : Nat) (v : Option Event) (s : State) : (setEvent e v s).plant = s.plant := rfl
@[simp] theorem setEvent_telemetry (e : Nat) (v : Option Event) (s : State) : (setEvent e v s).telemetry = s.telemetry := rfl
@[simp] theorem setEvent_outage (e : Nat) (v : Option Event) (s : State) : (setEvent e v s).outage = s.outage := rfl
@[simp] theorem setEvent_craft (e : Nat) (v : Option Event) (s : State) : (setEvent e v s).craft = s.craft := rfl
@[simp] theorem setEvent_store (e : Nat) (v : Option Event) (s : State) : (setEvent e v s).store = s.store := rfl
@[simp] theorem setEvent_engine (e : Nat) (v : Option Event) (s : State) : (setEvent e v s).engine = s.engine := rfl
@[simp] theorem setEvent_pending (e : Nat) (v : Option Event) (s : State) : (setEvent e v s).pending = s.pending := rfl
@[simp] theorem setEvent_freeCount (e : Nat) (v : Option Event) (s : State) : (setEvent e v s).freeCount = s.freeCount := rfl

/-! ## writeWatch -/

@[simp] theorem writeWatch_link (n : Nat) (w : Watch) (s : State) : (writeWatch n w s).link = s.link := rfl
@[simp] theorem writeWatch_time (n : Nat) (w : Watch) (s : State) : (writeWatch n w s).time = s.time := rfl
@[simp] theorem writeWatch_params (n : Nat) (w : Watch) (s : State) : (writeWatch n w s).params = s.params := rfl
@[simp] theorem writeWatch_lineup (n : Nat) (w : Watch) (s : State) : (writeWatch n w s).lineup = s.lineup := rfl
@[simp] theorem writeWatch_schedule (n : Nat) (w : Watch) (s : State) : (writeWatch n w s).schedule = s.schedule := rfl
@[simp] theorem writeWatch_subs (n : Nat) (w : Watch) (s : State) : (writeWatch n w s).subs = s.subs := rfl
@[simp] theorem writeWatch_plant (n : Nat) (w : Watch) (s : State) : (writeWatch n w s).plant = s.plant := rfl
@[simp] theorem writeWatch_telemetry (n : Nat) (w : Watch) (s : State) : (writeWatch n w s).telemetry = s.telemetry := rfl
@[simp] theorem writeWatch_craft (n : Nat) (w : Watch) (s : State) : (writeWatch n w s).craft = s.craft := rfl
@[simp] theorem writeWatch_events (n : Nat) (w : Watch) (s : State) : (writeWatch n w s).events = s.events := rfl
@[simp] theorem writeWatch_store (n : Nat) (w : Watch) (s : State) : (writeWatch n w s).store = s.store := rfl
@[simp] theorem writeWatch_engine (n : Nat) (w : Watch) (s : State) : (writeWatch n w s).engine = s.engine := rfl
@[simp] theorem writeWatch_pending (n : Nat) (w : Watch) (s : State) : (writeWatch n w s).pending = s.pending := rfl
@[simp] theorem writeWatch_freeCount (n : Nat) (w : Watch) (s : State) : (writeWatch n w s).freeCount = s.freeCount := rfl

/-! ## clearWatch -/

@[simp] theorem clearWatch_link (n : Nat) (s : State) : (clearWatch n s).link = s.link := rfl
@[simp] theorem clearWatch_time (n : Nat) (s : State) : (clearWatch n s).time = s.time := rfl
@[simp] theorem clearWatch_params (n : Nat) (s : State) : (clearWatch n s).params = s.params := rfl
@[simp] theorem clearWatch_lineup (n : Nat) (s : State) : (clearWatch n s).lineup = s.lineup := rfl
@[simp] theorem clearWatch_schedule (n : Nat) (s : State) : (clearWatch n s).schedule = s.schedule := rfl
@[simp] theorem clearWatch_subs (n : Nat) (s : State) : (clearWatch n s).subs = s.subs := rfl
@[simp] theorem clearWatch_plant (n : Nat) (s : State) : (clearWatch n s).plant = s.plant := rfl
@[simp] theorem clearWatch_telemetry (n : Nat) (s : State) : (clearWatch n s).telemetry = s.telemetry := rfl
@[simp] theorem clearWatch_craft (n : Nat) (s : State) : (clearWatch n s).craft = s.craft := rfl
@[simp] theorem clearWatch_events (n : Nat) (s : State) : (clearWatch n s).events = s.events := rfl
@[simp] theorem clearWatch_store (n : Nat) (s : State) : (clearWatch n s).store = s.store := rfl
@[simp] theorem clearWatch_engine (n : Nat) (s : State) : (clearWatch n s).engine = s.engine := rfl
@[simp] theorem clearWatch_pending (n : Nat) (s : State) : (clearWatch n s).pending = s.pending := rfl
@[simp] theorem clearWatch_freeCount (n : Nat) (s : State) : (clearWatch n s).freeCount = s.freeCount := rfl

/-! ## joinItem -/

@[simp] theorem joinItem_link (i : StoreItem) (s : State) : (joinItem i s).link = s.link := rfl
@[simp] theorem joinItem_time (i : StoreItem) (s : State) : (joinItem i s).time = s.time := rfl
@[simp] theorem joinItem_params (i : StoreItem) (s : State) : (joinItem i s).params = s.params := rfl
@[simp] theorem joinItem_lineup (i : StoreItem) (s : State) : (joinItem i s).lineup = s.lineup := rfl
@[simp] theorem joinItem_schedule (i : StoreItem) (s : State) : (joinItem i s).schedule = s.schedule := rfl
@[simp] theorem joinItem_subs (i : StoreItem) (s : State) : (joinItem i s).subs = s.subs := rfl
@[simp] theorem joinItem_plant (i : StoreItem) (s : State) : (joinItem i s).plant = s.plant := rfl
@[simp] theorem joinItem_telemetry (i : StoreItem) (s : State) : (joinItem i s).telemetry = s.telemetry := rfl
@[simp] theorem joinItem_outage (i : StoreItem) (s : State) : (joinItem i s).outage = s.outage := rfl
@[simp] theorem joinItem_craft (i : StoreItem) (s : State) : (joinItem i s).craft = s.craft := rfl
@[simp] theorem joinItem_events (i : StoreItem) (s : State) : (joinItem i s).events = s.events := rfl
@[simp] theorem joinItem_engine (i : StoreItem) (s : State) : (joinItem i s).engine = s.engine := rfl
@[simp] theorem joinItem_pending (i : StoreItem) (s : State) : (joinItem i s).pending = s.pending := rfl
@[simp] theorem joinItem_freeCount (i : StoreItem) (s : State) : (joinItem i s).freeCount = s.freeCount := rfl

/-! ## advanceId -/

@[simp] theorem advanceId_link (s : State) : (advanceId s).link = s.link := rfl
@[simp] theorem advanceId_time (s : State) : (advanceId s).time = s.time := rfl
@[simp] theorem advanceId_params (s : State) : (advanceId s).params = s.params := rfl
@[simp] theorem advanceId_lineup (s : State) : (advanceId s).lineup = s.lineup := rfl
@[simp] theorem advanceId_subs (s : State) : (advanceId s).subs = s.subs := rfl
@[simp] theorem advanceId_plant (s : State) : (advanceId s).plant = s.plant := rfl
@[simp] theorem advanceId_telemetry (s : State) : (advanceId s).telemetry = s.telemetry := rfl
@[simp] theorem advanceId_outage (s : State) : (advanceId s).outage = s.outage := rfl
@[simp] theorem advanceId_craft (s : State) : (advanceId s).craft = s.craft := rfl
@[simp] theorem advanceId_events (s : State) : (advanceId s).events = s.events := rfl
@[simp] theorem advanceId_store (s : State) : (advanceId s).store = s.store := rfl
@[simp] theorem advanceId_engine (s : State) : (advanceId s).engine = s.engine := rfl
@[simp] theorem advanceId_pending (s : State) : (advanceId s).pending = s.pending := rfl
@[simp] theorem advanceId_freeCount (s : State) : (advanceId s).freeCount = s.freeCount := rfl

/-! ## setBank -/

@[simp] theorem setBank_link (s : State) (i : BankId) (v : Bank) : (setBank s i v).link = s.link := by cases i <;> rfl
@[simp] theorem setBank_time (s : State) (i : BankId) (v : Bank) : (setBank s i v).time = s.time := by cases i <;> rfl
@[simp] theorem setBank_params (s : State) (i : BankId) (v : Bank) : (setBank s i v).params = s.params := by cases i <;> rfl
@[simp] theorem setBank_lineup (s : State) (i : BankId) (v : Bank) : (setBank s i v).lineup = s.lineup := by cases i <;> rfl
@[simp] theorem setBank_schedule (s : State) (i : BankId) (v : Bank) : (setBank s i v).schedule = s.schedule := by cases i <;> rfl
@[simp] theorem setBank_subs (s : State) (i : BankId) (v : Bank) : (setBank s i v).subs = s.subs := by cases i <;> rfl
@[simp] theorem setBank_plant (s : State) (i : BankId) (v : Bank) : (setBank s i v).plant = s.plant := by cases i <;> rfl
@[simp] theorem setBank_telemetry (s : State) (i : BankId) (v : Bank) : (setBank s i v).telemetry = s.telemetry := by cases i <;> rfl
@[simp] theorem setBank_outage (s : State) (i : BankId) (v : Bank) : (setBank s i v).outage = s.outage := by cases i <;> rfl
@[simp] theorem setBank_craft (s : State) (i : BankId) (v : Bank) : (setBank s i v).craft = s.craft := by cases i <;> rfl
@[simp] theorem setBank_events (s : State) (i : BankId) (v : Bank) : (setBank s i v).events = s.events := by cases i <;> rfl
@[simp] theorem setBank_engine (s : State) (i : BankId) (v : Bank) : (setBank s i v).engine = s.engine := by cases i <;> rfl
@[simp] theorem setBank_pending (s : State) (i : BankId) (v : Bank) : (setBank s i v).pending = s.pending := by cases i <;> rfl
@[simp] theorem setBank_freeCount (s : State) (i : BankId) (v : Bank) : (setBank s i v).freeCount = s.freeCount := by cases i <;> rfl
@[simp] theorem setBank_store_identity (s : State) (i : BankId) (v : Bank) : (setBank s i v).store.identity = s.store.identity := by
  cases i <;> rfl
@[simp] theorem setBank_store_lock (s : State) (i : BankId) (v : Bank) : (setBank s i v).store.lock = s.store.lock := by
  cases i <;> rfl
@[simp] theorem setBank_store_queue (s : State) (i : BankId) (v : Bank) : (setBank s i v).store.queue = s.store.queue := by
  cases i <;> rfl
@[simp] theorem setBank_store_path (s : State) (i : BankId) (v : Bank) : (setBank s i v).store.path = s.store.path := by
  cases i <;> rfl
@[simp] theorem setBank_store_mismatches (s : State) (i : BankId) (v : Bank) : (setBank s i v).store.mismatches = s.store.mismatches := by
  cases i <;> rfl
@[simp] theorem setBank_store_fault (s : State) (i : BankId) (v : Bank) : (setBank s i v).store.fault = s.store.fault := by
  cases i <;> rfl
@[simp] theorem setBank_store_spend (s : State) (i : BankId) (v : Bank) : (setBank s i v).store.spend = s.store.spend := by
  cases i <;> rfl
@[simp] theorem setBank_store_lowMark (s : State) (i : BankId) (v : Bank) : (setBank s i v).store.lowMark = s.store.lowMark := by
  cases i <;> rfl
@[simp] theorem setBank_store_minute (s : State) (i : BankId) (v : Bank) : (setBank s i v).store.minute = s.store.minute := by
  cases i <;> rfl
@[simp] theorem setBank_store_scan (s : State) (i : BankId) (v : Bank) : (setBank s i v).store.scan = s.store.scan := by
  cases i <;> rfl

/-- The bank written is the bank read. -/
@[simp] theorem bank_setBank (s : State) (i : BankId) (v : Bank) : bank (setBank s i v) i = v := by cases i <;> rfl

/-- The other bank stands. -/
@[simp] theorem bank_setBank_other (s : State) (i : BankId) (v : Bank) :
    bank (setBank s i v) (otherBank i) = bank s (otherBank i) := by cases i <;> rfl

end Sys2Proof.Machine
end

