-- ==== Sys2Proof/Laws/Memory.lean ====
section
/-! SUPPORT. The bytes of a bank: what a read gives after each write, and that every operation keeps the canonical form. -/

set_option Elab.async false

namespace Sys2Proof.Machine

/-! ## Reads -/

/-- A byte below the lowest listed address reads as erased. -/
theorem cellGet_below : ∀ (m : List Host.Cell) (lo a : Nat), cellsFrom lo m = true → a < lo → cellGet m a = erasedByte
  | [], _, _, _, _ => rfl
  | (k, v) :: t, lo, a, h, ha => by
    simp only [cellsFrom, Bool.and_eq_true, decide_eq_true_eq] at h
    have hk : k ≠ a := by omega
    simp only [cellGet, hk, if_false]
    exact cellGet_below t (k + 1) a h.2 (by omega)

/-- The byte put is the byte read. -/
theorem cellGet_cellPut_same : ∀ (m : List Host.Cell) (lo a : Nat) (x : Byte), cellsFrom lo m = true →
    cellGet (cellPut m a x) a = x
  | [], _, a, x, _ => by
    by_cases hx : x = erasedByte <;> simp [cellPut, hx, cellGet]
  | (k, v) :: t, lo, a, x, h => by
    simp only [cellsFrom, Bool.and_eq_true, decide_eq_true_eq] at h
    by_cases h1 : k < a
    · have hk : k ≠ a := by omega
      simp only [cellPut, h1, if_true, cellGet, hk, if_false]
      exact cellGet_cellPut_same t (k + 1) a x h.2
    · by_cases h2 : k = a
      · subst h2
        by_cases hx : x = erasedByte
        · simp only [cellPut, Nat.lt_irrefl, if_false, if_true, hx]
          exact cellGet_below t (k + 1) k h.2 (by omega)
        · simp [cellPut, hx, cellGet]
      · have hlt : a < k := by omega
        by_cases hx : x = erasedByte
        · simp only [cellPut, h1, h2, if_false, hx, if_true, cellGet]
          exact cellGet_below t (k + 1) a h.2 (by omega)
        · simp [cellPut, h1, h2, hx, cellGet]

/-- Every other byte reads as before. -/
theorem cellGet_cellPut_other : ∀ (m : List Host.Cell) (a b : Nat) (x : Byte), b ≠ a →
    cellGet (cellPut m a x) b = cellGet m b
  | [], a, b, x, hb => by
    by_cases hx : x = erasedByte
    · simp [cellPut, hx, cellGet]
    · have : a ≠ b := fun e => hb e.symm
      simp [cellPut, hx, cellGet, this]
  | (k, v) :: t, a, b, x, hb => by
    have hab : a ≠ b := fun e => hb e.symm
    by_cases h1 : k < a
    · simp only [cellPut, h1, if_true, cellGet]
      by_cases hk : k = b
      · simp [hk]
      · simp only [hk, if_false]; exact cellGet_cellPut_other t a b x hb
    · by_cases h2 : k = a
      · subst h2
        by_cases hx : x = erasedByte
        · simp [cellPut, hx, cellGet, hab]
        · simp [cellPut, hx, cellGet, hab]
      · by_cases hx : x = erasedByte
        · simp [cellPut, h1, h2, hx]
        · simp [cellPut, h1, h2, hx, cellGet, hab]

/-! ## The canonical form -/

/-- A lower bound may be lowered. -/
theorem cellsFrom_mono : ∀ (m : List Host.Cell) (lo lo' : Nat), lo' ≤ lo → cellsFrom lo m = true → cellsFrom lo' m = true
  | [], _, _, _, _ => rfl
  | (k, v) :: t, lo, lo', hl, h => by
    simp only [cellsFrom, Bool.and_eq_true, decide_eq_true_eq] at h ⊢
    exact ⟨⟨by omega, h.1.2⟩, h.2⟩

/-- A put keeps the canonical form above a bound that the address respects. -/
theorem cellPut_from : ∀ (m : List Host.Cell) (lo a : Nat) (x : Byte), lo ≤ a → cellsFrom lo m = true →
    cellsFrom lo (cellPut m a x) = true
  | [], lo, a, x, ha, _ => by
    by_cases hx : x = erasedByte <;> simp [cellPut, hx, cellsFrom, ha]
  | (k, v) :: t, lo, a, x, ha, h => by
    simp only [cellsFrom, Bool.and_eq_true, decide_eq_true_eq] at h
    by_cases h1 : k < a
    · simp only [cellPut, h1, if_true, cellsFrom, Bool.and_eq_true, decide_eq_true_eq]
      exact ⟨h.1, cellPut_from t (k + 1) a x (by omega) h.2⟩
    · by_cases h2 : k = a
      · subst h2
        by_cases hx : x = erasedByte
        · simp only [cellPut, Nat.lt_irrefl, if_false, if_true, hx]
          exact cellsFrom_mono t (k + 1) lo (by omega) h.2
        · simp only [cellPut, Nat.lt_irrefl, if_false, if_true, hx, cellsFrom, Bool.and_eq_true, decide_eq_true_eq]
          exact ⟨⟨ha, hx⟩, h.2⟩
      · by_cases hx : x = erasedByte
        · simp only [cellPut, h1, h2, if_false, hx, if_true, cellsFrom, Bool.and_eq_true, decide_eq_true_eq]
          exact h
        · simp only [cellPut, h1, h2, if_false, hx, cellsFrom, Bool.and_eq_true, decide_eq_true_eq]
          exact ⟨⟨ha, hx⟩, ⟨by omega, h.1.2⟩, h.2⟩

/-- A put keeps the canonical form. -/
theorem cellPut_wf {m : List Host.Cell} (a : Nat) (x : Byte) (h : cellsWf m = true) : cellsWf (cellPut m a x) = true :=
  cellPut_from m 0 a x (Nat.zero_le _) h

/-- Programming keeps the canonical form. -/
theorem cellsAnd_wf : ∀ (bs : List Byte) (m : List Host.Cell) (a : Nat), cellsWf m = true → cellsWf (cellsAnd m a bs) = true
  | [], _, _, h => h
  | b :: t, m, a, h => cellsAnd_wf t _ (a + 1) (cellPut_wf a (cellGet m a &&& b) h)

/-- The rise of bits keeps the canonical form. -/
theorem cellsRise_wf : ∀ (bs : List Byte) (m : List Host.Cell) (a : Nat), cellsWf m = true → cellsWf (cellsRise m a bs) = true
  | [], _, _, h => h
  | b :: t, m, a, h => cellsRise_wf t _ (a + 1) (cellPut_wf a (cellGet m a ||| b) h)

/-- Leaving entries out keeps the canonical form above a bound. -/
theorem cellsFilter_from (p : Host.Cell → Bool) : ∀ (m : List Host.Cell) (lo : Nat), cellsFrom lo m = true →
    cellsFrom lo (m.filter p) = true
  | [], _, _ => rfl
  | (k, v) :: t, lo, h => by
    simp only [cellsFrom, Bool.and_eq_true, decide_eq_true_eq] at h
    by_cases hp : p (k, v) = true
    · simp only [List.filter, hp, cellsFrom, Bool.and_eq_true, decide_eq_true_eq]
      exact ⟨h.1, cellsFilter_from p t (k + 1) h.2⟩
    · simp only [List.filter, hp]
      exact cellsFrom_mono _ (k + 1) lo (by omega) (cellsFilter_from p t (k + 1) h.2)

/-- An erase keeps the canonical form. -/
theorem cellsErase_wf {m : List Host.Cell} (p : Nat) (h : cellsWf m = true) : cellsWf (cellsErase m p) = true :=
  cellsFilter_from _ m 0 h

/-- Bytes put one after another keep the canonical form. -/
theorem cellsFold_wf {α : Type} (f : α → Nat) (g : α → Byte) : ∀ (l : List α) (m : List Host.Cell), cellsWf m = true →
    cellsWf (l.foldl (fun m c => cellPut m (f c) (g c)) m) = true
  | [], _, h => h
  | c :: t, _, h => cellsFold_wf f g t _ (cellPut_wf (f c) (g c) h)

/-- Programming changes no byte outside the bytes programmed. -/
theorem cellGet_cellsAnd_outside : ∀ (bs : List Byte) (m : List Host.Cell) (a b : Nat), b < a ∨ a + bs.length ≤ b →
    cellGet (cellsAnd m a bs) b = cellGet m b
  | [], _, _, _, _ => rfl
  | x :: t, m, a, b, h => by
    simp only [List.length_cons] at h
    rw [cellsAnd, cellGet_cellsAnd_outside t _ (a + 1) b (by omega), cellGet_cellPut_other _ _ _ _ (by omega)]

/-- What the array takes of a programming is as many bytes as were given. -/
@[simp] theorem took_length (p : Programmed) (given : List Byte) : (took p given).length = given.length := by
  unfold took
  split <;> simp

/-- A byte taken is the operand's, or 0xFF where the operand does not give it. -/
theorem took_getElem? {p : Programmed} {given bs : List Byte} {i : Nat} (hp : p.landed = some bs) (hi : i < given.length) :
    (took p given)[i]? = some ((bs[i]?).getD erasedByte) := by
  simp [took, hp, hi]

/-- A programming changes no byte of its bank outside the bytes given, whatever the array took (log 4). -/
theorem programBank_took_outside (i : BankId) (a b : Nat) (p : Programmed) (given : List Byte) (s : State)
    (h : b < a ∨ a + given.length ≤ b) :
    cellGet (bank (programBank i a (took p given) s) i).cells b = cellGet (bank s i).cells b := by
  rw [← took_length p given] at h
  cases i <;> exact cellGet_cellsAnd_outside _ _ _ _ h

/-- Every byte below an address reads as erased exactly where no entry is listed below it. -/
theorem cellsErased_iff (n : Nat) : ∀ (m : List Host.Cell) (lo : Nat), cellsFrom lo m = true →
    (m.all (fun c => decide (n ≤ c.1)) = true ↔ ∀ a, a < n → cellGet m a = erasedByte)
  | [], _, _ => by simp [cellGet]
  | (k, v) :: t, lo, h => by
    have h0 := h
    simp only [cellsFrom, Bool.and_eq_true, decide_eq_true_eq] at h
    have ih := cellsErased_iff n t (k + 1) h.2
    simp only [List.all_cons, Bool.and_eq_true, decide_eq_true_eq, ih]
    constructor
    · rintro ⟨hk, _⟩ a ha
      exact cellGet_below _ k a (by simp [cellsFrom, h.1.2, h.2]) (by omega)
    · intro hr
      refine ⟨Nat.le_of_not_lt fun hk => h.1.2 ?_, fun a ha => ?_⟩
      · simpa [cellGet] using hr k hk
      · rcases Nat.lt_or_ge a (k + 1) with hlt | hge
        · exact cellGet_below t (k + 1) a h.2 hlt
        · simpa [cellGet, show k ≠ a by omega] using hr a ha

/-- A bank in canonical form is wholly erased, as the table of R146 has FREE, exactly where every byte of it reads so. -/
theorem bankBlank_iff {b : Bank} (h : cellsWf b.cells = true) :
    bankBlank b = true ↔ ∀ a, a < bankBytes → cellGet b.cells a = erasedByte :=
  cellsErased_iff bankBytes b.cells 0 h

/-- Reset memory is canonical. -/
theorem reset_memoryWf : memoryWf State.reset = true := by decide

/-- A bank of a canonical memory is canonical. -/
theorem bank_wf {s : State} (h : memoryWf s = true) (i : BankId) : cellsWf (bank s i).cells = true := by
  simp only [memoryWf, Bool.and_eq_true] at h
  cases i
  · exact h.1
  · exact h.2

/-- Writing a bank with canonical cells keeps a canonical memory. -/
theorem setBank_wf {s : State} (h : memoryWf s = true) (i : BankId) (v : Bank) (hv : cellsWf v.cells = true) :
    memoryWf (setBank s i v) = true := by
  simp only [memoryWf, Bool.and_eq_true] at h ⊢
  cases i
  · exact ⟨hv, h.2⟩
  · exact ⟨h.1, hv⟩

end Sys2Proof.Machine
end

