-- ==== Sys2Proof/Laws/Sound.lean ====
section
/-! SUPPORT. Soundness block by block: what a record update must keep, and the shared operations of the link, the ports and the
print queue keep it. -/

set_option Elab.async false

namespace Sys2Proof.Safety

open Sys2Proof.Machine

variable {dirty : Bool}

/-! ## Soundness of a state given field by field -/

/-- A state that agrees with a sound one on all that soundness reads is sound. -/
theorem SoundAt.same {s t : State} (h : SoundAt dirty s) (e1 : t.link = s.link := by rfl)
    (e2 : t.time.clock = s.time.clock := by rfl) (e3 : t.params = s.params := by rfl) (e4 : t.lineup = s.lineup := by rfl)
    (e5 : t.schedule.active = s.schedule.active := by rfl) (e6 : t.schedule.entries = s.schedule.entries := by rfl)
    (e7 : t.outage.watches = s.outage.watches := by rfl) (e8 : t.outage.held = s.outage.held := by rfl)
    (e9 : t.craft = s.craft := by rfl) (e10 : t.events = s.events := by rfl)
    (e11 : t.engine.tariff = s.engine.tariff := by rfl) (e12 : t.store.a.cells = s.store.a.cells := by rfl)
    (e13 : t.store.b.cells = s.store.b.cells := by rfl) : SoundAt dirty t := by
  refine ⟨e1 ▸ h.link, ?_, e3 ▸ h.params, e4 ▸ h.lineup, e4 ▸ h.classes, ?_, e6 ▸ h.schedule, e7 ▸ h.watches, e8 ▸ h.held,
    e9 ▸ h.craft, e10 ▸ h.events, e11 ▸ h.tariff, ?_, ?_⟩
  · have := h.second; unfold secondRange at *; rw [e2]; exact this
  · rw [e5, e4]; exact h.routes
  · have := h.memory; unfold memoryWf at *; rw [e12, e13]; exact this
  · rw [e4]; exact h.handed

/-- A fold of sound steps is sound. -/
theorem foldl_sound {α : Type} (f : State → α → State) (hf : ∀ s a, SoundAt dirty s → SoundAt dirty (f s a)) :
    ∀ (l : List α) (s : State), SoundAt dirty s → SoundAt dirty (l.foldl f s)
  | [], _, h => h
  | a :: t, s, h => foldl_sound f hf t _ (hf s a h)

/-! ## The link -/

/-- A link update is sound when the new link keeps its bounds. -/
theorem SoundAt.withLink {s : State} (h : SoundAt dirty s) (l : Link) (hl : linkBounds l) : SoundAt dirty { s with link := l } :=
  ⟨hl, h.second, h.params, h.lineup, h.classes, h.routes, h.schedule, h.watches, h.held, h.craft, h.events, h.tariff, h.memory, h.handed⟩

theorem pump_sound {s : State} (h : SoundAt dirty s) : SoundAt dirty (pump s) := by
  have hl := h.link
  unfold linkBounds at hl
  unfold pump
  split
  · exact h
  · split
    · rename_i r rs hr
      refine h.withLink _ ?_
      unfold linkBounds
      simp only [hr, List.length_cons] at hl ⊢
      refine ⟨hl.1, by omega, fun hi => ?_, hl.2.2.2⟩
      have := hl.2.2.1 hi; omega
    · split
      · rename_i n ns hn
        refine h.withLink _ ?_
        unfold linkBounds
        simp only [hn, List.length_cons] at hl ⊢
        exact ⟨hl.1, hl.2.1, hl.2.2.1, by omega⟩
      · split
        · rename_i n ns hn
          refine h.withLink _ ?_
          unfold linkBounds
          simp only [hn, List.length_cons] at hl ⊢
          exact ⟨hl.1, hl.2.1, hl.2.2.1, by omega⟩
        · exact h

/-- A reply joins a list that has a place and no order in flight. -/
theorem joinReply_sound {s : State} (t : TaggedOrder) (c : StatusCode) (b : List Byte) (h : SoundAt dirty s)
    (hr : s.link.replies.length < 8) (hi : s.link.inFlight.isSome = true → s.link.replies.length < 7) :
    SoundAt dirty (joinReply t c b s) := by
  unfold joinReply
  apply pump_sound
  have hl := h.link
  unfold linkBounds at hl
  refine h.withLink _ ?_
  unfold linkBounds
  simp only [List.length_append, List.length_singleton]
  refine ⟨hl.1, by omega, fun x => ?_, hl.2.2.2⟩
  have := hi x
  omega

theorem answer_sound {s : State} (c : StatusCode) (b : List Byte) (h : SoundAt dirty s) : SoundAt dirty (answer c b s) := by
  unfold answer
  split
  · exact h
  · rename_i t ht
    have hl := h.link
    unfold linkBounds at hl
    have h7 : s.link.replies.length ≤ 7 := hl.2.2.1 (by simp [ht])
    apply joinReply_sound
    · exact h.withLink _ ⟨hl.1, hl.2.1, by simp, hl.2.2.2⟩
    · simp only []; omega
    · simp

theorem refuse_sound {s : State} (c : StatusCode) (h : SoundAt dirty s) : SoundAt dirty (refuse c s) := answer_sound c [] h

theorem notice_sound {s : State} (k : Nat) (u : Bool) (b : List Byte) (h : SoundAt dirty s) : SoundAt dirty (notice k u b s) := by
  have hl := h.link
  unfold linkBounds at hl
  unfold notice
  split
  · split
    · exact h
    · split
      · apply pump_sound
        refine h.withLink _ ?_
        unfold linkBounds
        simp only [List.length_append, List.length_singleton]
        exact ⟨hl.1, hl.2.1, hl.2.2.1, by omega⟩
      · split
        · exact h.withLink _ ⟨hl.1, hl.2.1, hl.2.2.1, hl.2.2.2⟩
        · rename_i r rs hr
          apply pump_sound
          refine h.withLink _ ?_
          unfold linkBounds
          simp only [hr, List.length_append, List.length_cons, List.length_nil] at hl ⊢
          exact ⟨hl.1, hl.2.1, hl.2.2.1, by omega⟩
  · split
    · exact h
    · split
      · apply pump_sound
        refine h.withLink _ ?_
        unfold linkBounds
        simp only [List.length_append, List.length_singleton]
        exact ⟨hl.1, hl.2.1, hl.2.2.1, by omega⟩
      · exact h.withLink _ ⟨hl.1, hl.2.1, hl.2.2.1, hl.2.2.2⟩

/-! ## The ports, which change the plant line's tables alone -/

theorem modPort_sound {s : State} (p : Nat × Nat) (f : Port → Port) (h : SoundAt dirty s) : SoundAt dirty (modPort p f s) := h.same

theorem leaveQueues_sound {s : State} (p : Nat × Nat) (h : SoundAt dirty s) : SoundAt dirty (leaveQueues p s) := h.same

theorem joinQueue_sound {s : State} (c : PClass) (p : Nat × Nat) (h : SoundAt dirty s) : SoundAt dirty (joinQueue c p s) := by
  cases c <;> exact h.same

theorem joinUrgentHead_sound {s : State} (p : Nat × Nat) (r : Bool) (h : SoundAt dirty s) : SoundAt dirty (joinUrgentHead p r s) := h.same

theorem parkPort_sound {s : State} (p : Nat × Nat) (h : SoundAt dirty s) : SoundAt dirty (parkPort p s) := h.same

theorem pend_sound {s : State} (c : PClass) (p : Nat × Nat) (h : SoundAt dirty s) : SoundAt dirty (pend c p s) := by
  unfold pend
  split
  · exact h.same
  · exact joinQueue_sound _ _ h.same

theorem markPort_sound {s : State} (c : PClass) (p : Nat × Nat) (h : SoundAt dirty s) : SoundAt dirty (markPort c p s) := by
  unfold markPort
  split
  · exact h
  · dsimp only
    repeat' split
    all_goals first
      | exact h
      | exact h.same
      | exact pend_sound _ _ h
      | exact joinQueue_sound _ _ h.same

theorem rederive_sound {s : State} (c : PClass) (p : Nat × Nat) (h : SoundAt dirty s) : SoundAt dirty (rederive c p s) := by
  unfold rederive
  split
  · simp only []
    split
    · exact h
    · exact markPort_sound _ _ h.same
  · exact h

theorem rederiveServed_sound {s : State} (h : SoundAt dirty s) : SoundAt dirty (rederiveServed s) := by
  unfold rederiveServed
  refine foldl_sound _ (fun s a hs => ?_) _ _ h
  split
  · exact rederive_sound _ _ hs
  · exact hs

theorem rederiveSegment_sound {s : State} (g : Nat) (h : SoundAt dirty s) : SoundAt dirty (rederiveSegment g s) :=
  foldl_sound _ (fun _ _ hs => rederive_sound _ _ hs) _ _ h

theorem rederiveSlot_sound {s : State} (n : Nat) (h : SoundAt dirty s) : SoundAt dirty (rederiveSlot n s) := by
  unfold rederiveSlot
  split
  · exact h
  · exact rederive_sound _ _ h

theorem unparkPort_sound {s : State} (p : Nat × Nat) (h : SoundAt dirty s) : SoundAt dirty (unparkPort p s) := by
  unfold unparkPort
  repeat' split
  all_goals first
    | exact h
    | exact h.same
    | exact joinQueue_sound _ _ h.same

theorem reparkPort_sound {s : State} (p : Nat × Nat) (h : SoundAt dirty s) : SoundAt dirty (reparkPort p s) := by
  unfold reparkPort
  repeat' split
  all_goals first
    | exact h
    | exact parkPort_sound _ h
    | exact unparkPort_sound _ h

theorem reparkTaps_sound {s : State} (l : List Nat) (h : SoundAt dirty s) : SoundAt dirty (reparkTaps l s) :=
  foldl_sound _ (fun _ _ hs => reparkPort_sound _ hs) _ _ h

theorem forceRefresh_sound {s : State} (p : Nat × Nat) (h : SoundAt dirty s) : SoundAt dirty (forceRefresh p s) := by
  unfold forceRefresh
  repeat' split
  all_goals first
    | exact h
    | exact h.same
    | exact pend_sound _ _ h

theorem forceTaps_sound {s : State} (l : List Nat) (h : SoundAt dirty s) : SoundAt dirty (forceTaps l s) :=
  foldl_sound _ (fun _ _ hs => forceRefresh_sound _ hs) _ _ h

theorem ackPort_sound {s : State} (p : Nat × Nat) (h : SoundAt dirty s) : SoundAt dirty (ackPort p s) := by
  unfold ackPort
  repeat' split
  all_goals first
    | exact h
    | exact h.same
    | exact pend_sound _ _ h.same

theorem testPort_sound {s : State} (p : Nat × Nat) (c : Option Content) (h : SoundAt dirty s) : SoundAt dirty (testPort p c s) := h.same

/-! ## The print queue -/

/-- A craft port update is sound when the new record keeps its bounds. -/
theorem SoundAt.withCraft {s : State} (h : SoundAt dirty s) (c : Craft) (hc : craftBounds c) : SoundAt dirty { s with craft := c } :=
  ⟨h.link, h.second, h.params, h.lineup, h.classes, h.routes, h.schedule, h.watches, h.held, hc, h.events, h.tariff, h.memory, h.handed⟩

theorem fillPrint_sound {s : State} (h : SoundAt dirty s) : SoundAt dirty (fillPrint s) := by
  have hc := h.craft
  unfold craftBounds at hc
  unfold fillPrint
  refine h.withCraft _ ?_
  unfold craftBounds
  simp only [List.length_append, List.length_take]
  exact ⟨by omega, hc.2.1, hc.2.2⟩

theorem print_sound {s : State} (ls : List Text) (h : SoundAt dirty s) : SoundAt dirty (print ls s) := by
  have hc := h.craft
  unfold craftBounds at hc
  unfold print
  split
  · refine h.withCraft _ ⟨hc.1, ?_, hc.2.2⟩
    simp only []; omega
  · split
    · exact fillPrint_sound (h.withCraft _ ⟨hc.1, hc.2.1, hc.2.2⟩)
    · split
      · refine h.withCraft _ ⟨?_, hc.2.1, hc.2.2⟩
        simp only [List.length_append]; omega
      · refine h.withCraft _ ⟨hc.1, ?_, hc.2.2⟩
        simp only []; omega

theorem printLine_sound {s : State} (ws : List Text) (h : SoundAt dirty s) : SoundAt dirty (printLine ws s) := print_sound _ h

theorem printErr_sound {s : State} (e : String) (h : SoundAt dirty s) : SoundAt dirty (printErr e s) := print_sound _ h

theorem lineSent_sound {s : State} (h : SoundAt dirty s) : SoundAt dirty (lineSent s) := by
  unfold lineSent
  split
  · exact h
  · rename_i l ls hl
    have hc := h.craft
    unfold craftBounds at hc
    have h1 : ∀ out, SoundAt dirty (fillPrint { s with craft.print := ls, craft.output := out }) := by
      intro out
      apply fillPrint_sound
      refine h.withCraft _ ⟨?_, hc.2.1, hc.2.2⟩
      simp only [hl, List.length_cons] at hc ⊢
      omega
    dsimp only
    generalize (if s.craft.buffer.isEmpty = true then l ++ lineEnd else lineEnd ++ l ++ lineEnd ++ s.craft.buffer) = out
    have h1 := h1 out
    revert h1
    generalize fillPrint { s with craft.print := ls, craft.output := out } = u
    intro h1
    have h2 := h1.craft
    unfold craftBounds at h2
    split
    · rename_i hcond
      simp only [Bool.and_eq_true, decide_eq_true_eq] at hcond
      refine h1.withCraft _ ⟨?_, Nat.zero_le _, h2.2.2⟩
      simp only [List.length_append, List.length_singleton]
      have := hcond.2
      omega
    · exact h1

end Sys2Proof.Safety
end

