-- ==== Sys2Proof/Laws/SoundLineup.lean ====
section
/-! SUPPORT. The line-up engine keeps soundness: the bounds of its queue and ramps (R10, R17), the derived classes (R2, R4) and
the derived routes (R3). -/

set_option Elab.async false

namespace Sys2Proof.Safety

open Sys2Proof.Machine

variable {dirty : Bool}

/-! ## Lists changed at one place -/

theorem lmod_length {α : Type} (l : List α) (i : Nat) (f : α → α) : (lmod l i f).length = l.length := by
  unfold lmod
  split
  · rfl
  · simp

theorem lmod_get {α : Type} (l : List α) (i j : Nat) (f : α → α) :
    (lmod l i f)[j]? = if i = j then (l[j]?).map f else l[j]? := by
  unfold lmod
  split
  · rename_i h
    by_cases hij : i = j
    · subst hij; simp [h]
    · simp [hij]
  · rename_i v h
    have hi : i < l.length := by
      rw [List.getElem?_eq_some_iff] at h; exact h.1
    by_cases hij : i = j
    · subst hij; simp [hi]
      rw [List.getElem?_eq_some_iff] at h; rw [h.2]
    · simp [hij]

theorem mem_lmod {α : Type} {l : List α} {i : Nat} {f : α → α} {c : α} (h : c ∈ lmod l i f) :
    c ∈ l ∨ ∃ e, l[i]? = some e ∧ c = f e := by
  rw [List.mem_iff_getElem?] at h
  obtain ⟨j, hj⟩ := h
  rw [lmod_get] at hj
  by_cases hij : i = j
  · subst hij
    simp only [if_true, Option.map_eq_some_iff] at hj
    obtain ⟨e, he, hc⟩ := hj
    exact Or.inr ⟨e, he, hc.symm⟩
  · simp only [hij, if_false] at hj
    exact Or.inl (List.mem_iff_getElem?.2 ⟨j, hj⟩)

theorem lmod_lmod {α : Type} (l : List α) (i : Nat) (f g : α → α) : lmod (lmod l i f) i g = lmod l i (fun x => g (f x)) := by
  apply List.ext_getElem?
  intro j
  simp only [lmod_get]
  by_cases h : i = j
  · simp only [h, if_true, Option.map_map]; rfl
  · simp [h]

theorem map_lmod {α β : Type} (l : List α) (i : Nat) (f : α → α) (g : α → β)
    (h : ∀ e, l[i]? = some e → g (f e) = g e) : (lmod l i f).map g = l.map g := by
  apply List.ext_getElem?
  intro j
  simp only [List.getElem?_map, lmod_get]
  by_cases hij : i = j
  · subst hij
    simp only [if_true]
    cases hl : l[i]? with
    | none => rfl
    | some e => simp [h e hl]
  · simp [hij]

/-! ## The tier table depends on the effective classes alone (R4) -/

/-- The channels of a test on the effective class. -/
theorem channelsWhere_eff (m : List Channel) (p : EffClass → Bool) :
    channelsWhere m (fun c => p c.eff)
      = ((m.map (·.eff)).zipIdx).foldl (fun a x => if p x.1 then a ||| channelBit (x.2 + 1) else a) 0 := by
  unfold channelsWhere
  rw [List.zipIdx_map, List.foldl_map]
  rfl

theorem tierTableOf_congr {m m' : List Channel} (h : m.map (·.eff) = m'.map (·.eff)) : tierTableOf m = tierTableOf m' := by
  have hc : ∀ p : EffClass → Bool, channelsWhere m (fun c => p c.eff) = channelsWhere m' (fun c => p c.eff) := by
    intro p; rw [channelsWhere_eff, channelsWhere_eff, h]
  have hf : ∀ k, channelOfClass m k = channelOfClass m' k := by
    intro k
    unfold channelOfClass
    have : ∀ l : List Channel, l.findIdx? (fun c => decide (c.eff = k)) = (l.map (·.eff)).findIdx? (fun e => decide (e = k)) := by
      intro l; rw [List.findIdx?_map]; rfl
    rw [this, this, h]
  unfold tierTableOf
  congr 1
  · exact hc (fun e => decide (e = .base .free))
  · congr 1; funext t; exact hc (fun e => decide (e = .base (.tier (Fin.ofNat 16 t))))
  · congr 1; funext e; exact hf _

/-! ## Updates of the line-up engine -/

/-- Soundness without the derived routes. -/
structure NearSound (dirty : Bool) (s : State) : Prop where
  link     : linkBounds s.link
  second   : secondRange s.time
  params   : paramRanges s.params
  lineup   : lineupBounds s.lineup
  classes  : classesDerived s.lineup
  schedule : s.schedule.entries.length ≤ 128
  watches  : s.outage.watches.length = 8
  held     : s.outage.held.length = 16
  craft    : craftBounds s.craft
  events   : s.events.length = 16
  tariff   : s.engine.tariff.length = 16
  memory   : memoryWf s = true
  handed   : s.lineup.changed = dirty

theorem SoundAt.near {s : State} (h : SoundAt dirty s) : NearSound dirty s :=
  ⟨h.link, h.second, h.params, h.lineup, h.classes, h.schedule, h.watches, h.held, h.craft, h.events, h.tariff, h.memory, h.handed⟩

theorem NearSound.sound {s : State} (h : NearSound dirty s) (hr : routesDerived s.schedule.active s.lineup) : SoundAt dirty s :=
  ⟨h.link, h.second, h.params, h.lineup, h.classes, hr, h.schedule, h.watches, h.held, h.craft, h.events, h.tariff, h.memory, h.handed⟩

theorem NearSound.withLineup {s : State} (h : NearSound dirty s) (u : Lineup) (hb : lineupBounds u) (hc : classesDerived u)
    (hd : u.changed = s.lineup.changed := by rfl) : NearSound dirty { s with lineup := u } :=
  ⟨h.link, h.second, h.params, hb, hc, h.schedule, h.watches, h.held, h.craft, h.events, h.tariff, h.memory, hd.trans h.handed⟩

/-- An update of the matrix line and the ramps that leaves the channel map. -/
theorem NearSound.withLine {s : State} (h : NearSound dirty s) (u : Lineup) (hm : u.map = s.lineup.map)
    (ht : u.table = s.lineup.table) (hq : u.queue.length ≤ 256) (hr : u.ramps.length ≤ 2)
    (hd : u.changed = s.lineup.changed := by rfl) : NearSound dirty { s with lineup := u } := by
  refine h.withLineup u ⟨by rw [hm]; exact h.lineup.1, hq, hr⟩ ⟨?_, ?_⟩ hd
  · rw [hm]; exact h.classes.1
  · rw [ht, hm]; exact h.classes.2

theorem SoundAt.withLine {s : State} (h : SoundAt dirty s) (u : Lineup) (hm : u.map = s.lineup.map)
    (ht : u.table = s.lineup.table) (hq : u.queue.length ≤ 256) (hr : u.ramps.length ≤ 2)
    (hd : u.changed = s.lineup.changed := by rfl) : SoundAt dirty { s with lineup := u } := by
  refine (h.near.withLine u hm ht hq hr hd).sound ?_
  unfold routesDerived
  simp only [hm]
  exact h.routes

/-- The mark of the changed channels is set or cleared. -/
theorem SoundAt.mark {s : State} (h : SoundAt dirty s) (m : Bool) : SoundAt m { s with lineup.changed := m } :=
  ⟨h.link, h.second, h.params, h.lineup, h.classes, h.routes, h.schedule, h.watches, h.held, h.craft, h.events, h.tariff, h.memory, rfl⟩

/-- A sound state within an event, whether or not a channel has changed in it. -/
def Loose (s : State) : Prop := ∃ m, SoundAt m s

theorem SoundAt.loose {s : State} (h : SoundAt dirty s) : Loose s := ⟨dirty, h⟩

/-- What keeps soundness under either mark keeps it within an event. -/
theorem Loose.map {s : State} {f : State → State} (h : Loose s) (hf : ∀ m, SoundAt m s → SoundAt m (f s)) : Loose (f s) :=
  h.elim (fun m hm => ⟨m, hf m hm⟩)

/-- A fold of steps that keep soundness within an event keeps it. -/
theorem foldl_loose {α : Type} (f : State → α → State) (hf : ∀ s a, Loose s → Loose (f s a)) :
    ∀ (l : List α) (s : State), Loose s → Loose (l.foldl f s)
  | [], _, h => h
  | a :: t, s, h => foldl_loose f hf t _ (hf s a h)

/-- An entry change that keeps what the effective class comes from. -/
theorem NearSound.modChan {s : State} (h : NearSound dirty s) (c : Nat) (f : Channel → Channel)
    (h1 : ∀ e, (f e).cls = e.cls) (h2 : ∀ e, (f e).overlay = e.overlay) (h3 : ∀ e, (f e).eff = e.eff) :
    NearSound dirty (modChan c f s) := by
  refine h.withLineup _ ⟨?_, h.lineup.2.1, h.lineup.2.2⟩ ⟨?_, ?_⟩
  · simp only [lmod_length]; exact h.lineup.1
  · intro x hx
    rcases mem_lmod hx with hx | ⟨e, he, rfl⟩
    · exact h.classes.1 x hx
    · have := h.classes.1 e (List.mem_iff_getElem?.2 ⟨_, he⟩)
      rw [h3, this]; unfold effOf; rw [h1, h2]
  · show s.lineup.table = _
    rw [h.classes.2]
    apply tierTableOf_congr
    rw [map_lmod]
    intro e _; exact h3 e

/-- An entry change that keeps what the effective class and the displayed route come from. -/
theorem SoundAt.modChan {s : State} (h : SoundAt dirty s) (c : Nat) (f : Channel → Channel)
    (h1 : ∀ e, (f e).cls = e.cls := by intro; rfl) (h2 : ∀ e, (f e).overlay = e.overlay := by intro; rfl)
    (h3 : ∀ e, (f e).eff = e.eff := by intro; rfl) (h4 : ∀ e, (f e).source = e.source := by intro; rfl)
    (h5 : ∀ e, (f e).eligible = e.eligible := by intro; rfl) (h6 : ∀ e, (f e).route = e.route := by intro; rfl) :
    SoundAt dirty (modChan c f s) := by
  refine (h.near.modChan c f h1 h2 h3).sound ?_
  intro x hx
  rcases mem_lmod hx with hx | ⟨e, he, rfl⟩
  · exact h.routes x hx
  · have := h.routes e (List.mem_iff_getElem?.2 ⟨_, he⟩)
    rw [h6, this]; unfold routeOf; rw [h4, h5]; rfl

/-! ## The matrix line -/

/-- What the matrix line does touches its queue marks alone. -/
theorem sendHead_only (s : State) : ∃ t, sendHead s = { s with lineup.inTransfer := t } := by
  unfold sendHead
  split
  · exact ⟨_, rfl⟩
  · exact ⟨s.lineup.inTransfer, rfl⟩

/-- What the READY timer does touches the timer alone. -/
theorem readyTimerRun_only (s : State) : ∃ r, readyTimerRun s = { s with lineup.readyTimer := r } := by
  unfold readyTimerRun
  split
  · split
    · exact ⟨s.lineup.readyTimer, rfl⟩
    · exact ⟨_, rfl⟩
  · exact ⟨_, rfl⟩

/-- What the matrix line does after a change touches its queue marks alone. -/
theorem lineRun_only (s : State) : ∃ t r, lineRun s = { s with lineup.inTransfer := t, lineup.readyTimer := r } := by
  obtain ⟨t, h⟩ := sendHead_only s
  obtain ⟨r, h2⟩ := readyTimerRun_only (sendHead s)
  refine ⟨t, r, ?_⟩
  unfold lineRun
  rw [h2, h]

theorem lineRun_near {s : State} (h : NearSound dirty s) : NearSound dirty (lineRun s) := by
  obtain ⟨t, r, e⟩ := lineRun_only s
  rw [e]; exact h.withLine _ rfl rfl h.lineup.2.1 h.lineup.2.2

theorem lineRun_sound {s : State} (h : SoundAt dirty s) : SoundAt dirty (lineRun s) := by
  obtain ⟨t, r, e⟩ := lineRun_only s
  rw [e]; exact h.withLine _ rfl rfl h.lineup.2.1 h.lineup.2.2

theorem readyTimerRun_sound {s : State} (h : SoundAt dirty s) : SoundAt dirty (readyTimerRun s) := by
  unfold readyTimerRun
  repeat' split
  all_goals first
    | exact h
    | exact h.withLine _ rfl rfl h.lineup.2.1 h.lineup.2.2

/-- A command that joins leaves the map, and the queue within its bound. -/
theorem joinCommand_only (m : MatrixCmd) (d : Deferred) (s : State) (hq : s.lineup.queue.length ≤ 256) :
    ∃ q df t r, joinCommand m d s
        = { s with lineup.queue := q, lineup.deferred := df, lineup.inTransfer := t, lineup.readyTimer := r }
      ∧ q.length ≤ 256 := by
  unfold joinCommand
  split
  · obtain ⟨t, r, e⟩ := lineRun_only { s with lineup.queue := s.lineup.queue ++ [m] }
    refine ⟨s.lineup.queue ++ [m], s.lineup.deferred, t, r, e, ?_⟩
    simp only [List.length_append, List.length_singleton]; omega
  · split
    · exact ⟨_, _, _, _, rfl, hq⟩
    · exact ⟨_, _, _, _, rfl, hq⟩

theorem joinCommand_sound {s : State} (m : MatrixCmd) (d : Deferred) (h : SoundAt dirty s) : SoundAt dirty (joinCommand m d s) := by
  obtain ⟨q, df, t, r, e, hq⟩ := joinCommand_only m d s h.lineup.2.1
  rw [e]; exact h.withLine _ rfl rfl hq h.lineup.2.2

/-- A ROUTE queued, replacing or deferred leaves the map, and the queue within its bound. -/
theorem queueRoute_only (c : Nat) (s : State) (hq : s.lineup.queue.length ≤ 256) :
    ∃ q df t r, queueRoute c s
        = { s with lineup.queue := q, lineup.deferred := df, lineup.inTransfer := t, lineup.readyTimer := r }
      ∧ q.length ≤ 256 := by
  unfold queueRoute
  dsimp only
  split
  · unfold replaceRoute
    dsimp only
    split
    · refine ⟨_, _, _, _, rfl, ?_⟩
      simp only [List.length_append, List.length_map, List.length_take, List.length_drop]; omega
    · exact ⟨_, _, _, _, rfl, by simp only [List.length_map]; exact hq⟩
  · exact joinCommand_only _ _ _ hq

/-! ## Routes (R3, R38) -/

/-- The displayed route of one channel is recomputed: the map is what it was but for that channel, whose route is then the one
R3 gives. -/
theorem recomputeRoute_only (c : Nat) (s : State) (hq : s.lineup.queue.length ≤ 256) :
    ∃ f q df t r, recomputeRoute c s
        = { s with
            lineup.map := lmod s.lineup.map (c - 1) f
            lineup.queue := q, lineup.deferred := df, lineup.inTransfer := t, lineup.readyTimer := r }
      ∧ q.length ≤ 256
      ∧ (∀ e : Channel, (f e).cls = e.cls ∧ (f e).overlay = e.overlay ∧ (f e).eff = e.eff ∧ (f e).source = e.source
          ∧ (f e).eligible = e.eligible)
      ∧ (∀ e, s.lineup.map[c - 1]? = some e → (f e).route = routeOf s.schedule.active e) := by
  unfold recomputeRoute
  dsimp only
  split
  · rename_i hr
    refine ⟨fun e => e, s.lineup.queue, s.lineup.deferred, s.lineup.inTransfer, s.lineup.readyTimer, ?_, hq,
      fun e => ⟨rfl, rfl, rfl, rfl, rfl⟩, ?_⟩
    · have : lmod s.lineup.map (c - 1) (fun e => e) = s.lineup.map := by
        apply List.ext_getElem?; intro j; rw [lmod_get]; split <;> simp
      rw [this]
    · intro e he
      have hc : chan s c = e := by unfold chan; rw [he]; rfl
      rw [hc] at hr; exact hr.symm
  · have hroute : ∀ e, s.lineup.map[c - 1]? = some e → routeOf s.schedule.active (chan s c) = routeOf s.schedule.active e := by
      intro e he
      have hc : chan s c = e := by unfold chan; rw [he]; rfl
      rw [hc]
    split
    · obtain ⟨q, df, t, r, e, hq'⟩ := queueRoute_only c
        (modChan c (fun x => { x with route := routeOf s.schedule.active (chan s c), applied := false }) s) hq
      refine ⟨_, q, df, t, r, e, hq', fun e => ⟨rfl, rfl, rfl, rfl, rfl⟩, fun e he => ?_⟩
      exact hroute e he
    · refine ⟨_, s.lineup.queue, s.lineup.deferred, s.lineup.inTransfer, s.lineup.readyTimer, rfl, hq,
        fun e => ⟨rfl, rfl, rfl, rfl, rfl⟩, fun e he => ?_⟩
      exact hroute e he

theorem recomputeRoute_near {s : State} (c : Nat) (h : NearSound dirty s) : NearSound dirty (recomputeRoute c s) := by
  obtain ⟨f, q, df, t, r, e, hq, hf, _⟩ := recomputeRoute_only c s h.lineup.2.1
  rw [e]
  have h1 := h.modChan c f (fun e => (hf e).1) (fun e => (hf e).2.1) (fun e => (hf e).2.2.1)
  exact h1.withLine _ rfl rfl hq h1.lineup.2.2

/-- After the recomputation of one channel, its route is the one R3 gives and the others are as they were. -/
theorem recomputeRoute_routes {s : State} (c j : Nat) (h : NearSound dirty s) (e : Channel)
    (he : (recomputeRoute c s).lineup.map[j]? = some e) :
    if c - 1 = j then e.route = routeOf s.schedule.active e else s.lineup.map[j]? = some e := by
  obtain ⟨f, q, df, t, r, e', hq, hf, hr⟩ := recomputeRoute_only c s h.lineup.2.1
  rw [e'] at he
  simp only [lmod_get] at he
  split
  · rename_i hc
    simp only [hc, if_true, Option.map_eq_some_iff] at he
    obtain ⟨x, hx, rfl⟩ := he
    rw [hr x (hc ▸ hx)]
    unfold routeOf; rw [(hf x).2.2.2.1, (hf x).2.2.2.2]
  · rename_i hc
    simpa [hc] using he

theorem recomputeRoute_active (c : Nat) (s : State) (hq : s.lineup.queue.length ≤ 256) :
    (recomputeRoute c s).schedule = s.schedule := by
  obtain ⟨f, q, df, t, r, e, _⟩ := recomputeRoute_only c s hq
  rw [e]

theorem recomputeRoute_sound {s : State} (c : Nat) (h : SoundAt dirty s) : SoundAt dirty (recomputeRoute c s) := by
  refine (recomputeRoute_near c h.near).sound ?_
  intro x hx
  obtain ⟨j, hj⟩ := List.mem_iff_getElem?.1 hx
  have := recomputeRoute_routes c j h.near x hj
  rw [recomputeRoute_active c s h.lineup.2.1]
  split at this
  · exact this
  · exact h.routes x (List.mem_iff_getElem?.2 ⟨j, this⟩)

/-- The first n channels recomputed in order have the routes R3 gives. -/
theorem recomputeFold {s : State} (h : NearSound dirty s) : ∀ n : Nat,
    NearSound dirty ((List.range n).foldl (fun s i => recomputeRoute (i + 1) s) s)
      ∧ ((List.range n).foldl (fun s i => recomputeRoute (i + 1) s) s).schedule = s.schedule
      ∧ ∀ j e, j < n → ((List.range n).foldl (fun s i => recomputeRoute (i + 1) s) s).lineup.map[j]? = some e →
          e.route = routeOf s.schedule.active e
  | 0 => ⟨h, rfl, fun _ _ hj => absurd hj (Nat.not_lt_zero _)⟩
  | n + 1 => by
    obtain ⟨h1, h2, h3⟩ := recomputeFold h n
    rw [List.range_succ, List.foldl_append]
    simp only [List.foldl_cons, List.foldl_nil]
    refine ⟨recomputeRoute_near _ h1, by rw [recomputeRoute_active _ _ h1.lineup.2.1, h2], fun j e hj he => ?_⟩
    have := recomputeRoute_routes (n + 1) j h1 e he
    simp only [Nat.add_sub_cancel] at this
    split at this
    · rw [h2] at this; exact this
    · rename_i hne
      exact h3 j e (by omega) this

theorem recomputeRoutes_sound {s : State} (h : NearSound dirty s) : SoundAt dirty (recomputeRoutes s) := by
  have hfold : recomputeRoutes s = (List.range 96).foldl (fun s i => recomputeRoute (i + 1) s) s := by
    unfold recomputeRoutes channels; rw [List.foldl_map]
  obtain ⟨h1, h2, h3⟩ := recomputeFold h 96
  rw [← hfold] at h1 h2 h3
  refine h1.sound ?_
  intro x hx
  obtain ⟨j, hj⟩ := List.mem_iff_getElem?.1 hx
  rw [h2]
  refine h3 j x ?_ hj
  have : j < (recomputeRoutes s).lineup.map.length := (List.getElem?_eq_some_iff.1 hj).1
  rw [h1.lineup.1] at this
  exact this

/-! ## Classes (R2, R4, R5) -/

theorem markChanged_sound {s : State} (h : SoundAt dirty s) : SoundAt true (markChanged s) := h.mark true

theorem changeClass_loose {s : State} (c : Nat) (f : Channel → Channel) (h : SoundAt dirty s)
    (h4 : ∀ e, (f e).source = e.source := by intro; rfl) (h5 : ∀ e, (f e).eligible = e.eligible := by intro; rfl)
    (h6 : ∀ e, (f e).route = e.route := by intro; rfl) : Loose (changeClass c f s) := by
  have hroutes : ∀ t : TierTable, routesDerived s.schedule.active
      { s.lineup with map := lmod s.lineup.map (c - 1) (fun e => { f e with eff := effOf (f e) }), table := t } := by
    intro t x hx
    rcases mem_lmod hx with hx | ⟨e, he, rfl⟩
    · exact h.routes x hx
    · have := h.routes e (List.mem_iff_getElem?.2 ⟨_, he⟩)
      show (f e).route = _
      rw [h6, this]; unfold routeOf; simp only [h4, h5]
  have heff : ∀ x ∈ lmod s.lineup.map (c - 1) (fun e => { f e with eff := effOf (f e) }), x.eff = effOf x := by
    intro x hx
    rcases mem_lmod hx with hx | ⟨e, he, rfl⟩
    · exact h.classes.1 x hx
    · rfl
  have key : ∀ t : TierTable, t = tierTableOf (lmod s.lineup.map (c - 1) (fun e => { f e with eff := effOf (f e) })) →
      SoundAt dirty { s with
        lineup.map := lmod s.lineup.map (c - 1) (fun e => { f e with eff := effOf (f e) }), lineup.table := t } := by
    intro t ht
    have hb : lineupBounds { s.lineup with
        map := lmod s.lineup.map (c - 1) (fun e => { f e with eff := effOf (f e) }), table := t } :=
      ⟨by simp only [lmod_length]; exact h.lineup.1, h.lineup.2.1, h.lineup.2.2⟩
    exact (h.near.withLineup _ hb ⟨heff, ht⟩).sound (hroutes t)
  unfold changeClass
  dsimp only
  have h2 : SoundAt dirty (if (chan (modChan c (fun e => { f e with eff := effOf (f e) }) s) c).eff = (chan s c).eff
      then modChan c (fun e => { f e with eff := effOf (f e) }) s
      else { modChan c (fun e => { f e with eff := effOf (f e) }) s with
        lineup.table := tierTableOf (modChan c (fun e => { f e with eff := effOf (f e) }) s).lineup.map }) := by
    split
    · rename_i he
      refine key s.lineup.table ?_
      rw [h.classes.2]
      apply tierTableOf_congr
      rw [map_lmod]
      intro e hget
      have hc : chan s c = e := by unfold chan; rw [hget]; rfl
      have hc2 : chan (modChan c (fun e => { f e with eff := effOf (f e) }) s) c = { f e with eff := effOf (f e) } := by
        unfold chan modChan; simp only [lmod_get, if_true, hget]; rfl
      rw [hc, hc2] at he
      exact he
    · exact key _ rfl
  split
  · exact h2.loose
  · exact (markChanged_sound h2).loose

/-- The hand-off of the changed channels ends the event soundly (R5). -/
theorem handOff_sound {s : State} (h : Loose s) : Sound (handOff s) := by
  obtain ⟨m, h⟩ := h
  unfold handOff
  split
  · exact rederiveServed_sound (h.mark false)
  · rename_i hc
    have := h.handed
    rw [Bool.not_eq_true] at hc
    rw [hc] at this
    subst this; exact h

theorem setOverlay_loose {s : State} (c : Nat) (e : Fin 16) (h : Loose s) : Loose (setOverlay c e s) :=
  h.elim (fun _ h => changeClass_loose _ _ h)

theorem removeOverlay_loose {s : State} (c : Nat) (e : Fin 16) (h : Loose s) : Loose (removeOverlay c e s) :=
  h.elim (fun _ h => changeClass_loose _ _ h (by intro x; split <;> rfl) (by intro x; split <;> rfl)
    (by intro x; split <;> rfl))

theorem writeBase_loose {s : State} (c : Nat) (src : Option (Option Nat)) (cls : Option BaseClass) (z : Option ZoneSet)
    (el : Option Bool) (h : Loose s) : Loose (writeBase c src cls z el s) := by
  obtain ⟨_, h⟩ := h
  unfold writeBase
  dsimp only
  have h1 : Loose (changeClass c (fun e => { e with cls := cls.getD e.cls, zones := z.getD e.zones }) s) :=
    changeClass_loose _ _ h
  revert h1
  generalize changeClass c (fun e => { e with cls := cls.getD e.cls, zones := z.getD e.zones }) s = u
  rintro ⟨m, h1⟩
  have h2 : NearSound m (modChan c (fun e => { e with source := src.getD e.source, eligible := el.getD e.eligible }) u) :=
    h1.near.modChan _ _ (fun _ => rfl) (fun _ => rfl) (fun _ => rfl)
  refine ⟨m, (recomputeRoute_near c h2).sound ?_⟩
  intro x hx
  obtain ⟨j, hj⟩ := List.mem_iff_getElem?.1 hx
  have := recomputeRoute_routes c j h2 x hj
  rw [recomputeRoute_active c _ h2.lineup.2.1]
  split at this
  · exact this
  · rename_i hne
    have hx2 : u.lineup.map[j]? = some x := by
      unfold modChan at this
      simpa [lmod_get, hne] using this
    exact h1.routes x (List.mem_iff_getElem?.2 ⟨j, hx2⟩)

/-! ## Ramps (R17, R18, R19) -/

theorem modRamp_sound {s : State} (c : Nat) (f : Ramp → Ramp) (h : SoundAt dirty s) : SoundAt dirty (modRamp c f s) :=
  h.withLine _ rfl rfl h.lineup.2.1 (by simp only [List.length_map]; exact h.lineup.2.2)

theorem issueStep_sound {s : State} (c : Nat) (h : SoundAt dirty s) : SoundAt dirty (issueStep c s) := by
  unfold issueStep
  split
  · exact h
  · exact joinCommand_sound _ _ ((modRamp_sound _ _ h).modChan _ _)

theorem startRamp_sound {s : State} (h : SoundAt dirty s) : SoundAt dirty (startRamp s) := by
  unfold startRamp
  split
  · rename_i hc
    simp only [Bool.and_eq_true, decide_eq_true_eq] at hc
    split
    · exact h
    · apply issueStep_sound
      refine SoundAt.modChan ?_ _ _
      exact h.withLine _ rfl rfl h.lineup.2.1 (by
        simp only [List.length_append, List.length_singleton]; have := hc.2; omega)
  · exact h

theorem startRamps_sound {s : State} (h : SoundAt dirty s) : SoundAt dirty (startRamps s) := startRamp_sound (startRamp_sound h)

theorem endRamp_sound {s : State} (c : Nat) (h : SoundAt dirty s) : SoundAt dirty (endRamp c s) := by
  unfold endRamp
  refine startRamps_sound (h.withLine _ rfl rfl h.lineup.2.1 ?_)
  have := h.lineup.2.2
  exact Nat.le_trans (List.length_filter_le _ _) this

theorem stepOrEnd_sound {s : State} (c : Nat) (up : Bool) (h : SoundAt dirty s) : SoundAt dirty (stepOrEnd c up s) := by
  unfold stepOrEnd
  dsimp only
  split
  · exact endRamp_sound _ (h.modChan _ _)
  · split
    · exact endRamp_sound _ (h.modChan _ _)
    · exact issueStep_sound _ h

/-- A departure from a queue that has room again keeps its bound. -/
theorem departure_sound {s : State} (h : SoundAt dirty s) (hq : s.lineup.queue.length ≤ 255) : SoundAt dirty (departure s) := by
  unfold departure
  split
  · exact h
  · exact h.withLine _ rfl rfl (by simp only [List.length_append, List.length_singleton]; omega) h.lineup.2.2

/-- A withdrawn step leaves room for one command. -/
theorem removeStep_room {s : State} (c : Nat) (hq : s.lineup.queue.length ≤ 256) (h : (unsent s).any (isStepOf c) = true) :
    (removeStep c s).lineup.queue.length ≤ 255 := by
  have key : ∀ l : List MatrixCmd, l.any (isStepOf c) = true → (l.filter (fun m => !isStepOf c m)).length < l.length := by
    intro l hl
    rw [List.any_eq_true] at hl
    obtain ⟨x, hx, hs⟩ := hl
    apply List.length_filter_lt_length_iff_exists.2
    exact ⟨x, hx, by simp [hs]⟩
  unfold unsent at h
  unfold removeStep
  split
  · rename_i ht
    simp only [ht, if_true] at h
    have := key _ h
    simp only [List.length_append, List.length_take, List.length_drop] at this ⊢
    omega
  · rename_i ht
    simp only [ht, Bool.false_eq_true, if_false] at h
    have := key _ h
    dsimp only
    omega

theorem removeStep_sound {s : State} (c : Nat) (h : SoundAt dirty s) : SoundAt dirty (removeStep c s) := by
  have := h.lineup.2.1
  unfold removeStep
  split
  · refine h.withLine _ rfl rfl ?_ h.lineup.2.2
    have h2 := List.length_filter_le (fun m => !isStepOf c m) (s.lineup.queue.drop 1)
    simp only [List.length_append, List.length_take, List.length_drop] at h2 ⊢
    omega
  · exact h.withLine _ rfl rfl (Nat.le_trans (List.length_filter_le _ _) this) h.lineup.2.2

theorem reverseRamp_sound {s : State} (c : Nat) (up : Bool) (h : SoundAt dirty s) : SoundAt dirty (reverseRamp c up s) := by
  unfold reverseRamp
  split
  · exact h
  · dsimp only
    have h1 : SoundAt dirty (modChan c (fun e => { e with carrier := if up then .rampUp else .rampDown })
        (modRamp c (fun r => { r with up := up }) s)) := (modRamp_sound _ _ h).modChan _ _
    revert h1
    generalize modChan c (fun e => { e with carrier := if up then .rampUp else .rampDown })
        (modRamp c (fun r => { r with up := up }) s) = u
    intro h1
    split
    · exact stepOrEnd_sound _ _ h1
    · split
      · rename_i hs
        apply lineRun_sound
        apply stepOrEnd_sound
        exact departure_sound (removeStep_sound _ h1) (removeStep_room _ h1.lineup.2.1 hs)
      · split
        · exact stepOrEnd_sound _ _ (h1.withLine _ rfl rfl h1.lineup.2.1 h1.lineup.2.2)
        · exact h1

theorem carrierRequest_sound {s : State} (c : Nat) (on : Bool) (h : SoundAt dirty s) : SoundAt dirty (carrierRequest c on s) := by
  have hm : ∀ v q, SoundAt dirty { modChan c (fun e => { e with carrier := v }) s with lineup.rampQueue := q } := by
    intro v q
    have h1 : SoundAt dirty (modChan c (fun e => { e with carrier := v }) s) := h.modChan _ _
    exact h1.withLine _ rfl rfl h1.lineup.2.1 h1.lineup.2.2
  unfold carrierRequest
  split
  · exact startRamps_sound (hm _ _)
  · exact hm _ _
  · exact reverseRamp_sound _ _ h
  · exact startRamps_sound (hm _ _)
  · exact hm _ _
  · exact reverseRamp_sound _ _ h
  · exact h

/-! ## READY (R12, R13, R14) -/

theorem judgeApplied_sound {s : State} (c : Nat) (h : SoundAt dirty s) : SoundAt dirty (judgeApplied c s) := by
  unfold judgeApplied
  split
  · exact h.modChan _ _
  · exact h

theorem acceptLevel_sound {s : State} (c v : Nat) (step : Bool) (h : SoundAt dirty s) : SoundAt dirty (acceptLevel c v step s) := by
  unfold acceptLevel
  dsimp only
  have h1 : SoundAt dirty (modChan c (fun e => { e with level := v }) s) := h.modChan _ _
  revert h1
  generalize modChan c (fun e => { e with level := v }) s = u
  intro h1
  split
  · exact h1
  · split
    · exact h1
    · split
      · exact endRamp_sound _ (h1.modChan _ _)
      · split
        · exact endRamp_sound _ (h1.modChan _ _)
        · exact modRamp_sound _ _ h1

theorem acceptHead_sound {s : State} (h : SoundAt dirty s) : SoundAt dirty (acceptHead s) := by
  unfold acceptHead
  split
  · exact h
  · rename_i m q hq
    have hlen := h.lineup.2.1
    rw [hq] at hlen
    simp only [List.length_cons] at hlen
    have h1 : SoundAt dirty { s with lineup.queue := q, lineup.inTransfer := false } :=
      h.withLine _ rfl rfl (by simp only []; omega) h.lineup.2.2
    dsimp only
    split
    · refine lineRun_sound (judgeApplied_sound _ (departure_sound (h1.modChan _ _) ?_))
      show q.length ≤ 255
      omega
    · refine lineRun_sound (judgeApplied_sound _ (acceptLevel_sound _ _ _ (departure_sound h1 ?_)))
      show q.length ≤ 255
      omega

/-- A notice leaves every block but the link. -/
theorem notice_lineup (k : Nat) (u : Bool) (b : List Byte) (s : State) : (notice k u b s).lineup = s.lineup := by
  have hp : ∀ s : State, (pump s).lineup = s.lineup := by
    intro s; unfold pump; repeat' split
    all_goals rfl
  unfold notice
  repeat' split
  all_goals first
    | rfl
    | exact hp _

theorem endFault_sound {s : State} (h : SoundAt dirty s) : SoundAt dirty (endFault s) := by
  unfold endFault
  dsimp only
  have h1 : SoundAt dirty { s with lineup.fault := false, lineup.inTransfer := false } :=
    h.withLine _ rfl rfl h.lineup.2.1 h.lineup.2.2
  have h2 := notice_sound nkMatrixReady false [] h1
  revert h2
  generalize notice nkMatrixReady false [] { s with lineup.fault := false, lineup.inTransfer := false } = u
  intro h2
  refine startRamps_sound (lineRun_sound ?_)
  split
  · rename_i c x q hq
    split
    · have hlen := h2.lineup.2.1
      rw [hq] at hlen
      simp only [List.length_cons] at hlen
      refine departure_sound (h2.withLine _ rfl rfl (by simp only []; omega) h2.lineup.2.2) ?_
      show q.length ≤ 255
      omega
    · exact h2
  · exact h2

theorem raiseFault_sound {s : State} (h : SoundAt dirty s) : SoundAt dirty (raiseFault s) :=
  notice_sound _ _ _ (h.withLine _ rfl rfl h.lineup.2.1 h.lineup.2.2)

theorem goLineup_sound {s : State} (h : SoundAt dirty s) : SoundAt dirty (goLineup s) := by
  refine startRamps_sound (foldl_sound _ (fun s c hs => ?_) _ _ h)
  dsimp only
  exact joinCommand_sound _ _ (joinCommand_sound _ _ (hs.modChan _ _))

end Sys2Proof.Safety
end

