-- ==== Sys2Proof/Laws/SoundUnits.lean ====
section
/-! SUPPORT. The schedule unit, the alert, the billing store's queue, the subscriber and event units, the watches and the
telemetry monitor keep soundness. -/

set_option Elab.async false

namespace Sys2Proof.Safety

open Sys2Proof.Machine

variable {dirty : Bool}

/-! ## Orders of the line-up engine and the schedule unit -/

theorem lineupFields_loose {s : State} (c : Nat) (car : Carrier) (lv : Nat) (q : List Nat) (h : Loose s) :
    Loose { modChan c (fun e => { e with applied := false, carrier := car, level := lv }) s with lineup.rampQueue := q } := by
  obtain ⟨m, h⟩ := h
  have h1 : SoundAt m (modChan c (fun e => { e with applied := false, carrier := car, level := lv }) s) := h.modChan _ _
  exact ⟨m, h1.withLine _ rfl rfl h1.lineup.2.1 h1.lineup.2.2⟩

theorem orderLoadChannel_sound {s : State} (p : LoadChannelArgs) (h : Sound s) : Sound (orderLoadChannel p s) := by
  unfold orderLoadChannel
  split
  · exact refuse_sound _ h
  · split
    · split
      · exact refuse_sound _ h
      · dsimp only
        exact answer_sound _ _ (handOff_sound
          (lineupFields_loose _ _ _ _ (writeBase_loose _ _ _ _ _ h.loose)))
    · exact refuse_sound _ h

theorem orderSetChannel_sound {s : State} (p : SetChannelArgs) (h : Sound s) : Sound (orderSetChannel p s) := by
  unfold orderSetChannel
  split
  · exact refuse_sound _ h
  · split
    · exact refuse_sound _ h
    · exact answer_sound _ _ (handOff_sound (writeBase_loose _ _ _ _ _ h.loose))

theorem orderCarrier_sound {s : State} (c r : Nat) (h : SoundAt dirty s) : SoundAt dirty (orderCarrier c r s) := by
  unfold orderCarrier
  split
  · exact answer_sound _ _ (carrierRequest_sound _ _ h)
  · exact refuse_sound _ h

theorem applyChange_loose {s : State} (c : Nat) (k : Change) (h : Loose s) : Loose (applyChange c k s) := by
  cases k with
  | route v => exact writeBase_loose _ _ _ _ _ h
  | cls v => exact writeBase_loose _ _ _ _ _ h
  | blackout z => exact writeBase_loose _ _ _ _ _ h
  | carrier on => exact h.map (fun _ hs => carrierRequest_sound _ _ hs)

/-- A schedule update that keeps the alert state and the bound of the queue. -/
theorem SoundAt.withSchedule {s : State} (h : SoundAt dirty s) (u : Schedule) (ha : u.active = s.schedule.active)
    (he : u.entries.length ≤ 128) : SoundAt dirty { s with schedule := u } :=
  ⟨h.link, h.second, h.params, h.lineup, h.classes, by
    unfold routesDerived; simp only [ha]; exact h.routes, he, h.watches, h.held, h.craft, h.events, h.tariff, h.memory, h.handed⟩

theorem applyHead_loose {s : State} (h : Loose s) : Loose (applyHead s) := by
  obtain ⟨m, h⟩ := h
  unfold applyHead
  split
  · exact h.loose
  · rename_i e es he
    have := h.schedule
    rw [he] at this
    simp only [List.length_cons] at this
    exact applyChange_loose _ _ ⟨m, h.withSchedule _ rfl (by dsimp only; omega)⟩

theorem haltNotice_sound {s : State} (e : Entry) (h : SoundAt dirty s) : SoundAt dirty (haltNotice e s) := notice_sound _ _ _ h

theorem applyDue_loose : ∀ (n : Nat) (s : State), Loose s → Loose (applyDue n s)
  | 0, _, h => h
  | n + 1, s, h => by
    unfold applyDue
    split
    · exact h
    · split
      · exact h
      · split
        · exact h.elim (fun m hs => ⟨m, haltNotice_sound _ (hs.withSchedule _ rfl hs.schedule)⟩)
        · exact applyDue_loose n _ (applyHead_loose h)

theorem applyAll_loose : ∀ (n : Nat) (s : State), Loose s → Loose (applyAll n s)
  | 0, _, h => h
  | n + 1, s, h => by
    unfold applyAll
    split
    · exact h
    · split
      · exact applyAll_loose n _ (applyHead_loose h)
      · exact h

theorem scheduleBoundary_loose {s : State} (h : Loose s) : Loose (scheduleBoundary s) := by
  unfold scheduleBoundary
  split
  · exact h
  · exact applyDue_loose _ _ h

theorem advanceId_sound {s : State} (h : SoundAt dirty s) : SoundAt dirty (advanceId s) := h.withSchedule _ rfl h.schedule

theorem insertEntry_length (e : Entry) (es : List Entry) : (insertEntry e es).length = es.length + 1 := by
  unfold insertEntry
  rw [List.length_append, List.length_cons]
  have := congrArg List.length (List.takeWhile_append_dropWhile (p := fun x : Entry => decide (x.due ≤ e.due)) (l := es))
  rw [List.length_append] at this
  omega

theorem insertR24_sound {s : State} (e : Entry) (h : SoundAt dirty s) (hf : scheduleFull e s = false) : SoundAt dirty (insertR24 e s) := by
  unfold insertR24
  refine advanceId_sound (h.withSchedule _ rfl ?_)
  dsimp only
  rw [insertEntry_length]
  have h128 := h.schedule
  unfold scheduleFull at hf
  by_cases ha : s.schedule.entries.any (fun x => sameEntry x e) = true
  · have : (s.schedule.entries.filter (fun x => !sameEntry x e)).length < s.schedule.entries.length := by
      rw [List.any_eq_true] at ha
      obtain ⟨x, hx, hs⟩ := ha
      exact List.length_filter_lt_length_iff_exists.2 ⟨x, hx, by simp [hs]⟩
    omega
  · have hle := List.length_filter_le (fun x => !sameEntry x e) s.schedule.entries
    simp only [Bool.not_eq_true] at ha
    simp only [ha, Bool.not_false, Bool.true_and, decide_eq_false_iff_not, Nat.not_le] at hf
    omega

theorem orderScheduleAdd_sound {s : State} (p : ScheduleArgs) (h : Sound s) : Sound (orderScheduleAdd p s) := by
  unfold orderScheduleAdd
  split
  · dsimp only
    split
    · exact answer_sound _ _ (handOff_sound (applyChange_loose _ _ (advanceId_sound h).loose))
    · split
      · exact refuse_sound _ h
      · rename_i hf
        have h1 := insertR24_sound _ h (by simpa using hf)
        split
        · exact answer_sound _ _ (haltNotice_sound _ (h1.withSchedule _ rfl h1.schedule))
        · exact answer_sound _ _ h1
  · exact refuse_sound _ h

theorem orderStepMode_sound {s : State} (r : Nat) (h : Sound s) : Sound (orderStepMode r s) := by
  unfold orderStepMode
  split
  · exact refuse_sound _ h
  · exact answer_sound _ _ (h.withSchedule _ rfl h.schedule)
  · dsimp only
    apply answer_sound
    split
    · exact handOff_sound (applyAll_loose _ _ ⟨_, h.withSchedule _ rfl h.schedule⟩)
    · exact h

theorem orderStep_sound {s : State} (h : Sound s) : Sound (orderStep s) := by
  unfold orderStep
  split
  · exact refuse_sound _ h
  · split
    · exact refuse_sound _ h
    · split
      · exact refuse_sound _ h
      · exact answer_sound _ _ (handOff_sound (applyHead_loose h.loose))

theorem orderScheduleCancel_sound {s : State} (i : Nat) (h : SoundAt dirty s) : SoundAt dirty (orderScheduleCancel i s) := by
  unfold orderScheduleCancel
  split
  · exact refuse_sound _ h
  · exact answer_sound _ _ (h.withSchedule _ rfl (Nat.le_trans (List.length_filter_le _ _) h.schedule))

theorem orderScheduleList_sound {s : State} (i : Nat) (h : SoundAt dirty s) : SoundAt dirty (orderScheduleList i s) := answer_sound _ _ h

/-! ## The alert -/

/-- A change of the claims leaves everything but the derived routes. -/
theorem nearSound_claims {s : State} (h : SoundAt dirty s) (u : Schedule) (he : u.entries = s.schedule.entries) :
    NearSound dirty { s with schedule := u } :=
  ⟨h.link, h.second, h.params, h.lineup, h.classes, by simp only [he]; exact h.schedule, h.watches, h.held, h.craft, h.events,
    h.tariff, h.memory, h.handed⟩

theorem changeClaim_sound {s : State} (cause : AlertCause) (host : Option ClaimEnd) (line : Bool) (h : SoundAt dirty s) :
    SoundAt dirty (changeClaim cause host line s) := by
  unfold changeClaim
  dsimp only
  have h1 : SoundAt dirty (if (host.isSome || line) = s.schedule.active
      then { s with schedule.hostClaim := host, schedule.lineClaim := line, schedule.active := host.isSome || line }
      else recomputeRoutes
        { s with schedule.hostClaim := host, schedule.lineClaim := line, schedule.active := host.isSome || line }) := by
    split
    · rename_i ha
      exact h.withSchedule _ ha h.schedule
    · exact recomputeRoutes_sound (nearSound_claims h _ rfl)
  split
  · exact h1
  · exact notice_sound _ _ _ h1

theorem orderAlertStart_sound {s : State} (d : Nat) (h : SoundAt dirty s) : SoundAt dirty (orderAlertStart d s) :=
  answer_sound _ _ (changeClaim_sound _ _ _ h)

theorem orderAlertEnd_sound {s : State} (h : SoundAt dirty s) : SoundAt dirty (orderAlertEnd s) := by
  unfold orderAlertEnd
  dsimp only
  apply answer_sound
  split
  · exact changeClaim_sound _ _ _ h
  · exact h

theorem claimBoundary_sound {s : State} (h : SoundAt dirty s) : SoundAt dirty (claimBoundary s) := by
  unfold claimBoundary
  split
  · split
    · exact changeClaim_sound _ _ _ h
    · exact h
  · exact h

theorem alertInput_sound {s : State} (l : Bool) (h : SoundAt dirty s) : SoundAt dirty (alertInput l s) := by
  unfold alertInput
  dsimp only
  have h1 : SoundAt dirty { s with schedule.alertInput := l } := h.withSchedule _ rfl h.schedule
  split
  · exact h1
  · exact changeClaim_sound _ _ _ h1

/-! ## The billing store's queue -/

theorem joinItem_sound {s : State} (i : StoreItem) (h : SoundAt dirty s) : SoundAt dirty (joinItem i s) := h.same

theorem lowCheck_sound {s : State} (h : SoundAt dirty s) : SoundAt dirty (lowCheck s) := by
  unfold lowCheck
  split
  · split
    · exact notice_sound _ _ _ h.same
    · exact h
  · exact h

theorem joinRecord_sound {s : State} (b : List Byte) (o : Origin) (h : SoundAt dirty s) : SoundAt dirty (joinRecord b o s) := by
  unfold joinRecord
  refine lowCheck_sound (joinItem_sound _ ?_)
  exact h.same

theorem loseRecord_sound {s : State} (k : Nat) (h : SoundAt dirty s) : SoundAt dirty (loseRecord k s) := by
  unfold loseRecord
  dsimp only
  apply notice_sound
  split
  · exact h
  · split
    · exact h
    · exact joinItem_sound _ h

theorem appendAuto_sound {s : State} (k : Nat) (f : List Byte) (o : Origin) (h : SoundAt dirty s) : SoundAt dirty (appendAuto k f o s).1 := by
  unfold appendAuto
  split
  · exact h
  · split
    · exact loseRecord_sound _ h
    · exact joinRecord_sound _ _ h

theorem appendHost_sound {s : State} (k : Nat) (f : List Byte) (h : SoundAt dirty s) : SoundAt dirty (appendHost k f s) :=
  joinRecord_sound _ _ h

theorem openPeriod_sound {s : State} (i : BankId) (m : Nat) (h : SoundAt dirty s) : SoundAt dirty (openPeriod i m s) :=
  joinItem_sound _ (joinItem_sound _ (joinItem_sound _ h))

theorem joinTariff_sound {s : State} (h : SoundAt dirty s) : SoundAt dirty (joinTariff s) :=
  foldl_sound _ (fun _ _ hs => appendAuto_sound _ _ _ hs) _ _ h

theorem identFailed_sound {s : State} (h : SoundAt dirty s) : SoundAt dirty (identFailed s) := by
  unfold identFailed
  split
  · exact printErr_sound _ (h.withCraft _ h.craft)
  · exact h

theorem storeFault_sound {s : State} (c : FaultCause) (a : Option (BankId × Nat)) (h : SoundAt dirty s) :
    SoundAt dirty (storeFault c a s) := by
  unfold storeFault
  dsimp only
  apply refuse_sound
  apply identFailed_sound
  apply notice_sound
  exact h.same

/-- A bank written with canonical cells. -/
theorem setBank_sound {s : State} (i : BankId) (v : Bank) (h : SoundAt dirty s) (hv : cellsWf v.cells = true) :
    SoundAt dirty (setBank s i v) := by
  have hm := setBank_wf h.memory i v hv
  cases i <;>
  exact ⟨h.link, h.second, h.params, h.lineup, h.classes, h.routes, h.schedule, h.watches, h.held, h.craft, h.events, h.tariff,
    hm, h.handed⟩

theorem orderReadBank_sound {s : State} (a b c : Nat) (h : SoundAt dirty s) : SoundAt dirty (orderReadBank a b c s) := by
  unfold orderReadBank
  split
  · exact refuse_sound _ h
  · split
    · exact refuse_sound _ h
    · rename_i i _ _
      dsimp only
      split
      · exact refuse_sound _ h
      · exact refuse_sound _ h
      · exact refuse_sound _ h
      · exact answer_sound _ _ (setBank_sound _ _ h (bank_wf h.memory i))

theorem orderReleaseBank_sound {s : State} (n : Nat) (h : SoundAt dirty s) : SoundAt dirty (orderReleaseBank n s) := by
  unfold orderReleaseBank
  split
  · exact refuse_sound _ h
  · split
    · exact refuse_sound _ h
    · dsimp only
      split
      · exact refuse_sound _ h
      · exact refuse_sound _ h
      · split
        · exact refuse_sound _ h
        · exact joinItem_sound _ h
      · exact refuse_sound _ h

theorem orderStoreClear_sound {s : State} (h : SoundAt dirty s) : SoundAt dirty (orderStoreClear s) := by
  unfold orderStoreClear
  split
  · exact refuse_sound _ h
  · split
    · exact refuse_sound _ h
    · split
      · exact refuse_sound _ h
      · split
        · exact refuse_sound _ h
        · dsimp only
          have h1 : SoundAt dirty { s with store.spend := [], store.a.watermark := 0, store.b.watermark := 0 } := h.same
          revert h1
          generalize ({ s with store.spend := [], store.a.watermark := 0, store.b.watermark := 0 } : State) = u
          intro h1
          repeat' split
          all_goals first
            | exact joinItem_sound _ (joinItem_sound _ h1)
            | exact joinItem_sound _ h1
            | exact h1
            | exact answer_sound _ _ (joinItem_sound _ (joinItem_sound _ h1))
            | exact answer_sound _ _ (joinItem_sound _ h1)
            | exact answer_sound _ _ h1

theorem orderLockWrite_sound {s : State} (w v : Nat) (h : SoundAt dirty s) : SoundAt dirty (orderLockWrite w v s) := by
  unfold orderLockWrite
  dsimp only
  repeat' split
  all_goals first
    | exact refuse_sound _ h
    | exact joinItem_sound _ h

/-- A staged tariff update keeps soundness when it keeps its 16 rates. -/
theorem SoundAt.withTariff {s : State} (h : SoundAt dirty s) (l : List Nat) (hl : l.length = 16) : SoundAt dirty { s with engine.tariff := l } :=
  ⟨h.link, h.second, h.params, h.lineup, h.classes, h.routes, h.schedule, h.watches, h.held, h.craft, h.events, hl, h.memory, h.handed⟩

theorem orderSetTariff_sound {s : State} (t r : Nat) (h : SoundAt dirty s) : SoundAt dirty (orderSetTariff t r s) := by
  unfold orderSetTariff
  split
  · exact refuse_sound _ h
  · exact answer_sound _ _ (h.withTariff _ (by rw [List.length_set]; exact h.tariff))

/-! ## Subscribers and events -/

theorem orderBind_sound {s : State} (p : BindArgs) (h : SoundAt dirty s) : SoundAt dirty (orderBind p s) := by
  unfold orderBind
  split
  · exact refuse_sound _ h
  · exact appendHost_sound _ _ h

theorem orderUnbind_sound {s : State} (n : Nat) (h : SoundAt dirty s) : SoundAt dirty (orderUnbind n s) := by
  unfold orderUnbind
  repeat' split
  all_goals first
    | exact refuse_sound _ h
    | exact appendHost_sound _ _ h

theorem orderSetState_sound {s : State} (n v : Nat) (h : SoundAt dirty s) : SoundAt dirty (orderSetState n v s) := by
  unfold orderSetState
  repeat' split
  all_goals first
    | exact refuse_sound _ h
    | exact answer_sound _ _ h
    | exact appendHost_sound _ _ h

theorem orderSetTiers_sound {s : State} (n : Nat) (v : TierSet) (h : SoundAt dirty s) : SoundAt dirty (orderSetTiers n v s) := by
  unfold orderSetTiers
  repeat' split
  all_goals first
    | exact refuse_sound _ h
    | exact answer_sound _ _ h
    | exact appendHost_sound _ _ h

theorem orderSetLimit_sound {s : State} (n v : Nat) (h : SoundAt dirty s) : SoundAt dirty (orderSetLimit n v s) := by
  unfold orderSetLimit
  repeat' split
  all_goals first
    | exact refuse_sound _ h
    | exact answer_sound _ _ h.same

theorem orderQuerySub_sound {s : State} (n : Nat) (h : SoundAt dirty s) : SoundAt dirty (orderQuerySub n s) := by
  unfold orderQuerySub
  split
  · exact refuse_sound _ h
  · exact answer_sound _ _ h

theorem orderResync_sound {s : State} (p : ResyncArgs) (h : SoundAt dirty s) : SoundAt dirty (orderResync p s) := by
  unfold orderResync
  dsimp only
  repeat' split
  all_goals first
    | exact refuse_sound _ h
    | exact answer_sound _ _ (forceRefresh_sound _ h)
    | exact answer_sound _ _ (forceTaps_sound _ h)

theorem serviceCommit_sound {s : State} (o : Order) (h : SoundAt dirty s) : SoundAt dirty (serviceCommit o s) := by
  unfold serviceCommit
  dsimp only
  split
  · apply answer_sound
    apply rederiveSlot_sound
    split
    · exact h.same
    · exact modPort_sound _ _ h.same
  · split
    · exact h
    · apply answer_sound
      split
      · exact h.same
      · exact rederive_sound _ _ (modPort_sound _ _ h.same)
  · exact answer_sound _ _ (rederiveSlot_sound _ h.same)
  · exact answer_sound _ _ (rederiveSlot_sound _ h.same)
  · exact h

theorem setEvent_sound {s : State} (e : Nat) (v : Option Event) (h : SoundAt dirty s) : SoundAt dirty (setEvent e v s) :=
  ⟨h.link, h.second, h.params, h.lineup, h.classes, h.routes, h.schedule, h.watches, h.held, h.craft, by
    unfold setEvent; rw [List.length_set]; exact h.events, h.tariff, h.memory, h.handed⟩

theorem eventNotice_sound {s : State} (e : Nat) (v : Event) (b a : Option EventState) (c : Nat) (h : SoundAt dirty s) :
    SoundAt dirty (eventNotice e v b a c s) := notice_sound _ _ _ h

theorem moveEvent_loose {s : State} (e : Nat) (v : Event) (n : EventState) (h : Loose s) : Loose (moveEvent e v n s) := by
  unfold moveEvent
  dsimp only
  have h1 : Loose (setEvent e (some { v with state := n }) s) := h.map (fun _ hs => setEvent_sound _ _ hs)
  split
  · exact setOverlay_loose _ _ h1
  · split
    · exact removeOverlay_loose _ _ h1
    · exact h1

theorem orderEventDefine_sound {s : State} (p : EventArgs) (h : Sound s) : Sound (orderEventDefine p s) := by
  unfold orderEventDefine
  split
  · exact refuse_sound _ h
  · exact answer_sound _ _ (eventNotice_sound _ _ _ _ _ (handOff_sound (moveEvent_loose _ _ _ h.loose)))

theorem eventBoundaryOne_loose {s : State} (e : Nat) (h : Loose s) : Loose (eventBoundaryOne s e) := by
  unfold eventBoundaryOne
  split
  · exact h
  · dsimp only
    split
    · exact h
    · exact (moveEvent_loose _ _ _ h).map (fun _ hs => eventNotice_sound _ _ _ _ _ hs)

theorem eventBoundary_loose {s : State} (h : Loose s) : Loose (eventBoundary s) :=
  foldl_loose _ (fun _ _ hs => eventBoundaryOne_loose _ hs) _ _ h

theorem orderEventRemove_sound {s : State} (e : Nat) (h : SoundAt dirty s) : SoundAt dirty (orderEventRemove e s) := by
  unfold orderEventRemove
  repeat' split
  all_goals first
    | exact refuse_sound _ h
    | exact answer_sound _ _ (eventNotice_sound _ _ _ _ _ (setEvent_sound _ _ h))

theorem orderEventCancel_sound {s : State} (e : Nat) (h : SoundAt dirty s) : SoundAt dirty (orderEventCancel e s) := by
  unfold orderEventCancel
  repeat' split
  all_goals first
    | exact refuse_sound _ h
    | exact appendHost_sound _ _ h

theorem cancelCommit_sound {s : State} (e : Nat) (h : Sound s) : Sound (cancelCommit e s) := by
  unfold cancelCommit
  split
  · exact h
  · exact answer_sound _ _ (eventNotice_sound _ _ _ _ _ (handOff_sound (moveEvent_loose _ _ _ h.loose)))

theorem orderPurchase_sound {s : State} (n e : Nat) (h : SoundAt dirty s) : SoundAt dirty (orderPurchase n e s) := by
  unfold orderPurchase
  repeat' split
  all_goals first
    | exact refuse_sound _ h
    | exact appendHost_sound _ _ h

theorem purchaseCommit_sound {s : State} (n e : Nat) (h : SoundAt dirty s) : SoundAt dirty (purchaseCommit n e s) := by
  unfold purchaseCommit
  split
  · dsimp only
    apply answer_sound
    rename_i u v _ _
    have h1 : SoundAt dirty (setEvent e (some { v with purchasers := insertAsc v.purchasers u.account })
        { s with store.spend := addSpend s.store.spend u.account v.price }) := setEvent_sound _ _ h.same
    split
    · exact rederiveSlot_sound _ h1
    · exact h1
  · exact h

/-! ## The outage log and the watches -/

theorem modSeg_sound {s : State} (n : Nat) (f : Segment → Segment) (h : SoundAt dirty s) : SoundAt dirty (modSeg n f s) := h.same

theorem evict_sound {s : State} (h : SoundAt dirty s) : SoundAt dirty (evict s) := by
  unfold evict
  dsimp only
  split
  · exact h
  · split
    · exact h
    · split
      · exact h.same
      · exact notice_sound _ _ _ h.same

theorem openOutage_sound {s : State} (n : Nat) (c : HandCause) (h : SoundAt dirty s) : SoundAt dirty (openOutage n c s) := by
  unfold openOutage
  split
  · exact h
  · dsimp only
    apply notice_sound
    apply modSeg_sound
    have h1 : SoundAt dirty { s with outage.nextId := freeOutageId 65 s.outage.records ((s.outage.nextId + 1) % 256) } := h.same
    exact (evict_sound h1).same

theorem closeOutage_sound {s : State} (n : Nat) (a : Service) (h : SoundAt dirty s) : SoundAt dirty (closeOutage n a s) := by
  unfold closeOutage
  split
  · exact h
  · split
    · exact h
    · dsimp only
      apply notice_sound
      apply appendAuto_sound
      apply modSeg_sound
      exact h.same

theorem takeHandOff_sound {s : State} (c : HandCause) (x : HandOff) (h : SoundAt dirty s) : SoundAt dirty (takeHandOff c s x) := by
  unfold takeHandOff
  split
  · exact openOutage_sound _ _ h
  · split
    · exact closeOutage_sound _ _ h
    · exact h

theorem creditCommit_sound {s : State} (i : Option Nat) (h : SoundAt dirty s) : SoundAt dirty (creditCommit i s) := by
  unfold creditCommit
  split
  · exact h
  · exact h.same

theorem orderAckOutage_sound {s : State} (i : Nat) (h : SoundAt dirty s) : SoundAt dirty (orderAckOutage i s) := by
  unfold orderAckOutage
  split
  · exact refuse_sound _ h
  · exact answer_sound _ _ h.same

theorem orderListOutages_sound {s : State} (k n : Nat) (h : SoundAt dirty s) : SoundAt dirty (orderListOutages k n s) := by
  unfold orderListOutages
  split
  · exact refuse_sound _ h
  · exact answer_sound _ _ h

/-- A watch table or held list update keeps soundness when it keeps its sizes. -/
theorem SoundAt.withOutage {s : State} (h : SoundAt dirty s) (o : OutageLog) (h1 : o.watches.length = 8) (h2 : o.held.length = 16) :
    SoundAt dirty { s with outage := o } :=
  ⟨h.link, h.second, h.params, h.lineup, h.classes, h.routes, h.schedule, h1, h2, h.craft, h.events, h.tariff, h.memory, h.handed⟩

theorem reportHit_sound {s : State} (n : Nat) (w : Watch) (k : WatchKind) (a t : Nat) (h : SoundAt dirty s) :
    SoundAt dirty (reportHit n w k a t s) := by
  unfold reportHit
  dsimp only
  split
  · exact notice_sound _ _ _ h
  · exact printLine_sound _ h

theorem checkEntry_sound {s : State} (k : WatchKind) (a n : Nat) (h : SoundAt dirty s) : SoundAt dirty (checkEntry k a s n) := by
  unfold checkEntry
  split
  · exact h
  · split
    · exact h
    · rename_i e _ _ w _
      split
      · dsimp only
        have h1 := reportHit_sound n w k a (min 255 (e.hits + 1))
          (h.withOutage { s.outage with watches := lmod s.outage.watches n (fun x => { x with hits := min 255 (e.hits + 1) }) }
            (by dsimp only; rw [lmod_length]; exact h.watches) h.held)
        split
        · exact h1.withOutage _ (by dsimp only; rw [lmod_length]; exact h1.watches) h1.held
        · exact h1
      · exact h

theorem watchEvent_sound {s : State} (k : WatchKind) (a : Nat) (h : SoundAt dirty s) : SoundAt dirty (watchEvent k a s) :=
  foldl_sound _ (fun _ _ hs => checkEntry_sound _ _ _ hs) _ _ h

theorem writeWatch_sound {s : State} (n : Nat) (w : Watch) (h : SoundAt dirty s) : SoundAt dirty (writeWatch n w s) :=
  h.withOutage _ (by dsimp only; rw [List.length_set]; exact h.watches) h.held

theorem clearWatch_sound {s : State} (n : Nat) (h : SoundAt dirty s) : SoundAt dirty (clearWatch n s) :=
  h.withOutage _ (by dsimp only; rw [lmod_length]; exact h.watches) h.held

theorem orderWatchSet_sound {s : State} (p : WatchArgs) (h : SoundAt dirty s) : SoundAt dirty (orderWatchSet p s) := by
  unfold orderWatchSet
  dsimp only
  repeat' split
  all_goals first
    | exact refuse_sound _ h
    | exact answer_sound _ _ (writeWatch_sound _ _ h)

theorem orderWatchClear_sound {s : State} (n : Nat) (h : SoundAt dirty s) : SoundAt dirty (orderWatchClear n s) := by
  unfold orderWatchClear
  dsimp only
  repeat' split
  all_goals first
    | exact refuse_sound _ h
    | exact answer_sound _ _ (clearWatch_sound _ h)

theorem releaseHeld_sound {s : State} (n : Nat) (x : Held) (h : SoundAt dirty s) : SoundAt dirty (releaseHeld n x s) := by
  unfold releaseHeld
  dsimp only
  have h1 : SoundAt dirty { s with outage.held := s.outage.held.set n none } :=
    h.withOutage _ h.watches (by dsimp only; rw [List.length_set]; exact h.held)
  revert h1
  generalize ({ s with outage.held := s.outage.held.set n none } : State) = u
  intro h1
  repeat' split
  all_goals first
    | exact h1
    | exact modPort_sound _ _ h1
    | exact joinUrgentHead_sound _ _ (modPort_sound _ _ h1)

theorem dropHeld_sound {s : State} (n : Nat) (x : Held) (h : SoundAt dirty s) : SoundAt dirty (dropHeld n x s) :=
  modPort_sound _ _ (h.withOutage _ h.watches (by dsimp only; rw [List.length_set]; exact h.held))

theorem orderReleaseHeld_sound {s : State} (n : Nat) (h : SoundAt dirty s) : SoundAt dirty (orderReleaseHeld n s) := by
  unfold orderReleaseHeld
  dsimp only
  repeat' split
  all_goals first
    | exact refuse_sound _ h
    | exact answer_sound _ _ (releaseHeld_sound _ _ h)

theorem orderDropHeld_sound {s : State} (n : Nat) (h : SoundAt dirty s) : SoundAt dirty (orderDropHeld n s) := by
  unfold orderDropHeld
  dsimp only
  repeat' split
  all_goals first
    | exact refuse_sound _ h
    | exact answer_sound _ _ (dropHeld_sound _ _ h)

theorem changeOwner_sound {s : State} (o : Owner) (c : Nat) (h : SoundAt dirty s) : SoundAt dirty (changeOwner o c s) := by
  unfold changeOwner
  exact notice_sound _ _ _ h.same

theorem orderReclaimWatch_sound {s : State} (h : SoundAt dirty s) : SoundAt dirty (orderReclaimWatch s) := by
  unfold orderReclaimWatch
  dsimp only
  apply answer_sound
  split
  · exact printLine_sound _ (changeOwner_sound _ _ h)
  · exact h

/-! ## The telemetry monitor -/

theorem recomputeCondition_sound {s : State} (n : Nat) (h : SoundAt dirty s) : SoundAt dirty (recomputeCondition s n) := modSeg_sound _ _ h

theorem recomputeService_sound {x : State × List HandOff} (n : Nat) (h : SoundAt dirty x.1) : SoundAt dirty (recomputeService x n).1 := by
  unfold recomputeService
  split
  · exact h
  · dsimp only
    split
    · exact h
    · exact modSeg_sound _ _ h

theorem recomputeServiceFold_sound : ∀ (l : List Nat) (x : State × List HandOff), SoundAt dirty x.1 →
    SoundAt dirty (l.foldl recomputeService x).1
  | [], _, h => h
  | n :: t, _, h => recomputeServiceFold_sound t _ (recomputeService_sound n h)

theorem recomputeServices_sound {s : State} (ns : List Nat) (c : HandCause) (h : SoundAt dirty s) :
    SoundAt dirty (recomputeServices ns c s).1 := by
  unfold recomputeServices
  dsimp only
  apply reparkTaps_sound
  exact foldl_sound _ (fun _ _ hs => takeHandOff_sound _ _ hs) _ _ (recomputeServiceFold_sound _ _ h)

theorem recomputeSegments_sound {s : State} (ns : List Nat) (c : HandCause) (h : SoundAt dirty s) :
    SoundAt dirty (recomputeSegments ns c s) :=
  recomputeServices_sound _ _ (foldl_sound _ (fun _ _ hs => recomputeCondition_sound _ hs) _ _ h)

theorem xpNotice_sound {s : State} (i : Nat) (o n : Transponder) (c : HandCause) (h : SoundAt dirty s) : SoundAt dirty (xpNotice i o n c s) := by
  unfold xpNotice
  split
  · exact h
  · exact notice_sound _ _ _ h

theorem takeOutcome_sound {s : State} (i : Nat) (o : Option StatusMsg) (h : SoundAt dirty s) : SoundAt dirty (takeOutcome i o s) := by
  unfold takeOutcome
  split
  · exact h
  · dsimp only
    apply recomputeSegments_sound
    refine foldl_sound _ (fun _ _ hs => watchEvent_sound _ _ hs) _ _ ?_
    apply xpNotice_sound
    exact h.same

theorem orderLoadTransponder_sound {s : State} (p : TransponderArgs) (h : SoundAt dirty s) : SoundAt dirty (orderLoadTransponder p s) := by
  unfold orderLoadTransponder
  split
  · dsimp only
    split
    · exact refuse_sound _ h
    · apply answer_sound
      apply recomputeSegments_sound
      split
      · exact h.same
      · exact xpNotice_sound _ _ _ _ h.same
  · exact refuse_sound _ h

theorem orderQueryTransponder_sound {s : State} (a : Nat) (h : SoundAt dirty s) : SoundAt dirty (orderQueryTransponder a s) := by
  unfold orderQueryTransponder
  split
  · exact refuse_sound _ h
  · exact answer_sound _ _ h

theorem orderLoadSegment_sound {s : State} (p : SegmentArgs) (h : SoundAt dirty s) : SoundAt dirty (orderLoadSegment p s) := by
  unfold orderLoadSegment
  split
  · exact refuse_sound _ h
  · dsimp only
    apply answer_sound
    have h1 : SoundAt dirty (recomputeSegments [p.segment] .reload
        { s with telemetry.segments := tset s.telemetry.segments p.segment (reloadSeg s p) }) :=
      recomputeSegments_sound _ _ h.same
    split
    · exact rederiveSegment_sound _ h1
    · exact h1

theorem orderQuerySegment_sound {s : State} (n : Nat) (h : SoundAt dirty s) : SoundAt dirty (orderQuerySegment n s) := by
  unfold orderQuerySegment
  split
  · exact refuse_sound _ h
  · exact answer_sound _ _ h

theorem holdNotice_sound {s : State} (n a : Nat) (hs : List HandOff) (h : SoundAt dirty s) : SoundAt dirty (holdNotice n a hs s) :=
  notice_sound _ _ _ h

theorem holdSegment_sound {s : State} (n : Nat) (h : SoundAt dirty s) : SoundAt dirty (holdSegment n s).1 := by
  unfold holdSegment
  dsimp only
  apply holdNotice_sound
  apply recomputeServices_sound
  exact h.withCraft _ h.craft

theorem freeSegment_sound {s : State} (n : Nat) (c : HandCause) (a : Nat) (h : SoundAt dirty s) : SoundAt dirty (freeSegment n c a s).1 := by
  unfold freeSegment
  dsimp only
  apply holdNotice_sound
  apply forceTaps_sound
  apply recomputeServices_sound
  exact h.withCraft _ h.craft

theorem orderForceFree_sound {s : State} (n : Nat) (h : SoundAt dirty s) : SoundAt dirty (orderForceFree n s) := by
  unfold orderForceFree
  split
  · exact refuse_sound _ h
  · split
    · exact refuse_sound _ h
    · exact answer_sound _ _ (printLine_sound _ (freeSegment_sound _ _ _ h))

theorem dropProbe_sound {s : State} (h : SoundAt dirty s) : SoundAt dirty (dropProbe s) := by
  unfold dropProbe
  split
  · exact h.same
  · exact h

theorem freshTap_sound {s : State} (i a g : Nat) (h : SoundAt dirty s) : SoundAt dirty (freshTap i a g s) := by
  unfold freshTap
  dsimp only
  refine dropProbe_sound (foldl_sound _ (fun _ _ hs => pend_sound _ _ hs) _ _ ?_)
  have h1 : SoundAt dirty ((portsOf [i]).foldl (fun s p => leaveQueues p s) s) :=
    foldl_sound _ (fun _ _ hs => leaveQueues_sound _ hs) _ _ h
  exact h1.same

theorem orderLoadTap_sound {s : State} (i a g : Nat) (h : SoundAt dirty s) : SoundAt dirty (orderLoadTap i a g s) := by
  have h2 : ∀ t : Tap, SoundAt dirty (reparkTaps [i] { s with plant.taps := tset s.plant.taps i { t with segment := g } }) :=
    fun t => reparkTaps_sound _ h.same
  unfold orderLoadTap
  split
  · exact refuse_sound _ h
  · dsimp only
    split
    · exact answer_sound _ _ (freshTap_sound _ _ _ h)
    · split
      · split
        · exact refuse_sound _ h
        · exact answer_sound _ _ (freshTap_sound _ _ _ h)
      · split
        · exact answer_sound _ _ h
        · split
          · exact refuse_sound _ h
          · exact answer_sound _ _ (h2 _)

theorem orderQueryTap_sound {s : State} (a : Nat) (h : SoundAt dirty s) : SoundAt dirty (orderQueryTap a s) := by
  unfold orderQueryTap
  split
  · exact refuse_sound _ h
  · exact answer_sound _ _ h

end Sys2Proof.Safety
end

