-- ==== Sys2Proof/Laws/Channels.lean ====
section
/-! SUPPORT. What the sets and the map of the tier table hold, and what the writes of a channel's entry do, as one record
update of the state. -/

set_option Elab.async false

namespace Sys2Proof.Safety

open Sys2Proof.Machine

variable {dirty : Bool}

/-- An order taken keeps soundness. -/
theorem sound_taken {tag : Byte} {o : Order} {s : State} (h : SoundAt dirty s) (q : Quiet s) : SoundAt dirty (taken tag o s) := by
  refine h.withLink _ ⟨h.link.1, h.link.2.1, fun _ => ?_, h.link.2.2.2⟩
  have := q.room
  show s.link.replies.length ≤ 7
  omega

/-- The entry of a channel stands in the map. -/
theorem chan_eq {s : State} (h : s.lineup.map.length = 96) {c : Nat} (h1 : 1 ≤ c) (h2 : c ≤ 96) :
    s.lineup.map[c - 1]? = some (chan s c) := by
  have : c - 1 < s.lineup.map.length := by omega
  unfold chan
  rw [List.getElem?_eq_getElem this]
  rfl

/-- A function on a channel's entry writes that entry. -/
theorem modChan_eq {s : State} (h : s.lineup.map.length = 96) {c : Nat} (h1 : 1 ≤ c) (h2 : c ≤ 96) (f : Channel → Channel) :
    modChan c f s = { s with lineup.map := s.lineup.map.set (c - 1) (f (chan s c)) } := by
  unfold modChan lmod
  rw [chan_eq h h1 h2]

/-- An entry written is read back. -/
theorem chan_set {m : List Channel} (h : m.length = 96) {c : Nat} (h1 : 1 ≤ c) (h2 : c ≤ 96) (e : Channel) :
    ((m.set (c - 1) e)[c - 1]?).getD {} = e := by
  have : c - 1 < m.length := by omega
  simp [this]

/-- Entries with the same effective class give the same tier table. -/
theorem tierTable_set {m : List Channel} {i : Nat} {a b : Channel} (h : a.eff = b.eff) :
    tierTableOf (m.set i a) = tierTableOf (m.set i b) := by
  apply tierTableOf_congr
  rw [List.map_set, List.map_set, h]

/-! ## The sets and the map of the tier table (R4) -/

/-- The set of one channel has the bit of that channel alone. -/
theorem channelBit_getLsbD {c i : Nat} (h : i < 96) : (channelBit c).getLsbD i = decide (c = i + 1) := by
  unfold channelBit
  split
  · rw [BitVec.getLsbD_ofNat, Nat.testBit_two_pow]
    simp only [h, decide_true, Bool.true_and]
    congr 1; apply propext; omega
  · simp; omega

/-- The walk over the entries adds the channel of each entry that satisfies the test. -/
theorem channelsFold_getLsbD (f : Channel → Bool) {i : Nat} (h : i < 96) : ∀ (m : List Channel) (n : Nat) (a : PassSet),
    ((m.zipIdx n).foldl (fun a x => if f x.1 then a ||| channelBit (x.2 + 1) else a) a).getLsbD i
      = (a.getLsbD i || (decide (n ≤ i) && (m[i - n]?).any f))
  | [], n, a => by simp
  | x :: t, n, a => by
    rw [List.zipIdx_cons, List.foldl_cons, channelsFold_getLsbD f h t (n + 1)]
    have hb : (if f x = true then a ||| channelBit (n + 1) else a).getLsbD i = (a.getLsbD i || (f x && decide (n = i))) := by
      split
      · rename_i hf
        rw [BitVec.getLsbD_or, channelBit_getLsbD h, hf]
        simp
      · rename_i hf; simp [hf]
    simp only [hb]
    rcases Nat.lt_trichotomy n i with hlt | heq | hgt
    · have : i - n = (i - (n + 1)) + 1 := by omega
      simp [this, show n ≠ i by omega, show n + 1 ≤ i by omega, show n ≤ i by omega]
    · subst heq; simp [show ¬ n + 1 ≤ n by omega]
    · simp [show n ≠ i by omega, show ¬ n + 1 ≤ i by omega, show ¬ n ≤ i by omega]

/-- A channel is in the set of those that satisfy a test exactly where its entry does. -/
theorem channelsWhere_getLsbD (f : Channel → Bool) (m : List Channel) {i : Nat} (h : i < 96) :
    (channelsWhere m f).getLsbD i = (m[i]?).any f := by
  unfold channelsWhere
  rw [channelsFold_getLsbD f h m 0 0]
  simp

/-- The showing-event map lists the first channel of the class. -/
theorem channelOfClass_eq {m : List Channel} {k : EffClass} {c : Nat} :
    channelOfClass m k = some c ↔ ∃ i x, c = i + 1 ∧ m[i]? = some x ∧ x.eff = k
      ∧ ∀ (j : Nat) (y : Channel), m[j]? = some y → j < i → y.eff ≠ k := by
  unfold channelOfClass
  simp only [Option.map_eq_some_iff, List.findIdx?_eq_some_iff_getElem, decide_eq_true_eq]
  constructor
  · rintro ⟨i, ⟨hi, hk, hj⟩, rfl⟩
    refine ⟨i, m[i], rfl, by simp, hk, fun j y hy hlt => ?_⟩
    have := hj j hlt
    rw [List.getElem?_eq_some_iff] at hy
    obtain ⟨_, rfl⟩ := hy
    simpa using this
  · rintro ⟨i, x, rfl, hx, hk, hj⟩
    rw [List.getElem?_eq_some_iff] at hx
    obtain ⟨hi, rfl⟩ := hx
    refine ⟨i, ⟨hi, hk, fun j hlt => ?_⟩, rfl⟩
    simpa using hj j m[j] (by simp) hlt

/-! ## The writes of an entry -/

/-- An event that writes an entry as `e` hands its channel on: the effective class or the blackout set is another (R5). -/
def handsOn (old e : Channel) : Bool := !(e.eff = old.eff && e.zones = old.zones)

/-- A change of class, blackout set or overlay writes the entry and the tier table, and marks a changed channel (R2, R4, R5). -/
theorem changeClass_eq {s : State} (hs : SoundAt dirty s) {c : Nat} (h1 : 1 ≤ c) (h2 : c ≤ 96) (f : Channel → Channel) :
    changeClass c f s = { s with
      lineup.map := s.lineup.map.set (c - 1) { f (chan s c) with eff := effOf (f (chan s c)) }
      lineup.table := tierTableOf (s.lineup.map.set (c - 1) { f (chan s c) with eff := effOf (f (chan s c)) })
      lineup.changed := s.lineup.changed || handsOn (chan s c) { f (chan s c) with eff := effOf (f (chan s c)) } } := by
  have hl := hs.lineup.1
  unfold changeClass
  simp only [modChan_eq hl h1 h2]
  generalize ({ f (chan s c) with eff := effOf (f (chan s c)) } : Channel) = e
  have hch : chan { s with lineup.map := s.lineup.map.set (c - 1) e } c = e := chan_set hl h1 h2 _
  rw [hch]
  have htab : e.eff = (chan s c).eff → tierTableOf (s.lineup.map.set (c - 1) e) = s.lineup.table := by
    intro he
    rw [hs.classes.2]
    apply tierTableOf_congr
    rw [List.map_set]
    have hq := chan_eq hl h1 h2
    apply List.ext_getElem?
    intro j
    by_cases hj : c - 1 = j
    · subst hj
      rw [List.getElem?_set_self (by rw [List.length_map]; omega), List.getElem?_map, hq]
      simp [he]
    · rw [List.getElem?_set_ne hj]
  unfold handsOn
  by_cases he : e.eff = (chan s c).eff
  · rw [if_pos he, htab he]
    split
    · rename_i hz
      simp [hz]
    · rename_i hz
      simp [hz, markChanged]
  · rw [if_neg he]
    simp [he, markChanged]

/-- The base layer after a write of any of its fields. -/
def baseWritten (old : Channel) (a : Option (Option Nat)) (k : Option BaseClass) (z : Option ZoneSet) (el : Option Bool) : Channel :=
  { old with source := a.getD old.source, cls := k.getD old.cls, zones := z.getD old.zones, eligible := el.getD old.eligible }

/-- The entry after a write of base fields: the class and the route recomputed, the applied flag cleared where the route
changes (R2, R3). -/
def entryWritten (active : Bool) (old b : Channel) : Channel :=
  { b with eff := effOf b, route := routeOf active b, applied := if routeOf active b = old.route then old.applied else false }

/-- A write of base fields is the write of the entry and the tier table, then the ROUTE that it queues in RUN. -/
theorem writeBase_eq {s : State} (hs : SoundAt dirty s) {c : Nat} (h1 : 1 ≤ c) (h2 : c ≤ 96) (a : Option (Option Nat))
    (k : Option BaseClass) (z : Option ZoneSet) (el : Option Bool) :
    writeBase c a k z el s =
      (let e := entryWritten s.schedule.active (chan s c) (baseWritten (chan s c) a k z el)
      let u : State := { s with
        lineup.map := s.lineup.map.set (c - 1) e
        lineup.table := tierTableOf (s.lineup.map.set (c - 1) e)
        lineup.changed := s.lineup.changed || handsOn (chan s c) e }
      if e.route ≠ (chan s c).route ∧ running s = true then queueRoute c u else u) := by
  have hl := hs.lineup.1
  have hcc := changeClass_eq hs h1 h2 (fun e => { e with cls := k.getD e.cls, zones := z.getD e.zones })
  have ht : tierTableOf (s.lineup.map.set (c - 1) { (fun e : Channel => { e with cls := k.getD e.cls, zones := z.getD e.zones })
        (chan s c) with eff := effOf ((fun e : Channel => { e with cls := k.getD e.cls, zones := z.getD e.zones }) (chan s c)) })
      = tierTableOf (s.lineup.map.set (c - 1) (entryWritten s.schedule.active (chan s c) (baseWritten (chan s c) a k z el))) :=
    tierTable_set rfl
  have hh : handsOn (chan s c) { (fun e : Channel => { e with cls := k.getD e.cls, zones := z.getD e.zones })
        (chan s c) with eff := effOf ((fun e : Channel => { e with cls := k.getD e.cls, zones := z.getD e.zones }) (chan s c)) }
      = handsOn (chan s c) (entryWritten s.schedule.active (chan s c) (baseWritten (chan s c) a k z el)) := rfl
  rw [ht, hh] at hcc
  unfold writeBase
  simp only [hcc]
  generalize tierTableOf (s.lineup.map.set (c - 1)
    (entryWritten s.schedule.active (chan s c) (baseWritten (chan s c) a k z el))) = tb
  generalize (s.lineup.changed || handsOn (chan s c)
    (entryWritten s.schedule.active (chan s c) (baseWritten (chan s c) a k z el))) = ch
  rw [modChan_eq (by simpa using hl) h1 h2]
  have hch : ∀ e : Channel, chan { s with lineup.map := s.lineup.map.set (c - 1) e, lineup.table := tb, lineup.changed := ch } c = e :=
    fun e => chan_set hl h1 h2 e
  simp only [hch, List.set_set]
  unfold recomputeRoute
  rw [hch]
  by_cases hr : routeOf s.schedule.active (baseWritten (chan s c) a k z el) = (chan s c).route
  · have he : entryWritten s.schedule.active (chan s c) (baseWritten (chan s c) a k z el)
        = { baseWritten (chan s c) a k z el with eff := effOf (baseWritten (chan s c) a k z el) } := by
      unfold entryWritten
      rw [if_pos hr, hr]
      rfl
    rw [if_pos (by exact hr), he, if_neg (by
      intro hh
      exact hh.1 rfl)]
    rfl
  · rw [if_neg (by exact hr), modChan_eq (by simpa using hl) h1 h2, hch]
    simp only [List.set_set]
    have he : entryWritten s.schedule.active (chan s c) (baseWritten (chan s c) a k z el)
        = { baseWritten (chan s c) a k z el with
              eff := effOf (baseWritten (chan s c) a k z el)
              route := routeOf s.schedule.active (baseWritten (chan s c) a k z el), applied := false } := by
      unfold entryWritten
      rw [if_neg hr]
    have hrun : ∀ m : List Channel, running { s with lineup.map := m, lineup.table := tb, lineup.changed := ch } = running s :=
      fun _ => rfl
    rw [hrun, he]
    by_cases hn : running s = true
    · rw [if_pos hn, if_pos ⟨hr, hn⟩]
      rfl
    · rw [if_neg hn, if_neg (fun hh => hn hh.2)]
      rfl

end Sys2Proof.Safety
end

