-- ==== Sys2Proof/Laws/Outages.lean ====
section
/-! SUPPORT. What the choice of the next outage id gives (R103). -/

set_option Elab.async false

namespace Sys2Proof.Machine

/-- The search for a free outage id passes over ids that the log holds, and stops at one it does not hold or at its bound. -/
theorem freeOutageId_search (l : List Outage) : ∀ n i : Nat, i < 256 →
    ∃ j ≤ n, freeOutageId n l i = (i + j) % 256 ∧ (∀ k < j, ∃ x ∈ l, x.id = (i + k) % 256)
      ∧ (j < n → ∀ x ∈ l, x.id ≠ (i + j) % 256)
  | 0, i, h => ⟨0, le_rfl, by simp [freeOutageId, Nat.mod_eq_of_lt h], by simp, by simp⟩
  | n + 1, i, h => by
    unfold freeOutageId
    split
    · rename_i held
      obtain ⟨j, le, out, passed, free⟩ := freeOutageId_search l n ((i + 1) % 256) (Nat.mod_lt _ (by omega))
      have shift (k : Nat) : ((i + 1) % 256 + k) % 256 = (i + (k + 1)) % 256 := by omega
      refine ⟨j + 1, by omega, by rw [out, shift], fun k lt => ?_, fun lt => ?_⟩
      · cases k with
        | zero => simpa [Nat.mod_eq_of_lt h] using held
        | succ k => rw [← shift]; exact passed k (by omega)
      · rw [← shift]; exact free (by omega)
    · rename_i held
      exact ⟨0, by omega, by simp [Nat.mod_eq_of_lt h], by simp, fun _ => by simpa [Nat.mod_eq_of_lt h] using held⟩

/-- Ids that follow one another, at most 256 of them, are held by at least as many records. -/
theorem held_ids_le (l : List Outage) (i n : Nat) (small : n ≤ 256) (held : ∀ k < n, ∃ x ∈ l, x.id = (i + k) % 256) :
    n ≤ l.length := by
  have inj : Set.InjOn (fun k => (i + k) % 256) (Finset.range n : Set Nat) := by
    intro a ha b hb eq
    simp only [Finset.coe_range, Set.mem_Iio] at ha hb
    have : (i + a) % 256 = (i + b) % 256 := eq
    omega
  have sub : (Finset.range n).image (fun k => (i + k) % 256) ⊆ (l.map (·.id)).toFinset := by
    intro y hy
    obtain ⟨k, hk, rfl⟩ := Finset.mem_image.mp hy
    obtain ⟨x, mem, eq⟩ := held k (Finset.mem_range.mp hk)
    exact List.mem_toFinset.mpr (List.mem_map.mpr ⟨x, mem, eq⟩)
  have card := Finset.card_le_card sub
  rw [Finset.card_image_of_injOn inj, Finset.card_range] at card
  exact card.trans ((List.toFinset_card_le _).trans (by simp))

/-- In a log of at most 64 records the next outage id is the first one from i on that no record holds (R103). -/
theorem freeOutageId_first (l : List Outage) (i : Nat) (small : i < 256) (log : l.length ≤ 64) :
    ∃ j, freeOutageId 65 l i = (i + j) % 256 ∧ (∀ x ∈ l, x.id ≠ freeOutageId 65 l i)
      ∧ ∀ k < j, ∃ x ∈ l, x.id = (i + k) % 256 := by
  obtain ⟨j, le, out, passed, free⟩ := freeOutageId_search l 65 i small
  have lt : j < 65 := by
    rcases Nat.lt_or_ge j 65 with h | h
    · exact h
    · have := held_ids_le l i j (by omega) passed
      omega
  exact ⟨j, out, out ▸ free lt, passed⟩

end Sys2Proof.Machine
end

