-- ==== Sys2Proof/Laws/PerInstr.lean ====
section
/-! SUPPORT. What holds of every command, one lemma for each constructor: a command that carries an order carries one whose kind
lies in the catalogue of 49 (R193), and whose arguments fit their fields where the command is well formed. -/

set_option Elab.async false

namespace Sys2Proof.Laws.CommandsInRange

open Sys2Proof Sys2Proof.Machine

/-- An order that a command carries has its kind in the catalogue, and fits its fields where the command is well formed. -/
def Statement (i : Instr) : Prop :=
  ∀ tag o, i.order = some (tag, o) →
    1 ≤ orderKind o ∧ orderKind o ≤ 49 ∧ (i.wellFormed = true → WellFormed.order o = true)

/-- A command that carries no order. -/
theorem of_none {i : Instr} (h : i.order = none) : Statement i := by
  intro tag o e; rw [h] at e; exact absurd e (by simp)

/-- A command that carries an order. -/
theorem of_order {i : Instr} {tag : Byte} {o : Order} (h : i.order = some (tag, o)) (k : 1 ≤ orderKind o ∧ orderKind o ≤ 49)
    (w : i.wellFormed = true → WellFormed.order o = true) : Statement i := by
  intro t p e; rw [h] at e; cases e; exact ⟨k.1, k.2, w⟩

theorem status (tag : Byte) : Statement (.status tag) :=
  of_order rfl (by simp [orderKind]) (fun h => h)
theorem identity (tag : Byte) : Statement (.identity tag) :=
  of_order rfl (by simp [orderKind]) (fun h => h)
theorem noticeMask (tag : Byte) (urgent routine : Nat) : Statement (.noticeMask tag urgent routine) :=
  of_order rfl (by simp [orderKind]) (fun h => h)
theorem ackStart (tag : Byte) : Statement (.ackStart tag) :=
  of_order rfl (by simp [orderKind]) (fun h => h)
theorem reset (tag : Byte) : Statement (.reset tag) :=
  of_order rfl (by simp [orderKind]) (fun h => h)
theorem setTime (tag : Byte) (minute second : Nat) : Statement (.setTime tag minute second) :=
  of_order rfl (by simp [orderKind]) (fun h => h)
theorem setParams (tag : Byte) (p : ParamArgs) : Statement (.setParams tag p) :=
  of_order rfl (by simp [orderKind]) (fun h => h)
theorem go (tag : Byte) : Statement (.go tag) :=
  of_order rfl (by simp [orderKind]) (fun h => h)
theorem loadChannel (tag : Byte) (p : LoadChannelArgs) : Statement (.loadChannel tag p) :=
  of_order rfl (by simp [orderKind]) (fun h => h)
theorem setChannel (tag : Byte) (p : SetChannelArgs) : Statement (.setChannel tag p) :=
  of_order rfl (by simp [orderKind]) (fun h => h)
theorem carrier (tag : Byte) (channel request : Nat) : Statement (.carrier tag channel request) :=
  of_order rfl (by simp [orderKind]) (fun h => h)
theorem scheduleAdd (tag : Byte) (p : ScheduleArgs) : Statement (.scheduleAdd tag p) :=
  of_order rfl (by simp [orderKind]) (fun h => h)
theorem scheduleCancel (tag : Byte) (entry : Nat) : Statement (.scheduleCancel tag entry) :=
  of_order rfl (by simp [orderKind]) (fun h => h)
theorem scheduleList (tag : Byte) (start : Nat) : Statement (.scheduleList tag start) :=
  of_order rfl (by simp [orderKind]) (fun h => h)
theorem stepMode (tag : Byte) (request : Nat) : Statement (.stepMode tag request) :=
  of_order rfl (by simp [orderKind]) (fun h => h)
theorem step (tag : Byte) : Statement (.step tag) :=
  of_order rfl (by simp [orderKind]) (fun h => h)
theorem alertStart (tag : Byte) (duration : Nat) : Statement (.alertStart tag duration) :=
  of_order rfl (by simp [orderKind]) (fun h => h)
theorem alertEnd (tag : Byte) : Statement (.alertEnd tag) :=
  of_order rfl (by simp [orderKind]) (fun h => h)
theorem bind (tag : Byte) (p : BindArgs) : Statement (.bind tag p) :=
  of_order rfl (by simp [orderKind]) (fun h => h)
theorem unbind (tag : Byte) (slot : Nat) : Statement (.unbind tag slot) :=
  of_order rfl (by simp [orderKind]) (fun h => h)
theorem setState (tag : Byte) (slot state : Nat) : Statement (.setState tag slot state) :=
  of_order rfl (by simp [orderKind]) (fun h => h)
theorem setTiers (tag : Byte) (slot : Nat) (tiers : TierSet) : Statement (.setTiers tag slot tiers) :=
  of_order rfl (by simp [orderKind]) (fun h => h)
theorem setLimit (tag : Byte) (slot limit : Nat) : Statement (.setLimit tag slot limit) :=
  of_order rfl (by simp [orderKind]) (fun h => h)
theorem querySub (tag : Byte) (slot : Nat) : Statement (.querySub tag slot) :=
  of_order rfl (by simp [orderKind]) (fun h => h)
theorem resync (tag : Byte) (p : ResyncArgs) : Statement (.resync tag p) :=
  of_order rfl (by simp [orderKind]) (fun h => h)
theorem loadTap (tag : Byte) (index address segment : Nat) : Statement (.loadTap tag index address segment) :=
  of_order rfl (by simp [orderKind]) (fun h => h)
theorem queryTap (tag : Byte) (address : Nat) : Statement (.queryTap tag address) :=
  of_order rfl (by simp [orderKind]) (fun h => h)
theorem loadSegment (tag : Byte) (p : SegmentArgs) : Statement (.loadSegment tag p) :=
  of_order rfl (by simp [orderKind]) (fun h => h)
theorem querySegment (tag : Byte) (segment : Nat) : Statement (.querySegment tag segment) :=
  of_order rfl (by simp [orderKind]) (fun h => h)
theorem loadTransponder (tag : Byte) (p : TransponderArgs) : Statement (.loadTransponder tag p) :=
  of_order rfl (by simp [orderKind]) (fun h => h)
theorem queryTransponder (tag : Byte) (address : Nat) : Statement (.queryTransponder tag address) :=
  of_order rfl (by simp [orderKind]) (fun h => h)
theorem listOutages (tag : Byte) (selection start : Nat) : Statement (.listOutages tag selection start) :=
  of_order rfl (by simp [orderKind]) (fun h => h)
theorem ackOutage (tag : Byte) (outage : Nat) : Statement (.ackOutage tag outage) :=
  of_order rfl (by simp [orderKind]) (fun h => h)
theorem watchSet (tag : Byte) (p : WatchArgs) : Statement (.watchSet tag p) :=
  of_order rfl (by simp [orderKind]) (fun h => h)
theorem watchClear (tag : Byte) (entry : Nat) : Statement (.watchClear tag entry) :=
  of_order rfl (by simp [orderKind]) (fun h => h)
theorem releaseHeld (tag : Byte) (place : Nat) : Statement (.releaseHeld tag place) :=
  of_order rfl (by simp [orderKind]) (fun h => h)
theorem dropHeld (tag : Byte) (place : Nat) : Statement (.dropHeld tag place) :=
  of_order rfl (by simp [orderKind]) (fun h => h)
theorem reclaimWatch (tag : Byte) : Statement (.reclaimWatch tag) :=
  of_order rfl (by simp [orderKind]) (fun h => h)
theorem forceFree (tag : Byte) (segment : Nat) : Statement (.forceFree tag segment) :=
  of_order rfl (by simp [orderKind]) (fun h => h)
theorem eventDefine (tag : Byte) (p : EventArgs) : Statement (.eventDefine tag p) :=
  of_order rfl (by simp [orderKind]) (fun h => h)
theorem eventRemove (tag : Byte) (event : Nat) : Statement (.eventRemove tag event) :=
  of_order rfl (by simp [orderKind]) (fun h => h)
theorem eventCancel (tag : Byte) (event : Nat) : Statement (.eventCancel tag event) :=
  of_order rfl (by simp [orderKind]) (fun h => h)
theorem purchase (tag : Byte) (slot event : Nat) : Statement (.purchase tag slot event) :=
  of_order rfl (by simp [orderKind]) (fun h => h)
theorem readBank (tag : Byte) (bank index count : Nat) : Statement (.readBank tag bank index count) :=
  of_order rfl (by simp [orderKind]) (fun h => h)
theorem releaseBank (tag : Byte) (sequence : Nat) : Statement (.releaseBank tag sequence) :=
  of_order rfl (by simp [orderKind]) (fun h => h)
theorem lockWrite (tag : Byte) (word : Nat) (value : Nat) : Statement (.lockWrite tag word value) :=
  of_order rfl (by simp [orderKind]) (fun h => h)
theorem storeClear (tag : Byte) : Statement (.storeClear tag) :=
  of_order rfl (by simp [orderKind]) (fun h => h)
theorem setTariff (tag : Byte) (tier rate : Nat) : Statement (.setTariff tag tier rate) :=
  of_order rfl (by simp [orderKind]) (fun h => h)
theorem closePeriod (tag : Byte) : Statement (.closePeriod tag) :=
  of_order rfl (by simp [orderKind]) (fun h => h)
theorem linkFrameReceived (bytes : List Byte) : Statement (.linkFrameReceived bytes) := of_none rfl
theorem linkBadLength (length : Nat) : Statement (.linkBadLength length) := of_none rfl
theorem linkGapTimeout : Statement .linkGapTimeout := of_none rfl
theorem outboundFrameSent (r : ResetInputs) : Statement (.outboundFrameSent r) := of_none rfl
theorem powerOn (r : ResetInputs) : Statement (.powerOn r) := of_none rfl
theorem resetLine (r : ResetInputs) : Statement (.resetLine r) := of_none rfl
theorem clockFault (r : ResetInputs) : Statement (.clockFault r) := of_none rfl
theorem recoveryScanEnd (voids : List Byte) : Statement (.recoveryScanEnd voids) := of_none rfl
theorem secondTick : Statement .secondTick := of_none rfl
theorem minuteBoundary : Statement .minuteBoundary := of_none rfl
theorem readyAssert : Statement .readyAssert := of_none rfl
theorem readyFall : Statement .readyFall := of_none rfl
theorem readyTimerExpiry : Statement .readyTimerExpiry := of_none rfl
theorem dwellTimerExpiry (channel : Nat) : Statement (.dwellTimerExpiry channel) := of_none rfl
theorem settleTimerExpiry : Statement .settleTimerExpiry := of_none rfl
theorem alertAssert : Statement .alertAssert := of_none rfl
theorem alertDeassert : Statement .alertDeassert := of_none rfl
theorem plantFrameSent : Statement .plantFrameSent := of_none rfl
theorem turnaroundEnd : Statement .turnaroundEnd := of_none rfl
theorem plantReplyReceived (chars : List PlantChar) : Statement (.plantReplyReceived chars) := of_none rfl
theorem replyWindowExpiry : Statement .replyWindowExpiry := of_none rfl
theorem journalRecordProgrammed (p : Programmed) : Statement (.journalRecordProgrammed p) := of_none rfl
theorem headerFieldProgrammed (p : Programmed) : Statement (.headerFieldProgrammed p) := of_none rfl
theorem statementRecordProgrammed (p : Programmed) : Statement (.statementRecordProgrammed p) := of_none rfl
theorem identityWordProgrammed (p : Programmed) : Statement (.identityWordProgrammed p) := of_none rfl
theorem erasePageDone (bank : BankId) (left : List Host.Cell) (torn : List Byte) : Statement (.erasePageDone bank left torn) := of_none rfl
theorem craftChar (byte : Byte) : Statement (.craftChar byte) := of_none rfl
theorem craftBackspace : Statement .craftBackspace := of_none rfl
theorem craftLineEnd (service : Bool) : Statement (.craftLineEnd service) := of_none rfl
theorem craftLineSent : Statement .craftLineSent := of_none rfl
theorem hold (segment : Nat) : Statement (.hold segment) := of_none rfl
theorem free (segment : Nat) : Statement (.free segment) := of_none rfl
theorem showSeg (segment : Nat) : Statement (.showSeg segment) := of_none rfl
theorem showXp (address : Nat) : Statement (.showXp address) := of_none rfl
theorem showTap (address : Nat) : Statement (.showTap address) := of_none rfl
theorem poll (address : Nat) : Statement (.poll address) := of_none rfl
theorem test (address port : Nat) (on : Bool) : Statement (.test address port on) := of_none rfl
theorem take : Statement .take := of_none rfl
theorem give : Statement .give := of_none rfl
theorem watch : Statement .watch := of_none rfl
theorem watchNEvent (entry address span kinds : Nat) (urgent once : Bool) :
    Statement (.watchNEvent entry address span kinds urgent once) := of_none rfl
theorem watchNGuard (entry address span : Nat) (urgent once : Bool) : Statement (.watchNGuard entry address span urgent once) := of_none rfl
theorem watchNOff (entry : Nat) : Statement (.watchNOff entry) := of_none rfl
theorem release (place : Nat) : Statement (.release place) := of_none rfl
theorem drop (place : Nat) : Statement (.drop place) := of_none rfl
theorem ident (id : Nat) (service : Bool) : Statement (.ident id service) := of_none rfl

end Sys2Proof.Laws.CommandsInRange
end

