-- ==== Sys2Proof/Laws/Ports.lean ====
section
/-! SUPPORT. The tables and the port records under a write of one of them: what is read back, and that two writes of one port are
one. -/

set_option Elab.async false

namespace Sys2Proof.Safety

open Sys2Proof.Machine

/-! ## Tables -/

/-- A record changed is read back changed, and every other as it was. -/
theorem tget_tmod {α : Type} (f : α → α) (i j : Nat) : ∀ l : List (Nat × α),
    tget (tmod l i f) j = if i = j then (tget l i).map f else tget l j
  | [] => by simp [tmod, tget]
  | (k, v) :: t => by
    by_cases hk : k = i
    · subst hk
      by_cases hj : k = j <;> simp [tmod, tget, hj]
    · by_cases hj : i = j
      · subst hj
        simp [tmod, tget, hk, tget_tmod f i i t]
      · simp [tmod, tget, hk, hj, tget_tmod f i j t]

/-- Two changes of one record are one. -/
theorem tmod_tmod {α : Type} (f g : α → α) (i : Nat) : ∀ l : List (Nat × α),
    tmod (tmod l i f) i g = tmod l i (fun x => g (f x))
  | [] => rfl
  | (k, v) :: t => by
    by_cases hk : k = i
    · simp [tmod, hk]
    · simp [tmod, hk, tmod_tmod f g i t]

/-- A change of a record leaves the indices of the table. -/
theorem tmod_keys {α : Type} (f : α → α) (i : Nat) : ∀ l : List (Nat × α), (tmod l i f).map (·.1) = l.map (·.1)
  | [] => rfl
  | (k, v) :: t => by
    by_cases hk : k = i
    · simp [tmod, hk]
    · simp [tmod, hk, tmod_keys f i t]

/-! ## Ports -/

/-- The tap of a port written keeps all but that port. -/
theorem tget_modPort (p : Nat × Nat) (f : Port → Port) (i : Nat) (s : State) :
    tget (modPort p f s).plant.taps i
      = if p.1 = i then (tget s.plant.taps p.1).map (fun t => { t with ports := lmod t.ports p.2 f }) else tget s.plant.taps i :=
  tget_tmod _ _ _ _

/-- A port written is read back, and every other as it was. -/
theorem portOf_modPort (p q : Nat × Nat) (f : Port → Port) (s : State) :
    portOf (modPort p f s) q = if p = q then (portOf s p).map f else portOf s q := by
  obtain ⟨i, a⟩ := p
  obtain ⟨j, b⟩ := q
  unfold portOf
  rw [tget_modPort]
  by_cases hi : i = j
  · subst hi
    rw [if_pos rfl]
    cases tget s.plant.taps i with
    | none => simp
    | some t =>
      by_cases hb : a = b
      · subst hb
        simp [lmod_get]
      · simp [lmod_get, hb]
  · simp [hi]

/-- Two writes of one port are one. -/
theorem modPort_modPort (p : Nat × Nat) (f g : Port → Port) (s : State) :
    modPort p g (modPort p f s) = modPort p (fun r => g (f r)) s := by
  unfold modPort
  simp only [tmod_tmod, lmod_lmod]

/-- The park conditions do not look at a port record. -/
theorem parkHoldsAt_modPort (p : Nat × Nat) (f : Port → Port) (i : Nat) (s : State) :
    parkHoldsAt (modPort p f s) i = parkHoldsAt s i := by
  unfold parkHoldsAt
  rw [tget_modPort]
  by_cases h : p.1 = i
  · subst h
    rw [if_pos rfl]
    cases tget s.plant.taps p.1 <;> rfl
  · rw [if_neg h]
    cases tget s.plant.taps i <;> rfl

/-- Derivation does not look at a port record. -/
theorem deriveContent_modPort (p : Nat × Nat) (f : Port → Port) (seg : Nat) (slot : Option Nat) (s : State) :
    deriveContent (modPort p f s) seg slot = deriveContent s seg slot := rfl

/-- The taps alone say what a port reads. -/
theorem portOf_congr {s t : State} (h : s.plant.taps = t.plant.taps) (q : Nat × Nat) : portOf s q = portOf t q := by
  unfold portOf
  rw [h]

/-! ## What marking and re-derivation leave of a port -/

/-- The taps of t are those of s but for one port, which keeps its contents and its slot. -/
def PortMoved (p : Nat × Nat) (s t : State) : Prop :=
  ∃ f : Port → Port, t.plant.taps = (modPort p f s).plant.taps
    ∧ ∀ r, (f r).desired = r.desired ∧ (f r).confirmed = r.confirmed ∧ (f r).slot = r.slot

/-- A write of one port that keeps its contents and its slot moves it. -/
theorem PortMoved.of {p : Nat × Nat} {s t : State} {f : Port → Port} (h : t.plant.taps = (modPort p f s).plant.taps)
    (hf : ∀ r, (f r).desired = r.desired ∧ (f r).confirmed = r.confirmed ∧ (f r).slot = r.slot) : PortMoved p s t := ⟨f, h, hf⟩

theorem lmod_id {α : Type} (l : List α) (i : Nat) : lmod l i (fun x => x) = l := by
  apply List.ext_getElem?
  intro j
  rw [lmod_get]
  split <;> simp

theorem tmod_id {α : Type} (f : α → α) (hf : ∀ x, f x = x) (i : Nat) : ∀ l : List (Nat × α), tmod l i f = l
  | [] => rfl
  | (k, v) :: t => by
    unfold tmod
    rw [hf, tmod_id f hf i t]
    split <;> rfl

theorem PortMoved.refl (p : Nat × Nat) (s : State) : PortMoved p s s :=
  ⟨fun r => r, (tmod_id _ (fun t => by simp only [lmod_id]) _ _).symm, fun _ => ⟨rfl, rfl, rfl⟩⟩

/-- The port read back after it has moved. -/
theorem PortMoved.port {p : Nat × Nat} {s t : State} (h : PortMoved p s t) {r : Port} (hr : portOf s p = some r) :
    ∃ r', portOf t p = some r' ∧ r'.desired = r.desired ∧ r'.confirmed = r.confirmed ∧ r'.slot = r.slot := by
  obtain ⟨f, he, hf⟩ := h
  refine ⟨f r, ?_, hf r⟩
  rw [portOf_congr he, portOf_modPort, if_pos rfl, hr]
  rfl

/-- Every other port reads as it did. -/
theorem PortMoved.others {p q : Nat × Nat} {s t : State} (h : PortMoved p s t) (hq : p ≠ q) : portOf t q = portOf s q := by
  obtain ⟨f, he, -⟩ := h
  rw [portOf_congr he, portOf_modPort, if_neg hq]

/-- A port made PENDING or PARKED keeps its contents and its slot (R58). -/
theorem pend_moved (k : PClass) (p : Nat × Nat) (s : State) : PortMoved p s (pend k p s) := by
  unfold pend
  split
  · exact .of rfl (fun _ => ⟨rfl, rfl, rfl⟩)
  · cases k
    · exact .of rfl (fun _ => ⟨rfl, rfl, rfl⟩)
    · exact .of rfl (fun _ => ⟨rfl, rfl, rfl⟩)

/-- A port marked keeps its contents and its slot (R54). -/
theorem markPort_moved (k : PClass) (p : Nat × Nat) (s : State) : PortMoved p s (markPort k p s) := by
  unfold markPort
  split
  · exact .refl ..
  · dsimp only
    split
    · exact pend_moved ..
    · split
      · exact .of rfl (fun _ => ⟨rfl, rfl, rfl⟩)
      · split
        · exact .of rfl (fun _ => ⟨rfl, rfl, rfl⟩)
        · exact .refl ..
    · exact .of rfl (fun _ => ⟨rfl, rfl, rfl⟩)
    · exact .refl ..
    · exact .refl ..
    · split
      · exact .of rfl (fun _ => ⟨rfl, rfl, rfl⟩)
      · exact pend_moved ..

/-- A port parked or unparked keeps its contents and its slot (R58, R59). -/
theorem reparkPort_moved (p : Nat × Nat) (s : State) : PortMoved p s (reparkPort p s) := by
  unfold reparkPort
  split
  · exact .refl ..
  · rename_i r _
    split
    · split
      · exact .of rfl (fun _ => ⟨rfl, rfl, rfl⟩)
      · exact .refl ..
    · split
      · unfold unparkPort
        split
        · exact .refl ..
        · rename_i r' _
          split
          · exact .of rfl (fun _ => ⟨rfl, rfl, rfl⟩)
          · cases r'.unpark
            · exact .of rfl (fun _ => ⟨rfl, rfl, rfl⟩)
            · exact .of rfl (fun _ => ⟨rfl, rfl, rfl⟩)
      · exact .refl ..

/-- A port re-derived has the content derived as its desired content, and keeps its slot; every other port stays (R51). -/
theorem rederive_port (k : PClass) (p : Nat × Nat) {s : State} {t : Tap} {r : Port} (ht : tget s.plant.taps p.1 = some t)
    (hr : portOf s p = some r) :
    (∃ r', portOf (rederive k p s) p = some r' ∧ r'.desired = deriveContent s t.segment r.slot ∧ r'.slot = r.slot)
      ∧ ∀ q, p ≠ q → portOf (rederive k p s) q = portOf s q := by
  unfold rederive
  simp only [ht, hr]
  split
  · rename_i h
    exact ⟨⟨r, hr, h.symm, rfl⟩, fun _ _ => rfl⟩
  · have m := markPort_moved k p (modPort p (fun x => { x with desired := deriveContent s t.segment r.slot }) s)
    have hw : portOf (modPort p (fun x => { x with desired := deriveContent s t.segment r.slot }) s) p
        = some { r with desired := deriveContent s t.segment r.slot } := by
      rw [portOf_modPort, if_pos rfl, hr]
      rfl
    obtain ⟨r', h1, h2, -, h4⟩ := m.port hw
    exact ⟨⟨r', h1, h2, h4⟩, fun q hq => (m.others hq).trans (by rw [portOf_modPort, if_neg hq])⟩

end Sys2Proof.Safety
end

