-- ==== Sys2Proof/Laws/Segments.lean ====
section
/-! SUPPORT. The walk up the parent links: what it meets, and that a segment lies one deeper than its parent (R94, R100). -/

set_option Elab.async false

namespace Sys2Proof.Machine

/-- The walk meets loaded segments alone, each once, and none of those it has seen. -/
theorem ancestorsFrom_meets (segs : List (Nat × Segment)) : ∀ k seen n,
    (ancestorsFrom segs k seen n).Nodup ∧ ∀ x ∈ ancestorsFrom segs k seen n, x ∉ seen ∧ tget segs x ≠ none
  | 0, _, _ => by simp [ancestorsFrom]
  | k + 1, seen, n => by
    unfold ancestorsFrom
    split
    · simp
    · rename_i p _
      split
      · simp
      · rename_i stop
        simp only [Bool.or_eq_true, List.contains_iff_mem, Option.isNone_iff_eq_none, not_or] at stop
        obtain ⟨nodup, meets⟩ := ancestorsFrom_meets segs k (p :: seen) p
        refine ⟨List.nodup_cons.mpr ⟨fun mem => (meets p mem).1 (by simp), nodup⟩, fun x mem => ?_⟩
        rcases List.mem_cons.mp mem with rfl | mem
        · exact ⟨stop.2, stop.1⟩
        · exact ⟨fun h => (meets x mem).1 (List.mem_cons_of_mem _ h), (meets x mem).2⟩

/-- Segments seen before that the walk would not meet make no difference to it. -/
theorem ancestorsFrom_seen (segs : List (Nat × Segment)) : ∀ k seen seen' n, (∀ x ∈ seen, x ∈ seen') →
    (∀ x ∈ seen', x ∉ ancestorsFrom segs k seen n) → ancestorsFrom segs k seen' n = ancestorsFrom segs k seen n
  | 0, _, _, _, _, _ => rfl
  | k + 1, seen, seen', n, sub, free => by
    unfold ancestorsFrom at free ⊢
    split
    · rfl
    · rename_i p eq
      rw [eq] at free
      dsimp only at free
      by_cases stop : (tget segs p).isNone || seen.contains p
      · rw [if_pos stop, if_pos]
        simp only [Bool.or_eq_true, List.contains_iff_mem] at stop ⊢
        exact stop.imp id (sub p)
      · rw [if_neg stop] at free ⊢
        have fresh : p ∉ seen' := fun mem => free p mem (List.mem_cons_self ..)
        rw [if_neg (by
          simp only [Bool.or_eq_true, List.contains_iff_mem, not_or] at stop ⊢
          exact ⟨stop.1, fresh⟩)]
        congr 1
        refine ancestorsFrom_seen segs k (p :: seen) (p :: seen') p (fun x mem => ?_) (fun x mem => ?_)
        · rcases List.mem_cons.mp mem with rfl | mem
          · exact List.mem_cons_self ..
          · exact List.mem_cons_of_mem _ (sub x mem)
        · rcases List.mem_cons.mp mem with rfl | mem
          · exact fun h => ((ancestorsFrom_meets segs k _ _).2 _ h).1 (List.mem_cons_self ..)
          · exact fun h => free x mem (List.mem_cons_of_mem _ h)

/-- A walk with a greater bound goes on where the lesser one stops. -/
theorem ancestorsFrom_prefix (segs : List (Nat × Segment)) : ∀ k m seen n, k ≤ m →
    ancestorsFrom segs k seen n <+: ancestorsFrom segs m seen n
  | 0, _, _, _, _ => by simp [ancestorsFrom]
  | k + 1, 0, _, _, le => by omega
  | k + 1, m + 1, seen, n, le => by
    unfold ancestorsFrom
    split
    · exact List.prefix_rfl
    · split
      · exact List.prefix_rfl
      · exact (List.prefix_cons_inj _).mpr (ancestorsFrom_prefix segs k m _ _ (by omega))

/-- A walk shorter than its bound does not depend on it. -/
theorem ancestorsFrom_bound (segs : List (Nat × Segment)) : ∀ k seen n, (ancestorsFrom segs k seen n).length < k →
    ∀ m, k ≤ m → ancestorsFrom segs m seen n = ancestorsFrom segs k seen n
  | 0, _, _, short, _, _ => by simp at short
  | k + 1, seen, n, short, 0, le => by omega
  | k + 1, seen, n, short, m + 1, le => by
    unfold ancestorsFrom at short ⊢
    split
    · rfl
    · rename_i p eq
      rw [eq] at short
      dsimp only at short
      split
      · rfl
      · rename_i stop
        rw [if_neg stop] at short
        congr 1
        exact ancestorsFrom_bound segs k _ p (by simpa using short) m (by omega)

/-- A table that has an entry for a number lists that number. -/
theorem tget_mem_keys {α : Type} (l : List (Nat × α)) (x : Nat) (h : tget l x ≠ none) : x ∈ l.map (·.1) := by
  induction l with
  | nil => simp [tget] at h
  | cons e t ih =>
    obtain ⟨k, v⟩ := e
    by_cases eq : k = x
    · simp [eq]
    · simp only [tget, eq, if_false] at h
      simpa using .inr (by simpa using ih h)

/-- From a loaded segment the walk meets fewer segments than are loaded. -/
theorem walk_short (segs : List (Nat × Segment)) (k n : Nat) (seen : List Nat) (own : n ∈ seen) (loaded : tget segs n ≠ none) :
    (ancestorsFrom segs k seen n).length < segs.length := by
  obtain ⟨nodup, meets⟩ := ancestorsFrom_meets segs k seen n
  have all : (n :: ancestorsFrom segs k seen n).Nodup := List.nodup_cons.mpr ⟨fun mem => (meets n mem).1 own, nodup⟩
  have sub : (n :: ancestorsFrom segs k seen n) ⊆ segs.map (·.1) := by
    intro x mem
    rcases List.mem_cons.mp mem with rfl | mem
    · exact tget_mem_keys segs _ loaded
    · exact tget_mem_keys segs x (meets x mem).2
  have := (List.subperm_of_subset all sub).length_le
  simpa using this

/-- A segment lies one deeper than its parent, where the walk up from the parent does not come back to it (R100). -/
theorem depthOf_child (segs : List (Nat × Segment)) (n p : Nat) (g : Segment) (own : tget segs n = some g)
    (link : g.parent = some p) (loaded : tget segs p ≠ none) (other : p ≠ n)
    (open_ : n ∉ ancestorsFrom segs segs.length [p] p) : depthOf segs n = depthOf segs p + 1 := by
  obtain ⟨m, len⟩ : ∃ m, segs.length = m + 1 := by
    have := walk_short segs 0 p [p] (by simp) loaded
    exact ⟨segs.length - 1, by simp [ancestorsFrom] at this; omega⟩
  have short := walk_short segs m p [p] (by simp) loaded
  have stop : ¬ ((tget segs p).isNone || [n].contains p) = true := by
    simp [Option.isNone_iff_eq_none, loaded, other]
  have same : ancestorsFrom segs segs.length [p] p = ancestorsFrom segs m [p] p := by
    rcases Nat.lt_or_ge (ancestorsFrom segs m [p] p).length m with h | h
    · exact ancestorsFrom_bound segs m [p] p h _ (by omega)
    · obtain ⟨nodup, meets⟩ := ancestorsFrom_meets segs m [p] p
      have away : n ∉ ancestorsFrom segs m [p] p :=
        fun mem => open_ ((ancestorsFrom_prefix segs m _ [p] p (by omega)).subset mem)
      have all : (n :: p :: ancestorsFrom segs m [p] p).Nodup :=
        List.nodup_cons.mpr ⟨by simp [Ne.symm other, away],
          List.nodup_cons.mpr ⟨fun mem => (meets p mem).1 (by simp), nodup⟩⟩
      have sub : (n :: p :: ancestorsFrom segs m [p] p) ⊆ segs.map (·.1) := by
        intro x mem
        rcases List.mem_cons.mp mem with rfl | mem
        · exact tget_mem_keys segs _ (by simp [own])
        · rcases List.mem_cons.mp mem with rfl | mem
          · exact tget_mem_keys segs _ loaded
          · exact tget_mem_keys segs x (meets x mem).2
      have := (List.subperm_of_subset all sub).length_le
      simp at this
      omega
  unfold depthOf
  rw [same] at open_ ⊢
  rw [len]
  conv_lhs => unfold ancestorsFrom
  simp only [own, Option.bind_some, link]
  rw [if_neg stop, List.length_cons, ancestorsFrom_seen segs m [p] [p, n] p (by simp)]
  intro x mem
  rcases List.mem_cons.mp mem with rfl | mem
  · exact fun h => ((ancestorsFrom_meets segs m _ _).2 _ h).1 (by simp)
  · simp only [List.mem_singleton] at mem; subst mem; exact open_

end Sys2Proof.Machine
end

