-- ==== Sys2Proof/Laws/SoundEvents.lean ====
section
/-! SUPPORT. The plant line, the statement engine, the ends of the billing store's operations, the craft port, the timebase and the
input queue keep soundness. -/

set_option Elab.async false

namespace Sys2Proof.Safety

open Sys2Proof.Machine

variable {dirty : Bool}

/-! ## The plant line -/

theorem startTx_sound {s : State} (q : Purpose) (a i : Nat) (t : Bool) (p : Nat) (c : Content) (h : SoundAt dirty s) :
    SoundAt dirty (startTx q a i t p c s) := h.same

theorem startPort_sound {s : State} (p : Nat × Nat) (h : SoundAt dirty s) : SoundAt dirty (startPort p s) := by
  unfold startPort
  split
  · exact startTx_sound _ _ _ _ _ _ (leaveQueues_sound _ (modPort_sound _ _ h))
  · exact h

theorem reportGuard_sound {s : State} (n k : Nat) (x : Held) (h : SoundAt dirty s) : SoundAt dirty (reportGuard n k x s) := by
  unfold reportGuard
  split
  · exact notice_sound _ _ _ h
  · exact printLine_sound _ h

theorem holdCommand_sound {s : State} (n k : Nat) (p : Nat × Nat) (a : Nat) (h : SoundAt dirty s) : SoundAt dirty (holdCommand n k p a s) := by
  unfold holdCommand
  dsimp only
  apply reportGuard_sound
  apply leaveQueues_sound
  apply modPort_sound
  exact h.withOutage _ (by dsimp only; rw [lmod_length]; exact h.watches) (by dsimp only; rw [List.length_set]; exact h.held)

theorem offerPort_sound {s : State} (p : Nat × Nat) (r : Bool) (h : SoundAt dirty s) : SoundAt dirty (offerPort p r s).1 := by
  unfold offerPort
  split
  · exact h
  · split
    · exact startPort_sound _ h
    · exact holdCommand_sound _ _ _ _ h
    · exact h

theorem leaveCraft_sound {s : State} (h : SoundAt dirty s) : SoundAt dirty (leaveCraft s) := h.same

theorem offerCraft_sound {s : State} (r : CraftReq) (h : SoundAt dirty s) : SoundAt dirty (offerCraft r s).1 := by
  unfold offerCraft
  dsimp only
  have h1 := leaveCraft_sound h
  repeat' split
  all_goals first
    | exact printErr_sound _ h1
    | exact startTx_sound _ _ _ _ _ _ h1
    | exact h1

theorem craftRequest_sound {s : State} (r : CraftReq) (h : SoundAt dirty s) : SoundAt dirty (craftRequest r s) := by
  unfold craftRequest
  repeat' split
  all_goals first
    | exact printErr_sound _ h
    | exact h.same

theorem offerUrgent_sound : ∀ (l : List UrgentItem) (s : State), SoundAt dirty s → SoundAt dirty (offerUrgent l s).1
  | [], _, h => h
  | e :: es, s, h => by
    unfold offerUrgent
    dsimp only
    cases e with
    | port t p r =>
      dsimp only
      split
      · exact offerPort_sound _ _ h
      · exact offerUrgent_sound es _ (offerPort_sound _ _ h)
    | craft c =>
      dsimp only
      split
      · exact offerCraft_sound _ h
      · exact offerUrgent_sound es _ (offerCraft_sound _ h)

theorem offerRefresh_sound : ∀ (l : List (Nat × Nat)) (s : State), SoundAt dirty s → SoundAt dirty (offerRefresh l s).1
  | [], _, h => h
  | p :: ps, s, h => by
    unfold offerRefresh
    dsimp only
    split
    · exact offerPort_sound _ _ h
    · exact offerRefresh_sound ps _ (offerPort_sound _ _ h)

theorem commandWork_sound {s : State} (h : SoundAt dirty s) : SoundAt dirty (commandWork s).1 := by
  unfold commandWork
  dsimp only
  split
  · exact offerUrgent_sound _ _ h
  · exact offerRefresh_sound _ _ (offerUrgent_sound _ _ h)

theorem completeCycle_sound {s : State} (h : SoundAt dirty s) : SoundAt dirty (completeCycle s) := h.same

theorem startProbe_sound {s t : State} (h : SoundAt dirty s) (e : startProbe s = some t) : SoundAt dirty t := by
  unfold startProbe at e
  split at e
  · cases e
  · dsimp only at e
    split at e
    · cases e
    · simp only [Option.map_eq_some_iff] at e
      obtain ⟨x, _, rfl⟩ := e
      exact startTx_sound _ _ _ _ _ _ h.same

theorem startPoll_sound {s : State} (i : Nat) (h : SoundAt dirty s) : SoundAt dirty (startPoll i s) := by
  unfold startPoll
  split
  · exact h
  · dsimp only
    rename_i x _
    have h1 : SoundAt dirty (startTx .poll x.address i false 0 noContent { s with plant.cursor := some i }) :=
      startTx_sound _ _ _ _ _ _ h.same
    split
    · exact completeCycle_sound h1
    · exact h1

theorem startDuePoll_sound {s : State} (h : SoundAt dirty s) : SoundAt dirty (startDuePoll s).1 := by
  unfold startDuePoll
  dsimp only
  have h1 := dropProbe_sound h
  split
  · rename_i e; exact startProbe_sound h1 e
  · split
    · exact startPoll_sound _ h1
    · split
      · exact h1
      · have h2 := completeCycle_sound h1
        split
        · rename_i e; exact startProbe_sound h2 e
        · split
          · exact startPoll_sound _ h2
          · exact h2

theorem choose_sound {s : State} (h : SoundAt dirty s) : SoundAt dirty (choose s) := by
  have hfirst : ∀ (u : State) (b : Bool), SoundAt dirty u → SoundAt dirty (if b then startDuePoll u else commandWork u).1 := by
    intro u b hu
    split
    · exact startDuePoll_sound hu
    · exact commandWork_sound hu
  unfold choose
  dsimp only
  have h0 : SoundAt dirty (if ((enabledXps s).isEmpty && decide (s.plant.position = 0)) = true then completeCycle s else s) := by
    split
    · exact completeCycle_sound h
    · exact h
  revert h0
  generalize (if ((enabledXps s).isEmpty && decide (s.plant.position = 0)) = true then completeCycle s else s) = u
  intro h0
  have h1 : SoundAt dirty (if isPollSlot (shareNow u) u.plant.position = true then startDuePoll u else commandWork u).1 :=
    hfirst u _ h0
  revert h1
  generalize (if isPollSlot (shareNow u) u.plant.position = true then startDuePoll u else commandWork u) = x
  intro h1
  have h2 : SoundAt dirty (if x.2 = true then x
      else if isPollSlot (shareNow u) u.plant.position = true then commandWork x.1 else startDuePoll x.1).1 := by
    split
    · exact h1
    · split
      · exact commandWork_sound h1
      · exact startDuePoll_sound h1
  revert h2
  generalize (if x.2 = true then x
      else if isPollSlot (shareNow u) u.plant.position = true then commandWork x.1 else startDuePoll x.1) = y
  intro h2
  split
  · exact h2
  · split
    · exact startDuePoll_sound (completeCycle_sound h2)
    · exact h2

theorem kick_sound {s : State} (h : SoundAt dirty s) : SoundAt dirty (kick s) := by
  unfold kick
  split
  · exact choose_sound h
  · exact h

theorem modTap_sound {s : State} (i : Nat) (f : Tap → Tap) (h : SoundAt dirty s) : SoundAt dirty (modTap i f s) := h.same

theorem takeTamper_sound {s : State} (i : Nat) (v : Bool) (h : SoundAt dirty s) : SoundAt dirty (takeTamper i v s) := by
  unfold takeTamper
  split
  · exact h
  · dsimp only
    split
    · exact watchEvent_sound _ _ (modTap_sound _ _ h)
    · exact modTap_sound _ _ h

theorem tapReply_sound {s : State} (i : Nat) (v : Bool) (c : Nat) (test : State → State)
    (ht : ∀ s, SoundAt dirty s → SoundAt dirty (test s)) (h : SoundAt dirty s) : SoundAt dirty (tapReply i v c test s) := by
  unfold tapReply
  split
  · exact h
  · split
    · exact ht _ (takeTamper_sound _ _ h)
    · dsimp only
      exact notice_sound _ _ _ (forceTaps_sound _ (reparkTaps_sound _ (ht _ (takeTamper_sound _ _ (dropProbe_sound (modTap_sound _ _ h))))))

theorem failTap_sound {s : State} (i p : Nat) (h : SoundAt dirty s) : SoundAt dirty (failTap i p s) := by
  unfold failTap
  split
  · exact h
  · dsimp only
    apply watchEvent_sound
    apply notice_sound
    refine foldl_sound _ (fun s q hs => ?_) _ _ (modTap_sound _ _ h)
    split
    · exact hs
    · split
      · exact parkPort_sound _ hs
      · exact hs

theorem failPort_sound {s : State} (p : Nat × Nat) (h : SoundAt dirty s) : SoundAt dirty (failPort p s) := by
  unfold failPort
  split
  · exact h
  · dsimp only
    rename_i r _
    have h1 := modPort_sound p (fun x => { x with confirmed := none, inFlight := none, attempts := r.attempts + 1, cls := none }) h
    split
    · exact failTap_sound _ _ h1
    · split
      · exact parkPort_sound _ h1
      · exact joinUrgentHead_sound _ _ (modPort_sound _ _ h1)

theorem printOutcome_sound {s : State} (t : Transaction) (r : Option (List Byte)) (h : SoundAt dirty s) :
    SoundAt dirty (printOutcome t r s) := by
  unfold printOutcome
  dsimp only
  repeat' split
  all_goals exact printLine_sound _ h

theorem handOutcome_sound {s : State} (t : Transaction) (r : Option (List Byte)) (h : SoundAt dirty s) :
    SoundAt dirty (handOutcome t r s) := by
  unfold handOutcome
  dsimp only
  split
  · split
    · exact takeOutcome_sound _ _ h
    · exact h
  · split
    · exact h
    · split
      · exact tapReply_sound _ _ _ _ (fun _ hs => hs) h
      · exact h
  · split
    · exact failPort_sound _ h
    · exact takeTamper_sound _ _ (ackPort_sound _ h)
  · apply printOutcome_sound
    split
    · split
      · exact h
      · split
        · exact tapReply_sound _ _ _ _ (fun _ hs => hs) h
        · exact h
    · split
      · exact takeOutcome_sound _ _ h
      · exact h
  · apply printOutcome_sound
    split
    · exact h
    · split
      · exact reparkPort_sound _ (testPort_sound _ _ h)
      · exact reparkPort_sound _ (tapReply_sound _ _ _ _ (fun _ hs => testPort_sound _ _ hs) h)

theorem endTx_sound {s : State} (r : Option (List Byte)) (h : SoundAt dirty s) : SoundAt dirty (endTx r s) := by
  unfold endTx
  split
  · exact h
  · exact handOutcome_sound _ _ h.same

theorem plantReceive_sound {s : State} (cs : List PlantChar) (h : SoundAt dirty s) : SoundAt dirty (plantReceive cs s) := by
  unfold plantReceive
  split
  · split
    · exact h
    · split
      · exact endTx_sound _ h
      · exact h.same
  · exact h

/-! ## The statement engine -/

theorem takeAccount_sound {s : State} (h : SoundAt dirty s) : SoundAt dirty (takeAccount s) := by
  unfold takeAccount
  split
  · dsimp only
    split
    · exact h.same
    · exact h.same
  · exact h

theorem startStatement_sound {s : State} (h : SoundAt dirty s) : SoundAt dirty (startStatement s) := by
  unfold startStatement
  split
  · exact (takeAccount_sound h).same
  · exact h

theorem statementCommit_sound {s : State} (k : Nat) (h : SoundAt dirty s) : SoundAt dirty (statementCommit k s) := by
  unfold statementCommit
  repeat' split
  all_goals exact h.same

theorem beginClose_sound {s : State} (i : BankId) (c : Nat) (h : SoundAt dirty s) : SoundAt dirty (beginClose i c s) := by
  unfold beginClose
  dsimp only
  have h1 : SoundAt dirty (openPeriod (otherBank i) c (joinItem (.header i .closing) (joinItem (.header i (.closeMinute c))
      (appendAuto rkMark [] .other ((s.outage.records.filter (fun r => r.stop.isNone)).foldl
        (fun s' r => (appendAuto rkOutage (portionFields s' (openMinuteOf (bank s i)) c r) .other s').1) s)).1))) := by
    apply openPeriod_sound
    apply joinItem_sound
    apply joinItem_sound
    apply appendAuto_sound
    exact foldl_sound _ (fun _ _ hs => appendAuto_sound _ _ _ hs) _ _ h
  exact h1.same

theorem orderClosePeriod_sound {s : State} (h : SoundAt dirty s) : SoundAt dirty (orderClosePeriod s) := by
  unfold orderClosePeriod
  split
  · exact refuse_sound _ h
  · exact beginClose_sound _ _ h

theorem rollNext_sound : ∀ (l : List RollEntry) (s : State), SoundAt dirty s → SoundAt dirty (rollNext l s)
  | [], _, h => h.same
  | r :: rs, s, h => by
    unfold rollNext
    dsimp only
    have h1 : SoundAt dirty (appendAuto rkRoll (rollFields r) .roll { s with engine.rolls := rs }).1 := appendAuto_sound _ _ _ h.same
    split
    · exact h1
    · exact rollNext_sound rs _ h1

theorem limitBoundary_sound {s : State} (h : SoundAt dirty s) : SoundAt dirty (limitBoundary s) := by
  unfold limitBoundary
  split
  · exact h
  · dsimp only
    split
    · exact h
    · split
      · exact beginClose_sound _ _ h.same
      · exact notice_sound _ _ _ (joinItem_sound _ h.same)

/-! ## The ends of the billing store's operations -/

theorem loseHead_sound {s : State} (b : List Byte) (o : Origin) (h : SoundAt dirty s) : SoundAt dirty (loseHead b o s) := by
  unfold loseHead
  dsimp only
  split
  · exact refuse_sound _ h
  · exact rollNext_sound _ _ (loseRecord_sound _ h)
  · exact loseRecord_sound _ h

theorem pumpStore_sound : ∀ (n : Nat) (s : State), SoundAt dirty s → SoundAt dirty (pumpStore n s)
  | 0, _, h => h
  | n + 1, s, h => by
    unfold pumpStore
    split
    · exact h
    · split
      · exact startStatement_sound h
      · split
        · dsimp only
          apply pumpStore_sound
          rename_i body o q _ _
          have h1 : SoundAt dirty (loseHead body o { s with store.queue := q, store.path := .append }) := loseHead_sound _ _ h.same
          exact h1.same
        · exact h.same
      · exact h.same

theorem nextItem_sound {s : State} (h : SoundAt dirty s) : SoundAt dirty (nextItem s) := pumpStore_sound _ _ h.same

theorem programBank_sound {s : State} (i : BankId) (a : Nat) (bs : List Byte) (h : SoundAt dirty s) :
    SoundAt dirty (programBank i a bs s) :=
  setBank_sound _ _ h (cellsAnd_wf _ _ _ (bank_wf h.memory i))

theorem voidSlot_sound {s : State} (i : BankId) (k : Nat) (v : Byte) (h : SoundAt dirty s) : SoundAt dirty (voidSlot i k v s) :=
  programBank_sound _ _ _ h

theorem countMismatch_sound {s : State} (i : BankId) (k : Nat) (h : SoundAt dirty s) : SoundAt dirty (countMismatch i k s) := by
  unfold countMismatch
  dsimp only
  split
  · exact storeFault_sound _ _ h.same
  · exact h.same

theorem orderCommit_sound {s : State} (h : Sound s) : Sound (orderCommit s) := by
  unfold orderCommit
  split
  · exact purchaseCommit_sound _ _ h
  · exact cancelCommit_sound _ h
  · exact serviceCommit_sound _ h
  · exact h

theorem recordCommit_sound {s : State} (o : Origin) (h : Sound s) : Sound (recordCommit o s) := by
  unfold recordCommit
  split
  · exact orderCommit_sound h
  · exact creditCommit_sound _ h
  · exact rollNext_sound _ _ h
  · exact h

/-- A bank written with its own cells. -/
theorem setBank_same_sound {s : State} (i : BankId) (v : Bank) (h : SoundAt dirty s) (hv : v.cells = (bank s i).cells) :
    SoundAt dirty (setBank s i v) := setBank_sound i v h (hv ▸ bank_wf h.memory i)

theorem advanceAppend_sound {s : State} (i : BankId) (h : SoundAt dirty s) : SoundAt dirty (advanceAppend i s) :=
  setBank_same_sound _ _ h rfl

theorem recordProgrammed_sound {s : State} (p : Programmed) (h : Sound s) : Sound (recordProgrammed p s) := by
  unfold recordProgrammed
  split
  · rename_i body o q i _ _ _
    dsimp only
    have h1 : Sound (advanceAppend i (programBank i (32 * (bank s i).append) (took p (body ++ [0x0F])) s)) :=
      advanceAppend_sound _ (programBank_sound _ _ _ h)
    revert h1
    generalize advanceAppend i (programBank i (32 * (bank s i).append) (took p (body ++ [0x0F])) s) = u
    intro h1
    split
    · exact nextItem_sound (recordCommit_sound _ h1.same)
    · have h2 := voidSlot_sound i (bank s i).append (p.voids.head?.getD 0) h1
      split
      · exact storeFault_sound _ _ h2
      · have h3 := countMismatch_sound i (bank s i).append h2
        split
        · exact h3
        · exact nextItem_sound (lowCheck_sound h3)
  · exact h

theorem statementsReady_sound {s : State} (i : BankId) (h : SoundAt dirty s) : SoundAt dirty (statementsReady i s) := by
  unfold statementsReady
  exact notice_sound _ _ _ h

theorem releaseReply_sound {s : State} (i : BankId) (h : SoundAt dirty s) : SoundAt dirty (releaseReply i s) := by
  unfold releaseReply
  split
  · exact answer_sound _ _ h
  · split
    · exact h
    · exact answer_sound _ _ h
  · exact h

theorem closeOpened_sound {s : State} (h : SoundAt dirty s) : SoundAt dirty (closeOpened s) := by
  unfold closeOpened
  split
  · dsimp only
    have h1 : SoundAt dirty (rollNext s.engine.rolls { s with engine.state := .rolling }) := rollNext_sound _ _ h.same
    split
    · exact answer_sound _ _ h1
    · exact h1
  · exact h

theorem openedCommit_sound {s : State} (i : BankId) (h : SoundAt dirty s) : SoundAt dirty (openedCommit i s) := by
  unfold openedCommit
  dsimp only
  apply closeOpened_sound
  have h1 : SoundAt dirty (setBank s i { bank s i with state := .open_, append := 1 }) := setBank_same_sound _ _ h rfl
  have h2 : SoundAt dirty { setBank s i { bank s i with state := .open_, append := 1 } with store.spend := [], store.lowMark := false } :=
    h1.same
  split
  · exact joinTariff_sound h2
  · exact h2

theorem resumeEngine_sound {s : State} (i : BankId) (h : SoundAt dirty s) : SoundAt dirty (resumeEngine i s) := by
  unfold resumeEngine
  dsimp only
  split
  · exact joinItem_sound _ h.same
  · exact h.same

theorem headerCommit_sound {s : State} (i : BankId) (f : HeaderField) (h : SoundAt dirty s) : SoundAt dirty (headerCommit i f s) := by
  unfold headerCommit
  dsimp only
  split
  · have h1 : SoundAt dirty { s with engine.limitTaken := false } := h.same
    split
    · exact joinTariff_sound h1
    · exact h1
  · exact openedCommit_sound _ h
  · have h1 : SoundAt dirty (setBank s i { bank s i with state := .closing, stmtAppend := 16384 }) := setBank_same_sound _ _ h rfl
    split
    · exact resumeEngine_sound _ h1.same
    · exact h1
  · apply statementsReady_sound
    have h1 : SoundAt dirty (setBank s i { bank s i with state := .closed }) := setBank_same_sound _ _ h rfl
    exact h1.same
  · exact releaseReply_sound _ (setBank_same_sound _ _ h rfl)
  · exact h

theorem startLow_sound {s : State} (h : SoundAt dirty s) : SoundAt dirty (startLow s) := by
  unfold startLow
  split
  · split
    · exact notice_sound _ _ _ h
    · exact h
  · exact h

/-- The operating state may change. -/
theorem withOp_sound {s : State} (o : OpState) (h : SoundAt dirty s) : SoundAt dirty { s with link.op := o } := h.withLink _ h.link

theorem finishStart_sound {s : State} (h : SoundAt dirty s) : SoundAt dirty (finishStart s) := by
  unfold finishStart
  dsimp only
  have h1 : SoundAt dirty { s with store.scan := .ended, link.op := .unset } := by
    have h0 : SoundAt dirty { s with store.scan := .ended } := h.same
    exact withOp_sound .unset h0
  have h2 := startLow_sound (notice_sound nkStart true (startBytes { s with store.scan := .ended, link.op := .unset }) h1)
  revert h2
  generalize startLow (notice nkStart true (startBytes { s with store.scan := .ended, link.op := .unset })
    { s with store.scan := .ended, link.op := .unset }) = u
  intro h2
  have h3 : SoundAt dirty (if u.schedule.alertInput = true then changeClaim .lineAtStart u.schedule.hostClaim true u else u) := by
    split
    · exact changeClaim_sound _ _ _ h2
    · exact h2
  revert h3
  generalize (if u.schedule.alertInput = true then changeClaim .lineAtStart u.schedule.hostClaim true u else u) = w
  intro h3
  split
  · exact nextItem_sound h3
  · exact h3

theorem scanAdvance_sound {s : State} (h : SoundAt dirty s) : SoundAt dirty (scanAdvance s) := by
  unfold scanAdvance
  split
  · exact h
  split
  · exact finishStart_sound h
  split
  · exact h
  split
  · rename_i i _ _
    dsimp only
    have h1 := joinItem_sound (.header (otherBank i) .opened)
      (joinItem_sound (.header (otherBank i) (.sequence (openingSequence s (otherBank i)))) h)
    split
    · exact ⟨h1.link, h1.second, h1.params, h1.lineup, h1.classes, h1.routes, h1.schedule, h1.watches, h1.held, h1.craft,
        h1.events, h1.tariff, h1.memory, h1.handed⟩
    · split
      · exact h
      · exact finishStart_sound h
  · exact finishStart_sound h

theorem headerProgrammed_sound {s : State} (p : Programmed) (h : SoundAt dirty s) : SoundAt dirty (headerProgrammed p s) := by
  unfold headerProgrammed
  split
  · dsimp only
    rename_i i f q _ _
    have h1 := programBank_sound i (fieldAt f) (took p (fieldBytes f)) h
    split
    · exact scanAdvance_sound (nextItem_sound (headerCommit_sound _ _ h1.same))
    · exact scanAdvance_sound (countMismatch_sound _ _ h1)
  · exact h

theorem identityProgrammed_sound {s : State} (p : Programmed) (h : SoundAt dirty s) : SoundAt dirty (identityProgrammed p s) := by
  unfold identityProgrammed
  split
  · rename_i w v q _ _
    dsimp only
    apply nextItem_sound
    have h1 : ∀ d : Identity, SoundAt dirty { s with store.identity := d, store.queue := q } := fun d => h.same
    split
    · split
      · exact printLine_sound _ ((h1 _).withCraft _ h.craft)
      · exact printErr_sound _ ((h1 _).withCraft _ h.craft)
    · have h2 : ∀ (d : Identity) (k : LockState), SoundAt dirty { s with store.identity := d, store.queue := q, store.lock := k } :=
        fun d k => h.same
      repeat' split
      all_goals first
        | exact answer_sound _ _ (h2 _ _)
        | exact answer_sound _ _ (h1 _)
  · exact h

theorem voidSlots_sound (i : BankId) : ∀ (ks : List Nat) (vs : List Byte) (s : State), SoundAt dirty s → SoundAt dirty (voidSlots i ks vs s)
  | [], _, _, h => h
  | k :: ks, vs, s, h => by
    unfold voidSlots
    split
    · exact h
    · dsimp only
      apply voidSlots_sound
      have h1 := voidSlot_sound i k (vs.head?.getD 0) h
      split
      · exact storeFault_sound _ _ h1
      · exact h1

theorem abandon_sound {s : State} (vs : List Byte) (h : SoundAt dirty s) : SoundAt dirty (abandon vs s) := by
  unfold abandon
  split
  · exact h
  · dsimp only
    split
    · exact voidSlots_sound _ _ _ _ h.same
    · exact h

theorem statementProgrammed_sound {s : State} (p : Programmed) (h : SoundAt dirty s) : SoundAt dirty (statementProgrammed p s) := by
  unfold statementProgrammed
  split
  · exact h
  · dsimp only
    split
    · exact nextItem_sound (statementCommit_sound _ h)
    have h0 := programBank_sound s.engine.bank (32 * (bank s s.engine.bank).stmtAppend) (took p (statementHead s ++ [0x0F])) h
    revert h0
    generalize programBank s.engine.bank (32 * (bank s s.engine.bank).stmtAppend) (took p (statementHead s ++ [0x0F])) s = u
    intro h0
    have h1 : SoundAt dirty (setBank u s.engine.bank
        { bank u s.engine.bank with stmtAppend := (bank u s.engine.bank).stmtAppend + 1 }) := setBank_same_sound _ _ h0 rfl
    revert h1
    generalize setBank u s.engine.bank
        { bank u s.engine.bank with stmtAppend := (bank u s.engine.bank).stmtAppend + 1 } = v
    intro h1
    split
    · exact nextItem_sound (statementCommit_sound _ h1.same)
    · have h2 := voidSlot_sound s.engine.bank (bank s s.engine.bank).stmtAppend (p.voids.head?.getD 0) h1
      split
      · exact storeFault_sound _ _ h2
      · have h3 := countMismatch_sound s.engine.bank (bank s s.engine.bank).stmtAppend h2
        split
        · exact h3
        · have h4 := abandon_sound (p.voids.drop 1) h3
          split
          · exact h4
          · exact nextItem_sound h4

theorem tearSlot_sound {s : State} (t : List Byte) (h : SoundAt dirty s) : SoundAt dirty (tearSlot t s) := by
  unfold tearSlot
  split
  · exact h
  · exact programBank_sound _ _ _ h

theorem tearIdentity_sound {s : State} (t : List Byte) (h : SoundAt dirty s) : SoundAt dirty (tearIdentity t s) := by
  unfold tearIdentity
  split
  · exact h.same
  · exact h

theorem erasePage_sound {s : State} (i : BankId) (l : List Host.Cell) (t : List Byte) (h : SoundAt dirty s) :
    SoundAt dirty (erasePage i l t s) := by
  unfold erasePage
  dsimp only
  split
  · exact h
  · rename_i p _
    have hw : cellsWf ((l.filter (fun c => decide (c.1 < 4096))).foldl (fun m c => cellPut m (4096 * p + c.1) c.2)
        (cellsErase (bank s i).cells p)) = true :=
      cellsFold_wf _ _ _ _ (cellsErase_wf _ (bank_wf h.memory i))
    have h1 : ∀ v : Bank, v.cells = (l.filter (fun c => decide (c.1 < 4096))).foldl (fun m c => cellPut m (4096 * p + c.1) c.2)
        (cellsErase (bank s i).cells p) → SoundAt dirty (setBank s i v) := fun v hv => setBank_sound _ _ h (hv ▸ hw)
    revert hw h1
    generalize (l.filter (fun c => decide (c.1 < 4096))).foldl (fun m c => cellPut m (4096 * p + c.1) c.2)
      (cellsErase (bank s i).cells p) = m
    intro hw h1
    have h2 : SoundAt dirty (setBank s i { bank s i with cells := m }) := h1 _ rfl
    split
    · exact scanAdvance_sound (storeFault_sound _ _ (tearIdentity_sound _ (tearSlot_sound _ h2)))
    · split
      · exact scanAdvance_sound (notice_sound _ _ _ (setBank_sound _ _ h2 hw))
      · exact setBank_sound _ _ h2 hw

theorem voidTorn_sound (i : BankId) (k : Nat) : ∀ (n : Nat) (vs : List Byte) (s : State), SoundAt dirty s →
    SoundAt dirty (voidTorn i k n vs s).1
  | 0, _, _, h => h
  | n + 1, vs, s, h => by
    unfold voidTorn
    split
    · exact h
    · dsimp only
      have h1 := voidSlot_sound i k (vs.head?.getD 0) h
      split
      · exact storeFault_sound _ _ h1
      · split
        · exact voidTorn_sound i k n _ _ (countMismatch_sound _ _ h1)
        · exact h1.same

theorem walk_sound (i : BankId) : ∀ (n k : Nat) (vs : List Byte) (s : State), SoundAt dirty s → SoundAt dirty (walk i n k vs s).1
  | 0, _, _, _, h => h
  | n + 1, k, vs, s, h => by
    unfold walk
    split
    · split
      · exact h
      · exact walk_sound i n _ _ _ (voidTorn_sound i k 4 vs s h)
    · exact walk_sound i n _ _ _ h

theorem walkJournal_sound {s : State} (i : BankId) (vs : List Byte) (h : SoundAt dirty s) : SoundAt dirty (walkJournal i vs s).1 :=
  setBank_same_sound _ _ (walk_sound i _ _ _ _ h) rfl

theorem walkRegion_sound {s : State} (i : BankId) (vs : List Byte) (h : SoundAt dirty s) : SoundAt dirty (walkRegion i vs s) := by
  unfold walkRegion
  dsimp only
  have h1 := walk_sound i 16384 16384 vs s h
  revert h1
  generalize walk i 16384 16384 vs s = r
  intro h1
  have h2 : SoundAt dirty (setBank r.1 i { bank r.1 i with stmtAppend := r.2.1 }) := setBank_same_sound _ _ h1 rfl
  split
  · exact resumeEngine_sound _ h2
  · exact resumeEngine_sound _ (voidSlots_sound _ _ _ _ h2.same)

theorem readOpenBank_sound {s : State} (i : BankId) (h : SoundAt dirty s) : SoundAt dirty (readOpenBank i s) := h.same

theorem ratesOf_length (b : Bank) : (ratesOf b).length = 16 := by
  unfold ratesOf
  have : ∀ (js : List (List Byte)) (l : List Nat), l.length = 16 → (js.foldl
      (fun l r => if recKind r = rkTariff then l.set (fld r 5 1) (fld r 6 2) else l) l).length = 16 := by
    intro js
    induction js with
    | nil => intro l hl; exact hl
    | cons r t ih =>
      intro l hl
      apply ih
      dsimp only
      split
      · rw [List.length_set]; exact hl
      · exact hl
  exact this _ _ (by simp)

theorem scanTariff_length (s : State) : (scanTariff s).length = 16 := by
  unfold scanTariff
  split
  · simp
  · exact ratesOf_length _

theorem walkBank_sound {s : State} (i : BankId) (vs : List Byte) (h : SoundAt dirty s) : SoundAt dirty (walkBank i vs s).1 := by
  unfold walkBank
  split
  · exact walkJournal_sound _ _ h
  · exact h

theorem restartErase_sound {s : State} (i : BankId) (h : SoundAt dirty s) : SoundAt dirty (restartErase i s) := by
  unfold restartErase
  dsimp only
  split
  · exact setBank_same_sound _ _ h rfl
  · exact h

theorem completeClose_sound {s : State} (h : SoundAt dirty s) : SoundAt dirty (completeClose s) := by
  unfold completeClose
  split
  · exact h
  · dsimp only
    split
    · exact joinItem_sound _ h
    · exact h

theorem scanHeaders_sound {s : State} (h : SoundAt dirty s) : SoundAt dirty (scanHeaders s) := h.same

theorem scanOpen_sound {s : State} (h : SoundAt dirty s) : SoundAt dirty (scanOpen s) := by
  unfold scanOpen
  split
  · exact h
  · exact readOpenBank_sound _ h

theorem scanClosing_sound {s : State} (vs : List Byte) (h : SoundAt dirty s) : SoundAt dirty (scanClosing vs s) := by
  unfold scanClosing
  split
  · exact h
  · exact walkRegion_sound _ _ h

theorem scanBanks_sound {s : State} (vs : List Byte) (h : SoundAt dirty s) : SoundAt dirty (scanBanks vs s) := by
  unfold scanBanks
  have h1 := (scanOpen_sound h).withTariff (scanTariff (scanOpen s)) (scanTariff_length _)
  exact completeClose_sound (restartErase_sound .b (restartErase_sound .a (scanClosing_sound vs h1)))

theorem recoveryScan_sound {s : State} (vs : List Byte) (h : SoundAt dirty s) : SoundAt dirty (recoveryScan vs s) := by
  unfold recoveryScan
  dsimp only
  split
  · exact h
  · have h1 : SoundAt dirty (if lawBroken (scanHeaders s) = true then storeFault .scan none (scanHeaders s) else scanHeaders s) := by
      split
      · exact storeFault_sound _ _ (scanHeaders_sound h)
      · exact scanHeaders_sound h
    revert h1
    generalize (if lawBroken (scanHeaders s) = true then storeFault .scan none (scanHeaders s) else scanHeaders s) = u
    intro h1
    have h2 := walkBank_sound .b (walkBank .a vs u).2 (walkBank_sound .a vs h1)
    revert h2
    generalize walkBank .b (walkBank .a vs u).2 (walkBank .a vs u).1 = r
    intro h2
    have h6 := scanBanks_sound r.2 h2
    revert h6
    generalize scanBanks r.2 r.1 = y
    intro h6
    exact scanAdvance_sound h6.same

/-! ## The craft port -/

/-- A choice between two sound states is sound. -/
theorem ite_sound {c : Prop} [Decidable c] {s t : State} (h1 : SoundAt dirty s) (h2 : SoundAt dirty t) : SoundAt dirty (if c then s else t) := by
  split
  · exact h1
  · exact h2

theorem withMinute_sound {s : State} (m : Nat) (h : SoundAt dirty s) : SoundAt dirty { s with store.minute := m } := h.same

theorem craftWorking_sound {s : State} (f : State → State) (hf : ∀ s, SoundAt dirty s → SoundAt dirty (f s)) (h : SoundAt dirty s) :
    SoundAt dirty (craftWorking f s) := by
  unfold craftWorking
  split
  · exact printErr_sound _ h
  · exact hf _ h

theorem craftOwned_sound {s : State} (f : State → State) (hf : ∀ s, SoundAt dirty s → SoundAt dirty (f s)) (h : SoundAt dirty s) :
    SoundAt dirty (craftOwned f s) := by
  refine craftWorking_sound _ (fun s hs => ?_) h
  split
  · exact printErr_sound _ hs
  · exact hf _ hs

theorem craftHold_sound {s : State} (n : Nat) (h : SoundAt dirty s) : SoundAt dirty (craftHold n s) := by
  refine craftWorking_sound _ (fun s hs => ?_) h
  refine ite_sound (printErr_sound _ hs) (ite_sound (printErr_sound _ hs) (ite_sound (printLine_sound _ hs) ?_))
  exact printLine_sound _ (holdSegment_sound _ hs)

theorem craftFree_sound {s : State} (n : Nat) (h : SoundAt dirty s) : SoundAt dirty (craftFree n s) := by
  refine craftWorking_sound _ (fun s hs => ?_) h
  refine ite_sound (printErr_sound _ hs) (ite_sound (printErr_sound _ hs) ?_)
  exact printLine_sound _ (freeSegment_sound _ _ _ hs)

theorem craftShowSeg_sound {s : State} (n : Nat) (h : SoundAt dirty s) : SoundAt dirty (craftShowSeg n s) := by
  refine craftWorking_sound _ (fun s hs => ?_) h
  repeat' split
  all_goals first
    | exact printErr_sound _ hs
    | exact print_sound _ hs

theorem craftShowXp_sound {s : State} (n : Nat) (h : SoundAt dirty s) : SoundAt dirty (craftShowXp n s) := by
  refine craftWorking_sound _ (fun s hs => ?_) h
  repeat' split
  all_goals first
    | exact printErr_sound _ hs
    | exact print_sound _ hs

theorem craftShowTap_sound {s : State} (n : Nat) (h : SoundAt dirty s) : SoundAt dirty (craftShowTap n s) := by
  refine craftWorking_sound _ (fun s hs => ?_) h
  repeat' split
  all_goals first
    | exact printErr_sound _ hs
    | exact print_sound _ hs

theorem craftPoll_sound {s : State} (n : Nat) (h : SoundAt dirty s) : SoundAt dirty (craftPoll n s) := by
  refine craftWorking_sound _ (fun s hs => ?_) h
  split
  · exact printErr_sound _ hs
  · exact craftRequest_sound _ hs

theorem craftTest_sound {s : State} (a p : Nat) (on : Bool) (h : SoundAt dirty s) : SoundAt dirty (craftTest a p on s) := by
  refine craftWorking_sound _ (fun s hs => ?_) h
  split
  · exact printErr_sound _ hs
  · exact craftRequest_sound _ hs

theorem craftTake_sound {s : State} (h : SoundAt dirty s) : SoundAt dirty (craftTake s) := by
  refine craftWorking_sound _ (fun s hs => ?_) h
  split
  · exact printLine_sound _ hs
  · exact printLine_sound _ (changeOwner_sound _ _ hs)

theorem craftGive_sound {s : State} (h : SoundAt dirty s) : SoundAt dirty (craftGive s) :=
  craftOwned_sound _ (fun _ hs => printLine_sound _ (changeOwner_sound _ _ hs)) h

theorem craftWatch_sound {s : State} (h : SoundAt dirty s) : SoundAt dirty (craftWatch s) :=
  craftOwned_sound _ (fun _ hs => print_sound _ hs) h

theorem craftWatchSet_sound {s : State} (p : WatchArgs) (h : SoundAt dirty s) : SoundAt dirty (craftWatchSet p s) := by
  refine craftOwned_sound _ (fun s hs => ?_) h
  split
  · exact printErr_sound _ hs
  · exact printLine_sound _ (writeWatch_sound _ _ hs)

theorem craftWatchOff_sound {s : State} (n : Nat) (h : SoundAt dirty s) : SoundAt dirty (craftWatchOff n s) := by
  refine craftOwned_sound _ (fun s hs => ?_) h
  split
  · exact printErr_sound _ hs
  · exact printLine_sound _ (clearWatch_sound _ hs)

theorem craftHeld_sound {s : State} (n : Nat) (f : Held → State → State) (hf : ∀ x s, SoundAt dirty s → SoundAt dirty (f x s)) (h : SoundAt dirty s) :
    SoundAt dirty (craftHeld n f s) := by
  refine craftOwned_sound _ (fun s hs => ?_) h
  split
  · exact printErr_sound _ hs
  · split
    · exact printErr_sound _ hs
    · exact hf _ _ hs

theorem craftRelease_sound {s : State} (n : Nat) (h : SoundAt dirty s) : SoundAt dirty (craftRelease n s) :=
  craftHeld_sound _ _ (fun _ _ hs => printLine_sound _ (releaseHeld_sound _ _ hs)) h

theorem craftDrop_sound {s : State} (n : Nat) (h : SoundAt dirty s) : SoundAt dirty (craftDrop n s) :=
  craftHeld_sound _ _ (fun _ _ hs => printLine_sound _ (dropHeld_sound _ _ hs)) h

theorem craftIdent_sound {s : State} (n : Nat) (v : Bool) (h : SoundAt dirty s) : SoundAt dirty (craftIdent n v s) := by
  unfold craftIdent
  split
  · exact printErr_sound _ h
  · split
    · exact printErr_sound _ h
    · exact joinItem_sound _ (h.withCraft _ h.craft)

/-- Every command that a line names keeps soundness. -/
theorem craftCommand_sound {v : Bool} {ws : List Text} {f : State → State} (e : craftCommand v ws = some f) {s : State}
    (h : SoundAt dirty s) : SoundAt dirty (f s) := by
  unfold craftCommand at e
  repeat' split at e
  all_goals first
    | (cases e; done)
    | (cases e; first
        | exact craftTake_sound h
        | exact craftGive_sound h
        | exact craftWatch_sound h
        | exact craftTest_sound _ _ _ h
        | exact craftWatchSet_sound _ h)
    | (simp only [Option.map_eq_some_iff] at e; obtain ⟨n, _, rfl⟩ := e; exact craftWatchOff_sound _ h)
    | (simp only [Option.bind_eq_some_iff] at e
       obtain ⟨n, _, e⟩ := e
       repeat' split at e
       all_goals first
         | (cases e; done)
         | (cases e; first
             | exact craftHold_sound _ h
             | exact craftFree_sound _ h
             | exact craftPoll_sound _ h
             | exact craftRelease_sound _ h
             | exact craftDrop_sound _ h
             | exact craftIdent_sound _ _ h
             | exact craftShowSeg_sound _ h
             | exact craftShowXp_sound _ h
             | exact craftShowTap_sound _ h))

theorem craftKeep_sound {s : State} (b : Byte) (h : SoundAt dirty s) : SoundAt dirty (craftKeep b s) := by
  have hc := h.craft
  unfold craftBounds at hc
  unfold craftKeep
  split
  · exact h
  · split
    · exact h.withCraft _ hc
    · refine h.withCraft _ ⟨hc.1, hc.2.1, ?_⟩
      simp only [List.length_append, List.length_singleton]
      omega

theorem craftErase_sound {s : State} (h : SoundAt dirty s) : SoundAt dirty (craftErase s) := by
  have hc := h.craft
  unfold craftBounds at hc
  unfold craftErase
  split
  · exact h
  · refine h.withCraft _ ⟨hc.1, hc.2.1, ?_⟩
    simp only [List.length_dropLast]
    omega

theorem takeLine_sound {s : State} (l v : Bool) (x : Text) (h : SoundAt dirty s) : SoundAt dirty (takeLine l v x s) := by
  unfold takeLine
  repeat' split
  all_goals first
    | exact h
    | exact printErr_sound _ h
    | (rename_i e; exact craftCommand_sound e h)

theorem craftEnd_sound {s : State} (v : Bool) (h : SoundAt dirty s) : SoundAt dirty (craftEnd v s) :=
  takeLine_sound _ _ _ (h.withCraft _ ⟨h.craft.1, h.craft.2.1, Nat.zero_le _⟩)

/-! ## The timebase -/

theorem markBoundary_sound {s : State} (j : Bool) (h : SoundAt dirty s) : SoundAt dirty (markBoundary j s) := by
  unfold markBoundary
  split
  · exact appendAuto_sound _ _ _ h
  · exact h

/-- Every member of an arranged list is a member of the list. -/
theorem mem_arrange {α : Type} : ∀ (n k : Nat) (l : List α) (x : α), x ∈ arrange n k l → x ∈ l
  | 0, _, _, _, h => h
  | _ + 1, _, [], _, h => h
  | n + 1, k, a :: t, x, h => by
    unfold arrange at h
    split at h
    · exact h
    · rename_i y hy
      rcases List.mem_cons.1 h with rfl | h
      · exact List.mem_iff_getElem?.2 ⟨_, hy⟩
      · exact List.mem_of_mem_eraseIdx (mem_arrange n _ _ x h)

theorem foldFun_loose : ∀ (l : List (State → State)), (∀ f ∈ l, ∀ s, Loose s → Loose (f s)) → ∀ s, Loose s →
    Loose (l.foldl (fun s f => f s) s)
  | [], _, _, h => h
  | f :: t, hl, s, h =>
    foldFun_loose t (fun g hg => hl g (List.mem_cons_of_mem _ hg)) _ (hl f List.mem_cons_self s h)

theorem boundary_sound {s : State} (j : Bool) (h : Sound s) : Sound (boundary j s) := by
  refine handOff_sound (foldFun_loose _ (fun f hf s hs => ?_) _ ⟨_, h.same⟩)
  have := mem_arrange _ _ _ _ hf
  simp only [takers, List.mem_cons, List.not_mem_nil, or_false] at this
  rcases this with rfl | rfl | rfl | rfl | rfl
  · exact scheduleBoundary_loose hs
  · exact eventBoundary_loose hs
  · exact hs.map (fun _ hs => claimBoundary_sound hs)
  · exact hs.map (fun _ hs => markBoundary_sound _ hs)
  · exact hs.map (fun _ hs => limitBoundary_sound hs)

theorem withClock_sound {s : State} (m n : Nat) (h : SoundAt dirty s) (hn : n ≤ 59) : SoundAt dirty { s with time.clock := some (m, n) } :=
  ⟨h.link, by intro c hc; cases hc; exact hn, h.params, h.lineup, h.classes, h.routes, h.schedule, h.watches, h.held, h.craft,
    h.events, h.tariff, h.memory, h.handed⟩

theorem passMinute_sound {s : State} (m : Nat) (h : Sound s) : Sound (passMinute m s) := by
  unfold passMinute
  split
  · exact withClock_sound _ _ h (by omega)
  · exact boundary_sound _ (withClock_sound _ _ h (by omega))

theorem tickSecond_sound {s : State} (h : Sound s) : Sound (tickSecond s) := by
  unfold tickSecond
  split
  · exact h
  · split
    · exact withClock_sound _ _ h (by omega)
    · exact passMinute_sound _ h

theorem tickMinute_sound {s : State} (h : Sound s) : Sound (tickMinute s) := by
  unfold tickMinute
  split
  · exact h
  · split
    · exact h
    · exact passMinute_sound _ h

theorem powerUp_sound {s : State} (m : Nat) (h : SoundAt dirty s) : SoundAt dirty (powerUp m s) := by
  unfold powerUp
  split
  · exact h
  · dsimp only
    apply appendAuto_sound
    split
    · exact withMinute_sound m (joinItem_sound _ h)
    · exact h

theorem orderSetTime_sound {s : State} (m n : Nat) (h : Sound s) : Sound (orderSetTime m n s) := by
  unfold orderSetTime
  split
  · exact refuse_sound _ h
  · rename_i hc
    have hn : n ≤ 59 := by
      unfold setTimeCheck at hc
      simp only [Bool.not_eq_true, Bool.not_eq_false', Bool.and_eq_true, decide_eq_true_eq] at hc
      exact hc.1.1
    have h1 := withClock_sound m n h hn
    dsimp only
    split
    · exact answer_sound _ _ (powerUp_sound _ (withOp_sound _ h1))
    · apply answer_sound
      split
      · exact boundary_sound _ h1
      · exact h1

theorem newParams_range (p : ParamArgs) (q : Params) (h : paramRanges q) : paramRanges (newParams p q) := by
  have key : ∀ (lo hi : Nat) (g : Option Nat) (old : Nat), lo ≤ hi → lo ≤ old ∧ old ≤ hi →
      lo ≤ param lo hi g old ∧ param lo hi g old ≤ hi := by
    intro lo hi g old hlh ho
    unfold param
    split
    · exact ho
    · unfold clamp; repeat' split
      all_goals omega
  unfold paramRanges at *
  exact ⟨key _ _ _ _ (by omega) h.1, key _ _ _ _ (by omega) h.2.1, key _ _ _ _ (by omega) h.2.2.1,
    key _ _ _ _ (by omega) h.2.2.2.1, (key 0 255 _ _ (by omega) ⟨Nat.zero_le _, h.2.2.2.2.1⟩).2,
    (key 0 1440 _ _ (by omega) ⟨Nat.zero_le _, h.2.2.2.2.2⟩).2⟩

theorem orderSetParams_sound {s : State} (p : ParamArgs) (h : SoundAt dirty s) : SoundAt dirty (orderSetParams p s) := by
  unfold orderSetParams
  apply answer_sound
  exact ⟨h.link, h.second, newParams_range _ _ h.params, h.lineup, h.classes, h.routes, h.schedule, h.watches, h.held, h.craft,
    h.events, h.tariff, h.memory, h.handed⟩

theorem withPlantLine_sound {s : State} (l : LineState) (h : SoundAt dirty s) : SoundAt dirty { s with plant.line := l } := h.same

theorem goRun_sound {s : State} (i : BankId) (o : Bool) (h : SoundAt dirty s) : SoundAt dirty (goRun i o s) :=
  withPlantLine_sound _ (forceTaps_sound _ (goLineup_sound (withOp_sound .run
    (ite_sound (withMinute_sound _ (openPeriod_sound _ _ h)) h))))

theorem orderGo_sound {s : State} (h : SoundAt dirty s) : SoundAt dirty (orderGo s) := by
  unfold orderGo
  split
  · exact refuse_sound _ h
  · split
    · exact answer_sound _ _ h
    · split
      · exact refuse_sound _ h
      · exact answer_sound _ _ (goRun_sound _ _ h)

theorem cutErase_wf (b : Bank) (e : List Byte) (h : cellsWf b.cells = true) : cellsWf (cutErase b e) = true := by
  unfold cutErase
  split
  · exact h
  · dsimp only
    split
    · exact cellsRise_wf _ _ _ h
    · exact h

theorem reset_lineup_sound : lineupBounds {} ∧ classesDerived {} ∧ routesDerived false {} := by
  refine ⟨⟨by decide, by decide, by decide⟩, ⟨?_, by decide⟩, ?_⟩
  · intro c hc
    rw [List.eq_of_mem_replicate hc]; rfl
  · intro c hc
    rw [List.eq_of_mem_replicate hc]; rfl

theorem resetEvent_sound {s : State} (c : ResetCause) (r : ResetInputs) (h : SoundAt dirty s) : Sound (resetEvent c r s) := by
  have h1 := tearIdentity_sound r.torn (tearSlot_sound r.torn h)
  unfold resetEvent
  revert h1
  generalize tearIdentity r.torn (tearSlot r.torn s) = u
  intro h1
  have ha := cutErase_wf u.store.a r.erasedA (bank_wf h1.memory .a)
  have hb := cutErase_wf u.store.b r.erasedB (bank_wf h1.memory .b)
  refine ⟨⟨Nat.zero_le _, Nat.zero_le _, fun _ => Nat.zero_le _, Nat.zero_le _⟩, ?_, ?_,
    reset_lineup_sound.1, reset_lineup_sound.2.1, ?_, Nat.zero_le _, ?_, ?_,
    ⟨Nat.zero_le _, Nat.zero_le _, Nat.zero_le _⟩, ?_, ?_, ?_, rfl⟩
  · intro c hc; cases hc
  · exact (by unfold paramRanges; decide : paramRanges {})
  · exact reset_lineup_sound.2.2
  · exact (by decide : (List.replicate 8 ({} : WatchEntry)).length = 8)
  · exact (by decide : (List.replicate 16 (none : Option Held)).length = 16)
  · exact (by decide : ({ } : State).events.length = 16)
  · exact (by decide : ({ } : State).engine.tariff.length = 16)
  · unfold memoryWf
    exact Bool.and_eq_true_iff.2 ⟨ha, hb⟩

theorem tick_sound {s : State} (h : SoundAt dirty s) : SoundAt dirty (tick s) := by
  have h1 := h.withLine { s.lineup with
      readyTimer := tickTimer s.lineup.readyTimer
      ramps := s.lineup.ramps.map (tickRamp s.lineup.fault)
      settleTimer := tickTimer s.lineup.settleTimer } rfl rfl h.lineup.2.1
    (by simp only [List.length_map]; exact h.lineup.2.2)
  exact h1.same

/-! ## The input queue -/

theorem readService_sound {s : State} (h : SoundAt dirty s) : SoundAt dirty (readService s) :=
  (h.withCraft { s.craft with service := Config.serviceLevel s.freeCount } h.craft).same

theorem orderNoticeMask_sound {s : State} (u r : Nat) (h : SoundAt dirty s) : SoundAt dirty (orderNoticeMask u r s) := by
  unfold orderNoticeMask
  split
  · exact answer_sound _ _ (h.withLink _ h.link)
  · exact refuse_sound _ h

theorem orderAckStart_sound {s : State} (h : SoundAt dirty s) : SoundAt dirty (orderAckStart s) := answer_sound _ _ h.same

theorem orderReset_sound {s : State} (h : SoundAt dirty s) : SoundAt dirty (orderReset s) := answer_sound _ _ (h.withLink _ h.link)

theorem handOver_sound {s : State} (o : Order) (h : Sound s) : Sound (handOver o s) := by
  cases o with
  | status => exact answer_sound _ _ h
  | identity => exact answer_sound _ _ (readService_sound h)
  | noticeMask u r => exact orderNoticeMask_sound _ _ h
  | ackStart => exact orderAckStart_sound h
  | reset => exact orderReset_sound h
  | setTime m n => exact orderSetTime_sound _ _ h
  | setParams p => exact orderSetParams_sound _ h
  | go => exact orderGo_sound h
  | loadChannel p => exact orderLoadChannel_sound _ h
  | setChannel p => exact orderSetChannel_sound _ h
  | carrier c r => exact orderCarrier_sound _ _ h
  | scheduleAdd p => exact orderScheduleAdd_sound _ h
  | scheduleCancel i => exact orderScheduleCancel_sound _ h
  | scheduleList i => exact orderScheduleList_sound _ h
  | stepMode r => exact orderStepMode_sound _ h
  | step => exact orderStep_sound h
  | alertStart d => exact orderAlertStart_sound _ h
  | alertEnd => exact orderAlertEnd_sound h
  | bind p => exact orderBind_sound _ h
  | unbind n => exact orderUnbind_sound _ h
  | setState n v => exact orderSetState_sound _ _ h
  | setTiers n v => exact orderSetTiers_sound _ _ h
  | setLimit n v => exact orderSetLimit_sound _ _ h
  | querySub n => exact orderQuerySub_sound _ h
  | resync p => exact orderResync_sound _ h
  | loadTap i a g => exact orderLoadTap_sound _ _ _ h
  | queryTap a => exact orderQueryTap_sound _ h
  | loadSegment p => exact orderLoadSegment_sound _ h
  | querySegment n => exact orderQuerySegment_sound _ h
  | loadTransponder p => exact orderLoadTransponder_sound _ h
  | queryTransponder a => exact orderQueryTransponder_sound _ h
  | listOutages k n => exact orderListOutages_sound _ _ h
  | ackOutage i => exact orderAckOutage_sound _ h
  | watchSet p => exact orderWatchSet_sound _ h
  | watchClear n => exact orderWatchClear_sound _ h
  | releaseHeld n => exact orderReleaseHeld_sound _ h
  | dropHeld n => exact orderDropHeld_sound _ h
  | reclaimWatch => exact orderReclaimWatch_sound h
  | forceFree n => exact orderForceFree_sound _ h
  | eventDefine p => exact orderEventDefine_sound _ h
  | eventRemove e => exact orderEventRemove_sound _ h
  | eventCancel e => exact orderEventCancel_sound _ h
  | purchase n e => exact orderPurchase_sound _ _ h
  | readBank a b c => exact orderReadBank_sound _ _ _ h
  | releaseBank n => exact orderReleaseBank_sound _ h
  | lockWrite w v => exact orderLockWrite_sound _ _ h
  | storeClear => exact orderStoreClear_sound h
  | setTariff t r => exact orderSetTariff_sound _ _ h
  | closePeriod => exact orderClosePeriod_sound h

theorem takeMatter_sound {s : State} (m : OrderMatter) (h : Sound s) : Sound (takeMatter m s) := by
  unfold takeMatter
  repeat' split
  all_goals first
    | exact refuse_sound _ h
    | exact handOver_sound _ h

theorem takeOrders_sound : ∀ (n : Nat) (s : State), Sound s → Sound (takeOrders n s)
  | 0, _, h => h
  | n + 1, s, h => by
    unfold takeOrders
    split
    · rename_i t ts hw hm
      apply takeOrders_sound
      unfold takeOrder
      apply kick_sound
      apply takeMatter_sound
      have hl := h.link
      unfold linkBounds at hl
      unfold mayTake at hm
      simp only [Bool.and_eq_true, decide_eq_true_eq] at hm
      refine h.withLink _ ⟨?_, hl.2.1, fun _ => ?_, hl.2.2.2⟩
      · rw [hw] at hl
        simp only [List.length_cons] at hl
        dsimp only; omega
      · have := hm.2; dsimp only; omega
    · exact h

theorem takeWaiting_sound {s : State} (h : Sound s) : Sound (takeWaiting s) := takeOrders_sound _ _ h

theorem finish_sound {s : State} (h : Sound s) : Sound (finish s) := takeWaiting_sound (kick_sound h)

theorem offerOrder_sound {s : State} (t : TaggedOrder) (h : SoundAt dirty s) : SoundAt dirty (offerOrder t s) := by
  have hl := h.link
  unfold linkBounds at hl
  unfold offerOrder
  split
  · refine h.withLink _ ⟨?_, hl.2.1, hl.2.2.1, hl.2.2.2⟩
    simp only [List.length_append, List.length_singleton]; omega
  · split
    · exact joinReply_sound _ _ _ h (by omega) (fun _ => by omega)
    · exact h

theorem orderArrives_sound {s : State} (t : TaggedOrder) (h : Sound s) : Sound (orderArrives t s) :=
  takeWaiting_sound (offerOrder_sound t h)

theorem readyAssert_sound {s : State} (h : SoundAt dirty s) : SoundAt dirty (readyAssert s) := by
  unfold readyAssert
  dsimp only
  have h1 : SoundAt dirty { s with lineup.ready := true, lineup.readyTimer := none } :=
    h.withLine _ rfl rfl h.lineup.2.1 h.lineup.2.2
  split
  · exact endFault_sound h1
  · split
    · exact acceptHead_sound h1
    · exact lineRun_sound h1

end Sys2Proof.Safety
end

