-- ==== Sys2Proof/Laws/Timeline.lean ====
section
/-! SUPPORT. What the statement computation's timeline says, without its recursion (R171, R172). -/

namespace Sys2Proof.Machine

set_option Elab.async false

/-- The SERVICE and POWER_UP changes of an account read from the journal's records, each beside the minute before it. -/
theorem laterChanges_eq_filterMap (account g : Nat) (rs : List (List Byte)) :
    laterChanges account g rs = ((g :: rs.map recMinute).zip rs).filterMap (fun x =>
      if recKind x.2 = rkPowerUp then some (x.1, none)
      else if recKind x.2 = rkService ∧ recAccount x.2 = account then some (recMinute x.2, recServed x.2) else none) := by
  induction rs generalizing g with
  | nil => rfl
  | cons r rs ih =>
    simp only [laterChanges, List.map_cons, List.zip_cons_cons, List.filterMap_cons, ih, Bool.and_eq_true, decide_eq_true_eq]
    split
    · rfl
    · split <;> rfl

/-- The timeline at a minute is the last change that holds from a minute at or before it. -/
theorem timelineAt_eq_getLast? (cs : List (Nat × Served)) (m : Nat) :
    timelineAt cs m = ((cs.filter (fun c => decide (c.1 ≤ m))).getLast?).bind (fun c => c.2) := by
  suffices h : ∀ v : Served, cs.foldl (fun v c => if c.1 ≤ m then c.2 else v) v
      = match (cs.filter (fun c => decide (c.1 ≤ m))).getLast? with | some c => c.2 | none => v by
    rw [timelineAt, h]; cases (cs.filter (fun c => decide (c.1 ≤ m))).getLast? <;> rfl
  induction cs with
  | nil => intro v; rfl
  | cons c cs ih =>
    intro v
    simp only [List.foldl_cons, ih]
    by_cases h : c.1 ≤ m
    · simp only [h, if_true, List.filter_cons, decide_true, List.getLast?_cons]
      cases (cs.filter (fun c => decide (c.1 ≤ m))).getLast? <;> rfl
    · simp only [h, if_false, List.filter_cons, decide_false, Bool.false_eq_true]

/-- The minutes of a span at which something holds are counted by the offsets of the span. -/
theorem countMinutes_eq_length (a b : Nat) (p : Nat → Bool) :
    countMinutes a b p = ((List.range (b - a)).filter (fun n => p (a + n))).length :=
  List.countP_eq_length_filter

end Sys2Proof.Machine
end

