-- ==== Sys2Proof/Tests/Slice0.lean ====
section
/-! SUPPORT. The model's own tests: ill-formed commands that `wellFormed` refuses, one small theorem about one step for the
commands, and for every statement with hypotheses a state and operands that meet them, clause by clause. -/

set_option Elab.async false

namespace Sys2Proof.Tests

open Sys2Proof Sys2Proof.Machine Sys2Proof.Safety

/-! ## Small states -/

/-- A controller in an operating state, at minute 5,000 where time is valid, with nothing loaded. -/
def bare (op : OpState) : State :=
  { State.reset with
    link.op := op
    time.clock := if op = .starting ∨ op = .unset then none else some (5000, 7)
    plant.line := if op = .run then .idle else .off
    store.scan := if op = .starting then .reading else .ended }

/-- Bank A open since minute 5,000 with sequence 1, its next journal slot 5. -/
def openedA : Bank :=
  { cells := [(0, 0), (1, 1), (2, 0), (3, 0), (4, 0), (5, 0x13), (6, 0x88), (7, 0), (13, 0)], state := .open_, append := 5 }

/-- A controller with two segments, a transponder, a tap, a subscriber and an open period. -/
def town (op : OpState) : State :=
  { bare op with
    telemetry.segments := [(7, { zone := 3, parent := none, head := some 5 }), (8, { zone := 4, parent := some 7, head := none })]
    telemetry.transponders := [(5, { address := 100, segment := 7, role := .nodeHead, enabled := true, low := -100, high := 300,
                                     hysteresis := 10 })]
    plant.taps := [(60, { address := 900, segment := 8, ports := [{}, {}, { slot := some 0 }, {}] })]
    subs := [(0, ⟨.active, 77, 900, 2, 1, 5000⟩)]
    store.a := openedA }

/-- A channel of a state's map rewritten. -/
def withChannel (c : Nat) (f : Channel → Channel) (s : State) : State :=
  { s with lineup.map := s.lineup.map.set (c - 1) (f (chan s c)) }

/-- The outcome is a next state of which a check holds. -/
def nextHas (r : Result) (p : State → Bool) : Bool := match r with | .next t => p t | _ => false

/-- One step with a command at the front of the queue ends in a state of which a check holds. -/
def steps (c : Instr) (s : State) (p : State → Bool) : Bool := nextHas (step { s with pending := [c] }) p

/-- The status byte of a reply on the outbound line. -/
def lineCode (t : State) : Option Byte := match t.link.outbound with | some (.reply r) => r.body.head? | _ => none

/-- The matter after the status byte of a reply on the outbound line. -/
def lineBody (t : State) : List Byte := match t.link.outbound with | some (.reply r) => r.body.drop 1 | _ => []

/-- A quiet link, from its fields. -/
theorem quiet_of {s : State} (h : s.link.inFlight = none ∧ s.link.waiting = [] ∧ s.link.resetPending = false
    ∧ s.link.replies.length < 8) : Quiet s := ⟨h.1, h.2.1, h.2.2.1, h.2.2.2⟩

/-- A sound state, from its fields. -/
theorem sound_of {s : State}
    (h : (s.link.waiting.length ≤ 4 ∧ s.link.replies.length ≤ 8 ∧ (s.link.inFlight.isSome = true → s.link.replies.length ≤ 7)
        ∧ s.link.urgent.length + s.link.routine.length ≤ 32)
      ∧ s.time.clock.all (fun c => decide (c.2 ≤ 59)) = true
      ∧ ((100 ≤ s.params.rampStep ∧ s.params.rampStep ≤ 2000) ∧ (20 ≤ s.params.replyWindow ∧ s.params.replyWindow ≤ 200)
        ∧ (1 ≤ s.params.pollShare ∧ s.params.pollShare ≤ 7) ∧ (1 ≤ s.params.missLimit ∧ s.params.missLimit ≤ 15)
        ∧ s.params.batteryWarn ≤ 255 ∧ s.params.creditThreshold ≤ 1440)
      ∧ (s.lineup.map.length = 96 ∧ s.lineup.queue.length ≤ 256 ∧ s.lineup.ramps.length ≤ 2)
      ∧ ((∀ c ∈ s.lineup.map, c.eff = effOf c) ∧ s.lineup.table = tierTableOf s.lineup.map)
      ∧ (∀ c ∈ s.lineup.map, c.route = routeOf s.schedule.active c)
      ∧ s.schedule.entries.length ≤ 128 ∧ s.outage.watches.length = 8 ∧ s.outage.held.length = 16
      ∧ (s.craft.print.length ≤ 16 ∧ s.craft.lost ≤ 255 ∧ s.craft.buffer.length ≤ 80) ∧ s.events.length = 16
      ∧ s.engine.tariff.length = 16 ∧ memoryWf s = true ∧ s.lineup.changed = false) : Sound s := by
  obtain ⟨a, b, c, d, e, f, g, i, j, k, l, m, n, o⟩ := h
  refine ⟨a, fun x hx => ?_, c, d, e, f, g, i, j, k, l, m, n, o⟩
  rw [hx] at b; simpa using b

/-! ## What `wellFormed` refuses -/

theorem test_wellFormed_refuses_orders :
    [Instr.noticeMask 1 256 0, .noticeMask 1 0 256, .setTime 1 (2 ^ 32) 0, .setTime 1 0 256,
      .setParams 1 ⟨some 65536, none, none, none, none, none⟩, .setParams 1 ⟨none, some 65536, none, none, none, none⟩,
      .setParams 1 ⟨none, none, some 256, none, none, none⟩, .setParams 1 ⟨none, none, none, some 256, none, none⟩,
      .setParams 1 ⟨none, none, none, none, some 65536, none⟩, .setParams 1 ⟨none, none, none, none, none, some 65536⟩,
      .loadChannel 1 ⟨256, 0, 0, 0, 0, 0⟩, .loadChannel 1 ⟨1, 256, 0, 0, 0, 0⟩, .loadChannel 1 ⟨1, 0, 256, 0, 0, 0⟩,
      .loadChannel 1 ⟨1, 0, 0, 0, 256, 0⟩, .loadChannel 1 ⟨1, 0, 0, 0, 0, 256⟩,
      .setChannel 1 ⟨256, none, none, none, none⟩, .setChannel 1 ⟨1, some 256, none, none, none⟩,
      .setChannel 1 ⟨1, none, some 256, none, none⟩, .setChannel 1 ⟨1, none, none, none, some 256⟩,
      .carrier 1 256 0, .carrier 1 0 256, .scheduleAdd 1 ⟨2 ^ 32, 0, 0, 0, 0⟩, .scheduleAdd 1 ⟨0, 256, 0, 0, 0⟩,
      .scheduleAdd 1 ⟨0, 0, 256, 0, 0⟩, .scheduleAdd 1 ⟨0, 0, 0, 256, 0⟩, .scheduleAdd 1 ⟨0, 0, 0, 0, 256⟩,
      .scheduleCancel 1 65536, .scheduleList 1 256, .stepMode 1 256, .alertStart 1 256].all (fun i => !i.wellFormed) = true := by
  decide +kernel

theorem test_wellFormed_refuses_tables :
    [Instr.bind 1 ⟨65536, 0, 0, 0, 0, 0, 0⟩, .bind 1 ⟨0, 2 ^ 32, 0, 0, 0, 0, 0⟩, .bind 1 ⟨0, 0, 65536, 0, 0, 0, 0⟩,
      .bind 1 ⟨0, 0, 0, 256, 0, 0, 0⟩, .bind 1 ⟨0, 0, 0, 0, 0, 256, 0⟩, .bind 1 ⟨0, 0, 0, 0, 0, 0, 2 ^ 32⟩, .unbind 1 65536,
      .setState 1 65536 0, .setState 1 0 256, .setTiers 1 65536 0, .setLimit 1 65536 0, .setLimit 1 0 (2 ^ 32), .querySub 1 65536,
      .resync 1 ⟨some 65536, none⟩, .resync 1 ⟨none, some 65536⟩, .loadTap 1 65536 0 0, .loadTap 1 0 65536 0, .loadTap 1 0 0 256,
      .queryTap 1 65536, .loadSegment 1 ⟨256, 0, 0, 0⟩, .loadSegment 1 ⟨0, 256, 0, 0⟩, .loadSegment 1 ⟨0, 0, 256, 0⟩,
      .loadSegment 1 ⟨0, 0, 0, 256⟩, .querySegment 1 256, .loadTransponder 1 ⟨256, 0, 0, 0, 0, 0, 0, 0⟩,
      .loadTransponder 1 ⟨0, 65536, 0, 0, 0, 0, 0, 0⟩, .loadTransponder 1 ⟨0, 0, 256, 0, 0, 0, 0, 0⟩,
      .loadTransponder 1 ⟨0, 0, 0, 256, 0, 0, 0, 0⟩, .loadTransponder 1 ⟨0, 0, 0, 0, 256, 0, 0, 0⟩,
      .loadTransponder 1 ⟨0, 0, 0, 0, 0, -32769, 0, 0⟩, .loadTransponder 1 ⟨0, 0, 0, 0, 0, 0, 32768, 0⟩,
      .loadTransponder 1 ⟨0, 0, 0, 0, 0, 0, 0, 256⟩, .queryTransponder 1 65536, .listOutages 1 256 0, .listOutages 1 0 256,
      .ackOutage 1 256, .watchSet 1 ⟨256, 0, 0, 0, 0, 0, 0⟩, .watchSet 1 ⟨0, 256, 0, 0, 0, 0, 0⟩, .watchSet 1 ⟨0, 0, 65536, 0, 0, 0, 0⟩,
      .watchSet 1 ⟨0, 0, 0, 65536, 0, 0, 0⟩, .watchSet 1 ⟨0, 0, 0, 0, 256, 0, 0⟩, .watchSet 1 ⟨0, 0, 0, 0, 0, 256, 0⟩,
      .watchSet 1 ⟨0, 0, 0, 0, 0, 0, 256⟩, .watchClear 1 256, .releaseHeld 1 256, .dropHeld 1 256, .forceFree 1 256,
      .eventDefine 1 ⟨256, 0, 0, 0, 0, 0, 0⟩, .eventDefine 1 ⟨0, 256, 0, 0, 0, 0, 0⟩, .eventDefine 1 ⟨0, 0, 2 ^ 32, 0, 0, 0, 0⟩,
      .eventDefine 1 ⟨0, 0, 0, 2 ^ 32, 0, 0, 0⟩, .eventDefine 1 ⟨0, 0, 0, 0, 2 ^ 32, 0, 0⟩, .eventDefine 1 ⟨0, 0, 0, 0, 0, 2 ^ 32, 0⟩,
      .eventDefine 1 ⟨0, 0, 0, 0, 0, 0, 65536⟩, .eventRemove 1 256, .eventCancel 1 256, .purchase 1 65536 0, .purchase 1 0 256,
      .readBank 1 256 0 0, .readBank 1 0 65536 0, .readBank 1 0 0 256, .releaseBank 1 65536, .lockWrite 1 256 0,
      .lockWrite 1 0 (2 ^ 32), .setTariff 1 256 0, .setTariff 1 0 (2 ^ 32)].all (fun i => !i.wellFormed) = true := by decide +kernel

/-- What a reset samples, with nothing half done in the store. -/
def calm : ResetInputs := ⟨.s57600, false, [], [], []⟩

/-- A programming that takes the bytes given. -/
def good : Programmed := ⟨none, []⟩

theorem test_wellFormed_refuses_events :
    [Instr.linkFrameReceived (List.replicate 609 0), .linkBadLength 65536, .linkBadLength 2, .linkBadLength 602,
      .outboundFrameSent { calm with torn := List.replicate 33 0 }, .powerOn { calm with erasedA := List.replicate 4097 0 },
      .resetLine { calm with erasedB := List.replicate 4097 0 }, .clockFault { calm with torn := List.replicate 33 0 },
      .dwellTimerExpiry 0, .dwellTimerExpiry 97, .journalRecordProgrammed ⟨some (List.replicate 33 0), []⟩,
      .headerFieldProgrammed ⟨some (List.replicate 33 0), []⟩, .statementRecordProgrammed ⟨some (List.replicate 33 0), []⟩,
      .identityWordProgrammed ⟨some (List.replicate 33 0), []⟩, .erasePageDone .a [(4096, 0)] [],
      .erasePageDone .a [] (List.replicate 33 0), .craftChar 0x08, .craftChar 0x0D, .craftChar 0x7F, .hold (10 ^ 80), .free (10 ^ 80),
      .showSeg (10 ^ 80), .showXp (10 ^ 80), .showTap (10 ^ 80), .poll (10 ^ 80), .test (10 ^ 80) 0 true, .test 0 (10 ^ 80) true,
      .watchNEvent (10 ^ 80) 0 1 1 true true, .watchNEvent 0 (10 ^ 80) 1 1 true true, .watchNEvent 0 0 (10 ^ 80) 1 true true,
      .watchNEvent 0 0 1 128 true true, .watchNGuard (10 ^ 80) 0 1 true true, .watchNGuard 0 (10 ^ 80) 1 true true,
      .watchNGuard 0 0 (10 ^ 80) true true, .watchNOff (10 ^ 80), .release (10 ^ 80), .drop (10 ^ 80),
      .ident (10 ^ 80) true].all (fun i => !i.wellFormed) = true := by decide +kernel

theorem test_wellFormed_accepts :
    [Instr.status 1, .setTime 1 (2 ^ 32 - 1) 255, .loadTransponder 1 ⟨255, 65535, 255, 255, 255, -32768, 32767, 255⟩,
      .linkBadLength 603, .linkBadLength 1, .powerOn calm, .dwellTimerExpiry 96, .headerFieldProgrammed good,
      .erasePageDone .b [(4095, 0)] [], .craftChar 0x41, .test 900 3 true, .ident 1 true].all (fun i => i.wellFormed) = true := by
  decide +kernel

/-! ## Witnesses: steps, the link, the operating states -/

theorem test_idleStep_witness : (town .run).pending = [] := by decide +kernel

theorem test_stepKeepsSound_witness : Sound (town .run) ∧ ∃ t, step (town .run) = .next t := ⟨sound_of (by decide +kernel), _, rfl⟩

theorem test_orderWaits_witness :
    (Instr.status 1).order = some (1, .status)
    ∧ (let s := { town .run with link.inFlight := some (tagged 9 .go), link.waiting := List.replicate 3 (tagged 2 .go) }
      s.link.inFlight ≠ none ∧ s.link.waiting.length < 4)
    ∧ (let s := { town .run with link.resetPending := true, link.waiting := List.replicate 4 (tagged 2 .go),
                                 link.replies := List.replicate 6 ⟨0x81, 1, [0]⟩ }
      s.link.resetPending = true ∧ s.link.waiting.length = 4 ∧ s.link.replies.length < 7)
    ∧ (let s := { town .run with link.resetPending := true, link.waiting := List.replicate 4 (tagged 2 .go),
                                 link.replies := List.replicate 7 ⟨0x81, 1, [0]⟩ }
      s.link.waiting.length = 4 ∧ 7 ≤ s.link.replies.length) := by decide +kernel

theorem test_gate_witness :
    ((Instr.noticeMask 1 2 0).order = some (1, .noticeMask 2 0) ∧ Quiet (bare .starting) ∧ (bare .starting).link.op = .starting
      ∧ Order.noticeMask 2 0 ≠ .status ∧ Order.noticeMask 2 0 ≠ .identity)
    ∧ ((Instr.setParams 1 ⟨none, none, none, none, none, none⟩).order = some (1, .setParams ⟨none, none, none, none, none, none⟩)
      ∧ Quiet (bare .unset) ∧ (bare .unset).link.op = .unset ∧ 6 < orderKind (.setParams ⟨none, none, none, none, none, none⟩))
    ∧ ((Instr.closePeriod 1).order = some (1, .closePeriod) ∧ Quiet (town .loading) ∧ (town .loading).link.op = .loading)
    ∧ ((Instr.go 1).order = some (1, .go) ∧ Quiet (town .run) ∧ (town .run).link.op = .run) := by
  repeat' apply And.intro
  all_goals first | decide +kernel | exact quiet_of (by decide +kernel)

theorem test_bodiesReadBack_witness :
    WellFormed.order (.setTime 4294967295 255) = true ∧ WellFormed.order .go = true := by decide +kernel

theorem test_frameCarries_witness :
    (Instr.status 7).order = some (7, .status) ∧ (Instr.status 7).wellFormed = true ∧ (∀ b ∈ [(1 : Byte), 2], b ≠ 0xC3)
    ∧ Quiet (bare .starting) := by
  repeat' apply And.intro
  all_goals first | decide +kernel | exact quiet_of (by decide +kernel)

theorem test_brokenFrames_witness :
    (([] : List Byte).length ≤ 600 ∧ 65535 < 65536 ∧ 65535 ≠ (crc16 (u16 2 ++ [(1 : Byte), 7] ++ [])).toNat)
    ∧ ((List.replicate 600 (0 : Byte)).length ≤ 600)
    ∧ Quiet (town .run) ∧ Quiet (town .loading) ∧ Working (town .run) ∧ Working (town .loading)
    ∧ ((0 : Byte) = 0 ∧ 49 < (50 : Byte).toNat)
    ∧ (1 ≤ (1 : Byte).toNat ∧ (1 : Byte).toNat ≤ 49 ∧ bodyLengths[(1 : Byte).toNat - 1]? ≠ some [(0 : Byte)].length)
    ∧ (1 ≤ (49 : Byte).toNat ∧ (49 : Byte).toNat ≤ 49 ∧ bodyLengths[(49 : Byte).toNat - 1]? ≠ some [(0 : Byte)].length) := by
  repeat' apply And.intro
  all_goals first | decide +kernel | exact quiet_of (by decide +kernel) | exact .inr rfl | exact .inl rfl

/-- A reply other than that to RESET. -/
def anyReply : Reply := ⟨0x81, 1, [0]⟩

theorem test_outbound_witness :
    (∀ x, OutFrame.reply anyReply = .reply x → ¬(x.kind = 0x85 ∧ x.body = [0]))
    ∧ (let s := { town .run with link.outbound := some (.reply anyReply), link.replies := [anyReply] }
      s.link.outbound = some (.reply anyReply) ∧ s.link.waiting = [] ∧ s.link.replies = [anyReply])
    ∧ (let s := { town .run with link.outbound := some (.reply anyReply), link.urgent := [⟨1, true, none, []⟩] }
      s.link.outbound = some (.reply anyReply) ∧ s.link.replies = [] ∧ s.link.urgent = [⟨1, true, none, []⟩])
    ∧ (let s := { town .run with link.outbound := some (.reply anyReply), link.routine := [⟨2, false, none, []⟩] }
      s.link.replies = [] ∧ s.link.urgent = [] ∧ s.link.routine = [⟨2, false, none, []⟩])
    ∧ (let s := { town .run with link.outbound := some (.reply anyReply) }
      s.link.replies = [] ∧ s.link.urgent = [] ∧ s.link.routine = []) := by
  refine ⟨fun x h => ?_, by decide +kernel⟩
  cases h; decide

/-- A busy link with so many notices of each class queued. -/
def notices (u r : Nat) (on : Bool) : State :=
  { town .run with
    link.outbound := some (.reply anyReply), link.urgentOn := on, link.routineOn := on
    link.urgent := List.replicate u ⟨1, true, none, []⟩, link.routine := List.replicate r ⟨2, false, none, []⟩ }

theorem test_notices_witness :
    ((notices 0 0 false).link.urgentOn = false ∧ (notices 0 0 false).link.routineOn = false)
    ∧ ((notices 31 0 true).link.urgentOn = true ∧ (notices 31 0 true).link.routineOn = true
      ∧ (notices 31 0 true).link.urgent.length + (notices 31 0 true).link.routine.length < 32)
    ∧ (32 ≤ (notices 30 2 true).link.urgent.length + (notices 30 2 true).link.routine.length)
    ∧ (32 ≤ (notices 32 0 true).link.urgent.length ∧ (notices 32 0 true).link.routine = [])
    ∧ (notices 31 1 true).link.routine = ⟨2, false, none, []⟩ :: [] := by decide +kernel

theorem test_maskAckReset_witness : Quiet (bare .unset) ∧ (bare .unset).link.op ≠ .starting :=
  ⟨quiet_of (by decide +kernel), by decide +kernel⟩

/-- The town with something in hand when a reset comes. -/
def cutShort (item : StoreItem) : State := { town .run with store.path := .append, store.queue := [item] }

/-- Bank B after a power loss: its header bytes 13 and 14 as a scan needs them, with records of its two regions. -/
def foundB (close closing : Bool) (cells : List Host.Cell) : State :=
  { bare .starting with
    store.b.cells := [(0, 0), (1, 9), (2, 0), (3, 0), (4, 0), (5, 0x13), (6, 0x88), (7, 0)]
      ++ (if close then [(8, 0), (9, 0), (10, 0x13), (11, 0x99), (12, 0)] else []) ++ [(13, 0)]
      ++ (if closing then [(14, 0)] else []) ++ cells }

/-- A committed STATEMENT header of account 9 with one line, at slot 16,384, and its TIER_LINE record behind it. -/
def oneHeader : List Host.Cell := [(524288, 0x41), (524289, 0), (524290, 0), (524291, 0), (524292, 9), (524316, 1), (524319, 0x0F)]

/-- The TIER_LINE record of `oneHeader`. -/
def oneLine : List Host.Cell := [(524320, 0x42), (524351, 0x0F)]

/-- A CLOSE record at slot 16,386. -/
def oneClose : List Host.Cell := [(524352, 0x43), (524383, 0x0F)]

theorem test_resets_witness :
    (let s := { town .run with link.outbound := some (.reply ⟨0x85, 4, [0]⟩) }
    s.store.path = .idle ∧ s.store.a.page = none ∧ s.link.outbound = some (.reply ⟨0x85, 4, [0]⟩)
      ∧ (⟨0x85, 4, [0]⟩ : Reply).kind = 0x85 ∧ (⟨0x85, 4, [0]⟩ : Reply).body = [0])
    ∧ (let s := cutShort (.record (List.replicate 31 5) .other)
      memoryWf s = true ∧ s.store.path = .append ∧ openBank s = some .a
        ∧ inHand s = some (.a, 160, List.replicate 31 5 ++ [0x0F]) ∧ cellGet (bank s .a).cells (160 + 31) = 0xFF)
    ∧ (let s := cutShort (.header .b (.closeMinute 5000))
      memoryWf s = true ∧ inHand s = some (.b, 8, [0, 0, 0x13, 0x88, 0]))
    ∧ (let s := cutShort (.header .a .closing)
      memoryWf s = true ∧ inHand s = some (.a, 14, [0]) ∧ cellGet (bank (tearSlot [0x0F] s) .a).cells 14 = 0x0F)
    ∧ (cutShort (.identity .lockA 9)).store.queue = .identity .lockA 9 :: []
    ∧ (∀ p ∈ [0, 255], (let b : Bank := { cells := [(2, 0), (16, 0)], state := .erasing, page := some p }
      cellsWf b.cells = true ∧ b.page = some p ∧ bankStateOf b = .erasing))
    ∧ (2 < 1048576 ∧ cellGet ({ cells := [(2, 0)] } : Bank).cells 2 ≠ 0xFF ∧ hdr ({ cells := [(2, 0)] } : Bank) 13 = 0xFF) := by
  decide +kernel

theorem test_blankBank_witness :
    cellsWf ({} : Bank).cells = true ∧ ∀ a, a < 1048576 → cellGet ({} : Bank).cells a = 0xFF := ⟨rfl, fun _ _ => rfl⟩

theorem test_recovery_witness :
    (let s := foundB false false [(32, 5), (64, 0), (95, 0x0F)]
    memoryWf s = true ∧ s.store.fault = false ∧ (∀ j < 3, 1 ≤ j → j ≠ 1 → slotState (bank s .b) j ≠ 0xFF)
      ∧ slotState (bank s .b) 1 = 0xFF ∧ slotErased (bank s .b) 1 = false ∧ slotErased (bank s .b) 3 = true)
    ∧ ((1 : Byte) ≠ 0xFF ∧ (1 : Byte) ≠ 0x0F)
    ∧ (∀ s ∈ [foundB false false [], foundB true false [], foundB true true oneHeader, foundB true true (oneHeader ++ oneLine),
        foundB true true (oneHeader ++ oneLine ++ oneClose)],
      s.link.waiting = [] ∧ s.link.op = .starting ∧ s.store.scan = .reading ∧ s.store.queue = [] ∧ s.store.path = .idle
        ∧ s.store.fault = false ∧ s.engine.state = .idle ∧ memoryWf s = true ∧ slotErased (bank s .b) 1 = true
        ∧ s.schedule.alertInput = false ∧ bankStateOf (bank s .a) = .free)
    ∧ (bankStateOf (foundB false false []).store.b = .open_ ∧ hdr (foundB false false []).store.b 12 = 0xFF)
    ∧ (bankStateOf (foundB true false []).store.b = .open_ ∧ hdr (foundB true false []).store.b 12 ≠ 0xFF)
    ∧ (bankStateOf (foundB true true []).store.b = .closing ∧ slotErased (foundB true true []).store.b 16384 = true)
    ∧ (let s := { foundB true true [] with store.a.cells := [(2, 0)] }
      bankStateOf s.store.a = .erasing ∧ bankStateOf s.store.b = .closing ∧ memoryWf s = true)
    ∧ (let b := (foundB true true oneHeader).store.b
      committedSlots b 16384 16384 = [16384] ∧ cellGet b.cells (32 * 16384) = 0x41 ∧ slotErased b 16385 = true
        ∧ fld (slotBytes b 16384) 28 1 = 1)
    ∧ (let b := (foundB true true (oneHeader ++ oneLine)).store.b
      committedSlots b 16384 16384 = [16384, 16385] ∧ cellGet b.cells (32 * 16385) = 0x42 ∧ slotErased b 16386 = true)
    ∧ (let b := (foundB true true (oneHeader ++ oneLine ++ oneClose)).store.b
      committedSlots b 16384 16384 = [16384, 16385, 16386] ∧ cellGet b.cells (32 * 16386) = 0x43 ∧ slotErased b 16387 = true)
    ∧ (let s := foundB false false []
      bankStateOf s.store.b = .open_ ∧ bankStateOf { s.store.a with cells := s.store.b.cells } = .open_) := by decide +kernel

/-- A recovery scan that waits for what it restarted. -/
def awaited (item : List StoreItem) (a b : Bank) : State :=
  { bare .starting with
    store.scan := .waiting, store.path := if item = [] then .idle else .append, store.queue := item
    engine.state := .computing, store.a := a, store.b := b }

theorem test_recoveryWaits_witness :
    (∀ s ∈ [awaited [.header .b .closing] {} { state := .open_ }, awaited [.header .b .closing] { state := .erasing } { state := .open_ }],
      s.link.waiting = [] ∧ s.link.op = .starting ∧ s.store.scan = .waiting ∧ s.store.fault = false ∧ s.store.path = .append
        ∧ s.store.queue = [.header .b .closing]
        ∧ (let wrote : Bank := { bank s .b with cells := cellsAnd (bank s .b).cells 14 [0] }
          hdr wrote 14 ≠ 0xFF ∧ committedSlots wrote 16384 16384 = [])
        ∧ ((bank s .a).state = .free ∨ (bank s .a).state = .erasing))
    ∧ (let s := awaited [] { state := .erasing, page := some 0 } { state := .closing }
      s.link.op = .starting ∧ (bank s .b).state = .closing ∧ (bank s .a).page = some 0 ∧ s.store.queue = [] ∧ s.store.path = .idle)
    ∧ (let s := awaited [.header .a .opened] {} { state := .closing }
      (bank s .b).state = .closing ∧ s.store.path = .append ∧ s.store.queue = [.header .a .opened]
        ∧ hdr { bank s .a with cells := cellsAnd (bank s .a).cells 13 [0] } 13 ≠ 0xFF
        ∧ hdr { bank s .a with cells := cellsAnd (bank s .a).cells 13 [0] } 7 = 0xFF ∧ s.engine.state = .computing
        ∧ s.engine.closeDone = false ∧ s.schedule.alertInput = false) := by decide +kernel

theorem test_statusIdentity_witness : Quiet (bare .starting) := quiet_of (by decide +kernel)

theorem test_setTime_witness :
    (Quiet (town .run) ∧ (town .run).link.op ≠ .starting ∧ 59 < 60)
    ∧ (let s := { town .run with store.minute := 5000 }
      openBank s ≠ none ∧ 4999 < s.store.minute ∧ s.link.op = .run ∧ minuteOf s + 1440 < 6441)
    ∧ (Quiet (bare .unset) ∧ openBank (bare .unset) = none ∧ (bare .unset).time.clock = none ∧ (bare .unset).link.op = .unset)
    ∧ (59 ≤ 59 ∧ (openBank (town .run) ≠ none → (town .run).store.minute ≤ 5000) ∧ (town .run).time.clock = some (5000, 7)
      ∧ Working (town .run) ∧ 5000 ≤ 5000)
    ∧ (5000 < 6440 ∧ ((town .run).link.op = .run → 6440 ≤ minuteOf (town .run) + 1440))
    ∧ (∀ s ∈ [{ town .unset with store.minute := 5000 }, { town .unset with store.minute := 5000, store.a.cells := [(2, 0), (13, 0)] },
        { town .unset with store.minute := 5000, store.fault := true }],
      openBank s = some .a ∧ s.store.minute ≤ 5000 ∧ s.time.clock = none ∧ s.link.op = .unset ∧ s.link.inFlight = none
        ∧ s.link.waiting = [] ∧ s.link.resetPending = false ∧ s.link.replies = [] ∧ 257 < freeSlots s) := by
  repeat' apply And.intro
  all_goals first | decide +kernel | exact quiet_of (by decide +kernel) | exact .inr rfl

theorem test_setParams_witness : Quiet (town .loading) ∧ Working (town .loading) := ⟨quiet_of (by decide +kernel), .inl rfl⟩

/-! ## Witnesses: the line-up -/

theorem test_loadChannel_witness :
    Quiet (town .loading) ∧ Sound (town .loading) ∧ (town .loading).link.op = .loading
    ∧ (let p : LoadChannelArgs := ⟨96, 255, 0x1F, 0x80, 1, 2⟩
      1 ≤ p.channel ∧ p.channel ≤ 96 ∧ sourceArg p.source = some none ∧ classArg p.cls = some (.tier 15)
        ∧ flagArg p.eligible = some true ∧ p.request ≤ 2)
    ∧ (let p : LoadChannelArgs := ⟨1, 63, 0, 0, 0, 0⟩
      1 ≤ p.channel ∧ p.channel ≤ 96 ∧ sourceArg p.source = some (some 63) ∧ classArg p.cls = some .dark
        ∧ flagArg p.eligible = some false ∧ p.request ≤ 2)
    ∧ (Quiet (town .run) ∧ (town .run).link.op = .run)
    ∧ (∀ p ∈ [(⟨0, 5, 0, 0, 0, 0⟩ : LoadChannelArgs), ⟨97, 5, 0, 0, 0, 0⟩, ⟨1, 64, 0, 0, 0, 0⟩, ⟨1, 254, 0, 0, 0, 0⟩, ⟨1, 5, 3, 0, 0, 0⟩,
        ⟨1, 5, 15, 0, 0, 0⟩, ⟨1, 5, 32, 0, 0, 0⟩, ⟨1, 5, 0, 0, 2, 0⟩, ⟨1, 5, 0, 0, 0, 3⟩],
      p.channel < 1 ∨ 96 < p.channel ∨ (63 < p.source ∧ p.source ≠ 255) ∨ (2 < p.cls ∧ p.cls < 16) ∨ 31 < p.cls ∨ 1 < p.eligible
        ∨ 2 < p.request) := by
  repeat' apply And.intro
  all_goals first | decide +kernel | exact quiet_of (by decide +kernel) | exact sound_of (by decide +kernel)

/-- Channel 96 ramping alone at a level, with these commands queued and these deferred. -/
def reversing (carrier : Carrier) (level : Nat) (phase : RampPhase) (q : List MatrixCmd) (inTransfer : Bool) (d : List Deferred) : State :=
  withChannel 96 (fun c => { c with carrier := carrier, level := level })
    { town .run with
      lineup.ramps := [⟨96, carrier = .rampUp, phase, level, 20⟩]
      lineup.queue := q, lineup.inTransfer := inTransfer, lineup.deferred := d }

/-- What every clause of a reversal asks of its state. -/
def reversible (s : State) (up : Bool) : Bool :=
  decide (s.link.op = .run) && decide ((chan s 96).carrier = (if up then .rampDown else .rampUp)) && decide (s.lineup.rampQueue = [])
    && (match s.lineup.ramps with | [r] => decide (r.channel = 96) | _ => false)

theorem test_reversal_witness :
    (∀ x ∈ [(Carrier.rampUp, 0), (.rampUp, 7), (.rampDown, 8), (.rampDown, 1)],
      (let s := reversing x.1 x.2 .dwell (List.replicate 255 (.level 4 3 false)) true []
      reversible s (x.1 = .rampDown) = true ∧ s.lineup.deferred = [] ∧ s.lineup.queue.length < 256))
    ∧ (∀ x ∈ [(Carrier.rampUp, 0), (.rampUp, 7), (.rampDown, 8), (.rampDown, 1)],
      (let s := reversing x.1 x.2 .command ([.level 4 3 false] ++ .level 96 5 true :: [.route 9 none]) true []
      reversible s (x.1 = .rampDown) = true ∧ s.lineup.inTransfer = true ∧ [MatrixCmd.level 4 3 false] ≠ []
        ∧ (∀ m ∈ [MatrixCmd.level 4 3 false] ++ [.route 9 none], isStepOf 96 m = false)))
    ∧ (let s := reversing .rampUp 3 .command ([] ++ .level 96 5 true :: List.replicate 255 (.level 4 3 false)) false [⟨4, false⟩]
      reversible s false = true ∧ s.lineup.deferred = ⟨4, false⟩ :: [] ∧ (⟨96, true⟩ : Deferred) ∉ ([] : List Deferred)
        ∧ s.lineup.queue.length = 256)
    ∧ (∀ n ∈ [255, 256], (let s := reversing .rampDown 8 .command (List.replicate n (.level 4 3 false)) true ([⟨4, false⟩] ++ ⟨96, true⟩ :: [⟨5, false⟩])
      reversible s true = true ∧ (unsent s).any (isStepOf 96) = false ∧ s.lineup.deferred = [⟨4, false⟩] ++ ⟨96, true⟩ :: [⟨5, false⟩]
        ∧ (⟨96, true⟩ : Deferred) ∉ [⟨4, false⟩] ++ [⟨5, false⟩] ∧ s.lineup.queue.length = n))
    ∧ (let s := reversing .rampUp 3 .command (.level 96 4 true :: [.route 9 none]) true [⟨4, false⟩]
      reversible s false = true ∧ s.lineup.inTransfer = true ∧ s.lineup.queue = .level 96 4 true :: [.route 9 none]
        ∧ [MatrixCmd.route 9 none].any (isStepOf 96) = false ∧ (⟨96, true⟩ : Deferred) ∉ s.lineup.deferred)
    ∧ (let s := reversing .rampUp 3 .dwell [] false []
      Quiet s ∧ Sound s ∧ 1 ≤ 96 ∧ 96 ≤ 96)
    ∧ (let s := reversing .rampUp 3 .command [.route 96 none] true [⟨96, true⟩, ⟨4, false⟩]
      Sound s ∧ s.link.waiting = [] ∧ s.lineup.fault = false ∧ s.link.op = .run ∧ s.lineup.queue = .route 96 none :: []
        ∧ s.lineup.inTransfer = true ∧ s.lineup.deferred = ⟨96, true⟩ :: [⟨4, false⟩])
    ∧ (let s := reversing .rampUp 3 .dwell (List.replicate 256 (.level 4 3 false)) true []
      Sound s ∧ rampOf s 96 = some ⟨96, true, .dwell, 3, 20⟩ ∧ s.lineup.queue.length = 256) := by
  repeat' apply And.intro
  all_goals first | decide +kernel | exact quiet_of (by decide +kernel) | exact sound_of (by decide +kernel)

/-- A full matrix queue of LEVEL commands. -/
def fullQueue : State := { town .run with lineup.queue := List.replicate 256 (.level 4 3 false) }

theorem test_setChannel_witness :
    (let p : SetChannelArgs := ⟨96, some 3, none, none, none⟩
    let e (s : State) : Channel := { chan s 96 with source := some 3 }
    setChannelLegal p = true
    ∧ (Quiet (town .loading) ∧ Sound (town .loading) ∧ Working (town .loading) ∧ (town .loading).link.op = .loading)
    ∧ (Quiet (town .run) ∧ Sound (town .run) ∧ Working (town .run) ∧ (town .run).link.op = .run
      ∧ routeOf false (e (town .run)) ≠ (chan (town .run) 96).route ∧ (unsent (town .run)).any (isRouteOf 96) = false
      ∧ (town .run).lineup.queue.length < 256)
    ∧ (Quiet fullQueue ∧ Sound fullQueue ∧ routeOf false (e fullQueue) ≠ (chan fullQueue 96).route
      ∧ (unsent fullQueue).any (isRouteOf 96) = false ∧ fullQueue.lineup.deferred.contains ⟨96, false⟩ = false
      ∧ fullQueue.lineup.queue.length = 256)) := by
  repeat' apply And.intro
  all_goals first | decide +kernel | exact quiet_of (by decide +kernel) | exact sound_of (by decide +kernel) | exact .inr rfl | exact .inl rfl

/-- The town with these commands in the matrix queue and on the deferred list. -/
def queueing (q : List MatrixCmd) (inTransfer : Bool) (d : List Deferred) : State :=
  { town .run with lineup.queue := q, lineup.inTransfer := inTransfer, lineup.deferred := d, lineup.ready := true }

theorem test_setChannelQueue_witness :
    (∀ p ∈ [(⟨97, none, none, none, none⟩ : SetChannelArgs), ⟨0, none, none, none, none⟩, ⟨1, some 64, none, none, none⟩],
      setChannelLegal p = false)
    ∧ (let s := queueing [.route 96 none] false []
      Quiet s ∧ Sound s ∧ Working s ∧ (unsent s).any (isRouteOf 96) = true)
    ∧ (let s := queueing [.route 96 none, .route 96 (some 4)] true []
      Quiet s ∧ Sound s ∧ Working s ∧ (unsent s).any (isRouteOf 96) = true)
    ∧ (let s := queueing (List.replicate 256 (.level 4 3 false)) true [⟨96, false⟩]
      Quiet s ∧ Sound s ∧ Working s ∧ (unsent s).any (isRouteOf 96) = false ∧ s.lineup.deferred.contains ⟨96, false⟩ = true
        ∧ s.lineup.queue.length = 256 ∧ routeOf s.schedule.active { chan s 96 with source := some 3 } ≠ (chan s 96).route) := by
  repeat' apply And.intro
  all_goals first | decide +kernel | exact quiet_of (by decide +kernel) | exact sound_of (by decide +kernel) | exact .inr rfl

theorem test_carrier_witness :
    (∀ k ∈ [Carrier.off, .waitUp, .rampUp, .on, .waitDown, .rampDown],
      (chan (withChannel 96 (fun c => { c with carrier := k }) (town .loading)) 96).carrier = k
      ∧ (withChannel 96 (fun c => { c with carrier := k }) (town .loading)).link.op = .loading)
    ∧ Quiet (withChannel 96 (fun c => { c with carrier := .waitDown }) (town .loading))
    ∧ Sound (withChannel 96 (fun c => { c with carrier := .waitDown }) (town .loading))
    ∧ (let s := { town .run with lineup.ramps := [⟨4, true, .dwell, 3, 20⟩], lineup.queue := List.replicate 255 (.level 4 3 false) }
      Quiet s ∧ Sound s ∧ s.link.op = .run ∧ 1 ≤ 1 ∧ 1 ≤ 96 ∧ (chan s 1).carrier = .off ∧ s.lineup.fault = false
        ∧ s.lineup.rampQueue = [] ∧ s.lineup.ramps.length < 2 ∧ (∀ r ∈ s.lineup.ramps, r.channel ≠ 1)
        ∧ s.lineup.queue.length < 256)
    ∧ (Quiet (town .run) ∧ Working (town .run) ∧ ∀ x ∈ [(0, 0), (97, 0), (1, 2)], x.1 < 1 ∨ 96 < x.1 ∨ 1 < x.2) := by
  repeat' apply And.intro
  all_goals first
    | decide +kernel
    | exact quiet_of (by decide +kernel)
    | exact sound_of (by decide +kernel)
    | exact .inr rfl

/-- A matrix line with a queue, its head in transfer or not. -/
def matrix (q : List MatrixCmd) (inTransfer : Bool) : State :=
  { town .run with lineup.queue := q, lineup.inTransfer := inTransfer, lineup.readyTimer := some 1 }

theorem test_readyLine_witness :
    (Sound (matrix [] false) ∧ (matrix [] false).link.waiting = [] ∧ (matrix [] false).lineup.fault = false
      ∧ (matrix [] false).lineup.queue = [] ∧ (matrix [] false).lineup.inTransfer = false)
    ∧ (let s := matrix [.route 96 (some 5)] false
      Sound s ∧ s.lineup.queue ≠ [] ∧ s.lineup.inTransfer = false ∧ s.link.op = .run)
    ∧ (let s := matrix [.route 96 none, .level 1 3 false] true
      Sound s ∧ s.lineup.queue = .route 96 none :: [.level 1 3 false] ∧ s.lineup.inTransfer = true ∧ s.lineup.deferred = []
        ∧ s.link.op = .run ∧ 1 ≤ 96 ∧ 96 ≤ 96)
    ∧ (∀ m ∈ [MatrixCmd.route 1 none, .route 96 (some 63), .level 96 8 true, .level 1 0 false],
      (matrix [m] true).lineup.queue = m :: [] ∧ (matrix [m] true).lineup.inTransfer = true) := by
  repeat' apply And.intro
  all_goals first | decide +kernel | exact sound_of (by decide +kernel)

/-- A matrix line in FAULT with a queue, its head in transfer or not, and these commands deferred. -/
def faulted (q : List MatrixCmd) (inTransfer : Bool) (d : List Deferred) : State :=
  { matrix q inTransfer with lineup.fault := true, lineup.readyTimer := none, lineup.deferred := d }

/-- A ramp step's LEVEL in transfer. -/
def stepping (v : Nat) (up : Bool) : State := { matrix [.level 96 v true] true with lineup.ramps := [⟨96, up, .command, v, 0⟩] }

theorem test_rampSteps_witness :
    (∀ x ∈ [(8, true), (0, false), (7, true), (1, false)],
      (let s := stepping x.1 x.2
      s.link.waiting = [] ∧ s.link.op = .run ∧ s.lineup.fault = false ∧ s.lineup.inTransfer = true ∧ s.lineup.deferred = []
        ∧ s.lineup.queue = [.level 96 x.1 true] ∧ s.lineup.ramps = [⟨96, x.2, .command, x.1, 0⟩] ∧ s.lineup.rampQueue = []))
    ∧ Sound (stepping 8 true) ∧ Sound (stepping 1 false)
    ∧ (let s := matrix [.level 1 3 false] true
      Sound s ∧ s.link.waiting = [] ∧ s.lineup.readyTimer = some 1 ∧ s.lineup.queue = .level 1 3 false :: [])
    ∧ (let s := { matrix [.level 1 3 false] true with lineup.fault := true }
      Sound s ∧ s.lineup.fault = true ∧ s.link.op = .run ∧ s.lineup.queue = .level 1 3 false :: [] ∧ s.lineup.rampQueue = [])
    ∧ (∀ s ∈ [faulted [] false [], faulted [.route 96 none] false [], faulted [.route 96 none, .route 1 none] true [],
        faulted [.route 96 none, .route 96 (some 5)] true [],
        faulted (.route 96 none :: .route 96 (some 5) :: List.replicate 254 (.level 4 3 false)) true [⟨4, true⟩, ⟨9, false⟩]],
      s.lineup.fault = true ∧ s.link.op = .run ∧ s.link.waiting = [])
    ∧ (Sound (faulted [] false []) ∧ (faulted [] false []).lineup.queue = [])
    ∧ ((faulted [.route 96 none] false []).lineup.queue = .route 96 none :: []
      ∧ ((faulted [.route 96 none] false []).lineup.inTransfer = false))
    ∧ (let s := faulted [.route 96 none, .route 1 none] true []
      Sound s ∧ s.lineup.queue = .route 96 none :: [.route 1 none] ∧ [MatrixCmd.route 1 none].any (isRouteOf 96) = false)
    ∧ (let s := faulted [.route 96 none, .route 96 (some 5)] true []
      Sound s ∧ s.lineup.queue = .route 96 none :: [.route 96 (some 5)] ∧ s.lineup.inTransfer = true
        ∧ [MatrixCmd.route 96 (some 5)].any (isRouteOf 96) = true ∧ s.lineup.deferred = [])
    ∧ (let q := MatrixCmd.route 96 (some 5) :: List.replicate 254 (.level 4 3 false)
      let s := faulted (.route 96 none :: q) true [⟨4, true⟩, ⟨9, false⟩]
      Sound s ∧ s.lineup.queue = .route 96 none :: q ∧ s.lineup.inTransfer = true ∧ q.any (isRouteOf 96) = true
        ∧ s.lineup.deferred = ⟨4, true⟩ :: [⟨9, false⟩])
    ∧ (let s := { matrix (List.replicate 255 (.level 1 3 false)) true with lineup.ramps := [⟨96, true, .dwell, 3, 1⟩] }
      Sound s ∧ rampOf s 96 = some ⟨96, true, .dwell, 3, 1⟩ ∧ s.lineup.fault = false ∧ s.lineup.queue.length < 256)
    ∧ (let s := { town .run with lineup.settleOpen := true, lineup.settleTimer := some 1 }
      Sound s ∧ s.link.waiting = [] ∧ s.lineup.settleTimer = some 1) := by
  repeat' apply And.intro
  all_goals first | decide +kernel | exact sound_of (by decide +kernel)

/-! ## Witnesses: the schedule, the alert, GO, the clock, the scan -/

/-- A schedule entry for channel 3. -/
def entryAt (id due : Nat) (halt : Bool) : Entry := ⟨id, due, 3, .route (some 4), halt⟩

/-- A controller with these schedule entries, in step mode or not. -/
def withEntries (es : List Entry) (stepMode : Bool) : State :=
  { town .run with schedule.entries := es, schedule.stepMode := stepMode }

theorem test_scheduleAdd_witness :
    (let p : ScheduleArgs := ⟨5001, 96, 2, 255, 1⟩
     1 ≤ p.channel ∧ p.channel ≤ 96 ∧ changeArg p.kind p.value = some (.blackout 255) ∧ flagArg p.halt = some true)
    ∧ Quiet (town .run) ∧ Working (town .run) ∧ minuteOf (town .run) < 5001
    ∧ (withEntries [] true).schedule.stepMode = true
    ∧ (let s := withEntries (List.replicate 128 (entryAt 1 9000 false)) false
      128 ≤ s.schedule.entries.length
        ∧ s.schedule.entries.any (fun x => x.channel = 96 && changeKind x.change = 2 && x.due = 5001) = false)
    ∧ (5000 ≤ minuteOf (town .run) ∧ (town .run).schedule.stepMode = false ∧ ¬ 128 ≤ (town .run).schedule.entries.length)
    ∧ (∀ p ∈ [(⟨5001, 0, 0, 5, 0⟩ : ScheduleArgs), ⟨5001, 97, 0, 5, 0⟩, ⟨5001, 9, 4, 5, 0⟩, ⟨5001, 9, 0, 64, 0⟩, ⟨5001, 9, 0, 254, 0⟩,
        ⟨5001, 9, 1, 3, 0⟩, ⟨5001, 9, 1, 15, 0⟩, ⟨5001, 9, 1, 32, 0⟩, ⟨5001, 9, 2, 256, 0⟩, ⟨5001, 9, 3, 2, 0⟩, ⟨5001, 9, 0, 5, 2⟩],
      p.channel < 1 ∨ 96 < p.channel ∨ 3 < p.kind ∨ (p.kind = 0 ∧ 63 < p.value ∧ p.value ≠ 255)
        ∨ (p.kind = 1 ∧ ((2 < p.value ∧ p.value < 16) ∨ 31 < p.value)) ∨ (p.kind = 2 ∧ 255 < p.value)
        ∨ (p.kind = 3 ∧ 1 < p.value) ∨ 1 < p.halt) := by
  repeat' apply And.intro
  all_goals first | decide +kernel | exact quiet_of (by decide +kernel) | exact .inr rfl

theorem test_scheduleAddDue_witness :
    (∀ p ∈ [(⟨5000, 96, 0, 5, 0⟩ : ScheduleArgs), ⟨0, 1, 1, 0x1F, 1⟩],
      1 ≤ p.channel ∧ p.channel ≤ 96 ∧ (changeArg p.kind p.value).isSome = true ∧ (flagArg p.halt).isSome = true
        ∧ p.due ≤ minuteOf (town .run) ∧ (town .run).schedule.stepMode = false)
    ∧ (let s := withEntries (List.replicate 128 (entryAt 1 9000 false)) false
      s.schedule.stepMode = false ∧ 128 ≤ s.schedule.entries.length
        ∧ s.schedule.entries.any (fun x => x.channel = 1 && changeKind x.change = 1 && x.due = 0) = false) := by decide +kernel

theorem test_scheduleCancel_witness :
    Quiet (withEntries [entryAt 1 10 false, entryAt 2 20 false] true) ∧ Working (withEntries [] true)
    ∧ (∀ e ∈ (withEntries [entryAt 1 10 false] true).schedule.entries, e.id ≠ 2)
    ∧ ((withEntries [entryAt 1 10 false, entryAt 2 20 false] true).schedule.entries = [entryAt 1 10 false] ++ entryAt 2 20 false :: []
      ∧ (entryAt 2 20 false).id = 2 ∧ ∀ x ∈ [entryAt 1 10 false] ++ [], x.id ≠ 2) := by
  repeat' apply And.intro
  all_goals first | decide +kernel | exact quiet_of (by decide +kernel) | exact .inr rfl

theorem test_scheduleList_witness :
    Quiet (withEntries [entryAt 1 10 false] true) ∧ Working (withEntries [] true)
    ∧ (withEntries [entryAt 1 10 false] true).schedule.entries.length ≤ 1 :=
  ⟨quiet_of (by decide +kernel), .inr rfl, by decide +kernel⟩

theorem test_step_witness :
    Quiet (withEntries [] true) ∧ Working (withEntries [] true) ∧ (withEntries [] false).schedule.stepMode = false
    ∧ (withEntries [entryAt 1 5001 false] true).schedule.stepMode = true ∧ minuteOf (withEntries [] true) < 5001
    ∧ ((withEntries [entryAt 1 5000 false] true).schedule.entries = entryAt 1 5000 false :: [] ∧ 5000 ≤ minuteOf (withEntries [] true))
    ∧ (∀ e ∈ (withEntries [entryAt 1 5001 false] true).schedule.entries, minuteOf (withEntries [] true) < e.due) := by
  repeat' apply And.intro
  all_goals first | decide +kernel | exact quiet_of (by decide +kernel) | exact .inr rfl

/-- A state whose event has changed a channel and has not handed it on. -/
theorem changed_of {s : State} (h : Sound s) : SoundAt true { s with lineup.changed := true } :=
  ⟨h.link, h.second, h.params, h.lineup, h.classes, h.routes, h.schedule, h.watches, h.held, h.craft, h.events, h.tariff, h.memory, rfl⟩

theorem test_applyChange_witness :
    (∀ k ∈ [Change.route none, .cls (.tier 15), .blackout 255], ∀ on, k ≠ .carrier on)
    ∧ Sound (town .loading) ∧ SoundAt true { town .run with lineup.changed := true } ∧ (town .loading).link.op ≠ .run
    ∧ (∀ s ∈ [queueing [.route 96 none] false [], queueing [.route 96 none, .route 96 (some 4)] true []],
      s.link.op = .run ∧ routeOf s.schedule.active { chan s 96 with source := some 63 } ≠ (chan s 96).route
        ∧ (unsent s).any (isRouteOf 96) = true)
    ∧ Sound (queueing [.route 96 none] false []) ∧ Sound (queueing [.route 96 none, .route 96 (some 4)] true [])
    ∧ (let s := queueing [.route 96 none] true []
      Sound s ∧ s.link.op = .run ∧ (unsent s).any (isRouteOf 96) = false ∧ s.lineup.queue.length < 256
        ∧ routeOf s.schedule.active { chan s 96 with source := some 63 } ≠ (chan s 96).route)
    ∧ (∀ d ∈ [[], [(⟨96, false⟩ : Deferred)]], (let s := queueing (List.replicate 256 (.level 4 3 false)) true d
      s.link.op = .run ∧ (unsent s).any (isRouteOf 96) = false ∧ s.lineup.queue.length = 256
        ∧ routeOf s.schedule.active { chan s 96 with source := some 63 } ≠ (chan s 96).route))
    ∧ Sound (queueing (List.replicate 256 (.level 4 3 false)) true [⟨96, false⟩])
    ∧ (Quiet (town .run) ∧ Working (town .run) ∧ 1 ≤ 96 ∧ 96 ≤ 96) := by
  repeat' apply And.intro
  all_goals first
    | decide +kernel
    | exact quiet_of (by decide +kernel)
    | exact sound_of (by decide +kernel)
    | exact changed_of (sound_of (by decide +kernel))
    | exact .inr rfl
    | (intro k hk on h; subst h; simp at hk)

theorem test_stepModeOff_witness :
    (let s := withEntries [entryAt 1 4999 true, entryAt 2 5000 false, entryAt 3 5001 false] true
    Quiet s ∧ Sound s ∧ Working s ∧ s.schedule.stepMode = true
      ∧ s.schedule.entries = [entryAt 1 4999 true, entryAt 2 5000 false] ++ [entryAt 3 5001 false]
      ∧ (∀ e ∈ [entryAt 1 4999 true, entryAt 2 5000 false], e.due ≤ minuteOf s)
      ∧ ∀ e ∈ [entryAt 3 5001 false], minuteOf s < e.due) ∧ 1 < 2 := by
  repeat' apply And.intro
  all_goals first | decide +kernel | exact quiet_of (by decide +kernel) | exact sound_of (by decide +kernel) | exact .inr rfl

/-- A controller under alert, with these claims. -/
def alerted (op : OpState) (hostClaim : Option ClaimEnd) (lineClaim : Bool) : State :=
  { town op with
    schedule.active := hostClaim.isSome || lineClaim, schedule.hostClaim := hostClaim, schedule.lineClaim := lineClaim
    schedule.alertInput := lineClaim }

theorem test_alertOrders_witness :
    (Quiet (alerted .run none true) ∧ Working (alerted .run none true) ∧ (alerted .run none true).schedule.active = true
      ∧ (alerted .run none true).schedule.hostClaim = none)
    ∧ (let s := alerted .run (some .untilEnd) true
      Quiet s ∧ s.schedule.active = true ∧ s.schedule.hostClaim ≠ none ∧ s.schedule.lineClaim = true) := by
  repeat' apply And.intro
  all_goals first | decide +kernel | exact quiet_of (by decide +kernel) | exact .inr rfl

/-- RUN with channel 2 eligible and its ROUTE unsent or not, so many commands queued. -/
def eligible (claim : Bool) (queued : Nat) : State :=
  withChannel 2 (fun c => { c with eligible := true, source := some 3, route := if claim then some 64 else some 3 })
    { town .run with
      schedule.active := claim, schedule.hostClaim := if claim then some .untilEnd else none
      lineup.queue := List.replicate queued (.level 4 3 false) }

theorem test_alertTransition_witness :
    (∀ d ∈ [0, 121], (let s := alerted .run (some (if d = 0 then .untilEnd else .at 5120)) true
      s.schedule.active = true ∧ s.schedule.hostClaim = some (if d = 0 then ClaimEnd.untilEnd else .at (minuteOf s + if 120 < d then 120 else d))))
    ∧ (∀ on ∈ [true, false], (let s := eligible (!on) 255
      s.link.op = .run ∧ s.schedule.active = !on ∧ s.schedule.hostClaim.isSome = !on ∧ s.schedule.lineClaim = false
        ∧ ((List.range 96).map (· + 1)).filter (fun c => decide ((if on && (chan s c).eligible then some 64 else (chan s c).source) ≠ (chan s c).route)) = [2]
        ∧ (unsent s).any (isRouteOf 2) = false ∧ s.lineup.queue.length + [2].length ≤ 256))
    ∧ Quiet (eligible true 255) ∧ Sound (eligible true 255) ∧ Quiet (eligible false 255) ∧ Sound (eligible false 255) := by
  repeat' apply And.intro
  all_goals first | decide +kernel | exact quiet_of (by decide +kernel) | exact sound_of (by decide +kernel)

theorem test_alertInput_witness :
    ((bare .starting).link.waiting = [] ∧ (bare .starting).link.op = .starting)
    ∧ (alerted .run none true).schedule.lineClaim = true
    ∧ (let s := alerted .run (some (.at 5001)) false
      s.link.waiting = [] ∧ s.link.op ≠ .starting ∧ s.schedule.lineClaim ≠ true ∧ s.schedule.hostClaim ≠ none ∧ s.schedule.active = true)
    ∧ (let s := alerted .loading none true
      Sound s ∧ s.link.waiting = [] ∧ s.link.op = .loading ∧ s.schedule.hostClaim = none
        ∧ s.schedule.active = s.schedule.lineClaim ∧ s.schedule.lineClaim ≠ false)
    ∧ (let s := alerted .loading none false
      Sound s ∧ s.schedule.active = s.schedule.lineClaim ∧ s.schedule.lineClaim ≠ true) := by
  repeat' apply And.intro
  all_goals first | decide +kernel | exact sound_of (by decide +kernel)

/-- LOADING with these segments. -/
def segments (l : List (Nat × Segment)) : State := { town .loading with telemetry.segments := l }

/-- A segment with a parent and a head. -/
def seg (parent head : Option Nat) : Segment := { zone := 0, parent := parent, head := head }

theorem test_go_witness :
    (let l := [(1, seg none none), (2, seg (some 3) none), (3, seg (some 2) none)]
     Quiet (segments l) ∧ (segments l).link.op = .loading
     ∧ l = [(1, seg none none)] ++ (2, seg (some 3) none) :: [(3, seg (some 2) none)]
     ∧ (∀ x ∈ [(1, seg none none)], chainBad l x.1 = none) ∧ chainBad l 2 = some .cycle)
    ∧ (let l := (List.range 9).map (fun k => (k, seg (if k = 0 then none else some (k - 1)) none))
      chainBad l 7 = none ∧ chainBad l 8 = some .depth)
    ∧ chainBad ((List.range 8).map (fun k => (k, seg (some ((k + 1) % 8)) none))) 0 = some .cycle
    ∧ (let l := [(7, seg none (some 5)), (8, seg none (some 5))]
      l = [(7, seg none (some 5))] ++ (8, seg none (some 5)) :: [] ∧ (∀ x ∈ l, chainBad l x.1 = none)
      ∧ (∃ x, tget (segments l).telemetry.transponders 5 = some x ∧ x.enabled = true ∧ x.segment = 7)
      ∧ ¬ ∃ x, tget (segments l).telemetry.transponders 5 = some x ∧ x.enabled = true ∧ x.segment = 8)
    ∧ ((∀ x ∈ (town .loading).telemetry.segments, chainBad (town .loading).telemetry.segments x.1 = none)
      ∧ openBank (town .loading) = some .a)
    ∧ (let s := { bare .loading with store.fault := true }
      Quiet s ∧ openBank s = none ∧ s.store.fault = true ∧ s.telemetry.segments = [])
    ∧ (let s := { bare .loading with store.a.state := .closed, store.b.state := .erasing }
      openBank s = none ∧ s.store.fault = false ∧ s.store.a.state ≠ .free ∧ s.store.b.state ≠ .free)
    ∧ (openBank (bare .loading) = none ∧ (bare .loading).store.fault = false ∧ (bank (bare .loading) .a).state = .free)
    ∧ (let s := { bare .loading with store.a.state := .closed }
      (bank s .b).state = .free ∧ s.store.a.state ≠ .free)
    ∧ (let s := segments []
      Quiet s ∧ Sound s ∧ s.link.op = .loading ∧ openBank s = some .a ∧ s.telemetry.segments = [] ∧ s.lineup.queue = []
        ∧ s.lineup.deferred = [] ∧ s.lineup.rampQueue = [] ∧ s.lineup.inTransfer = false ∧ s.lineup.fault = false) := by
  repeat' apply And.intro
  all_goals first
    | decide +kernel
    | exact quiet_of (by decide +kernel)
    | exact sound_of (by decide +kernel)
    | exact ⟨_, rfl, rfl, rfl⟩
    | (rintro ⟨x, h, -, k⟩; cases h; exact absurd k (by decide))

theorem test_goLineUp_witness :
    (let s := { town .loading with lineup.rampQueue := [96, 1, 2] }
    Quiet s ∧ Sound s ∧ s.link.op = .loading ∧ openBank s = some .a ∧ s.lineup.queue = [] ∧ s.lineup.deferred = []
      ∧ s.lineup.rampQueue ≠ [] ∧ s.lineup.inTransfer = false ∧ s.lineup.fault = false
      ∧ (∀ x ∈ s.telemetry.segments, chainBad s.telemetry.segments x.1 = none))
    ∧ (∃ x, tget (town .loading).telemetry.transponders 5 = some x ∧ x.enabled = true ∧ x.segment = 7)
    ∧ (portOf (town .loading) (60, 3)).isSome = true := by
  repeat' apply And.intro
  all_goals first
    | decide +kernel
    | exact quiet_of (by decide +kernel)
    | exact sound_of (by decide +kernel)
    | exact ⟨_, rfl, by decide⟩

/-- The town at a second of a minute. -/
def atTime (m n : Nat) : State := { town .run with time.clock := some (m, n) }

theorem test_clock_witness :
    ((bare .unset).link.waiting = [] ∧ (bare .unset).time.clock = none)
    ∧ ((atTime 5000 58).time.clock = some (5000, 58) ∧ 58 < 59)
    ∧ ((atTime 4294967294 59).time.clock = some (4294967294, 59) ∧ 59 ≤ 59 ∧ 4294967294 < 4294967295)
    ∧ (atTime 4294967295 59).time.clock = some (4294967295, 59)
    ∧ (withEntries [] true).schedule.stepMode = true
    ∧ ((withEntries [entryAt 1 5001 true] false).schedule.entries = entryAt 1 5001 true :: [] ∧ minuteOf (withEntries [] false) < 5001)
    ∧ ((withEntries [entryAt 1 5000 true] false).schedule.stepMode = false ∧ 5000 ≤ minuteOf (withEntries [] false)
      ∧ (entryAt 1 5000 true).halt = true ∧ (entryAt 1 5000 false).halt = false)
    ∧ ((alerted .run (some (.at 5001)) true).schedule.hostClaim = some (.at 5001) ∧ minuteOf (alerted .run none true) < 5001)
    ∧ (let s := alerted .run (some (.at 5000)) true
      s.schedule.hostClaim = some (.at 5000) ∧ 5000 ≤ minuteOf s ∧ s.schedule.lineClaim = true ∧ s.schedule.active = true)
    ∧ (minuteOf (atTime 5039 0) % 60 ≠ 0)
    ∧ (minuteOf (atTime 5040 0) % 60 = 0 ∧ openBank (atTime 5040 0) = some .a ∧ (atTime 5040 0).store.fault = false
      ∧ 257 < freeSlots (atTime 5040 0))
    ∧ Working (atTime 5040 0) := by
  refine ⟨?_, ?_, ?_, ?_, ?_, ?_, ?_, ?_, ?_, ?_, ?_, .inr rfl⟩ <;> decide +kernel

theorem test_scan_witness :
    (let s := bare .starting
     s.link.waiting = [] ∧ s.link.op = .starting ∧ s.store.scan = .reading ∧ s.store.a.cells = [] ∧ s.store.b.cells = []
       ∧ s.store.queue = [] ∧ s.store.path = .idle ∧ s.engine.state = .idle ∧ s.schedule.alertInput = false
       ∧ s.store.lowMark = false)
    ∧ (let s := { bare .starting with store.b.cells := [(63, 0x0F), (95, 0)] }
      1 ≤ 3 ∧ 3 ≤ 16383 ∧ (∀ j < 3, 1 ≤ j → slotState (bank s .b) j ≠ 0xFF) ∧ slotErased (bank s .b) 3 = true)
    ∧ (slotErased (bank (bare .starting) .a) 1 = true) := by decide +kernel

/-! ## Witnesses: subscribers and events -/

/-- An event on channel 9 in the slots' number 15, in a state, bought by these accounts. -/
def offer (state : EventState) (close : Nat) (bought : List Nat) (op : OpState) : State :=
  { town op with events := (List.replicate 16 none).set 15 (some ⟨9, 4900, 4950, 5100, close, 250, state, bought⟩) }

/-- The journal orders, one of each. -/
def journalOrders : List Instr :=
  [.bind 1 ⟨1, 78, 900, 3, 0, 1, 0⟩, .unbind 1 0, .setState 1 0 2, .setTiers 1 0 3, .purchase 1 0 15, .eventCancel 1 15]

theorem test_journalChecks_witness :
    (Quiet (offer .onSale 5001 [] .run) ∧ (offer .onSale 5001 [] .run).link.op = .run
      ∧ (∀ i ∈ journalOrders, i.order.isSome = true))
    ∧ (let s := { offer .onSale 5001 [] .run with store.fault := true }; Quiet s ∧ s.store.fault = true)
    ∧ (let s := { offer .onSale 5001 [] .run with store.a.append := 16128 }; Quiet s ∧ freeSlots s ≤ 256)
    ∧ (let s := { offer .onSale 5001 [] .run with store.a.append := 16127 }; Quiet s ∧ 256 < freeSlots s)
    ∧ (tget (town .run).subs 0 ≠ none ∧ tget (town .run).subs 2047 = none ∧ 2047 < 2048)
    ∧ (∃ j t r, tapAt (town .run) 900 = some (j, t) ∧ t.ports[2]? = some r ∧ r.slot ≠ none)
    ∧ (∃ x ∈ (town .run).subs, x.2.account = 77)
    ∧ (tapAt (town .run) 901 = none ∧ 3 < 4 ∧ 3 < (4 : Nat))
    ∧ (∀ v, eventOf (offer .ended 5001 [] .run) 15 = some v → v.state ≠ .onSale ∧ v.state ≠ .showing)
    ∧ (∀ u, tget (town .run).subs 1 = some u → u.state ≠ .active)
    ∧ (∀ v, eventOf (offer .onSale 5000 [] .run) 15 = some v → v.close ≤ minuteOf (offer .onSale 5000 [] .run))
    ∧ (tget (offer .showing 5001 [77] .run).subs 0 = some ⟨.active, 77, 900, 2, 1, 5000⟩)
    ∧ (77 ∈ [77] ∧ 77 ∉ (List.range 2048).map (· + 100) ∧ 2048 ≤ ((List.range 2048).map (· + 100)).length)
    ∧ (let s := { offer .showing 5001 [] .run with store.spend := [(77, 4751)] }
      eventOf s 15 = some ⟨9, 4900, 4950, 5100, 5001, 250, .showing, []⟩ ∧ minuteOf s < 5001 ∧ 5000 < spendOf s 77 + 250) := by
  repeat' apply And.intro
  all_goals first
    | decide +kernel
    | exact quiet_of (by decide +kernel)
    | exact ⟨_, _, _, rfl, rfl, by decide⟩
    | (intro v h; cases h; decide)
    | (intro v h; exact absurd h (by decide))

theorem test_journalRecords_witness :
    (let s := { offer .showing 5001 [] .run with store.spend := [(77, 4750)] }
     Quiet s ∧ s.link.op = .run ∧ s.store.fault = false ∧ 256 < freeSlots s
     ∧ tget s.subs 0 = some ⟨.active, 77, 900, 2, 1, 5000⟩ ∧ tapAt s 900 = some (60, { address := 900, segment := 8, ports := [{}, {}, { slot := some 0 }, {}] })
     ∧ eventOf s 15 = some ⟨9, 4900, 4950, 5100, 5001, 250, .showing, []⟩ ∧ spendOf s 77 + 250 ≤ 5000
     ∧ tget s.subs 2047 = none ∧ (∀ x ∈ s.subs, x.2.account ≠ 78))
    ∧ (subStateNum .active ≠ 2 ∧ subStateNum .active = 1 ∧ (1 : TierSet) ≠ 3) := by
  repeat' apply And.intro
  all_goals first | decide +kernel | exact quiet_of (by decide +kernel)

/-- The town at the minute of a period's limit, with bank B in a state. -/
def atLimit (m : Nat) (b : BankState) : State := { atTime m 0 with store.b := { state := b } }

theorem test_boundaries_witness :
    (∀ x ∈ [(EventState.defined, 4900), (.onSale, 4950), (.showing, 5100), (.showing, 5099), (.cancelled, 5100)],
      (let s := { offer x.1 5001 [77] .run with time.clock := some (x.2, 0) }
      (eventOf s 15).map (·.state) = some x.1 ∧ minuteOf s = x.2))
    ∧ (let s := withChannel 96 (fun c => { c with overlay := some 15, eff := .ppv 15 }) (town .run)
      let s := { s with lineup.table := tierTableOf s.lineup.map }
      Sound s ∧ (chan s 96).overlay = some 15 ∧ (chan s 1).overlay ≠ some 15)
    ∧ openBank (bare .run) = none
    ∧ ((town .loading).link.op ≠ .run)
    ∧ (let s := atTime 5003 7
      s.link.op = .run ∧ s.store.fault = false ∧ 257 < freeSlots s ∧ minuteOf s % 60 ≠ 0)
    ∧ (openBank (atLimit 94279 .free) = some .a ∧ ¬ openMinuteOf (bank (atLimit 94279 .free) .a) + 89280 ≤ 94279)
    ∧ (∀ b ∈ [BankState.free, .closed, .closing, .erasing], (let s := atLimit 94280 b
      openBank s = some .a ∧ s.link.op = .run ∧ s.engine.limitTaken = false ∧ s.engine.state ≠ .sequence ∧ s.store.fault = false
        ∧ hdr (bank s .a) 7 ≠ 0xFF ∧ openMinuteOf (bank s .a) + 89280 ≤ minuteOf s ∧ (bank s .b).state = b
        ∧ (s.outage.records.filter (fun r => r.stop.isNone)).length + 257 < freeSlots s)) := by
  repeat' apply And.intro
  all_goals first | decide +kernel | exact sound_of (by decide +kernel)

/-- The record of an order is being programmed. -/
def programming (o : Order) : State :=
  { offer .showing 5001 [] .run with
    link.inFlight := some (tagged 3 o), store.path := .append, store.queue := [.record (List.replicate 31 1) .order] }

theorem test_recordCommits_witness :
    ∀ o ∈ [Order.bind ⟨1, 78, 900, 3, 0, 1, 1000001⟩, .unbind 0, .setState 0 3, .setTiers 0 0xFFFF, .eventCancel 15, .purchase 0 15],
      (let s := programming o
      s.link.waiting = [] ∧ s.link.inFlight = some (tagged 3 o) ∧ s.store.path = .append
        ∧ s.store.queue = [.record (List.replicate 31 1) .order] ∧ openBank s = some .a
        ∧ (List.replicate 31 (1 : Byte)).length = 31 ∧ (bank s .a).append < 16383
        ∧ slotErased (bank s .a) (bank s .a).append = true ∧ memoryWf s = true ∧ s.engine.state = .idle
        ∧ subStateArg 1 = some .active ∧ subStateArg 3 = some .disconnected
        ∧ (tget s.subs 0).isSome = true ∧ (eventOf s 15).isSome = true) := by decide +kernel

theorem test_limits_witness :
    Quiet (town .loading) ∧ Working (town .loading) ∧ Quiet (town .run) ∧ Working (town .run)
    ∧ (town .loading).link.op = .loading ∧ 2047 < 2048 ∧ tget (town .run).subs 2047 = none
    ∧ tget (town .run).subs 0 = some ⟨.active, 77, 900, 2, 1, 5000⟩
    ∧ (tapAt (town .run) 900).isSome = true := by
  repeat' apply And.intro
  all_goals first | decide +kernel | exact quiet_of (by decide +kernel) | exact .inr rfl | exact .inl rfl

theorem test_resync_witness :
    Quiet (town .run) ∧ Working (town .run) ∧ 2047 < 2048 ∧ tget (town .run).subs 2047 = none
    ∧ (tget (town .run).subs 0).isSome = true ∧ (tapAt (town .run) 900).isSome = true ∧ 4095 < 4096
    ∧ tapAt (town .run) 4095 = none := by
  repeat' apply And.intro
  all_goals first | decide +kernel | exact quiet_of (by decide +kernel) | exact .inr rfl

/-- A subscriber's state and a channel's class, the class derived. -/
def derived (state : SubState) (cls : BaseClass) : State :=
  let t := withChannel 96 (fun c => { c with cls := cls, eff := .base cls }) (town .run)
  { t with lineup.table := tierTableOf t.lineup.map, subs := [(0, ⟨state, 77, 900, 2, 1, 5000⟩)] }

theorem test_content_witness :
    (Sound (derived .active (.tier 0)) ∧ tget (derived .active (.tier 0)).subs 0 = some ⟨.active, 77, 900, 2, 1, 5000⟩
      ∧ 1 ≤ 96 ∧ 96 ≤ 96 ∧ (chan (derived .active (.tier 0)) 96).eff = .base (.tier 0))
    ∧ (Sound (derived .suspended .free) ∧ (chan (derived .suspended .free) 96).eff = .base .free)
    ∧ (derived .disconnected .free).subs = [(0, ⟨.disconnected, 77, 900, 2, 1, 5000⟩)]
    ∧ (let t := withChannel 2 (fun c => { c with overlay := some 15, eff := .ppv 15 }) (town .run)
      let s := { t with lineup.table := tierTableOf t.lineup.map }
      Sound s ∧ (chan s 2).eff = .ppv 15 ∧ ∀ d < 2, 1 ≤ d → (chan s d).eff ≠ .ppv 15) := by
  repeat' apply And.intro
  all_goals first | decide +kernel | exact sound_of (by decide +kernel)

/-- Channel 2 in a zone and of a class, or showing event 15, the tier table derived. -/
def classed (cls : BaseClass) (shows : Bool) : State :=
  let c : Channel := { cls := cls, zones := 8, overlay := if shows then some 15 else none }
  let t := withChannel 2 (fun _ => { c with eff := effOf c }) (town .run)
  { t with lineup.table := tierTableOf t.lineup.map }

theorem test_tierTable_witness :
    (∀ k ∈ [BaseClass.dark, .free, .tier 15, .reserved], ∀ x ∈ [true, false], Sound (classed k x))
    ∧ (∃ t, step (classed .free false) = .next t)
    ∧ (Sound (classed .free true) ∧ Sound (classed (.tier 3) true)
      ∧ (classed .free true).lineup.map.map (·.eff) = (classed (.tier 3) true).lineup.map.map (·.eff))
    ∧ (let s := classed .dark true
      (chan s 2).eff = .ppv 15 ∧ s.lineup.map[1]? = some (chan s 2)
        ∧ (∀ j : Fin 96, (s.lineup.map[j.val]?).map (·.eff) = some (.ppv 15) → j = 1) ∧ s.lineup.table.showing[15]? = some (some 2))
    ∧ ((classed .reserved false).lineup.map[1]?.map (·.eff) = some (.base .reserved)
      ∧ (classed .dark false).lineup.map[1]?.map (·.eff) = some (.base .dark))
    ∧ ((tget (classed .free false).telemetry.segments 7).map (·.zone) = some 3
      ∧ (chan (classed .free false) 2).zones.getLsbD 3 = true)
    ∧ (let s := { town .run with link.outbound := some (.reply ⟨0x85, 4, [0]⟩) }
      s.link.outbound = some (.reply ⟨0x85, 4, [0]⟩) ∧ (⟨0x85, 4, [0]⟩ : Reply).kind = 0x85 ∧ (⟨0x85, 4, [0]⟩ : Reply).body = [0]) := by
  refine ⟨?_, ⟨_, rfl⟩, ⟨sound_of (by decide +kernel), sound_of (by decide +kernel), by decide +kernel⟩, by decide +kernel⟩
  simp only [List.forall_mem_cons, List.not_mem_nil, false_implies, implies_true, and_true]
  repeat' apply And.intro
  all_goals exact sound_of (by decide +kernel)

/-- EVENT-DEFINE of event 15 for channel 96 with these minutes. -/
def define (open_ start stop close : Nat) : EventArgs := ⟨15, 96, open_, start, stop, close, 250⟩

theorem test_eventDefine_witness :
    (Quiet (town .run) ∧ Sound (town .run) ∧ Working (town .run))
    ∧ (∀ p ∈ [(⟨16, 96, 0, 0, 0, 0, 0⟩ : EventArgs), ⟨15, 0, 0, 0, 0, 0, 0⟩, ⟨15, 97, 0, 0, 0, 0, 0⟩],
      ¬ (p.event ≤ 15 ∧ 1 ≤ p.channel ∧ p.channel ≤ 96))
    ∧ (eventOf (offer .onSale 5001 [] .run) 15).map (·.state) = some .onSale
    ∧ (∀ w, eventOf (town .run) 15 = some w → ¬ (w.state = .onSale ∨ w.state = .showing))
    ∧ (∀ p ∈ [define 4900 5000 5000 5000, define 4900 4990 5000 5000], ¬ (p.start < p.stop) ∨ p.stop ≤ minuteOf (town .run))
    ∧ (∀ p ∈ [define 5001 5002 5003 5003, define 5000 5001 5002 5002, define 4900 5000 5001 4900],
      p.open_ ≤ p.start ∧ p.start < p.stop ∧ p.open_ ≤ p.close ∧ p.close ≤ p.stop ∧ minuteOf (town .run) < p.stop)
    ∧ (∀ e w, ¬ (e ≠ 15 ∧ eventOf (town .run) e = some w))
    ∧ (let s := { town .run with events := (List.replicate 16 none).set 0 (some ⟨96, 5000, 5000, 5002, 5001, 250, .showing, []⟩) }
      eventOf s 0 = some ⟨96, 5000, 5000, 5002, 5001, 250, .showing, []⟩ ∧ 5000 < (define 4900 5001 5100 5100).stop
        ∧ (define 4900 5001 5100 5100).start < 5002)
    ∧ (cancelFound (town .run) 15 5001 = false ∧ (purchasersFound (town .run) 15 5001).length ≤ 2048)
    ∧ (let s := { town .run with
          store.a.cells := openedA.cells ++ [(32, 3), (33, 0), (34, 0), (35, 0), (36, 0), (37, 15), (38, 0), (39, 0), (40, 0x13), (41, 0x89), (63, 0x0F)] }
      Quiet s ∧ Sound s ∧ cancelFound s 15 5001 = true)
    ∧ Quiet (offer .ended 5001 [] .run) ∧ Sound (offer .ended 5001 [] .run) ∧ eventOf (town .run) 15 = none
    ∧ (eventOf (offer .ended 5001 [] .run) 15).map (·.state) = some .ended := by
  repeat' apply And.intro
  all_goals first
    | decide +kernel
    | exact quiet_of (by decide +kernel)
    | exact sound_of (by decide +kernel)
    | exact .inr rfl
    | (intro w h; exact absurd h (by decide +kernel))
    | skip
  intro e w h
  have : ∀ l : List (Option Event), (∀ x ∈ l, x = none) → l[e]?.join = none := by
    intro l hl; cases k : l[e]? with
    | none => rfl
    | some x => simp [hl x (List.mem_of_getElem? k)]
  exact absurd h.2 (by rw [show eventOf (town .run) e = none from this _ (by decide +kernel)]; simp)

theorem test_eventShows_witness :
    (let p := define 4900 5000 5001 5001
    let s := offer .ended 5001 [] .run
    p.open_ ≤ p.start ∧ p.start < p.stop ∧ p.open_ ≤ p.close ∧ p.close ≤ p.stop ∧ p.start ≤ minuteOf s ∧ minuteOf s < p.stop
      ∧ cancelFound s 15 5000 = false ∧ (purchasersFound s 15 5000).length ≤ 2048
      ∧ steps (.eventDefine 1 p) s (fun t => (chan t 96).overlay = some 15 && (t.lineup.table.showing[15]?).join = some 96)) := by
  repeat' apply And.intro
  all_goals first | decide +kernel | exact quiet_of (by decide +kernel) | exact sound_of (by decide +kernel) | exact .inr rfl

/-! ## Witnesses: the plant line -/

/-- The tap of the town, its four ports given. -/
def tapWith (ports : List Port) : Tap := { address := 900, segment := 8, ports := ports }

/-- The town with these taps. -/
def withTaps (taps : List (Nat × Tap)) : State := { town .run with plant.taps := taps, subs := [] }

/-- A port whose desired content an unbound port does not have, in a sync state with a class. -/
def strayPort (sync : Sync) (cls : Option PClass) (confirmed : Content) : Port :=
  { desired := ⟨true, 5⟩, confirmed := some confirmed, sync := sync, cls := cls }

theorem test_marking_witness :
    (∀ x ∈ [(Sync.inSync, none, false), (.dropped, none, false), (.pending, some .refresh, true), (.pending, some .refresh, false),
        (.pending, some .urgent, false), (.sent, none, false), (.parked, none, false), (.held, none, false), (.dropped, none, true)],
      (let r := strayPort x.1 x.2.1 ⟨!x.2.2, 0⟩
      let t := tapWith [{}, {}, {}, r]
      let s := withTaps [(60, t)]
      tget s.plant.taps 60 = some t ∧ t.ports[3]? = some r ∧ deriveContent s t.segment r.slot ≠ r.desired
        ∧ r.sync = x.1 ∧ r.cls = x.2.1 ∧ (r.confirmed = some (deriveContent s t.segment r.slot) ↔ x.2.2 = true)
        ∧ ¬ (t.unreachable ≠ none ∨ serviceOf s t.segment ≠ .lit)))
    ∧ (let t := { tapWith [strayPort .inSync none ⟨true, 0⟩] with unreachable := some 9 }
      t.unreachable ≠ none ∧ t.ports[0]? = some (strayPort .inSync none ⟨true, 0⟩))
    ∧ (let t := tapWith [{}, {}, {}, {}]
      deriveContent (withTaps [(60, t)]) t.segment none = ({} : Port).desired)
    ∧ (let s := { town .run with lineup.changed := true }
      s.lineup.changed = true ∧ (town .run).lineup.changed = false
        ∧ (∃ t r, tget (rederiveServed s).plant.taps 60 = some t ∧ t.ports[2]? = some r ∧ r.slot = some 0 ∧ r.desired = ⟨true, 0⟩)
        ∧ (tget s.subs 0).any (fun u => u.state ≠ .disconnected) = true) := by
  repeat' apply And.intro
  all_goals first | decide +kernel | exact ⟨_, _, rfl, rfl, rfl, rfl⟩

theorem test_taps_witness :
    Quiet (town .run) ∧ Working (town .run) ∧ 511 < 512 ∧ 4095 < 4096 ∧ 31 < 32
    ∧ tget (town .run).telemetry.segments 31 = none
    ∧ (∃ x ∈ (town .run).telemetry.transponders, x.2.address = 100)
    ∧ (∃ x ∈ (town .run).plant.taps, x.2.address = 900 ∧ x.1 ≠ 511)
    ∧ (tget (town .run).telemetry.segments 8 ≠ none ∧ (∀ x ∈ (town .run).telemetry.transponders, x.2.address ≠ 4095)
      ∧ (∀ x ∈ (town .run).plant.taps, x.2.address = 4095 → x.1 = 511) ∧ tget (town .run).plant.taps 511 = none)
    ∧ (∃ x, tget (town .run).plant.taps 60 = some x ∧ x.address ≠ 901 ∧ ∃ r ∈ x.ports, r.slot ≠ none)
    ∧ (∃ x, tget (withTaps [(60, tapWith [{}, {}, {}, {}])]).plant.taps 60 = some x ∧ x.address ≠ 901
      ∧ ∀ r ∈ x.ports, r.slot = none ∧ r.sync ≠ .sent ∧ r.sync ≠ .held)
    ∧ (∃ x, tget (town .run).plant.taps 60 = some x ∧ x.address = 900 ∧ x.segment = 8 ∧ x.segment ≠ 7)
    ∧ (tapAt (town .run) 901 = none ∧ ∃ j x, tapAt (town .run) 900 = some (j, x)) := by
  repeat' apply And.intro
  all_goals first
    | decide +kernel
    | exact quiet_of (by decide +kernel)
    | exact .inr rfl
    | exact ⟨_, rfl, by decide +kernel⟩
    | exact ⟨_, _, rfl⟩

/-- A port command to port 3 of the town's tap, in a phase of the line. -/
def commanded (line : LineState) (r : Port) : State :=
  { withTaps [(60, tapWith [{}, {}, {}, r])] with
    plant.line := line
    plant.current := some ⟨.portCommand, 900, 60, true, 3, ⟨true, 5⟩, 0, 40, false, []⟩ }

/-- The port whose command is in flight. -/
def sentPort (desired : Content) (attempts : Nat) : Port :=
  { desired := desired, sync := .sent, inFlight := some ⟨true, 5⟩, attempts := attempts, cls := some .urgent }

theorem test_plantLine_witness :
    (∀ l ∈ [LineState.off, .idle, .sending, .turnaround, .window],
      (commanded l (sentPort ⟨true, 5⟩ 0)).link.waiting = []
      ∧ (commanded l (sentPort ⟨true, 5⟩ 0)).plant.current = some ⟨.portCommand, 900, 60, true, 3, ⟨true, 5⟩, 0, 40, false, []⟩
      ∧ (commanded l (sentPort ⟨true, 5⟩ 0)).plant.line = l)
    ∧ (∀ c ∈ [(⟨9, false, true⟩ : PlantChar)], c.wake = false)
    ∧ (let s := commanded .window (sentPort ⟨true, 5⟩ 0)
      tget s.plant.taps 60 = some (tapWith [{}, {}, {}, sentPort ⟨true, 5⟩ 0]) ∧ 900 ≤ 4095 ∧ 3 ≤ 3
        ∧ (tapWith [{}, {}, {}, sentPort ⟨true, 5⟩ 0]).ports[3]? = some (sentPort ⟨true, 5⟩ 0)
        ∧ (sentPort ⟨true, 5⟩ 0).inFlight = some ⟨true, 5⟩ ∧ (sentPort ⟨true, 5⟩ 0).desired = ⟨true, 5⟩)
    ∧ ((sentPort ⟨false, 0⟩ 0).desired ≠ ⟨true, 5⟩
      ∧ parkHolds (commanded .window (sentPort ⟨false, 0⟩ 0)) (tapWith [{}, {}, {}, sentPort ⟨false, 0⟩ 0]) = false
      ∧ parkHolds (commanded .window (sentPort ⟨false, 0⟩ 0))
          { tapWith [{}, {}, {}, sentPort ⟨false, 0⟩ 0] with unreachable := some 1 } = true) := by
  decide +kernel

theorem test_silentPort_witness :
    (let s := commanded .window (sentPort ⟨true, 5⟩ 1)
    s.link.waiting = [] ∧ s.plant.line = .window ∧ tget s.plant.taps 60 = some (tapWith [{}, {}, {}, sentPort ⟨true, 5⟩ 1])
      ∧ (tapWith [{}, {}, {}, sentPort ⟨true, 5⟩ 1]).ports.length = 4 ∧ (sentPort ⟨true, 5⟩ 1).attempts < 2
      ∧ parkHolds s (tapWith [{}, {}, {}, sentPort ⟨true, 5⟩ 1]) = false)
    ∧ (let s := { commanded .window (sentPort ⟨true, 5⟩ 1) with telemetry.segments := [(8, { seg none none with service := .dark })] }
      parkHolds s (tapWith [{}, {}, {}, sentPort ⟨true, 5⟩ 1]) = true)
    ∧ 2 ≤ (sentPort ⟨true, 5⟩ 2).attempts := by decide +kernel

/-- The town with work for the plant line: tap 60 guarded alone, the held list full or not, tap 511 beyond the guard. -/
def busyLine (urgent : List UrgentItem) (refresh : List (Nat × Nat)) (position : Nat) (full : Bool) : State :=
  { town .run with
    plant.taps := [(60, tapWith [{}, {}, {}, {}]), (511, { address := 4095, segment := 8 })]
    subs := []
    plant.urgent := urgent
    plant.refresh := refresh
    plant.position := position
    outage.watches := (List.replicate 8 {}).set 7 ⟨true, some ⟨true, 900, 1, 0, true, true⟩, 255⟩
    outage.held := (List.replicate 15 (some ⟨511, 4095, 0, 7, none, 1⟩)) ++ [if full then some ⟨511, 4095, 1, 7, none, 1⟩ else none] }

/-- The town with tap 60 UNREACHABLE, a probe due or not. -/
def lostTap (due : Bool) (probeCur : Option Nat) : State :=
  { town .run with
    plant.taps := [(60, { tapWith [{}, {}, {}, {}] with unreachable := some 4000 })], subs := []
    plant.probeDue := due, plant.probeCur := probeCur }

/-- The town with a transaction in its reply window. -/
def answering (p : Purpose) (address index : Nat) (toTap : Bool) : State :=
  { town .run with
    plant.line := .window, plant.current := some ⟨p, address, index, toTap, 3, ⟨true, BitVec.allOnes 96⟩, 0, 40, false, []⟩ }

theorem test_plantWork_witness :
    ((town .loading).link.op ≠ .run ∧ (answering .poll 100 5 false).plant.line ≠ .idle)
    ∧ (portOf (busyLine [.port 60 3 false] [] 7 false) (60, 3) = some ({} : Port))
    ∧ ((busyLine [] [] 7 false).outage.watches[6]? = some ({} : WatchEntry) ∧ ({} : WatchEntry).enabled = false
      ∧ ∀ e ∈ (town .run).outage.watches, (e.enabled && e.watch.any (·.guard)) = false)
    -- a poll slot: the next transponder, none above the cursor, a probe
    ∧ (∀ c ∈ [none, some 4, some 5], (let s := { town .run with plant.cursor := c, params.pollShare := 1 }
      s.link.op = .run ∧ s.plant.line = .idle ∧ s.plant.position = 0 ∧ s.plant.position ∈ [0, 2, 4, 6, 1, 3, 5].take s.params.pollShare
        ∧ (s.telemetry.transponders.filter (fun x => x.2.enabled)).map (·.1) = [5] ∧ s.plant.probeDue = false
        ∧ (tget s.telemetry.transponders 5).isSome = true))
    ∧ (∀ c ∈ [none, some 59, some 60], (let s := lostTap true c
      s.link.op = .run ∧ s.plant.line = .idle ∧ s.plant.probeDue = true
        ∧ (s.plant.taps.filter (fun x => x.2.unreachable.isSome)).map (·.1) = [60] ∧ (tget s.plant.taps 60).isSome = true))
    -- no enabled transponder and nothing that can start
    ∧ (∀ p ∈ [0, 7], (let s := { busyLine [] [] p false with telemetry.transponders := [] }
      s.link.op = .run ∧ s.plant.line = .idle ∧ s.plant.urgent = [] ∧ s.plant.refresh = []
        ∧ s.plant.taps.filter (fun x => x.2.unreachable.isSome) = []))
    -- a command slot: entries that start, and entries passed over
    ∧ (7 ∉ [0, 2, 4, 6, 1, 3, 5].take 7 ∧ 5 ∉ [0, 2, 4, 6, 1, 3, 5].take 6)
    ∧ (∀ s ∈ [busyLine [.port 60 3 false] [] 7 false, busyLine [] [(60, 3)] 7 false],
      s.outage.watches.findIdx? (fun e => e.enabled && e.watch.any (fun w => w.guard && decide (900 / w.span * w.span = w.base))) = some 7
        ∧ (s.outage.watches[7]?).isSome = true ∧ tget s.plant.taps 60 = some (tapWith [{}, {}, {}, {}]))
    ∧ ((busyLine [] [] 7 false).outage.held = List.replicate 15 (some ⟨511, 4095, 0, 7, none, 1⟩) ++ none :: []
      ∧ none ∉ List.replicate 15 (some (⟨511, 4095, 0, 7, none, 1⟩ : Held)))
    ∧ (let s := busyLine [.port 60 3 false, .port 60 0 true, .craft (.poll 900)] [(60, 1), (511, 3)] 7 true
      s.plant.urgent = [.port 60 3 false] ++ .port 60 0 true :: [.craft (.poll 900)] ∧ none ∉ s.outage.held
        ∧ s.outage.watches.findIdx? (fun e => e.enabled && e.watch.any (fun w => w.guard && decide (900 / w.span * w.span = w.base))) = some 7
        ∧ s.outage.watches.findIdx? (fun e => e.enabled && e.watch.any (fun w => w.guard && decide (4095 / w.span * w.span = w.base))) = none
        ∧ s.plant.refresh = [(60, 1)] ++ (511, 3) :: [] ∧ tget s.plant.taps 511 = some { address := 4095, segment := 8 }
        ∧ ({ address := 4095, segment := 8 } : Tap).ports[3]? = some ({} : Port))
    -- a craft request behind an entry passed over
    ∧ (∀ r ∈ [CraftReq.poll 900, .poll 100, .poll 101, .test 900 3 true, .test 101 0 false],
      (busyLine [.port 60 3 false, .craft r] [] 7 true).plant.urgent = [.port 60 3 false] ++ .craft r :: [])
    ∧ (let s := busyLine [] [] 7 true
      (tapAt s 900).isSome = true ∧ tapAt s 100 = none ∧ (xpAt s 100).isSome = true ∧ tapAt s 101 = none ∧ xpAt s 101 = none
        ∧ serviceOf s 8 ≠ .held)
    ∧ (let s := { busyLine [.craft (.test 900 3 true)] [] 7 true with telemetry.segments := [(8, { seg none none with service := .held })] }
      (tapAt s 900).isSome = true ∧ serviceOf s 8 = .held)
    -- the outcomes
    ∧ (∀ p ∈ [Purpose.probe, .craftPoll, .craftTest], (let s := answering p 900 60 true
      s.link.waiting = [] ∧ s.plant.current = some ⟨p, 900, 60, true, 3, ⟨true, BitVec.allOnes 96⟩, 0, 40, false, []⟩
        ∧ s.plant.line = .window ∧ ∃ x, tget s.plant.taps 60 = some x ∧ x.address = 900))
    ∧ (∀ p ∈ [Purpose.probe, .craftPoll, .craftTest], ∀ x, tget (answering p 901 60 true).plant.taps 60 = some x → x.address ≠ 901)
    ∧ (∃ x, tget (answering .craftPoll 100 5 false).telemetry.transponders 5 = some x ∧ x.address = 100 ∧ x.enabled = true)
    ∧ (∀ x, tget (answering .craftPoll 101 5 false).telemetry.transponders 5 = some x → ¬ (x.address = 101 ∧ x.enabled = true))
    ∧ ((lostTap true none).plant.taps = [(60, { tapWith [{}, {}, {}, {}] with unreachable := some 4000 })])
    ∧ (4095 ≤ 4095 ∧ 3 ≤ 3 ∧ (-32768 : Int) ≤ -32768 ∧ (32767 : Int) ≤ 32767 ∧ 65535 ≤ 65535 ∧ (3 : Byte) ≠ 4) := by
  repeat' apply And.intro
  all_goals first
    | decide +kernel
    | exact ⟨_, rfl, by decide +kernel⟩
    | (intro x h; cases h; decide +kernel)

/-! ## Witnesses: telemetry, outages and watches -/

theorem test_plantTable_witness :
    Quiet (town .run) ∧ Working (town .run) ∧ Quiet (town .loading) ∧ Working (town .loading)
    ∧ (31 < 32 ∧ 7 < 8 ∧ (31 < 254 ∧ 254 ≠ 255) ∧ (127 < 128 ∧ 128 ≠ 255))
    ∧ (tget (town .run).telemetry.segments 30 = none)
    ∧ (let l := tset (town .run).telemetry.segments 7 (seg (some 8) none); ∃ g ∈ l, chainBad l g.1 ≠ none)
    ∧ (∀ h, tget (town .run).telemetry.transponders 5 = some h → ¬ (h.enabled = true ∧ h.segment = 8))
    ∧ (let l := tset (town .run).telemetry.segments 31 (seg (some 8) none); ∀ g ∈ l, chainBad l g.1 = none)
    ∧ ((∃ t ∈ (town .run).plant.taps, t.2.address = 900) ∧ (∃ t ∈ (town .run).telemetry.transponders, t.2.address = 100 ∧ t.1 ≠ 127))
    ∧ ((∃ g ∈ (town .run).telemetry.segments, g.2.head = some 5)
      ∧ ∃ o, tget (town .run).telemetry.transponders 5 = some o ∧ (o.segment ≠ 8 ∨ (o.enabled = true ∧ 0 = 0)))
    ∧ (roleArg 2 = some .nodeHead ∧ tget (town .run).telemetry.transponders 127 = none
      ∧ (∀ t ∈ (town .run).plant.taps, t.2.address ≠ 4095) ∧ (tget (town .run).telemetry.transponders 5).isSome = true)
    ∧ (tget (town .run).telemetry.segments 9 = none ∧ (tget (town .run).telemetry.segments 7).isSome = true)
    ∧ (xpAt (town .run) 101 = none ∧ (xpAt (town .run) 100).isSome = true) := by
  repeat' apply And.intro
  all_goals first
    | decide +kernel
    | exact quiet_of (by decide +kernel)
    | exact .inr rfl
    | exact .inl rfl
    | (intro h e; cases e; decide)
    | exact ⟨_, rfl, by decide⟩

/-- The town's head transponder, polled. -/
def polled (x : Transponder) : State :=
  { town .run with
    telemetry.transponders := [(5, x)]
    plant.line := .window
    plant.current := some ⟨.poll, 100, 5, false, 0, ⟨false, 0⟩, 3, 40, false, []⟩ }

/-- The transponder of the town with so many misses. -/
def missed (n : Nat) : Transponder :=
  { address := 100, segment := 7, role := .nodeHead, enabled := true, low := -100, high := 300, hysteresis := 10, misses := n }

theorem test_polls_witness :
    (let s := polled (missed 15)
    s.link.waiting = [] ∧ s.plant.line = .window ∧ (100 : Nat) ≤ 4095 ∧ tget s.telemetry.transponders 5 = some (missed 15)
      ∧ (missed 15).address = 100 ∧ (missed 15).enabled = true ∧ (-32768 : Int) ≤ -32768 ∧ (32767 : Int) ≤ 32767 ∧ 65535 ≤ 65535)
    ∧ ((2 : Byte) ≠ 4 ∧ (3 : Byte) ≠ 4 ∧ (roleChar .amplifier = 1 ∧ roleChar .powerSupply = 2 ∧ roleChar .nodeHead = 3)
      ∧ (2 : Byte).toNat ≠ roleChar (missed 0).role ∧ (3 : Byte).toNat = roleChar (missed 0).role) := by decide +kernel

theorem test_xpNotice_witness :
    (missed 2).state = (missed 3).state ∧ (missed 2).flags = (missed 3).flags
    ∧ ((missed 2).state ≠ ({ missed 3 with state := .missing } : Transponder).state)
    ∧ xpEvents (missed 2) { missed 3 with state := .missing } = [.xpMissing] := by decide +kernel

theorem test_silentHead_witness :
    (let s := { polled (missed 2) with telemetry.segments := [(7, seg none (some 5))] }
    s.link.waiting = [] ∧ s.plant.line = .window ∧ tget s.telemetry.transponders 5 = some (missed 2)
      ∧ (missed 2).state ≠ .missing ∧ s.params.missLimit ≤ min 15 ((missed 2).misses + 1)
      ∧ tget s.telemetry.segments 7 = some (seg none (some 5)) ∧ s.craft.holds.getLsbD 7 = false
      ∧ (∀ y ∈ s.telemetry.segments, 7 ∉ ancestors s.telemetry.segments y.1)
      ∧ (s.telemetry.segments.map (·.1)).Nodup ∧ s.outage.records.length < 64) := by decide +kernel

/-- An open and a closed outage record, the open one on segment 7. -/
def outages : State :=
  { town .run with
    outage.records := [⟨255, 8, 4000, some (4500, .held), .root, false, true⟩, ⟨0, 7, 4760, none, .root, false, false⟩]
    telemetry.segments := [(7, { seg none none with service := .dark, openOutage := some 0 })] }

theorem test_outages_witness :
    Quiet outages ∧ Working outages ∧ outages.outage.records.find? (fun r => r.id = 1) = none
    ∧ outages.outage.records.find? (fun r => r.id = 255) = some ⟨255, 8, 4000, some (4500, .held), .root, false, true⟩
    ∧ 2 < 3 ∧ 2 ≤ 2
    ∧ (tget outages.telemetry.segments 7 = some { seg none none with service := .dark, openOutage := some 0 }
      ∧ outages.outage.records.find? (fun r => r.id = 0) = some ⟨0, 7, 4760, none, .root, false, false⟩
      ∧ outages.store.fault = false ∧ 257 < freeSlots outages) := by
  repeat' apply And.intro
  all_goals first | decide +kernel | exact quiet_of (by decide +kernel) | exact .inr rfl

/-- A full log of outages: the oldest record is open, and the second, closed, is acknowledged or not. -/
def fullLog (acked : Bool) : State :=
  { outages with
    outage.nextId := 63
    outage.records := ⟨64, 7, 4760, none, .root, false, false⟩
      :: (List.range 63).map (fun k => ⟨k, 8, 4000, some (4500, .held), .root, false, acked⟩)
    telemetry.segments := [(7, seg none none), (8, { seg (some 7) none with condition := .outage, missMinute := some 4990 })] }

theorem test_eviction_witness :
    (∀ acked ∈ [true, false], (let s := fullLog acked
      Quiet s ∧ Working s ∧ (tget s.telemetry.segments 8).isSome = true ∧ s.outage.records.length = 64
      ∧ s.outage.records = [⟨64, 7, 4760, none, .root, false, false⟩] ++ ⟨0, 8, 4000, some (4500, .held), .root, false, acked⟩
        :: (List.range 62).map (fun k => ⟨k + 1, 8, 4000, some (4500, .held), .root, false, acked⟩)
      ∧ (openOutage 8 .miss s).outage.records.map (·.id) = 64 :: (List.range 63).map (· + 1)
      ∧ (openOutage 8 .miss s).outage.nextId = 65)) := by
  intro acked h
  simp only [List.mem_cons, List.not_mem_nil, or_false] at h
  rcases h with rfl | rfl
  all_goals
    repeat' apply And.intro
    all_goals first | decide +kernel | exact quiet_of (by decide +kernel) | exact .inr rfl

/-- The watches owned by one side, entry 7 set on addresses 64 to 127. -/
def watching (owner : Owner) (held : Bool) : State :=
  { town .run with
    outage.owner := owner
    outage.watches := (List.replicate 8 {}).set 7 ⟨true, some ⟨false, 64, 64, 127, true, true⟩, 255⟩
    outage.held := (List.replicate 16 none).set 15 (if held then some ⟨60, 900, 2, 7, some .urgent, 4990⟩ else none) }

theorem test_watches_witness :
    (Quiet (watching .craft true) ∧ Sound (watching .craft true) ∧ (watching .craft true).outage.owner = .craft)
    ∧ (Quiet (watching .host true) ∧ Sound (watching .host true) ∧ Working (watching .host true)
      ∧ (watching .host true).outage.owner = .host)
    ∧ (7 < 8 ∧ 1 < 2 ∧ 4095 < 4096 ∧ 3 ∉ [1, 2, 4, 8, 16, 32, 64, 128, 256] ∧ 127 < 128)
    ∧ (let p : WatchArgs := ⟨7, 0, 4095, 256, 127, 1, 1⟩
      ¬ (7 < p.entry ∨ 1 < p.kind ∨ 4095 < p.address ∨ p.span ∉ [1, 2, 4, 8, 16, 32, 64, 128, 256] ∨ 127 < p.kinds
        ∨ (p.kind = 0 ∧ p.kinds = 0) ∨ 1 < p.cls ∨ 1 < p.oneShot))
    ∧ ((watching .host true).outage.watches[7]?).isSome = true
    ∧ ((watching .host true).outage.watches = List.replicate 7 ({} : WatchEntry) ++ ⟨true, some ⟨false, 64, 64, 127, true, true⟩, 255⟩ :: []
      ∧ 127 / 64 * 64 = 64 ∧ (127 : Nat).testBit (watchKindNum .tamper) = true ∧ 128 / 64 * 64 ≠ 64) := by
  repeat' apply And.intro
  all_goals first
    | decide +kernel
    | exact quiet_of (by decide +kernel)
    | exact sound_of (by decide +kernel)
    | exact .inr rfl

/-- A held command for a port with what is desired and confirmed of it. -/
def holding (owner : Owner) (confirmed : Option Content) (service : Service) : State :=
  { watching owner true with
    plant.taps := [(60, tapWith [{}, {}, { confirmed := confirmed, sync := .held, slot := some 0 }, {}])]
    telemetry.segments := [(8, { seg none none with service := service })] }

theorem test_held_witness :
    (Quiet (holding .craft none .lit) ∧ Sound (holding .craft none .lit) ∧ Working (holding .craft none .lit)
      ∧ (holding .craft none .lit).outage.owner = .craft ∧ 15 < 16 ∧ (holding .craft none .lit).outage.held[14]? = some none)
    ∧ (Quiet (holding .host none .lit) ∧ Sound (holding .host none .lit) ∧ (holding .host none .lit).outage.owner = .host)
    ∧ (∀ s ∈ [holding .host none .lit, holding .craft (some ⟨false, 0⟩) .lit, holding .host none .dark],
      s.outage.held[15]? = some (some ⟨60, 900, 2, 7, some .urgent, 4990⟩) ∧ (portOf s (60, 2)).isSome = true)
    ∧ parkHoldsAt (holding .host none .dark) 60 = true
    ∧ (parkHoldsAt (holding .craft (some ⟨false, 0⟩) .lit) 60 = false
      ∧ (portOf (holding .craft (some ⟨false, 0⟩) .lit) (60, 2)).map (fun r => decide (r.confirmed = some r.desired)) = some true)
    ∧ (parkHoldsAt (holding .host none .lit) 60 = false
      ∧ (portOf (holding .host none .lit) (60, 2)).map (fun r => decide (r.confirmed = some r.desired)) = some false) := by
  repeat' apply And.intro
  all_goals first
    | decide +kernel
    | exact quiet_of (by decide +kernel)
    | exact sound_of (by decide +kernel)
    | exact .inr rfl

/-! ## Witnesses: the craft port -/

/-- The town with a text in the line buffer. -/
def typing (op : OpState) (text : String) (long : Bool) : State :=
  { town op with craft.buffer := text.toList, craft.long := long }

/-- The town with lines in the print queue. -/
def printing (n lost : Nat) : State := { town .run with craft.print := List.replicate n (word "OK"), craft.lost := lost }

theorem test_craftLines_witness :
    (town .run).link.waiting = []
    ∧ (∀ c ∈ [(32 : Byte), 126], 32 ≤ c.toNat ∧ c.toNat ≤ 126) ∧ (∀ c ∈ [(31 : Byte), 128, 255], c.toNat < 32 ∨ 127 < c.toNat)
    ∧ ((List.replicate 79 'A').length < 80 ∧ 80 ≤ (List.replicate 80 'A').length)
    ∧ (words (typing .run "   " false).craft.buffer = [] ∧ words (typing .run "A" true).craft.buffer ≠ [])
    ∧ ((typing .run "A" true).craft.long = true ∧ (typing .run "A" false).craft.long = false)
    ∧ ((town .starting).link.op = .starting ∧ (words "HOLD 7".toList).head? ≠ some (word "IDENT"))
    ∧ (number (word "7") = some 7 ∧ words "HOLD 7".toList = [word "HOLD", word "7"])
    ∧ (number (word "0256") = some 256 ∧ words "WATCH 0 GUARD 4095 0256 U ONCE".toList
      = [word "WATCH", word "0", word "GUARD", word "4095", word "0256", word "U", word "ONCE"])
    ∧ kindSet (word "XP_MISSING,TAMPER") = some 33
    ∧ (words "HELP ME".toList = word "HELP" :: [word "ME"]
      ∧ word "HELP" ∉ ["HOLD", "FREE", "SHOW", "POLL", "TEST", "TAKE", "GIVE", "WATCH", "RELEASE", "DROP", "IDENT"].map word)
    ∧ ((printing 0 0).craft.print = [] ∧ (printing 16 255).craft.print = word "OK" :: List.replicate 15 (word "OK")
      ∧ (printing 16 255).craft.rest = [] ∧ (List.replicate 15 (word "OK")).length < 16)
    ∧ (let s := { printing 16 3 with craft.rest := [word "A", word "B"] }
      s.craft.rest.length = 2 ∧ ¬ (s.craft.rest.length ≤ 16 - (List.replicate 15 (word "OK")).length) ∧ s.craft.rest ≠ [])
    ∧ ((List.replicate 15 (word "OK")).length ≤ 16 ∧ (printing 1 0).craft.print.length + 15 ≤ 16
      ∧ 16 < (printing 1 0).craft.print.length + 16 ∧ 16 < (List.replicate 17 (word "OK")).length)
    ∧ (bare .unset).link.op = .unset := by decide +kernel

theorem test_malformedLine_witness :
    (∀ i, ¬ Spells false (words "HOLD".toList) i) ∧ (∀ i, ¬ Spells false (words "ident x1".toList) i)
    ∧ (words "ident x1".toList).head? = some (word "IDENT") := by
  have hold : words "HOLD".toList = [word "HOLD"] := by decide +kernel
  have ident : words "ident x1".toList = [word "IDENT", word "X1"] := by decide +kernel
  have number : number (word "X1") = none := by decide +kernel
  rw [hold, ident]
  refine ⟨fun i h => ?_, fun i h => ?_, rfl⟩
  · cases i <;> simp only [Spells] at h <;> first | exact absurd h (by decide +kernel) | simp at h
  · cases i <;> simp only [Spells] at h <;> first | exact absurd h (by decide +kernel) | simp [word] at h
    rw [show ['X', '1'] = word "X1" from rfl, number] at h
    exact absurd h.2 (by simp)

theorem test_holds_witness :
    Quiet (town .run) ∧ Working (town .run) ∧ 31 < 32
    ∧ ((town .run).craft.holds.getLsbD 31 = false ∧ tget (town .run).telemetry.segments 31 = none)
    ∧ ((town .run).craft.holds.getLsbD 7 = false ∧ tget (town .run).telemetry.segments 7 ≠ none)
    ∧ (let s := { town .run with craft.holds := 0x80000080 }
      Quiet s ∧ s.craft.holds.getLsbD 31 = true ∧ s.craft.holds.getLsbD 7 = true ∧ tget s.telemetry.segments 7 ≠ none) := by
  repeat' apply And.intro
  all_goals first | decide +kernel | exact quiet_of (by decide +kernel) | exact .inr rfl

/-- Ten segments in a chain, which LOADING allows: 22 under 23, and so on up to 31. -/
def chainOfTen : List (Nat × Segment) := (List.range 10).map (fun k => (22 + k, seg (if k = 9 then none else some (23 + k)) none))

theorem test_serviceStates_witness :
    ((town .run).telemetry.segments.map (·.1)).Nodup
    ∧ (∀ g ∈ (town .run).telemetry.segments, chainBad (town .run).telemetry.segments g.1 = none)
    ∧ (let s := { town .run with craft.holds := 0x80 }
      s.craft.holds.getLsbD 7 = true ∧ s.craft.holds.getLsbD 8 = false ∧ ancestors s.telemetry.segments 8 = [7])
    ∧ (tget (recomputeServices [7] .hold (town .run)).1.telemetry.segments 8).isSome = true
    ∧ (let l := chainOfTen
      tget l 22 = some (seg (some 23) none) ∧ (seg (some 23) none).parent = some 23 ∧ tget l 23 ≠ none ∧ 23 ≠ 22
        ∧ 22 ∉ ancestorsFrom l l.length [23] 23 ∧ (l.map (·.1)).Nodup) := by decide +kernel

theorem test_handOffs_down_a_long_chain :
    (recomputeServices [29] .hold { segments chainOfTen with craft.holds := 0x20000000 }).2.map (·.segment)
      = [29, 28, 27, 26, 25, 24, 23, 22] := by decide +kernel

theorem test_showsAndRequests_witness :
    (town .run).link.waiting = [] ∧ Working (town .run) ∧ Working (town .loading)
    ∧ (31 < 32 ∧ tget (town .run).telemetry.segments 31 = none ∧ (tget (town .run).telemetry.segments 7).isSome = true)
    ∧ (4095 < 4096 ∧ xpAt (town .run) 4095 = none ∧ (xpAt (town .run) 100).isSome = true ∧ tapAt (town .run) 4095 = none
      ∧ (tapAt (town .run) 900).isSome = true ∧ 3 < 4)
    ∧ (town .loading).link.op ≠ .run
    ∧ (.craft (.poll 3) ∈ ({ town .run with plant.urgent := [.craft (.poll 3)] } : State).plant.urgent)
    ∧ (∃ t, ({ town .run with plant.current := some ⟨.craftTest, 900, 60, true, 0, ⟨true, 0⟩, 0, 40, false, []⟩ } : State).plant.current = some t
      ∧ (t.purpose = .craftPoll ∨ t.purpose = .craftTest))
    ∧ (¬ (∃ r, .craft r ∈ (town .run).plant.urgent) ∧ (town .run).plant.current = none)
    ∧ (serviceOf (town .run) 8 ≠ .held
      ∧ serviceOf { town .run with telemetry.segments := [(8, { seg none none with service := .held })] } 8 = .held) := by
  repeat' apply And.intro
  all_goals first
    | decide +kernel
    | exact .inr rfl
    | exact .inl rfl
    | exact ⟨_, rfl, .inr rfl⟩
    | (rintro ⟨r, h⟩; exact absurd h (by simp [town, bare, State.reset]))

theorem test_craftWatch_witness :
    (Sound (watching .host true) ∧ Working (watching .host true) ∧ (watching .host true).link.waiting = []
      ∧ (watching .host true).outage.owner = .host)
    ∧ (Sound (watching .craft true) ∧ Working (watching .craft true) ∧ (watching .craft true).outage.owner = .craft ∧ 7 < 8
      ∧ ((watching .craft true).outage.watches[7]?).isSome = true)
    ∧ (∀ x ∈ [(8, 0, 1, 1), (0, 4096, 1, 1), (0, 0, 3, 1), (0, 0, 1, 0), (0, 0, 1, 128)],
      7 < x.1 ∨ 4095 < x.2.1 ∨ x.2.2.1 ∉ [1, 2, 4, 8, 16, 32, 64, 128, 256] ∨ (false = false ∧ (x.2.2.2 = 0 ∨ 127 < x.2.2.2)))
    ∧ (¬ (7 < 7 ∨ 4095 < 4095 ∨ 256 ∉ [1, 2, 4, 8, 16, 32, 64, 128, 256] ∨ (false = false ∧ (127 = 0 ∨ 127 < 127)))) := by
  repeat' apply And.intro
  all_goals first | decide +kernel | exact sound_of (by decide +kernel) | exact .inr rfl

/-- The town with a head-end id and these lock words. -/
def named (h a b : IdWord) : State := { town .loading with store.identity := { headId := h, lockA := a, lockB := b } }

theorem test_identity_witness :
    (town .run).link.waiting = [] ∧ (bare .starting).link.op = .starting ∧ (bare .unset).link.op ≠ .starting
    ∧ (¬ (1 ≤ 0 ∧ 0 ≤ 4294967294) ∧ ¬ (1 ≤ 4294967295 ∧ 4294967295 ≤ 4294967294) ∧ (1 ≤ 4294967294 ∧ 4294967294 ≤ 4294967294))
    ∧ ((town .run).store.identity.headId = 0xFFFFFFFF ∧ (named 9 0 0).store.identity.headId ≠ 0xFFFFFFFF)
    ∧ (({ town .run with craft.ident := true } : State).craft.ident = true ∧ (town .run).craft.ident = false)
    ∧ (Quiet (named 9 0xFFFFFFFF 0xFFFFFFFF) ∧ Working (named 9 0 0) ∧ (1 < 2 ∧ 1 ≤ 1 ∧ 0 ≤ 1))
    ∧ ((named 9 8 0).store.identity.lockA ≠ 0xFFFFFFFF ∧ (named 9 0xFFFFFFFF 0xFFFFFFFF).store.identity.lockA = 0xFFFFFFFF
      ∧ (named 0xFFFFFFFF 0xFFFFFFFF 0xFFFFFFFF).store.identity.headId = 0xFFFFFFFF)
    ∧ (BitVec.ofNat 32 8 ≠ (named 9 0 0).store.identity.headId ∧ BitVec.ofNat 32 9 = (named 9 0 0).store.identity.headId
      ∧ BitVec.ofNat 32 4294967286 = ~~~ (named 9 0 0).store.identity.headId)
    ∧ (let s := { named 9 0xFFFFFFFF (~~~ 9) with
          store.path := .append, store.queue := [.identity .lockA 9], link.inFlight := some (tagged 3 (.lockWrite 0 9)) }
      s.link.waiting = [] ∧ s.store.path = .append ∧ s.engine.state = .idle ∧ s.store.queue = [.identity .lockA 9]
        ∧ s.link.inFlight = some (tagged 3 (.lockWrite 0 9)))
    ∧ (let s := { named 0xFFFFFFFF 0 0 with store.path := .append, store.queue := [.identity .headId 9] }
      s.store.queue = [.identity .headId 9] ∧ s.engine.state = .idle) := by
  repeat' apply And.intro
  all_goals first | decide +kernel | exact quiet_of (by decide +kernel) | exact .inl rfl

/-! ## Witnesses: the billing store, periods and statements -/

/-- Bank B with sequence 9 in a state, its CLOSE record in slot 20,000. -/
def closedB (op : OpState) (state : BankState) : State :=
  { town op with
    store.b := { cells := [(0, 0), (1, 9), (2, 0), (640000, 0x43), (640031, 0x0F)], state := state, watermark := 20000 } }

theorem test_storeOrders_witness :
    (Quiet (closedB .run .closed) ∧ Working (closedB .run .closed))
    ∧ (1 < 2 ∧ ¬ (1 ≤ 0) ∧ ¬ (17 ≤ 16) ∧ ¬ (32753 + 16 ≤ 32768) ∧ (1 ≤ 16 ∧ 16 ≤ 16 ∧ 32752 + 16 ≤ 32768))
    ∧ (∀ x ∈ [BankState.free, .erasing, .closing, .open_, .closed], (bank (closedB .run x) .b).state = x)
    ∧ (let s := closedB .run .closed
      (hdr (bank s .b) 2 ≠ 0xFF ∧ seqOf (bank s .b) = 9) ∧ ¬ (hdr (bank s .a) 2 ≠ 0xFF ∧ seqOf (bank s .a) = 9)
        ∧ ¬ (hdr (bank s .a) 2 ≠ 0xFF ∧ seqOf (bank s .a) = 8) ∧ ¬ (hdr (bank s .b) 2 ≠ 0xFF ∧ seqOf (bank s .b) = 8)
        ∧ closeSlot (bank s .b) = some 20000 ∧ (bank s .b).watermark ≤ 20000 ∧ s.store.lock ≠ .effective)
    ∧ (let s := { closedB .run .closed with store.b := { cells := [(0, 0), (1, 9), (2, 0)], state := .closed } }
      s.store.fault = false ∧ seqOf (bank s .b) = 9 ∧ (bank s .b).state = .closed ∧ closeSlot (bank s .b) = none)
    ∧ (let s := { closedB .run .closed with store.lock := .effective, store.b.watermark := 20001 }
      s.store.lock = .effective ∧ closeSlot (bank s .b) = some 20000 ∧ 20000 < (bank s .b).watermark)
    ∧ (let s := closedB .loading .closing
      Quiet s ∧ Working s ∧ s.link.op = .loading ∧ s.store.b.state = .closing ∧ s.store.fault = false)
    ∧ (let s := closedB .loading .closed
      s.store.a.state ≠ .closing ∧ s.store.b.state ≠ .closing ∧ (s.store.a.state ≠ .free ∧ hdr s.store.a 16 = 0xFF))
    ∧ (let s := bare .loading
      Quiet s ∧ s.store.lock ≠ .effective ∧ s.store.a.state = .free ∧ s.store.b.state = .free)
    ∧ (15 < 16 ∧ 15 ≤ 15) := by
  repeat' apply And.intro
  all_goals first | decide +kernel | exact quiet_of (by decide +kernel) | exact .inr rfl | exact .inl rfl

/-- A record at the head of the append queue, being programmed at slot 5 of bank A. -/
def recording (mismatches : Nat) : State :=
  { town .run with
    store.path := .append
    store.queue := .record (List.replicate 31 5) .other :: List.replicate 99 (.record (List.replicate 31 5) .other)
    store.mismatches := mismatches }

theorem test_records_witness :
    (let s := recording 2
    s.link.waiting = [] ∧ s.link.inFlight = none ∧ s.craft.ident = false ∧ s.store.fault = false ∧ s.store.path = .append
      ∧ s.engine.state = .idle ∧ openBank s = some .a ∧ (bank s .a).append < 16000
      ∧ (List.replicate 99 (StoreItem.record (List.replicate 31 5) .other)).length < 100
      ∧ behindOpened (List.replicate 99 (StoreItem.record (List.replicate 31 5) .other)) = none ∧ s.store.mismatches < 3)
    ∧ 3 ≤ (recording 3).store.mismatches
    ∧ (let given := List.replicate 31 (5 : Byte) ++ [0x0F]
      let wrote (landed : List Byte) : Bank := { openedA with cells := cellsAnd openedA.cells 160 (took ⟨some landed, []⟩ given), append := 6 }
      let voided (v : Byte) : Bank := { wrote [0] with cells := cellsAnd (wrote [0]).cells 191 [v] }
      slotBytes (wrote given) 5 = given ∧ slotBytes (wrote [0]) 5 ≠ given ∧ slotState (voided 0x0F) 5 = 0x0F
        ∧ slotState (voided 0) 5 ≠ 0x0F) := by decide +kernel

/-- The town with its journal's append point at a slot. -/
def filled (j : Nat) (item : List StoreItem) : State :=
  { town .run with
    store.a := { openedA with append := j }
    store.lowMark := j = 16383
    store.path := if item.isEmpty then .idle else .append
    store.queue := item }

theorem test_noRoom_witness :
    (freeSlots (filled 16384 []) = 0 ∧ openBank (filled 16384 []) = some .a ∧ (filled 16384 []).store.fault = false)
    ∧ (freeSlots (filled 16127 []) = 257 ∧ (filled 16127 []).store.lowMark = false ∧ freeSlots (filled 16126 []) = 258
      ∧ behindOpened (filled 16127 []).store.queue = none)
    ∧ (∀ q ∈ [[], [StoreItem.header .a .overflow], [.header .b .released]], ∀ o ∈ [Origin.order, .other, .outage (some 3)],
      (let s := filled 16383 (.record (List.replicate 31 5) o :: q)
      s.link.waiting = [] ∧ s.store.fault = false ∧ s.store.path = .append ∧ s.engine.state = .idle ∧ openBank s = some .a
        ∧ q.all (fun i => !isRecord i) = true ∧ behindOpened q = none ∧ s.store.lowMark = true ∧ s.store.mismatches < 3))
    ∧ (let given := List.replicate 31 (5 : Byte) ++ [0x0F]
      let wrote : Bank := { openedA with cells := cellsAnd openedA.cells (32 * 16383) (took ⟨some [0], []⟩ given), append := 16384 }
      slotBytes wrote 16383 ≠ given
        ∧ slotState { wrote with cells := cellsAnd wrote.cells (32 * 16383 + 31) [0] } 16383 ≠ 0x0F) := by
  repeat' apply And.intro
  all_goals decide +kernel

/-- A header field at the head of the append queue, being programmed in bank B. -/
def marking (f : HeaderField) (b : Bank) : State :=
  { bare .run with store.path := .append, store.queue := [.header .b f], store.b := b }

theorem test_headers_witness :
    (∀ f ∈ [HeaderField.sequence 65535, .openMinute 5000, .closeMinute 5000, .opened, .closing, .closed, .released, .overdue, .overflow],
      (let s := marking f {}
      s.link.waiting = [] ∧ s.link.inFlight = none ∧ s.link.op ≠ .starting ∧ s.store.fault = false ∧ s.store.path = .append
        ∧ s.store.queue = [.header .b f] ∧ s.store.mismatches < 3 ∧ s.engine.state = .idle
        ∧ fieldAgrees { bank s .b with cells := cellsAnd (bank s .b).cells (fieldAt f) (fieldBytes f) } f = true
        ∧ fieldAgrees { bank s .b with cells := cellsAnd (bank s .b).cells (fieldAt f) (took ⟨some [0xFF], []⟩ (fieldBytes f)) } f = false))
    ∧ (let s := marking .opened { cells := [(7, 0)] }
      (bank s .a).state ≠ .open_ ∧ hdr (bank s .b) 7 ≠ 0xFF ∧ s.engine.tariff ≠ [] ∧ s.engine.tariff.length ≤ 16)
    ∧ closeSlot (bank (marking .closed { cells := [(640000, 0x43), (640031, 0x0F)] }) .b) = some 20000
    ∧ closeSlot (bank (marking .closed {}) .b) = none
    ∧ (let s := { marking .overflow {} with engine.state := .computing }
      s.store.queue = [.header .b .overflow] ∧ s.engine.state = .computing ∧ s.engine.closeDone = false)
    ∧ (let s := { marking .opened { cells := [(7, 0)] } with engine.state := .sequence, store.a := { openedA with state := .closing } }
      s.engine.state = .sequence ∧ (∀ tag, s.link.inFlight ≠ some (tagged tag .closePeriod)) ∧ (bank s .a).state ≠ .open_
        ∧ hdr { bank s .b with cells := cellsAnd (bank s .b).cells 13 [0] } 7 ≠ 0xFF ∧ s.engine.tariff.length = 16)
    ∧ (∀ n ∈ [none, some 0, some 1, some 255],
      (let s := { town .run with store.b := { state := .erasing, page := n } }
      (bank s .b).page = n ∧ s.link.waiting = [] ∧ s.link.inFlight = none ∧ s.store.fault = false ∧ s.store.path = .idle
        ∧ s.craft.ident = false ∧ s.engine.state = .idle))
    ∧ (4095 < 4096 ∧ (0 : Byte) ≠ 0xFF)
    ∧ (took ⟨some (List.replicate 32 0), []⟩ (fieldBytes .opened) = [0] ∧ took ⟨some [0xF7], []⟩ [0, 1, 0] = [0xF7, 0xFF, 0xFF]) := by
  repeat' apply And.intro
  all_goals decide +kernel

/-- A header field of a bank being programmed for an order, with a field behind it and a close under way or not. -/
def ordered (f : HeaderField) (b : Bank) (o : Order) (q : List StoreItem) (state : CloseState) (rolls : List RollEntry) : State :=
  { bare .run with
    link.inFlight := some (tagged 3 o), store.path := .append, store.queue := .header .b f :: q, store.b := b
    store.a := { openedA with state := .closing }, engine.state := state, engine.rolls := rolls, store.mismatches := 3 }

/-- A ROLL record being programmed at slot 5 of bank A. -/
def rolling (rolls : List RollEntry) (q : List StoreItem) : State :=
  { town .run with
    store.path := .append, store.queue := .record (List.replicate 31 8) .roll :: q, engine.state := .rolling, engine.rolls := rolls }

/-- The town's subscriber in a roll list. -/
def entry77 : RollEntry := ⟨0, 77, .active, 1, 8⟩

theorem test_headersOrdered_witness :
    (∀ s ∈ [ordered .released {} (.releaseBank 9) [.header .b .overflow] .idle [],
        ordered .released {} .storeClear [.header .a .released] .idle [], ordered .released {} .storeClear [] .idle [],
        ordered .closing {} .closePeriod [.header .a (.sequence 2), .header .a (.openMinute 5000), .header .a .opened] .sequence [entry77],
        ordered .opened { cells := [(7, 0)] } .closePeriod [] .sequence [], ordered .opened { cells := [(7, 0)] } .closePeriod [] .sequence [entry77]],
      s.link.waiting = [] ∧ s.link.op ≠ .starting ∧ s.store.fault = false ∧ s.store.path = .append ∧ s.craft.ident = false
        ∧ 3 ≤ s.store.mismatches ∧ s.link.inFlight.isSome = true ∧ (bank s .a).state ≠ .open_)
    ∧ (let s := ordered .opened { cells := [(7, 0)] } .closePeriod [] .sequence [entry77]
      s.engine.state = .sequence ∧ hdr { bank s .b with cells := cellsAnd (bank s .b).cells 13 [0] } 7 ≠ 0xFF
        ∧ s.engine.tariff.length = 16 ∧ behindOpened [] = none ∧ (([] : List StoreItem).filter isRecord).length < 16000)
    ∧ ((∀ i, .header i .released ∉ ([] : List StoreItem)) ∧ .header .a .released ∈ [StoreItem.header .a .released])
    ∧ (let s := { marking (.openMinute 5000) { cells := [(13, 0)], state := .open_ } with store.queue := [.header .b (.openMinute 5000), .record [6] .other] }
      let wrote : Bank := { bank s .b with cells := cellsAnd (bank s .b).cells 3 (fieldBytes (.openMinute 5000)) }
      fieldAgrees wrote (.openMinute 5000) = true ∧ hdr wrote 13 ≠ 0xFF ∧ openBank s = some .b ∧ s.engine.tariff.length = 16
        ∧ behindOpened [.record [6] .other] = none ∧ (bank s .b).append + 1 < 16000)
    ∧ (∀ s ∈ [rolling [entry77] [], rolling [] [.record [5] .other], rolling [] []],
      s.link.waiting = [] ∧ s.link.op ≠ .starting ∧ s.store.fault = false ∧ s.store.path = .append ∧ openBank s = some .a
        ∧ 257 < freeSlots s ∧ s.engine.state = .rolling ∧ s.engine.closeDone = false
        ∧ slotBytes { bank s .a with cells := cellsAnd (bank s .a).cells 160 (List.replicate 31 8 ++ [0x0F]) } 5 = List.replicate 31 8 ++ [0x0F])
    ∧ behindOpened [.record [5] .other] = none := by
  repeat' apply And.intro
  all_goals first
    | decide +kernel
    | exact fun _ => List.not_mem_nil

theorem test_closePeriod_witness :
    (Quiet (town .run) ∧ (town .run).link.op = .run ∧ (town .run).engine.state ≠ .sequence ∧ (town .run).store.a.state ≠ .closing
      ∧ (town .run).store.b.state ≠ .closing ∧ openBank (town .run) = some .a ∧ hdr (bank (town .run) .a) 7 ≠ 0xFF
      ∧ (bank (town .run) .b).state = .free ∧ (town .run).store.fault = false)
    ∧ ((town .run).outage.records.filter (fun r => r.stop.isNone)).length + 257 < freeSlots (town .run)
    ∧ (Quiet (closedB .run .closed) ∧ (bank (closedB .run .closed) .b).state ≠ .free)
    ∧ (Quiet (closedB .run .closing) ∧ ∀ k, ¬ ((closedB .run .closing).store.b.state ≠ .closing ∧ openBank (closedB .run .closing) = some k)) := by
  repeat' apply And.intro
  all_goals first
    | decide +kernel
    | exact quiet_of (by decide +kernel)
    | exact fun k h => h.1 rfl

/-- A statement slot being programmed in the closing bank B. -/
def stating (writing : Option Writing) : State :=
  { town .run with
    store.b := { state := .closing, stmtAppend := 16384 }
    store.path := .statement
    engine.state := .computing
    engine.bank := .b
    engine.writing := writing }

theorem test_statementSlots_witness :
    (∀ w ∈ [none, some (⟨77, [List.replicate 31 1], [], 0, 0⟩ : Writing), some ⟨77, [List.replicate 31 1, List.replicate 31 2], [], 1, 9⟩],
      (let s := stating w
      s.link.waiting = [] ∧ s.link.op ≠ .starting ∧ s.store.path = .statement ∧ s.store.queue = [] ∧ s.store.fault = false
        ∧ s.engine.state = .computing ∧ s.engine.closeDone = false ∧ s.engine.writing = w ∧ s.store.mismatches < 3))
    ∧ (let given := List.replicate 31 (1 : Byte) ++ [0x0F]
      let wrote (landed : List Byte) : Bank := { cells := cellsAnd [] (32 * 16384) (took ⟨some landed, []⟩ given), state := .closing, stmtAppend := 16385 }
      slotBytes (wrote given) 16384 = given ∧ slotBytes (wrote [0]) 16384 ≠ given ∧ slotState (wrote [0]) 16384 ≠ 0x0F
        ∧ 1 + 5 ≤ 32768 - (16384 + 1)) := by decide +kernel

/-- The CLOSE record next at a slot of the statement region of the closing bank B, with so many mismatches in a row. -/
def closingAt (j mismatches : Nat) : State :=
  { stating none with store.b := { state := .closing, stmtAppend := j }, store.mismatches := mismatches }

theorem test_closeRecord_witness :
    (∀ j ∈ [16384, 32767, 32768], ∀ m ∈ [0, 2, 3],
      (let s := closingAt j m
      s.link.waiting = [] ∧ s.link.inFlight = none ∧ s.craft.ident = false ∧ s.link.op ≠ .starting ∧ s.store.path = .statement
        ∧ s.store.queue = [] ∧ s.store.fault = false ∧ s.engine.state = .computing ∧ s.engine.closeDone = false
        ∧ s.engine.writing = none ∧ s.store.mismatches = m))
    ∧ (let s := closingAt 32767 0
      let body := closeRecord (bank s .b) s.engine
      let wrote (landed : List Byte) : Bank :=
        { bank s .b with cells := cellsAnd (bank s .b).cells (32 * 32767) (took ⟨some landed, []⟩ (body ++ [0x0F])), stmtAppend := 32768 }
      let voided (v : Byte) (x : Bank) : Bank := { x with cells := cellsAnd x.cells (32 * 32767 + 31) [v] }
      statementHead s = body ∧ slotBytes (wrote (body ++ [0x0F])) 32767 = body ++ [0x0F]
        ∧ slotBytes (wrote (0 :: body.drop 1 ++ [0x0F])) 32767 ≠ body ++ [0x0F]
        ∧ slotState (voided 0x0F (wrote (0 :: body.drop 1 ++ [0x0F]))) 32767 = 0x0F
        ∧ slotState (voided 0 (wrote (0 :: body.drop 1 ++ [0x0F]))) 32767 ≠ 0x0F) := by decide +kernel

/-- With the region used up nothing is programmed, and CLOSED follows; STATEMENTS_READY then carries what the CLOSE record would
have held (log 76). -/
theorem test_closeWithoutSlot : steps (.statementRecordProgrammed good) (closingAt 32768 0)
    (fun t => t.store.b.cells = [] && t.store.b.stmtAppend = 32768 && t.store.queue = [.header .b .closed]
      && match t.store.path with | .append => true | _ => false) = true := by decide +kernel

/-- Bank A's journal of the worked example's kinds: ROLL, PURCHASE, OUTAGE, CANCEL and POWER_UP for account 77. -/
def journaled : Bank :=
  { openedA with
    cells := [(0, 0), (1, 1), (2, 0), (3, 0), (4, 0), (5, 0x13), (6, 0x88), (7, 0), (8, 0), (9, 0), (10, 0x13), (11, 0xEC), (12, 0), (13, 0),
      (32, 8), (33, 0), (34, 0), (35, 0x13), (36, 0x88), (37, 0), (38, 0), (39, 0), (40, 77), (41, 0), (42, 0), (43, 1), (44, 0), (45, 1), (46, 8),
      (63, 0x0F),
      (64, 2), (65, 0), (66, 0), (67, 0x13), (68, 0x89), (69, 0), (70, 0), (71, 0), (72, 77), (73, 3), (74, 0), (75, 0), (76, 0x13), (77, 0x8A),
      (78, 0), (79, 0), (80, 0x13), (81, 0x8C), (82, 0), (83, 250), (95, 0x0F),
      (96, 4), (97, 0), (98, 0), (99, 0x13), (100, 0x90), (101, 8), (102, 1), (103, 0), (104, 0), (105, 0x13), (106, 0x8A), (107, 0), (108, 0),
      (109, 0x13), (110, 0x8A), (111, 0), (112, 0), (113, 0x13), (114, 0x90), (115, 1), (127, 0x0F),
      (128, 6), (129, 0), (130, 0), (131, 0x13), (132, 0xB0), (159, 0x0F)] }

theorem test_statementOf_figures :
    (let v := statementOf journaled 77
    v.active = 8 ∧ v.credited = 6 ∧ v.lines = [⟨0, 0, 8, 6⟩] ∧ v.ppv = 250 ∧ v.refund = 250 ∧ v.gap = true) := by decide +kernel

/-- The statements of that journal, with the region's append point at a slot. -/
def omitting (j : Nat) (writing : Option Writing) : State :=
  { stating writing with store.b := { journaled with state := .closing, stmtAppend := j } }

theorem test_statementsOmitted_witness :
    (accountsLeft (omitting 32762 none) = [77] ∧ (statementOf journaled 77).lines.length = 1
      ∧ 32768 - 32763 < 1 + 5 ∧ 1 + 5 ≤ 32768 - 32762 ∧ (takeAccount (omitting 32763 none)).engine.omitted = 1
      ∧ (takeAccount (omitting 32762 none)).engine.omitted = 0)
    ∧ (let s := omitting 32763 (some ⟨77, [List.replicate 31 1], [32762], 0, 0⟩)
      let given := List.replicate 31 (1 : Byte) ++ [0x0F]
      let wrote : Bank := { bank s .b with cells := cellsAnd (bank s .b).cells (32 * 32763) (took ⟨some [0], []⟩ given), stmtAppend := 32764 }
      s.link.waiting = [] ∧ s.link.op ≠ .starting ∧ s.store.path = .statement ∧ s.store.queue = [] ∧ s.store.fault = false
        ∧ s.engine.state = .computing ∧ s.engine.closeDone = false ∧ s.store.mismatches < 3
        ∧ slotBytes wrote 32763 ≠ given
        ∧ slotState { wrote with cells := cellsAnd wrote.cells (32 * 32763 + 31) [0] } 32763 ≠ 0x0F
        ∧ 32768 - (32763 + 1) < 0 + 5 ∧ ∀ v ∈ [(0 : Byte), 0xF7], v &&& 0x0F ≠ 0x0F) := by
  repeat' apply And.intro
  all_goals decide +kernel

/-! ## One step of each command -/

theorem test_status : steps (.status 1) (bare .starting) (fun t => lineCode t = some 0 && (lineBody t).take 2 = [0, 0]) = true := by
  decide +kernel
theorem test_identity : steps (.identity 1) (bare .unset)
    (fun t => (lineBody t).take 18 = [0, 0, 0, 0] ++ List.replicate 12 0xFF ++ [0xFF, 1]) = true := by decide +kernel
theorem test_noticeMask : steps (.noticeMask 1 0 1) (bare .unset)
    (fun t => !t.link.urgentOn && t.link.routineOn && lineBody t = [0, 1, 0, 0, 0, 0]) = true := by decide +kernel
theorem test_ackStart : steps (.ackStart 1) (bare .unset) (fun t => !t.time.coldStart && lineBody t = [1]) = true := by decide +kernel
theorem test_reset : steps (.reset 1) (bare .run) (fun t => t.link.resetPending && lineCode t = some 0) = true := by decide +kernel
theorem test_setTime : steps (.setTime 1 6000 30) (bare .unset)
    (fun t => t.time.clock = some (6000, 30) && t.link.op = .loading) = true := by decide +kernel
theorem test_setParams : steps (.setParams 1 ⟨some 99, none, some 8, none, none, none⟩) (bare .loading)
    (fun t => t.params.rampStep = 100 && t.params.pollShare = 7 && t.params.replyWindow = 40) = true := by decide +kernel
theorem test_go : steps (.go 1) (town .loading) (fun t => t.link.op = .run && t.lineup.queue.length = 192) = true := by decide +kernel
theorem test_go_opens : steps (.go 1) (bare .loading)
    (fun t => t.store.queue = [.header .a (.sequence 1), .header .a (.openMinute 5000), .header .a .opened]) = true := by
  decide +kernel
theorem test_loadChannel : steps (.loadChannel 1 ⟨96, 5, 0x1F, 0x80, 1, 1⟩) (bare .loading)
    (fun t => (chan t 96).eff = .base (.tier 15) && (chan t 96).carrier = .on && (chan t 96).level = 8) = true := by decide +kernel
theorem test_setChannel : steps (.setChannel 1 ⟨9, some 5, none, none, none⟩) (bare .run)
    (fun t => (chan t 9).route = some 5 && t.lineup.queue = [.route 9 (some 5)]) = true := by decide +kernel
theorem test_carrier : steps (.carrier 1 96 0) (bare .run)
    (fun t => (chan t 96).carrier = .rampUp && t.lineup.queue = [.level 96 1 true] && t.lineup.settleOpen) = true := by decide +kernel
theorem test_scheduleAdd : steps (.scheduleAdd 1 ⟨5001, 9, 0, 5, 0⟩) (bare .run)
    (fun t => t.schedule.entries = [⟨0, 5001, 9, .route (some 5), false⟩] && lineBody t = [0, 0, 0]) = true := by decide +kernel
theorem test_scheduleCancel : steps (.scheduleCancel 1 2) (withEntries [entryAt 1 10 false, entryAt 2 20 false] true)
    (fun t => t.schedule.entries = [entryAt 1 10 false]) = true := by decide +kernel
theorem test_scheduleList : steps (.scheduleList 1 0) (withEntries [entryAt 1 10 false] true)
    (fun t => lineBody t = [0, 1, 1, 0, 1, 1, 0, 1, 0, 0, 0, 10, 3, 0, 4, 0]) = true := by decide +kernel
theorem test_stepMode : steps (.stepMode 1 0) (bare .run) (fun t => t.schedule.stepMode && lineBody t = [1, 0, 0]) = true := by
  decide +kernel
theorem test_step : steps (.step 1) (withEntries [entryAt 1 10 false] true)
    (fun t => t.schedule.entries = [] && (chan t 3).route = some 4) = true := by decide +kernel
theorem test_alertStart : steps (.alertStart 1 121) (bare .run)
    (fun t => t.schedule.hostClaim = some (.at 5120) && t.schedule.active) = true := by decide +kernel
theorem test_alertEnd : steps (.alertEnd 1) (alerted .run (some .untilEnd) false)
    (fun t => t.schedule.hostClaim = none && !t.schedule.active) = true := by decide +kernel
theorem test_bind : steps (.bind 1 ⟨1, 78, 900, 3, 0xFFFF, 1, 0⟩) (town .run)
    (fun t => t.store.queue.length = 1 && t.link.inFlight.isSome && t.subs.length = 1) = true := by decide +kernel
theorem test_unbind : steps (.unbind 1 0) (town .run) (fun t => t.store.queue.length = 1 && t.subs.length = 1) = true := by
  decide +kernel
theorem test_setState : steps (.setState 1 0 2) (town .run) (fun t => t.store.queue = [.record
    ([1, 0, 0, 0x13, 0x88, 0, 0, 0, 77, 0, 0, 2, 0, 1, 8] ++ List.replicate 16 0xFF) .order]) = true := by decide +kernel
theorem test_setTiers : steps (.setTiers 1 0 1) (town .run) (fun t => t.store.queue = [] && lineCode t = some 0) = true := by
  decide +kernel
theorem test_setLimit : steps (.setLimit 1 0 1000001) (town .run)
    (fun t => (tget t.subs 0).map (·.limit) = some 1000000) = true := by decide +kernel
theorem test_querySub : steps (.querySub 1 1) (town .run) (fun t => lineBody t = [0]) = true := by decide +kernel
theorem test_resync : steps (.resync 1 ⟨some 0, none⟩) (town .loading)
    (fun t => t.plant.refresh = [(60, 2)] && lineBody t = [1, 1]) = true := by decide +kernel
theorem test_loadTap : steps (.loadTap 1 511 4095 8) (town .loading)
    (fun t => t.plant.refresh = [(511, 0), (511, 1), (511, 2), (511, 3)]) = true := by decide +kernel
theorem test_queryTap : steps (.queryTap 1 901) (town .run) (fun t => lineCode t = some 2) = true := by decide +kernel
theorem test_loadSegment : steps (.loadSegment 1 ⟨31, 7, 8, 255⟩) (town .run)
    (fun t => (tget t.telemetry.segments 31).map (·.parent) = some (some 8)) = true := by decide +kernel
theorem test_querySegment : steps (.querySegment 1 8) (town .run)
    (fun t => (lineBody t).take 10 = [4, 7, 0xFF, 0, 0, 0xFF, 0, 0xFF, 1, 7]) = true := by decide +kernel
theorem test_loadTransponder : steps (.loadTransponder 1 ⟨127, 4095, 8, 0, 1, -300, 700, 60⟩) (town .run)
    (fun t => (tget t.telemetry.transponders 127).map (fun x => (x.low, x.high, x.hysteresis)) = some (-200, 600, 50)) = true := by
  decide +kernel
theorem test_queryTransponder : steps (.queryTransponder 1 100) (town .run)
    (fun t => (lineBody t).take 10 = [5, 0, 100, 7, 2, 1, 0xFF, 0x9C, 1, 0x2C]) = true := by decide +kernel
theorem test_listOutages : steps (.listOutages 1 1 0) outages
    (fun t => (lineBody t).take 5 = [0, 2, 0, 1, 0]) = true := by decide +kernel
theorem test_ackOutage : steps (.ackOutage 1 0) outages (fun t => t.outage.records.all (·.acked)) = true := by decide +kernel
theorem test_watchSet : steps (.watchSet 1 ⟨3, 0, 100, 64, 1, 0, 1⟩) (town .run)
    (fun t => t.outage.watches[3]? = some ⟨true, some ⟨false, 64, 64, 1, true, true⟩, 0⟩) = true := by decide +kernel
theorem test_watchClear : steps (.watchClear 1 7) (watching .host false)
    (fun t => (t.outage.watches[7]?).map (·.enabled) = some false) = true := by decide +kernel
theorem test_releaseHeld : steps (.releaseHeld 1 15) (holding .host (some ⟨false, 0⟩) .lit)
    (fun t => t.outage.held[15]? = some none && (portOf t (60, 2)).map (·.sync) = some .inSync) = true := by decide +kernel
theorem test_dropHeld : steps (.dropHeld 1 15) (holding .host none .lit)
    (fun t => (portOf t (60, 2)).map (·.sync) = some .dropped) = true := by decide +kernel
theorem test_reclaimWatch : steps (.reclaimWatch 1) (watching .craft false)
    (fun t => t.outage.owner = .host && t.craft.print = ["RECLAIMED BY OFFICE".toList]) = true := by decide +kernel
theorem test_forceFree : steps (.forceFree 1 7) { town .run with craft.holds := 0x80 }
    (fun t => t.craft.holds = 0 && t.craft.print = ["FREED BY OFFICE 7".toList]) = true := by decide +kernel
theorem test_eventDefine : steps (.eventDefine 1 ⟨15, 96, 5000, 5001, 5002, 5002, 250⟩) (bare .run)
    (fun t => (eventOf t 15).map (·.state) = some .onSale) = true := by decide +kernel
theorem test_eventRemove : steps (.eventRemove 1 15) (offer .ended 5001 [] .run) (fun t => eventOf t 15 = none) = true := by
  decide +kernel
theorem test_eventCancel : steps (.eventCancel 1 15) (offer .onSale 5001 [] .run) (fun t => t.store.queue = [.record
    ([3, 0, 0, 0x13, 0x88, 15, 0, 0, 0x13, 0x56] ++ List.replicate 21 0xFF) .order]) = true := by decide +kernel
theorem test_purchase : steps (.purchase 1 0 15) (offer .onSale 5000 [] .run) (fun t => lineCode t = some 12) = true := by
  decide +kernel
theorem test_readBank : steps (.readBank 1 0 4 2) (town .run)
    (fun t => t.store.a.watermark = 6 && (lineBody t).length = 102) = true := by decide +kernel
theorem test_releaseBank : steps (.releaseBank 1 9) (closedB .run .closed)
    (fun t => t.store.queue = [.header .b .released]) = true := by decide +kernel
theorem test_lockWrite : steps (.lockWrite 1 1 4294967286) (named 9 0xFFFFFFFF 0xFFFFFFFF)
    (fun t => t.store.queue = [.identity .lockB 4294967286]) = true := by decide +kernel
theorem test_storeClear : steps (.storeClear 1) (town .loading) (fun t => t.store.queue = [.header .a .released]) = true := by
  decide +kernel
theorem test_setTariff : steps (.setTariff 1 15 65536) (bare .loading) (fun t => t.engine.tariff[15]? = some 65535) = true := by
  decide +kernel
theorem test_closePeriod : steps (.closePeriod 1) (town .run)
    (fun t => t.engine.state = .sequence && t.store.queue.length = 6 && t.engine.rolls.length = 1) = true := by decide +kernel

theorem test_linkFrameReceived : steps (.linkFrameReceived (frameBytes 1 7 [])) (bare .starting)
    (fun t => lineCode t = some 0 && (lineBody t).take 1 = [0]) = true := by decide +kernel
theorem test_linkBadLength : steps (.linkBadLength 603) { bare .run with link.hunting := false } (fun t => t.link.hunting) = true := by
  decide +kernel
theorem test_linkGapTimeout : steps .linkGapTimeout { bare .run with link.hunting := false } (fun t => t.link.hunting) = true := by
  decide +kernel
theorem test_outboundFrameSent : steps (.outboundFrameSent calm) (notices 1 1 true)
    (fun t => t.link.outbound = some (.notice ⟨1, true, none, []⟩ false) && t.link.urgent = []) = true := by decide +kernel
theorem test_powerOn : steps (.powerOn calm) (town .run) (fun t => t.link.op = .starting && t.subs = [] && t.time.coldStart) = true := by
  decide +kernel
theorem test_resetLine : steps (.resetLine calm) { town .run with time.coldStart := false }
    (fun t => t.time.cause = .resetLine && !t.time.coldStart && t.store.a.cells = openedA.cells) = true := by decide +kernel
theorem test_clockFault : steps (.clockFault calm) (town .run) (fun t => t.time.cause = .clockFault) = true := by decide +kernel
theorem test_recoveryScanEnd : steps (.recoveryScanEnd []) { bare .starting with store.a.cells := openedA.cells }
    (fun t => t.link.op = .unset && t.store.a.state = .open_ && t.store.a.append = 1) = true := by decide +kernel
theorem test_secondTick : steps .secondTick (atTime 5000 58) (fun t => t.time.clock = some (5000, 59)) = true := by decide +kernel
theorem test_minuteBoundary : steps .minuteBoundary (atTime 5000 58) (fun t => t.time.clock = some (5000, 58)) = true := by
  decide +kernel
theorem test_readyAssert : steps .readyAssert (matrix [.route 96 none] false) (fun t => t.lineup.ready && t.lineup.inTransfer) = true := by
  decide +kernel
theorem test_readyFall : steps .readyFall { matrix [.route 96 none] true with lineup.readyTimer := none }
    (fun t => !t.lineup.ready && t.lineup.readyTimer = some 500) = true := by decide +kernel
theorem test_readyTimerExpiry : steps .readyTimerExpiry (matrix [.route 96 none] true) (fun t => t.lineup.fault) = true := by
  decide +kernel
theorem test_dwellTimerExpiry : steps (.dwellTimerExpiry 96) { town .run with lineup.ramps := [⟨96, true, .dwell, 0, 0⟩] }
    (fun t => t.lineup.queue = [.level 96 1 true]) = true := by decide +kernel
theorem test_settleTimerExpiry : steps .settleTimerExpiry { town .run with lineup.settleOpen := true, lineup.settleTimer := some 0 }
    (fun t => !t.lineup.settleOpen) = true := by decide +kernel
theorem test_alertAssert : steps .alertAssert (bare .unset) (fun t => t.schedule.lineClaim && t.schedule.active) = true := by
  decide +kernel
theorem test_alertDeassert : steps .alertDeassert (alerted .run none true) (fun t => !t.schedule.active) = true := by decide +kernel
theorem test_plantFrameSent : steps .plantFrameSent (commanded .sending (sentPort ⟨true, 5⟩ 0))
    (fun t => t.plant.line = .turnaround && t.plant.timer = 2) = true := by decide +kernel
theorem test_turnaroundEnd : steps .turnaroundEnd (commanded .turnaround (sentPort ⟨true, 5⟩ 0))
    (fun t => t.plant.line = .window && t.plant.timer = 40) = true := by decide +kernel
theorem test_plantReplyReceived : steps (.plantReplyReceived ([0x38, 0x49, 0x83, 5, 0x09].zipIdx.map (fun c => ⟨c.1, c.2 = 0, true⟩)))
    (commanded .window (sentPort ⟨true, 5⟩ 0))
    (fun t => (portOf t (60, 3)).map (fun r => (r.sync, r.confirmed)) = some (.inSync, some ⟨true, 5⟩)) = true := by decide +kernel
theorem test_replyWindowExpiry : steps .replyWindowExpiry (polled (missed 2))
    (fun t => (tget t.telemetry.transponders 5).map (·.state) = some .missing
      && (tget t.telemetry.segments 8).map (·.service) = some .dark && t.outage.records.length = 2) = true := by decide +kernel
theorem test_journalRecordProgrammed : steps (.journalRecordProgrammed good) (recording 0)
    (fun t => t.store.a.append = 6 && slotState t.store.a 5 = 0x0F && t.store.queue.length = 99) = true := by decide +kernel
theorem test_headerFieldProgrammed : steps (.headerFieldProgrammed good) (marking .opened { cells := [(7, 0)] })
    (fun t => t.store.b.state = .open_ && t.store.queue.length = 16) = true := by decide +kernel
theorem test_closedWithoutRecord : steps (.headerFieldProgrammed good) (marking .closed {})
    (fun t => t.store.b.state = .closed && match t.link.outbound with
      | some (.notice n _) => n.body = ((closeRecord {} {}).drop 1).take 2 ++ ((closeRecord {} {}).drop 7).take 21
      | _ => false) = true := by decide +kernel
theorem test_statementRecordProgrammed : steps (.statementRecordProgrammed good) (stating none)
    (fun t => t.engine.closeDone && t.store.queue = [.header .b .closed]) = true := by decide +kernel
theorem test_identityWordProgrammed : steps (.identityWordProgrammed good)
    { named 0xFFFFFFFF 0 0 with store.path := .append, store.queue := [.identity .headId 9], craft.ident := true }
    (fun t => t.store.identity.headId = 9 && t.craft.print = ["OK IDENT 9".toList]) = true := by decide +kernel
theorem test_erasePageDone : steps (.erasePageDone .b [] []) { town .run with store.b := { cells := [(2, 0)], state := .erasing, page := some 0 } }
    (fun t => t.store.b.state = .free && t.store.b.cells = []) = true := by decide +kernel

theorem test_craftChar : steps (.craftChar 0x41) (town .run) (fun t => t.craft.buffer = ['A'] && t.craft.output = ['A']) = true := by
  decide +kernel
theorem test_craftBackspace : steps .craftBackspace (typing .run "AB" false) (fun t => t.craft.buffer = ['A']) = true := by decide +kernel
theorem test_craftLineEnd : steps (.craftLineEnd false) (typing .run "hold 7" false)
    (fun t => t.craft.print = ["OK HELD 7 2".toList] && t.craft.buffer = []) = true := by decide +kernel
theorem test_craftLineSent : steps .craftLineSent (printing 2 3)
    (fun t => t.craft.print = [word "OK", "LOST 3".toList] && t.craft.output = "OK\r\n".toList) = true := by decide +kernel
theorem test_hold : steps (.hold 7) (town .run) (fun t => t.craft.holds = 0x80
    && (tget t.telemetry.segments 8).map (·.service) = some .shadow) = true := by decide +kernel
theorem test_free : steps (.free 7) { town .run with craft.holds := 0x80 } (fun t => t.craft.holds = 0) = true := by decide +kernel
theorem test_showSeg : steps (.showSeg 9) (town .run) (fun t => t.craft.print = ["ERR NOT_LOADED".toList]) = true := by decide +kernel
theorem test_showXp : steps (.showXp 4096) (town .run) (fun t => t.craft.print = ["ERR RANGE".toList]) = true := by decide +kernel
theorem test_showTap : steps (.showTap 4095) (town .run) (fun t => t.craft.print = ["ERR NOT_LOADED".toList]) = true := by
  decide +kernel
theorem test_poll : steps (.poll 100) (town .run) (fun t => t.plant.urgent = [.craft (.poll 100)]) = true := by
  decide +kernel
theorem test_test : steps (.test 900 2 true) (town .run) (fun t => t.craft.print = ["ERR NOT_HELD".toList]) = true := by decide +kernel
theorem test_take : steps .take (town .run) (fun t => t.outage.owner = .craft) = true := by decide +kernel
theorem test_give : steps .give (watching .craft true)
    (fun t => t.outage.owner = .host && t.craft.print = ["OK GIVEN".toList]) = true := by decide +kernel
theorem test_watch : steps .watch (watching .host true) (fun t => t.craft.print = ["ERR OWNER".toList]) = true := by decide +kernel
theorem test_watchNEvent : steps (.watchNEvent 0 100 64 1 true false) (watching .craft true)
    (fun t => t.craft.print = ["OK WATCH 0 64".toList]) = true := by decide +kernel
theorem test_watchNGuard : steps (.watchNGuard 0 100 3 true false) (watching .craft true)
    (fun t => t.craft.print = ["ERR RANGE".toList]) = true := by decide +kernel
theorem test_watchNOff : steps (.watchNOff 7) (watching .craft true)
    (fun t => t.craft.print = ["OK WATCH 7 OFF 255".toList]) = true := by decide +kernel
theorem test_release : steps (.release 15) (holding .craft (some ⟨false, 0⟩) .lit)
    (fun t => t.craft.print = ["OK RELEASE 15 IN_SYNC".toList]) = true := by decide +kernel
theorem test_drop : steps (.drop 15) (holding .craft none .lit) (fun t => t.craft.print = ["OK DROP 15".toList]) = true := by
  decide +kernel
theorem test_ident : steps (.ident 9 true) (bare .unset) (fun t => t.store.queue = [.identity .headId 9] && t.craft.ident) = true := by
  decide +kernel

end Sys2Proof.Tests
end

