-- ==== Proofs/Steps.lean ====
section
/-! PROOFS. Every step keeps soundness (O4): the commands that carry an order arrive at the input queue, and every other command
is one event, ended by the choice of work and the taking of orders. -/

namespace Sys2Proof.Safety

open Sys2Proof.Machine

/-- An event that ends with the choice of work answers a sound next state where its own effect is sound. -/
theorem next_finish_sound {s : State} (h : Sound s) : ∃ t, (.next (finish s) : Result) = .next t ∧ Sound t :=
  ⟨_, rfl, finish_sound h⟩

/-- A frame on the outbound line that has been sent makes room for the next, or brings the reset (R179, R189). -/
theorem execOutboundFrameSent_sound {s : State} (r : ResetInputs) (h : Sound s) :
    ∃ t, execOutboundFrameSent r s = .next t ∧ Sound t := by
  refine ⟨_, rfl, ?_⟩
  split
  · exact h
  · exact ite_sound (resetEvent_sound _ _ h) (finish_sound (pump_sound (h.withLink _ h.link)))

/-- A frame received is discarded, or its order arrives (R177). -/
theorem execLinkFrameReceived_sound {s : State} (bytes : List Byte) (h : Sound s) :
    ∃ t, execLinkFrameReceived bytes s = .next t ∧ Sound t := by
  refine ⟨_, rfl, ?_⟩
  split
  · exact h
  · exact orderArrives_sound _ h

/-- Every command that carries no order keeps soundness. -/
theorem exec_event_sound {i : Instr} (e : i.order = none) {s : State} (h : Sound s) : ∃ t, exec i s = .next t ∧ Sound t := by
  cases i with
  | linkFrameReceived bytes => exact execLinkFrameReceived_sound bytes h
  | linkBadLength n => exact ⟨_, rfl, h.withLink _ h.link⟩
  | linkGapTimeout => exact ⟨_, rfl, h.withLink _ h.link⟩
  | outboundFrameSent r => exact execOutboundFrameSent_sound r h
  | powerOn r => exact ⟨_, rfl, resetEvent_sound _ _ h⟩
  | resetLine r => exact ⟨_, rfl, resetEvent_sound _ _ h⟩
  | clockFault r => exact ⟨_, rfl, resetEvent_sound _ _ h⟩
  | recoveryScanEnd voids => exact next_finish_sound (recoveryScan_sound _ h)
  | secondTick => exact next_finish_sound (tickSecond_sound h)
  | minuteBoundary => exact next_finish_sound (tickMinute_sound h)
  | readyAssert => exact next_finish_sound (readyAssert_sound h)
  | readyFall =>
    exact next_finish_sound (readyTimerRun_sound (h.withLine _ rfl rfl h.lineup.2.1 h.lineup.2.2))
  | readyTimerExpiry => exact next_finish_sound (ite_sound (raiseFault_sound h) h)
  | dwellTimerExpiry c => exact next_finish_sound (ite_sound (issueStep_sound _ h) h)
  | settleTimerExpiry =>
    exact next_finish_sound (ite_sound (h.withLine _ rfl rfl h.lineup.2.1 h.lineup.2.2) h)
  | alertAssert => exact next_finish_sound (alertInput_sound _ h)
  | alertDeassert => exact next_finish_sound (alertInput_sound _ h)
  | plantFrameSent => exact next_finish_sound (ite_sound h.same h)
  | turnaroundEnd => exact next_finish_sound (ite_sound h.same h)
  | plantReplyReceived chars => exact next_finish_sound (plantReceive_sound _ h)
  | replyWindowExpiry => exact next_finish_sound (ite_sound (endTx_sound _ h) h)
  | journalRecordProgrammed p => exact next_finish_sound (recordProgrammed_sound _ h)
  | headerFieldProgrammed p => exact next_finish_sound (headerProgrammed_sound _ h)
  | statementRecordProgrammed p => exact next_finish_sound (statementProgrammed_sound _ h)
  | identityWordProgrammed p => exact next_finish_sound (identityProgrammed_sound _ h)
  | erasePageDone bank left torn => exact next_finish_sound (erasePage_sound _ _ _ h)
  | craftChar byte =>
    exact next_finish_sound (ite_sound (craftErase_sound h)
      (ite_sound (craftEnd_sound _ (readService_sound h)) (craftKeep_sound _ h)))
  | craftBackspace => exact next_finish_sound (craftErase_sound h)
  | craftLineEnd service => exact next_finish_sound (craftEnd_sound _ h)
  | craftLineSent => exact next_finish_sound (lineSent_sound h)
  | hold n => exact next_finish_sound (craftHold_sound _ h)
  | free n => exact next_finish_sound (craftFree_sound _ h)
  | showSeg n => exact next_finish_sound (craftShowSeg_sound _ h)
  | showXp n => exact next_finish_sound (craftShowXp_sound _ h)
  | showTap n => exact next_finish_sound (craftShowTap_sound _ h)
  | poll n => exact next_finish_sound (craftPoll_sound _ h)
  | test a p on => exact next_finish_sound (craftTest_sound _ _ _ h)
  | take => exact next_finish_sound (craftTake_sound h)
  | give => exact next_finish_sound (craftGive_sound h)
  | watch => exact next_finish_sound (craftWatch_sound h)
  | watchNEvent n a span kinds urgent once => exact next_finish_sound (craftWatchSet_sound _ h)
  | watchNGuard n a span urgent once => exact next_finish_sound (craftWatchSet_sound _ h)
  | watchNOff n => exact next_finish_sound (craftWatchOff_sound _ h)
  | release n => exact next_finish_sound (craftRelease_sound _ h)
  | drop n => exact next_finish_sound (craftDrop_sound _ h)
  | ident n service => exact next_finish_sound (craftIdent_sound _ _ (h.withCraft _ h.craft))
  | _ => cases e

/-- Every command keeps soundness: one that carries an order joins it to the input queue. -/
theorem exec_sound (i : Instr) {s : State} (h : Sound s) : ∃ t, exec i s = .next t ∧ Sound t := by
  cases e : i.order with
  | none => exact exec_event_sound e h
  | some p => exact ⟨_, exec_order (tag := p.1) (o := p.2) e s, orderArrives_sound _ h⟩

/-- A step keeps soundness, with a command waiting and without. -/
theorem step_sound {s : State} (h : Sound s) : ∃ t, step s = .next t ∧ Sound t := by
  unfold step
  split
  · exact ⟨_, rfl, tick_sound h⟩
  · exact exec_sound _ h.same

/-- Settles O4: soundness is kept by the idle step and by every command. -/
theorem stepKeepsSound : Obligations.StepKeepsSound := by
  intro s t h e
  obtain ⟨u, hu, su⟩ := step_sound h
  cases hu.symm.trans e
  exact su

end Sys2Proof.Safety
end

