-- ==== Proofs/TierTable.lean ====
section
/-! PROOFS. The tier table follows the effective classes (O6, R4). -/

namespace Sys2Proof.Safety

open Sys2Proof.Machine

/-- A channel stands in the FREE set, in the set of its tier, or as the channel of its event, as its effective class says, and
nowhere else (R4). -/
def TableFollows (l : Lineup) : Prop :=
  l.map.length = 96 ∧ l.table.tiers.length = 16 ∧ l.table.showing.length = 16
    ∧ ∀ (i : Nat) (x : Channel), l.map[i]? = some x →
      (l.table.free.getLsbD i = true ↔ x.eff = .base .free)
      ∧ (∀ t : Fin 16, (∃ v, l.table.tiers[t.val]? = some v ∧ v.getLsbD i = true) ↔ x.eff = .base (.tier t))
      ∧ (∀ e : Fin 16, (l.table.showing[e.val]? = some (some (i + 1)) → x.eff = .ppv e)
        ∧ (x.eff = .ppv e → ∃ c, l.table.showing[e.val]? = some (some c))
        ∧ (x.eff = .ppv e → (∀ (j : Nat) (y : Channel), l.map[j]? = some y → y.eff = .ppv e → j = i) →
          l.table.showing[e.val]? = some (some (i + 1))))
      ∧ (x.eff = .base .dark ∨ x.eff = .base .reserved → l.table.free.getLsbD i = false
        ∧ (∀ v ∈ l.table.tiers, v.getLsbD i = false) ∧ some (i + 1) ∉ l.table.showing)

/-- The place of an entry of a full channel map. -/
theorem map_index_lt {m : List Channel} (h : m.length = 96) {i : Nat} {x : Channel} (hx : m[i]? = some x) : i < 96 := by
  have := (List.getElem?_eq_some_iff.mp hx).1
  omega

/-- An entry's bit in the set of the channels that satisfy a test. -/
theorem channelsWhere_entry (f : Channel → Bool) {m : List Channel} (h : m.length = 96) {i : Nat} {x : Channel}
    (hx : m[i]? = some x) : (channelsWhere m f).getLsbD i = f x := by
  rw [channelsWhere_getLsbD f m (map_index_lt h hx), hx]
  rfl

/-- A number of a tier or an event slot is that of its `Fin`. -/
theorem fin16_ofNat (t : Fin 16) : Fin.ofNat 16 t.val = t := by
  apply Fin.ext
  exact Nat.mod_eq_of_lt t.isLt

/-- The set of a tier in the table that a map gives. -/
theorem tierTableOf_tier (m : List Channel) (t : Fin 16) :
    (tierTableOf m).tiers[t.val]? = some (channelsWhere m (fun c => c.eff = .base (.tier t))) := by
  unfold tierTableOf
  simp only [List.getElem?_map, List.getElem?_range t.isLt, Option.map_some, fin16_ofNat]

/-- The entry of an event in the showing-event map that a map gives. -/
theorem tierTableOf_showing (m : List Channel) (e : Fin 16) :
    (tierTableOf m).showing[e.val]? = some (channelOfClass m (.ppv e)) := by
  unfold tierTableOf
  simp only [List.getElem?_map, List.getElem?_range e.isLt, Option.map_some, fin16_ofNat]

/-- Where some entry has a class, the first channel of that class is found. -/
theorem channelOfClass_isSome {m : List Channel} {k : EffClass} {i : Nat} {x : Channel} (hx : m[i]? = some x)
    (hk : x.eff = k) : ∃ c, channelOfClass m k = some c := by
  unfold channelOfClass
  rw [← Option.isSome_iff_exists, Option.isSome_map, List.findIdx?_isSome, List.any_eq_true]
  exact ⟨x, List.mem_of_getElem? hx, by simpa using hk⟩

/-- The first channel of a class has that class. -/
theorem channelOfClass_entry {m : List Channel} {k : EffClass} {i : Nat} {x : Channel}
    (h : channelOfClass m k = some (i + 1)) (hx : m[i]? = some x) : x.eff = k := by
  obtain ⟨j, y, hj, hy, hk, -⟩ := channelOfClass_eq.mp h
  obtain rfl : i = j := by omega
  rw [hx] at hy
  cases hy
  exact hk

/-- The table that the map gives follows the effective classes. -/
theorem tableFollows_of {l : Lineup} (hl : l.map.length = 96) (ht : l.table = tierTableOf l.map) : TableFollows l := by
  unfold TableFollows
  rw [ht]
  refine ⟨hl, by simp [tierTableOf], by simp [tierTableOf], fun i x hx => ?_⟩
  have hfree : ((tierTableOf l.map).free.getLsbD i = true ↔ x.eff = .base .free) := by
    rw [show (tierTableOf l.map).free = channelsWhere l.map (fun c => c.eff = .base .free) from rfl,
      channelsWhere_entry _ hl hx, decide_eq_true_iff]
  have htier : ∀ t : Fin 16, (∃ v, (tierTableOf l.map).tiers[t.val]? = some v ∧ v.getLsbD i = true)
      ↔ x.eff = .base (.tier t) := by
    intro t
    rw [tierTableOf_tier]
    simp [channelsWhere_entry _ hl hx]
  refine ⟨hfree, htier, fun e => ?_, fun hd => ⟨?_, fun v hv => ?_, fun hs => ?_⟩⟩
  · rw [tierTableOf_showing]
    refine ⟨fun h => channelOfClass_entry (Option.some.inj h) hx, fun h => ?_, fun h only => ?_⟩
    · obtain ⟨c, hc⟩ := channelOfClass_isSome hx h
      exact ⟨c, congrArg some hc⟩
    · obtain ⟨c, hc⟩ := channelOfClass_isSome hx h
      obtain ⟨j, y, rfl, hy, hk, -⟩ := channelOfClass_eq.mp hc
      rw [hc, only j y hy hk]
  · rw [Bool.eq_false_iff, ne_eq, hfree]
    rcases hd with hd | hd <;> simp [hd]
  · obtain ⟨t, hlt, rfl⟩ := List.mem_iff_getElem.mp hv
    have ht16 : t < 16 := by simpa [tierTableOf] using hlt
    rw [Bool.eq_false_iff]
    intro hb
    have := (htier ⟨t, ht16⟩).mp ⟨_, List.getElem?_eq_getElem hlt, hb⟩
    rcases hd with hd | hd <;> simp [hd] at this
  · obtain ⟨e, hlt, he⟩ := List.mem_iff_getElem.mp hs
    have he16 : e < 16 := by simpa [tierTableOf] using hlt
    have hc := tierTableOf_showing l.map ⟨e, he16⟩
    rw [List.getElem?_eq_getElem hlt, he] at hc
    have := channelOfClass_entry (Option.some.inj hc).symm hx
    rcases hd with hd | hd <;> simp [hd] at this

/-- In a sound state the tier table follows the effective classes. -/
theorem sound_tableFollows {m : Bool} {s : State} (h : SoundAt m s) : TableFollows s.lineup :=
  tableFollows_of h.lineup.1 h.classes.2

/-- A channel blacked out in the zone of a segment passes no port of that segment (R50). -/
theorem deriveContent_blackedOut {s : State} (h : s.lineup.map.length = 96) (segment slot : Nat) {i : Nat} {x : Channel}
    (hx : s.lineup.map[i]? = some x) (hz : x.zones.getLsbD (zoneOf s segment) = true) :
    (deriveContent s segment (some slot)).pass.getLsbD i = false := by
  have hout : (blackedOut s (zoneOf s segment)).getLsbD i = true := (channelsWhere_entry _ h hx).trans hz
  unfold deriveContent
  dsimp only
  split
  · exact BitVec.getLsbD_zero
  · split
    · simp [hout]
    · simp [hout]
    · exact BitVec.getLsbD_zero

/-- After any reset the tier table is empty and follows the effective classes. -/
theorem resetEvent_table (cause : ResetCause) (r : ResetInputs) (s : State) :
    TableFollows (resetEvent cause r s).lineup ∧ (resetEvent cause r s).lineup.table
      = { free := 0, tiers := List.replicate 16 0, showing := List.replicate 16 none } :=
  ⟨tableFollows_of reset_lineup_sound.1.1 reset_lineup_sound.2.1.2, rfl⟩

/-- The end of the reply to an accepted RESET is a reset of cause ORDER (R189). -/
theorem execOutboundFrameSent_reset {r : ResetInputs} {s : State} {x : Reply} (h : s.link.outbound = some (.reply x))
    (hk : x.kind = 0x85) (hb : x.body = [0]) : exec (.outboundFrameSent r) s = .next (resetEvent .order r s) := by
  show execOutboundFrameSent r s = _
  have hr : isResetReply (.reply x) = true := by
    show (decide (x.kind = 0x85) && decide (x.body = u8 (statusNum .ok))) = true
    rw [hk, hb]
    decide
  unfold execOutboundFrameSent
  rw [h]
  simp only [hr, if_true]

/-- Settles O6: the table is a function of the channel map in every sound state, a step keeps soundness, and a reset empties
both. -/
theorem tierTableFollowsTheClasses : Obligations.TierTableFollowsTheClasses := by
  refine ⟨fun s h => sound_tableFollows h, fun s t h e => sound_tableFollows (stepKeepsSound s t h e), ?_, ?_, ?_⟩
  · intro s t hs ht e
    rw [hs.classes.2, ht.classes.2, tierTableOf_congr e]
  · intro segment slot i x g s h hg hx hz
    refine deriveContent_blackedOut h.lineup.1 segment slot hx ?_
    unfold zoneOf
    rwa [hg]
  · rintro r i s (rfl | rfl | rfl | ⟨rfl, x, hx, hk, hb⟩)
    · exact ⟨_, rfl, resetEvent_table _ _ _⟩
    · exact ⟨_, rfl, resetEvent_table _ _ _⟩
    · exact ⟨_, rfl, resetEvent_table _ _ _⟩
    · exact ⟨_, execOutboundFrameSent_reset hx hk hb, resetEvent_table _ _ _⟩

end Sys2Proof.Safety
end

