-- ==== Proofs/LineupRules.lean ====
section
/-! PROOFS. What each operation of the matrix line and of the ramps does, as one record update of the state: the layer that the
proofs about Chapter 1 and Chapter 2 cite. -/

namespace Sys2Proof.Safety

open Sys2Proof.Machine

/-! ## The ends of events -/

/-- What changes the line-up and the plant line alone leaves the link. -/
theorem LinePlant.link {s t : State} (h : LinePlant s t) : t.link = s.link := by
  obtain ⟨l, pl, rfl⟩ := h
  rfl

/-- An event whose effect leaves the link ends with the choice of work, where no order waits. -/
theorem finish_line {s t : State} (hw : s.link.waiting = []) (h : LinePlant s t) : finish t = kick t :=
  finish_of_none ((congrArg Link.waiting h.link).trans hw)

/-! ## Notices -/

/-- The link after its outbound line has taken up what waits. -/
def pumpedLink (l : Link) : Link := (pump { link := l }).link

/-- The outbound line changes the link alone, as the link alone says. -/
theorem pump_eq (s : State) : pump s = { s with link := pumpedLink s.link } := by
  unfold pumpedLink pump
  dsimp only
  repeat' split
  all_goals rfl

/-- The link after a notice has been handed to it, at a clock. -/
def noticedLink (kind : Nat) (urgent : Bool) (body : List Byte) (t : Timebase) (l : Link) : Link :=
  (notice kind urgent body { link := l, time := t }).link

/-- A notice changes the link alone, as the link and the clock say. -/
theorem notice_eq (kind : Nat) (urgent : Bool) (body : List Byte) (s : State) :
    notice kind urgent body s = { s with link := noticedLink kind urgent body s.time s.link } := by
  unfold noticedLink notice
  simp only [pump_eq]
  repeat' split
  all_goals rfl

/-- What waits, what is in flight and the operating state are none of the outbound line's. -/
theorem pumpedLink_keeps (l : Link) : (pumpedLink l).waiting = l.waiting ∧ (pumpedLink l).inFlight = l.inFlight
    ∧ (pumpedLink l).op = l.op :=
  have k := pump_kept { link := l }
  ⟨k.waiting, k.inFlight, k.op⟩

/-- A notice leaves the orders that wait, the order in flight and the operating state. -/
theorem noticedLink_keeps (kind : Nat) (urgent : Bool) (body : List Byte) (t : Timebase) (l : Link) :
    (noticedLink kind urgent body t l).waiting = l.waiting ∧ (noticedLink kind urgent body t l).inFlight = l.inFlight
      ∧ (noticedLink kind urgent body t l).op = l.op := by
  unfold noticedLink notice
  simp only [pump_eq]
  repeat' split
  all_goals first
    | exact ⟨rfl, rfl, rfl⟩
    | exact pumpedLink_keeps _

/-- A notice leaves the orders that wait. -/
theorem notice_waiting (kind : Nat) (urgent : Bool) (body : List Byte) (s : State) :
    (notice kind urgent body s).link.waiting = s.link.waiting := by
  rw [notice_eq]
  exact (noticedLink_keeps ..).1

/-- A notice leaves the order in flight. -/
theorem notice_inFlight (kind : Nat) (urgent : Bool) (body : List Byte) (s : State) :
    (notice kind urgent body s).link.inFlight = s.link.inFlight := by
  rw [notice_eq]
  exact (noticedLink_keeps ..).2.1

/-- A notice leaves the operating state. -/
theorem notice_op (kind : Nat) (urgent : Bool) (body : List Byte) (s : State) :
    (notice kind urgent body s).link.op = s.link.op := by
  rw [notice_eq]
  exact (noticedLink_keeps ..).2.2

/-! ## The matrix line -/

/-- What the matrix line does after a change of its queue or of READY (R12, R13). -/
theorem lineRun_eq (s : State) : lineRun s = { s with
    lineup.inTransfer := s.lineup.inTransfer
      || (running s && !s.lineup.fault && s.lineup.ready && !s.lineup.queue.isEmpty)
    lineup.readyTimer := if !s.lineup.queue.isEmpty && !s.lineup.ready && !s.lineup.fault then
      some (s.lineup.readyTimer.getD 500) else none } := by
  have hsend : sendHead s = { s with lineup.inTransfer := s.lineup.inTransfer
      || (running s && !s.lineup.fault && s.lineup.ready && !s.lineup.queue.isEmpty) } := by
    unfold sendHead
    cases ht : s.lineup.inTransfer with
    | true => rw [if_neg (by simp)]; simp only [Bool.true_or]; rw [← ht]
    | false =>
      split
      · rename_i h
        simp only [Bool.not_false, Bool.and_true] at h
        simp only [Bool.false_or, h]
      · rename_i h
        simp only [Bool.not_false, Bool.and_true, Bool.not_eq_true] at h
        simp only [Bool.false_or, h]
        rw [← ht]
  unfold lineRun
  rw [hsend]
  unfold readyTimerRun
  dsimp only
  split
  · cases hr : s.lineup.readyTimer with
    | none => rfl
    | some n => simp only [Option.getD_some]
  · rfl

/-- In RUN, in IDLE and with READY asserted the head command is sent, where there is one (R12). -/
theorem lineRun_ready {s : State} (hrun : s.link.op = .run) (hf : s.lineup.fault = false) (hr : s.lineup.ready = true)
    (ht : s.lineup.inTransfer = false) :
    lineRun s = { s with lineup.inTransfer := !s.lineup.queue.isEmpty, lineup.readyTimer := none } := by
  rw [lineRun_eq]
  simp [running, hrun, hf, hr, ht]

/-- With no command queued and no READY timer running the matrix line does nothing. -/
theorem lineRun_empty {s : State} (hq : s.lineup.queue = []) (ht : s.lineup.readyTimer = none) : lineRun s = s := by
  have hsent : (s.lineup.inTransfer || (running s && !s.lineup.fault && s.lineup.ready && !s.lineup.queue.isEmpty))
      = s.lineup.inTransfer := by simp [hq]
  have htimer : (if !s.lineup.queue.isEmpty && !s.lineup.ready && !s.lineup.fault then
      some (s.lineup.readyTimer.getD 500) else none) = s.lineup.readyTimer := by simp [hq, ht]
  rw [lineRun_eq, hsent, htimer]

/-- An order in flight makes no difference to the matrix line. -/
theorem lineRun_taken (tag : Byte) (o : Order) (s : State) : lineRun (taken tag o s) = taken tag o (lineRun s) := by
  rw [lineRun_eq, lineRun_eq]
  rfl

/-- With no entry deferred a departure queues nothing. -/
theorem departure_nil {s : State} (h : s.lineup.deferred = []) : departure s = s := by
  unfold departure
  rw [h]

/-- A departure queues the head of the deferred list (R11). -/
theorem departure_cons {s : State} {d : Deferred} {ds : List Deferred} (h : s.lineup.deferred = d :: ds) :
    departure s = { s with lineup.queue := s.lineup.queue ++ [deferredCommand s d], lineup.deferred := ds } := by
  unfold departure
  rw [h]

/-- An automatic command joins the tail of a queue with room (R10). -/
theorem joinCommand_room {s : State} (h : s.lineup.queue.length < 256) (m : MatrixCmd) (d : Deferred) :
    joinCommand m d s = lineRun { s with lineup.queue := s.lineup.queue ++ [m] } := by
  unfold joinCommand
  rw [if_pos h]

/-- An automatic command that finds the queue full is deferred, once (R11). -/
theorem joinCommand_full {s : State} (h : s.lineup.queue.length = 256) (m : MatrixCmd) (d : Deferred) :
    joinCommand m d s = { s with lineup.deferred :=
      if s.lineup.deferred.contains d then s.lineup.deferred else s.lineup.deferred ++ [d] } := by
  unfold joinCommand
  rw [if_neg (by omega)]
  split <;> rfl

/-! ## Entries of the channel map -/

/-- The entry of a channel after a function on another channel's or on its own. -/
theorem chan_modChan_keeps {α : Type} (g : Channel → α) (c d : Nat) {f : Channel → Channel} (hf : ∀ e, g (f e) = g e)
    (s : State) : g (chan (modChan c f s) d) = g (chan s d) := by
  unfold chan modChan
  rw [lmod_get]
  split
  · rename_i h
    rw [← h]
    cases s.lineup.map[c - 1]? with
    | none => rfl
    | some e => exact hf e
  · rfl

/-- An entry written as it stands leaves the map. -/
theorem set_chan_self {s : State} (h : s.lineup.map.length = 96) {c : Nat} (h1 : 1 ≤ c) (h2 : c ≤ 96) :
    s.lineup.map.set (c - 1) (chan s c) = s.lineup.map := by
  apply List.ext_getElem?
  intro j
  by_cases hj : c - 1 = j
  · subst hj
    rw [List.getElem?_set_self (by omega), chan_eq h h1 h2]
  · rw [List.getElem?_set_ne hj]

/-- The entry of a channel in a map where it has been written. -/
theorem chan_of_set {s t : State} {e : Channel} (h : s.lineup.map.length = 96) {c : Nat} (h1 : 1 ≤ c) (h2 : c ≤ 96)
    (ht : t.lineup.map = s.lineup.map.set (c - 1) e) : chan t c = e := by
  unfold chan
  rw [ht]
  exact chan_set h h1 h2 e

/-- What an entry written keeps of its channel reads as before for every channel. -/
theorem chan_of_set_keeps {α : Type} (g : Channel → α) {s t : State} {e : Channel} (h : s.lineup.map.length = 96) {c : Nat}
    (h1 : 1 ≤ c) (h2 : c ≤ 96) (ht : t.lineup.map = s.lineup.map.set (c - 1) e) (he : g e = g (chan s c)) (d : Nat) :
    g (chan t d) = g (chan s d) := by
  by_cases hd : c - 1 = d - 1
  · have hs : chan s d = chan s c := by unfold chan; rw [hd]
    have hc : chan t d = chan t c := by unfold chan; rw [hd]
    rw [hs, hc, chan_of_set h h1 h2 ht, he]
  · unfold chan
    rw [ht, List.getElem?_set_ne hd]

/-- The command that a deferred entry becomes reads the route and the level of its channel, and its ramp, alone (R11). -/
theorem deferredCommand_modChan (c : Nat) {f : Channel → Channel} (hr : ∀ e, (f e).route = e.route)
    (hv : ∀ e, (f e).level = e.level) (d : Deferred) (s : State) :
    deferredCommand (modChan c f s) d = deferredCommand s d := by
  unfold deferredCommand
  rw [chan_modChan_keeps (·.route) c d.channel hr, chan_modChan_keeps (·.level) c d.channel hv]
  rfl

/-- A deferred entry's command, with the level of its ramp's step or the level recorded (R11). -/
theorem deferredCommand_eq (s : State) (d : Deferred) : deferredCommand s d =
    if d.isLevel then .level d.channel ((rampOf s d.channel).elim (chan s d.channel).level (·.step)) true
    else .route d.channel (chan s d.channel).route := by
  unfold deferredCommand
  cases rampOf s d.channel <;> rfl

/-- A flag set where a condition holds, and else as it stands. -/
theorem or_eq_ite (a b : Bool) : (a || b) = if b = true then true else a := by
  cases b <;> simp

/-- The applied flag after an acceptance (R15). -/
theorem judgeApplied_eq {s : State} (h : s.lineup.map.length = 96) {c : Nat} (h1 : 1 ≤ c) (h2 : c ≤ 96) :
    judgeApplied c s = { s with lineup.map := s.lineup.map.set (c - 1) { chan s c with
      applied := (chan s c).applied || (!hasCommand s c && decide ((chan s c).accepted = some (chan s c).route)) } } := by
  unfold judgeApplied
  split
  · rename_i hj
    rw [hj, Bool.or_true, modChan_eq h h1 h2]
  · rename_i hj
    rw [Bool.not_eq_true] at hj
    rw [hj, Bool.or_false]
    show s = { s with lineup.map := s.lineup.map.set (c - 1) (chan s c) }
    rw [set_chan_self h h1 h2]

/-- The acceptance of the ROUTE in transfer (R12, R15). -/
theorem acceptHead_route {s : State} {c : Nat} {src : Option Nat} {q : List MatrixCmd}
    (h : s.lineup.queue = .route c src :: q) : acceptHead s
      = lineRun (judgeApplied c (departure (modChan c (fun e => { e with accepted := some src })
        { s with lineup.queue := q, lineup.inTransfer := false }))) := by
  unfold acceptHead
  rw [h]

/-- The acceptance of the LEVEL in transfer (R12, R18). -/
theorem acceptHead_level {s : State} {c v : Nat} {step : Bool} {q : List MatrixCmd}
    (h : s.lineup.queue = .level c v step :: q) : acceptHead s
      = lineRun (judgeApplied c (acceptLevel c v step (departure { s with lineup.queue := q, lineup.inTransfer := false }))) := by
  unfold acceptHead
  rw [h]

/-! ## The ramps -/

/-- A write to the ramp of a channel leaves the ramps of the others. -/
theorem map_ramps_others {l : List Ramp} {c : Nat} (h : ∀ r ∈ l, r.channel ≠ c) (f : Ramp → Ramp) :
    l.map (fun x => if x.channel = c then f x else x) = l := by
  refine (List.map_congr_left (g := id) (fun r hr => ?_)).trans (List.map_id l)
  rw [if_neg (h r hr)]
  rfl

/-- Where no channel waits none starts. -/
theorem startRamp_nil {s : State} (h : s.lineup.rampQueue = []) : startRamp s = s := by
  unfold startRamp
  rw [h]
  split <;> rfl

/-- Where no channel waits none starts. -/
theorem startRamps_nil {s : State} (h : s.lineup.rampQueue = []) : startRamps s = s := by
  unfold startRamps
  rw [startRamp_nil h, startRamp_nil h]

/-- The channel at the head of the ramp queue starts where a place is free (R17, R21). -/
theorem startRamp_cons {s : State} (h : s.lineup.map.length = 96) {c : Nat} (h1 : 1 ≤ c) (h2 : c ≤ 96) {q : List Nat}
    (hrun : running s = true) (hf : s.lineup.fault = false) (hr : s.lineup.ramps.length < 2)
    (hq : s.lineup.rampQueue = c :: q) : startRamp s = issueStep c { s with
      lineup.map := s.lineup.map.set (c - 1) { chan s c with
        carrier := if (chan s c).carrier = .waitUp then .rampUp else .rampDown }
      lineup.rampQueue := q
      lineup.ramps := s.lineup.ramps ++ [⟨c, (chan s c).carrier = .waitUp, .command, 0, 0⟩]
      lineup.settleOpen := true
      lineup.settleTimer := none } := by
  unfold startRamp
  rw [if_pos (by simp [hrun, hf, hr]), hq]
  dsimp only
  rw [modChan_eq (by exact h) h1 h2]
  simp only [decide_eq_true_eq]
  rfl

/-- Outside RUN no ramp starts (R17). -/
theorem startRamps_of_not_running {s : State} (h : running s = false) : startRamps s = s := by
  have e : startRamp s = s := by
    unfold startRamp
    rw [h]
    rfl
  unfold startRamps
  rw [e, e]

/-- The last ramp ends, with no channel waiting and its step not deferred: the settle timer starts (R21). -/
theorem endRamp_last {s : State} {r : Ramp} {c : Nat} (hr : s.lineup.ramps = [r]) (hc : r.channel = c)
    (hq : s.lineup.rampQueue = []) (hd : ⟨c, true⟩ ∉ s.lineup.deferred) :
    endRamp c s = { s with lineup.ramps := [], lineup.settleTimer := some 5000 } := by
  have hrest : s.lineup.ramps.filter (fun r => r.channel ≠ c) = [] := by simp [hr, hc]
  have hdef : s.lineup.deferred.filter (fun d => d ≠ ⟨c, true⟩) = s.lineup.deferred :=
    List.filter_eq_self.mpr (fun d h => by
      simpa using fun e : d = ⟨c, true⟩ => hd (e ▸ h))
  unfold endRamp
  simp only [hrest, List.isEmpty_nil, if_true, hdef]
  rw [startRamps_nil (by exact hq)]

/-- The next step of a ramp, before its LEVEL joins (R15, R18). -/
theorem issueStep_eq {s : State} (h : s.lineup.map.length = 96) {c : Nat} (h1 : 1 ≤ c) (h2 : c ≤ 96) {r : Ramp}
    (hr : rampOf s c = some r) : issueStep c s
      = joinCommand (.level c (if r.up then (chan s c).level + 1 else (chan s c).level - 1) true) ⟨c, true⟩ { s with
        lineup.ramps := s.lineup.ramps.map (fun x => if x.channel = c then { x with
          phase := .command, step := if r.up then (chan s c).level + 1 else (chan s c).level - 1, left := 0 } else x)
        lineup.map := s.lineup.map.set (c - 1) { chan s c with applied := false } } := by
  unfold issueStep
  rw [hr]
  dsimp only
  rw [modChan_eq (s := modRamp c _ s) h h1 h2]
  rfl

end Sys2Proof.Safety
end

