-- ==== Proofs/ReadyLine.lean ====
section
/-! PROOFS. The bank's READY line (O22). -/

namespace Sys2Proof.Safety

open Sys2Proof.Machine

/-- READY asserted outside FAULT in IDLE sends the head command in RUN (R12). -/
theorem readyAssert_idle {s : State} (hf : s.lineup.fault = false) (ht : s.lineup.inTransfer = false) :
    readyAssert s = { s with
      lineup.ready := true, lineup.readyTimer := none
      lineup.inTransfer := running s && !s.lineup.queue.isEmpty } := by
  unfold readyAssert
  simp only [hf, ht, Bool.false_eq_true, if_false, lineRun_eq]
  simp [running]

/-- READY asserted outside FAULT in BUSY accepts the head command (R12). -/
theorem readyAssert_busy {s : State} (hf : s.lineup.fault = false) (ht : s.lineup.inTransfer = true) :
    readyAssert s = acceptHead { s with lineup.ready := true, lineup.readyTimer := none } := by
  unfold readyAssert
  simp only [hf, ht, Bool.false_eq_true, if_false, if_true]

/-- The event of a READY assertion, where no order waits and the fault stays as it is. -/
theorem exec_readyAssert {s t : State} (hw : t.link.waiting = []) (e : readyAssert s = t) :
    exec .readyAssert s = .next (kick t) := by
  show Host.Outcome.next (finish (readyAssert s)) = _
  rw [e, finish_of_none hw]

/-- The acceptance of a ROUTE with no entry deferred: its source is recorded, the applied flag judged, and the next head sent
(R12, R15). -/
theorem acceptHead_route_nil {s : State} (h : s.lineup.map.length = 96) {c : Nat} (h1 : 1 ≤ c) (h2 : c ≤ 96)
    {src : Option Nat} {q : List MatrixCmd} (hq : s.lineup.queue = .route c src :: q) (hd : s.lineup.deferred = []) :
    acceptHead s = lineRun { s with
      lineup.queue := q, lineup.inTransfer := false
      lineup.map := s.lineup.map.set (c - 1) { chan s c with
        accepted := some src
        applied := if !q.any (fun m => cmdChannel m = c) && src = (chan s c).route then true else (chan s c).applied } } := by
  obtain ⟨u, hu⟩ : ∃ u : State, u = { s with
    lineup.queue := q, lineup.inTransfer := false
    lineup.map := s.lineup.map.set (c - 1) { chan s c with accepted := some src } } := ⟨_, rfl⟩
  have hm : modChan c (fun e => { e with accepted := some src }) { s with lineup.queue := q, lineup.inTransfer := false } = u :=
    (modChan_eq (by exact h) h1 h2 _).trans hu.symm
  have hc : chan u c = { chan s c with accepted := some src } := chan_of_set h h1 h2 (by rw [hu])
  have hl : u.lineup.map.length = 96 := by rw [hu]; simpa using h
  have hg : hasCommand u c = q.any (fun m => cmdChannel m = c) := by rw [hu]; simp [hasCommand, hd]
  rw [acceptHead_route hq, departure_nil (by exact hd), hm, judgeApplied_eq hl h1 h2, hc, hg, hu]
  simp only [List.set_set, Option.some.injEq, or_eq_ite]

/-- READY falling starts the READY timer while commands are queued, outside FAULT (R13). -/
theorem readyTimerRun_fall {s : State} (hf : s.lineup.fault = false) :
    readyTimerRun { s with lineup.ready := false } = { s with
      lineup.ready := false
      lineup.readyTimer := if s.lineup.queue = [] then none else some (s.lineup.readyTimer.getD 500) } := by
  unfold readyTimerRun
  cases hq : s.lineup.queue with
  | nil => simp
  | cons m q => cases ht : s.lineup.readyTimer <;> simp [hf, ht, hq]

/-- Settles O22, by the state of the matrix line in which READY moves. -/
theorem readyLineMovesTheQueue : Obligations.ReadyLineMovesTheQueue := by
  intro s hs hw hf
  refine ⟨fun hq ht => ?_, fun hq ht hrun => ?_, fun c src q hq ht hd hrun h1 h2 => ?_, ?_, fun ht => ?_, fun m q hq ht => ?_⟩
  · refine exec_readyAssert (by exact hw) ((readyAssert_idle hf ht).trans ?_)
    simp [hq, ← ht]
  · refine exec_readyAssert (by exact hw) ((readyAssert_idle hf ht).trans ?_)
    simp [running, hrun, hq]
  · refine exec_readyAssert (by exact hw) ((readyAssert_busy hf ht).trans ?_)
    rw [acceptHead_route_nil (by exact hs.lineup.1) h1 h2 (by exact hq) (by exact hd),
      lineRun_ready (by exact hrun) (by exact hf) rfl rfl]
    rfl
  · show Host.Outcome.next (finish _) = _
    rw [readyTimerRun_fall hf, finish_of_none (by exact hw)]
  · simp [matrixLine, ht]
  · rcases m with ⟨c, _ | n⟩ | ⟨c, v, st⟩ <;> simp [matrixLine, ht, hq, matrixBytes, u8, be, sourceNum]

end Sys2Proof.Safety
end

