-- ==== Proofs/RampSteps.lean ====
section
/-! PROOFS. Ramp steps accepted, the matrix timers, and the end of a matrix fault (O23). -/

namespace Sys2Proof.Safety

open Sys2Proof.Machine

/-! ## The acceptance of a ramp step's LEVEL (R12, R18, R21) -/

/-- The entry of a channel whose ramp step's LEVEL has been accepted, with no other command for it (R15, R18). -/
def stepAccepted (s : State) (c v : Nat) (k : Carrier) : Channel :=
  { chan s c with
    level := v, carrier := k, applied := (chan s c).applied || (chan s c).accepted = some (chan s c).route }

/-- The only ramp ends at the acceptance of its last step (R18, R21). -/
theorem acceptLevel_end {s : State} (h : s.lineup.map.length = 96) {c v : Nat} (h1 : 1 ≤ c) (h2 : c ≤ 96) {r : Ramp}
    (hr : s.lineup.ramps = [r]) (hc : r.channel = c) (hq : s.lineup.rampQueue = []) (hd : ⟨c, true⟩ ∉ s.lineup.deferred)
    (he : (r.up = true ∧ v = 8) ∨ (r.up = false ∧ v = 0)) : acceptLevel c v true s = { s with
      lineup.ramps := [], lineup.settleTimer := some 5000
      lineup.map := s.lineup.map.set (c - 1) { chan s c with level := v, carrier := if r.up then .on else .off } } := by
  have hramp : rampOf (modChan c (fun e => { e with level := v }) s) c = some r := by
    show s.lineup.ramps.find? _ = _
    simp [hr, hc]
  have hset (k : Carrier) : modChan c (fun e => { e with carrier := k }) (modChan c (fun e => { e with level := v }) s)
      = { s with lineup.map := s.lineup.map.set (c - 1) { chan s c with level := v, carrier := k } } := by
    rw [← modChan_eq h h1 h2 (fun e => { e with level := v, carrier := k })]
    unfold modChan
    rw [lmod_lmod]
  unfold acceptLevel
  simp only [hramp, hset, Bool.not_true, Bool.false_eq_true, if_false]
  rcases he with ⟨hu, hv⟩ | ⟨hu, hv⟩
  · simp only [hu, hv, decide_true, Bool.and_self, if_true]
    exact endRamp_last (by exact hr) hc (by exact hq) (by exact hd)
  · simp only [hu, hv, decide_true, Bool.false_and, Bool.not_false, Bool.and_self, Bool.false_eq_true, if_true, if_false]
    exact endRamp_last (by exact hr) hc (by exact hq) (by exact hd)

/-- The only ramp dwells at the acceptance of any other step (R18). -/
theorem acceptLevel_dwell {s : State} (h : s.lineup.map.length = 96) {c v : Nat} (h1 : 1 ≤ c) (h2 : c ≤ 96) {r : Ramp}
    (hr : s.lineup.ramps = [r]) (hc : r.channel = c) (he : (r.up = true ∧ v ≠ 8) ∨ (r.up = false ∧ v ≠ 0)) :
    acceptLevel c v true s = { s with
      lineup.ramps := [{ r with phase := .dwell, left := s.params.rampStep }]
      lineup.map := s.lineup.map.set (c - 1) { chan s c with level := v } } := by
  have hramp : rampOf (modChan c (fun e => { e with level := v }) s) c = some r := by
    show s.lineup.ramps.find? _ = _
    simp [hr, hc]
  unfold acceptLevel
  simp only [hramp, Bool.not_true, Bool.false_eq_true, if_false]
  have hlast : modRamp c (fun r => { r with phase := .dwell, left := s.params.rampStep }) (modChan c (fun e => { e with level := v }) s)
      = { s with
        lineup.ramps := [{ r with phase := .dwell, left := s.params.rampStep }]
        lineup.map := s.lineup.map.set (c - 1) { chan s c with level := v } } := by
    rw [modChan_eq h h1 h2]
    unfold modRamp
    simp [hr, hc]
  rcases he with ⟨hu, hv⟩ | ⟨hu, hv⟩ <;> simpa [hu, hv] using hlast

/-- The acceptance of the only command, with nothing deferred: after the ramp has been served the applied flag is judged and
the line stands in IDLE (R12, R15). -/
theorem acceptHead_lastLevel {s t : State} (hl : t.lineup.map.length = 96) {c v : Nat} (h1 : 1 ≤ c) (h2 : c ≤ 96)
    (hq : s.lineup.queue = [.level c v true]) (hd : s.lineup.deferred = [])
    (ht : acceptLevel c v true { s with lineup.queue := [], lineup.inTransfer := false } = t)
    (tq : t.lineup.queue = []) (td : t.lineup.deferred = []) (tr : t.lineup.readyTimer = none) :
    acceptHead s = { t with lineup.map := t.lineup.map.set (c - 1) { chan t c with
      applied := (chan t c).applied || (chan t c).accepted = some (chan t c).route } } := by
  rw [acceptHead_level hq, departure_nil (by exact hd), ht, judgeApplied_eq hl h1 h2,
    lineRun_empty (by exact tq) (by exact tr)]
  simp [hasCommand, tq, td]

/-- READY asserted at the last step of the only ramp ends it (R12, R18, R21). -/
theorem readyAssert_rampEnds {s : State} (hs : Sound s) (hf : s.lineup.fault = false) (ht : s.lineup.inTransfer = true)
    (hd : s.lineup.deferred = []) {c v : Nat} (hq : s.lineup.queue = [.level c v true]) {r : Ramp} (hr : s.lineup.ramps = [r])
    (hc : r.channel = c) (hw : s.lineup.rampQueue = []) (h1 : 1 ≤ c) (h2 : c ≤ 96)
    (he : (r.up = true ∧ v = 8) ∨ (r.up = false ∧ v = 0)) : readyAssert s = { s with
      lineup.ready := true, lineup.readyTimer := none, lineup.queue := [], lineup.inTransfer := false, lineup.ramps := []
      lineup.settleTimer := some 5000
      lineup.map := s.lineup.map.set (c - 1) (stepAccepted s c v (if r.up then .on else .off)) } := by
  have hl := hs.lineup.1
  obtain ⟨t, tdef⟩ : ∃ t : State, t = { s with
      lineup.ready := true, lineup.readyTimer := none, lineup.queue := [], lineup.inTransfer := false, lineup.ramps := []
      lineup.settleTimer := some 5000
      lineup.map := s.lineup.map.set (c - 1) { chan s c with level := v, carrier := if r.up then .on else .off } } := ⟨_, rfl⟩
  have hacc := (acceptLevel_end (s := { s with
      lineup.ready := true, lineup.readyTimer := none, lineup.queue := [], lineup.inTransfer := false })
    hl h1 h2 hr hc hw (by simp [hd]) he).trans tdef.symm
  rw [readyAssert_busy hf ht, acceptHead_lastLevel (t := t) (by simpa [tdef] using hl) h1 h2 (by exact hq) (by exact hd) (by exact hacc) (by rw [tdef])
    (by rw [tdef]; exact hd) (by rw [tdef]), chan_of_set hl h1 h2 (by rw [tdef]), tdef]
  simp only [List.set_set]
  rfl

/-- READY asserted at any other step of the only ramp lets it dwell (R12, R18). -/
theorem readyAssert_rampDwells {s : State} (hs : Sound s) (hf : s.lineup.fault = false) (ht : s.lineup.inTransfer = true)
    (hd : s.lineup.deferred = []) {c v : Nat} (hq : s.lineup.queue = [.level c v true]) {r : Ramp} (hr : s.lineup.ramps = [r])
    (hc : r.channel = c) (h1 : 1 ≤ c) (h2 : c ≤ 96)
    (he : (r.up = true ∧ v ≠ 8) ∨ (r.up = false ∧ v ≠ 0)) : readyAssert s = { s with
      lineup.ready := true, lineup.readyTimer := none, lineup.queue := [], lineup.inTransfer := false
      lineup.ramps := [{ r with phase := .dwell, left := s.params.rampStep }]
      lineup.map := s.lineup.map.set (c - 1) (stepAccepted s c v (chan s c).carrier) } := by
  have hl := hs.lineup.1
  obtain ⟨t, tdef⟩ : ∃ t : State, t = { s with
      lineup.ready := true, lineup.readyTimer := none, lineup.queue := [], lineup.inTransfer := false
      lineup.ramps := [{ r with phase := .dwell, left := s.params.rampStep }]
      lineup.map := s.lineup.map.set (c - 1) { chan s c with level := v } } := ⟨_, rfl⟩
  have hacc := (acceptLevel_dwell (s := { s with
      lineup.ready := true, lineup.readyTimer := none, lineup.queue := [], lineup.inTransfer := false })
    hl h1 h2 hr hc he).trans tdef.symm
  rw [readyAssert_busy hf ht, acceptHead_lastLevel (t := t) (by simpa [tdef] using hl) h1 h2 (by exact hq) (by exact hd) (by exact hacc) (by rw [tdef])
    (by rw [tdef]; exact hd) (by rw [tdef]), chan_of_set hl h1 h2 (by rw [tdef]), tdef]
  simp only [List.set_set]
  rfl

/-! ## The end of a matrix fault (R14, R20) -/

/-- The state in which the matrix line resumes after a fault, before its head is sent: MATRIX_READY is handed to the link, and
the queue and the deferred list stand as given. -/
def mended (s : State) (q : List MatrixCmd) (d : List Deferred) : State :=
  notice nkMatrixReady false [] { s with
    lineup.ready := true, lineup.readyTimer := none, lineup.fault := false, lineup.inTransfer := false, lineup.queue := q
    lineup.deferred := d }

/-- A head that is no ROUTE, or has no newer ROUTE behind it, stays, also where it was in transfer (R14). -/
theorem readyAssert_mends {s : State} (hf : s.lineup.fault = true)
    (h : ∀ c src q, s.lineup.queue = .route c src :: q → s.lineup.inTransfer = false ∨ q.any (isRouteOf c) = false) :
    readyAssert s = startRamps (lineRun (mended s s.lineup.queue s.lineup.deferred)) := by
  unfold readyAssert endFault mended
  simp only [hf, if_true, notice_lineup]
  split
  · rename_i c src q hq
    rw [if_neg]
    rcases h c src q hq with h | h <;> simp [h]
  · rfl

/-- A ROUTE that was in transfer is dropped where a newer one for its channel waits, which is a departure (R14, R11). -/
theorem readyAssert_drops {s : State} (hf : s.lineup.fault = true) {c : Nat} {src : Option Nat} {q : List MatrixCmd}
    (hq : s.lineup.queue = .route c src :: q) (ht : s.lineup.inTransfer = true) (hn : q.any (isRouteOf c) = true) :
    readyAssert s = startRamps (lineRun (departure (mended s q s.lineup.deferred))) := by
  unfold readyAssert endFault mended
  simp only [hf, if_true, notice_lineup, hq, ht, hn, Bool.and_self]
  simp only [notice_eq]

/-- A departure as the line resumes queues the head of the deferred list with the value then standing (R11). -/
theorem departure_mended {s : State} {q : List MatrixCmd} {d : Deferred} {ds : List Deferred} :
    departure (mended s q (d :: ds)) = mended s (q ++ [deferredCommand s d]) ds := by
  unfold mended
  rw [departure_cons (by rw [notice_lineup])]
  simp only [notice_eq]
  rfl

/-- The ramp queue as the line resumes. -/
theorem mended_rampQueue (s : State) (q : List MatrixCmd) (d : List Deferred) :
    (lineRun (mended s q d)).lineup.rampQueue = s.lineup.rampQueue := by
  rw [lineRun_eq]
  show (mended s q d).lineup.rampQueue = _
  unfold mended
  rw [notice_lineup]

/-- With no command queued the line resumes in IDLE. -/
theorem lineRun_mended_nil (s : State) (d : List Deferred) : lineRun (mended s [] d) = mended s [] d :=
  lineRun_empty (congrArg Lineup.queue (notice_lineup ..)) (congrArg Lineup.readyTimer (notice_lineup ..))

/-- The event of a READY assertion in FAULT: the line resumes, then waiting ramps start. -/
theorem exec_readyAssert_mended {s : State} {q : List MatrixCmd} {d : List Deferred} (hw : s.link.waiting = [])
    (e : readyAssert s = startRamps (lineRun (mended s q d))) :
    exec .readyAssert s = .next (kick (startRamps (lineRun (mended s q d)))) := by
  refine exec_readyAssert ?_ e
  rw [((lineRun_line _).trans (startRamps_line _)).link]
  unfold mended
  rw [notice_waiting]
  exact hw

/-! ## The timers -/

/-- The expiry of a ramp's dwell outside FAULT issues its next step (R18). -/
theorem exec_dwellTimerExpiry {s : State} {c : Nat} {r : Ramp} (hw : s.link.waiting = []) (hr : rampOf s c = some r)
    (hp : r.phase = .dwell) (hf : s.lineup.fault = false) :
    exec (.dwellTimerExpiry c) s = .next (kick (issueStep c s)) := by
  show Host.Outcome.next (finish _) = _
  rw [hr, if_pos (by simp [hp, hf]), finish_line hw (issueStep_line c s)]

/-- Settles O23: the acceptance of a step by the ramp's end or its dwell, the timers by what each starts, and the end of a fault
by the head of the queue. -/
theorem rampStepsAndMatrixTimers : Obligations.RampStepsAndMatrixTimers := by
  refine ⟨fun c v r s hs hw hrun hf ht hd hq hr hc hrq h1 h2 => ⟨?_, ?_, ?_⟩, fun s hs hw => ⟨?_, ?_, ?_, ?_, ?_⟩⟩
  · intro hu hv
    refine exec_readyAssert (by exact hw) ((readyAssert_rampEnds hs hf ht hd hq hr hc hrq h1 h2 (.inl ⟨hu, hv⟩)).trans ?_)
    rw [hu]
    rfl
  · intro hu hv
    refine exec_readyAssert (by exact hw) ((readyAssert_rampEnds hs hf ht hd hq hr hc hrq h1 h2 (.inr ⟨hu, hv⟩)).trans ?_)
    rw [hu]
    rfl
  · intro he
    exact exec_readyAssert (by exact hw) (readyAssert_rampDwells hs hf ht hd hq hr hc h1 h2 he)
  · intro n m q hn hq
    show Host.Outcome.next (finish _) = _
    rw [hn, Option.isSome_some, if_pos rfl, finish_of_none]
    · simp [raiseFault, hq, opt, u8]
    · unfold raiseFault
      rw [notice_waiting]
      exact hw
  · intro c v st q hf hrun hq hrq
    have e := readyAssert_mends hf (fun d src q' h => by rw [hq] at h; cases h)
    rw [exec_readyAssert_mended hw e, startRamps_nil ((mended_rampQueue ..).trans hrq)]
    rfl
  · intro hf hrun
    refine ⟨fun hq => ?_, fun c v st q hq => ?_, fun c src q hq => ⟨fun stays => ?_, fun ht hn => ⟨fun hd => ?_, fun d ds hd => ?_⟩⟩⟩
    · have e := readyAssert_mends hf (fun d src q' h => by rw [hq] at h; cases h)
      rw [hq] at e
      rw [exec_readyAssert_mended hw e, lineRun_mended_nil]
      rfl
    · exact exec_readyAssert_mended hw (readyAssert_mends hf (fun d src q' h => by rw [hq] at h; cases h))
    · exact exec_readyAssert_mended hw (readyAssert_mends hf (fun d src' q' h => by rw [hq] at h; cases h; exact stays))
    · have e := readyAssert_drops hf hq ht hn
      rw [hd, departure_nil (congrArg Lineup.deferred (notice_lineup ..))] at e
      exact exec_readyAssert_mended hw e
    · have e := readyAssert_drops hf hq ht hn
      rw [hd, departure_mended, deferredCommand_eq] at e
      exact exec_readyAssert_mended hw e
  · intro c r hr hp hf hq h1 h2
    rw [exec_dwellTimerExpiry hw hr hp hf, issueStep_eq hs.lineup.1 h1 h2 hr, joinCommand_room (by exact hq)]
  · intro n hn
    show Host.Outcome.next (finish _) = _
    rw [hn, Option.isSome_some, if_pos rfl, finish_of_none (by exact hw)]

end Sys2Proof.Safety
end

