-- ==== Proofs/CarrierOrders.lean ====
section
/-! PROOFS. The CARRIER order (O21). -/

namespace Sys2Proof.Safety

open Sys2Proof.Machine

/-- The byte of a request ON or OFF (R9, R194). -/
theorem onOffArg_byte (on : Bool) : onOffArg (if on then 0 else 1) = some on := by
  cases on <;> rfl

/-- A channel number within its range (R9). -/
theorem isChannel_iff (c : Nat) : isChannel c = true ↔ 1 ≤ c ∧ c ≤ 96 := by
  simp [isChannel]

/-- CARRIER with a channel and a request that R9 lists acts as the request and answers with the record. -/
theorem orderCarrier_eq {c request : Nat} (h1 : 1 ≤ c) (h2 : c ≤ 96) {on : Bool} (hr : onOffArg request = some on) (s : State) :
    orderCarrier c request s
      = answer .ok (channelRecord (carrierRequest c on s) c) (carrierRequest c on s) := by
  unfold orderCarrier
  rw [(isChannel_iff c).mpr ⟨h1, h2⟩, hr]

/-- CARRIER is answered with the record of the channel as its request leaves it. -/
theorem carrier_answers {tag : Byte} {c request : Nat} {on : Bool} {s t : State} (q : Quiet s) (w : Working s) (h1 : 1 ≤ c)
    (h2 : c ≤ 96) (hr : onOffArg request = some on) (ht : t.link.inFlight = none)
    (e : carrierRequest c on (taken tag (.carrier c request) s) = taken tag (.carrier c request) t)
    {body : List Byte} (hb : channelRecord t c = body) :
    Answers (.carrier tag c request) s t tag (.carrier c request) .ok body := by
  refine answers_of rfl q w ht ?_
  show orderCarrier _ _ _ = _
  rw [orderCarrier_eq h1 h2 hr, e, ← hb]
  rfl

/-- CARRIER with a channel or a request that R9 does not list is refused BAD_ARG. -/
theorem carrier_refused {tag : Byte} {c request : Nat} {s : State} (q : Quiet s) (w : Working s)
    (h : c < 1 ∨ 96 < c ∨ 1 < request) : Answers (.carrier tag c request) s s tag (.carrier c request) .badArg [] := by
  refine answers_of rfl q w q.inFlight ?_
  show orderCarrier _ _ _ = _
  unfold orderCarrier
  split
  · rename_i hc hon
    obtain ⟨h1, h2⟩ := (isChannel_iff c).mp hc
    obtain h | h | h := h
    · omega
    · omega
    · simp [onOffArg, show request ≠ 0 by omega, show request ≠ 1 by omega] at hon
  · rfl

/-- The record of a channel as its entry and the ramp queue give it. -/
theorem channelRecord_of_set {s t : State} {e : Channel} (h : s.lineup.map.length = 96) {c : Nat} (h1 : 1 ≤ c) (h2 : c ≤ 96)
    (ht : t.lineup.map = s.lineup.map.set (c - 1) e) : channelRecord t c = channelBytes c e (t.lineup.rampQueue.contains c) := by
  unfold channelRecord
  rw [chan_of_set h h1 h2 ht]

/-! ## CARRIER in LOADING (R9) -/

/-- Outside RUN a request that has a channel wait writes its carrier and its place in the ramp queue, and starts no ramp. -/
theorem carrierRequest_joins {s : State} (hrun : running s = false) (h : s.lineup.map.length = 96) {c : Nat} (h1 : 1 ≤ c)
    (h2 : c ≤ 96) {on : Bool} {k : Carrier}
    (hk : ((chan s c).carrier = .off ∧ on = true ∧ k = .waitUp) ∨ ((chan s c).carrier = .on ∧ on = false ∧ k = .waitDown)) :
    carrierRequest c on s = { s with
      lineup.map := s.lineup.map.set (c - 1) { chan s c with carrier := k }, lineup.rampQueue := s.lineup.rampQueue ++ [c] } := by
  rcases hk with ⟨hc, rfl, rfl⟩ | ⟨hc, rfl, rfl⟩ <;> unfold carrierRequest <;> rw [hc] <;> dsimp only
    <;> rw [startRamps_of_not_running (by exact hrun), modChan_eq h h1 h2]

/-- A request that takes a waiting channel back writes its carrier and takes it from the ramp queue. -/
theorem carrierRequest_leaves {s : State} (h : s.lineup.map.length = 96) {c : Nat} (h1 : 1 ≤ c) (h2 : c ≤ 96) {on : Bool}
    {k : Carrier}
    (hk : ((chan s c).carrier = .waitUp ∧ on = false ∧ k = .off) ∨ ((chan s c).carrier = .waitDown ∧ on = true ∧ k = .on)) :
    carrierRequest c on s = { s with
      lineup.map := s.lineup.map.set (c - 1) { chan s c with carrier := k }
      lineup.rampQueue := s.lineup.rampQueue.filter (· ≠ c) } := by
  rcases hk with ⟨hc, rfl, rfl⟩ | ⟨hc, rfl, rfl⟩ <;> unfold carrierRequest <;> rw [hc] <;> dsimp only
    <;> rw [modChan_eq h h1 h2]

/-- A request for what the carrier is already doing changes nothing. -/
theorem carrierRequest_stays {s : State} {c : Nat} {on : Bool}
    (hk : (chan s c).carrier ∈ (if on then [Carrier.waitUp, .rampUp, .on] else [.off, .waitDown, .rampDown])) :
    carrierRequest c on s = s := by
  unfold carrierRequest
  cases on <;> simp only [Bool.false_eq_true, if_true, if_false, List.mem_cons, List.not_mem_nil, or_false] at hk
    <;> rcases hk with hk | hk | hk <;> rw [hk]

/-! ## CARRIER ON in RUN (R9, R17, R18, R21) -/

/-- The state in which the ramp up of a channel has started and its first step's LEVEL has joined the queue (R17, R18, R21). -/
def rampStarted (c : Nat) (s : State) : State :=
  { s with
    lineup.map := s.lineup.map.set (c - 1) { chan s c with carrier := .rampUp, applied := false }
    lineup.ramps := s.lineup.ramps ++ [⟨c, true, .command, (chan s c).level + 1, 0⟩]
    lineup.queue := s.lineup.queue ++ [.level c ((chan s c).level + 1) true]
    lineup.settleOpen := true
    lineup.settleTimer := none }

/-- ON for an OFF channel with a ramp place free and no channel waiting starts the ramp in its event. -/
theorem carrierRequest_starts {s : State} (hrun : s.link.op = .run) (h : s.lineup.map.length = 96) {c : Nat} (h1 : 1 ≤ c)
    (h2 : c ≤ 96) (hc : (chan s c).carrier = .off) (hf : s.lineup.fault = false) (hw : s.lineup.rampQueue = [])
    (hr : s.lineup.ramps.length < 2) (hn : ∀ r ∈ s.lineup.ramps, r.channel ≠ c) (hq : s.lineup.queue.length < 256) :
    carrierRequest c true s = lineRun (rampStarted c s) := by
  obtain ⟨t, tdef⟩ : ∃ t : State, t = { s with
      lineup.map := s.lineup.map.set (c - 1) { chan s c with carrier := .waitUp }, lineup.rampQueue := [c] } := ⟨_, rfl⟩
  have hstart : carrierRequest c true s = startRamps t := by
    unfold carrierRequest
    rw [hc]
    dsimp only
    rw [modChan_eq h h1 h2, hw, tdef]
    rfl
  have ht : chan t c = { chan s c with carrier := .waitUp } := chan_of_set h h1 h2 (by rw [tdef])
  obtain ⟨u, udef⟩ : ∃ u : State, u = { s with
      lineup.map := s.lineup.map.set (c - 1) { chan s c with carrier := .rampUp }
      lineup.rampQueue := []
      lineup.ramps := s.lineup.ramps ++ [⟨c, true, .command, 0, 0⟩]
      lineup.settleOpen := true
      lineup.settleTimer := none } := ⟨_, rfl⟩
  have hhead : startRamp t = issueStep c u := by
    rw [startRamp_cons (q := []) (by simpa [tdef] using h) h1 h2 (by simp [tdef, running, hrun]) (by simp [tdef, hf])
      (by simpa [tdef] using hr) (by rw [tdef]), ht, tdef, udef]
    simp only [List.set_set]
    rfl
  have hu : chan u c = { chan s c with carrier := .rampUp } := chan_of_set h h1 h2 (by rw [udef])
  have hramp : rampOf u c = some ⟨c, true, .command, 0, 0⟩ := by
    have hnone : s.lineup.ramps.find? (fun r => r.channel = c) = none := by simpa using hn
    simp [rampOf, udef, hnone]
  have hmap : u.lineup.ramps.map (fun x => if x.channel = c then { x with
      phase := RampPhase.command, step := (chan s c).level + 1, left := 0 } else x)
      = s.lineup.ramps ++ [⟨c, true, .command, (chan s c).level + 1, 0⟩] := by
    rw [udef, List.map_append, map_ramps_others hn]
    simp
  have hstep : issueStep c u = lineRun { s with
      lineup.map := s.lineup.map.set (c - 1) { chan s c with carrier := .rampUp, applied := false }
      lineup.rampQueue := []
      lineup.ramps := s.lineup.ramps ++ [⟨c, true, .command, (chan s c).level + 1, 0⟩]
      lineup.queue := s.lineup.queue ++ [.level c ((chan s c).level + 1) true]
      lineup.settleOpen := true
      lineup.settleTimer := none } := by
    rw [issueStep_eq (by simpa [udef] using h) h1 h2 hramp, hu, joinCommand_room (by simpa [udef] using hq)]
    dsimp only
    rw [if_pos rfl, hmap, udef]
    simp only [List.set_set]
  rw [hstart, startRamps, hhead, hstep, startRamp_nil (by rw [lineRun_eq]), ← hw]
  rfl

/-- CARRIER in LOADING that has a channel wait is answered with its record, which says that it waits. -/
theorem carrier_joins {tag : Byte} {c : Nat} {on : Bool} {s : State} (q : Quiet s) (hs : Sound s) (hop : s.link.op = .loading)
    (h1 : 1 ≤ c) (h2 : c ≤ 96) {k : Carrier}
    (hk : ((chan s c).carrier = .off ∧ on = true ∧ k = .waitUp) ∨ ((chan s c).carrier = .on ∧ on = false ∧ k = .waitDown)) :
    Answers (.carrier tag c (if on then 0 else 1)) s
      { s with lineup.map := s.lineup.map.set (c - 1) { chan s c with carrier := k }, lineup.rampQueue := s.lineup.rampQueue ++ [c] }
      tag (.carrier c (if on then 0 else 1)) .ok (channelBytes c { chan s c with carrier := k } true) := by
  have hrun : running (taken tag (.carrier c (if on then 0 else 1)) s) = false := by simp [running, taken, hop]
  refine carrier_answers q (.inl hop) h1 h2 (onOffArg_byte on) (by exact q.inFlight) (carrierRequest_joins hrun hs.lineup.1 h1 h2 hk) ?_
  rw [channelRecord_of_set (s := s) (e := { chan s c with carrier := k }) hs.lineup.1 h1 h2 rfl]
  simp

/-- CARRIER in LOADING that takes a waiting channel back is answered with its record, which says that it does not wait. -/
theorem carrier_leaves {tag : Byte} {c : Nat} {on : Bool} {s : State} (q : Quiet s) (hs : Sound s) (w : Working s)
    (h1 : 1 ≤ c) (h2 : c ≤ 96) {k : Carrier}
    (hk : ((chan s c).carrier = .waitUp ∧ on = false ∧ k = .off) ∨ ((chan s c).carrier = .waitDown ∧ on = true ∧ k = .on)) :
    Answers (.carrier tag c (if on then 0 else 1)) s
      { s with
        lineup.map := s.lineup.map.set (c - 1) { chan s c with carrier := k }
        lineup.rampQueue := s.lineup.rampQueue.filter (· ≠ c) }
      tag (.carrier c (if on then 0 else 1)) .ok (channelBytes c { chan s c with carrier := k } false) := by
  refine carrier_answers q w h1 h2 (onOffArg_byte on) (by exact q.inFlight)
    (carrierRequest_leaves (s := taken tag (.carrier c (if on then 0 else 1)) s) hs.lineup.1 h1 h2 hk) ?_
  rw [channelRecord_of_set (s := s) (e := { chan s c with carrier := k }) hs.lineup.1 h1 h2 rfl]
  simp

/-- CARRIER for what the carrier is already doing changes nothing and is answered with the record. -/
theorem carrier_stays {tag : Byte} {c : Nat} {on : Bool} {s : State} (q : Quiet s) (w : Working s) (h1 : 1 ≤ c) (h2 : c ≤ 96)
    (hk : (chan s c).carrier ∈ (if on then [Carrier.waitUp, .rampUp, .on] else [.off, .waitDown, .rampDown])) :
    Answers (.carrier tag c (if on then 0 else 1)) s s tag (.carrier c (if on then 0 else 1)) .ok (channelRecord s c) :=
  carrier_answers q w h1 h2 (onOffArg_byte on) q.inFlight
    (carrierRequest_stays (s := taken tag (.carrier c (if on then 0 else 1)) s) hk) rfl

/-- CARRIER ON in RUN starts the ramp of an OFF channel and is answered with its record. -/
theorem carrier_starts {tag : Byte} {c : Nat} {s : State} (q : Quiet s) (hs : Sound s) (hrun : s.link.op = .run) (h1 : 1 ≤ c)
    (h2 : c ≤ 96) (hc : (chan s c).carrier = .off) (hf : s.lineup.fault = false) (hw : s.lineup.rampQueue = [])
    (hr : s.lineup.ramps.length < 2) (hn : ∀ r ∈ s.lineup.ramps, r.channel ≠ c) (hq : s.lineup.queue.length < 256) :
    Answers (.carrier tag c 0) s (lineRun (rampStarted c s)) tag (.carrier c 0) .ok
      (channelBytes c { chan s c with carrier := .rampUp, applied := false } false) := by
  have e := carrierRequest_starts (s := taken tag (.carrier c 0) s) hrun hs.lineup.1 h1 h2 hc hf hw hr hn hq
  refine carrier_answers (t := lineRun (rampStarted c s)) q (.inr hrun) h1 h2 rfl
    ((congrArg Link.inFlight (lineRun_line _).link).trans q.inFlight)
    (e.trans (lineRun_taken tag (.carrier c 0) (rampStarted c s))) ?_
  rw [channelRecord_of_set (s := s) (e := { chan s c with carrier := .rampUp, applied := false }) hs.lineup.1 h1 h2
    (by rw [lineRun_eq]; rfl), lineRun_eq]
  show channelBytes c _ (s.lineup.rampQueue.contains c) = _
  rw [hw]
  rfl

/-- Settles O21: the table of R9 in LOADING by the carrier's state, the start of a ramp in RUN, and the refusals. -/
theorem carrierRequestsAct : Obligations.CarrierRequestsAct := by
  refine ⟨fun tag c on s q hs hop h1 h2 => ?_,
    fun tag c s q hs hrun h1 h2 hc hf hw hr hn hq => carrier_starts q hs hrun h1 h2 hc hf hw hr hn hq,
    fun tag c request s q w h => carrier_refused q w h⟩
  have w : Working s := .inl hop
  intro old req put joins leaves stays
  cases hc : (chan s c).carrier with
  | off =>
    cases on with
    | true => exact carrier_joins q hs hop h1 h2 (.inl ⟨hc, rfl, rfl⟩)
    | false => exact carrier_stays q w h1 h2 (by simp [hc])
  | waitUp =>
    cases on with
    | true => exact carrier_stays q w h1 h2 (by simp [hc])
    | false => exact carrier_leaves q hs w h1 h2 (.inl ⟨hc, rfl, rfl⟩)
  | rampUp =>
    cases on with
    | true => exact carrier_stays q w h1 h2 (by simp [hc])
    | false => trivial
  | on =>
    cases on with
    | true => exact carrier_stays q w h1 h2 (by simp [hc])
    | false => exact carrier_joins q hs hop h1 h2 (.inr ⟨hc, rfl, rfl⟩)
  | waitDown =>
    cases on with
    | true => exact carrier_leaves q hs w h1 h2 (.inr ⟨hc, rfl, rfl⟩)
    | false => exact carrier_stays q w h1 h2 (by simp [hc])
  | rampDown =>
    cases on with
    | true => trivial
    | false => exact carrier_stays q w h1 h2 (by simp [hc])

end Sys2Proof.Safety
end

