-- ==== Proofs/BaseWrites.lean ====
section
/-! PROOFS. Writes of base fields: what an entry written queues in RUN (R3, R10, R11) and hands on (R5); SET-CHANNEL (O20). -/

namespace Sys2Proof.Safety

open Sys2Proof.Machine

variable {dirty : Bool}

/-! ## The ROUTE of a changed route (R10, R11) -/

/-- A list of commands with every ROUTE of a channel replaced by a newer one. -/
def routesPut (c : Nat) (r : Option Nat) (l : List MatrixCmd) : List MatrixCmd :=
  l.map (fun x => if isRouteOf c x then .route c r else x)

/-- A newer ROUTE takes the place of the channel's unsent one (R10). -/
theorem queueRoute_replaces {s : State} {c : Nat} (h : (unsent s).any (isRouteOf c) = true) :
    queueRoute c s = { s with
      lineup.queue := if s.lineup.inTransfer then s.lineup.queue.take 1 ++ routesPut c (chan s c).route (s.lineup.queue.drop 1)
        else routesPut c (chan s c).route s.lineup.queue } := by
  unfold queueRoute replaceRoute
  rw [if_pos h]
  split <;> rfl

/-- Where the channel has no unsent ROUTE the command is an automatic one (R10, R11). -/
theorem queueRoute_new {s : State} {c : Nat} (h : (unsent s).any (isRouteOf c) = false) :
    queueRoute c s = joinCommand (.route c (chan s c).route) ⟨c, false⟩ s := by
  unfold queueRoute
  rw [h]
  rfl

/-! ## The write of an entry (R2 to R5) -/

/-- The state with a channel's entry written: the tier table follows, and a channel whose effective class or blackout set
changed is marked (R4, R5). -/
def entryPut (c : Nat) (e : Channel) (s : State) : State :=
  { s with
    lineup.map := s.lineup.map.set (c - 1) e
    lineup.table := tierTableOf (s.lineup.map.set (c - 1) e)
    lineup.changed := s.lineup.changed || handsOn (chan s c) e }

/-- A function on an entry just written that keeps its effective class and its blackout set writes the entry anew. -/
theorem modChan_entryPut {s : State} (h : s.lineup.map.length = 96) {c : Nat} (h1 : 1 ≤ c) (h2 : c ≤ 96) (e : Channel)
    {f : Channel → Channel} (hf : (f e).eff = e.eff) (hz : (f e).zones = e.zones) :
    modChan c f (entryPut c e s) = entryPut c (f e) s := by
  have hlen : (entryPut c e s).lineup.map.length = 96 := by simpa [entryPut] using h
  have hc : chan (entryPut c e s) c = e := chan_of_set h h1 h2 rfl
  have hh : handsOn (chan s c) (f e) = handsOn (chan s c) e := by simp only [handsOn, hf, hz]
  rw [modChan_eq hlen h1 h2, hc]
  unfold entryPut
  rw [tierTable_set hf, hh]
  simp only [List.set_set]

/-- The entry that a write of base fields gives a channel. -/
def entryAfter (s : State) (c : Nat) (a : Option (Option Nat)) (k : Option BaseClass) (z : Option ZoneSet)
    (el : Option Bool) : Channel :=
  entryWritten s.schedule.active (chan s c) (baseWritten (chan s c) a k z el)

/-- A write of base fields writes the entry, and in RUN queues the ROUTE of a changed route. -/
theorem writeBase_entryPut {s : State} (hs : SoundAt dirty s) {c : Nat} (h1 : 1 ≤ c) (h2 : c ≤ 96) (a : Option (Option Nat))
    (k : Option BaseClass) (z : Option ZoneSet) (el : Option Bool) :
    writeBase c a k z el s =
      if (entryAfter s c a k z el).route ≠ (chan s c).route ∧ running s = true then
        queueRoute c (entryPut c (entryAfter s c a k z el) s)
      else entryPut c (entryAfter s c a k z el) s :=
  writeBase_eq hs h1 h2 a k z el

section
variable {s : State} (hs : SoundAt dirty s) {c : Nat} (h1 : 1 ≤ c) (h2 : c ≤ 96) {a : Option (Option Nat)}
  {k : Option BaseClass} {z : Option ZoneSet} {el : Option Bool} {e : Channel} (he : entryAfter s c a k z el = e)
include hs h1 h2 he

/-- Outside RUN, or where the route stays, a write of base fields queues no command. -/
theorem writeBase_still (h : s.link.op ≠ .run ∨ e.route = (chan s c).route) : writeBase c a k z el s = entryPut c e s := by
  rw [writeBase_entryPut hs h1 h2, he, if_neg]
  rintro ⟨hr, hrun⟩
  rcases h with h | h
  · exact h (by simpa [running] using hrun)
  · exact hr h

/-- In RUN a changed route is queued. -/
theorem writeBase_routes (hrun : s.link.op = .run) (hr : e.route ≠ (chan s c).route) :
    writeBase c a k z el s = queueRoute c (entryPut c e s) := by
  rw [writeBase_entryPut hs h1 h2, he, if_pos ⟨hr, by simp [running, hrun]⟩]

/-- A changed route takes the place of the channel's unsent ROUTE. -/
theorem writeBase_replaces (hrun : s.link.op = .run) (hr : e.route ≠ (chan s c).route)
    (hw : (unsent s).any (isRouteOf c) = true) : writeBase c a k z el s = { entryPut c e s with
      lineup.queue := if s.lineup.inTransfer then s.lineup.queue.take 1 ++ routesPut c e.route (s.lineup.queue.drop 1)
        else routesPut c e.route s.lineup.queue } := by
  have hc : chan (entryPut c e s) c = e := chan_of_set hs.lineup.1 h1 h2 rfl
  rw [writeBase_routes hs h1 h2 he hrun hr, queueRoute_replaces (by exact hw), hc]
  rfl

/-- A changed route joins a queue with room. -/
theorem writeBase_joins (hrun : s.link.op = .run) (hr : e.route ≠ (chan s c).route)
    (hw : (unsent s).any (isRouteOf c) = false) (hq : s.lineup.queue.length < 256) :
    writeBase c a k z el s = lineRun { entryPut c e s with lineup.queue := s.lineup.queue ++ [.route c e.route] } := by
  have hc : chan (entryPut c e s) c = e := chan_of_set hs.lineup.1 h1 h2 rfl
  rw [writeBase_routes hs h1 h2 he hrun hr, queueRoute_new (by exact hw), hc, joinCommand_room (by exact hq)]
  rfl

/-- A changed route that finds the queue full is deferred, once. -/
theorem writeBase_defers (hrun : s.link.op = .run) (hr : e.route ≠ (chan s c).route)
    (hw : (unsent s).any (isRouteOf c) = false) (hq : s.lineup.queue.length = 256) :
    writeBase c a k z el s = { entryPut c e s with
      lineup.deferred := if s.lineup.deferred.contains ⟨c, false⟩ then s.lineup.deferred else s.lineup.deferred ++ [⟨c, false⟩] } := by
  have hc : chan (entryPut c e s) c = e := chan_of_set hs.lineup.1 h1 h2 rfl
  rw [writeBase_routes hs h1 h2 he hrun hr, queueRoute_new (by exact hw), hc, joinCommand_full (by exact hq)]
  rfl

end

/-! ## The hand-off of one changed channel (R5) -/

/-- What hands a channel on is a change of its effective class or its blackout set. -/
theorem handsOn_iff (old e : Channel) : handsOn old e = true ↔ e.eff ≠ old.eff ∨ e.zones ≠ old.zones := by
  unfold handsOn
  rw [Bool.not_eq_true', Bool.and_eq_false_iff, decide_eq_false_iff_not, decide_eq_false_iff_not]

/-- A state with its mark cleared is one whose mark was clear and that is the same but for the mark. -/
theorem mark_cleared {t u : State} (h : u.lineup.changed = false) (e : { t with lineup.changed := u.lineup.changed } = u) :
    { t with lineup.changed := false } = u := by
  rw [← e, h]

/-- The hand-off of what an event has marked, the mark cleared. -/
theorem handOff_marked {t u : State} {old e : Channel} (hm : t.lineup.changed = handsOn old e)
    (hu : { t with lineup.changed := false } = u) :
    handOff t = if e.eff ≠ old.eff ∨ e.zones ≠ old.zones then rederiveServed u else u := by
  unfold handOff
  rw [hm, if_congr (handsOn_iff old e) rfl rfl, hu]
  split
  · rfl
  · rename_i h
    rw [← handsOn_iff, ← hm, Bool.not_eq_true] at h
    rw [← hu, ← h]

/-! ## SET-CHANNEL (R7) -/

/-- A channel whose SET-CHANNEL is legal is one of the 96. -/
theorem setChannelLegal_channel {p : SetChannelArgs} (h : setChannelLegal p = true) : 1 ≤ p.channel ∧ p.channel ≤ 96 := by
  simp only [setChannelLegal, Bool.and_eq_true] at h
  exact (isChannel_iff _).mp h.1.1.1

/-- The entry that SET-CHANNEL gives its channel. -/
def setChannelEntry (p : SetChannelArgs) (s : State) : Channel :=
  entryAfter s p.channel (p.source.bind sourceArg) (p.cls.bind classArg) p.zones (p.eligible.bind flagArg)

/-- SET-CHANNEL needs a ROUTE where the route changes in RUN. -/
theorem setChannelRoutes_eq (p : SetChannelArgs) (s : State) : setChannelRoutes p s
    = (running s && decide ((setChannelEntry p s).route ≠ (chan s p.channel).route)) := rfl

/-- SET-CHANNEL that is legal and not blocked writes the fields it names, hands the channel on and answers with the record. -/
theorem setChannel_writes {tag : Byte} {p : SetChannelArgs} {s t u : State} (q : Quiet s) (hs : Sound s) (w : Working s)
    (legal : setChannelLegal p = true) {e : Channel}
    (free : (setChannelRoutes p s && routeBlocked s p.channel) = false)
    (ht : writeBase p.channel (p.source.bind sourceArg) (p.cls.bind classArg) p.zones (p.eligible.bind flagArg)
      (taken tag (.setChannel p) s) = t)
    (hm : t.lineup.map = s.lineup.map.set (p.channel - 1) e) (hq : t.lineup.rampQueue = s.lineup.rampQueue)
    (hc : t.lineup.changed = handsOn (chan s p.channel) e) (hu : { t with lineup.changed := false } = u) :
    exec (.setChannel tag p) s = .next (kick (answer .ok
      (channelBytes p.channel e (s.lineup.rampQueue.contains p.channel))
      (if e.eff ≠ (chan s p.channel).eff ∨ e.zones ≠ (chan s p.channel).zones then rederiveServed u else u))) := by
  obtain ⟨h1, h2⟩ := setChannelLegal_channel legal
  rw [exec_working rfl q w]
  show Host.Outcome.next (kick (orderSetChannel p _)) = _
  unfold orderSetChannel
  rw [legal, show (setChannelRoutes p (taken tag (.setChannel p) s) && routeBlocked (taken tag (.setChannel p) s) p.channel) = _
    from free, ht]
  rw [if_neg (by decide), if_neg Bool.false_ne_true]
  dsimp only
  rw [channelRecord_of_set hs.lineup.1 h1 h2 hm, hq,
    handOff_marked hc hu]

/-- SET-CHANNEL that is not legal, or blocked by a full queue, is refused and writes nothing. -/
theorem setChannel_refused {tag : Byte} {p : SetChannelArgs} {s : State} (q : Quiet s) (w : Working s) {code : StatusCode}
    (h : (setChannelLegal p = false ∧ code = .badArg)
      ∨ (setChannelLegal p = true ∧ (setChannelRoutes p s && routeBlocked s p.channel) = true ∧ code = .full)) :
    Answers (.setChannel tag p) s s tag (.setChannel p) code [] := by
  refine answers_of rfl q w q.inFlight ?_
  show orderSetChannel _ _ = _
  unfold orderSetChannel
  rcases h with ⟨h, rfl⟩ | ⟨h, hb, rfl⟩
  · rw [h]
    rfl
  · rw [h, show (setChannelRoutes p (taken tag (.setChannel p) s) && routeBlocked (taken tag (.setChannel p) s) p.channel) = _
      from hb]
    rfl

/-- Settles O20: refused or written, by whether the route changes in RUN and where its ROUTE finds a place. -/
theorem setChannelWritesNamedFields : Obligations.SetChannelWritesNamedFields := by
  intro tag p s q hs w c old b r e m written ok put waits
  refine ⟨fun h => setChannel_refused q w (.inl ⟨h, rfl⟩), fun legal => ?_⟩
  obtain ⟨h1, h2⟩ := setChannelLegal_channel legal
  have hst : Sound (taken tag (.setChannel p) s) := sound_taken hs q
  have hmark : (s.lineup.changed || handsOn old e) = handsOn old e := by rw [hs.handed, Bool.false_or]
  have hblocked : (setChannelRoutes p s && routeBlocked s c)
      = (running s && decide (r ≠ old.route) && (!waits && !s.lineup.deferred.contains ⟨c, false⟩
        && decide (256 ≤ s.lineup.queue.length))) := rfl
  have free (h : (running s && decide (r ≠ old.route)) = false ∨ (!waits && !s.lineup.deferred.contains ⟨c, false⟩
      && decide (256 ≤ s.lineup.queue.length)) = false) : (setChannelRoutes p s && routeBlocked s c) = false := by
    rw [hblocked, Bool.and_eq_false_iff]
    exact h
  refine ⟨fun h => ?_, fun hrun hr hw => ?_, fun hrun hr hw hq => ?_, fun hrun hr hw hd hq => ?_, fun hrun hr hw hd hq => ?_⟩
  · refine setChannel_writes q hs w legal (free (.inl ?_)) (writeBase_still hst h1 h2 rfl ?_) rfl rfl hmark
      ?_
    · rcases h with h | h <;> simp [running, h]
    · exact h.imp (fun h e => by rw [show s.link.op = .run from e] at h; cases h) id
    · exact mark_cleared hs.handed rfl
  · refine setChannel_writes q hs w legal (free (.inr (by simp [hw]))) (writeBase_replaces hst h1 h2 rfl hrun hr hw) rfl rfl hmark ?_
    exact mark_cleared hs.handed rfl
  · refine setChannel_writes q hs w legal (free (.inr (by simp [hq]))) (writeBase_joins hst h1 h2 rfl hrun hr hw hq)
      (by rw [lineRun_eq]; rfl) (by rw [lineRun_eq]; rfl) (by rw [lineRun_eq]; exact hmark) ?_
    rw [lineRun_eq, lineRun_eq]
    exact mark_cleared hs.handed rfl
  · have rests : writeBase c (p.source.bind sourceArg) (p.cls.bind classArg) p.zones (p.eligible.bind flagArg)
        (taken tag (.setChannel p) s) = entryPut c e (taken tag (.setChannel p) s) := by
      rw [writeBase_defers hst h1 h2 rfl hrun hr hw hq, if_pos (by exact hd)]
      rfl
    refine setChannel_writes q hs w legal (free (.inr (by rw [hd]; simp))) rests rfl rfl hmark ?_
    exact mark_cleared hs.handed rfl
  · refine setChannel_refused q w (.inr ⟨legal, ?_, rfl⟩)
    rw [hblocked]
    rw [hw, hd, hq]
    simp [running, hrun, hr]

end Sys2Proof.Safety
end

