-- ==== Proofs/LoadReverseDefer.lean ====
section
/-! PROOFS. LOAD-CHANNEL, the reversal of a ramp, and the deferred list (O19). -/

namespace Sys2Proof.Safety

open Sys2Proof.Machine

/-! ## The matrix line run twice -/

/-- What the matrix line does after a change it does once. -/
theorem lineRun_lineRun (s : State) : lineRun (lineRun s) = lineRun s := by
  have hsent (t a : Bool) : ((t || a) || a) = (t || a) := by cases a <;> simp
  have htimer (b : Bool) (o : Option Nat) : (if b then some ((if b then some (o.getD 500) else none).getD 500) else none)
      = if b then some (o.getD 500) else none := by cases b <;> rfl
  rw [lineRun_eq (lineRun s), lineRun_eq s]
  dsimp only [running]
  rw [hsent, htimer]

/-! ## The reversal of the one ramp (R19) -/

/-- The state in which a request has turned the direction of the one ramp, with the queue and the deferred list as given. -/
def rampTurned (c : Nat) (up : Bool) (r : Ramp) (q : List MatrixCmd) (d : List Deferred) (s : State) : State :=
  { s with
    lineup.map := s.lineup.map.set (c - 1) { chan s c with carrier := if up then .rampUp else .rampDown }
    lineup.ramps := [{ r with up := up }], lineup.queue := q, lineup.deferred := d }

/-- The level of the next step in a direction. -/
def nextLevel (c : Nat) (up : Bool) (s : State) : Nat := if up then (chan s c).level + 1 else (chan s c).level - 1

/-- A channel's level stands at the end of a direction. -/
def levelAtEnd (c : Nat) (up : Bool) (s : State) : Prop := if up then 8 ≤ (chan s c).level else (chan s c).level = 0

/-- The state in which the one ramp has issued its next step in the new direction. -/
def rampStepped (c : Nat) (up : Bool) (q : List MatrixCmd) (d : List Deferred) (s : State) : State :=
  { s with
    lineup.map := s.lineup.map.set (c - 1) { chan s c with carrier := if up then .rampUp else .rampDown, applied := false }
    lineup.ramps := [⟨c, up, .command, nextLevel c up s, 0⟩], lineup.queue := q, lineup.deferred := d }

/-- The state in which the one ramp has ended. -/
def rampEnded (c : Nat) (up : Bool) (q : List MatrixCmd) (d : List Deferred) (s : State) : State :=
  { s with
    lineup.map := s.lineup.map.set (c - 1) { chan s c with carrier := if up then .on else .off }
    lineup.ramps := [], lineup.queue := q, lineup.deferred := d, lineup.settleTimer := some 5000 }

section
variable {s : State} (hl : s.lineup.map.length = 96) {c : Nat} (h1 : 1 ≤ c) (h2 : c ≤ 96) {up : Bool} {r : Ramp}
  (hc : r.channel = c)
include hl h1 h2

/-- The entry of a ramping channel whose direction has been turned. -/
theorem chan_rampTurned (q : List MatrixCmd) (d : List Deferred) : chan (rampTurned c up r q d s) c
    = { chan s c with carrier := if up then .rampUp else .rampDown } :=
  chan_of_set hl h1 h2 rfl

omit hl h1 h2 in
/-- The map with the entry of a turned channel written again. -/
theorem rampTurned_set (q : List MatrixCmd) (d : List Deferred) (e : Channel) :
    (rampTurned c up r q d s).lineup.map.set (c - 1) e = s.lineup.map.set (c - 1) e :=
  List.set_set ..

include hc

/-- A turned ramp at the end of its new direction ends. -/
theorem stepOrEnd_ends (hq : s.lineup.rampQueue = []) {q : List MatrixCmd} {d : List Deferred} (hd : ⟨c, true⟩ ∉ d)
    (he : levelAtEnd c up s) : stepOrEnd c up (rampTurned c up r q d s) = rampEnded c up q d s := by
  have hlen : (rampTurned c up r q d s).lineup.map.length = 96 := by simpa [rampTurned] using hl
  have hset (k : Carrier) : modChan c (fun e => { e with carrier := k }) (rampTurned c up r q d s)
      = { rampTurned c up r q d s with lineup.map := s.lineup.map.set (c - 1) { chan s c with carrier := k } } := by
    rw [modChan_eq hlen h1 h2, chan_rampTurned hl h1 h2, rampTurned_set]
  unfold stepOrEnd
  rw [chan_rampTurned hl h1 h2]
  unfold levelAtEnd at he
  cases up with
  | true =>
    rw [if_pos rfl] at he
    simp only [Bool.true_and, decide_eq_true he, if_true]
    rw [hset, endRamp_last (r := { r with up := true }) (by rfl) hc (by exact hq) (by exact hd)]
    rfl
  | false =>
    rw [if_neg Bool.false_ne_true] at he
    simp only [Bool.false_and, Bool.not_false, Bool.true_and, decide_eq_true he, Bool.false_eq_true, if_false]
    rw [hset, endRamp_last (r := { r with up := false }) (by rfl) hc (by exact hq) (by exact hd)]
    rfl

/-- A turned ramp with a step to take issues it. -/
theorem stepOrEnd_steps {q : List MatrixCmd} {d : List Deferred} (he : ¬ levelAtEnd c up s) :
    stepOrEnd c up (rampTurned c up r q d s)
      = joinCommand (.level c (nextLevel c up s) true) ⟨c, true⟩ (rampStepped c up q d s) := by
  have hlen : (rampTurned c up r q d s).lineup.map.length = 96 := by simpa [rampTurned] using hl
  have hramp : rampOf (rampTurned c up r q d s) c = some { r with up := up } := by
    simp [rampOf, rampTurned, hc]
  have hstep : stepOrEnd c up (rampTurned c up r q d s) = issueStep c (rampTurned c up r q d s) := by
    unfold stepOrEnd
    rw [chan_rampTurned hl h1 h2]
    unfold levelAtEnd at he
    cases up with
    | true => simp only [if_true] at he; simp [he]
    | false => simp only [Bool.false_eq_true, if_false] at he; simp [he]
  rw [hstep, issueStep_eq hlen h1 h2 hramp, chan_rampTurned hl h1 h2, rampTurned_set]
  simp only [rampTurned, List.map_cons, List.map_nil, hc, if_true]
  rfl

/-- The step of a turned ramp joins a queue with room. -/
theorem stepOrEnd_joins {q : List MatrixCmd} {d : List Deferred} (he : ¬ levelAtEnd c up s) (hq : q.length < 256) :
    stepOrEnd c up (rampTurned c up r q d s)
      = lineRun (rampStepped c up (q ++ [.level c (nextLevel c up s) true]) d s) := by
  rw [stepOrEnd_steps hl h1 h2 hc he, joinCommand_room (by exact hq)]
  rfl

/-- The step of a turned ramp that finds the queue full is deferred. -/
theorem stepOrEnd_defers {q : List MatrixCmd} {d : List Deferred} (he : ¬ levelAtEnd c up s) (hq : q.length = 256)
    (hd : ⟨c, true⟩ ∉ d) :
    stepOrEnd c up (rampTurned c up r q d s) = rampStepped c up q (d ++ [⟨c, true⟩]) s := by
  have hnot : (rampStepped c up q d s).lineup.deferred.contains ⟨c, true⟩ = false := by simpa [rampStepped] using hd
  rw [stepOrEnd_steps hl h1 h2 hc he, joinCommand_full (by exact hq), hnot]
  rfl

/-! A request that turns the direction, by where the step's LEVEL stands. -/

variable (hr : s.lineup.ramps = [r]) (hcar : (chan s c).carrier = if up then .rampDown else .rampUp)
include hr hcar

/-- A request against the direction of the one ramp reverses it. -/
theorem carrierRequest_reverses : carrierRequest c up s = (match r.phase with
    | .dwell => stepOrEnd c up (rampTurned c up r s.lineup.queue s.lineup.deferred s)
    | .command =>
      if (unsent s).any (isStepOf c) then
        lineRun (stepOrEnd c up (departure (removeStep c (rampTurned c up r s.lineup.queue s.lineup.deferred s))))
      else if s.lineup.deferred.contains ⟨c, true⟩ then
        stepOrEnd c up (rampTurned c up r s.lineup.queue (s.lineup.deferred.filter (fun d => d ≠ ⟨c, true⟩)) s)
      else rampTurned c up r s.lineup.queue s.lineup.deferred s) := by
  have hramp : rampOf s c = some r := by simp [rampOf, hr, hc]
  have hturn : modChan c (fun e => { e with carrier := if up then .rampUp else .rampDown })
      (modRamp c (fun r => { r with up := up }) s) = rampTurned c up r s.lineup.queue s.lineup.deferred s := by
    have hm : modRamp c (fun r => { r with up := up }) s = { s with lineup.ramps := [{ r with up := up }] } := by
      unfold modRamp
      rw [hr, List.map_singleton, if_pos hc]
    rw [hm, modChan_eq (by exact hl) h1 h2]
    rfl
  have hrev : carrierRequest c up s = reverseRamp c up s := by
    unfold carrierRequest
    cases up with
    | true => rw [hcar]; rfl
    | false => rw [hcar]; rfl
  rw [hrev]
  unfold reverseRamp
  rw [hramp]
  dsimp only
  rw [hturn]
  rfl

end

/-! ## The withdrawal of an unsent LEVEL (R19) -/

/-- A ramp step's unsent LEVEL is withdrawn from the queue, and no other command with it. -/
theorem removeStep_rampTurned {s : State} {c w : Nat} {up : Bool} {r : Ramp} {d : List Deferred} {l₁ l₂ : List MatrixCmd}
    (ht : s.lineup.inTransfer = true → l₁ ≠ []) (ho : ∀ m ∈ l₁ ++ l₂, isStepOf c m = false) :
    removeStep c (rampTurned c up r (l₁ ++ .level c w true :: l₂) d s) = rampTurned c up r (l₁ ++ l₂) d s := by
  have keeps : ∀ l : List MatrixCmd, (∀ m ∈ l, m ∈ l₁ ++ l₂) → l.filter (fun m => !isStepOf c m) = l := by
    intro l hl
    refine List.filter_eq_self.mpr (fun m hm => ?_)
    rw [ho m (hl m hm)]
    rfl
  have hout : (!isStepOf c (.level c w true)) = false := by simp [isStepOf]
  have h2 := keeps l₂ (fun m hm => List.mem_append_right _ hm)
  unfold removeStep
  by_cases hin : s.lineup.inTransfer = true
  · obtain ⟨x, l, rfl⟩ := List.exists_cons_of_ne_nil (ht hin)
    have h1 := keeps l (fun m hm => List.mem_append_left _ (List.mem_cons_of_mem _ hm))
    rw [if_pos (by exact hin)]
    simp only [rampTurned, List.cons_append, List.take_succ_cons, List.take_zero, List.drop_succ_cons, List.drop_zero,
      List.filter_append, List.filter_cons, hout, h1, h2, Bool.false_eq_true, if_false, List.nil_append]
  · have h1 := keeps l₁ (fun m hm => List.mem_append_left _ hm)
    rw [if_neg (by exact hin)]
    simp only [rampTurned, List.filter_append, List.filter_cons, hout, h1, h2, Bool.false_eq_true, if_false]

/-- An unsent command is one of the queue behind the command in transfer. -/
theorem unsent_any {s : State} {c w : Nat} {l₁ l₂ : List MatrixCmd} (hq : s.lineup.queue = l₁ ++ .level c w true :: l₂)
    (ht : s.lineup.inTransfer = true → l₁ ≠ []) : (unsent s).any (isStepOf c) = true := by
  rw [List.any_eq_true]
  refine ⟨.level c w true, ?_, by simp [isStepOf]⟩
  unfold unsent
  rw [hq]
  split
  · rename_i hin
    obtain ⟨x, l, rfl⟩ := List.exists_cons_of_ne_nil (ht hin)
    simp
  · simp

/-- A departure while a ramp turns queues the head of the deferred list, a ROUTE (R11). -/
theorem departure_rampTurned {s : State} (hl : s.lineup.map.length = 96) {c : Nat} (h1 : 1 ≤ c) (h2 : c ≤ 96) {up : Bool}
    {r : Ramp} {q : List MatrixCmd} {d : Nat} {ds : List Deferred} :
    departure (rampTurned c up r q (⟨d, false⟩ :: ds) s) = rampTurned c up r (q ++ [.route d (chan s d).route]) ds s := by
  rw [departure_cons (by rfl), deferredCommand_eq]
  dsimp only
  rw [if_neg Bool.false_ne_true, chan_of_set_keeps (·.route) (s := s)
    (e := { chan s c with carrier := if up then .rampUp else .rampDown }) hl h1 h2 (by rfl) rfl]
  rfl

/-! ## The reversal by where the step's LEVEL stands (R19) -/

section
variable {s : State} (hl : s.lineup.map.length = 96) {c : Nat} (h1 : 1 ≤ c) (h2 : c ≤ 96) {up : Bool} {r : Ramp}
  (hc : r.channel = c) (hr : s.lineup.ramps = [r]) (hcar : (chan s c).carrier = if up then .rampDown else .rampUp)
include hl h1 h2 hc hr hcar

/-- A ramp that dwells takes its next step in the new direction, or ends. -/
theorem reverse_dwell (hp : r.phase = .dwell) :
    carrierRequest c up s = stepOrEnd c up (rampTurned c up r s.lineup.queue s.lineup.deferred s) := by
  rw [carrierRequest_reverses hl h1 h2 hc hr hcar, hp]

/-- An unsent LEVEL is withdrawn, which is a departure, before the ramp takes its next step or ends. -/
theorem reverse_unsent (hp : r.phase = .command) {l₁ l₂ : List MatrixCmd} {w : Nat}
    (hq : s.lineup.queue = l₁ ++ .level c w true :: l₂) (ht : s.lineup.inTransfer = true → l₁ ≠ [])
    (ho : ∀ m ∈ l₁ ++ l₂, isStepOf c m = false) :
    carrierRequest c up s
      = lineRun (stepOrEnd c up (departure (rampTurned c up r (l₁ ++ l₂) s.lineup.deferred s))) := by
  rw [carrierRequest_reverses hl h1 h2 hc hr hcar, hp]
  dsimp only
  rw [if_pos (unsent_any hq ht), hq, removeStep_rampTurned ht ho]

/-- A deferred LEVEL is withdrawn before the ramp takes its next step or ends. -/
theorem reverse_deferred (hp : r.phase = .command) (hu : (unsent s).any (isStepOf c) = false) {l₁ l₂ : List Deferred}
    (hd : s.lineup.deferred = l₁ ++ ⟨c, true⟩ :: l₂) (hn : ⟨c, true⟩ ∉ l₁ ++ l₂) :
    carrierRequest c up s = stepOrEnd c up (rampTurned c up r s.lineup.queue (l₁ ++ l₂) s) := by
  have hkeep : ∀ l : List Deferred, (∀ d ∈ l, d ∈ l₁ ++ l₂) → l.filter (fun d => d ≠ ⟨c, true⟩) = l := by
    intro l hl
    refine List.filter_eq_self.mpr (fun d hd => ?_)
    simpa using fun e : d = ⟨c, true⟩ => hn (e ▸ hl d hd)
  have hfilter : s.lineup.deferred.filter (fun d => d ≠ ⟨c, true⟩) = l₁ ++ l₂ := by
    rw [hd, List.filter_append, List.filter_cons_of_neg (by simp), hkeep l₁ (fun d h => List.mem_append_left _ h),
      hkeep l₂ (fun d h => List.mem_append_right _ h)]
  rw [carrierRequest_reverses hl h1 h2 hc hr hcar, hp]
  dsimp only
  rw [hu, if_neg Bool.false_ne_true, if_pos (by rw [hd]; simp), hfilter]

/-- A LEVEL in transfer stands. -/
theorem reverse_sent (hp : r.phase = .command) (ht : s.lineup.inTransfer = true) {w : Nat} {q : List MatrixCmd}
    (hq : s.lineup.queue = .level c w true :: q) (ho : q.any (isStepOf c) = false) (hn : ⟨c, true⟩ ∉ s.lineup.deferred) :
    carrierRequest c up s = rampTurned c up r s.lineup.queue s.lineup.deferred s := by
  have hu : (unsent s).any (isStepOf c) = false := by
    unfold unsent
    rw [if_pos ht, hq]
    exact ho
  rw [carrierRequest_reverses hl h1 h2 hc hr hcar, hp]
  dsimp only
  rw [hu, if_neg Bool.false_ne_true, if_neg (by simpa using hn)]

end

/-! ## The replies to a reversal -/

/-- The reply to a CARRIER that leaves the matrix line to run. -/
theorem carrier_answers_line {tag : Byte} {c request : Nat} {on : Bool} {s t : State} {e : Channel} (q : Quiet s)
    (w : Working s) (hl : s.lineup.map.length = 96) (h1 : 1 ≤ c) (h2 : c ≤ 96) (hr : onOffArg request = some on)
    (ht : t.link.inFlight = none) (hm : t.lineup.map = s.lineup.map.set (c - 1) e) (hw : t.lineup.rampQueue = [])
    (he : carrierRequest c on (taken tag (.carrier c request) s) = lineRun (taken tag (.carrier c request) t)) :
    Answers (.carrier tag c request) s (lineRun t) tag (.carrier c request) .ok (channelBytes c e false) := by
  refine carrier_answers (t := lineRun t) q w h1 h2 hr ((congrArg Link.inFlight (lineRun_line t).link).trans ht)
    (he.trans (lineRun_taken tag (.carrier c request) t)) ?_
  rw [channelRecord_of_set (e := e) hl h1 h2 (by rw [lineRun_eq]; exact hm), lineRun_eq]
  show channelBytes c e (t.lineup.rampQueue.contains c) = _
  rw [hw]
  rfl

/-- The reply to a CARRIER that leaves the matrix line as it is. -/
theorem carrier_answers_set {tag : Byte} {c request : Nat} {on : Bool} {s t : State} {e : Channel} (q : Quiet s)
    (w : Working s) (hl : s.lineup.map.length = 96) (h1 : 1 ≤ c) (h2 : c ≤ 96) (hr : onOffArg request = some on)
    (ht : t.link.inFlight = none) (hm : t.lineup.map = s.lineup.map.set (c - 1) e) (hw : t.lineup.rampQueue = [])
    (he : carrierRequest c on (taken tag (.carrier c request) s) = taken tag (.carrier c request) t) :
    Answers (.carrier tag c request) s t tag (.carrier c request) .ok (channelBytes c e false) := by
  refine carrier_answers (t := t) q w h1 h2 hr ht he ?_
  rw [channelRecord_of_set (e := e) hl h1 h2 hm, hw]
  rfl

/-! ## LOAD-CHANNEL in LOADING (R6) -/

/-- The entry that LOAD-CHANNEL loads, before its class and its route are recomputed. -/
def loadedBase (p : LoadChannelArgs) (src : Option Nat) (cls : BaseClass) (el : Bool) (s : State) : Channel :=
  { chan s p.channel with
    source := src, cls := cls, zones := p.zones, eligible := el, applied := false
    carrier := if p.request = 0 then .off else if p.request = 1 then .on else .waitUp
    level := if p.request = 1 then 8 else 0 }

/-- LOAD-CHANNEL in LOADING writes the entry and the ramp queue, hands the channel on and answers with its record. -/
theorem loadChannel_writes {tag : Byte} {p : LoadChannelArgs} {src : Option Nat} {cls : BaseClass} {el : Bool} {s : State}
    (q : Quiet s) (hs : Sound s) (hop : s.link.op = .loading) (h1 : 1 ≤ p.channel) (h2 : p.channel ≤ 96)
    (hsrc : sourceArg p.source = some src) (hcls : classArg p.cls = some cls) (hel : flagArg p.eligible = some el)
    (hreq : p.request ≤ 2) {e : Channel}
    (he : { loadedBase p src cls el s with
      eff := effOf (loadedBase p src cls el s), route := routeOf s.schedule.active (loadedBase p src cls el s) } = e)
    {rq : List Nat} (hrq : (if p.request = 2 then (if s.lineup.rampQueue.contains p.channel then s.lineup.rampQueue
      else s.lineup.rampQueue ++ [p.channel]) else s.lineup.rampQueue.filter (· ≠ p.channel)) = rq)
    {written : State} (hw : { taken tag (.loadChannel p) s with
      lineup.map := s.lineup.map.set (p.channel - 1) e
      lineup.table := tierTableOf (s.lineup.map.set (p.channel - 1) e)
      lineup.rampQueue := rq } = written) :
    exec (.loadChannel tag p) s = .next (kick (answer .ok (channelBytes p.channel e (rq.contains p.channel))
      (if e.eff ≠ (chan s p.channel).eff ∨ e.zones ≠ (chan s p.channel).zones then rederiveServed written else written))) := by
  have hl := hs.lineup.1
  rw [exec_working rfl q (.inl hop)]
  show Host.Outcome.next (kick (orderLoadChannel p _)) = _
  have hst : Sound (taken tag (.loadChannel p) s) := sound_taken hs q
  have hrun : running (taken tag (.loadChannel p) s) = false := by simp [running, taken, hop]
  obtain ⟨e₀, he₀⟩ : ∃ e₀, e₀ = entryAfter (taken tag (.loadChannel p) s) p.channel (some src) (some cls) (some p.zones) (some el) :=
    ⟨_, rfl⟩
  have hput := writeBase_still hst h1 h2 he₀.symm (.inl (by rw [show (taken tag (.loadChannel p) s).link.op = .loading from hop]; decide))
  unfold orderLoadChannel
  rw [hrun, if_neg Bool.false_ne_true, (isChannel_iff _).mpr ⟨h1, h2⟩, hsrc, hcls, hel]
  dsimp only
  rw [if_neg (by omega), hput, modChan_entryPut (by exact hl) h1 h2 e₀ (by rfl) (by rfl)]
  rw [show ({ e₀ with
      applied := false, carrier := if p.request = 0 then .off else if p.request = 1 then .on else .waitUp
      level := if p.request = 1 then 8 else 0 } : Channel) = e by rw [he₀, ← he]; rfl]
  rw [channelRecord_of_set (s := s) (e := e) hl h1 h2 (by rfl), ← hrq]
  rw [handOff_marked (u := written) (old := chan s p.channel) (e := e)
    (show (s.lineup.changed || handsOn (chan s p.channel) e) = _ by rw [hs.handed, Bool.false_or])]
  · rfl
  · rw [← hw, ← hrq]
    exact mark_cleared hs.handed rfl

/-- The sources that R6 lists. -/
theorem sourceArg_range {v : Nat} {x : Option Nat} (h : sourceArg v = some x) : v < 64 ∨ v = 255 := by
  unfold sourceArg at h
  split at h
  · exact .inl ‹_›
  · split at h
    · exact .inr ‹_›
    · cases h

/-- The classes that R6 lists. -/
theorem classArg_range {v : Nat} {x : BaseClass} (h : classArg v = some x) : v ≤ 2 ∨ (16 ≤ v ∧ v ≤ 31) := by
  unfold classArg at h
  repeat' split at h
  all_goals first
    | omega
    | cases h

/-- The bytes of a yes or no (R192). -/
theorem flagArg_range {v : Nat} {x : Bool} (h : flagArg v = some x) : v ≤ 1 := by
  unfold flagArg at h
  repeat' split at h
  all_goals first
    | omega
    | cases h

/-- LOAD-CHANNEL is refused STATE in RUN. -/
theorem loadChannel_refused_run {tag : Byte} {p : LoadChannelArgs} {s : State} (q : Quiet s) (hop : s.link.op = .run) :
    Answers (.loadChannel tag p) s s tag (.loadChannel p) .state [] := by
  refine answers_of rfl q (.inr hop) q.inFlight ?_
  show orderLoadChannel _ _ = _
  unfold orderLoadChannel
  rw [if_pos (by simp [running, taken, hop])]
  rfl

/-- LOAD-CHANNEL in LOADING is refused BAD_ARG for an argument that R6 does not list. -/
theorem loadChannel_refused_arg {tag : Byte} {p : LoadChannelArgs} {s : State} (q : Quiet s) (hop : s.link.op = .loading)
    (h : p.channel < 1 ∨ 96 < p.channel ∨ (63 < p.source ∧ p.source ≠ 255) ∨ (2 < p.cls ∧ p.cls < 16) ∨ 31 < p.cls
      ∨ 1 < p.eligible ∨ 2 < p.request) : Answers (.loadChannel tag p) s s tag (.loadChannel p) .badArg [] := by
  refine answers_of rfl q (.inl hop) q.inFlight ?_
  show orderLoadChannel _ _ = _
  unfold orderLoadChannel
  rw [if_neg (by simp [running, taken, hop])]
  split
  · rename_i src cls el hc hsrc hcls hel
    have hc := (isChannel_iff _).mp hc
    have hsrc := sourceArg_range hsrc
    have hcls := classArg_range hcls
    have hel := flagArg_range hel
    rw [if_pos (by omega)]
    rfl
  · rfl

/-! ## Departures and deferred steps (R10, R11) -/

/-- The acceptance of a ROUTE queues the head of the deferred list behind what waits, and sends the next head. -/
theorem readyAssert_departs {s : State} (hs : Sound s) (hf : s.lineup.fault = false) (hrun : s.link.op = .run) {c : Nat}
    {src : Option Nat} {q : List MatrixCmd} {d : Deferred} {ds : List Deferred} (hq : s.lineup.queue = .route c src :: q)
    (ht : s.lineup.inTransfer = true) (hd : s.lineup.deferred = d :: ds) (h1 : 1 ≤ c) (h2 : c ≤ 96) {m : MatrixCmd}
    (hm : deferredCommand s d = m) : readyAssert s = { s with
      lineup.ready := true, lineup.readyTimer := none, lineup.queue := q ++ [m], lineup.deferred := ds
      lineup.inTransfer := true
      lineup.map := s.lineup.map.set (c - 1) { chan s c with
        accepted := some src
        applied := if !(q ++ [m]).any (fun x => cmdChannel x = c) && !ds.any (fun x => x.channel = c)
          && src = (chan s c).route then true else (chan s c).applied } } := by
  have hl := hs.lineup.1
  obtain ⟨u, hu⟩ : ∃ u : State, u = { s with
      lineup.ready := true, lineup.readyTimer := none, lineup.queue := q ++ [m], lineup.deferred := ds
      lineup.inTransfer := false
      lineup.map := s.lineup.map.set (c - 1) { chan s c with accepted := some src } } := ⟨_, rfl⟩
  have hdep : departure (modChan c (fun e => { e with accepted := some src }) { s with
      lineup.ready := true, lineup.readyTimer := none, lineup.queue := q, lineup.inTransfer := false }) = u := by
    rw [departure_cons (by exact hd), deferredCommand_modChan c (by intro; rfl) (by intro; rfl),
      show deferredCommand { s with
        lineup.ready := true, lineup.readyTimer := none, lineup.queue := q, lineup.inTransfer := false } d = m from hm,
      modChan_eq (by exact hl) h1 h2, hu]
    rfl
  have hc : chan u c = { chan s c with accepted := some src } := chan_of_set hl h1 h2 (by rw [hu])
  have hsent : (!(q ++ [m]).isEmpty) = true := by simp
  have hg : (!hasCommand u c) = (!(q ++ [m]).any (fun x => cmdChannel x = c) && !ds.any (fun x => x.channel = c)) := by
    rw [hu]
    exact Bool.not_or ..
  rw [readyAssert_busy hf ht, acceptHead_route (by exact hq), hdep,
    judgeApplied_eq (by rw [hu]; simpa using hl) h1 h2, hc, hg, hu, lineRun_ready (by exact hrun) (by exact hf) rfl rfl]
  simp only [List.set_set, or_eq_ite, Option.some.injEq, hsent]

/-- Settles O19: the load by its arguments, the reversal by where the step's LEVEL stands, the departure and the deferred step,
and the refusals. -/
theorem channelsLoadReverseAndDefer : Obligations.ChannelsLoadReverseAndDefer := by
  refine ⟨?_, ?_, fun s hs hw hf hrun => ⟨?_, ?_⟩, fun tag p s q => ⟨loadChannel_refused_run q, loadChannel_refused_arg q⟩⟩
  · intro tag p src cls el s q hs hop h1 h2 hsrc hcls hel hreq
    refine loadChannel_writes q hs hop h1 h2 hsrc hcls hel hreq rfl ?_ rfl
    simp only [List.contains_iff_mem]
  · intro tag c up r s qt hs hrun h1 h2 hcar hr hc hrq
    have hl := hs.lineup.1
    have working : Working s := .inr hrun
    have req := onOffArg_byte up
    have len := hs.lineup.2.1
    have hlt {o : Order} : (taken tag o s).lineup.map.length = 96 := hl
    have room {l₁ l₂ : List MatrixCmd} {m : MatrixCmd} (hq : s.lineup.queue = l₁ ++ m :: l₂) : (l₁ ++ l₂).length < 256 := by
      rw [hq] at len
      simp only [List.length_append, List.length_cons] at len ⊢
      omega
    have full {l₁ l₂ : List MatrixCmd} {m n : MatrixCmd} (hq : s.lineup.queue = l₁ ++ m :: l₂) (hf : s.lineup.queue.length = 256) :
        (l₁ ++ l₂ ++ [n]).length = 256 := by
      rw [hq] at hf
      simp only [List.length_append, List.length_cons, List.length_nil] at hf ⊢
      omega
    intro old turned v atEnd put answers step ended endsOn stepsOn mine
    have steps_line (q : List MatrixCmd) (d : List Deferred)
        (e : ∀ o, carrierRequest c up (taken tag o s) = lineRun (rampStepped c up q d (taken tag o s))) :
        stepsOn (lineRun (step q d)) :=
      carrier_answers_line (t := rampStepped c up q d s) qt working hl h1 h2 req qt.inFlight rfl hrq (e _)
    have ends_line (q : List MatrixCmd) (d : List Deferred)
        (e : ∀ o, carrierRequest c up (taken tag o s) = lineRun (rampEnded c up q d (taken tag o s))) :
        endsOn (lineRun (ended q d)) :=
      carrier_answers_line (t := rampEnded c up q d s) qt working hl h1 h2 req qt.inFlight rfl hrq (e _)
    have steps_set (q : List MatrixCmd) (d : List Deferred)
        (e : ∀ o, carrierRequest c up (taken tag o s) = rampStepped c up q d (taken tag o s)) : stepsOn (step q d) :=
      carrier_answers_set (t := rampStepped c up q d s) qt working hl h1 h2 req qt.inFlight rfl hrq (e _)
    have ends_set (q : List MatrixCmd) (d : List Deferred)
        (e : ∀ o, carrierRequest c up (taken tag o s) = rampEnded c up q d (taken tag o s)) : endsOn (ended q d) :=
      carrier_answers_set (t := rampEnded c up q d s) qt working hl h1 h2 req qt.inFlight rfl hrq (e _)
    refine ⟨fun hp hd hroom => ⟨fun he => ?_, fun he => ?_⟩, fun l₁ l₂ w hp hq ht ho => ⟨fun hd => ⟨fun he => ?_, fun he => ?_⟩,
      fun d ds hd hn hfull => ⟨fun he => ?_, fun he => ?_⟩⟩, fun l₁ l₂ hp hu hd hn => ⟨fun he hroom => ?_, fun he hfull => ?_,
      fun he => ?_⟩, fun w q hp ht hq ho hn => ?_⟩
    · refine steps_line _ _ (fun o => ?_)
      rw [reverse_dwell hlt h1 h2 hc hr hcar hp, stepOrEnd_joins hlt h1 h2 hc he (by exact hroom), ← hd]
      rfl
    · refine ends_set _ _ (fun o => ?_)
      rw [reverse_dwell hlt h1 h2 hc hr hcar hp, stepOrEnd_ends hlt h1 h2 hc hrq (by simp [taken, hd]) he, ← hd]
      rfl
    · refine steps_line _ _ (fun o => ?_)
      rw [reverse_unsent hlt h1 h2 hc hr hcar hp hq ht ho, departure_nil (by exact hd),
        stepOrEnd_joins hlt h1 h2 hc he (room hq), lineRun_lineRun, ← hd]
      rfl
    · refine ends_line _ _ (fun o => ?_)
      rw [reverse_unsent hlt h1 h2 hc hr hcar hp hq ht ho, departure_nil (by exact hd),
        stepOrEnd_ends hlt h1 h2 hc hrq (by simp [taken, hd]) he, ← hd]
      rfl
    · refine steps_line _ _ (fun o => ?_)
      rw [reverse_unsent hlt h1 h2 hc hr hcar hp hq ht ho, show (taken tag o s).lineup.deferred = _ from hd,
        departure_rampTurned hlt h1 h2, stepOrEnd_defers hlt h1 h2 hc he (full hq hfull) hn]
      rfl
    · refine ends_line _ _ (fun o => ?_)
      rw [reverse_unsent hlt h1 h2 hc hr hcar hp hq ht ho, show (taken tag o s).lineup.deferred = _ from hd,
        departure_rampTurned hlt h1 h2, stepOrEnd_ends hlt h1 h2 hc hrq hn he]
      rfl
    · refine steps_line _ _ (fun o => ?_)
      rw [reverse_deferred hlt h1 h2 hc hr hcar hp hu hd hn, stepOrEnd_joins hlt h1 h2 hc he (by exact hroom)]
      rfl
    · refine steps_set _ _ (fun o => ?_)
      rw [reverse_deferred hlt h1 h2 hc hr hcar hp hu hd hn, stepOrEnd_defers hlt h1 h2 hc he (by exact hfull) hn]
      rfl
    · refine ends_set _ _ (fun o => ?_)
      rw [reverse_deferred hlt h1 h2 hc hr hcar hp hu hd hn, stepOrEnd_ends hlt h1 h2 hc hrq hn he]
      rfl
    · exact carrier_answers_set (t := rampTurned c up r s.lineup.queue s.lineup.deferred s) qt working hl h1 h2 req qt.inFlight rfl hrq
        (reverse_sent (s := taken tag _ s) hl h1 h2 hc hr hcar hp ht hq ho hn)
  · intro c src q d ds hq ht hd h1 h2
    refine exec_readyAssert (by exact hw) (readyAssert_departs hs hf hrun hq ht hd h1 h2 (deferredCommand_eq s d))
  · intro c r hr hp hq h1 h2
    rw [exec_dwellTimerExpiry hw hr hp hf, issueStep_eq hs.lineup.1 h1 h2 hr, joinCommand_full (by exact hq)]

end Sys2Proof.Safety
end

