-- ==== Proofs/ScheduleOrders.lean ====
section
/-! PROOFS. SCHEDULE-ADD (O24), STEP and STEP-MODE, and what an applied entry writes (O27). -/

namespace Sys2Proof.Safety

open Sys2Proof.Machine

/-! ## SCHEDULE-ADD (R23, R24, R25, R28) -/

/-- The change kinds and values that R23 lists. -/
theorem changeArg_range {kind value : Nat} {k : Change} (h : changeArg kind value = some k) :
    kind ≤ 3 ∧ (kind = 0 → value < 64 ∨ value = 255) ∧ (kind = 1 → value ≤ 2 ∨ (16 ≤ value ∧ value ≤ 31))
      ∧ (kind = 2 → value < 256) ∧ (kind = 3 → value ≤ 1) := by
  unfold changeArg at h
  split at h
  · obtain ⟨x, hx, -⟩ := Option.map_eq_some_iff.mp h
    have := sourceArg_range hx
    omega
  · obtain ⟨x, hx, -⟩ := Option.map_eq_some_iff.mp h
    have := classArg_range hx
    omega
  · split at h
    · omega
    · cases h
  · obtain ⟨x, hx, -⟩ := Option.map_eq_some_iff.mp h
    have : value ≤ 1 := by
      unfold onOffArg at hx
      repeat' split at hx
      all_goals first
        | omega
        | cases hx
    omega
  · cases h

/-- SCHEDULE-ADD with an argument that R23 does not list is refused BAD_ARG. -/
theorem scheduleAdd_refused_arg {tag : Byte} {p : ScheduleArgs} {s : State} (q : Quiet s) (w : Working s)
    (h : p.channel < 1 ∨ 96 < p.channel ∨ 3 < p.kind ∨ (p.kind = 0 ∧ 63 < p.value ∧ p.value ≠ 255)
      ∨ (p.kind = 1 ∧ ((2 < p.value ∧ p.value < 16) ∨ 31 < p.value)) ∨ (p.kind = 2 ∧ 255 < p.value)
      ∨ (p.kind = 3 ∧ 1 < p.value) ∨ 1 < p.halt) :
    Answers (.scheduleAdd tag p) s s tag (.scheduleAdd p) .badArg [] := by
  refine answers_of rfl q w q.inFlight ?_
  show orderScheduleAdd _ _ = _
  unfold orderScheduleAdd
  split
  · rename_i k halt hc hk hh
    have hc := (isChannel_iff _).mp hc
    obtain ⟨hkind, h0, h1, h2, h3⟩ := changeArg_range hk
    have hh := flagArg_range hh
    omega
  · rfl

/-- The entry that SCHEDULE-ADD makes (R22). -/
def newEntry (p : ScheduleArgs) (k : Change) (halt : Bool) (s : State) : Entry :=
  ⟨s.schedule.nextId, p.due, p.channel, k, halt⟩

section
variable {tag : Byte} {p : ScheduleArgs} {k : Change} {halt : Bool} {s : State} (h1 : 1 ≤ p.channel) (h2 : p.channel ≤ 96)
  (hk : changeArg p.kind p.value = some k) (hh : flagArg p.halt = some halt)
include h1 h2 hk hh

/-- SCHEDULE-ADD by whether its entry is due, its HALT byte, the step mode and the room (R24, R25). -/
theorem orderScheduleAdd_eq (s : State) : orderScheduleAdd p s =
    if isDue s (newEntry p k halt s) && !s.schedule.stepMode && !halt then
      answer .ok (u16 s.schedule.nextId ++ u8 1) (handOff (applyChange p.channel k (advanceId s)))
    else if scheduleFull (newEntry p k halt s) s then refuse .full s
    else if isDue s (newEntry p k halt s) && !s.schedule.stepMode then
      answer .ok (u16 s.schedule.nextId ++ u8 2)
        (haltNotice (newEntry p k halt s) { insertR24 (newEntry p k halt s) s with schedule.stepMode := true })
    else answer .ok (u16 s.schedule.nextId ++ u8 0) (insertR24 (newEntry p k halt s) s) := by
  unfold orderScheduleAdd
  rw [(isChannel_iff _).mpr ⟨h1, h2⟩, hk, hh]
  rfl

variable (q : Quiet s) (w : Working s)
include q w

/-- SCHEDULE-ADD whose entry is not applied is refused FULL where no equal entry stands in a queue of 128. -/
theorem scheduleAdd_refused_full
    (hn : (isDue s (newEntry p k halt s) && !s.schedule.stepMode && !halt) = false)
    (hf : scheduleFull (newEntry p k halt s) s = true) :
    Answers (.scheduleAdd tag p) s s tag (.scheduleAdd p) .full [] := by
  refine answers_of rfl q w q.inFlight ?_
  show orderScheduleAdd _ _ = _
  rw [orderScheduleAdd_eq h1 h2 hk hh, if_neg (by exact Bool.eq_false_iff.mp hn), if_pos (by exact hf)]
  rfl

/-- SCHEDULE-ADD whose entry waits is queued at the place of R24. -/
theorem scheduleAdd_queues (hn : (isDue s (newEntry p k halt s) && !s.schedule.stepMode) = false)
    (hf : scheduleFull (newEntry p k halt s) s = false) :
    Answers (.scheduleAdd tag p) s (insertR24 (newEntry p k halt s) s) tag (.scheduleAdd p) .ok
      (u16 s.schedule.nextId ++ u8 0) := by
  have hn' : (isDue s (newEntry p k halt s) && !s.schedule.stepMode && !halt) = false := by rw [hn]; rfl
  refine answers_of rfl q w (by exact q.inFlight) ?_
  show orderScheduleAdd _ _ = _
  rw [orderScheduleAdd_eq h1 h2 hk hh, if_neg (by exact Bool.eq_false_iff.mp hn'),
    if_neg (by exact Bool.eq_false_iff.mp hf), if_neg (by exact Bool.eq_false_iff.mp hn)]
  rfl

/-- SCHEDULE-ADD whose due entry has a HALT flag is queued and turns step mode on with SCHEDULE_HALT. -/
theorem scheduleAdd_halts (hd : (isDue s (newEntry p k halt s) && !s.schedule.stepMode) = true) (hl : halt = true)
    (hf : scheduleFull (newEntry p k halt s) s = false) :
    Answers (.scheduleAdd tag p) s
      (haltNotice (newEntry p k halt s) { insertR24 (newEntry p k halt s) s with schedule.stepMode := true })
      tag (.scheduleAdd p) .ok (u16 s.schedule.nextId ++ u8 2) := by
  have hn : (isDue s (newEntry p k halt s) && !s.schedule.stepMode && !halt) = false := by rw [hl]; simp
  refine answers_of rfl q w ?_ ?_
  · exact (notice_inFlight ..).trans q.inFlight
  · show orderScheduleAdd _ _ = _
    rw [orderScheduleAdd_eq h1 h2 hk hh, if_neg (by exact Bool.eq_false_iff.mp hn),
      if_neg (by exact Bool.eq_false_iff.mp hf), if_pos (by exact hd)]
    unfold haltNotice
    exact congrArg (answer .ok _) (notice_taken nkScheduleHalt false _ tag (.scheduleAdd p)
      { insertR24 (newEntry p k halt s) s with schedule.stepMode := true })

/-- SCHEDULE-ADD whose due entry has no HALT flag is applied in its event, with step mode off. -/
theorem scheduleAdd_applies (hd : (isDue s (newEntry p k halt s) && !s.schedule.stepMode && !halt) = true) :
    exec (.scheduleAdd tag p) s = .next (kick (answer .ok (u16 s.schedule.nextId ++ u8 1)
      (handOff (applyChange p.channel k (advanceId (taken tag (.scheduleAdd p) s)))))) := by
  rw [exec_working rfl q w]
  show Host.Outcome.next (kick (orderScheduleAdd p _)) = _
  rw [orderScheduleAdd_eq h1 h2 hk hh, if_pos (by exact hd)]
  rfl

end

/-- What an applied change and its hand-off change of a state with an order taken: the line-up and the plant line alone. -/
theorem handOff_applyChange (c : Nat) (k : Change) (tag : Byte) (o : Order) (s : State) : ∃ (l : Lineup) (pl : Plant),
    handOff (applyChange c k (taken tag o s)) = taken tag o { s with lineup := l, plant := pl } := by
  obtain ⟨l, pl, e⟩ := (applyChange_line c k (taken tag o s)).trans (handOff_line _)
  exact ⟨l, pl, e⟩

/-- Settles O24, by whether the entry is due, its HALT byte, the step mode and the room. -/
theorem scheduleAddQueuesOrApplies : Obligations.ScheduleAddQueuesOrApplies := by
  refine ⟨fun tag p k halt s q w h1 h2 hk hh => ?_, fun tag p s q w h => scheduleAdd_refused_arg q w h⟩
  intro e same rest entries queued full waits
  have hfull : full ↔ scheduleFull e s = true := by
    unfold scheduleFull
    rw [Bool.and_eq_true, Bool.not_eq_true', decide_eq_true_iff]
    rfl
  have hnotfull (h : ¬ full) : scheduleFull e s = false := by rwa [hfull, Bool.not_eq_true] at h
  have hdue : isDue s e = true ↔ p.due ≤ minuteOf s := decide_eq_true_iff
  have hwaits (h : waits) : (isDue s e && !s.schedule.stepMode) = false := by
    rcases h with h | h
    · rw [show isDue s e = false by rw [Bool.eq_false_iff, ne_eq, hdue]; omega, Bool.false_and]
    · rw [h, Bool.not_true, Bool.and_false]
  have hnow (h : p.due ≤ minuteOf s) (hm : s.schedule.stepMode = false) : (isDue s e && !s.schedule.stepMode) = true := by
    rw [hdue.mpr h, hm]
    rfl
  refine ⟨fun hw hf => scheduleAdd_queues h1 h2 hk hh q w (hwaits hw) (hnotfull hf),
    fun hw hf => scheduleAdd_refused_full h1 h2 hk hh q w ?_ (hfull.mp hf),
    fun hd hm hl hf => scheduleAdd_halts h1 h2 hk hh q w (hnow hd hm) hl (hnotfull hf),
    fun hd hm hl hf => scheduleAdd_refused_full h1 h2 hk hh q w ?_ (hfull.mp hf),
    fun hd hm hl => ⟨scheduleAdd_applies h1 h2 hk hh q w ?_, handOff_applyChange ..⟩⟩
  · exact Bool.and_eq_false_iff.mpr (.inl (hwaits hw))
  · rw [hl, Bool.not_true, Bool.and_false]
  · exact Bool.and_eq_true_iff.mpr ⟨hnow hd hm, by rw [hl]; rfl⟩

/-! ## The due entries applied (R26, R30) -/

/-- An entry is applied to the state that it leaves the queue of. -/
def entryApplied (t : State) (e : Entry) : State :=
  applyChange e.channel e.change { t with schedule.entries := t.schedule.entries.drop 1 }

/-- The head of the queue is applied and leaves it. -/
theorem applyHead_cons {s : State} {e : Entry} {es : List Entry} (h : s.schedule.entries = e :: es) :
    applyHead s = entryApplied s e := by
  unfold applyHead entryApplied
  rw [h]
  rfl

/-- An applied entry leaves the clock, and the queue without its head. -/
theorem entryApplied_keeps (t : State) (e : Entry) : minuteOf (entryApplied t e) = minuteOf t
    ∧ (entryApplied t e).schedule.entries = t.schedule.entries.drop 1 := by
  unfold entryApplied
  obtain ⟨l, pl, h⟩ := applyChange_line e.channel e.change { t with schedule.entries := t.schedule.entries.drop 1 }
  rw [h]
  exact ⟨rfl, rfl⟩

/-- Where the head is not due nothing is applied. -/
theorem applyAll_none {s : State} (h : ∀ e ∈ s.schedule.entries, minuteOf s < e.due) (n : Nat) : applyAll n s = s := by
  cases n with
  | zero => rfl
  | succ n =>
    unfold applyAll
    split
    · rfl
    · rename_i e es he
      have := h e (by rw [he]; exact List.mem_cons_self)
      rw [if_neg (by simp only [isDue, decide_eq_true_eq]; omega)]

/-- One step of the application of all due entries. -/
theorem applyAll_succ {t : State} {e : Entry} {es : List Entry} (h : t.schedule.entries = e :: es) (n : Nat) :
    applyAll (n + 1) t = if isDue t e then applyAll n (entryApplied t e) else t := by
  rw [← applyHead_cons h, applyAll, h]

/-- The due entries at the front of the queue are applied in its order, and no other (R26). -/
theorem applyAll_due {rest : List Entry} : ∀ (due : List Entry) (n : Nat) (t : State), t.schedule.entries = due ++ rest →
    (∀ e ∈ due, e.due ≤ minuteOf t) → (∀ e ∈ rest, minuteOf t < e.due) → due.length ≤ n →
    applyAll n t = due.foldl entryApplied t
  | [], n, t, ht, _, hr, _ => applyAll_none (by rw [ht]; exact hr) n
  | e :: due, 0, t, _, _, _, hn => by simp at hn
  | e :: due, n + 1, t, ht, hd, hr, hn => by
    obtain ⟨hm, hes⟩ := entryApplied_keeps t e
    have he : isDue t e = true := decide_eq_true (hd e List.mem_cons_self)
    rw [applyAll_succ ht, if_pos he, List.foldl_cons]
    refine applyAll_due due n _ (by rw [hes, ht]; rfl) (fun x hx => ?_) (fun x hx => ?_) (Nat.le_of_succ_le_succ hn)
    · rw [hm]; exact hd x (List.mem_cons_of_mem _ hx)
    · rw [hm]; exact hr x hx

/-! ## STEP and STEP-MODE (R30, R31) -/

/-- STEP is refused STATE with step mode off, and NOTHING_DUE where no head is due. -/
theorem step_refused {tag : Byte} {s : State} (q : Quiet s) (w : Working s) {code : StatusCode}
    (h : (s.schedule.stepMode = false ∧ code = .state) ∨ (s.schedule.stepMode = true
      ∧ (∀ e es, s.schedule.entries = e :: es → minuteOf s < e.due) ∧ code = .nothingDue)) :
    Answers (.step tag) s s tag .step code [] := by
  refine answers_of rfl q w q.inFlight ?_
  show orderStep _ = _
  unfold orderStep
  rcases h with ⟨h, rfl⟩ | ⟨h, hn, rfl⟩
  · rw [show (taken tag .step s).schedule.stepMode = false from h]
    rfl
  · rw [show (taken tag .step s).schedule.stepMode = true from h, if_neg (by decide)]
    split
    · rfl
    · rename_i e es he
      have := hn e es he
      rw [if_pos]
      · rfl
      · show (!decide (e.due ≤ minuteOf s)) = true
        simpa using this

/-- STEP applies the due head alone and hands its channel on. -/
theorem step_applies {tag : Byte} {s : State} (q : Quiet s) (w : Working s) {e : Entry} {es : List Entry}
    (hm : s.schedule.stepMode = true) (he : s.schedule.entries = e :: es) (hd : e.due ≤ minuteOf s) {l : Lineup} {pl : Plant}
    (ha : handOff (applyChange e.channel e.change (taken tag .step { s with schedule.entries := es }))
      = taken tag .step { s with schedule.entries := es, lineup := l, plant := pl }) :
    Answers (.step tag) s { s with schedule.entries := es, lineup := l, plant := pl } tag .step .ok
      (u16 e.id ++ u32 e.due ++ u8 e.channel ++ u8 (changeKind e.change)
        ++ u16 (es.filter (fun x => decide (x.due ≤ minuteOf s))).length) := by
  refine answers_of rfl q w (by exact q.inFlight) ?_
  show orderStep _ = _
  have hhead : applyHead (taken tag .step s) = applyChange e.channel e.change (taken tag .step { s with schedule.entries := es }) := by
    unfold applyHead
    rw [show (taken tag .step s).schedule.entries = e :: es from he]
    rfl
  unfold orderStep
  rw [show (taken tag .step s).schedule.stepMode = true from hm, if_neg (by decide),
    show (taken tag .step s).schedule.entries = e :: es from he]
  dsimp only
  rw [if_neg, hhead, ha]
  · rfl
  · show ¬ (!decide (e.due ≤ minuteOf s)) = true
    simpa using hd

/-- STEP-MODE OFF as a case on the flag it clears. -/
theorem orderStepMode_off (s : State) : orderStepMode 1 s =
    if s.schedule.stepMode then answer .ok ([0] ++ u16 (dueCount s))
      (handOff (applyAll s.schedule.entries.length { s with schedule.stepMode := false }))
    else answer .ok ([0] ++ u16 0) s := by
  show answer .ok _ _ = _
  split <;> rfl

/-- The due entries counted at the front of a queue whose others are not due. -/
theorem dueCount_append {s : State} {due rest : List Entry} (he : s.schedule.entries = due ++ rest)
    (hd : ∀ e ∈ due, e.due ≤ minuteOf s) (hr : ∀ e ∈ rest, minuteOf s < e.due) : dueCount s = due.length := by
  have hrest : rest.filter (isDue s) = [] :=
    List.filter_eq_nil_iff.mpr (fun e h => by have := hr e h; simp only [isDue, decide_eq_true_eq]; omega)
  have hdue : due.filter (isDue s) = due :=
    List.filter_eq_self.mpr (fun e h => by simpa only [isDue, decide_eq_true_eq] using hd e h)
  unfold dueCount
  rw [he, List.filter_append, hrest, hdue, List.append_nil]

/-- STEP-MODE OFF with step mode on applies the due entries in queue order and hands their channels on together. -/
theorem stepMode_applies {tag : Byte} {s : State} (q : Quiet s) (w : Working s) {due rest : List Entry}
    (hm : s.schedule.stepMode = true) (he : s.schedule.entries = due ++ rest) (hd : ∀ e ∈ due, e.due ≤ minuteOf s)
    (hr : ∀ e ∈ rest, minuteOf s < e.due) :
    exec (.stepMode tag 1) s = .next (kick (answer .ok ([0] ++ u16 due.length)
      (handOff (due.foldl entryApplied (taken tag (.stepMode 1) { s with schedule.stepMode := false }))))) := by
  have hn : due.length ≤ s.schedule.entries.length := by simp [he]
  have hall := applyAll_due due _ (taken tag (.stepMode 1) { s with schedule.stepMode := false }) he hd hr hn
  rw [exec_working rfl q w]
  show Host.Outcome.next (kick (orderStepMode 1 _)) = _
  rw [orderStepMode_off, if_pos (by exact hm), dueCount_append (by exact he) (by exact hd) (by exact hr), ← hall]
  rfl

/-- STEP-MODE OFF with nothing due clears the flag alone. -/
theorem stepMode_nothing_due {tag : Byte} {s : State} (q : Quiet s) (hs : Sound s) (w : Working s)
    (h : ∀ e ∈ s.schedule.entries, minuteOf s < e.due) :
    Answers (.stepMode tag 1) s { s with schedule.stepMode := false } tag (.stepMode 1) .ok ([0] ++ u16 0) := by
  refine answers_of rfl q w (by exact q.inFlight) ?_
  show orderStepMode 1 _ = _
  rw [orderStepMode_off]
  split
  · have hnone : applyAll s.schedule.entries.length (taken tag (.stepMode 1) { s with schedule.stepMode := false })
        = taken tag (.stepMode 1) { s with schedule.stepMode := false } := applyAll_none (by exact h) _
    have hoff : handOff (applyAll s.schedule.entries.length (taken tag (.stepMode 1) { s with schedule.stepMode := false }))
        = taken tag (.stepMode 1) { s with schedule.stepMode := false } := by rw [hnone, handOff_none (by exact hs.handed)]
    rw [dueCount_append (due := []) (by rfl) (by simp) (by exact h)]
    exact congrArg (answer .ok _) hoff
  · rename_i hm
    have hoff : { s with schedule.stepMode := false } = s := by
      rw [show false = s.schedule.stepMode from (Bool.eq_false_iff.mpr hm).symm]
    rw [hoff]

/-- STEP-MODE with a request that R30 does not list is refused. -/
theorem stepMode_refused {tag : Byte} {s : State} (q : Quiet s) (w : Working s) {request : Nat} (h : 1 < request) :
    Answers (.stepMode tag request) s s tag (.stepMode request) .badArg [] := by
  obtain ⟨n, rfl⟩ : ∃ n, request = n + 2 := ⟨request - 2, by omega⟩
  exact answers_of rfl q w q.inFlight rfl

/-! ## What an applied entry writes (R26) -/

/-- The mark of a channel whose written entry hands it on. -/
theorem handsOn_decide (old e : Channel) : handsOn old e = decide (e.eff ≠ old.eff ∨ e.zones ≠ old.zones) :=
  Bool.eq_iff_iff.mpr (by rw [handsOn_iff, decide_eq_true_iff])

/-- The entry of a channel with the base field of a change written (R26). -/
def changedBase (k : Change) (old : Channel) : Channel :=
  match k with
  | .route v => { old with source := v }
  | .cls v => { old with cls := v }
  | .blackout z => { old with zones := z }
  | .carrier _ => old

/-- An applied entry that is no CARRIER entry writes one base field of its channel. -/
theorem applyChange_writes (c : Nat) (k : Change) (s : State) (h : ∀ on, k ≠ .carrier on) : ∃ a kl z,
    applyChange c k s = writeBase c a kl z none s ∧ baseWritten (chan s c) a kl z none = changedBase k (chan s c) := by
  cases k with
  | route v => exact ⟨some v, none, none, rfl, rfl⟩
  | cls v => exact ⟨none, some v, none, rfl, rfl⟩
  | blackout z => exact ⟨none, none, some z, rfl, rfl⟩
  | carrier on => exact absurd rfl (h on)

/-- Settles O27, by the cases of STEP and STEP-MODE, then by where the ROUTE of an applied entry finds a place. -/
theorem stepAppliesTheHead : Obligations.StepAppliesTheHead := by
  refine ⟨fun tag s q hs w => ⟨fun h => step_refused q w (.inl ⟨h, rfl⟩), fun hm h => step_refused q w (.inr ⟨hm, h, rfl⟩),
    fun e es hm he hd => ?_, answers_of rfl q w (by exact q.inFlight) rfl, fun hm => ?_, stepMode_nothing_due q hs w,
    fun due rest hm he hd hr => stepMode_applies q w hm he hd hr, fun request h => stepMode_refused q w h⟩,
    fun c k handed s hs h1 h2 hk => ?_, fun tag c on s q w h1 h2 => ?_⟩
  · obtain ⟨l, pl, ha⟩ := handOff_applyChange e.channel e.change tag .step { s with schedule.entries := es }
    exact ⟨l, pl, ha, step_applies q w hm he hd ha⟩
  · refine answers_of rfl q w q.inFlight ?_
    show orderStepMode 1 _ = _
    rw [orderStepMode_off, if_neg (by exact Bool.eq_false_iff.mp hm)]
  · intro old b r e m written put waits
    obtain ⟨a, kl, z, hw, hb⟩ := applyChange_writes c k s hk
    have he : entryAfter s c a kl z none = e := by
      unfold entryAfter
      rw [hb]
      rfl
    have hput : entryPut c e s = written := by
      unfold entryPut
      rw [handsOn_decide, hs.handed]
    refine ⟨fun h => ?_, fun hrun hr hwait => ?_, fun hrun hr hwait hroom => ?_, fun hrun hr hwait hfull => ?_⟩
    · rw [hw, writeBase_still hs h1 h2 he h, hput]
    · rw [hw, writeBase_replaces hs h1 h2 he hrun hr hwait, hput]
      rfl
    · rw [hw, writeBase_joins hs h1 h2 he hrun hr hwait hroom, hput]
    · rw [hw, writeBase_defers hs h1 h2 he hrun hr hwait hfull, hput]
  · intro request u
    rw [exec_working rfl q w]
    show Host.Outcome.next (kick (orderCarrier c request _)) = _
    rw [orderCarrier_eq h1 h2 (onOffArg_byte on)]
    rfl

end Sys2Proof.Safety
end

