-- ==== Proofs/AlertClaims.lean ====
section
/-! PROOFS. The recomputation of every displayed route (R3, R38), the claims of the alert, and their orders and input (O28,
O29). -/

namespace Sys2Proof.Safety

open Sys2Proof.Machine

/-! ## A walk of the channels -/

/-- The map with a function applied to the entries of the first channels. -/
def mappedTo (f : Channel → Channel) (n : Nat) (m : List Channel) : List Channel := (m.take n).map f ++ m.drop n

/-- A walk of the map leaves its length. -/
theorem mappedTo_length (f : Channel → Channel) (n : Nat) (m : List Channel) : (mappedTo f n m).length = m.length := by
  simp only [mappedTo, List.length_append, List.length_map, List.length_take, List.length_drop]
  omega

/-- A channel that the walk has not reached. -/
theorem mappedTo_get (f : Channel → Channel) (n : Nat) (m : List Channel) : (mappedTo f n m)[n]? = m[n]? := by
  by_cases h : n < m.length
  · have hl : ((m.take n).map f).length = n := by
      rw [List.length_map, List.length_take, Nat.min_eq_left (Nat.le_of_lt h)]
    unfold mappedTo
    rw [List.getElem?_append_right (Nat.le_of_eq hl), hl, Nat.sub_self, List.getElem?_drop, Nat.add_zero]
  · exact (List.getElem?_eq_none (by rw [mappedTo_length]; omega)).trans (List.getElem?_eq_none (by omega)).symm

/-- The next channel reached. -/
theorem mappedTo_succ (f : Channel → Channel) {n : Nat} {m : List Channel} {e : Channel} (h : m[n]? = some e) :
    mappedTo f (n + 1) m = (mappedTo f n m).set n (f e) := by
  obtain ⟨hn, he⟩ := List.getElem?_eq_some_iff.mp h
  have hl : ((m.take n).map f).length = n := by
    rw [List.length_map, List.length_take, Nat.min_eq_left (Nat.le_of_lt hn)]
  have hset := List.set_append_right (t := m.drop n) n (f e) (Nat.le_of_eq hl)
  unfold mappedTo
  rw [hset, hl, Nat.sub_self, List.take_add_one, h, List.drop_eq_getElem_cons hn, List.set_cons_zero]
  simp

/-- The map with every channel reached. -/
theorem mappedTo_all (f : Channel → Channel) {n : Nat} {m : List Channel} (h : m.length ≤ n) :
    mappedTo f n m = m.map f := by
  rw [mappedTo, List.take_of_length_le h, List.drop_of_length_le h, List.append_nil]

/-- A channel that the function leaves leaves the map. -/
theorem mappedTo_succ_still (f : Channel → Channel) {n : Nat} {m : List Channel} {e : Channel} (h : m[n]? = some e)
    (hf : f e = e) : mappedTo f (n + 1) m = mappedTo f n m := by
  rw [mappedTo_succ f h, hf]
  obtain ⟨hn, he⟩ := List.getElem?_eq_some_iff.mp ((mappedTo_get f n m).trans h)
  rw [← he, List.set_getElem_self]

/-- A channel not reached stands in the map as it did. -/
theorem chan_mappedTo {f : Channel → Channel} {s t : State} {n : Nat} (h : t.lineup.map = mappedTo f n s.lineup.map) :
    chan t (n + 1) = chan s (n + 1) := by
  unfold chan
  rw [h, Nat.add_sub_cancel, mappedTo_get]

/-! ## Every displayed route recomputed (R38) -/

/-- A channel's entry after the recomputation of its displayed route. -/
def rerouted (active : Bool) (e : Channel) : Channel :=
  if routeOf active e = e.route then e else { e with route := routeOf active e, applied := false }

/-- An entry whose route is as R3 gives it is left. -/
theorem rerouted_still {active : Bool} {e : Channel} (h : routeOf active e = e.route) : rerouted active e = e := if_pos h

/-- The state with the routes of the first channels recomputed in its map. -/
def mapTo (n : Nat) (s : State) : State := { s with lineup.map := mappedTo (rerouted s.schedule.active) n s.lineup.map }

/-- A channel whose route is as R3 gives it is not touched. -/
theorem recomputeRoute_still {c : Nat} {s : State} (h : routeOf s.schedule.active (chan s c) = (chan s c).route) :
    recomputeRoute c s = s := if_pos h

/-- A channel whose route changes has it written with its applied flag cleared, and queued in RUN. -/
theorem recomputeRoute_moved {s : State} (hl : s.lineup.map.length = 96) {c : Nat} (h1 : 1 ≤ c) (h2 : c ≤ 96)
    (h : routeOf s.schedule.active (chan s c) ≠ (chan s c).route) {t : State}
    (ht : { s with lineup.map := s.lineup.map.set (c - 1) (rerouted s.schedule.active (chan s c)) } = t) :
    recomputeRoute c s = if running s then queueRoute c t else t := by
  have hmod : modChan c (fun e => { e with route := routeOf s.schedule.active (chan s c), applied := false }) s = t := by
    rw [modChan_eq hl h1 h2, ← ht, rerouted, if_neg h]
  have hrun : running t = running s := by rw [← ht]; rfl
  unfold recomputeRoute
  rw [if_neg h]
  dsimp only
  rw [hmod, hrun]

/-- The recomputation is a walk of the channels from 1. -/
theorem recomputeRoutes_walk (s : State) :
    recomputeRoutes s = (List.range 96).foldl (fun s i => recomputeRoute (i + 1) s) s := by
  unfold recomputeRoutes channels
  rw [List.foldl_map]

/-- Outside RUN the recomputation writes the map alone. -/
theorem recomputeRoutes_quiet {s : State} (hl : s.lineup.map.length = 96) (hrun : running s = false) :
    recomputeRoutes s = { s with lineup.map := s.lineup.map.map (rerouted s.schedule.active) } := by
  have walk (n : Nat) (hn : n ≤ 96) : (List.range n).foldl (fun s i => recomputeRoute (i + 1) s) s = mapTo n s := by
    induction n with
    | zero => simp only [List.range_zero, List.foldl_nil, mapTo, mappedTo, List.take_zero, List.map_nil, List.drop_zero,
        List.nil_append]
    | succ n ih =>
      rw [List.range_succ, List.foldl_append, ih (by omega), List.foldl_cons, List.foldl_nil]
      have hc : chan (mapTo n s) (n + 1) = chan s (n + 1) := chan_mappedTo rfl
      have hget : s.lineup.map[n]? = some (chan s (n + 1)) := chan_eq hl (c := n + 1) (by omega) hn
      have hlen : (mapTo n s).lineup.map.length = 96 := (mappedTo_length ..).trans hl
      by_cases h : routeOf s.schedule.active (chan s (n + 1)) = (chan s (n + 1)).route
      · rw [recomputeRoute_still (by rw [hc]; exact h), mapTo, mapTo, mappedTo_succ_still _ hget (rerouted_still h)]
      · rw [recomputeRoute_moved (t := mapTo (n + 1) s) hlen (by omega) hn (by rw [hc]; exact h), if_neg]
        · exact Bool.eq_false_iff.mp hrun
        · rw [hc]
          unfold mapTo
          rw [mappedTo_succ _ hget]
          rfl
  rw [recomputeRoutes_walk, walk 96 (Nat.le_refl _), mapTo, mappedTo_all _ (Nat.le_of_eq hl)]

/-! ## Changed routes queued in RUN (R10) -/

/-- The first channels whose displayed route is not the one that R3 gives, ascending. -/
def movedTo (n : Nat) (s : State) : List Nat :=
  ((List.range n).map (· + 1)).filter (fun c => decide (routeOf s.schedule.active (chan s c) ≠ (chan s c).route))

/-- The ROUTE of each of these channels. -/
def routesTo (n : Nat) (s : State) : List MatrixCmd :=
  (movedTo n s).map (fun c => .route c (routeOf s.schedule.active (chan s c)))

/-- The state with the first channels recomputed in the map, and their commands queued. -/
def queuedTo (n : Nat) (s : State) : State :=
  { s with lineup.map := mappedTo (rerouted s.schedule.active) n s.lineup.map, lineup.queue := s.lineup.queue ++ routesTo n s }

/-- The matrix line then does what it can, where a command was queued. -/
def routedTo (n : Nat) (s : State) : State := if movedTo n s = [] then queuedTo n s else lineRun (queuedTo n s)

/-- The next channel, moved or not. -/
theorem movedTo_succ (n : Nat) (s : State) : movedTo (n + 1) s = movedTo n s
    ++ if routeOf s.schedule.active (chan s (n + 1)) = (chan s (n + 1)).route then [] else [n + 1] := by
  unfold movedTo
  rw [List.range_succ, List.map_append, List.filter_append]
  congr 1
  by_cases h : routeOf s.schedule.active (chan s (n + 1)) = (chan s (n + 1)).route <;> simp [h]

section
variable {n : Nat} {s : State}

/-- A next channel that stands as R3 gives it queues nothing. -/
theorem routedTo_still (hget : s.lineup.map[n]? = some (chan s (n + 1)))
    (h : routeOf s.schedule.active (chan s (n + 1)) = (chan s (n + 1)).route) : routedTo (n + 1) s = routedTo n s := by
  have hm : movedTo (n + 1) s = movedTo n s := by rw [movedTo_succ, if_pos h, List.append_nil]
  have hq : queuedTo (n + 1) s = queuedTo n s := by
    rw [queuedTo, queuedTo, routesTo, routesTo, hm, mappedTo_succ_still _ hget (rerouted_still h)]
  rw [routedTo, routedTo, hm, hq]

variable (h : routeOf s.schedule.active (chan s (n + 1)) ≠ (chan s (n + 1)).route)
include h

/-- A next channel whose route changes is moved. -/
theorem movedTo_moved : movedTo (n + 1) s = movedTo n s ++ [n + 1] := by rw [movedTo_succ, if_neg h]

/-- A next channel whose route changes has its command queued. -/
theorem queuedTo_moved (hget : s.lineup.map[n]? = some (chan s (n + 1))) : queuedTo (n + 1) s = { queuedTo n s with
    lineup.map := (queuedTo n s).lineup.map.set n (rerouted s.schedule.active (chan s (n + 1)))
    lineup.queue := (queuedTo n s).lineup.queue ++ [MatrixCmd.route (n + 1) (routeOf s.schedule.active (chan s (n + 1)))] } := by
  rw [queuedTo, queuedTo, mappedTo_succ _ hget, routesTo, movedTo_moved h, List.map_append, ← List.append_assoc]
  rfl

end

/-- The channels moved among the first n are at most n. -/
theorem movedTo_le {n c : Nat} {s : State} (h : c ∈ movedTo n s) : c ≤ n := by
  simp only [movedTo, List.mem_filter, List.mem_map, List.mem_range] at h
  obtain ⟨⟨i, hi, rfl⟩, -⟩ := h
  omega

/-- The channels moved among the first are moved among all. -/
theorem movedTo_prefix {n k : Nat} (h : n ≤ k) (s : State) : movedTo n s <+: movedTo k s := by
  induction k, h using Nat.le_induction with
  | base => exact List.prefix_rfl
  | succ k _ ih =>
    rw [movedTo_succ]
    exact ih.trans (List.prefix_append ..)

/-- What a walk has queued so far, as the fields of the state. -/
theorem routedTo_eq (n : Nat) (s : State) : ∃ (t : Bool) (r : Option Nat), routedTo n s
      = { queuedTo n s with lineup.inTransfer := t, lineup.readyTimer := r } ∧ (s.lineup.inTransfer = true → t = true) := by
  unfold routedTo
  split
  · exact ⟨s.lineup.inTransfer, s.lineup.readyTimer, rfl, id⟩
  · rw [lineRun_eq]
    exact ⟨_, _, rfl, fun h => by rw [show (queuedTo n s).lineup.inTransfer = true from h, Bool.true_or]⟩

/-- A command unsent during the walk was unsent before it, or the walk queued it. -/
theorem unsent_routedTo {n : Nat} {s : State} {x : MatrixCmd} (h : x ∈ unsent (routedTo n s)) :
    x ∈ unsent s ∨ x ∈ routesTo n s := by
  obtain ⟨t, r, e, ht⟩ := routedTo_eq n s
  have hx : x ∈ if t then (s.lineup.queue ++ routesTo n s).drop 1 else s.lineup.queue ++ routesTo n s := by
    rw [e] at h
    exact h
  unfold unsent
  by_cases hs : s.lineup.inTransfer = true
  · rw [if_pos (ht hs), List.drop_append] at hx
    rw [if_pos hs]
    exact (List.mem_append.mp hx).imp_right List.mem_of_mem_drop
  · rw [if_neg hs]
    refine List.mem_append.mp ?_
    split at hx
    · exact List.mem_of_mem_drop hx
    · exact hx

/-- The matrix line, run again after one more command joins a queue that is not empty, does what it does at once. -/
theorem lineRun_joined {s : State} (h : s.lineup.queue ≠ []) (m : List Channel) (x : MatrixCmd) :
    lineRun { lineRun s with lineup.map := m, lineup.queue := s.lineup.queue ++ [x] }
      = lineRun { s with lineup.map := m, lineup.queue := s.lineup.queue ++ [x] } := by
  have hq : s.lineup.queue.isEmpty = false := by simpa using h
  have hqx : (s.lineup.queue ++ [x]).isEmpty = false := by simp
  have hsent (t a : Bool) : ((t || a) || a) = (t || a) := by cases a <;> simp
  have htimer (b : Bool) (o : Option Nat) : (if b then some ((if b then some (o.getD 500) else none).getD 500) else none)
      = if b then some (o.getD 500) else none := by cases b <;> rfl
  rw [lineRun_eq, lineRun_eq s, lineRun_eq { s with lineup.map := m, lineup.queue := s.lineup.queue ++ [x] }]
  dsimp only [running]
  rw [hq, hqx, hsent, htimer]

/-- A next channel whose route changes: its command joins, and the matrix line does what it can. -/
theorem routedTo_moved {n : Nat} {s : State} (h : routeOf s.schedule.active (chan s (n + 1)) ≠ (chan s (n + 1)).route)
    (hget : s.lineup.map[n]? = some (chan s (n + 1))) : routedTo (n + 1) s = lineRun { routedTo n s with
      lineup.map := (queuedTo n s).lineup.map.set n (rerouted s.schedule.active (chan s (n + 1)))
      lineup.queue := (queuedTo n s).lineup.queue ++ [MatrixCmd.route (n + 1) (routeOf s.schedule.active (chan s (n + 1)))] } := by
  have hne : movedTo (n + 1) s ≠ [] := by rw [movedTo_moved h]; simp
  rw [routedTo, if_neg hne, queuedTo_moved h hget, routedTo]
  split
  · rfl
  · rename_i hm
    refine (lineRun_joined (fun hq => hm ?_) _ _).symm
    exact List.map_eq_nil_iff.mp (List.append_eq_nil_iff.mp hq).2

/-- A channel that the walk has not reached has no ROUTE unsent but those it had. -/
theorem unsent_routedTo_none {n : Nat} {s : State} (h : (unsent s).any (isRouteOf (n + 1)) = false) :
    (unsent (routedTo n s)).any (isRouteOf (n + 1)) = false := by
  rw [List.any_eq_false] at h ⊢
  intro x hx
  rcases unsent_routedTo hx with hx | hx
  · exact h x hx
  · obtain ⟨c, hc, rfl⟩ := List.mem_map.mp hx
    have := movedTo_le hc
    simp only [isRouteOf, decide_eq_true_eq]
    omega

section
variable {s : State} (hl : s.lineup.map.length = 96) (hrun : running s = true)
include hl hrun

/-- One channel of the walk in RUN. -/
theorem recomputeRoute_routedTo {n : Nat} (hn : n < 96) (hfree : n + 1 ∈ movedTo (n + 1) s → (unsent s).any (isRouteOf (n + 1)) = false)
    (hroom : s.lineup.queue.length + (movedTo (n + 1) s).length ≤ 256) :
    recomputeRoute (n + 1) (routedTo n s) = routedTo (n + 1) s := by
  have hget : s.lineup.map[n]? = some (chan s (n + 1)) := chan_eq hl (c := n + 1) (by omega) hn
  obtain ⟨t, r, e, -⟩ := routedTo_eq n s
  have hmap : (routedTo n s).lineup.map = mappedTo (rerouted s.schedule.active) n s.lineup.map := by rw [e]; rfl
  have hqueue : (routedTo n s).lineup.queue = s.lineup.queue ++ routesTo n s := by rw [e]; rfl
  have hact : (routedTo n s).schedule.active = s.schedule.active := by rw [e]; rfl
  have hop : running (routedTo n s) = true := by rw [e]; exact hrun
  have hc : chan (routedTo n s) (n + 1) = chan s (n + 1) := chan_mappedTo hmap
  have hlen : (routedTo n s).lineup.map.length = 96 := by rw [hmap, mappedTo_length, hl]
  by_cases h : routeOf s.schedule.active (chan s (n + 1)) = (chan s (n + 1)).route
  · rw [recomputeRoute_still (by rw [hact, hc]; exact h), routedTo_still hget h]
  · obtain ⟨u, hu⟩ : ∃ u : State, u = { routedTo n s with
      lineup.map := (routedTo n s).lineup.map.set n (rerouted s.schedule.active (chan s (n + 1))) } := ⟨_, rfl⟩
    rw [movedTo_moved h] at hfree hroom
    have hstep : recomputeRoute (n + 1) (routedTo n s) = queueRoute (n + 1) u := by
      rw [recomputeRoute_moved (t := u) hlen (by omega) hn (by rw [hact, hc]; exact h) (by rw [hact, hc, hu]; rfl), if_pos hop]
    have hnone : (unsent u).any (isRouteOf (n + 1)) = false := by
      rw [hu]
      exact unsent_routedTo_none (hfree (by simp))
    have hchan : chan u (n + 1) = rerouted s.schedule.active (chan s (n + 1)) :=
      chan_of_set hlen (by omega) hn (by rw [hu]; rfl)
    have hroute : (chan u (n + 1)).route = routeOf s.schedule.active (chan s (n + 1)) := by
      rw [hchan, rerouted, if_neg h]
    have hlt : u.lineup.queue.length < 256 := by
      have : u.lineup.queue = s.lineup.queue ++ routesTo n s := by rw [hu]; exact hqueue
      rw [this, List.length_append, routesTo, List.length_map]
      rw [List.length_append, List.length_singleton] at hroom
      omega
    have hparts : { u with lineup.queue := u.lineup.queue ++ [MatrixCmd.route (n + 1) (routeOf s.schedule.active (chan s (n + 1)))] }
        = { routedTo n s with
          lineup.map := (queuedTo n s).lineup.map.set n (rerouted s.schedule.active (chan s (n + 1)))
          lineup.queue := (queuedTo n s).lineup.queue ++ [MatrixCmd.route (n + 1) (routeOf s.schedule.active (chan s (n + 1)))] } := by
      rw [hu, show (queuedTo n s).lineup.map = (routedTo n s).lineup.map from hmap.symm,
        show (queuedTo n s).lineup.queue = (routedTo n s).lineup.queue from hqueue.symm]
    rw [hstep, queueRoute_new hnone, hroute, joinCommand_room hlt, routedTo_moved h hget, hparts]

/-- The walk of the channels in RUN, where each changed route finds room and no ROUTE of its channel unsent. -/
theorem recomputeRoutes_run (hfree : ∀ c ∈ movedTo 96 s, (unsent s).any (isRouteOf c) = false)
    (hroom : s.lineup.queue.length + (movedTo 96 s).length ≤ 256) : recomputeRoutes s = routedTo 96 s := by
  have walk (n : Nat) (hn : n ≤ 96) : (List.range n).foldl (fun s i => recomputeRoute (i + 1) s) s = routedTo n s := by
    induction n with
    | zero => simp [routedTo, movedTo, queuedTo, routesTo, mappedTo]
    | succ n ih =>
      have hsub := movedTo_prefix hn s
      have hfew := hsub.length_le
      rw [List.range_succ, List.foldl_append, ih (by omega), List.foldl_cons, List.foldl_nil]
      exact recomputeRoute_routedTo hl hrun hn (fun h => hfree _ (hsub.subset h)) (by omega)
  rw [recomputeRoutes_walk, walk 96 (Nat.le_refl _)]

end

/-! ## The change of a claim (R34, R38, R39) -/

/-- The state with its claims as given, and the alert state that they give. -/
def claimed (host : Option ClaimEnd) (line : Bool) (s : State) : State :=
  { s with schedule.hostClaim := host, schedule.lineClaim := line, schedule.active := host.isSome || line }

/-- The notice of a change of a claim. -/
def alertNotice (cause : AlertCause) (s : State) : State :=
  notice nkAlertState true (alertBytes s ++ u8 (alertCauseNum cause) ++ opt 4 (s.time.clock.map (·.1))) s

/-- Claims that stand so already change nothing, where the alert state is the one they give. -/
theorem changeClaim_same (cause : AlertCause) {host : Option ClaimEnd} {line : Bool} {s : State} (hh : s.schedule.hostClaim = host)
    (hl : s.schedule.lineClaim = line) (ha : s.schedule.active = (host.isSome || line)) : changeClaim cause host line s = s := by
  subst hh hl
  unfold changeClaim
  dsimp only
  rw [← ha]
  simp

/-- A changed claim that leaves the alert state is reported and moves no route. -/
theorem changeClaim_still (cause : AlertCause) {host : Option ClaimEnd} {line : Bool} {s : State}
    (hne : ¬ (s.schedule.hostClaim = host ∧ s.schedule.lineClaim = line)) (ha : (host.isSome || line) = s.schedule.active) :
    changeClaim cause host line s = alertNotice cause (claimed host line s) := by
  unfold changeClaim
  dsimp only
  rw [if_pos ha, if_neg (by simpa using hne)]
  rfl

/-- A claim that changes the alert state has every route recomputed, and is reported. -/
theorem changeClaim_moves (cause : AlertCause) {host : Option ClaimEnd} {line : Bool} {s : State}
    (hne : ¬ (s.schedule.hostClaim = host ∧ s.schedule.lineClaim = line)) (ha : (host.isSome || line) ≠ s.schedule.active) :
    changeClaim cause host line s = alertNotice cause (recomputeRoutes (claimed host line s)) := by
  unfold changeClaim
  dsimp only
  rw [if_neg ha, if_neg (by simpa using hne), alertNotice, claimed]

/-- Claims that give the alert state that stands leave it. -/
theorem claimed_of_active {host : Option ClaimEnd} {line : Bool} {s : State} (h : (host.isSome || line) = s.schedule.active) :
    claimed host line s = { s with schedule.hostClaim := host, schedule.lineClaim := line } := by
  unfold claimed
  rw [h]

/-- The notice leaves the order in flight and the orders that wait. -/
theorem alertNotice_link (cause : AlertCause) (s : State) : (alertNotice cause s).link.inFlight = s.link.inFlight
    ∧ (alertNotice cause s).link.waiting = s.link.waiting := ⟨notice_inFlight .., notice_waiting ..⟩

/-- The notice leaves the alert state and the claims. -/
theorem alertNotice_bytes (cause : AlertCause) (s : State) : alertBytes (alertNotice cause s) = alertBytes s := by
  unfold alertNotice
  rw [notice_eq]
  rfl

/-- The notice of an order's claim, made with the order taken. -/
theorem alertNotice_taken (cause : AlertCause) (tag : Byte) (o : Order) (s : State) :
    alertNotice cause (taken tag o s) = taken tag o (alertNotice cause s) := notice_taken ..

/-- The walk of the channels with an order taken. -/
theorem routedTo_taken (n : Nat) (tag : Byte) (o : Order) (s : State) : routedTo n (taken tag o s) = taken tag o (routedTo n s) := by
  have hm : movedTo n (taken tag o s) = movedTo n s := rfl
  unfold routedTo
  rw [hm]
  split
  · rfl
  · exact lineRun_taken tag o (queuedTo n s)

/-! ## ALERT-START and ALERT-END (R35) -/

/-- The end of the host claim that ALERT-START makes: its duration is brought to 120 minutes. -/
def claimEnd (d : Nat) (s : State) : ClaimEnd := if d = 0 then .untilEnd else .at (minuteOf s + if 120 < d then 120 else d)

/-- ALERT-START is a change of the host claim. -/
theorem orderAlertStart_eq (d : Nat) {s t : State}
    (h : changeClaim .alertStart (some (claimEnd d s)) s.schedule.lineClaim s = t) :
    orderAlertStart d s = answer .ok (alertBytes t) t := by
  have hd : clamp 0 120 d = if 120 < d then 120 else d := if_neg (Nat.not_lt_zero d)
  have hz : (clamp 0 120 d = 0) = (d = 0) := by rw [hd]; split <;> simp; omega
  unfold orderAlertStart
  dsimp only
  rw [← h, claimEnd, ← hd, if_congr (iff_of_eq hz) rfl rfl]

/-- ALERT-END is a change of a host claim that is held. -/
theorem orderAlertEnd_eq {s t : State} (hc : s.schedule.hostClaim ≠ none)
    (h : changeClaim .alertEnd none s.schedule.lineClaim s = t) : orderAlertEnd s = answer .ok (alertBytes t) t := by
  unfold orderAlertEnd
  rw [if_pos (Option.isSome_iff_ne_none.mpr hc), h]

/-- ALERT-END with no host claim held changes nothing. -/
theorem orderAlertEnd_none {s : State} (hc : s.schedule.hostClaim = none) : orderAlertEnd s = answer .ok (alertBytes s) s := by
  unfold orderAlertEnd
  rw [hc]
  rfl

section
variable {tag : Byte} {s : State} (q : Quiet s) (w : Working s) {t : State} (cause : AlertCause)
  (n : t.link.inFlight = s.link.inFlight)
include q w n

/-- ALERT-START that changes the host claim reports it and answers with the alert state. -/
theorem alertStart_answers {d : Nat} (h : changeClaim .alertStart (some (claimEnd d s)) s.schedule.lineClaim
      (taken tag (.alertStart d) s) = alertNotice cause (taken tag (.alertStart d) t)) :
    Answers (.alertStart tag d) s (alertNotice cause t) tag (.alertStart d) .ok (alertBytes t) := by
  refine answers_of rfl q w ((alertNotice_link ..).1.trans (n.trans q.inFlight)) ?_
  show orderAlertStart d _ = _
  rw [orderAlertStart_eq d (by exact h), alertNotice_taken, ← alertNotice_bytes cause t]
  rfl

/-- ALERT-END that changes the host claim reports it and answers with the alert state. -/
theorem alertEnd_answers (hc : s.schedule.hostClaim ≠ none) (h : changeClaim .alertEnd none s.schedule.lineClaim
      (taken tag .alertEnd s) = alertNotice cause (taken tag .alertEnd t)) :
    Answers (.alertEnd tag) s (alertNotice cause t) tag .alertEnd .ok (alertBytes t) := by
  refine answers_of rfl q w ((alertNotice_link ..).1.trans (n.trans q.inFlight)) ?_
  show orderAlertEnd _ = _
  rw [orderAlertEnd_eq (by exact hc) (by exact h), alertNotice_taken, ← alertNotice_bytes cause t]
  rfl

end

/-- The walk leaves the clock and the link. -/
theorem routedTo_keeps (n : Nat) (s : State) : (routedTo n s).time = s.time ∧ (routedTo n s).link = s.link := by
  obtain ⟨t, r, e, -⟩ := routedTo_eq n s
  rw [e]
  exact ⟨rfl, rfl⟩

/-- A change of the host claim that leaves the alert state is reported. -/
theorem changeClaim_told (cause : AlertCause) {host : Option ClaimEnd} {tag : Byte} {o : Order} {s : State}
    (hne : s.schedule.hostClaim ≠ host) (ha : (host.isSome || s.schedule.lineClaim) = s.schedule.active) :
    changeClaim cause host s.schedule.lineClaim (taken tag o s)
      = alertNotice cause (taken tag o { s with schedule.hostClaim := host }) := by
  have hc : claimed host s.schedule.lineClaim (taken tag o s) = taken tag o { s with schedule.hostClaim := host } :=
    claimed_of_active (by exact ha)
  rw [changeClaim_still cause (by exact fun h => hne h.1) (by exact ha), hc]

/-- A change of the host claim that changes the alert state in RUN: every changed route is written and queued, then the notice
is queued. -/
theorem changeClaim_run (cause : AlertCause) {host : Option ClaimEnd} {tag : Byte} {o : Order} {s u : State} (hs : Sound s)
    (hrun : s.link.op = .run) (hl : s.schedule.lineClaim = false) (ha : host.isSome = !s.schedule.active)
    (hh : s.schedule.hostClaim.isSome = s.schedule.active)
    (hu : { s with schedule.hostClaim := host, schedule.active := host.isSome } = u)
    (hfree : ∀ c ∈ movedTo 96 u, (unsent s).any (isRouteOf c) = false)
    (hroom : s.lineup.queue.length + (movedTo 96 u).length ≤ 256) :
    changeClaim cause host s.schedule.lineClaim (taken tag o s) = alertNotice cause (taken tag o (routedTo 96 u)) := by
  have hne : ¬ (s.schedule.hostClaim = host ∧ s.schedule.lineClaim = s.schedule.lineClaim) := by
    rintro ⟨e, -⟩
    rw [← e, hh] at ha
    exact Bool.not_ne_self _ ha.symm
  have hmoves : (host.isSome || s.schedule.lineClaim) ≠ s.schedule.active := by
    rw [hl, Bool.or_false, ha]
    exact Bool.not_ne_self _
  have hc : claimed host s.schedule.lineClaim (taken tag o s) = taken tag o u := by
    rw [← hu, hl, claimed, Bool.or_false, ← hl]
    rfl
  have hr : recomputeRoutes (taken tag o u) = taken tag o (routedTo 96 u) := by
    rw [← routedTo_taken]
    refine recomputeRoutes_run ?_ ?_ ?_ ?_
    · rw [← hu]; exact hs.lineup.1
    · rw [← hu]; exact decide_eq_true hrun
    · intro c h
      have := hfree c h
      rw [← hu]; exact this
    · rw [← hu] at hroom ⊢; exact hroom
  rw [changeClaim_moves cause (by exact hne) (by exact hmoves), hc, hr]

/-- Settles O28: with the alert state staying by the four cases of the claims, with it changing by the walk of the channels. -/
theorem alertOrdersChangeTheHostClaim : Obligations.AlertOrdersChangeTheHostClaim := by
  refine ⟨fun tag d s q w ha => ⟨⟨fun hne => ?_, fun he => ?_⟩, fun hn => ?_, fun hn hl => ?_⟩,
    fun tag d on s q hs hrun ha hh hl => ?_⟩
  · exact alertStart_answers q w .alertStart (by exact rfl) (changeClaim_told _ hne ha.symm)
  · have hsame : changeClaim .alertStart (some (claimEnd d s)) s.schedule.lineClaim (taken tag (.alertStart d) s)
        = taken tag (.alertStart d) s := changeClaim_same _ he rfl ha
    refine answers_of rfl q w q.inFlight ?_
    show orderAlertStart d _ = _
    rw [orderAlertStart_eq d (by exact hsame)]
    rfl
  · exact answers_of rfl q w q.inFlight (orderAlertEnd_none hn)
  · exact alertEnd_answers q w .alertEnd (by exact rfl) hn (changeClaim_told _ hn (by rw [hl]; exact ha.symm))
  · intro route moved stop u t told hfree hroom
    obtain ⟨v, hv⟩ : ∃ v : State, v = { s with schedule.hostClaim := if on then some stop else none, schedule.active := on } :=
      ⟨_, rfl⟩
    have hmoved : movedTo 96 v = moved := by rw [hv]; rfl
    have ht : routedTo 96 v = t := by
      have hq : queuedTo 96 v = u := by
        rw [queuedTo, mappedTo_all _ (by rw [hv]; exact Nat.le_of_eq hs.lineup.1), routesTo, hmoved, hv]
        rfl
      rw [routedTo, hmoved, hq]
    have htime : t.time = s.time := by rw [← ht, (routedTo_keeps 96 v).1, hv]
    have hlink : t.link = s.link := by rw [← ht, (routedTo_keeps 96 v).2, hv]
    have htold : told = alertNotice (if on then .alertStart else .alertEnd) t := by
      unfold alertNotice
      rw [htime]
      cases on <;> rfl
    rw [← hmoved] at hfree hroom
    rw [htold, alertNotice_bytes]
    refine ⟨fun hon => ?_, fun hoff => ?_⟩
    · subst hon
      refine alertStart_answers q (.inr hrun) .alertStart (congrArg Link.inFlight hlink) ?_
      rw [← ht]
      exact changeClaim_run _ hs hrun hl (by rw [ha]; rfl) (by rw [hh, ha]) hv.symm hfree hroom
    · subst hoff
      refine alertEnd_answers q (.inr hrun) .alertEnd (congrArg Link.inFlight hlink) (Option.isSome_iff_ne_none.mp hh) ?_
      rw [← ht]
      exact changeClaim_run _ hs hrun hl (by rw [ha]; rfl) (by rw [hh, ha]) hv.symm hfree hroom

/-! ## The ALERT input (R37) -/

/-- The command that drives the ALERT input to a level. -/
theorem exec_alertInput {level : Bool} {s t : State} (h : alertInput level s = t) (hw : t.link.waiting = []) :
    exec (if level then .alertAssert else .alertDeassert) s = .next (kick t) := by
  have hx : exec (if level then .alertAssert else .alertDeassert) s = .next (finish (alertInput level s)) := by
    cases level <;> rfl
  rw [hx, h, finish_of_none hw]

/-- In STARTING, or where the line claim stands so already, the input alone changes. -/
theorem alertInput_still {level : Bool} {s : State} (h : s.link.op = .starting ∨ s.schedule.lineClaim = level) :
    alertInput level s = { s with schedule.alertInput := level } :=
  if_pos (by simpa using h)

/-- Outside STARTING the line claim follows the input. -/
theorem alertInput_changes {level : Bool} {s : State} (hop : s.link.op ≠ .starting) (hl : s.schedule.lineClaim ≠ level) :
    alertInput level s = changeClaim (if level then .lineAssert else .lineDeassert) s.schedule.hostClaim level
      { s with schedule.alertInput := level } :=
  if_neg (by simpa using ⟨hop, hl⟩)

/-- The number of the cause of a change of the line claim. -/
theorem alertCauseNum_line (level : Bool) :
    alertCauseNum (if level then .lineAssert else .lineDeassert) = if level then 3 else 4 := by cases level <;> rfl

/-- Settles O29: the input alone, the claim with the alert ACTIVE, and in LOADING the routes with the claim. -/
theorem alertInputMovesClaimAndRoutes : Obligations.AlertInputMovesClaimAndRoutes := by
  refine ⟨fun level s hw => ⟨fun h => exec_alertInput (alertInput_still h) hw, fun hop hl hh ha => ?_⟩,
    fun level s hs hw hop hh ha hl => ?_⟩
  · intro u
    have hsome : s.schedule.hostClaim.isSome = true := Option.isSome_iff_ne_none.mpr hh
    have hactive : (s.schedule.hostClaim.isSome || level) = s.schedule.active := by rw [hsome, ha, Bool.true_or]
    have hu : claimed s.schedule.hostClaim level { s with schedule.alertInput := level } = u :=
      claimed_of_active (by exact hactive)
    have hin : alertInput level s = alertNotice (if level then .lineAssert else .lineDeassert) u := by
      rw [alertInput_changes hop hl, changeClaim_still _ (by exact fun h => hl h.2) (by exact hactive), hu]
    rw [alertNotice, alertCauseNum_line] at hin
    exact exec_alertInput hin (by rw [notice_waiting]; exact hw)
  · intro moved u
    have hlevel : (s.schedule.hostClaim.isSome || level) = level := by rw [hh]; rfl
    have hmoves : (s.schedule.hostClaim.isSome || level) ≠ s.schedule.active := by
      rw [hlevel, ha]
      exact fun e => hl e.symm
    have hrun : running s = false := by simp [running, hop]
    have hmap : moved = rerouted level := funext fun c => if_congr eq_comm rfl rfl
    have hu : recomputeRoutes (claimed s.schedule.hostClaim level { s with schedule.alertInput := level }) = u := by
      rw [recomputeRoutes_quiet (by exact hs.lineup.1) (by exact hrun), claimed, hlevel, ← hmap]
    have hin : alertInput level s = alertNotice (if level then .lineAssert else .lineDeassert) u := by
      rw [alertInput_changes (by rw [hop]; decide) hl, changeClaim_moves _ (by exact fun h => hl h.2) (by exact hmoves), hu]
    rw [alertNotice, alertCauseNum_line] at hin
    exact exec_alertInput hin (by rw [notice_waiting]; exact hw)

end Sys2Proof.Safety
end

