-- ==== Proofs/GoLineup.lean ====
section
/-! PROOFS. What GO makes of the line-up (R16): its operations read and write the line-up alone, and the walk of the channels
queues a ROUTE and a LEVEL for each. -/

namespace Sys2Proof.Safety

open Sys2Proof.Machine

/-! ## Operations of the line-up alone -/

/-- The state that has of another the line-up and the operating state alone. -/
def lineupState (s : State) : State := { link := { op := s.link.op }, lineup := s.lineup }

/-- An operation reads the line-up and the operating state alone, and writes the line-up alone. -/
def LineupOnly (f : State → State) : Prop := ∀ s, f s = { s with lineup := (f (lineupState s)).lineup }

/-- Operations of the line-up alone, one after the other. -/
theorem LineupOnly.comp {f g : State → State} (hg : LineupOnly g) (hf : LineupOnly f) : LineupOnly (fun s => g (f s)) := by
  intro s
  have hkeep : lineupState (f s) = f (lineupState s) := by
    rw [hf s, hf (lineupState s)]
    rfl
  show g (f s) = _
  rw [hg (f s), hkeep, hf s]

/-- An operation of the line-up alone on a state whose line-up has been written. -/
theorem LineupOnly.written {g : State → State} (hg : LineupOnly g) (l : Lineup) (s : State) :
    g { s with lineup := l } = { s with lineup := (g { lineupState s with lineup := l }).lineup } := hg { s with lineup := l }

/-- A walk of operations of the line-up alone. -/
theorem lineupOnly_foldl {α : Type} {f : State → α → State} (h : ∀ x, LineupOnly (fun s => f s x)) :
    ∀ l : List α, LineupOnly (fun s => l.foldl f s)
  | [] => fun _ => rfl
  | x :: l => (lineupOnly_foldl h l).comp (h x)

/-- A choice by a condition on the line-up and the operating state. -/
theorem lineupOnly_ite {c : State → Prop} [∀ s, Decidable (c s)] {f g : State → State} (hc : ∀ s, c s ↔ c (lineupState s))
    (hf : LineupOnly f) (hg : LineupOnly g) : LineupOnly (fun s => if c s then f s else g s) := by
  intro s
  by_cases h : c s
  · simp only [if_pos h, if_pos ((hc s).mp h)]
    exact hf s
  · simp only [if_neg h, if_neg (fun k => h ((hc s).mpr k))]
    exact hg s

theorem lineRun_only_lineup : LineupOnly lineRun := by
  intro s
  rw [lineRun_eq, lineRun_eq (lineupState s)]
  rfl

theorem modChan_only_lineup (c : Nat) (f : Channel → Channel) : LineupOnly (modChan c f) := fun _ => rfl

theorem joinCommand_only_lineup (m : MatrixCmd) (d : Deferred) : LineupOnly (joinCommand m d) :=
  lineupOnly_ite (fun _ => Iff.rfl) (lineRun_only_lineup.comp (fun _ => rfl))
    (lineupOnly_ite (fun _ => Iff.rfl) (fun _ => rfl) (fun _ => rfl))

theorem issueStep_only_lineup (c : Nat) : LineupOnly (issueStep c) := by
  intro s
  have hr : rampOf (lineupState s) c = rampOf s c := rfl
  unfold issueStep
  rw [hr]
  cases rampOf s c with
  | none => rfl
  | some r => exact (joinCommand_only_lineup _ _).written _ s

theorem startRamp_only_lineup : LineupOnly startRamp := by
  intro s
  have hc : (running (lineupState s) && !(lineupState s).lineup.fault && decide ((lineupState s).lineup.ramps.length < 2))
      = (running s && !s.lineup.fault && decide (s.lineup.ramps.length < 2)) := rfl
  have hq : (lineupState s).lineup.rampQueue = s.lineup.rampQueue := rfl
  unfold startRamp
  rw [hc, hq]
  split
  · cases s.lineup.rampQueue with
    | nil => rfl
    | cons c q => exact (issueStep_only_lineup c).written _ s
  · rfl

theorem startRamps_only_lineup : LineupOnly startRamps := startRamp_only_lineup.comp startRamp_only_lineup

/-- What GO queues for one channel. -/
def goChannel (c : Nat) (s : State) : State :=
  joinCommand (.level c (chan s c).level false) ⟨c, true⟩
    (joinCommand (.route c (chan s c).route) ⟨c, false⟩ (modChan c (fun e => { e with applied := false }) s))

theorem goChannel_only_lineup (c : Nat) : LineupOnly (goChannel c) := fun s =>
  ((joinCommand_only_lineup (.level c (chan s c).level false) ⟨c, true⟩).comp
    ((joinCommand_only_lineup (.route c (chan s c).route) ⟨c, false⟩).comp (modChan_only_lineup c _))) s

/-- GO walks the channels from 1, and then starts the ramps that wait. -/
theorem goLineup_walk (s : State) : goLineup s = startRamps ((List.range 96).foldl (fun s i => goChannel (i + 1) s) s) := by
  unfold goLineup channels
  rw [List.foldl_map]
  rfl

/-- What GO makes of the line-up reads and writes the line-up alone. -/
theorem goLineup_only_lineup : LineupOnly goLineup := by
  intro s
  rw [goLineup_walk, goLineup_walk]
  exact startRamps_only_lineup.comp (lineupOnly_foldl (fun i => goChannel_only_lineup (i + 1)) (List.range 96)) s

/-! ## The commands that GO queues (R16) -/

/-- The commands of the first channels. -/
def goCommands (n : Nat) (s : State) : List MatrixCmd := (List.range n).flatMap
  (fun k => [.route (k + 1) (chan s (k + 1)).route, .level (k + 1) (chan s (k + 1)).level false])

/-- An entry with its applied flag cleared. -/
def unapplied (e : Channel) : Channel := { e with applied := false }

/-- The state with the commands of the first channels queued. -/
def goQueued (n : Nat) (s : State) : State :=
  { s with lineup.map := mappedTo unapplied n s.lineup.map, lineup.queue := s.lineup.queue ++ goCommands n s }

/-- The walk of the first channels. -/
def goWalked (n : Nat) (s : State) : State := if n = 0 then s else lineRun (goQueued n s)

/-- The commands of one channel more. -/
theorem goCommands_succ (n : Nat) (s : State) : goCommands (n + 1) s
    = goCommands n s ++ [.route (n + 1) (chan s (n + 1)).route, .level (n + 1) (chan s (n + 1)).level false] := by
  simp [goCommands, List.range_succ, List.flatMap_append]

/-- Two commands for each channel. -/
theorem goCommands_length (n : Nat) (s : State) : (goCommands n s).length = 2 * n := by
  induction n with
  | zero => rfl
  | succ n ih => rw [goCommands_succ, List.length_append, ih, List.length_cons, List.length_singleton]; omega

/-- The queue and the map after the walk of the first channels. -/
theorem goWalked_keeps (n : Nat) (s : State) : (goWalked n s).lineup.queue = s.lineup.queue ++ goCommands n s
    ∧ (goWalked n s).lineup.map = mappedTo unapplied n s.lineup.map := by
  unfold goWalked
  split
  · rename_i h
    subst h
    simp [goCommands, mappedTo]
  · rw [lineRun_eq]
    exact ⟨rfl, rfl⟩

/-- What the matrix line does leaves the queue and the map. -/
theorem lineRun_keeps (s : State) : (lineRun s).lineup.queue = s.lineup.queue ∧ (lineRun s).lineup.map = s.lineup.map := by
  rw [lineRun_eq]
  exact ⟨rfl, rfl⟩

/-- A command joins the walk. -/
theorem lineRun_goWalked {n : Nat} {s : State} (m : List Channel) (x : MatrixCmd) :
    lineRun { goWalked n s with lineup.map := m, lineup.queue := (goWalked n s).lineup.queue ++ [x] }
      = lineRun { s with lineup.map := m, lineup.queue := s.lineup.queue ++ goCommands n s ++ [x] } := by
  rw [(goWalked_keeps n s).1]
  unfold goWalked
  split
  · rfl
  · rename_i h
    have hne : (goQueued n s).lineup.queue ≠ [] := by
      refine List.ne_nil_of_length_pos ?_
      show 0 < (s.lineup.queue ++ goCommands n s).length
      rw [List.length_append, goCommands_length]
      omega
    exact lineRun_joined hne m x

/-- One channel of the walk. -/
theorem goChannel_goWalked {n : Nat} {s : State} (hl : s.lineup.map.length = 96) (hn : n < 96) (hq : s.lineup.queue = []) :
    goChannel (n + 1) (goWalked n s) = goWalked (n + 1) s := by
  obtain ⟨hqueue, hmap⟩ := goWalked_keeps n s
  have hlen : (goWalked n s).lineup.map.length = 96 := by rw [hmap, mappedTo_length, hl]
  have hc : chan (goWalked n s) (n + 1) = chan s (n + 1) := chan_mappedTo hmap
  have hget : s.lineup.map[n]? = some (chan s (n + 1)) := chan_eq hl (c := n + 1) (by omega) hn
  have hmod : modChan (n + 1) (fun e => { e with applied := false }) (goWalked n s)
      = { goWalked n s with lineup.map := mappedTo unapplied (n + 1) s.lineup.map } := by
    rw [modChan_eq hlen (by omega) hn, hc, mappedTo_succ unapplied hget, hmap]
    rfl
  have hroom : (goWalked n s).lineup.queue.length + 1 < 256 := by
    rw [hqueue, hq, List.nil_append, goCommands_length]
    omega
  obtain ⟨x, hx⟩ : ∃ x : State, x = { s with
      lineup.map := mappedTo unapplied (n + 1) s.lineup.map
      lineup.queue := s.lineup.queue ++ goCommands n s ++ [.route (n + 1) (chan s (n + 1)).route] } := ⟨_, rfl⟩
  have hfirst : joinCommand (.route (n + 1) (chan s (n + 1)).route) ⟨n + 1, false⟩
      { goWalked n s with lineup.map := mappedTo unapplied (n + 1) s.lineup.map } = lineRun x := by
    rw [hx, joinCommand_room (by exact Nat.lt_of_succ_lt hroom)]
    exact lineRun_goWalked ..
  obtain ⟨hxq, hxm⟩ := lineRun_keeps x
  have hxne : x.lineup.queue ≠ [] := by rw [hx]; simp
  have hxlen : (lineRun x).lineup.queue.length < 256 := by
    rw [hxq, hx]
    show (s.lineup.queue ++ goCommands n s ++ [_]).length < 256
    rw [List.length_append, ← hqueue]
    exact hroom
  have hsecond : joinCommand (.level (n + 1) (chan s (n + 1)).level false) ⟨n + 1, true⟩ (lineRun x)
      = lineRun { x with lineup.queue := x.lineup.queue ++ [.level (n + 1) (chan s (n + 1)).level false] } := by
    rw [joinCommand_room hxlen, hxq]
    exact (lineRun_joined hxne (lineRun x).lineup.map _).trans (by rw [hxm])
  unfold goChannel
  rw [hc, hmod, hfirst, hsecond, goWalked, if_neg (Nat.succ_ne_zero n), goQueued, goCommands_succ, hx]
  simp only [List.append_assoc, List.cons_append, List.nil_append]

/-- With an empty queue, no entry deferred and the line free of faults, GO queues 96 ROUTEs and 96 LEVELs and sends the head,
or starts the READY timer. -/
theorem goLineup_of_empty {s : State} (hl : s.lineup.map.length = 96) (hrun : s.link.op = .run) (hq : s.lineup.queue = [])
    (ht : s.lineup.inTransfer = false) (hf : s.lineup.fault = false) : goLineup s = startRamps { s with
      lineup.queue := goCommands 96 s
      lineup.map := s.lineup.map.map unapplied
      lineup.inTransfer := s.lineup.ready
      lineup.readyTimer := if s.lineup.ready then none else some (s.lineup.readyTimer.getD 500) } := by
  have walk (n : Nat) (hn : n ≤ 96) : (List.range n).foldl (fun s i => goChannel (i + 1) s) s = goWalked n s := by
    induction n with
    | zero => rfl
    | succ n ih =>
      rw [List.range_succ, List.foldl_append, ih (by omega), List.foldl_cons, List.foldl_nil, goChannel_goWalked hl hn hq]
  have hne : (goCommands 96 s).isEmpty = false := by
    rw [List.isEmpty_eq_false_iff]
    exact List.ne_nil_of_length_pos (by rw [goCommands_length]; omega)
  rw [goLineup_walk, walk 96 (Nat.le_refl _), goWalked, if_neg (by decide), goQueued, mappedTo_all _ (Nat.le_of_eq hl), hq,
    List.nil_append, lineRun_eq]
  simp only [running, hrun, ht, hf, hne]
  cases s.lineup.ready <;> rfl

end Sys2Proof.Safety
end

