-- ==== Proofs/GoRun.lean ====
section
/-! PROOFS. The forced refresh of every port (R60), and GO (R187, R188; O30). -/

namespace Sys2Proof.Safety

open Sys2Proof.Machine

/-! ## One forced refresh (R60) -/

/-- A port record after a forced refresh, given whether its park conditions hold. -/
def refreshedPort (parks : Bool) (r : Port) : Port :=
  if r.sync = .inSync ∨ r.sync = .dropped then
    if parks then { r with sync := .parked, cls := none, confirmed := none } else { r with sync := .pending, cls := some .refresh }
  else r

/-- A forced refresh puts the port into the REFRESH queue. -/
def RefreshJoins (s : State) (q : Nat × Nat) : Prop :=
  (∃ r, portOf s q = some r ∧ (r.sync = .inSync ∨ r.sync = .dropped)) ∧ parkHoldsAt s q.1 = false

/-- A port refreshed is neither IN_SYNC nor DROPPED. -/
theorem refreshedPort_sync (parks : Bool) (r : Port) :
    ¬ ((refreshedPort parks r).sync = .inSync ∨ (refreshedPort parks r).sync = .dropped) := by
  unfold refreshedPort
  split
  · split <;> simp
  · assumption

/-- A second forced refresh leaves a port as the first did. -/
theorem refreshedPort_again (parks again : Bool) (r : Port) :
    refreshedPort again (refreshedPort parks r) = refreshedPort parks r := if_neg (refreshedPort_sync parks r)

/-- What a forced refresh of a port does: the port as R60 gives it, and its place in the REFRESH queue. -/
theorem forceRefresh_does (p : Nat × Nat) (s : State) :
    (∀ i, parkHoldsAt (forceRefresh p s) i = parkHoldsAt s i)
    ∧ (∀ q, portOf (forceRefresh p s) q
        = if p = q then (portOf s p).map (refreshedPort (parkHoldsAt s p.1)) else portOf s q)
    ∧ ∃ taps tail, (forceRefresh p s) = { s with plant.taps := taps, plant.refresh := s.plant.refresh ++ tail }
      ∧ (RefreshJoins s p ∧ tail = [p] ∨ ¬ RefreshJoins s p ∧ tail = []) := by
  unfold forceRefresh
  split
  · rename_i hr
    refine ⟨fun _ => rfl, fun q => ?_, s.plant.taps, [], by simp, .inr ⟨?_, rfl⟩⟩
    · split
      · rename_i h
        rw [← h, hr]
        rfl
      · rfl
    · rintro ⟨⟨r, h, -⟩, -⟩
      rw [hr] at h
      cases h
  · rename_i r hr
    split
    · rename_i hs
      have hs : r.sync = .inSync ∨ r.sync = .dropped := by simpa using hs
      split
      · rename_i hp
        refine ⟨fun i => parkHoldsAt_modPort _ _ i _, fun q => ?_, _, [], by rw [List.append_nil]; rfl, .inr ⟨fun h => ?_, rfl⟩⟩
        · rw [portOf_modPort, hr, Option.map_some, Option.map_some, refreshedPort, if_pos hs, if_pos hp]
        · rw [h.2] at hp
          cases hp
      · rename_i hp
        unfold pend
        rw [if_neg hp]
        refine ⟨fun i => parkHoldsAt_modPort _ _ i _, fun q => ?_, _, [p], rfl, .inl ⟨⟨⟨r, hr, hs⟩, by simpa using hp⟩, rfl⟩⟩
        show portOf (modPort _ _ _) q = _
        rw [portOf_modPort, hr, Option.map_some, Option.map_some, refreshedPort, if_pos hs, if_neg hp]
    · rename_i hs
      have hs : ¬ (r.sync = .inSync ∨ r.sync = .dropped) := by simpa using hs
      refine ⟨fun _ => rfl, fun q => ?_, s.plant.taps, [], by simp, .inr ⟨?_, rfl⟩⟩
      · split
        · rename_i h
          rw [← h, hr, Option.map_some, refreshedPort, if_neg hs]
        · rfl
      · rintro ⟨⟨r', h, h'⟩, -⟩
        rw [hr] at h
        cases h
        exact hs h'

/-! ## The walk of the ports (R60) -/

/-- What the forced refresh of a list of ports makes of a state. -/
structure Refreshed (s : State) (l : List (Nat × Nat)) (t : State) : Prop where
  parks : ∀ i, parkHoldsAt t i = parkHoldsAt s i
  ports : ∀ q, portOf t q = (portOf s q).map (fun r => if q ∈ l then refreshedPort (parkHoldsAt s q.1) r else r)
  plant : ∃ taps tail, t = { s with plant.taps := taps, plant.refresh := s.plant.refresh ++ tail }
    ∧ tail.Sublist l ∧ tail.Nodup ∧ ∀ q, q ∈ tail ↔ RefreshJoins s q ∧ q ∈ l

/-- The forced refresh of no port. -/
theorem Refreshed.nil (s : State) : Refreshed s [] s where
  parks _ := rfl
  ports q := by simp
  plant := ⟨s.plant.taps, [], by simp, by simp, by simp, by simp⟩

/-- A port of a list refreshed joins no more, and one out of it joins as it would have. -/
theorem Refreshed.joins_iff {s t : State} {l : List (Nat × Nat)} (h : Refreshed s l t) (p : Nat × Nat) :
    RefreshJoins t p ↔ RefreshJoins s p ∧ p ∉ l := by
  unfold RefreshJoins
  rw [h.parks, h.ports]
  by_cases hp : p ∈ l
  · constructor
    · rintro ⟨⟨r, hr, hs⟩, -⟩
      obtain ⟨r', -, rfl⟩ := Option.map_eq_some_iff.mp hr
      rw [if_pos hp] at hs
      exact absurd hs (refreshedPort_sync _ _)
    · rintro ⟨-, hn⟩
      exact absurd hp hn
  · simp only [hp, if_false, Option.map_id', not_false_eq_true, and_true]

/-- One port more is refreshed. -/
theorem Refreshed.snoc {s t : State} {l : List (Nat × Nat)} (h : Refreshed s l t) (p : Nat × Nat) :
    Refreshed s (l ++ [p]) (forceRefresh p t) := by
  obtain ⟨hparks, hports, taps', tail', ht', hjoins⟩ := forceRefresh_does p t
  obtain ⟨taps, tail, ht, hsub, hnd, hmem⟩ := h.plant
  refine ⟨fun i => (hparks i).trans (h.parks i), fun q => ?_, taps', tail ++ tail', ?_, ?_⟩
  · rw [hports, h.parks, h.ports, h.ports]
    by_cases hpq : p = q
    · subst hpq
      rw [if_pos rfl, Option.map_map]
      congr 1
      funext r
      by_cases hl : p ∈ l
      · simp [hl, refreshedPort_again]
      · simp [hl]
    · rw [if_neg hpq]
      congr 1
      funext r
      simp [Ne.symm hpq]
  · rw [ht', ht]
    simp only [List.append_assoc]
  · rcases hjoins with ⟨hj, rfl⟩ | ⟨hj, rfl⟩
    · obtain ⟨hjs, hpl⟩ := (h.joins_iff p).mp hj
      have hpt : p ∉ tail := fun hin => hpl ((hmem p).mp hin).2
      refine ⟨hsub.append_right _, List.nodup_append.mpr ⟨hnd, by simp, ?_⟩, fun q => ?_⟩
      · simpa using fun a b hab => ne_of_mem_of_not_mem hab hpt
      · rw [List.mem_append, List.mem_append, hmem, List.mem_singleton]
        constructor
        · rintro (⟨h1, h2⟩ | rfl)
          · exact ⟨h1, .inl h2⟩
          · exact ⟨hjs, .inr rfl⟩
        · rintro ⟨h1, h2 | h2⟩
          · exact .inl ⟨h1, h2⟩
          · exact .inr h2
    · rw [List.append_nil]
      refine ⟨hsub.trans (List.sublist_append_left ..), hnd, fun q => ?_⟩
      rw [hmem, List.mem_append, List.mem_singleton]
      refine and_congr_right (fun hjs => ⟨.inl, fun h2 => h2.elim id (fun hqp => ?_)⟩)
      subst hqp
      by_contra hl
      exact hj ((h.joins_iff q).mpr ⟨hjs, hl⟩)

/-- The forced refresh of a list of ports. -/
theorem refreshed_foldl (s : State) (l : List (Nat × Nat)) : Refreshed s l (l.foldl (fun s p => forceRefresh p s) s) := by
  induction l using List.reverseRecOn with
  | nil => exact .nil s
  | append_singleton l p ih =>
    rw [List.foldl_append]
    exact ih.snoc p

/-- The forced refresh of every port of the taps given. -/
theorem refreshed_forceTaps (s : State) (taps : List Nat) : Refreshed s (portsOf taps) (forceTaps taps s) :=
  refreshed_foldl s (portsOf taps)

/-- A port of the tap indices given. -/
theorem mem_portsOf {taps : List Nat} {q : Nat × Nat} : q ∈ portsOf taps ↔ q.1 ∈ taps ∧ q.2 ≤ 3 := by
  obtain ⟨i, k⟩ := q
  simp only [portsOf, List.mem_flatMap, List.mem_cons, Prod.mk.injEq, List.not_mem_nil, or_false]
  constructor
  · rintro ⟨j, hj, h⟩
    have : i = j ∧ k ≤ 3 := by omega
    exact ⟨this.1 ▸ hj, this.2⟩
  · rintro ⟨hi, hk⟩
    exact ⟨i, hi, by omega⟩

/-- A port record that is read is one of a loaded tap. -/
theorem tap_of_portOf {s : State} {q : Nat × Nat} {r : Port} (h : portOf s q = some r) : q.1 ∈ tapIndices s := by
  refine tget_mem_keys _ _ (fun hn => ?_)
  unfold portOf at h
  rw [hn] at h
  cases h

/-- One tap index for each loaded tap. -/
theorem tapIndices_length (s : State) : (tapIndices s).length = s.plant.taps.length := List.length_map ..

/-- A forced refresh leaves the loaded taps' indices. -/
theorem forceTaps_taps (taps : List Nat) (s : State) : tapIndices (forceTaps taps s) = tapIndices s := by
  have one (p : Nat × Nat) (s : State) : tapIndices (forceRefresh p s) = tapIndices s := by
    unfold forceRefresh pend
    repeat' split
    all_goals first
      | rfl
      | exact tmod_keys ..
  unfold forceTaps
  generalize portsOf taps = l
  induction l generalizing s with
  | nil => rfl
  | cons p l ih => rw [List.foldl_cons, ih, one]

/-! ## What a forced refresh reads -/

/-- The state that has of another the plant records and the segments alone. -/
def plantState (s : State) : State := { plant := s.plant, telemetry := s.telemetry }

/-- A forced refresh reads and writes the plant records alone, but for the segments it reads. -/
theorem forceRefresh_only_plant (p : Nat × Nat) (s : State) :
    forceRefresh p s = { s with plant := (forceRefresh p (plantState s)).plant } := by
  have hport : portOf (plantState s) p = portOf s p := rfl
  have hpark : parkHoldsAt (plantState s) p.1 = parkHoldsAt s p.1 := rfl
  unfold forceRefresh pend
  rw [hport, hpark]
  split
  · rfl
  · repeat' split
    all_goals rfl

/-- The forced refresh of every port of the taps given reads and writes the plant records alone, but for the segments. -/
theorem forceTaps_only_plant (taps : List Nat) (s : State) :
    forceTaps taps s = { s with plant := (forceTaps taps (plantState s)).plant } := by
  unfold forceTaps
  generalize portsOf taps = l
  induction l generalizing s with
  | nil => rfl
  | cons p l ih =>
    have hkeep : plantState (forceRefresh p s) = forceRefresh p (plantState s) := by
      rw [forceRefresh_only_plant p s, forceRefresh_only_plant p (plantState s)]
      rfl
    rw [List.foldl_cons, List.foldl_cons, ih, hkeep, forceRefresh_only_plant p s]

/-! ## The checks of GO (R187) -/

/-- The first entry of a list that a search names. -/
theorem findSome?_first {α β : Type} {f : α → Option β} {l₁ l₂ : List α} {x : α} {y : β} (h₁ : ∀ a ∈ l₁, f a = none)
    (hx : f x = some y) : (l₁ ++ x :: l₂).findSome? f = some y := by
  rw [List.findSome?_append, List.findSome?_eq_none_iff.mpr h₁, List.findSome?_cons, hx]
  rfl

/-- A named head serves where it is a loaded, enabled transponder of the segment. -/
theorem headLegal_iff {s : State} {n h : Nat} :
    headLegal s n h = true ↔ ∃ x, tget s.telemetry.transponders h = some x ∧ x.enabled = true ∧ x.segment = n := by
  unfold headLegal xpOf
  rw [Option.any_eq_true]
  simp only [Bool.and_eq_true, decide_eq_true_eq]

/-- A segment's named head, if it names one, serves (R187). -/
def HeadServes (s : State) (g : Nat × Segment) : Prop :=
  ∀ h, g.2.head = some h → ∃ x, tget s.telemetry.transponders h = some x ∧ x.enabled = true ∧ x.segment = g.1

/-- A segment whose named head serves is passed over by the second check. -/
theorem headServes_passed {s : State} {g : Nat × Segment} (h : HeadServes s g) :
    (g.2.head.bind (fun h => if headLegal s g.1 h then none else some (u8 g.1 ++ u8 h))) = none := by
  cases hg : g.2.head with
  | none => rfl
  | some x => exact if_pos (headLegal_iff.mpr (h x hg))

/-- The first segment whose chain fails, with its failure. -/
theorem goChain_first {s : State} {l₁ l₂ : List (Nat × Segment)} {g : Nat × Segment} {f : ChainFault}
    (he : s.telemetry.segments = l₁ ++ g :: l₂) (hgood : ∀ x ∈ l₁, chainBad s.telemetry.segments x.1 = none)
    (hbad : chainBad s.telemetry.segments g.1 = some f) :
    goChain s = some (u8 g.1 ++ u8 (if f = .cycle then 0 else 1)) := by
  unfold goChain
  refine (congrArg (List.findSome? _) he).trans (findSome?_first (fun x hx => ?_) ?_)
  · rw [hgood x hx]
    rfl
  · rw [hbad]
    cases f <;> rfl

/-- The first segment whose named head does not serve, with the head. -/
theorem goHead_first {s : State} {l₁ l₂ : List (Nat × Segment)} {g : Nat × Segment} {h : Nat}
    (he : s.telemetry.segments = l₁ ++ g :: l₂) (hserve : ∀ x ∈ l₁, HeadServes s x) (hh : g.2.head = some h)
    (hn : ¬ HeadServes s g) : goHead s = some (u8 g.1 ++ u8 h) := by
  unfold goHead
  refine (congrArg (List.findSome? _) he).trans (findSome?_first (fun x hx => headServes_passed (hserve x hx)) ?_)
  have hill : headLegal s g.1 h ≠ true := fun hl => hn (fun h' he' => by
    rw [hh] at he'
    cases he'
    exact headLegal_iff.mp hl)
  rw [hh]
  exact if_neg hill

/-- Every chain is sound. -/
theorem goChain_none {s : State} (h : ∀ x ∈ s.telemetry.segments, chainBad s.telemetry.segments x.1 = none) :
    goChain s = none :=
  List.findSome?_eq_none_iff.mpr (fun x hx => by rw [h x hx]; rfl)

section
variable {tag : Byte} {s : State} (q : Quiet s) (w : s.link.op = .loading)
include q w

/-- GO refused for an item. -/
theorem go_refused_item {item : List Byte} (h : (goChain s).or (goHead s) = some item) :
    Answers (.go tag) s s tag .go .badArg item := by
  refine answers_of rfl q (.inl w) q.inFlight ?_
  show orderGo _ = _
  unfold orderGo
  rw [show running (taken tag .go s) = false by simp [running, taken, w],
    show (goChain (taken tag .go s)).or (goHead (taken tag .go s)) = some item from h]
  rfl

/-- GO refused for want of a bank. -/
theorem go_refused_opening {code : StatusCode} (h : (goChain s).or (goHead s) = none) (ho : goOpening s = .error code) :
    Answers (.go tag) s s tag .go code [] := by
  refine answers_of rfl q (.inl w) q.inFlight ?_
  show orderGo _ = _
  unfold orderGo
  rw [show running (taken tag .go s) = false by simp [running, taken, w],
    show (goChain (taken tag .go s)).or (goHead (taken tag .go s)) = none from h,
    show goOpening (taken tag .go s) = .error code from ho]
  rfl

end

/-! ## An accepted GO (R188) -/

/-- The state in RUN, with the line-up's commands queued and every port forcibly refreshed. -/
def goEntered (s : State) : State :=
  { s with
    link.op := .run
    lineup := (goLineup { s with link.op := .run }).lineup
    plant := { (forceTaps (tapIndices s) s).plant with line := .idle } }

/-- The line-up after GO. -/
theorem goEntered_lineup (s : State) : (goEntered s).lineup = (goLineup { s with link.op := .run }).lineup := by
  unfold goEntered
  dsimp only

/-- The plant line after GO. -/
theorem goEntered_plant (s : State) : (goEntered s).plant = { (forceTaps (tapIndices s) s).plant with line := .idle } := by
  unfold goEntered
  dsimp only

/-- An accepted GO opens its period, if one is to be opened, and enters RUN. -/
theorem goRun_eq (i : BankId) (opens : Bool) (s : State) : goRun i opens s
    = goEntered (if opens then { openPeriod i (minuteOf s) s with store.minute := minuteOf s } else s) := by
  unfold goRun goEntered
  generalize (if opens then { openPeriod i (minuteOf s) s with store.minute := minuteOf s } else s) = u
  dsimp only
  have hl := goLineup_only_lineup { u with link.op := .run }
  generalize (goLineup (lineupState { u with link.op := .run })).lineup = l at hl
  have hp := forceTaps_only_plant (tapIndices u) { u with link.op := .run, lineup := l }
  have hs := congrArg State.plant (forceTaps_only_plant (tapIndices u) u)
  rw [hl, hs]
  exact congrArg (fun v : State => { v with plant.line := .idle }) hp

/-- What GO makes of the line-up and the plant line does not depend on the store, nor on the order taken. -/
theorem goEntered_eq {s u : State} (hl : u.lineup = s.lineup) (hp : u.plant = s.plant) (ht : u.telemetry = s.telemetry) :
    goEntered u = { u with link.op := .run, lineup := (goEntered s).lineup, plant := (goEntered s).plant } := by
  have hstate : lineupState { u with link.op := .run } = lineupState { s with link.op := .run } := by
    unfold lineupState
    rw [hl]
  have hplant : plantState u = plantState s := by
    unfold plantState
    rw [hp, ht]
  have hi : tapIndices u = tapIndices s := by
    unfold tapIndices
    rw [hp]
  have e₁ : (goLineup { u with link.op := .run }).lineup = (goLineup { s with link.op := .run }).lineup := by
    rw [goLineup_only_lineup { u with link.op := .run }, goLineup_only_lineup { s with link.op := .run }, hstate]
  have e₂ : (forceTaps (tapIndices u) u).plant = (forceTaps (tapIndices s) s).plant := by
    rw [forceTaps_only_plant _ u, forceTaps_only_plant _ s, hplant, hi]
  unfold goEntered
  rw [e₁, e₂]

/-- GO is accepted: every check passed, and the bank to report known. -/
theorem go_runs {tag : Byte} {s u : State} (q : Quiet s) (w : s.link.op = .loading) (h : (goChain s).or (goHead s) = none)
    {i : BankId} {n : Nat} {opens : Bool} (ho : goOpening s = .ok (i, n, opens))
    (hu : (if opens then { openPeriod i (minuteOf s) s with store.minute := minuteOf s } else s) = u)
    (hl : u.lineup = s.lineup) (hp : u.plant = s.plant) (ht : u.telemetry = s.telemetry) (hf : u.link = s.link) {l : Lineup}
    {p : Plant} (el : (goEntered s).lineup = l) (ep : (goEntered s).plant = p) :
    Answers (.go tag) s { u with link.op := .run, lineup := l, plant := p } tag .go .ok
      (u8 (bankNum i) ++ u16 n ++ flag opens ++ u16 (4 * s.plant.taps.length)) := by
  have htaken : (if opens then { openPeriod i (minuteOf s) (taken tag .go s) with store.minute := minuteOf s }
      else taken tag .go s) = taken tag .go u := by
    rw [← hu]
    cases opens <;> rfl
  have hrun : goRun i opens (taken tag .go s)
      = taken tag .go { u with link.op := .run, lineup := l, plant := p } := by
    have he := goEntered_eq (u := taken tag .go u) hl hp ht
    rw [el, ep] at he
    exact (goRun_eq i opens (taken tag .go s)).trans ((congrArg goEntered htaken).trans he)
  have htaps : (tapIndices (goRun i opens (taken tag .go s))).length = s.plant.taps.length := by
    rw [hrun, ← tapIndices_length s]
    have hkeys := congrArg List.length (forceTaps_taps (tapIndices s) s)
    rw [goEntered_plant] at ep
    rw [← ep]
    exact hkeys
  refine answers_of rfl q (.inl w) (by exact (congrArg Link.inFlight hf).trans q.inFlight) ?_
  show orderGo _ = _
  unfold orderGo
  rw [show running (taken tag .go s) = false by simp [running, taken, w],
    show (goChain (taken tag .go s)).or (goHead (taken tag .go s)) = none from h,
    show goOpening (taken tag .go s) = .ok (i, n, opens) from ho]
  dsimp only
  rw [htaps, hrun]
  rfl

/-- The bank in which a period is opened: A first (R147). -/
theorem goBank_eq {s : State} {i : BankId} (hf : (bank s i).state = .free) (hb : i = .b → s.store.a.state ≠ .free) :
    goBank s = some i := by
  unfold goBank
  cases i with
  | a => exact if_pos hf
  | b => exact (if_neg (hb rfl)).trans (if_pos hf)

/-- The opening of a period: three header fields join the append queue (R147). -/
theorem openPeriod_eq (i : BankId) (m : Nat) (s : State) : openPeriod i m s = { s with
    store.queue := s.store.queue ++ [.header i (.sequence (openingSequence s i)), .header i (.openMinute m), .header i .opened]
    store.path := if s.store.path = .idle then .append else s.store.path } := by
  unfold openPeriod joinItem
  simp only [List.append_assoc, List.cons_append, List.nil_append]
  cases s.store.path <;> rfl

/-- The sequence of an opening by the state of the other bank (R147). -/
theorem openingSequence_eq (s : State) (i : BankId) : openingSequence s i
    = if (bank s (otherBank i)).state = .free ∨ (bank s (otherBank i)).state = .erasing then 1
      else (seqOf (bank s (otherBank i)) + 1) % 65536 := by
  unfold openingSequence
  simp only [Bool.or_eq_true, decide_eq_true_eq]

/-- The opening of GO where no bank is OPEN and the store has no fault. -/
theorem goOpening_opens {s : State} (ho : openBank s = none) (hf : s.store.fault = false) {i : BankId} (hb : goBank s = some i) :
    goOpening s = .ok (i, openingSequence s i, true) := by
  unfold goOpening
  rw [ho, hf, hb]
  rfl

/-- Settles O30: the checks in their order, the opening by the banks, then what the walk of the channels and the walk of the
ports make of the line-up and the plant line. -/
theorem goEntersRun : Obligations.GoEntersRun := by
  intro tag s q w segs legal queued l p joins runs
  have hpass : (∀ x ∈ segs, chainBad segs x.1 = none ∧ legal x) → (goChain s).or (goHead s) = none := fun h => by
    rw [goChain_none (fun x hx => (h x hx).1), Option.none_or]
    exact List.findSome?_eq_none_iff.mpr (fun x hx => headServes_passed (h x hx).2)
  have hwalk := refreshed_forceTaps s (tapIndices s)
  have el : (goEntered s).lineup = l := goEntered_lineup s
  have ep : (goEntered s).plant = p := goEntered_plant s
  refine ⟨fun l₁ g l₂ f he hgood hbad => go_refused_item q w ?_, fun l₁ g l₂ h he hgood hlegal hh hn => go_refused_item q w ?_,
    fun hall => ⟨fun i ho => ?_, fun ho hf => ?_, fun ho hf ha hb => ?_, fun i ho hf hi hb => ?_⟩,
    fun hs hq hd ht hf => ?_, fun k r hk hr => ?_, ?_, ?_⟩
  · rw [goChain_first he hgood hbad]
    rfl
  · rw [goChain_none hgood, Option.none_or]
    exact goHead_first he hlegal hh hn
  · have hopen : goOpening s = .ok (i, seqOf (bank s i), false) := by
      unfold goOpening
      rw [ho]
    exact go_runs q w (hpass hall) hopen rfl rfl rfl rfl rfl el ep
  · refine go_refused_opening q w (hpass hall) ?_
    unfold goOpening
    rw [ho, hf]
    rfl
  · refine go_refused_opening q w (hpass hall) ?_
    unfold goOpening goBank
    rw [ho, hf, if_neg ha, if_neg hb]
    rfl
  · intro other n
    have hopened : { openPeriod i (minuteOf s) s with store.minute := minuteOf s } = { s with
        store.minute := minuteOf s
        store.queue := s.store.queue ++ [.header i (.sequence n), .header i (.openMinute (minuteOf s)), .header i .opened]
        store.path := if s.store.path = .idle then .append else s.store.path } := by
      rw [openPeriod_eq, openingSequence_eq]
    have hopen : goOpening s = .ok (i, n, true) := by
      rw [goOpening_opens ho hf (goBank_eq hi hb), openingSequence_eq]
    exact go_runs q w (hpass hall) hopen hopened rfl rfl rfl rfl el ep
  · have hline := goLineup_of_empty (s := { s with link.op := .run }) hs.lineup.1 rfl hq ht hf
    exact ⟨congrArg State.lineup hline,
      fun hr => (congrArg State.lineup hline).trans (congrArg State.lineup (startRamps_nil (by exact hr)))⟩
  · have hin : k ∈ portsOf (tapIndices s) := mem_portsOf.mpr ⟨tap_of_portOf hr, hk⟩
    have hport := hwalk.ports k
    rw [hr, Option.map_some, if_pos hin] at hport
    exact hport
  · obtain ⟨taps, tail, e, -⟩ := hwalk.plant
    have hp : (forceTaps (tapIndices s) s).plant = { s.plant with taps := taps, refresh := s.plant.refresh ++ tail } := by rw [e]
    show ({ (forceTaps (tapIndices s) s).plant with line := .idle } : Plant) = { s.plant with
      taps := (forceTaps (tapIndices s) s).plant.taps, line := .idle, refresh := (forceTaps (tapIndices s) s).plant.refresh }
    rw [hp]
  · obtain ⟨taps, tail, e, hsub, hnd, hmem⟩ := hwalk.plant
    refine ⟨tail, ?_, hsub, hnd, fun k => ?_⟩
    · show (forceTaps (tapIndices s) s).plant.refresh = _
      rw [e]
    · rw [hmem, mem_portsOf]
      refine and_congr_right (fun hj => and_iff_right ?_)
      obtain ⟨⟨r, hr, -⟩, -⟩ := hj
      exact tap_of_portOf hr

end Sys2Proof.Safety
end

