-- ==== Proofs/StoreRecords.lean ====
section
/-! PROOFS. How items and records join the append queue (R150, R151, R152), and what is left of the link by it. -/

namespace Sys2Proof.Safety

open Sys2Proof.Machine

/-! ## The free slots of the journal (R151) -/

/-- The items behind an OPENED programming, with one more item at the tail. -/
theorem behindOpened_snoc {x : StoreItem} (hx : isOpened x = false) (l : List StoreItem) :
    behindOpened (l ++ [x]) = (behindOpened l).map (· ++ [x]) := by
  unfold behindOpened
  by_cases h : l.any isOpened = true
  · have hne : l.dropWhile (fun i => !isOpened i) ≠ [] := by
      obtain ⟨y, hy, hyo⟩ := List.any_eq_true.mp h
      intro hnil
      have := List.dropWhile_eq_nil_iff.mp hnil y hy
      rw [hyo] at this
      cases this
    obtain ⟨y, l', hl'⟩ := List.exists_cons_of_ne_nil hne
    rw [List.any_append, h, Bool.true_or, if_pos rfl, if_pos rfl, List.dropWhile_append, hl']
    rfl
  · rw [Bool.not_eq_true] at h
    rw [List.any_append, h, Bool.false_or, List.any_cons, hx, List.any_nil, Bool.or_false]
    rfl

/-- An item that joins claims one slot where it is a record, and none else where it opens no bank. -/
theorem freeSlots_snoc {s t : State} {x : StoreItem} (hx : isOpened x = false) (ha : t.store.a = s.store.a)
    (hb : t.store.b = s.store.b) (hq : t.store.queue = s.store.queue ++ [x]) :
    freeSlots t = freeSlots s - if isRecord x then 1 else 0 := by
  have hopen : openBank t = openBank s := by
    unfold openBank bankIn
    rw [ha, hb]
  have hbank (i : BankId) : bank t i = bank s i := by
    cases i with
    | a => exact ha
    | b => exact hb
  have hcount (l : List StoreItem) :
      ((l ++ [x]).filter isRecord).length = (l.filter isRecord).length + if isRecord x then 1 else 0 := by
    rw [List.filter_append, List.length_append]
    cases h : isRecord x <;> simp [h]
  unfold freeSlots
  rw [hq, behindOpened_snoc hx, hopen]
  cases behindOpened s.store.queue with
  | some l =>
    simp only [Option.map_some, hcount]
    omega
  | none =>
    cases openBank s with
    | none => exact (Nat.zero_sub _).symm
    | some i =>
      simp only [Option.map_none, hcount, hbank]
      omega

/-- A record that joins claims one slot. -/
theorem freeSlots_record {s t : State} {body : List Byte} {o : Origin} (ha : t.store.a = s.store.a) (hb : t.store.b = s.store.b)
    (hq : t.store.queue = s.store.queue ++ [.record body o]) : freeSlots t = freeSlots s - 1 :=
  freeSlots_snoc rfl ha hb hq

/-! ## A record joins (R150, R152) -/

/-- The state with a record joined to the append queue, at the minute that stands. -/
def recordJoined (body : List Byte) (o : Origin) (s : State) : State :=
  { s with
    store.minute := minuteOf s
    store.queue := s.store.queue ++ [.record body o]
    store.path := if s.store.path = .idle then .append else s.store.path }

/-- Where more than 256 slots stay free no JOURNAL_LOW is due. -/
theorem lowCheck_room {s : State} (h : 256 < freeSlots s) : lowCheck s = s := by
  unfold lowCheck
  split
  · rw [if_neg]
    simp only [Bool.and_eq_true, decide_eq_true_eq, not_and]
    omega
  · rfl

/-- A record joins a journal with room. -/
theorem joinRecord_room {s : State} (h : 257 < freeSlots s) (body : List Byte) (o : Origin) :
    joinRecord body o s = recordJoined body o s := by
  have hfree : freeSlots (recordJoined body o s) = freeSlots s - 1 := freeSlots_record rfl rfl rfl
  exact lowCheck_room (s := recordJoined body o s) (by omega)

/-- A record of the controller's own joins a journal with room. -/
theorem appendAuto_room {s : State} (hf : s.store.fault = false) (h : 257 < freeSlots s) (kind : Nat) (fields : List Byte) (o : Origin) :
    appendAuto kind fields o s = (recordJoined (recordBody kind (minuteOf s) fields) o s, true) := by
  unfold appendAuto
  rw [hf, if_neg (by decide), if_neg (by omega), joinRecord_room h]

/-- A record of the controller's own is lost for a store with a fault. -/
theorem appendAuto_fault {s : State} (hf : s.store.fault = true) (kind : Nat) (fields : List Byte) (o : Origin) :
    appendAuto kind fields o s = (s, false) := by
  unfold appendAuto
  rw [if_pos hf]

/-- The bytes of a record whose fields leave n bytes erased (12.5). -/
theorem recordBody_eq {fields : List Byte} {n : Nat} (h : fields.length + n = 26) (kind minute : Nat) :
    recordBody kind minute fields = u8 kind ++ u32 minute ++ fields ++ absent n := by
  have hn : 31 - (u8 kind ++ u32 minute ++ fields).length = n := by
    simp only [u8, u32, List.length_append, be_length]
    omega
  unfold recordBody absent
  dsimp only
  rw [hn]
  rfl

/-- Two items that join one after the other. -/
theorem joinItem_joinItem (i j : StoreItem) (s : State) : joinItem j (joinItem i s) = { s with
    store.queue := s.store.queue ++ [i, j]
    store.path := if s.store.path = .idle then .append else s.store.path } := by
  unfold joinItem
  simp only [List.append_assoc, List.cons_append, List.nil_append]
  cases s.store.path <;> rfl

/-! ## What the store leaves of the link -/

/-- A check for JOURNAL_LOW leaves the orders that wait. -/
theorem lowCheck_waiting (s : State) : (lowCheck s).link.waiting = s.link.waiting := by
  unfold lowCheck
  split
  · split
    · exact notice_waiting ..
    · rfl
  · rfl

/-- A record handed to the store leaves the orders that wait. -/
theorem appendAuto_waiting (kind : Nat) (fields : List Byte) (o : Origin) (s : State) :
    (appendAuto kind fields o s).1.link.waiting = s.link.waiting := by
  unfold appendAuto
  split
  · rfl
  · split
    · unfold loseRecord
      rw [notice_waiting]
      split
      · rfl
      · split <;> rfl
    · exact lowCheck_waiting _

end Sys2Proof.Safety
end

