-- ==== Proofs/MinuteBoundary.lean ====
section
/-! PROOFS. The minute boundary and its five takers (R183; O31). -/

namespace Sys2Proof.Safety

open Sys2Proof.Machine

/-! ## The order of the takers (R183) -/

/-- An arrangement of a list has its members, each as often as the list. -/
theorem arrange_perm {α : Type} : ∀ (n k : Nat) (l : List α), (arrange n k l).Perm l
  | 0, _, _ => .refl _
  | _ + 1, _, [] => .refl _
  | n + 1, k, a :: t => by
    unfold arrange
    split
    · exact .refl _
    · rename_i x hx
      obtain ⟨hi, rfl⟩ := List.getElem?_eq_some_iff.mp hx
      exact ((arrange_perm n _ _).cons _).trans (List.getElem_cons_eraseIdx_perm hi)

/-! ## What the takers leave of the link -/

/-- An applied entry leaves the link. -/
theorem applyHead_link (s : State) : (applyHead s).link = s.link := by
  unfold applyHead
  split
  · rfl
  · exact (applyChange_line ..).link

/-- The due entries leave the orders that wait. -/
theorem applyDue_waiting (n : Nat) (s : State) : (applyDue n s).link.waiting = s.link.waiting := by
  induction n generalizing s with
  | zero => rfl
  | succ n ih =>
    unfold applyDue
    split
    · rfl
    · split
      · rfl
      · split
        · exact notice_waiting ..
        · rw [ih, applyHead_link]

/-- A moved event leaves the link. -/
theorem moveEvent_link (e : Nat) (v : Event) (new : EventState) (s : State) : (moveEvent e v new s).link = s.link := by
  unfold moveEvent
  dsimp only
  split
  · exact (changeClass_line ..).link
  · split
    · exact (changeClass_line ..).link
    · rfl

/-- An event at a boundary leaves the orders that wait. -/
theorem eventBoundaryOne_waiting (s : State) (e : Nat) : (eventBoundaryOne s e).link.waiting = s.link.waiting := by
  unfold eventBoundaryOne
  split
  · rfl
  · dsimp only
    split
    · rfl
    · unfold eventNotice
      rw [notice_waiting, moveEvent_link]

/-- A change of a claim leaves the orders that wait. -/
theorem changeClaim_waiting (cause : AlertCause) (host : Option ClaimEnd) (line : Bool) (s : State) :
    (changeClaim cause host line s).link.waiting = s.link.waiting := by
  have hr (t : State) (h : t.link = s.link) :
      (if (host.isSome || line) = s.schedule.active then t else recomputeRoutes t).link.waiting = s.link.waiting := by
    split
    · rw [h]
    · rw [(recomputeRoutes_line t).link, h]
  unfold changeClaim
  dsimp only
  split
  · exact hr _ rfl
  · rw [notice_waiting]
    exact hr _ rfl

/-- A close leaves the orders that wait. -/
theorem beginClose_waiting (i : BankId) (c : Nat) (s : State) : (beginClose i c s).link.waiting = s.link.waiting := by
  have records (l : List Outage) (o : Nat) (s : State) :
      (l.foldl (fun s r => (appendAuto rkOutage (portionFields s o c r) .other s).1) s).link.waiting = s.link.waiting := by
    induction l generalizing s with
    | nil => rfl
    | cons r l ih => rw [List.foldl_cons, ih, appendAuto_waiting]
  unfold beginClose
  dsimp only
  rw [openPeriod_eq]
  exact (appendAuto_waiting ..).trans (records ..)

/-- Each of the five takers leaves the orders that wait. -/
theorem taker_waiting {jump : Bool} {f : State → State} (hf : f ∈ takers jump) (s : State) :
    (f s).link.waiting = s.link.waiting := by
  simp only [takers, List.mem_cons, List.not_mem_nil, or_false] at hf
  rcases hf with rfl | rfl | rfl | rfl | rfl
  · unfold scheduleBoundary
    split
    · rfl
    · exact applyDue_waiting ..
  · unfold eventBoundary
    generalize List.range 16 = l
    induction l generalizing s with
    | nil => rfl
    | cons e l ih => rw [List.foldl_cons, ih, eventBoundaryOne_waiting]
  · unfold claimBoundary
    split
    · split
      · exact changeClaim_waiting ..
      · rfl
    · rfl
  · unfold markBoundary
    split
    · exact appendAuto_waiting ..
    · rfl
  · unfold limitBoundary
    split
    · rfl
    · dsimp only
      split
      · rfl
      · split
        · exact beginClose_waiting ..
        · exact notice_waiting ..

/-- A minute boundary leaves the orders that wait. -/
theorem boundary_waiting (jump : Bool) (s : State) : (boundary jump s).link.waiting = s.link.waiting := by
  have fold (l : List (State → State)) (hl : ∀ f ∈ l, f ∈ takers jump) (s : State) :
      (l.foldl (fun s f => f s) s).link.waiting = s.link.waiting := by
    induction l generalizing s with
    | nil => rfl
    | cons f l ih =>
      rw [List.foldl_cons, ih (fun g hg => hl g (List.mem_cons_of_mem _ hg)), taker_waiting (hl f List.mem_cons_self)]
  unfold boundary
  rw [(handOff_line _).link]
  exact fold _ (fun f hf => (arrange_perm ..).subset hf) _

/-! ## The second and the minute (R183) -/

/-- The two commands of the clock. -/
theorem exec_clock {i : Instr} (hi : i ∈ [Instr.secondTick, .minuteBoundary]) {s t : State} (hw : t.link.waiting = [])
    (hs : tickSecond s = t) (hm : tickMinute s = t) : exec i s = .next (kick t) := by
  have hf : finish t = kick t := finish_of_none hw
  rcases List.mem_cons.mp hi with rfl | hi
  · show Host.Outcome.next (finish (tickSecond s)) = _
    rw [hs, hf]
  · rw [List.mem_singleton.mp hi]
    show Host.Outcome.next (finish (tickMinute s)) = _
    rw [hm, hf]

/-- A clock that passes a minute. -/
theorem exec_passMinute {s t : State} {m n : Nat} (hw : t.link.waiting = []) (hc : s.time.clock = some (m, n)) (hn : 59 ≤ n)
    (ht : passMinute m s = t) : ∀ i ∈ [Instr.secondTick, .minuteBoundary], exec i s = .next (kick t) := by
  have hlt : ¬ n < 59 := by omega
  refine fun i hi => exec_clock hi hw ?_ ?_
  · unfold tickSecond
    rw [hc]
    dsimp only
    rw [if_neg hlt, ht]
  · unfold tickMinute
    rw [hc]
    dsimp only
    rw [if_neg hlt, ht]

/-- The takers of a boundary in the order in which they take it. -/
def takersOrder (jump : Bool) (s : State) : List (State → State) := arrange 5 (Config.boundaryOrder s.freeCount) (takers jump)

/-- Each of the five takers takes the boundary once. -/
theorem takersOrder_perm (jump : Bool) (s : State) : (takersOrder jump s).Perm (takers jump) := arrange_perm ..

/-- A boundary is taken by each of the takers, and then the changed channels are handed on. -/
theorem boundary_eq (jump : Bool) (s : State) : boundary jump s
    = handOff ((takersOrder jump s).foldl (fun t take => take t) { s with freeCount := s.freeCount + 1 }) := rfl

/-! ## The schedule and the host claim (R27, R28, R36) -/

/-- With no head due the schedule leaves the state. -/
theorem scheduleBoundary_not_due {s : State} {e : Entry} {es : List Entry} (he : s.schedule.entries = e :: es)
    (hd : minuteOf s < e.due) : scheduleBoundary s = s := by
  have hdue : isDue s e = false := decide_eq_false (by omega)
  unfold scheduleBoundary
  split
  · rfl
  · rw [he, List.length_cons, applyDue, he]
    dsimp only
    rw [hdue]
    rfl

/-- With step mode off the schedule takes the boundary at its due head. -/
theorem scheduleBoundary_due {s : State} {e : Entry} {es : List Entry} (hm : s.schedule.stepMode = false)
    (he : s.schedule.entries = e :: es) (hd : e.due ≤ minuteOf s) : scheduleBoundary s
      = if e.halt then haltNotice e { s with schedule.stepMode := true } else applyDue es.length (entryApplied s e) := by
  have hdue : isDue s e = true := decide_eq_true hd
  unfold scheduleBoundary
  rw [hm, if_neg (by decide), ← applyHead_cons he, he, List.length_cons, applyDue, he]
  dsimp only
  rw [hdue]
  rfl

/-- The host claim stands before its end. -/
theorem claimBoundary_before {s : State} {m : Nat} (h : s.schedule.hostClaim = some (.at m)) (hm : minuteOf s < m) :
    claimBoundary s = s := by
  unfold claimBoundary
  rw [h]
  exact if_neg (by omega)

/-- The host claim lapses at its end; with the line claim held the alert stays ACTIVE. -/
theorem claimBoundary_lapses {s : State} {m : Nat} (h : s.schedule.hostClaim = some (.at m)) (hm : m ≤ minuteOf s)
    (hl : s.schedule.lineClaim = true) (ha : s.schedule.active = true) :
    claimBoundary s = alertNotice .hostLapse { s with schedule.hostClaim := none } := by
  have hactive : ((none : Option ClaimEnd).isSome || s.schedule.lineClaim) = s.schedule.active := by rw [hl, ha]; rfl
  have hne : ¬ (s.schedule.hostClaim = none ∧ s.schedule.lineClaim = s.schedule.lineClaim) := by rw [h]; simp
  unfold claimBoundary
  rw [h]
  dsimp only
  rw [if_pos hm, changeClaim_still _ hne hactive, claimed_of_active hactive]

/-! ## The MARK record (R153) -/

/-- The state with a MARK record joined to the append queue. -/
def markJoined (s : State) : State := recordJoined (u8 5 ++ u32 (minuteOf s) ++ absent 26) .other s

/-- The MARK of a boundary, by whether the boundary calls for one. -/
theorem markBoundary_eq (jump : Bool) (s : State) : markBoundary jump s
    = if (jump && running s) || (working s && minuteOf s % 60 = 0 && ((openBank s).isSome || s.engine.state = .sequence)) then
        (appendAuto rkMark [] .other s).1 else s := rfl

/-- A MARK record joins a journal with room. -/
theorem append_mark {s : State} (hf : s.store.fault = false) (h : 257 < freeSlots s) :
    (appendAuto rkMark [] .other s).1 = markJoined s := by
  rw [appendAuto_room hf h, recordBody_eq (n := 26) (by rfl), List.append_nil]
  rfl

/-! ## The events (R133, R136, R137) -/

/-- An event moves to the state that its minutes give where that is later. -/
def movesOn (v : Event) (new : EventState) : Bool :=
  match v.state, new with
  | .defined, .onSale => true | .defined, .showing => true | .defined, .ended => true
  | .onSale, .showing => true | .onSale, .ended => true | .showing, .ended => true
  | _, _ => false

/-- The state that an event's minutes give is none other. -/
theorem stateGiven_cases (v : Event) (m : Nat) : stateGiven v m ≠ .cancelled := by
  unfold stateGiven
  repeat' split
  all_goals decide

/-- An event moves at a boundary where its minutes give a later state. -/
theorem eventBoundaryOne_eq {s : State} {e : Nat} {v : Event} (hv : eventOf s e = some v) : eventBoundaryOne s e
    = if movesOn v (stateGiven v (minuteOf s)) then
        eventNotice e v (some v.state) (some (stateGiven v (minuteOf s))) 1 (moveEvent e v (stateGiven v (minuteOf s)) s)
      else s := by
  have hcan := stateGiven_cases v (minuteOf s)
  unfold eventBoundaryOne
  rw [hv]
  dsimp only
  generalize stateGiven v (minuteOf s) = g at hcan ⊢
  unfold forward live movesOn
  cases g with
  | cancelled => exact absurd rfl hcan
  | _ => cases v.state <;> simp [stateRank]

/-- The state with an event moved on: its overlay set as it becomes SHOWING, and removed as it ends. -/
def movedOn (e : Nat) (v : Event) (new : EventState) (s : State) : State :=
  if new = .showing then setOverlay v.channel (Fin.ofNat 16 e) (setEvent e (some { v with state := new }) s)
  else if v.state = .showing then removeOverlay v.channel (Fin.ofNat 16 e) (setEvent e (some { v with state := new }) s)
  else setEvent e (some { v with state := new }) s

/-- An event that moves on is SHOWING at most before or after. -/
theorem moveEvent_movesOn {v : Event} {new : EventState} (h : movesOn v new = true) (e : Nat) (s : State) :
    moveEvent e v new s = movedOn e v new s := by
  unfold movesOn at h
  unfold moveEvent movedOn
  by_cases hn : new = .showing
  · have hv : v.state ≠ .showing := by
      intro hv
      rw [hv, hn] at h
      cases h
    simp [hn, hv]
  · by_cases hv : v.state = .showing <;> simp [hn, hv]

/-- What an event slot becomes at a boundary, at the clock of another state. -/
def eventBrought (s t : State) (e : Nat) : State :=
  match eventOf t e with
  | none => t
  | some v =>
    if movesOn v (stateGiven v (minuteOf s)) then
      notice nkEventState false (u8 e ++ u8 v.channel ++ u32 v.start ++ u32 v.stop ++ u8 (eventStateNum (some v.state))
        ++ u8 (eventStateNum (some (stateGiven v (minuteOf s)))) ++ [1] ++ u16 v.purchasers.length
        ++ opt 4 (s.time.clock.map (·.1))) (movedOn e v (stateGiven v (minuteOf s)) t)
    else t

/-- An event that moves on leaves the clock. -/
theorem movedOn_time (e : Nat) (v : Event) (new : EventState) (s : State) : (movedOn e v new s).time = s.time := by
  have line {s t : State} (h : LinePlant s t) : t.time = s.time := by
    obtain ⟨l, p, rfl⟩ := h
    rfl
  unfold movedOn
  split
  · exact (line (changeClass_line ..)).trans rfl
  · split
    · exact (line (changeClass_line ..)).trans rfl
    · rfl

/-- Each event at a boundary, at the clock that stands throughout. -/
theorem eventBrought_eq {s t : State} (h : t.time = s.time) (e : Nat) :
    eventBoundaryOne t e = eventBrought s t e ∧ (eventBrought s t e).time = s.time := by
  have hm : minuteOf t = minuteOf s := by
    unfold minuteOf
    rw [h]
  unfold eventBrought
  cases hv : eventOf t e with
  | none =>
    refine ⟨?_, h⟩
    unfold eventBoundaryOne
    rw [hv]
  | some v =>
    rw [eventBoundaryOne_eq hv, hm]
    dsimp only
    split
    · rename_i hon
      rw [moveEvent_movesOn hon]
      refine ⟨?_, ?_⟩
      · unfold eventNotice
        rw [movedOn_time, h]
        rfl
      · rw [notice_eq]
        exact (movedOn_time ..).trans h
    · exact ⟨rfl, h⟩

/-- The event unit takes a boundary at the clock that stands throughout. -/
theorem eventBoundary_eq (s : State) : eventBoundary s = (List.range 16).foldl (eventBrought s) s := by
  have fold (l : List Nat) (t : State) (h : t.time = s.time) : l.foldl eventBoundaryOne t = l.foldl (eventBrought s) t := by
    induction l generalizing t with
    | nil => rfl
    | cons e l ih =>
      obtain ⟨he, ht⟩ := eventBrought_eq h e
      rw [List.foldl_cons, List.foldl_cons, he, ih _ ht]
  exact fold _ s rfl

/-- The overlay of a channel set by an event. -/
theorem chan_setOverlay {dirty : Bool} {s : State} (hs : SoundAt dirty s) {c : Nat} (h1 : 1 ≤ c) (h2 : c ≤ 96) (e : Fin 16) :
    (chan (setOverlay c e s) c).eff = .ppv e := by
  have hc : chan (setOverlay c e s) c = { chan s c with overlay := some e, eff := .ppv e } := by
    refine chan_of_set hs.lineup.1 h1 h2 ?_
    unfold setOverlay
    rw [changeClass_eq hs h1 h2]
    rfl
  rw [hc]

/-- The overlay of a channel removed by its event. -/
theorem chan_removeOverlay {dirty : Bool} {s : State} (hs : SoundAt dirty s) {c : Nat} (h1 : 1 ≤ c) (h2 : c ≤ 96) {e : Fin 16}
    (h : (chan s c).overlay = some e) : (chan (removeOverlay c e s) c).eff = .base (chan s c).cls := by
  have hc : chan (removeOverlay c e s) c = { chan s c with overlay := none, eff := .base (chan s c).cls } := by
    refine chan_of_set hs.lineup.1 h1 h2 ?_
    unfold removeOverlay
    rw [changeClass_eq hs h1 h2, if_pos h]
    rfl
  rw [hc]

/-- An overlay of another event stays (R137). -/
theorem removeOverlay_other {dirty : Bool} {s : State} (hs : SoundAt dirty s) {c : Nat} (h1 : 1 ≤ c) (h2 : c ≤ 96) {e : Fin 16}
    (h : (chan s c).overlay ≠ some e) : removeOverlay c e s = s := by
  have hmem : chan s c ∈ s.lineup.map := List.mem_of_getElem? (chan_eq hs.lineup.1 h1 h2)
  have heff : ({ chan s c with eff := effOf (chan s c) } : Channel) = chan s c := by rw [← hs.classes.1 _ hmem]
  have hhand : handsOn (chan s c) (chan s c) = false := by simp [handsOn]
  unfold removeOverlay
  rw [changeClass_eq hs h1 h2, if_neg h, heff, hhand, set_chan_self hs.lineup.1 h1 h2, ← hs.classes.2, Bool.or_false]

end Sys2Proof.Safety
end

