-- ==== Proofs/PeriodLimit.lean ====
section
/-! PROOFS. The close of a period at its limit (R165, R169), and the takers of a minute boundary together (O31). -/

namespace Sys2Proof.Safety

open Sys2Proof.Machine

/-! ## The close of a period (R165, R167) -/

/-- The state with a list of items joined to the append queue. -/
def itemsJoined (l : List StoreItem) (s : State) : State :=
  { s with
    store.minute := minuteOf s
    store.queue := s.store.queue ++ l
    store.path := if s.store.path = .idle then .append else s.store.path }

/-- Items joined after others. -/
theorem itemsJoined_itemsJoined (l k : List StoreItem) (s : State) :
    itemsJoined k (itemsJoined l s) = itemsJoined (l ++ k) s := by
  unfold itemsJoined minuteOf
  simp only [List.append_assoc]
  cases s.store.path <;> rfl

/-- The OUTAGE record of an open outage at a close, the period's open minute given (R167). -/
def portionItem (o c : Nat) (s : State) (r : Outage) : StoreItem :=
  .record (recordBody rkOutage (minuteOf s) (portionFields s o c r)) .other

/-- The MARK record of the minute that stands. -/
def markItem (s : State) : StoreItem := .record (u8 5 ++ u32 (minuteOf s) ++ absent 26) .other

/-- The open outages and a MARK join a journal with room for them. -/
theorem outages_and_mark (o c : Nat) : ∀ (l : List Outage) (s : State), s.store.fault = false → l.length + 257 < freeSlots s →
    (appendAuto rkMark [] .other (l.foldl (fun s r => (appendAuto rkOutage (portionFields s o c r) .other s).1) s)).1
      = itemsJoined (l.map (portionItem o c s) ++ [markItem s]) s
  | [], s, hf, h => append_mark hf (by simpa using h)
  | r :: l, s, hf, h => by
    have hone : (appendAuto rkOutage (portionFields s o c r) .other s).1 = itemsJoined [portionItem o c s r] s := by
      rw [appendAuto_room hf (by omega)]
      rfl
    have hfree : freeSlots (itemsJoined [portionItem o c s r] s) = freeSlots s - 1 := freeSlots_record rfl rfl rfl
    rw [List.length_cons] at h
    rw [List.foldl_cons, hone, outages_and_mark o c l _ (by exact hf) (by omega), itemsJoined_itemsJoined]
    rfl

/-- The state in which a close has begun, its items joined to the append queue (R165). -/
def closeBegun (i : BankId) (c : Nat) (items : List StoreItem) (s : State) : State :=
  { s with
    store.minute := c
    store.queue := s.store.queue ++ items
    store.path := if s.store.path = .idle then .append else s.store.path
    engine := { s.engine with
      state := .sequence, bank := i, minute := c, rolls := rollList s, resume := 0, writing := none, statements := 0, lines := 0
      omitted := 0, control := 0, truncated := false, closeDone := false } }

/-- The header items of a close, in their order (R147, R165). -/
def closeHeaders (i : BankId) (c q : Nat) : List StoreItem :=
  [.header i (.closeMinute c), .header i .closing, .header (otherBank i) (.sequence q), .header (otherBank i) (.openMinute c),
    .header (otherBank i) .opened]

/-- A close with room for its records begins. -/
theorem beginClose_room {i : BankId} {c : Nat} {s : State} (ho : (bank s i).state = .open_) (hf : s.store.fault = false)
    (h : (s.outage.records.filter (fun r => r.stop.isNone)).length + 257 < freeSlots s) :
    beginClose i c s = closeBegun i c ((s.outage.records.filter (fun r => r.stop.isNone)).map
      (portionItem (openMinuteOf (bank s i)) c s) ++ [markItem s] ++ closeHeaders i c ((seqOf (bank s i) + 1) % 65536)) s := by
  have hseq (t : State) (ht : bank t i = bank s i) : openingSequence t (otherBank i) = (seqOf (bank s i) + 1) % 65536 := by
    have hother : otherBank (otherBank i) = i := by cases i <;> rfl
    rw [openingSequence_eq, hother, ht, ho, if_neg (by decide)]
  unfold beginClose
  dsimp only
  rw [outages_and_mark _ c _ s hf h, joinItem_joinItem, openPeriod_eq, hseq _ (by cases i <;> rfl)]
  unfold closeBegun itemsJoined closeHeaders
  simp only [List.append_assoc, List.cons_append, List.nil_append]
  cases s.store.path <;> rfl

/-- The OUTAGE record of an open outage at a close, in its bytes (12.5). -/
def portionRecord (o : Nat) (s : State) (r : Outage) : StoreItem :=
  .record (u8 4 ++ u32 (minuteOf s) ++ u8 r.segment ++ u8 r.id ++ u32 r.start ++ u32 (max r.start o) ++ u32 (minuteOf s)
    ++ flag (qualifies s.params.creditThreshold (minuteOf s - r.start)) ++ absent 11) .other

/-- The bytes of the OUTAGE record of an open outage (12.5). -/
theorem portionItem_eq (o : Nat) (s : State) (r : Outage) : portionItem o (minuteOf s) s r = portionRecord o s r := by
  have hflag (b : Bool) : (flag b).length = 1 := by cases b <;> rfl
  have hlen : (portionFields s o (minuteOf s) r).length + 11 = 26 := by
    simp only [portionFields, outageFields, u8, u32, List.length_append, be_length, hflag]
  unfold portionItem portionRecord
  rw [recordBody_eq hlen]
  simp only [portionFields, outageFields, List.append_assoc]

/-- The segment of a subscriber's tap, 0 where no loaded tap holds its address. -/
def segmentOf (s : State) (u : Subscriber) : Nat := match tapAt s u.tap with | none => 0 | some (_, t) => t.segment

/-- The segment of a tap in the roll list. -/
theorem segmentOf_eq (s : State) (u : Subscriber) : segmentOfTap s u.tap = segmentOf s u := by
  unfold segmentOfTap segmentOf
  cases tapAt s u.tap <;> rfl

/-- The roll list of a close (R165). -/
theorem rollList_eq (s : State) :
    rollList s = s.subs.map (fun x => ⟨x.1, x.2.account, x.2.state, x.2.tiers, segmentOf s x.2⟩) := by
  unfold rollList
  simp only [segmentOf_eq]

/-! ## The limit of a period (R169) -/

/-- The statement engine acts at a boundary: in RUN, the limit not yet taken and no close under way, the store free of faults,
and the open minute written and at least 89,280 minutes past. -/
def LimitTested (k : BankId) (s : State) : Prop :=
  s.link.op = .run ∧ s.engine.limitTaken = false ∧ s.engine.state ≠ .sequence ∧ s.store.fault = false
    ∧ hdr (bank s k) 7 ≠ 0xFF ∧ openMinuteOf (bank s k) + 89280 ≤ minuteOf s

/-- The other bank takes a new period. -/
def LimitFree (k : BankId) (s : State) : Prop :=
  (bank s (otherBank k)).state = .free ∧ s.store.a.state ≠ .closing ∧ s.store.b.state ≠ .closing

/-- The test of the limit, as the model's check. -/
theorem limitTested_iff (k : BankId) (s : State) : LimitTested k s ↔ (!running s || s.engine.limitTaken
    || s.engine.state = .sequence || s.store.fault || !openWritten (bank s k)
    || minuteOf s < openMinuteOf (bank s k) + periodLimit) = false := by
  unfold LimitTested running openWritten hdrSet periodLimit
  simp only [Bool.or_eq_false_iff, Bool.not_eq_false', decide_eq_true_eq, decide_eq_false_iff_not, Nat.not_lt, and_assoc]
  exact Iff.rfl

/-- The room for a new period, as the model's check. -/
theorem limitFree_iff (k : BankId) (s : State) : LimitFree k s ↔ ((bank s (otherBank k)).state = .free
    && (bankIn s .closing).isNone) = true := by
  unfold LimitFree bankIn
  by_cases ha : s.store.a.state = .closing <;> by_cases hb : s.store.b.state = .closing <;> simp [ha, hb]

section
variable {s : State} {k : BankId} (ho : openBank s = some k)
include ho

/-- A limit not tested leaves the state. -/
theorem limitBoundary_rests (h : ¬ LimitTested k s) : limitBoundary s = s := by
  rw [limitTested_iff, Bool.not_eq_false] at h
  unfold limitBoundary
  rw [ho]
  exact if_pos h

/-- A tested limit with the other bank free begins a close. -/
theorem limitBoundary_closes (h : LimitTested k s) (hf : LimitFree k s) :
    limitBoundary s = beginClose k (minuteOf s) { s with engine.limitTaken := true } := by
  rw [limitTested_iff] at h
  rw [limitFree_iff] at hf
  unfold limitBoundary
  rw [ho]
  dsimp only
  rw [if_neg (Bool.eq_false_iff.mp h), if_pos (by exact hf)]

/-- A tested limit with the other bank not free is reported overdue, once. -/
theorem limitBoundary_overdue (h : LimitTested k s) (hf : ¬ LimitFree k s) : limitBoundary s = notice nkPeriodOverdue true
    (u8 (bankNum k) ++ u16 (seqOf (bank s k)) ++ u32 (openMinuteOf (bank s k)) ++ u32 (openMinuteOf (bank s k) + 89280)
      ++ u32 (minuteOf s) ++ u8 (bankStateNum (bank s (otherBank k)).state)) { s with
        store.queue := s.store.queue ++ [.header k .overdue]
        store.path := if s.store.path = .idle then .append else s.store.path
        engine.limitTaken := true } := by
  rw [limitTested_iff] at h
  rw [limitFree_iff] at hf
  unfold limitBoundary
  rw [ho]
  dsimp only
  rw [if_neg (Bool.eq_false_iff.mp h), if_neg (by exact hf)]
  rfl

end

/-- The OPEN bank is OPEN. -/
theorem openBank_state {s : State} {k : BankId} (h : openBank s = some k) : (bank s k).state = .open_ := by
  unfold openBank bankIn at h
  split at h
  · cases h
    assumption
  · split at h
    · cases h
      assumption
    · cases h

/-- A tested limit with the other bank free and room for the records closes the period. -/
theorem limitBoundary_begins {s : State} {k : BankId} (ho : openBank s = some k) (h : LimitTested k s) (hf : LimitFree k s)
    (hr : (s.outage.records.filter (fun r => r.stop.isNone)).length + 257 < freeSlots s) :
    limitBoundary s = { s with
      store.minute := minuteOf s
      store.queue := s.store.queue
        ++ (s.outage.records.filter (fun r => r.stop.isNone)).map (portionRecord (openMinuteOf (bank s k)) s)
        ++ markItem s :: closeHeaders k (minuteOf s) ((seqOf (bank s k) + 1) % 65536)
      store.path := if s.store.path = .idle then .append else s.store.path
      engine := { s.engine with
        state := .sequence, bank := k, minute := minuteOf s
        rolls := s.subs.map (fun x => ⟨x.1, x.2.account, x.2.state, x.2.tiers, segmentOf s x.2⟩)
        resume := 0, writing := none, statements := 0, lines := 0, omitted := 0, control := 0, truncated := false
        closeDone := false, limitTaken := true } } := by
  obtain ⟨-, -, -, hfault, -, -⟩ := id h
  have hclose := beginClose_room (c := minuteOf s) (s := { s with engine.limitTaken := true }) (openBank_state ho) hfault hr
  have hportions : portionItem (openMinuteOf (bank s k)) (minuteOf s) s = portionRecord (openMinuteOf (bank s k)) s :=
    funext (portionItem_eq _ s)
  rw [limitBoundary_closes ho h hf, hclose, ← rollList_eq, ← hportions]
  unfold closeBegun
  simp only [List.append_assoc, List.cons_append, List.nil_append]
  rfl

/-! ## The clock and the takers (R183) -/

/-- Settles O31: the clock by its cases, then each taker by the conditions on which it acts. -/
theorem clockTicksAndTakersAct : Obligations.ClockTicksAndTakersAct := by
  refine ⟨fun s hw => ⟨fun hc => ?_, fun m n hc hn => ?_, fun m n hc hn hm => ?_, fun m n hc hn hm => ?_⟩,
    fun s => ⟨fun h => if_pos h, fun e es => scheduleBoundary_not_due, fun e es hm he hd hh => ?_, fun e es hm he hd hh => ?_,
      fun m => claimBoundary_before, fun m hc hm hl ha => ?_, fun hm => ?_, fun i hm w ho hf hr => ?_, fun hrun => ?_,
      fun hrun hf hr => ?_, ?_, fun c e hs h1 h2 => ⟨chan_setOverlay hs h1 h2 e, chan_removeOverlay hs h1 h2,
      removeOverlay_other hs h1 h2⟩, fun ho => ?_, fun k ho => ⟨fun ht => limitBoundary_rests ho ht, fun ht hf hr => ?_,
      fun ht hf => limitBoundary_overdue ho ht hf⟩⟩⟩
  · have hs : tickSecond s = s := by
      unfold tickSecond
      rw [hc]
    have hm : tickMinute s = s := by
      unfold tickMinute
      rw [hc]
    exact ⟨exec_clock (by simp) hw hs hm, exec_clock (by simp) hw hs hm⟩
  · have hs : tickSecond s = { s with time.clock := some (m, n + 1) } := by
      unfold tickSecond
      rw [hc]
      exact if_pos hn
    have hm : tickMinute s = s := by
      unfold tickMinute
      rw [hc]
      exact if_pos hn
    refine ⟨?_, ?_⟩
    · show Host.Outcome.next (finish (tickSecond s)) = _
      rw [hs, finish_of_none (by exact hw)]
    · show Host.Outcome.next (finish (tickMinute s)) = _
      rw [hm, finish_of_none hw]
  · refine ⟨takersOrder false { s with time.clock := some (m + 1, 0) }, takersOrder_perm .., ?_⟩
    have hpass : passMinute m s = boundary false { s with time.clock := some (m + 1, 0) } := if_neg (Nat.not_le.mpr hm)
    have hwait : (boundary false { s with time.clock := some (m + 1, 0) }).link.waiting = [] := (boundary_waiting ..).trans hw
    rw [boundary_eq] at hpass hwait
    exact exec_passMinute hwait hc hn hpass
  · have hpass : passMinute m s = { s with time.clock := some (m, 0) } := if_pos hm
    exact exec_passMinute hw hc hn hpass
  · rw [scheduleBoundary_due hm he hd, if_pos hh]
    unfold haltNotice dueCount
    rw [show ({ s with schedule.stepMode := true } : State).schedule.entries = e :: es from he]
    rfl
  · obtain ⟨l, pl, h⟩ := applyChange_line e.channel e.change { s with schedule.entries := es }
    refine ⟨l, pl, h, ?_⟩
    have happ : entryApplied s e = { s with schedule.entries := es, lineup := l, plant := pl } := by
      unfold entryApplied
      rw [he]
      exact h
    rw [scheduleBoundary_due hm he hd, if_neg (by rw [hh]; decide), happ]
    unfold scheduleBoundary
    rw [if_neg (by rw [hm]; decide)]
  · exact claimBoundary_lapses hc hm hl ha
  · rw [markBoundary_eq, if_neg]
    simp [hm]
  · have hmark := append_mark hf hr
    rw [markBoundary_eq, if_pos, hmark]
    · rfl
    · have hwork : working s = true := by rcases w with w | w <;> simp [working, w]
      simp [hm, hwork, ho]
  · have hr : running s = false := by simpa [running] using hrun
    rw [markBoundary_eq, markBoundary_eq, hr]
    rfl
  · have hmark := append_mark hf hr
    rw [markBoundary_eq, if_pos, hmark]
    · rfl
    · simp [running, hrun]
  · exact eventBoundary_eq s
  · unfold limitBoundary
    rw [ho]
  · exact limitBoundary_begins ho ht hf hr

end Sys2Proof.Safety
end

