-- ==== Proofs/SetTime.lean ====
section
/-! PROOFS. SET-TIME (R185; O17). -/

namespace Sys2Proof.Safety

open Sys2Proof.Machine

/-- SET-TIME passes the gate outside STARTING (R178). -/
theorem gate_setTime {s : State} (h : s.link.op ≠ .starting) (m n : Nat) : gate s.link.op (orderKind (.setTime m n)) = none := by
  cases hop : s.link.op with
  | starting => exact absurd hop h
  | _ => rfl

/-- The clock set by SET-TIME. -/
def clockSet (m n : Nat) (s : State) : State := { s with time.clock := some (m, n) }

/-- The checks of SET-TIME, as conditions (R185). -/
theorem setTimeCheck_iff (m n : Nat) (s : State) : setTimeCheck m n s = true
    ↔ n ≤ 59 ∧ (openBank s ≠ none → s.store.minute ≤ m) ∧ (s.link.op = .run → m ≤ minuteOf s + 1440) := by
  unfold setTimeCheck running
  simp only [Bool.and_eq_true, decide_eq_true_eq, Bool.not_eq_true', Bool.and_eq_false_imp, decide_eq_false_iff_not, Nat.not_lt,
    Option.isSome_iff_ne_none, and_assoc]

/-- SET-TIME that fails a check is refused. -/
theorem setTime_refused {tag : Byte} {m n : Nat} {s : State} (q : Quiet s) (h : s.link.op ≠ .starting)
    (hc : setTimeCheck m n s = false) : Answers (.setTime tag m n) s s tag (.setTime m n) .badArg [] := by
  refine answers_of_gate rfl q (gate_setTime h m n) q.inFlight ?_
  show orderSetTime m n _ = _
  unfold orderSetTime
  rw [show setTimeCheck m n (taken tag (.setTime m n) s) = false from hc]
  rfl

/-- The first SET-TIME. -/
theorem orderSetTime_first {m n : Nat} {s : State} (hc : setTimeCheck m n s = true) (h : s.time.clock = none) :
    orderSetTime m n s = answer .ok (timeBytes none (powerUp m { clockSet m n s with link.op := .loading }))
      (powerUp m { clockSet m n s with link.op := .loading }) := by
  unfold orderSetTime
  rw [hc, h]
  rfl

/-- A later SET-TIME. -/
theorem orderSetTime_later {m n was sec : Nat} {s : State} (hc : setTimeCheck m n s = true) (h : s.time.clock = some (was, sec)) :
    orderSetTime m n s = answer .ok (timeBytes (some ((m : Int) - was)) (if was < m then boundary true (clockSet m n s) else clockSet m n s))
      (if was < m then boundary true (clockSet m n s) else clockSet m n s) := by
  unfold orderSetTime
  rw [hc, h]
  rfl

/-- The first SET-TIME is answered with the state that POWER_UP leaves. -/
theorem setTime_first {tag : Byte} {m n : Nat} {s t : State} (q : Quiet s) (h : s.link.op ≠ .starting)
    (hc : setTimeCheck m n s = true) (hn : s.time.clock = none)
    (ht : powerUp m (taken tag (.setTime m n) { clockSet m n s with link.op := .loading }) = taken tag (.setTime m n) t)
    (htime : t.time.clock = some (m, n)) (hlink : t.link = { s.link with op := .loading }) :
    Answers (.setTime tag m n) s t tag (.setTime m n) .ok (u32 m ++ u8 n ++ [1] ++ u8 2 ++ absent 4) := by
  have hbytes : timeBytes none (taken tag (.setTime m n) t) = u32 m ++ u8 n ++ [1] ++ u8 2 ++ absent 4 := by
    unfold timeBytes minuteOf secondOf
    rw [show (taken tag (.setTime m n) t).time.clock = some (m, n) from htime,
      show (taken tag (.setTime m n) t).link.op = .loading from congrArg Link.op hlink]
    rfl
  refine answers_of_gate rfl q (gate_setTime h m n) (by rw [hlink]; exact q.inFlight) ?_
  show orderSetTime m n _ = _
  rw [orderSetTime_first (by exact hc) (by exact hn), ← hbytes, ← ht]
  rfl

/-! ## The POWER_UP record (R153) -/

/-- The open minute programmed by the first SET-TIME, where none stands (R153). -/
def minuteProgrammed (k : BankId) (m : Nat) (s : State) : State :=
  if hdr (bank s k) 7 = 0xFF then { joinItem (.header k (.openMinute m)) s with store.minute := m } else s

/-- With a store free of faults the open minute is programmed and POWER_UP handed over. -/
theorem powerUp_open {k : BankId} {m : Nat} {s : State} (ho : openBank s = some k) (hf : s.store.fault = false) :
    powerUp m s = (appendAuto rkPowerUp (u8 (causeNum s.time.cause)) .other (minuteProgrammed k m s)).1 := by
  have hc : (!openWritten (bank s k) && !s.store.fault) = decide (hdr (bank s k) 7 = 0xFF) := by
    unfold openWritten hdrSet erasedByte
    simp only [hf, Bool.not_false, Bool.and_true, ne_eq, decide_not, Bool.not_not]
  have hcause : (minuteProgrammed k m s).time.cause = s.time.cause := by
    unfold minuteProgrammed
    split <;> rfl
  unfold powerUp
  rw [ho]
  dsimp only
  rw [hc, if_congr decide_eq_true_iff rfl rfl]
  exact congrArg (fun c => (appendAuto rkPowerUp (u8 (causeNum c)) .other (minuteProgrammed k m s)).1) hcause

/-- The items that the first SET-TIME hands to the store. -/
def powerUpItems (k : BankId) (m : Nat) (s : State) : List StoreItem :=
  (if hdr (bank s k) 7 = 0xFF then [.header k (.openMinute m)] else [])
    ++ [.record (u8 6 ++ u32 m ++ u8 (causeNum s.time.cause) ++ absent 25) .other]

/-- The first SET-TIME with room in the journal. -/
theorem powerUp_room {k : BankId} {m : Nat} {s : State} (ho : openBank s = some k) (hf : s.store.fault = false)
    (hm : minuteOf s = m) (hr : 257 < freeSlots s) : powerUp m s = { s with
      store.minute := m
      store.queue := s.store.queue ++ powerUpItems k m s
      store.path := if s.store.path = .idle then .append else s.store.path } := by
  have hbody : recordBody rkPowerUp m (u8 (causeNum s.time.cause)) = u8 6 ++ u32 m ++ u8 (causeNum s.time.cause) ++ absent 25 :=
    recordBody_eq (by simp [u8]) ..
  rw [powerUp_open ho hf]
  unfold minuteProgrammed powerUpItems
  split
  · have hfree : freeSlots { joinItem (.header k (.openMinute m)) s with store.minute := m } = freeSlots s - 0 :=
      freeSlots_snoc (s := s) (x := .header k (.openMinute m)) rfl rfl rfl rfl
    rw [appendAuto_room (by exact hf) (by omega), show minuteOf { joinItem (.header k (.openMinute m)) s with store.minute := m } = m from hm,
      hbody]
    subst hm
    unfold recordJoined joinItem
    simp only [List.append_assoc]
    cases s.store.path <;> rfl
  · rw [appendAuto_room hf hr, hm, hbody]
    subst hm
    rfl

/-- With a store fault the first SET-TIME hands nothing over. -/
theorem powerUp_fault {k : BankId} {m : Nat} {s : State} (ho : openBank s = some k) (hf : s.store.fault = true) : powerUp m s = s := by
  unfold powerUp
  rw [ho]
  dsimp only
  rw [hf, Bool.not_true, Bool.and_false, if_neg (by decide), appendAuto_fault hf]

/-- Settles O17: the checks, the first SET-TIME by the OPEN bank and the store, and a later one by its minute. -/
theorem setTimeSetsTheClock : Obligations.SetTimeSetsTheClock := by
  intro tag m n s q h
  refine ⟨fun hbad => setTime_refused q h ?_, fun hn ho hc hop => ?_, fun was sec hn hj hc w => ⟨fun hm => ?_, fun hm hrun => ?_⟩,
    fun k hn ho hj hc hop => ⟨fun hf => ?_, fun hf hr => ?_⟩⟩
  · rw [← Bool.not_eq_true, setTimeCheck_iff]
    rintro ⟨h1, h2, h3⟩
    rcases hbad with hb | ⟨hb, hb'⟩ | ⟨hb, hb'⟩
    · omega
    · have := h2 hb
      omega
    · have := h3 hb
      omega
  · have hcheck : setTimeCheck m n s = true :=
      (setTimeCheck_iff m n s).mpr ⟨hn, fun hb => absurd ho hb, fun hr => by rw [hop] at hr; cases hr⟩
    refine setTime_first q h hcheck hc ?_ rfl rfl
    unfold powerUp
    rw [show openBank (taken tag (.setTime m n) { clockSet m n s with link.op := .loading }) = none from ho]
    rfl
  · have hcheck : setTimeCheck m n s = true := (setTimeCheck_iff m n s).mpr ⟨hn, hj, fun _ => by
      unfold minuteOf
      rw [hc]
      dsimp only
      omega⟩
    refine answers_of rfl q w (by exact q.inFlight) ?_
    show orderSetTime m n _ = _
    rw [orderSetTime_later (by exact hcheck) (by exact hc), if_neg (Nat.not_lt.mpr hm)]
    rfl
  · have hcheck : setTimeCheck m n s = true := (setTimeCheck_iff m n s).mpr ⟨hn, hj, hrun⟩
    refine ⟨takersOrder true s, takersOrder_perm .., ?_⟩
    intro u
    rw [exec_working rfl q w]
    show Host.Outcome.next (kick (orderSetTime m n _)) = _
    rw [orderSetTime_later (by exact hcheck) (by exact hc), if_pos hm, boundary_eq]
    rfl
  · have hcheck : setTimeCheck m n s = true :=
      (setTimeCheck_iff m n s).mpr ⟨hn, fun _ => hj, fun hr => by rw [hop] at hr; cases hr⟩
    exact setTime_first q h hcheck hc (powerUp_fault (by exact ho) (by exact hf)) rfl rfl
  · have hcheck : setTimeCheck m n s = true :=
      (setTimeCheck_iff m n s).mpr ⟨hn, fun _ => hj, fun hr => by rw [hop] at hr; cases hr⟩
    refine setTime_first q h hcheck hc ((powerUp_room (by exact ho) (by exact hf) rfl (by exact hr)).trans ?_) rfl rfl
    unfold powerUpItems
    rw [← List.append_assoc]
    rfl

end Sys2Proof.Safety
end

