-- ==== Proofs/EventOrders.lean ====
section
/-! PROOFS. EVENT-DEFINE and EVENT-REMOVE (R134, R135, R137, R142, R143; O39). -/

namespace Sys2Proof.Safety

open Sys2Proof.Machine

/-! ## The checks of EVENT-DEFINE (R134) -/

/-- An event on offer is ON_SALE or SHOWING. -/
theorem onOffer_iff (v : Event) : onOffer v = true ↔ v.state = .onSale ∨ v.state = .showing := by
  unfold onOffer
  rw [Bool.or_eq_true, decide_eq_true_iff, decide_eq_true_iff]

/-- A live event is DEFINED, ON_SALE or SHOWING. -/
theorem live_iff (v : Event) : live v = true ↔ v.state = .defined ∨ v.state = .onSale ∨ v.state = .showing := by
  unfold live
  simp only [Bool.or_eq_true, decide_eq_true_eq, or_assoc]

/-- An event of another slot stands in the way of a new one on its channel. -/
def Clashes (p : EventArgs) (s : State) (e : Nat) (v : Event) : Prop :=
  e ≠ p.event ∧ eventOf s e = some v ∧ v.channel = p.channel
    ∧ (((v.state = .defined ∨ v.state = .onSale ∨ v.state = .showing) ∧ v.start < p.stop ∧ p.start < v.stop)
      ∨ (v.state = .showing ∧ p.start < v.stop))

/-- An event slot that holds an event. -/
theorem eventOf_eq_some {s : State} {e : Nat} {v : Event} : eventOf s e = some v ↔ s.events[e]? = some (some v) := by
  unfold eventOf
  rw [Option.join_eq_some_iff]

/-- The fifth check finds the events that stand in the way. -/
theorem eventClash_iff (p : EventArgs) (s : State) : eventClash p s = true ↔ ∃ e v, Clashes p s e v := by
  have one (e : Nat) (v : Event) : (decide (e ≠ p.event) && decide (v.channel = p.channel)
      && ((live v && showingsMeet v.start v.stop p.start p.stop) || (decide (v.state = .showing) && decide (p.start < v.stop)))) = true
        ↔ e ≠ p.event ∧ v.channel = p.channel
          ∧ (((v.state = .defined ∨ v.state = .onSale ∨ v.state = .showing) ∧ v.start < p.stop ∧ p.start < v.stop)
            ∨ (v.state = .showing ∧ p.start < v.stop)) := by
    unfold showingsMeet
    simp only [Bool.and_eq_true, Bool.or_eq_true, decide_eq_true_eq, live_iff, and_assoc]
  unfold eventClash
  rw [List.any_eq_true]
  constructor
  · rintro ⟨⟨x, e⟩, hx, h⟩
    rw [List.mem_zipIdx_iff_getElem?] at hx
    cases x with
    | none => cases h
    | some v =>
      obtain ⟨he, hc, hm⟩ := (one e v).mp h
      exact ⟨e, v, he, eventOf_eq_some.mpr hx, hc, hm⟩
  · rintro ⟨e, v, he, hv, hc, hm⟩
    exact ⟨(some v, e), List.mem_zipIdx_iff_getElem?.mpr (eventOf_eq_some.mp hv), (one e v).mpr ⟨he, hc, hm⟩⟩

/-- The slot and the channel that an EVENT-DEFINE names. -/
def Named (p : EventArgs) : Prop := p.event ≤ 15 ∧ 1 ≤ p.channel ∧ p.channel ≤ 96

/-- The first check of EVENT-DEFINE. -/
theorem named_iff (p : EventArgs) : Named p ↔ (decide (15 < p.event) || !isChannel p.channel) = false := by
  rw [Bool.or_eq_false_iff, decide_eq_false_iff_not, Bool.not_eq_false', isChannel_iff, Nat.not_lt]
  rfl

/-- The minutes of an event are in order. -/
def InOrder (p : EventArgs) : Prop := p.open_ ≤ p.start ∧ p.start < p.stop ∧ p.open_ ≤ p.close ∧ p.close ≤ p.stop

/-- The third check of EVENT-DEFINE. -/
theorem inOrder_iff (p : EventArgs) : InOrder p ↔ (decide (p.open_ ≤ p.start) && decide (p.start < p.stop)
    && decide (p.open_ ≤ p.close) && decide (p.close ≤ p.stop)) = true := by
  simp only [Bool.and_eq_true, decide_eq_true_eq, and_assoc]
  rfl

/-- An event ON_SALE or SHOWING stands in the slot. -/
theorem slot_onOffer_iff (s : State) (e : Nat) :
    (eventOf s e).any onOffer = true ↔ ∃ w, eventOf s e = some w ∧ (w.state = .onSale ∨ w.state = .showing) := by
  rw [Option.any_eq_true]
  simp only [onOffer_iff]

section
variable {p : EventArgs} {s : State}

/-- A slot or a channel out of range is refused BAD_ARG. -/
theorem eventCheck_unnamed (h : ¬ Named p) : eventCheck p s = some .badArg := by
  rw [named_iff, Bool.not_eq_false] at h
  exact if_pos h

variable (h : Named p)
include h

/-- A slot whose event is on offer is refused STATE. -/
theorem eventCheck_onOffer (ho : (eventOf s p.event).any onOffer = true) : eventCheck p s = some .state := by
  rw [named_iff] at h
  unfold eventCheck
  rw [h, if_neg (by decide), if_pos ho]

variable (ho : ¬ (eventOf s p.event).any onOffer = true)
include ho

/-- Minutes out of order or past, and an event that stands in the way, are refused BAD_ARG. -/
theorem eventCheck_misfit (hm : ¬ InOrder p ∨ p.stop ≤ minuteOf s ∨ ∃ e w, Clashes p s e w) : eventCheck p s = some .badArg := by
  rw [named_iff] at h
  rw [inOrder_iff, ← eventClash_iff] at hm
  unfold eventCheck
  rw [h, if_neg (by decide), if_neg ho]
  by_cases h1 : (decide (p.open_ ≤ p.start) && decide (p.start < p.stop) && decide (p.open_ ≤ p.close) && decide (p.close ≤ p.stop)) = true
  · rw [h1, if_neg (by decide)]
    by_cases h2 : p.stop ≤ minuteOf s
    · exact if_pos h2
    · rw [if_neg h2]
      exact if_pos ((hm.resolve_left (not_not_intro h1)).resolve_left h2)
  · rw [Bool.eq_false_iff.mpr h1]
    rfl

/-- What remains is checked against the journal. -/
theorem eventCheck_fits (hin : InOrder p) (hs : minuteOf s < p.stop) (hc : ∀ e w, ¬ Clashes p s e w) : eventCheck p s
    = if cancelFound s p.event p.start then some StatusCode.state
      else if 2048 < (purchasersFound s p.event p.start).length then some StatusCode.full else none := by
  have hclash : ¬ eventClash p s = true := fun hk => by
    obtain ⟨e, w, hw⟩ := (eventClash_iff p s).mp hk
    exact hc e w hw
  rw [named_iff] at h
  rw [inOrder_iff] at hin
  unfold eventCheck
  rw [h, if_neg (by decide), if_neg ho, hin, if_neg (by decide), if_neg (Nat.not_le.mpr hs), if_neg hclash]

end

/-! ## EVENT-DEFINE (R135, R137) -/

/-- The event that EVENT-DEFINE makes, DEFINED as yet. -/
def madeEvent (p : EventArgs) (s : State) : Event :=
  ⟨p.channel, p.open_, p.start, p.stop, p.close, p.price, .defined, purchasersFound s p.event p.start⟩

/-- The event that EVENT-DEFINE writes, in the state its minutes give. -/
def definedEvent (p : EventArgs) (s : State) : Event := { madeEvent p s with state := stateGiven (madeEvent p s) (minuteOf s) }

/-- The notice of an event defined, at the clock of the state it was defined in. -/
def definedNotice (p : EventArgs) (s t : State) : State :=
  notice nkEventState false
    (u8 p.event ++ u8 p.channel ++ u32 p.start ++ u32 p.stop ++ u8 (eventStateNum ((eventOf s p.event).map (·.state)))
      ++ u8 (eventStateNum (some (definedEvent p s).state)) ++ [0] ++ u16 (purchasersFound s p.event p.start).length
      ++ opt 4 (s.time.clock.map (·.1))) t

/-- An event DEFINED is moved: its overlay is set where it is then SHOWING. -/
theorem moveEvent_defined {v : Event} (h : v.state = .defined) (e : Nat) (new : EventState) (s : State) : moveEvent e v new s
    = if new = .showing then setOverlay v.channel (Fin.ofNat 16 e) (setEvent e (some { v with state := new }) s)
      else setEvent e (some { v with state := new }) s := by
  unfold moveEvent
  rw [h]
  by_cases hn : new = .showing <;> simp [hn]

/-- EVENT-DEFINE that passes the checks. -/
theorem orderEventDefine_eq {p : EventArgs} {s : State} (h : eventCheck p s = none) : orderEventDefine p s
    = answer .ok (eventBytes (definedEvent p s)) (eventNotice p.event (madeEvent p s) ((eventOf s p.event).map (·.state))
      (some (definedEvent p s).state) 0 (handOff (if (definedEvent p s).state = .showing then
          setOverlay p.channel (Fin.ofNat 16 p.event) (setEvent p.event (some (definedEvent p s)) s)
        else setEvent p.event (some (definedEvent p s)) s))) := by
  have hmove : moveEvent p.event (madeEvent p s) (definedEvent p s).state s = if (definedEvent p s).state = .showing then
      setOverlay p.channel (Fin.ofNat 16 p.event) (setEvent p.event (some (definedEvent p s)) s)
    else setEvent p.event (some (definedEvent p s)) s := moveEvent_defined rfl ..
  unfold orderEventDefine
  rw [h]
  rw [← hmove]
  rfl

section
variable {tag : Byte} {p : EventArgs} {s : State} (q : Quiet s) (w : Working s)
include q w

/-- EVENT-DEFINE that fails a check is refused. -/
theorem eventDefine_refused {code : StatusCode} (h : eventCheck p s = some code) :
    Answers (.eventDefine tag p) s s tag (.eventDefine p) code [] := by
  refine answers_of rfl q w q.inFlight ?_
  show orderEventDefine p _ = _
  unfold orderEventDefine
  rw [show eventCheck p (taken tag (.eventDefine p) s) = some code from h]
  rfl

/-- EVENT-DEFINE that passes writes the event, sets its overlay where it is SHOWING, and hands its channel on. -/
theorem exec_eventDefine (h : eventCheck p s = none) {t : State}
    (ht : handOff (if (definedEvent p s).state = .showing then setOverlay p.channel (Fin.ofNat 16 p.event)
        (taken tag (.eventDefine p) (setEvent p.event (some (definedEvent p s)) s))
      else taken tag (.eventDefine p) (setEvent p.event (some (definedEvent p s)) s)) = t) :
    exec (.eventDefine tag p) s = .next (kick (answer .ok (eventBytes (definedEvent p s)) (definedNotice p s t))) := by
  have hline : LinePlant (taken tag (.eventDefine p) (setEvent p.event (some (definedEvent p s)) s)) t := by
    rw [← ht]
    refine LinePlant.trans ?_ (handOff_line _)
    split
    · exact changeClass_line ..
    · exact .refl _
  have htime : t.time = s.time := by
    obtain ⟨l, pl, rfl⟩ := hline
    rfl
  have hnotice : eventNotice p.event (madeEvent p s) ((eventOf s p.event).map (·.state)) (some (definedEvent p s).state) 0 t
      = definedNotice p s t := by
    unfold eventNotice definedNotice
    rw [htime]
    rfl
  rw [exec_working rfl q w]
  show Host.Outcome.next (kick (orderEventDefine p _)) = _
  rw [orderEventDefine_eq (by exact h), ← hnotice, ← ht]
  rfl

end

/-- The hand-off leaves the channels and the tier table. -/
theorem handOff_keeps (s : State) : (handOff s).lineup.map = s.lineup.map ∧ (handOff s).lineup.table = s.lineup.table := by
  unfold handOff
  split
  · obtain ⟨pl, h⟩ := rederiveServed_plant { s with lineup.changed := false }
    rw [h]
    exact ⟨rfl, rfl⟩
  · exact ⟨rfl, rfl⟩

/-- The entry of a channel whose overlay an event sets. -/
def overlaid (e : Fin 16) (c : Channel) : Channel := { c with overlay := some e, eff := .ppv e }

/-- The channels and the tier table after the overlay of one has been set and handed on. -/
theorem handOff_setOverlay {dirty : Bool} {s : State} (hs : SoundAt dirty s) {c : Nat} (h1 : 1 ≤ c) (h2 : c ≤ 96) (e : Fin 16) :
    (handOff (setOverlay c e s)).lineup.map = s.lineup.map.set (c - 1) (overlaid e (chan s c))
      ∧ (handOff (setOverlay c e s)).lineup.table = tierTableOf (handOff (setOverlay c e s)).lineup.map := by
  obtain ⟨hm, ht⟩ := handOff_keeps (setOverlay c e s)
  have hset : setOverlay c e s = changeClass c (fun x => { x with overlay := some e }) s := rfl
  rw [hm, ht, hset, changeClass_eq hs h1 h2]
  exact ⟨rfl, rfl⟩

/-- A channel other than the one whose entry is written. -/
theorem chan_of_set_other {s t : State} {c : Nat} {e : Channel} (ht : t.lineup.map = s.lineup.map.set (c - 1) e) (h1 : 1 ≤ c)
    {d : Nat} (hd : d ≠ c) (h1d : 1 ≤ d) : chan t d = chan s d := by
  unfold chan
  rw [ht, List.getElem?_set_ne (by omega)]

/-! ## EVENT-REMOVE (R142) -/

/-- An event slot past the last is EMPTY. -/
theorem eventOf_none {s : State} (h : s.events.length = 16) {e : Nat} (he : 15 < e) : eventOf s e = none := by
  unfold eventOf
  rw [List.getElem?_eq_none (by omega)]
  rfl

section
variable {s : State} {e : Nat}

/-- EVENT-REMOVE of an EMPTY slot. -/
theorem orderEventRemove_empty (h : eventOf s e = none) {tag : Byte} : handOver (.eventRemove e) (taken tag (.eventRemove e) s)
    = answer .badArg [] (taken tag (.eventRemove e) s) := by
  show orderEventRemove e _ = _
  unfold orderEventRemove
  rw [show eventOf (taken tag (.eventRemove e) s) e = none from h]
  rfl

variable {v : Event} (hv : eventOf s e = some v)
include hv

/-- EVENT-REMOVE of an event ON_SALE or SHOWING. -/
theorem orderEventRemove_offered (ho : onOffer v = true) {tag : Byte} :
    handOver (.eventRemove e) (taken tag (.eventRemove e) s) = answer .state [] (taken tag (.eventRemove e) s) := by
  show orderEventRemove e _ = _
  unfold orderEventRemove
  rw [show eventOf (taken tag (.eventRemove e) s) e = some v from hv]
  exact if_pos ho

/-- EVENT-REMOVE of any other event empties the slot and reports it. -/
theorem orderEventRemove_held (ho : ¬ onOffer v = true) : orderEventRemove e s
    = answer .ok (eventBytes v) (eventNotice e v (some v.state) none 3 (setEvent e none s)) := by
  unfold orderEventRemove
  rw [hv]
  exact if_neg ho

end

/-- The notice of an event removed (R143). -/
theorem eventNotice_removed (e : Nat) (v : Event) (s : State) : eventNotice e v (some v.state) none 3 s
    = notice nkEventState false (u8 e ++ u8 v.channel ++ u32 v.start ++ u32 v.stop ++ u8 (eventStateNum (some v.state)) ++ [0, 3]
      ++ u16 v.purchasers.length ++ opt 4 (s.time.clock.map (·.1))) s := by
  have hpair : u8 (eventStateNum none) ++ u8 3 = [0, 3] := by decide
  unfold eventNotice
  rw [← hpair, ← List.append_assoc (u8 e ++ u8 v.channel ++ u32 v.start ++ u32 v.stop ++ u8 (eventStateNum (some v.state)))]

/-- Settles O39: the checks of EVENT-DEFINE in their order, the event written, and EVENT-REMOVE by the slot. -/
theorem eventsAreDefinedAndRemoved : Obligations.EventsAreDefinedAndRemoved := by
  refine ⟨fun tag p s q hs w => ?_, fun tag e s q hs w => ?_⟩
  · intro refused now offered inOrder clash found before after v told reply named
    refine ⟨fun hn => eventDefine_refused q w (eventCheck_unnamed hn),
      fun hn ho => eventDefine_refused q w (eventCheck_onOffer hn ((slot_onOffer_iff s p.event).mpr ho)), fun hn ho => ?_⟩
    have hoff : ¬ (eventOf s p.event).any onOffer = true := fun hk => by
      obtain ⟨x, hx, hxo⟩ := (slot_onOffer_iff s p.event).mp hk
      exact ho x hx hxo
    refine ⟨fun hm => eventDefine_refused q w (eventCheck_misfit hn hoff hm), fun hin hnow hc => ?_⟩
    have hfits := eventCheck_fits hn hoff hin hnow hc
    refine ⟨fun hcan => ?_, fun hcan hlen => ?_, fun hcan hlen => ?_⟩
    · rw [if_pos hcan] at hfits
      exact eventDefine_refused q w hfits
    · rw [if_neg (Bool.eq_false_iff.mp hcan), if_pos hlen] at hfits
      exact eventDefine_refused q w hfits
    · rw [if_neg (Bool.eq_false_iff.mp hcan), if_neg (Nat.not_lt.mpr hlen)] at hfits
      intro x
      refine ⟨fun hafter => ?_, fun hafter => ?_⟩
      · have hstill : handOff (if (definedEvent p s).state = .showing then setOverlay p.channel (Fin.ofNat 16 p.event)
            (taken tag (.eventDefine p) (setEvent p.event (some (definedEvent p s)) s))
          else taken tag (.eventDefine p) (setEvent p.event (some (definedEvent p s)) s)) = taken tag (.eventDefine p) x := by
          rw [if_neg (by exact hafter), handOff_none (by exact hs.handed)]
          rfl
        have hnotice : definedNotice p s (taken tag (.eventDefine p) x) = taken tag (.eventDefine p) (definedNotice p s x) :=
          notice_taken ..
        have hfree : (definedNotice p s x).link.inFlight = none := by
          exact (notice_inFlight ..).trans q.inFlight
        have hexec := exec_eventDefine q w hfits hstill
        rw [hnotice, answer_taken hfree] at hexec
        exact hexec
      · intro u
        obtain ⟨-, hc1, hc2⟩ := id hn
        have hx : Sound (taken tag (.eventDefine p) x) :=
          sound_taken (setEvent_sound p.event _ hs) ⟨q.inFlight, q.waiting, q.noReset, q.room⟩
        obtain ⟨hmap, htable⟩ := handOff_setOverlay hx hc1 hc2 (Fin.ofNat 16 p.event)
        have hchan : chan u p.channel = overlaid (Fin.ofNat 16 p.event) (chan s p.channel) :=
          chan_of_set hs.lineup.1 hc1 hc2 hmap
        have hset : handOff (if (definedEvent p s).state = .showing then setOverlay p.channel (Fin.ofNat 16 p.event)
            (taken tag (.eventDefine p) (setEvent p.event (some (definedEvent p s)) s))
          else taken tag (.eventDefine p) (setEvent p.event (some (definedEvent p s)) s)) = u := by
          rw [if_pos (by exact hafter)]
          rfl
        refine ⟨exec_eventDefine q w hfits hset, ?_, ?_, fun c hc h1 => ?_, htable⟩
        · rw [hchan]
          rfl
        · rw [hchan]
          rfl
        · exact chan_of_set_other (s := s) hmap hc1 hc h1
  · intro refused
    refine ⟨fun h => ?_, fun v hv hoff => ?_, fun v hv h1 h2 => ?_⟩
    · have hnone : eventOf s e = none := h.elim (eventOf_none hs.events) id
      exact answers_of rfl q w q.inFlight (orderEventRemove_empty hnone)
    · exact answers_of rfl q w q.inFlight (orderEventRemove_offered hv ((onOffer_iff v).mpr hoff))
    · have hoff : ¬ onOffer v = true := fun hk => ((onOffer_iff v).mp hk).elim h1 h2
      refine answers_of rfl q w ?_ ?_
      · exact (notice_inFlight ..).trans q.inFlight
      · refine (orderEventRemove_held (s := taken tag (.eventRemove e) s) hv hoff).trans ?_
        refine congrArg (answer .ok (eventBytes v)) ((eventNotice_removed e v _).trans ?_)
        exact notice_taken nkEventState false _ tag (.eventRemove e) (setEvent e none s)

end Sys2Proof.Safety
end

