-- ==== Proofs/DerivedContent.lean ====
section
/-! PROOFS. The content derived for a port (R50), re-derivation (R51, R54, R58), and the hand-off (R5; O38). -/

namespace Sys2Proof.Safety

open Sys2Proof.Machine

/-! ## The bits of a content (R50) -/

/-- The empty set holds no channel. -/
theorem getLsbD_empty (i : Nat) : (0 : PassSet).getLsbD i = false := BitVec.getLsbD_zero

/-- A bit gathered by a walk of a list. -/
theorem getLsbD_foldl {α : Type} {i : Nat} {f : PassSet → α → PassSet} {b : α → Bool}
    (h : ∀ a x, (f a x).getLsbD i = (a.getLsbD i || b x)) (l : List α) (a : PassSet) :
    (l.foldl f a).getLsbD i = (a.getLsbD i || l.any b) := by
  induction l generalizing a with
  | nil => rw [List.foldl_nil, List.any_nil, Bool.or_false]
  | cons x l ih => rw [List.foldl_cons, ih, h, List.any_cons, Bool.or_assoc]

/-- A channel stands in the channels of the tiers held where one of those tiers has it. -/
theorem tierChannels_getLsbD (t : TierTable) (tiers : TierSet) (i : Nat) : (tierChannels t tiers).getLsbD i = true
    ↔ ∃ j v, t.tiers[j]? = some v ∧ tiers.getLsbD j = true ∧ v.getLsbD i = true := by
  have one (a : PassSet) (x : PassSet × Nat) : (if tiers.getLsbD x.2 then a ||| x.1 else a).getLsbD i
      = (a.getLsbD i || (tiers.getLsbD x.2 && x.1.getLsbD i)) := by
    cases tiers.getLsbD x.2 <;> simp
  unfold tierChannels
  rw [getLsbD_foldl one, getLsbD_empty, Bool.false_or, List.any_eq_true]
  constructor
  · rintro ⟨⟨v, j⟩, hx, hb⟩
    obtain ⟨hj, hv⟩ := Bool.and_eq_true_iff.mp hb
    exact ⟨j, v, List.mem_zipIdx_iff_getElem?.mp hx, hj, hv⟩
  · rintro ⟨j, v, hx, hj, hv⟩
    exact ⟨(v, j), List.mem_zipIdx_iff_getElem?.mpr hx, Bool.and_eq_true_iff.mpr ⟨hj, hv⟩⟩

/-- An entry of the showing-event map lists a channel for an event that an account has bought. -/
def listsBought (s : State) (account i : Nat) (x : Option Nat × Nat) : Bool :=
  decide (x.1 = some (i + 1)) && (eventOf s x.2).any (fun v => v.purchasers.contains account)

/-- The channels of one entry of the showing-event map (R50). -/
def boughtStep (s : State) (account : Nat) (a : PassSet) (x : Option Nat × Nat) : PassSet :=
  match x.1, eventOf s x.2 with
  | some c, some e => if e.purchasers.contains account then a ||| channelBit c else a
  | _, _ => a

/-- The bit that one entry of the showing-event map adds. -/
theorem boughtStep_getLsbD (s : State) (account : Nat) {i : Nat} (h : i < 96) (a : PassSet) (x : Option Nat × Nat) :
    (boughtStep s account a x).getLsbD i = (a.getLsbD i || listsBought s account i x) := by
  obtain ⟨y, j⟩ := x
  unfold boughtStep listsBought
  cases y with
  | none => simp
  | some c =>
    cases eventOf s j with
    | none => simp
    | some v =>
      by_cases hb : account ∈ v.purchasers <;> simp [hb, channelBit_getLsbD h]

/-- A channel stands in the channels of the events bought where the showing-event map lists it for one of them. -/
theorem eventChannels_getLsbD (s : State) (account : Nat) {i : Nat} (h : i < 96) : (eventChannels s account).getLsbD i = true
    ↔ ∃ e v, s.lineup.table.showing[e]? = some (some (i + 1)) ∧ eventOf s e = some v ∧ v.purchasers.contains account = true := by
  have hfold : eventChannels s account = s.lineup.table.showing.zipIdx.foldl (boughtStep s account) 0 := rfl
  rw [hfold, getLsbD_foldl (boughtStep_getLsbD s account h), getLsbD_empty, Bool.false_or, List.any_eq_true]
  constructor
  · rintro ⟨⟨y, e⟩, hx, hb⟩
    obtain ⟨hy, hv⟩ := Bool.and_eq_true_iff.mp hb
    obtain ⟨v, hv, hc⟩ := Option.any_eq_true _ _ |>.mp hv
    have hy : y = some (i + 1) := of_decide_eq_true hy
    subst hy
    exact ⟨e, v, List.mem_zipIdx_iff_getElem?.mp hx, hv, hc⟩
  · rintro ⟨e, v, hx, hv, hc⟩
    refine ⟨(some (i + 1), e), List.mem_zipIdx_iff_getElem?.mpr hx, Bool.and_eq_true_iff.mpr ⟨decide_eq_true rfl, ?_⟩⟩
    exact (Option.any_eq_true _ _).mpr ⟨v, hv, hc⟩

/-! ## The channels passed, by the effective class (R50) -/

section
variable {dirty : Bool} {s : State} (hs : SoundAt dirty s) {i : Nat} {x : Channel} (hx : s.lineup.map[i]? = some x)
include hs hx

/-- The FREE set has the channels of class FREE. -/
theorem free_getLsbD : s.lineup.table.free.getLsbD i = decide (x.eff = .base .free) := by
  obtain ⟨-, -, -, h⟩ := sound_tableFollows hs
  exact Bool.eq_iff_iff.mpr ((h i x hx).1.trans decide_eq_true_iff.symm)

/-- The channels of the tiers held have those whose tier is held. -/
theorem tiers_getLsbD (tiers : TierSet) : (tierChannels s.lineup.table tiers).getLsbD i = true
    ↔ ∃ t : Fin 16, x.eff = .base (.tier t) ∧ tiers.getLsbD t.val = true := by
  obtain ⟨-, hlen, -, h⟩ := sound_tableFollows hs
  obtain ⟨-, htier, -⟩ := h i x hx
  rw [tierChannels_getLsbD]
  constructor
  · rintro ⟨j, v, hv, hj, hb⟩
    have hlt : j < 16 := by
      have := (List.getElem?_eq_some_iff.mp hv).1
      omega
    exact ⟨⟨j, hlt⟩, (htier ⟨j, hlt⟩).mp ⟨v, hv, hb⟩, hj⟩
  · rintro ⟨t, ht, hb⟩
    obtain ⟨v, hv, hvb⟩ := (htier t).mpr ht
    exact ⟨t.val, v, hv, hb, hvb⟩

/-- The channels of the events bought have none of another class than PPV. -/
theorem events_getLsbD (account : Nat) (h : (eventChannels s account).getLsbD i = true) : ∃ e : Fin 16, x.eff = .ppv e
    ∧ (eventOf s e.val).any (fun v => v.purchasers.contains account) = true := by
  obtain ⟨-, -, hlen, hall⟩ := sound_tableFollows hs
  obtain ⟨-, -, hshow, -⟩ := hall i x hx
  obtain ⟨e, v, he, hv, hc⟩ := (eventChannels_getLsbD s account (map_index_lt hs.lineup.1 hx)).mp h
  have hlt : e < 16 := by
    have := (List.getElem?_eq_some_iff.mp he).1
    omega
  exact ⟨⟨e, hlt⟩, (hshow ⟨e, hlt⟩).1 he, (Option.any_eq_true _ _).mpr ⟨v, hv, hc⟩⟩

/-- The first channel of an event is passed to the accounts that have bought it. -/
theorem firstEvent_getLsbD (account : Nat) {e : Fin 16} (he : x.eff = .ppv e)
    (hfirst : ∀ (j : Nat) (y : Channel), s.lineup.map[j]? = some y → j < i → y.eff ≠ .ppv e) :
    (eventChannels s account).getLsbD i = (eventOf s e.val).any (fun v => v.purchasers.contains account) := by
  have hshow : s.lineup.table.showing[e.val]? = some (some (i + 1)) := by
    rw [hs.classes.2, tierTableOf_showing, channelOfClass_eq.mpr ⟨i, x, rfl, hx, he, hfirst⟩]
  refine Bool.eq_iff_iff.mpr ⟨fun h => ?_, fun h => ?_⟩
  · obtain ⟨e', he', hb⟩ := events_getLsbD hs hx account h
    rw [he] at he'
    cases he'
    exact hb
  · obtain ⟨v, hv, hc⟩ := (Option.any_eq_true _ _).mp h
    exact (eventChannels_getLsbD s account (map_index_lt hs.lineup.1 hx)).mpr ⟨e.val, v, hshow, hv, hc⟩

end

section
variable {s : State} (segment : Nat) {slot : Nat} {u : Subscriber} (h : tget s.subs slot = some u)
include h

/-- The content of an ACTIVE slot's port. -/
theorem deriveContent_active (hu : u.state = .active) : deriveContent s segment (some slot)
    = ⟨true, (s.lineup.table.free ||| tierChannels s.lineup.table u.tiers ||| eventChannels s u.account)
      &&& ~~~ blackedOut s (zoneOf s segment)⟩ := by
  unfold deriveContent
  rw [Option.bind_some, h]
  dsimp only
  rw [hu]

/-- The content of a SUSPENDED slot's port. -/
theorem deriveContent_suspended (hu : u.state = .suspended) : deriveContent s segment (some slot)
    = ⟨true, s.lineup.table.free &&& ~~~ blackedOut s (zoneOf s segment)⟩ := by
  unfold deriveContent
  rw [Option.bind_some, h]
  dsimp only
  rw [hu]

/-- The content of a DISCONNECTED slot's port. -/
theorem deriveContent_disconnected (hu : u.state = .disconnected) : deriveContent s segment (some slot) = ⟨false, 0⟩ := by
  unfold deriveContent
  rw [Option.bind_some, h]
  dsimp only
  rw [hu]
  rfl

end

/-- A channel passed outside the blackouts. -/
theorem getLsbD_lit (a out : PassSet) {i : Nat} (h : i < 96) : (a &&& ~~~ out).getLsbD i = (!out.getLsbD i && a.getLsbD i) := by
  rw [BitVec.getLsbD_and, BitVec.getLsbD_not, decide_eq_true h, Bool.true_and, Bool.and_comm]

section
variable {dirty : Bool} {s : State} (hs : SoundAt dirty s) (segment : Nat) {slot : Nat} {u : Subscriber}
  (h : tget s.subs slot = some u) {i : Nat} {x : Channel} (hx : s.lineup.map[i]? = some x)
include hs h hx

/-- A SUSPENDED slot passes the FREE channels outside the blackouts. -/
theorem suspended_passes (hu : u.state = .suspended) : (deriveContent s segment (some slot)).pass.getLsbD i
    = (!x.zones.getLsbD (zoneOf s segment) && decide (x.eff = .base .free)) := by
  have hout : (blackedOut s (zoneOf s segment)).getLsbD i = x.zones.getLsbD (zoneOf s segment) :=
    channelsWhere_entry _ hs.lineup.1 hx
  rw [deriveContent_suspended segment h hu]
  dsimp only
  rw [getLsbD_lit _ _ (map_index_lt hs.lineup.1 hx), hout, free_getLsbD hs hx]

/-- An ACTIVE slot passes, outside the blackouts, the FREE channels, those of its tiers and those of the events bought. -/
theorem active_passes (hu : u.state = .active) : (deriveContent s segment (some slot)).pass.getLsbD i
    = (!x.zones.getLsbD (zoneOf s segment) && (decide (x.eff = .base .free)
      || (tierChannels s.lineup.table u.tiers).getLsbD i || (eventChannels s u.account).getLsbD i)) := by
  have hout : (blackedOut s (zoneOf s segment)).getLsbD i = x.zones.getLsbD (zoneOf s segment) :=
    channelsWhere_entry _ hs.lineup.1 hx
  rw [deriveContent_active segment h hu]
  dsimp only
  rw [getLsbD_lit _ _ (map_index_lt hs.lineup.1 hx), hout, BitVec.getLsbD_or, BitVec.getLsbD_or, free_getLsbD hs hx]

omit h in
/-- A channel of another class than a tier's is in no tier. -/
theorem tiers_none (tiers : TierSet) (ht : ∀ t, x.eff ≠ .base (.tier t)) : (tierChannels s.lineup.table tiers).getLsbD i = false := by
  rw [Bool.eq_false_iff]
  intro hb
  obtain ⟨t, he, -⟩ := (tiers_getLsbD hs hx tiers).mp hb
  exact ht t he

omit h in
/-- A channel of a tier is passed to those who hold it. -/
theorem tiers_held (tiers : TierSet) {t : Fin 16} (he : x.eff = .base (.tier t)) :
    (tierChannels s.lineup.table tiers).getLsbD i = tiers.getLsbD t.val := by
  refine Bool.eq_iff_iff.mpr ⟨fun hb => ?_, fun hb => (tiers_getLsbD hs hx tiers).mpr ⟨t, he, hb⟩⟩
  obtain ⟨t', he', hb⟩ := (tiers_getLsbD hs hx tiers).mp hb
  rw [he] at he'
  cases he'
  exact hb

omit h in
/-- A channel of another class than PPV is in no event. -/
theorem events_none (account : Nat) (he : ∀ e, x.eff ≠ .ppv e) : (eventChannels s account).getLsbD i = false := by
  rw [Bool.eq_false_iff]
  intro hb
  obtain ⟨e, he', -⟩ := events_getLsbD hs hx account hb
  exact he e he'

end

/-! ## A port re-derived (R51, R54, R58) -/

/-- The park conditions of a port of a loaded tap (R58). -/
theorem parkHoldsAt_iff {s : State} {i : Nat} {t : Tap} (h : tget s.plant.taps i = some t) :
    parkHoldsAt s i = true ↔ t.unreachable ≠ none ∨ serviceOf s t.segment ≠ .lit := by
  unfold parkHoldsAt parkHolds
  rw [h]
  dsimp only
  rw [Bool.or_eq_true, Option.isSome_iff_ne_none, decide_eq_true_iff]

section
variable {s : State} {p : Nat × Nat} {r : Port} (hr : portOf s p = some r) (k : PClass)
include hr

/-- A port IN_SYNC is made PENDING or parked. -/
theorem markPort_inSync (h : r.sync = .inSync) : markPort k p s = pend k p s := by
  unfold markPort
  rw [hr]
  dsimp only
  rw [h]

/-- A PENDING port made equal leaves its queue. -/
theorem markPort_pending_equal (h : r.sync = .pending) (he : r.confirmed = some r.desired) : markPort k p s
    = leaveQueues p (modPort p (fun r => { r with sync := .inSync, cls := none, attempts := 0 }) s) := by
  unfold markPort
  rw [hr]
  dsimp only
  rw [h]
  exact if_pos (decide_eq_true he)

/-- A PENDING port of class REFRESH marked URGENT changes its queue. -/
theorem markPort_pending_urgent (h : r.sync = .pending) (he : ¬ r.confirmed = some r.desired) (hc : r.cls = some .refresh)
    (hk : k = .urgent) : markPort k p s
      = joinQueue .urgent p (leaveQueues p (modPort p (fun r => { r with cls := some .urgent }) s)) := by
  unfold markPort
  rw [hr]
  dsimp only
  rw [h]
  dsimp only
  rw [if_neg (by simpa using he)]
  exact if_pos (by simp [hc, hk])

/-- Any other PENDING port stays in its queue. -/
theorem markPort_pending_stays (h : r.sync = .pending) (he : ¬ r.confirmed = some r.desired)
    (hc : r.cls ≠ some .refresh ∨ k = .refresh) : markPort k p s = s := by
  unfold markPort
  rw [hr]
  dsimp only
  rw [h]
  dsimp only
  rw [if_neg (by simpa using he)]
  refine if_neg ?_
  rcases hc with hc | hc <;> simp [hc]

/-- A SENT port takes the class, where it had none or the class is URGENT. -/
theorem markPort_sent (h : r.sync = .sent) : markPort k p s
    = modPort p (fun r => { r with cls := if r.cls = none ∨ k = .urgent then some k else r.cls }) s := by
  unfold markPort
  rw [hr]
  dsimp only
  rw [h]
  simp only [Bool.or_eq_true, decide_eq_true_eq]

/-- A PARKED or HELD port stays so. -/
theorem markPort_stays (h : r.sync = .parked ∨ r.sync = .held) : markPort k p s = s := by
  unfold markPort
  rw [hr]
  dsimp only
  rcases h with h | h <;> rw [h]

/-- A DROPPED port made equal is IN_SYNC, and keeps its attempts. -/
theorem markPort_dropped_equal (h : r.sync = .dropped) (he : r.confirmed = some r.desired) :
    markPort k p s = modPort p (fun r => { r with sync := .inSync, cls := none }) s := by
  unfold markPort
  rw [hr]
  dsimp only
  rw [h]
  exact if_pos (decide_eq_true he)

/-- Any other DROPPED port is made PENDING or parked. -/
theorem markPort_dropped (h : r.sync = .dropped) (he : ¬ r.confirmed = some r.desired) : markPort k p s = pend k p s := by
  unfold markPort
  rw [hr]
  dsimp only
  rw [h]
  exact if_neg (by simpa using he)

end

/-- A port re-derived to another content takes it, and is marked (R51). -/
theorem rederive_changes {s : State} {p : Nat × Nat} {t : Tap} {r : Port} (ht : tget s.plant.taps p.1 = some t)
    (hr : portOf s p = some r) (k : PClass) (h : deriveContent s t.segment r.slot ≠ r.desired) : rederive k p s
      = markPort k p (modPort p (fun x => { x with desired := deriveContent s t.segment r.slot }) s) := by
  unfold rederive
  rw [ht, hr]
  exact if_neg h

/-- A port re-derived to the content it has stays. -/
theorem rederive_same {s : State} {p : Nat × Nat} {t : Tap} {r : Port} (ht : tget s.plant.taps p.1 = some t)
    (hr : portOf s p = some r) (k : PClass) (h : deriveContent s t.segment r.slot = r.desired) : rederive k p s = s := by
  unfold rederive
  rw [ht, hr]
  exact if_pos h

/-! ## The hand-off of changed channels (R5, R51) -/

/-- A bound slot is ACTIVE or SUSPENDED. -/
def slotServed (s : State) (n : Nat) : Bool := (tget s.subs n).any (fun u => u.state ≠ .disconnected)

/-- A port is due at a hand-off: its slot is served. -/
def handOffDue (s t : State) (p : Nat × Nat) : Bool := ((portOf t p).bind (·.slot)).any (slotServed s)

/-- A port is served by the slots that stand throughout. -/
theorem portServed_eq {s t : State} (h : t.subs = s.subs) (p : Nat × Nat) : portServed t p = handOffDue s t p := by
  unfold portServed handOffDue slotServed
  cases (portOf t p).bind (·.slot) with
  | none => rfl
  | some n =>
    rw [Option.any_some, ← h]
    dsimp only
    cases tget t.subs n <;> rfl

/-- The hand-off walks the ports, and re-derives those due. -/
theorem rederiveServed_walk (s : State) : rederiveServed s
    = (portsOf (tapIndices s)).foldl (fun t p => if handOffDue s t p then rederive .refresh p t else t) s := by
  have fold (l : List (Nat × Nat)) (t : State) (h : t.subs = s.subs) :
      l.foldl (fun t p => if portServed t p then rederive .refresh p t else t) t
        = l.foldl (fun t p => if handOffDue s t p then rederive .refresh p t else t) t := by
    induction l generalizing t with
    | nil => rfl
    | cons p l ih =>
      rw [List.foldl_cons, List.foldl_cons, portServed_eq h]
      refine ih _ ?_
      split
      · obtain ⟨pl, hp⟩ := rederive_plant .refresh p t
        rw [hp]
        exact h
      · exact h
  exact fold _ s rfl

/-- What the hand-off has made of the ports of a list: the taps keep their segments, and each port of a served slot has the
content derived. -/
structure HandedOn (s : State) (l : List (Nat × Nat)) (t : State) : Prop where
  plant : PlantOnly s t
  segments : ∀ i, (tget t.plant.taps i).map (·.segment) = (tget s.plant.taps i).map (·.segment)
  derived : ∀ p ∈ l, ∀ x r n, tget t.plant.taps p.1 = some x → portOf t p = some r → r.slot = some n → slotServed s n = true →
    r.desired = deriveContent s x.segment (some n)

/-- A re-derived port leaves the segments of the taps. -/
theorem rederive_segments (k : PClass) (p : Nat × Nat) (s : State) (i : Nat) :
    (tget (rederive k p s).plant.taps i).map (·.segment) = (tget s.plant.taps i).map (·.segment) := by
  have modPort_segments (f : Port → Port) (t : State) :
      (tget (modPort p f t).plant.taps i).map (·.segment) = (tget t.plant.taps i).map (·.segment) := by
    rw [tget_modPort]
    split
    · rename_i h
      rw [Option.map_map, h]
      rfl
    · rfl
  unfold rederive
  split
  · dsimp only
    split
    · rfl
    · obtain ⟨f, he, -⟩ := markPort_moved k p (modPort p (fun r => { r with desired := deriveContent s _ _ }) s)
      rw [he, modPort_segments, modPort_segments]
  · rfl

/-- One port more is handed on. -/
theorem HandedOn.snoc {s t : State} {l : List (Nat × Nat)} (h : HandedOn s l t) (p : Nat × Nat) :
    HandedOn s (l ++ [p]) (if handOffDue s t p then rederive .refresh p t else t) := by
  by_cases hd : handOffDue s t p = true
  · rw [if_pos hd]
    refine ⟨h.plant.trans (rederive_plant ..), fun i => (rederive_segments ..).trans (h.segments i), ?_⟩
    obtain ⟨n₀, hn₀, -⟩ := (Option.any_eq_true _ _).mp hd
    obtain ⟨r₀, hr₀, hs₀⟩ := Option.bind_eq_some_iff.mp hn₀
    obtain ⟨x₀, hx₀, -⟩ := Option.bind_eq_some_iff.mp hr₀
    obtain ⟨⟨r₁, hr₁, hd₁, hs₁⟩, hothers⟩ := rederive_port .refresh p hx₀ hr₀
    intro q hq x r n hx hr hn hserved
    have hseg := rederive_segments .refresh p t q.1
    rw [hx] at hseg
    by_cases hpq : p = q
    · subst hpq
      rw [hr₁] at hr
      cases hr
      rw [hx₀] at hseg
      have hsame : deriveContent t x₀.segment r₀.slot = deriveContent s x₀.segment r₀.slot := by
        obtain ⟨pl, rfl⟩ := h.plant
        rfl
      have hxseg : x.segment = x₀.segment := Option.some.inj hseg
      rw [hd₁, hsame, hxseg, ← hn, hs₁]
    · have hql : q ∈ l := (List.mem_append.mp hq).resolve_right (by simpa using Ne.symm hpq)
      rw [hothers q hpq] at hr
      obtain ⟨y, hy, hyseg⟩ := Option.map_eq_some_iff.mp hseg.symm
      have hyx : x.segment = y.segment := hyseg.symm
      rw [hyx]
      exact h.derived q hql y r n hy hr hn hserved
  · rw [if_neg hd]
    refine ⟨h.plant, h.segments, fun q hq x r n hx hr hn hserved => ?_⟩
    rcases List.mem_append.mp hq with hq | hq
    · exact h.derived q hq x r n hx hr hn hserved
    · rw [List.mem_singleton.mp hq] at hr
      refine absurd ?_ hd
      unfold handOffDue
      rw [hr, Option.bind_some, hn, Option.any_some]
      exact hserved

/-- The hand-off re-derives the port of every served slot. -/
theorem handedOn_rederiveServed (s : State) : HandedOn s (portsOf (tapIndices s)) (rederiveServed s) := by
  rw [rederiveServed_walk]
  generalize portsOf (tapIndices s) = l
  induction l using List.reverseRecOn with
  | nil => exact ⟨.refl s, fun _ => rfl, by simp⟩
  | append_singleton l p ih =>
    rw [List.foldl_append]
    exact ih.snoc p

/-- The hand-off leaves the loaded taps. -/
theorem HandedOn.loaded {s t : State} {l : List (Nat × Nat)} (h : HandedOn s l t) {i : Nat} {x : Tap}
    (hx : tget t.plant.taps i = some x) : i ∈ tapIndices s := by
  have hseg := h.segments i
  rw [hx] at hseg
  refine tget_mem_keys _ _ (fun hn => ?_)
  rw [hn] at hseg
  cases hseg

/-! ## The marking of a re-derived port (R54, R58) -/

/-- A port made PENDING or parked, by the park conditions of its tap. -/
theorem pend_modPort {s : State} {p : Nat × Nat} {t : Tap} (ht : tget s.plant.taps p.1 = some t) (k : PClass) (f : Port → Port) :
    ((t.unreachable ≠ none ∨ serviceOf s t.segment ≠ .lit) → pend k p (modPort p f s)
      = modPort p (fun r => { f r with sync := .parked, cls := none }) s)
    ∧ (¬ (t.unreachable ≠ none ∨ serviceOf s t.segment ≠ .lit) → pend k p (modPort p f s)
      = joinQueue k p (modPort p (fun r => { f r with sync := .pending, cls := some k }) s)) := by
  unfold pend
  rw [parkHoldsAt_modPort, modPort_modPort, modPort_modPort]
  refine ⟨fun h => if_pos ((parkHoldsAt_iff ht).mpr h), fun h => if_neg (fun hp => h ((parkHoldsAt_iff ht).mp hp))⟩

/-- Settles O38: the bits of a content by the channel's class, the marking of a re-derived port by its state, and the walk of
the hand-off. -/
theorem derivedContentByChannel : Obligations.DerivedContentByChannel := by
  refine ⟨fun segment slot c u s hs hu h1 h2 => ?_, fun k i q t r s ht hr => ?_, fun s => ?_⟩
  · have hx : s.lineup.map[c - 1]? = some (chan s c) := chan_eq hs.lineup.1 h1 h2
    intro content passed dark
    refine ⟨rfl, fun h => deriveContent_disconnected segment hu h, fun h => ⟨?_, suspended_passes hs segment hu hx h⟩,
      fun h => ⟨?_, ?_⟩⟩
    · exact congrArg Content.enable (deriveContent_suspended segment hu h)
    · exact congrArg Content.enable (deriveContent_active segment hu h)
    · have hpass : passed = (!dark && (decide ((chan s c).eff = .base .free)
          || (tierChannels s.lineup.table u.tiers).getLsbD (c - 1) || (eventChannels s u.account).getLsbD (c - 1))) :=
        active_passes hs segment hu hx h
      split
      · rename_i he
        rw [hpass, he, decide_eq_true rfl, Bool.true_or, Bool.true_or, Bool.and_true]
      · rename_i t he
        rw [hpass, tiers_held hs hx _ he, events_none hs hx _ (by simp [he]), he]
        simp
      · rename_i b hfree htier he
        rw [hpass, tiers_none hs hx _ (fun t ht => by rw [he] at ht; cases ht; exact htier t rfl),
          events_none hs hx _ (by simp [he]), he]
        rw [decide_eq_false (fun hb => by cases hb; exact hfree rfl), Bool.or_false, Bool.or_false, Bool.and_false]
      · rename_i e he
        intro hfirst
        have hlow (j : Nat) (y : Channel) (hy : s.lineup.map[j]? = some y) (hj : j < c - 1) : y.eff ≠ .ppv e := by
          have hchan : chan s (j + 1) = y := by
            unfold chan
            rw [Nat.add_sub_cancel, hy]
            rfl
          rw [← hchan]
          exact hfirst (j + 1) (by omega) (by omega)
        rw [hpass, tiers_none hs hx _ (by simp [he]), firstEvent_getLsbD hs hx _ he hlow, he]
        simp
  · intro new equal parks set out join parked pending ends
    have hport : portOf s (i, q) = some r := by
      unfold portOf
      rw [ht]
      exact hr
    refine ⟨fun h => rederive_same ht hport k h, fun h => ?_⟩
    have hmark : rederive k (i, q) s = markPort k (i, q) (set id) := rederive_changes ht hport k h
    have hset : portOf (set id) (i, q) = some { r with desired := new } := by
      show portOf (modPort _ _ s) _ = _
      rw [portOf_modPort, if_pos rfl, hport]
      rfl
    have hpend := pend_modPort (s := s) (p := (i, q)) ht k (fun x => { x with desired := new })
    refine ⟨fun hs => ?_, fun hs he => ?_, fun hs he hc hk => ?_, fun hs he hc => ?_, fun hs => ?_, fun hs => ?_, fun hs he => ?_⟩
    · have hpends : rederive k (i, q) s = pend k (i, q) (set id) := by
        rcases hs with hs | ⟨hs, he⟩
        · rw [hmark, markPort_inSync hset k hs]
        · rw [hmark, markPort_dropped hset k hs he]
      exact ⟨fun hp => hpends.trans (hpend.1 hp), fun hp => hpends.trans (hpend.2 hp)⟩
    · exact hmark.trans ((markPort_pending_equal hset k hs he).trans (congrArg (leaveQueues (i, q)) (modPort_modPort ..)))
    · exact hmark.trans ((markPort_pending_urgent hset k hs he hc hk).trans
        (congrArg (fun u => joinQueue .urgent (i, q) (leaveQueues (i, q) u)) (modPort_modPort ..)))
    · exact hmark.trans (markPort_pending_stays hset k hs he hc)
    · exact hmark.trans ((markPort_sent hset k hs).trans (modPort_modPort ..))
    · exact hmark.trans (markPort_stays hset k hs)
    · exact hmark.trans ((markPort_dropped_equal hset k hs he).trans (modPort_modPort ..))
  · intro served due
    refine ⟨handOff_none, fun h => if_pos h, ?_, fun i q t r n ht hr hq hn hserved => ?_⟩
    · rw [rederiveServed_walk, portsOf, tapIndices, List.flatMap_map]
      rfl
    · have hwalk := handedOn_rederiveServed s
      have hport : portOf (rederiveServed s) (i, q) = some r := by
        unfold portOf
        rw [ht]
        exact hr
      exact hwalk.derived (i, q) (mem_portsOf.mpr ⟨hwalk.loaded ht, hq⟩) t r n ht hport hn hserved

end Sys2Proof.Safety
end

