-- ==== Proofs/RecordCommits.lean ====
section
/-! PROOFS. The commit of a host order's record (R43, R45 to R47, R139, R141, R148; O35). -/

namespace Sys2Proof.Safety

open Sys2Proof.Machine

/-! ## The read-back of a record (R148) -/

/-- A byte programmed. -/
theorem cellGet_cellsAnd : ∀ (bs : List Byte) (m : List Host.Cell) (a i : Nat) (_ : cellsWf m = true) (h : i < bs.length),
    cellGet (cellsAnd m a bs) (a + i) = cellGet m (a + i) &&& bs[i]
  | b :: t, m, a, 0, hm, _ => by
    show cellGet (cellsAnd (cellPut m a (cellGet m a &&& b)) (a + 1) t) a = cellGet m a &&& b
    rw [cellGet_cellsAnd_outside t _ (a + 1) a (by omega)]
    exact cellGet_cellPut_same m 0 a _ hm
  | b :: t, m, a, i + 1, hm, h => by
    have hi : i < t.length := by simpa using h
    have ih := cellGet_cellsAnd t (cellPut m a (cellGet m a &&& b)) (a + 1) i (cellPut_wf a _ hm) hi
    rw [cellsAnd, show a + (i + 1) = a + 1 + i by omega, ih, cellGet_cellPut_other _ _ _ _ (by omega)]
    rfl

/-- A record programmed in an erased slot reads back as it was given. -/
theorem slotBytes_programmed {b : Bank} {slot : Nat} {given : List Byte} (hm : cellsWf b.cells = true)
    (he : slotErased b slot = true) (hl : given.length = 32) :
    slotBytes { b with cells := cellsAnd b.cells (32 * slot) given, append := b.append + 1 } slot = given := by
  have herased (i : Nat) (hi : i < 32) : cellGet b.cells (32 * slot + i) = erasedByte := by
    have hall := List.all_eq_true.mp he (cellGet b.cells (32 * slot + i)) (List.mem_map.mpr ⟨i, List.mem_range.mpr hi, rfl⟩)
    exact of_decide_eq_true hall
  unfold slotBytes cellsRead
  refine List.ext_getElem (by simp [hl]) (fun i h1 hi => ?_)
  rw [List.getElem_map, List.getElem_range, cellGet_cellsAnd given b.cells _ i hm hi, herased i (by omega)]
  exact BitVec.allOnes_and

/-! ## The end of a record's programming (R148, R151) -/

/-- The state while a record of an order in flight is being committed. -/
def committing (tag : Byte) (o : Order) (s : State) : State := taken tag o { s with store.path := .append }

/-- The state with the record that stood alone in the queue committed, and its order no longer in flight. -/
def recordCommitted (k : BankId) (body : List Byte) (s : State) : State :=
  setBank { s with store.queue := [], store.mismatches := 0, store.path := .idle, link.inFlight := none } k
    { bank s k with
      cells := cellsAnd (bank s k).cells (32 * (bank s k).append) (body ++ [0x0F]), append := (bank s k).append + 1 }

/-- What the end of a record's programming meets: a record of the order in flight alone in the queue, its slot erased. -/
structure RecordDue (tag : Byte) (o : Order) (k : BankId) (body : List Byte) (s : State) : Prop where
  waiting  : s.link.waiting = []
  inFlight : s.link.inFlight = some (tagged tag o)
  path     : s.store.path = .append
  queue    : s.store.queue = [.record body .order]
  opened   : openBank s = some k
  length   : body.length = 31
  erased   : slotErased (bank s k) (bank s k).append = true
  memory   : memoryWf s = true
  engine   : s.engine.state = .idle

/-- An idle path with nothing queued and no close under way stays idle. -/
theorem pumpStore_idle {s : State} (hq : s.store.queue = []) (he : s.engine.state = .idle) (n : Nat) : pumpStore (n + 1) s = s := by
  have hstart : startStatement s = s := by
    unfold startStatement
    rw [he]
    rfl
  unfold pumpStore
  rw [hq]
  dsimp only
  rw [hstart]
  split <;> rfl

/-- With nothing queued and no close under way the path falls idle. -/
theorem nextItem_idle {s : State} (hq : s.store.queue = []) (he : s.engine.state = .idle) :
    nextItem s = { s with store.path := .idle } :=
  pumpStore_idle (s := { s with store.path := .idle }) hq he _

/-- A reply joins as a change of the link alone. -/
theorem joinReply_eq (t : TaggedOrder) (code : StatusCode) (body : List Byte) (s : State) : joinReply t code body s = { s with
    link := pumpedLink { s.link with replies := s.link.replies ++ [⟨replyKind t.matter, t.tag, u8 (statusNum code) ++ body⟩] } } := by
  unfold joinReply
  rw [pump_eq]

/-- The state before a record of an order in flight is committed to its producer. -/
theorem committing_recordCommitted {tag : Byte} {o : Order} {k : BankId} {body : List Byte} {s : State}
    (h : RecordDue tag o k body s) : committing tag o (recordCommitted k body s)
      = { advanceAppend k (programBank k (32 * (bank s k).append) (body ++ [0x0F]) s) with
          store.queue := [], store.mismatches := 0 } := by
  unfold committing taken recordCommitted
  rw [← h.path, ← h.inFlight]
  cases k <;> rfl

/-- The path rests: nothing is queued, and no order waits or is in flight. -/
structure Rests (s : State) : Prop where
  queue    : s.store.queue = []
  path     : s.store.path = .idle
  engine   : s.engine.state = .idle
  waiting  : s.link.waiting = []
  inFlight : s.link.inFlight = none

/-- A path at rest is one of the store, the close state and the link alone. -/
theorem Rests.congr {s t : State} (h : Rests s) (hq : t.store.queue = s.store.queue) (hp : t.store.path = s.store.path)
    (he : t.engine = s.engine) (hl : t.link = s.link) : Rests t :=
  ⟨hq.trans h.queue, hp.trans h.path, (congrArg Engine.state he).trans h.engine, (congrArg Link.waiting hl).trans h.waiting,
    (congrArg Link.inFlight hl).trans h.inFlight⟩

/-- What changes the line-up and the plant line alone leaves the path at rest. -/
theorem Rests.of_line {s t : State} (h : Rests s) (hl : LinePlant s t) : Rests t := by
  obtain ⟨l, pl, rfl⟩ := hl
  exact ⟨h.queue, h.path, h.engine, h.waiting, h.inFlight⟩

/-- A notice leaves the path at rest. -/
theorem Rests.notice {s : State} (h : Rests s) (kind : Nat) (urgent : Bool) (body : List Byte) : Rests (notice kind urgent body s) := by
  rw [notice_eq]
  obtain ⟨hw, hf, -⟩ := noticedLink_keeps kind urgent body s.time s.link
  exact ⟨h.queue, h.path, h.engine, hw.trans h.waiting, hf.trans h.inFlight⟩

/-- The commit of a record leaves the path at rest. -/
theorem RecordDue.rests {tag : Byte} {o : Order} {k : BankId} {body : List Byte} {s : State} (h : RecordDue tag o k body s) :
    Rests (recordCommitted k body s) := by
  cases k <;> exact ⟨rfl, rfl, h.engine, h.waiting, rfl⟩

/-- A record committed completes its order: what the order's commit answers, with the path idle again. -/
theorem exec_recordCommit {tag : Byte} {o : Order} {k : BankId} {body voids reply : List Byte} {s t : State}
    (h : RecordDue tag o k body s) (hc : orderCommit (committing tag o (recordCommitted k body s)) = answer .ok reply (committing tag o t))
    (ht : Rests t) :
    exec (.journalRecordProgrammed ⟨none, voids⟩) s = .next (kick (joinReply (tagged tag o) .ok reply t)) := by
  have hread : slotBytes (bank (advanceAppend k (programBank k (32 * (bank s k).append) (body ++ [0x0F]) s)) k) (bank s k).append
      = body ++ [0x0F] := by
    have hb : bank (advanceAppend k (programBank k (32 * (bank s k).append) (body ++ [0x0F]) s)) k
        = { bank s k with
          cells := cellsAnd (bank s k).cells (32 * (bank s k).append) (body ++ [0x0F]), append := (bank s k).append + 1 } := by
      cases k <;> rfl
    rw [hb]
    exact slotBytes_programmed (bank_wf h.memory k) h.erased (by simp [h.length])
  have hanswer : answer .ok reply (committing tag o t) = joinReply (tagged tag o) .ok reply { t with store.path := .append } :=
    answer_taken (by exact ht.inFlight) ..
  have hnext : nextItem (joinReply (tagged tag o) .ok reply { t with store.path := .append }) = joinReply (tagged tag o) .ok reply t := by
    rw [joinReply_eq, joinReply_eq, nextItem_idle (by exact ht.queue) (by exact ht.engine), ← ht.path]
  have hend : recordProgrammed ⟨none, voids⟩ s = joinReply (tagged tag o) .ok reply t := by
    unfold recordProgrammed
    rw [h.path, h.queue, h.opened]
    dsimp only
    rw [show took ⟨none, voids⟩ (body ++ [0x0F]) = body ++ [0x0F] from rfl, if_pos hread, ← committing_recordCommitted h]
    show nextItem (orderCommit _) = _
    rw [hc, hanswer, hnext]
  show Host.Outcome.next (finish (recordProgrammed _ s)) = _
  rw [hend, finish_of_none ((joinReply_queue ..).1.trans ht.waiting)]

/-! ## What a commit does, does not depend on the order in flight nor on the path -/

section
variable (tag : Byte) (o : Order)

theorem pend_committing (k : PClass) (p : Nat × Nat) (s : State) :
    pend k p (committing tag o s) = committing tag o (pend k p s) := by
  have hpark : parkHoldsAt (committing tag o s) p.1 = parkHoldsAt s p.1 := rfl
  unfold pend
  rw [hpark]
  split
  · rfl
  · cases k <;> rfl

theorem markPort_committing (k : PClass) (p : Nat × Nat) (s : State) :
    markPort k p (committing tag o s) = committing tag o (markPort k p s) := by
  have hport : portOf (committing tag o s) p = portOf s p := rfl
  unfold markPort
  rw [hport]
  cases portOf s p with
  | none => rfl
  | some r =>
    dsimp only
    rw [pend_committing]
    cases r.sync with
    | pending =>
      dsimp only
      split
      · rfl
      · split <;> rfl
    | dropped =>
      dsimp only
      split <;> rfl
    | _ => rfl

theorem rederive_committing (k : PClass) (p : Nat × Nat) (s : State) :
    rederive k p (committing tag o s) = committing tag o (rederive k p s) := by
  have htap : tget (committing tag o s).plant.taps p.1 = tget s.plant.taps p.1 := rfl
  have hport : portOf (committing tag o s) p = portOf s p := rfl
  unfold rederive
  rw [htap, hport]
  split
  · rename_i t r _ _
    have hd : deriveContent (committing tag o s) t.segment r.slot = deriveContent s t.segment r.slot := rfl
    dsimp only
    rw [hd]
    split
    · rfl
    · exact markPort_committing tag o k p (modPort p (fun x => { x with desired := deriveContent s t.segment r.slot }) s)
  · rfl

theorem rederiveSlot_committing (slot : Nat) (s : State) :
    rederiveSlot slot (committing tag o s) = committing tag o (rederiveSlot slot s) := by
  have hp : (tget (committing tag o s).subs slot).bind (slotPort (committing tag o s)) = (tget s.subs slot).bind (slotPort s) := rfl
  unfold rederiveSlot
  rw [hp]
  split
  · rfl
  · exact rederive_committing ..

theorem handOff_committing (s : State) : handOff (committing tag o s) = committing tag o (handOff s) := by
  have hwalk (l : List (Nat × Nat)) (t : State) :
      l.foldl (fun s p => if portServed s p then rederive .refresh p s else s) (committing tag o t)
        = committing tag o (l.foldl (fun s p => if portServed s p then rederive .refresh p s else s) t) := by
    induction l generalizing t with
    | nil => rfl
    | cons p l ih =>
      have hs : portServed (committing tag o t) p = portServed t p := rfl
      rw [List.foldl_cons, List.foldl_cons, hs, rederive_committing, ← ih]
      split <;> rfl
  have hc : (committing tag o s).lineup.changed = s.lineup.changed := rfl
  unfold handOff
  rw [hc]
  split
  · exact hwalk (portsOf (tapIndices s)) { s with lineup.changed := false }
  · rfl

theorem changeClass_only_lineup (c : Nat) (f : Channel → Channel) : LineupOnly (changeClass c f) := by
  intro s
  have hold : chan (lineupState s) c = chan s c := rfl
  have hnew (g : Channel → Channel) : chan (modChan c g (lineupState s)) c = chan (modChan c g s) c := rfl
  unfold changeClass
  dsimp only
  rw [hold, hnew]
  split <;> split <;> rfl

theorem changeClass_committing (c : Nat) (f : Channel → Channel) (s : State) :
    changeClass c f (committing tag o s) = committing tag o (changeClass c f s) := by
  rw [changeClass_only_lineup c f (committing tag o s), changeClass_only_lineup c f s]
  rfl

theorem notice_committing (kind : Nat) (urgent : Bool) (body : List Byte) (s : State) :
    notice kind urgent body (committing tag o s) = committing tag o (notice kind urgent body s) := by
  unfold committing
  rw [notice_taken, notice_eq, notice_eq]

end

/-! ## The commit of a SERVICE record (R43, R45 to R47) -/

/-- The index of the tap that holds an address is not touched by a port written. -/
theorem tapAt_modPort (p : Nat × Nat) (f : Port → Port) (a : Nat) (s : State) :
    (tapAt (modPort p f s) a).map (·.1) = (tapAt s a).map (·.1) := by
  have walk (g : Tap → Tap) (hg : ∀ t, (g t).address = t.address) (i : Nat) (l : List (Nat × Tap)) :
      ((tmod l i g).find? (fun t => t.2.address = a)).map (·.1) = (l.find? (fun t => t.2.address = a)).map (·.1) := by
    induction l with
    | nil => rfl
    | cons x l ih =>
      obtain ⟨k, v⟩ := x
      unfold tmod
      split
      · rw [List.find?_cons, List.find?_cons, hg]
        dsimp only
        cases decide (v.address = a) <;> rfl
      · rw [List.find?_cons, List.find?_cons]
        split
        · rfl
        · exact ih
  exact walk (fun t => { t with ports := lmod t.ports p.2 f }) (fun _ => rfl) p.1 s.plant.taps

/-- A table entry written is read back. -/
theorem tget_tset {α : Type} (l : List (Nat × α)) (i : Nat) (x : α) : tget (tset l i x) i = some x := by
  induction l with
  | nil => simp [tset, tget]
  | cons y l ih =>
    obtain ⟨k, v⟩ := y
    unfold tset
    split
    · rw [tget, if_neg (by omega), ih]
    · split <;> rw [tget, if_pos rfl]

/-- The operations of a service order, on the state that its record's commit leaves. -/
theorem orderCommit_service {tag : Byte} {o : Order} (ho : (∀ slot e, o ≠ .purchase slot e) ∧ ∀ e, o ≠ .eventCancel e) (s : State) :
    orderCommit (committing tag o s) = serviceCommit o (committing tag o s) := by
  obtain ⟨hpur, hcan⟩ := ho
  unfold orderCommit
  rw [show (committing tag o s).link.inFlight = some (tagged tag o) from rfl]
  cases o with
  | purchase slot e => exact absurd rfl (hpur slot e)
  | eventCancel e => exact absurd rfl (hcan e)
  | _ => rfl

/-- The state with the port of a subscriber naming its slot, or none. -/
def portNamed (slot : Option Nat) (u : Subscriber) (s : State) : State :=
  match slotPort s u with
  | none => s
  | some q => modPort q (fun r => { r with slot := slot }) s

/-- The port of a bound slot is re-derived. -/
theorem rederiveSlot_bound {s : State} {slot : Nat} {u : Subscriber} (h : tget s.subs slot = some u) : rederiveSlot slot s
    = match tapAt s u.tap with
      | none => s
      | some (j, _) => rederive .urgent (j, u.port) s := by
  unfold rederiveSlot
  rw [h, Option.bind_some, slotPort]
  cases tapAt s u.tap <;> rfl

/-- The subscriber that BIND writes. -/
def boundSubscriber (p : BindArgs) (st : SubState) : Subscriber :=
  ⟨st, p.account, p.tap, p.port, p.tiers, if 1000000 < p.limit then 1000000 else p.limit⟩

/-- The state with a slot bound: the subscriber written, and its port naming the slot and re-derived (R43). -/
def slotBound (p : BindArgs) (st : SubState) (s : State) : State :=
  match tapAt s p.tap with
  | none => { s with subs := tset s.subs p.slot (boundSubscriber p st) }
  | some (j, _) => rederive .urgent (j, p.port) (modPort (j, p.port) (fun r => { r with slot := some p.slot })
      { s with subs := tset s.subs p.slot (boundSubscriber p st) })

/-- The operations of BIND's commit leave the slot bound. -/
theorem slotBound_eq (p : BindArgs) (st : SubState) (s : State) : rederiveSlot p.slot
    (portNamed (some p.slot) (boundSubscriber p st) { s with subs := tset s.subs p.slot (boundSubscriber p st) }) = slotBound p st s := by
  obtain ⟨u, hu⟩ : ∃ u : State, u = { s with subs := tset s.subs p.slot (boundSubscriber p st) } := ⟨_, rfl⟩
  have htap : tapAt u p.tap = tapAt s p.tap := by rw [hu]; rfl
  have hget : tget u.subs p.slot = some (boundSubscriber p st) := by rw [hu]; exact tget_tset ..
  have hport : slotPort u (boundSubscriber p st) = (tapAt s p.tap).map (fun t => (t.1, p.port)) := by
    unfold slotPort
    rw [← htap]
    rfl
  unfold slotBound portNamed
  rw [← hu, hport]
  cases htap' : tapAt s p.tap with
  | none =>
    dsimp only [Option.map_none]
    rw [rederiveSlot_bound hget, show tapAt u (boundSubscriber p st).tap = none from htap.trans htap']
  | some x =>
    obtain ⟨j, t⟩ := x
    dsimp only [Option.map_some]
    have hkeep := tapAt_modPort (j, p.port) (fun r => { r with slot := some p.slot }) p.tap u
    rw [htap, htap'] at hkeep
    obtain ⟨⟨j', t'⟩, hj, hjj⟩ := Option.map_eq_some_iff.mp hkeep
    have hjj : j' = j := hjj
    subst hjj
    rw [rederiveSlot_bound (u := boundSubscriber p st) (by exact hget),
      show tapAt (modPort (j', p.port) (fun r => { r with slot := some p.slot }) u) (boundSubscriber p st).tap = some (j', t') from hj]
    rfl

/-- The commit of BIND's record. -/
theorem serviceCommit_bind (p : BindArgs) {st : SubState} (hst : subStateArg p.state = some st) (s : State) :
    serviceCommit (.bind p) s = answer .ok (subBytes (slotBound p st s) p.slot) (slotBound p st s) := by
  have hlimit : clamp 0 maxLimit p.limit = if 1000000 < p.limit then 1000000 else p.limit := if_neg (Nat.not_lt_zero _)
  have hv : (⟨(subStateArg p.state).getD .active, p.account, p.tap, p.port, p.tiers, clamp 0 maxLimit p.limit⟩ : Subscriber)
      = boundSubscriber p st := by
    rw [hst, hlimit]
    rfl
  rw [← slotBound_eq]
  unfold serviceCommit
  dsimp only
  rw [hv]
  rfl

/-- The state with a slot unbound: the subscriber gone, and its port naming no slot and re-derived (R45). -/
def slotUnbound (slot : Nat) (v : Subscriber) (s : State) : State :=
  match tapAt s v.tap with
  | none => { s with subs := tdel s.subs slot }
  | some (j, _) => rederive .urgent (j, v.port) (modPort (j, v.port) (fun r => { r with slot := none })
      { s with subs := tdel s.subs slot })

/-- The commit of UNBIND's record. -/
theorem serviceCommit_unbind {slot : Nat} {v : Subscriber} {s : State} (h : tget s.subs slot = some v) :
    serviceCommit (.unbind slot) s = answer .ok (u32 v.account ++ u16 v.tap ++ u8 v.port) (slotUnbound slot v s) := by
  unfold serviceCommit slotUnbound
  dsimp only
  rw [h]
  dsimp only
  rw [slotPort]
  cases tapAt s v.tap <;> rfl

/-- The commit of SET-STATE's record. -/
theorem serviceCommit_setState {slot n : Nat} {st : SubState} (hst : subStateArg n = some st) (s : State) :
    serviceCommit (.setState slot n) s
      = answer .ok (subBytes (rederiveSlot slot { s with subs := tmod s.subs slot (fun x => { x with state := st }) }) slot)
        (rederiveSlot slot { s with subs := tmod s.subs slot (fun x => { x with state := st }) }) := by
  unfold serviceCommit
  dsimp only
  rw [hst]
  rfl

/-- A slot bound while its record is being committed. -/
theorem slotBound_committing (tag : Byte) (o : Order) (p : BindArgs) (st : SubState) (s : State) :
    slotBound p st (committing tag o s) = committing tag o (slotBound p st s) := by
  have htap : tapAt (committing tag o s) p.tap = tapAt s p.tap := rfl
  unfold slotBound
  rw [htap]
  split
  · rfl
  · rename_i j _ _
    exact rederive_committing tag o .urgent (j, p.port) (modPort (j, p.port) (fun r => { r with slot := some p.slot })
      { s with subs := tset s.subs p.slot (boundSubscriber p st) })

/-- A slot unbound while its record is being committed. -/
theorem slotUnbound_committing (tag : Byte) (o : Order) (slot : Nat) (v : Subscriber) (s : State) :
    slotUnbound slot v (committing tag o s) = committing tag o (slotUnbound slot v s) := by
  have htap : tapAt (committing tag o s) v.tap = tapAt s v.tap := rfl
  unfold slotUnbound
  rw [htap]
  split
  · rfl
  · rename_i j _ _
    exact rederive_committing tag o .urgent (j, v.port) (modPort (j, v.port) (fun r => { r with slot := none })
      { s with subs := tdel s.subs slot })

/-! ## The commits of CANCEL and PURCHASE (R139, R141) -/

/-- The state with an event cancelled: its overlay removed where it was SHOWING, and its channel handed on. -/
def eventCancelled (e : Nat) (v : Event) (s : State) : State :=
  handOff (if v.state = .showing then removeOverlay v.channel (Fin.ofNat 16 e) (setEvent e (some { v with state := .cancelled }) s)
    else setEvent e (some { v with state := .cancelled }) s)

/-- The notice of an event cancelled, at a clock. -/
def cancelNotice (e : Nat) (v : Event) (t : Timebase) (s : State) : State :=
  notice nkEventState false (u8 e ++ u8 v.channel ++ u32 v.start ++ u32 v.stop ++ u8 (eventStateNum (some v.state)) ++ [5, 2]
    ++ u16 v.purchasers.length ++ opt 4 (t.clock.map (·.1))) s

/-- A cancelled event changes its slot, the line-up and the plant line alone. -/
theorem eventCancelled_line (e : Nat) (v : Event) (s : State) :
    LinePlant (setEvent e (some { v with state := .cancelled }) s) (eventCancelled e v s) := by
  unfold eventCancelled
  refine LinePlant.trans ?_ (handOff_line _)
  split
  · exact changeClass_line ..
  · exact .refl _

theorem eventCancelled_committing (tag : Byte) (o : Order) (e : Nat) (v : Event) (s : State) :
    eventCancelled e v (committing tag o s) = committing tag o (eventCancelled e v s) := by
  have hset : setEvent e (some { v with state := .cancelled }) (committing tag o s)
      = committing tag o (setEvent e (some { v with state := .cancelled }) s) := rfl
  unfold eventCancelled
  rw [hset, ← handOff_committing]
  split
  · exact congrArg handOff (changeClass_committing ..)
  · rfl

/-- The commit of a CANCEL record. -/
theorem cancelCommit_eq {e : Nat} {v : Event} {s : State} (h : eventOf s e = some v) : cancelCommit e s
    = answer .ok (eventBytes { v with state := .cancelled }) (cancelNotice e v s.time (eventCancelled e v s)) := by
  have hmove : handOff (moveEvent e v .cancelled s) = eventCancelled e v s := by
    unfold moveEvent eventCancelled
    by_cases hv : v.state = .showing <;> simp [hv]
  have htime : (eventCancelled e v s).time = s.time := by
    obtain ⟨l, pl, hl⟩ := eventCancelled_line e v s
    rw [hl]
    rfl
  have hpair : u8 (eventStateNum (some .cancelled)) ++ u8 2 = [5, 2] := by decide
  unfold cancelCommit cancelNotice
  rw [h]
  dsimp only
  rw [hmove, eventNotice, htime, ← hpair,
    ← List.append_assoc (u8 e ++ u8 v.channel ++ u32 v.start ++ u32 v.stop ++ u8 (eventStateNum (some v.state)))]

/-- What an account has spent with the price of an event added. -/
def spentWith (x : Subscriber) (v : Event) (s : State) : Nat := (tget s.store.spend x.account).getD 0 + v.price

/-- The state with an event bought: the spend and the purchaser set written, and the slot's port re-derived where the event is
SHOWING. -/
def eventBought (slot e : Nat) (x : Subscriber) (v : Event) (s : State) : State :=
  if v.state = .showing then rederiveSlot slot { s with
    store.spend := tset s.store.spend x.account (spentWith x v s)
    events := s.events.set e (some { v with purchasers := insertAsc v.purchasers x.account }) }
  else { s with
    store.spend := tset s.store.spend x.account (spentWith x v s)
    events := s.events.set e (some { v with purchasers := insertAsc v.purchasers x.account }) }

theorem eventBought_committing (tag : Byte) (o : Order) (slot e : Nat) (x : Subscriber) (v : Event) (s : State) :
    eventBought slot e x v (committing tag o s) = committing tag o (eventBought slot e x v s) := by
  unfold eventBought
  split
  · exact rederiveSlot_committing tag o slot { s with
      store.spend := tset s.store.spend x.account (spentWith x v s)
      events := s.events.set e (some { v with purchasers := insertAsc v.purchasers x.account }) }
  · rfl

/-- The commit of a PURCHASE record. -/
theorem purchaseCommit_eq {slot e : Nat} {x : Subscriber} {v : Event} {s : State} (hx : tget s.subs slot = some x)
    (hv : eventOf s e = some v) : purchaseCommit slot e s = answer .ok (u32 x.account ++ u8 e ++ u16 v.price
      ++ u32 (spentWith x v s) ++ u32 x.limit) (eventBought slot e x v s) := by
  have hspend : spendOf (eventBought slot e x v s) x.account = spentWith x v s := by
    have hset : (eventBought slot e x v s).store.spend = tset s.store.spend x.account (spentWith x v s) := by
      unfold eventBought
      split
      · obtain ⟨pl, hp⟩ := rederiveSlot_plant slot { s with
          store.spend := tset s.store.spend x.account (spentWith x v s)
          events := s.events.set e (some { v with purchasers := insertAsc v.purchasers x.account }) }
        rw [hp]
      · rfl
    unfold spendOf
    rw [hset, tget_tset]
    rfl
  unfold purchaseCommit
  rw [hx, hv]
  dsimp only
  rw [← hspend]
  rfl

/-! ## The end of the programming, by the order (O35) -/

/-- The commit of a record leaves the clock, the taps, the subscribers, the events and the spend list. -/
theorem recordCommitted_keeps (k : BankId) (body : List Byte) (s : State) :
    (recordCommitted k body s).time = s.time ∧ (recordCommitted k body s).plant = s.plant
      ∧ (recordCommitted k body s).subs = s.subs ∧ (recordCommitted k body s).events = s.events
      ∧ (recordCommitted k body s).store.spend = s.store.spend := by
  cases k <;> exact ⟨rfl, rfl, rfl, rfl, rfl⟩

section
variable {tag : Byte} {k : BankId} {body voids : List Byte} {s : State}

/-- The order's answer as its record commits. -/
def Completes (tag : Byte) (o : Order) (voids : List Byte) (s t : State) (reply : List Byte) : Prop :=
  exec (.journalRecordProgrammed ⟨none, voids⟩) s = .next (kick (joinReply (tagged tag o) .ok reply t))

/-- BIND is completed by its record. -/
theorem bind_completes {p : BindArgs} (h : RecordDue tag (.bind p) k body s) {st : SubState} (hst : subStateArg p.state = some st) :
    Completes tag (.bind p) voids s (slotBound p st (recordCommitted k body s))
      (subBytes (slotBound p st (recordCommitted k body s)) p.slot) := by
  have hline : PlantOnly { recordCommitted k body s with subs := tset (recordCommitted k body s).subs p.slot (boundSubscriber p st) }
      (slotBound p st (recordCommitted k body s)) := by
    unfold slotBound
    split
    · exact .refl _
    · exact PlantOnly.trans (modPort_plant ..) (rederive_plant ..)
  refine exec_recordCommit h ?_ (Rests.of_line (h.rests.congr (by rfl) (by rfl) (by rfl) (by rfl)) hline.line)
  rw [orderCommit_service (by simp), serviceCommit_bind p hst, slotBound_committing]
  rfl

/-- UNBIND is completed by its record. -/
theorem unbind_completes {slot : Nat} (h : RecordDue tag (.unbind slot) k body s) {v : Subscriber} (hv : tget s.subs slot = some v) :
    Completes tag (.unbind slot) voids s (slotUnbound slot v (recordCommitted k body s)) (u32 v.account ++ u16 v.tap ++ u8 v.port) := by
  have hline : PlantOnly { recordCommitted k body s with subs := tdel (recordCommitted k body s).subs slot }
      (slotUnbound slot v (recordCommitted k body s)) := by
    unfold slotUnbound
    split
    · exact .refl _
    · exact PlantOnly.trans (modPort_plant ..) (rederive_plant ..)
  obtain ⟨-, -, hsubs, -, -⟩ := recordCommitted_keeps k body s
  refine exec_recordCommit h ?_ (Rests.of_line (h.rests.congr (by rfl) (by rfl) (by rfl) (by rfl)) hline.line)
  rw [orderCommit_service (by simp), serviceCommit_unbind (by rw [← hsubs] at hv; exact hv), slotUnbound_committing]

/-- An order that changes a subscriber and re-derives its port. -/
theorem changed_completes {o : Order} {slot : Nat} (h : RecordDue tag o k body s) {f : Subscriber → Subscriber}
    (ho : (∀ slot e, o ≠ .purchase slot e) ∧ ∀ e, o ≠ .eventCancel e)
    (hc : ∀ t, serviceCommit o t = answer .ok (subBytes (rederiveSlot slot { t with subs := tmod t.subs slot f }) slot)
      (rederiveSlot slot { t with subs := tmod t.subs slot f })) :
    Completes tag o voids s (rederiveSlot slot { recordCommitted k body s with subs := tmod (recordCommitted k body s).subs slot f })
      (subBytes (rederiveSlot slot { recordCommitted k body s with subs := tmod (recordCommitted k body s).subs slot f }) slot) := by
  obtain ⟨u, hu⟩ : ∃ u : State, u = { recordCommitted k body s with subs := tmod (recordCommitted k body s).subs slot f } := ⟨_, rfl⟩
  have hrest : Rests u := h.rests.congr (by rw [hu]) (by rw [hu]) (by rw [hu]) (by rw [hu])
  have hcommit := rederiveSlot_committing tag o slot u
  rw [← hu]
  refine exec_recordCommit h ?_ (hrest.of_line (rederiveSlot_plant slot u).line)
  have hslot : rederiveSlot slot { committing tag o (recordCommitted k body s) with
      subs := tmod (committing tag o (recordCommitted k body s)).subs slot f } = committing tag o (rederiveSlot slot u) := by
    rw [← hcommit, hu]
    rfl
  rw [orderCommit_service ho, hc, hslot]
  rfl

/-- EVENT-CANCEL is completed by its record. -/
theorem eventCancel_completes {e : Nat} (h : RecordDue tag (.eventCancel e) k body s) {v : Event} (hv : eventOf s e = some v) :
    Completes tag (.eventCancel e) voids s (cancelNotice e v s.time (eventCancelled e v (recordCommitted k body s)))
      (eventBytes { v with state := .cancelled }) := by
  obtain ⟨htime, -, -, hevents, -⟩ := recordCommitted_keeps k body s
  have hv' : eventOf (committing tag (.eventCancel e) (recordCommitted k body s)) e = some v := by
    unfold eventOf at hv ⊢
    rw [← hv, ← hevents]
    rfl
  have hrest : Rests (eventCancelled e v (recordCommitted k body s)) :=
    Rests.of_line (h.rests.congr (by rfl) (by rfl) (by rfl) (by rfl)) (eventCancelled_line e v _)
  refine exec_recordCommit h ?_ (hrest.notice _ _ _)
  have hnotice : cancelNotice e v s.time (committing tag (.eventCancel e) (eventCancelled e v (recordCommitted k body s)))
      = committing tag (.eventCancel e) (cancelNotice e v s.time (eventCancelled e v (recordCommitted k body s))) :=
    notice_committing ..
  have hstood : (committing tag (.eventCancel e) (recordCommitted k body s)).time = s.time := htime
  show cancelCommit e _ = _
  rw [cancelCommit_eq hv', eventCancelled_committing, hstood, hnotice]

/-- PURCHASE is completed by its record. -/
theorem purchase_completes {slot e : Nat} (h : RecordDue tag (.purchase slot e) k body s) {x : Subscriber} {v : Event}
    (hx : tget s.subs slot = some x) (hv : eventOf s e = some v) :
    Completes tag (.purchase slot e) voids s (eventBought slot e x v (recordCommitted k body s))
      (u32 x.account ++ u8 e ++ u16 v.price ++ u32 (spentWith x v s) ++ u32 x.limit) := by
  obtain ⟨-, -, hsubs, hevents, hspend⟩ := recordCommitted_keeps k body s
  have hx' : tget (committing tag (.purchase slot e) (recordCommitted k body s)).subs slot = some x := by
    rw [← hx, ← hsubs]
    rfl
  have hv' : eventOf (committing tag (.purchase slot e) (recordCommitted k body s)) e = some v := by
    unfold eventOf at hv ⊢
    rw [← hv, ← hevents]
    rfl
  have hspent : spentWith x v (committing tag (.purchase slot e) (recordCommitted k body s)) = spentWith x v s := by
    unfold spentWith
    rw [← hspend]
    rfl
  have hrest : Rests (eventBought slot e x v (recordCommitted k body s)) := by
    unfold eventBought
    split
    · exact Rests.of_line (h.rests.congr (by rfl) (by rfl) (by rfl) (by rfl)) (rederiveSlot_plant slot _).line
    · exact h.rests.congr rfl rfl rfl rfl
  refine exec_recordCommit h ?_ hrest
  show purchaseCommit slot e _ = _
  rw [purchaseCommit_eq hx' hv', eventBought_committing, hspent]

end

/-- Settles O35, by the order whose record commits. -/
theorem recordCommitsCompleteTheirOrders : Obligations.RecordCommitsCompleteTheirOrders := by
  intro tag o k body voids s hw hf hp hq ho hl happ her hm he u answered
  have h : RecordDue tag o k body s := ⟨hw, hf, hp, hq, ho, hl, her, hm, he⟩
  obtain ⟨htime, hplant, hsubs, hevents, hspend⟩ := recordCommitted_keeps k body s
  have htap (a : Nat) : tapAt (recordCommitted k body s) a = tapAt s a := by
    unfold tapAt
    rw [hplant]
  cases o with
  | bind p =>
    intro st hst v t t'
    have ht : slotBound p st (recordCommitted k body s) = t' := by
      unfold slotBound
      rw [htap]
      rfl
    have hc := bind_completes (voids := voids) h hst
    rw [ht] at hc
    exact hc
  | unbind slot =>
    intro v hv t t'
    have ht : slotUnbound slot v (recordCommitted k body s) = t' := by
      unfold slotUnbound
      rw [htap]
      rfl
    have hc := unbind_completes (voids := voids) h hv
    rw [ht] at hc
    exact hc
  | setState slot n =>
    intro v st hv hst
    exact changed_completes h ⟨by simp, by simp⟩ (fun t => serviceCommit_setState hst t)
  | setTiers slot tiers =>
    intro v hv
    exact changed_completes h ⟨by simp, by simp⟩ (fun t => rfl)
  | eventCancel e =>
    intro v hv
    exact eventCancel_completes h hv
  | purchase slot e =>
    intro x v hx hv spent t t'
    have ht : eventBought slot e x v (recordCommitted k body s) = t' := by
      have hspent : spentWith x v (recordCommitted k body s) = spent := by
        unfold spentWith
        rw [hspend]
      unfold eventBought
      rw [hspent]
      rfl
    have hc := purchase_completes (voids := voids) h hx hv
    rw [ht] at hc
    exact hc
  | _ => trivial

end Sys2Proof.Safety
end

