-- ==== Proofs/ScheduleQueueOrders.lean ====
section
/-! PROOFS. SCHEDULE-CANCEL (O25) and SCHEDULE-LIST (O26). -/

namespace Sys2Proof.Safety

open Sys2Proof.Machine

/-! ## The entry that holds an id (R22, R32) -/

/-- Where no entry holds an id, none is found. -/
theorem find_id_none {es : List Entry} {id : Nat} (h : ∀ e ∈ es, e.id ≠ id) : es.find? (fun e => e.id = id) = none :=
  List.find?_eq_none.mpr fun e he => by simpa using h e he

section
variable {e : Entry} {l₁ l₂ : List Entry} {id : Nat} (he : e.id = id) (h : ∀ x ∈ l₁ ++ l₂, x.id ≠ id)
include he h

/-- The one entry that holds an id is found. -/
theorem find_id_middle : (l₁ ++ e :: l₂).find? (fun x => x.id = id) = some e := by
  have hfront : l₁.find? (fun x => x.id = id) = none := find_id_none fun x hx => h x (List.mem_append_left _ hx)
  rw [List.find?_append, hfront, Option.none_or]
  exact List.find?_cons_of_pos (decide_eq_true he)

/-- Without the one entry that holds an id the queue is the entries before it and those after it. -/
theorem filter_id_middle : (l₁ ++ e :: l₂).filter (fun x => x.id ≠ id) = l₁ ++ l₂ := by
  have hothers : (l₁ ++ l₂).filter (fun x => x.id ≠ id) = l₁ ++ l₂ :=
    List.filter_eq_self.mpr fun x hx => decide_eq_true (h x hx)
  rw [List.filter_append, List.filter_cons_of_neg (by simpa using he), ← List.filter_append, hothers]

end

/-! ## SCHEDULE-CANCEL (R32) -/

/-- SCHEDULE-CANCEL where no entry is found. -/
theorem orderScheduleCancel_none {id : Nat} {s : State} (h : s.schedule.entries.find? (fun e => e.id = id) = none) :
    orderScheduleCancel id s = refuse .badArg s := by
  unfold orderScheduleCancel
  rw [h]

/-- SCHEDULE-CANCEL of the entry that is found. -/
theorem orderScheduleCancel_some {id : Nat} {e : Entry} {s : State}
    (h : s.schedule.entries.find? (fun e => e.id = id) = some e) :
    orderScheduleCancel id s = answer .ok (u32 e.due ++ u8 e.channel ++ u8 (changeKind e.change))
      { s with schedule.entries := s.schedule.entries.filter (fun x => x.id ≠ id) } := by
  unfold orderScheduleCancel
  rw [h]

/-- Settles O25, by whether an entry holds the id. -/
theorem scheduleCancelRemovesTheEntry : Obligations.ScheduleCancelRemovesTheEntry := by
  refine fun tag id s q w => ⟨fun h => answers_of rfl q w q.inFlight ?_,
    fun e l₁ l₂ hes he h => answers_of rfl q w (by exact q.inFlight) ?_⟩
  · exact orderScheduleCancel_none (s := taken tag (.scheduleCancel id) s) (find_id_none h)
  · have hfind : (taken tag (.scheduleCancel id) s).schedule.entries.find? (fun x => x.id = id) = some e :=
      (congrArg (List.find? _) hes).trans (find_id_middle he h)
    have hrest : (taken tag (.scheduleCancel id) s).schedule.entries.filter (fun x => x.id ≠ id) = l₁ ++ l₂ :=
      (congrArg (List.filter _) hes).trans (filter_id_middle he h)
    show orderScheduleCancel id _ = _
    rw [orderScheduleCancel_some hfind, hrest]
    rfl

/-! ## SCHEDULE-LIST (R33) -/

/-- Settles O26: the reply reports the queue as it stands, and past its end the page has no entry. -/
theorem scheduleListReports : Obligations.ScheduleListReports := by
  refine fun tag start s q w => ⟨answers_of rfl q w q.inFlight ?_, fun h => ?_⟩
  · show orderScheduleList start _ = _
    rfl
  · show (s.schedule.entries.drop start).take 32 = []
    rw [List.drop_eq_nil_of_le h, List.take_nil]

end Sys2Proof.Safety
end

