-- ==== Proofs/JournalOrders.lean ====
section
/-! PROOFS. The six orders that write the journal, at their acceptance: their checks (R44, R138, R141; O33), and the record that an
accepted one queues (R43; O34). -/

namespace Sys2Proof.Safety

open Sys2Proof.Machine

/-! ## The first three checks (R44, R138) -/

section
variable {s : State} (hrun : s.link.op = .run)
include hrun

/-- A store with a fault fails the second check. -/
theorem journalCheck_fault (hf : s.store.fault = true) : journalCheck s = some .storeFault := by
  simp [journalCheck, running, hrun, hf]

variable (hf : s.store.fault = false)
include hf

/-- A journal without room fails the third check. -/
theorem journalCheck_full (h : freeSlots s ≤ 256) : journalCheck s = some .journalFull := by
  simp [journalCheck, running, hrun, hf, h]

/-- In RUN a working store with room passes. -/
theorem journalCheck_room (h : 256 < freeSlots s) : journalCheck s = none := by
  simp [journalCheck, running, hrun, hf, Nat.not_le.mpr h]

end

/-! ## The checks of each order from the fourth on (R44, R138, R141) -/

/-- The orders that write the journal. -/
def WritesJournal : Order → Prop
  | .bind _ | .unbind _ | .setState _ _ | .setTiers _ _ | .purchase _ _ | .eventCancel _ => True
  | _ => False

/-- The checks of a slot that an order names. -/
def slotCheck (s : State) (slot : Nat) : Option StatusCode :=
  if 2047 < slot then some .badArg else if (tget s.subs slot).isNone then some .state else none

/-- The first check of an order that writes the journal, from the fourth on, that fails. -/
def ownCheck (s : State) : Order → Option StatusCode
  | .bind p => bindCheck p s
  | .unbind slot => slotCheck s slot
  | .setState slot v => (slotCheck s slot).or (if (subStateArg v).isNone then some .badArg else none)
  | .setTiers slot _ => slotCheck s slot
  | .eventCancel e => if 15 < e then some .badArg else if (eventOf s e).any onOffer then none else some .state
  | .purchase slot e => match purchaseCheck slot e s with
    | .error c => some c
    | .ok _ => none
  | _ => none

/-- An order that fails one of the first three checks is refused by it. -/
theorem handOver_journalCheck {o : Order} (ho : WritesJournal o) {s : State} {c : StatusCode} (h : journalCheck s = some c) :
    handOver o s = refuse c s := by
  cases o with
  | bind p =>
    show orderBind p s = _
    unfold orderBind
    rw [h]
    rfl
  | unbind slot =>
    show orderUnbind slot s = _
    unfold orderUnbind
    rw [h]
  | setState slot v =>
    show orderSetState slot v s = _
    unfold orderSetState
    rw [h]
  | setTiers slot tiers =>
    show orderSetTiers slot tiers s = _
    unfold orderSetTiers
    rw [h]
  | purchase slot e =>
    show orderPurchase slot e s = _
    unfold orderPurchase
    rw [h]
  | eventCancel e =>
    show orderEventCancel e s = _
    unfold orderEventCancel
    rw [h]
  | _ => exact ho.elim

/-- What a slot that fails its checks gives an order. -/
theorem slotCheck_refuses {s : State} {slot : Nat} {c : StatusCode} (h : slotCheck s slot = some c) (f : Subscriber → State) :
    (if 2047 < slot then refuse .badArg s else match tget s.subs slot with
      | none => refuse .state s
      | some u => f u) = refuse c s := by
  unfold slotCheck at h
  split at h
  · rename_i hslot
    cases h
    exact if_pos hslot
  · rename_i hslot
    rw [if_neg hslot]
    cases hu : tget s.subs slot with
    | none =>
      rw [hu] at h
      cases h
      rfl
    | some u =>
      rw [hu] at h
      cases h

/-- An order that fails one of its own checks is refused by it. -/
theorem handOver_ownCheck {o : Order} {s : State} (hj : journalCheck s = none) {c : StatusCode} (h : ownCheck s o = some c) :
    handOver o s = refuse c s := by
  cases o with
  | bind p =>
    show orderBind p s = _
    unfold orderBind
    rw [hj, show bindCheck p s = some c from h]
    rfl
  | unbind slot =>
    show orderUnbind slot s = _
    unfold orderUnbind
    rw [hj]
    exact slotCheck_refuses h _
  | setState slot v =>
    show orderSetState slot v s = _
    unfold orderSetState
    rw [hj]
    dsimp only [ownCheck] at h
    cases hs : slotCheck s slot with
    | some d =>
      rw [hs] at h
      cases h
      exact slotCheck_refuses hs _
    | none =>
      rw [hs, Option.none_or] at h
      unfold slotCheck at hs
      cases hv : subStateArg v with
      | some st =>
        rw [hv] at h
        cases h
      | none =>
        rw [hv] at h
        cases h
        split at hs
        · cases hs
        · rename_i hslot
          dsimp only
          rw [if_neg hslot]
          cases hu : tget s.subs slot with
          | none =>
            rw [hu] at hs
            cases hs
          | some u => rfl
  | setTiers slot tiers =>
    show orderSetTiers slot tiers s = _
    unfold orderSetTiers
    rw [hj]
    exact slotCheck_refuses h _
  | eventCancel e =>
    show orderEventCancel e s = _
    unfold orderEventCancel
    rw [hj]
    dsimp only [ownCheck] at h ⊢
    split at h
    · rename_i he
      cases h
      exact if_pos he
    · rename_i he
      rw [if_neg he]
      cases hv : eventOf s e with
      | none =>
        rw [hv] at h
        cases h
        rfl
      | some v =>
        rw [hv, Option.any_some] at h
        split at h
        · cases h
        · rename_i ho
          cases h
          exact if_neg ho
  | purchase slot e =>
    show orderPurchase slot e s = _
    unfold orderPurchase
    rw [hj]
    dsimp only [ownCheck] at h ⊢
    cases hp : purchaseCheck slot e s with
    | error d =>
      rw [hp] at h
      cases h
      rfl
    | ok x =>
      rw [hp] at h
      cases h
  | _ => cases h

/-! ## When each check fails -/

section
variable {s : State} {slot : Nat}

/-- A slot out of range. -/
theorem slotCheck_range (h : 2047 < slot) : slotCheck s slot = some .badArg := if_pos h

/-- A slot that is not bound. -/
theorem slotCheck_unbound (h : slot ≤ 2047) (hu : tget s.subs slot = none) : slotCheck s slot = some .state := by
  simp [slotCheck, Nat.not_lt.mpr h, hu]

/-- A bound slot passes. -/
theorem slotCheck_bound (h : slot ≤ 2047) (hu : tget s.subs slot ≠ none) : slotCheck s slot = none := by
  simp [slotCheck, Nat.not_lt.mpr h, hu]

end

/-- The numbers that name no state of a slot (R194). -/
theorem subStateArg_none {v : Nat} : subStateArg v = none ↔ v = 0 ∨ 3 < v := by
  unfold subStateArg
  split
  · simp only [reduceCtorEq, false_iff]
    omega
  · split
    · simp only [reduceCtorEq, false_iff]
      omega
    · split
      · simp only [reduceCtorEq, false_iff]
        omega
      · simp only [true_iff]
        omega

/-- The number of a state names it (R194). -/
theorem subStateArg_num {v : Nat} {st : SubState} (h : subStateArg v = some st) : subStateNum st = v := by
  unfold subStateArg at h
  split at h
  · cases h
    exact Eq.symm ‹_›
  · split at h
    · cases h
      exact Eq.symm ‹_›
    · split at h
      · cases h
        exact Eq.symm ‹_›
      · cases h

/-- A state is named by its number. -/
theorem subStateArg_subStateNum (st : SubState) : subStateArg (subStateNum st) = some st := by
  cases st <;> rfl

/-- A number in range names a state. -/
theorem subStateArg_some {v : Nat} (h1 : 1 ≤ v) (h3 : v ≤ 3) : ∃ st, subStateArg v = some st :=
  Option.ne_none_iff_exists'.mp fun h => by
    have := subStateArg_none.mp h
    omega

/-- The port that BIND names has a bound slot. -/
def PortTaken (s : State) (tap port : Nat) : Prop :=
  ∃ j t r, tapAt s tap = some (j, t) ∧ t.ports[port]? = some r ∧ r.slot ≠ none

/-- The sixth check of BIND. -/
theorem portBound_iff {s : State} {tap port : Nat} : portBound s tap port = true ↔ PortTaken s tap port := by
  unfold portBound PortTaken
  cases tapAt s tap with
  | none => simp
  | some x =>
    obtain ⟨j, t⟩ := x
    dsimp only
    cases h : t.ports[port]? with
    | none => simp [h]
    | some r => simp [h, Option.isSome_iff_ne_none]

/-- The seventh check of BIND. -/
theorem accountBound_iff {s : State} {account : Nat} :
    accountBound s account = true ↔ ∃ x ∈ s.subs, x.2.account = account := by
  unfold accountBound
  simp only [List.any_eq_true, decide_eq_true_eq]

section
variable {s : State} {p : BindArgs}

/-- BIND of a slot out of range. -/
theorem bindCheck_range (h : 2047 < p.slot) : bindCheck p s = some .badArg := if_pos h

variable (h : p.slot ≤ 2047)
include h

/-- BIND of a slot, a port or an account that is bound. -/
theorem bindCheck_taken (ht : tget s.subs p.slot ≠ none ∨ PortTaken s p.tap p.port ∨ ∃ x ∈ s.subs, x.2.account = p.account) :
    bindCheck p s = some .state := by
  rw [← portBound_iff, ← accountBound_iff, ← Option.isSome_iff_ne_none] at ht
  unfold bindCheck
  rw [if_neg (Nat.not_lt.mpr h)]
  by_cases h1 : (tget s.subs p.slot).isSome = true
  · exact if_pos h1
  · rw [if_neg h1]
    by_cases h2 : portBound s p.tap p.port = true
    · exact if_pos h2
    · rw [if_neg h2]
      exact if_pos ((ht.resolve_left h1).resolve_left h2)

/-- BIND of a slot, a port and an account that are free is checked for its arguments. -/
theorem bindCheck_free (hs : tget s.subs p.slot = none) (hp : ¬ PortTaken s p.tap p.port)
    (ha : ¬ ∃ x ∈ s.subs, x.2.account = p.account) : bindCheck p s
      = if tapAt s p.tap = none ∨ 3 < p.port ∨ p.account = 0 ∨ p.state = 0 ∨ 3 < p.state then some .badArg else none := by
  rw [← portBound_iff] at hp
  rw [← accountBound_iff] at ha
  unfold bindCheck
  rw [if_neg (Nat.not_lt.mpr h), hs, if_neg (by simp), if_neg hp, if_neg ha]
  simp only [Bool.or_eq_true, decide_eq_true_eq, Option.isNone_iff_eq_none, subStateArg_none, or_assoc]

end

section
variable {s : State} {slot e : Nat}

/-- PURCHASE with a slot or an event out of range. -/
theorem purchaseCheck_range (h : 2047 < slot ∨ 15 < e) : purchaseCheck slot e s = .error .badArg :=
  if_pos (by simpa using h)

variable (hslot : slot ≤ 2047) (he : e ≤ 15)
include hslot he

/-- PURCHASE for a slot that is not ACTIVE. -/
theorem purchaseCheck_inactive (h : ∀ u, tget s.subs slot = some u → u.state ≠ .active) :
    purchaseCheck slot e s = .error .state := by
  unfold purchaseCheck
  rw [if_neg (by simp; omega)]
  cases hu : tget s.subs slot with
  | none => rfl
  | some u => exact if_pos (h u hu)

variable {u : Subscriber} (hu : tget s.subs slot = some u) (ha : u.state = .active)
include hu ha

/-- PURCHASE of an event that is not on sale. -/
theorem purchaseCheck_window
    (h : ∀ v, eventOf s e = some v → (v.state ≠ .onSale ∧ v.state ≠ .showing) ∨ v.close ≤ minuteOf s) :
    purchaseCheck slot e s = .error .window := by
  unfold purchaseCheck
  rw [if_neg (by simp; omega), hu]
  dsimp only
  rw [if_neg (not_not_intro ha)]
  cases hv : eventOf s e with
  | none => rfl
  | some v =>
    refine if_pos ?_
    rw [Bool.or_eq_true, Bool.not_eq_true', ← Bool.not_eq_true, onOffer_iff, decide_eq_true_iff, not_or]
    exact h v hv

/-- PURCHASE of an event on sale is checked for the account, the room and the limit. -/
theorem purchaseCheck_offered {v : Event} (hv : eventOf s e = some v) (ho : v.state = .onSale ∨ v.state = .showing)
    (hc : minuteOf s < v.close) : purchaseCheck slot e s
      = if u.account ∈ v.purchasers then .error .state
        else if 2048 ≤ v.purchasers.length then .error .full
        else if u.limit < spendOf s u.account + v.price then .error .limit else .ok (u, v) := by
  unfold purchaseCheck
  rw [if_neg (by simp; omega), hu]
  dsimp only
  rw [if_neg (not_not_intro ha), hv]
  dsimp only
  rw [if_neg (by simp [(onOffer_iff v).mpr ho, hc])]
  simp only [List.contains_iff_mem]

end

/-- PURCHASE fails the check that its own checks answer. -/
theorem ownCheck_purchase {s : State} {slot e : Nat} {c : StatusCode} (h : purchaseCheck slot e s = .error c) :
    ownCheck s (.purchase slot e) = some c := by
  dsimp only [ownCheck]
  rw [h]

/-- SET-STATE to a number that names no state, for a bound slot. -/
theorem ownCheck_setState {s : State} {slot v : Nat} (h : slot ≤ 2047) (hu : tget s.subs slot ≠ none) (hv : v = 0 ∨ 3 < v) :
    ownCheck s (.setState slot v) = some .badArg := by
  dsimp only [ownCheck]
  rw [slotCheck_bound h hu, subStateArg_none.mpr hv]
  rfl

/-- SET-STATE for a slot that fails its checks. -/
theorem ownCheck_setState_slot {s : State} {slot v : Nat} {c : StatusCode} (h : slotCheck s slot = some c) :
    ownCheck s (.setState slot v) = some c := by
  dsimp only [ownCheck]
  rw [h]
  rfl

/-- EVENT-CANCEL of an event that is not on offer. -/
theorem ownCheck_eventCancel {s : State} {e : Nat} (h : e ≤ 15)
    (ho : ∀ v, eventOf s e = some v → v.state ≠ .onSale ∧ v.state ≠ .showing) :
    ownCheck s (.eventCancel e) = some .state := by
  dsimp only [ownCheck]
  rw [if_neg (Nat.not_lt.mpr h), if_neg]
  rw [slot_onOffer_iff]
  rintro ⟨v, hv, hoff⟩
  exact hoff.elim (ho v hv).1 (ho v hv).2

/-- Settles O33: the shared checks, then each order's own in their order. -/
theorem journalOrdersAreChecked : Obligations.JournalOrdersAreChecked := by
  intro i tag o s hi q hrun ho refused bound named
  have no {c : StatusCode} (h : handOver o (taken tag o s) = refuse c (taken tag o s)) : refused c :=
    answers_of hi q (.inr hrun) q.inFlight h
  have hw : WritesJournal o := by
    cases o <;> exact ho
  refine ⟨fun hf => no (handOver_journalCheck hw (journalCheck_fault (by exact hrun) hf)),
    fun hf hn => no (handOver_journalCheck hw (journalCheck_full (by exact hrun) hf hn)), fun hf hn => ?_⟩
  have own {c : StatusCode} (h : ownCheck s o = some c) : refused c :=
    no (handOver_ownCheck (s := taken tag o s) (journalCheck_room (by exact hrun) hf hn) (by exact h))
  have slotOwn {slot : Nat} (h : ∀ {c}, slotCheck s slot = some c → ownCheck s o = some c) : named slot :=
    ⟨fun hs => own (h (slotCheck_range hs)), fun hs hb => own (h (slotCheck_unbound hs (not_not.mp hb)))⟩
  cases o with
  | bind p =>
    refine ⟨fun hs => own (bindCheck_range hs), fun hs ht => own (bindCheck_taken hs ht), fun hs hb hp ha hbad => own ?_⟩
    exact (bindCheck_free hs (not_not.mp hb) hp ha).trans (if_pos hbad)
  | unbind slot => exact slotOwn id
  | setState slot v => exact ⟨slotOwn ownCheck_setState_slot, fun hs hb hv => own (ownCheck_setState hs hb hv)⟩
  | setTiers slot tiers => exact slotOwn id
  | eventCancel e => exact ⟨fun he => own (if_pos he), fun he hv => own (ownCheck_eventCancel he hv)⟩
  | purchase slot e =>
    have buys {c : StatusCode} (h : purchaseCheck slot e s = .error c) : refused c := own (ownCheck_purchase h)
    refine ⟨fun h => buys (purchaseCheck_range h), fun hs he => ⟨fun h => buys (purchaseCheck_inactive hs he h), fun u hu ha => ?_⟩⟩
    refine ⟨fun h => buys (purchaseCheck_window hs he hu ha h), fun v hv hoff hc => ?_⟩
    have left := purchaseCheck_offered hs he hu ha hv hoff hc
    refine ⟨fun hm => buys (left.trans (if_pos hm)), fun hm hl => ?_, fun hm hl hp => ?_⟩
    · rw [if_neg hm, if_pos hl] at left
      exact buys left
    · rw [if_neg hm, if_neg (Nat.not_le.mpr hl), if_pos hp] at left
      exact buys left
  | _ => exact ho.elim

/-! ## The record of an accepted order (R43, R45 to R47, R139, R141) -/

/-- A check for JOURNAL_LOW does not look at the order in flight. -/
theorem lowCheck_taken (tag : Byte) (o : Order) (s : State) : lowCheck (taken tag o s) = taken tag o (lowCheck s) := by
  have hopen : openBank (taken tag o s) = openBank s := rfl
  have hbehind : behindOpened (taken tag o s).store.queue = behindOpened s.store.queue := rfl
  unfold lowCheck
  rw [hopen, hbehind]
  cases openBank s with
  | none => rfl
  | some i =>
    cases behindOpened s.store.queue with
    | some l => rfl
    | none =>
      by_cases h : (freeSlots s ≤ 256 && !s.store.lowMark) = true
      · dsimp only
        rw [if_pos h, if_pos (by exact h)]
        exact notice_taken _ _ _ tag o { s with store.lowMark := true }
      · dsimp only
        rw [if_neg h, if_neg (by exact h)]

/-- The state in which an order's record has joined the append queue (R43, R152). -/
def orderRecorded (kind : Nat) (fields : List Byte) (s : State) : State :=
  lowCheck (recordJoined (recordBody kind (minuteOf s) fields) .order s)

/-- The record of an order taken joins as it would of no order. -/
theorem appendHost_taken (kind : Nat) (fields : List Byte) (tag : Byte) (o : Order) (s : State) :
    appendHost kind fields (taken tag o s) = taken tag o (orderRecorded kind fields s) :=
  lowCheck_taken tag o (recordJoined (recordBody kind (minuteOf s) fields) .order s)

section
variable {s : State} (hj : journalCheck s = none)
include hj

/-- BIND that passes its checks hands its record to the store. -/
theorem orderBind_records {p : BindArgs} (hc : bindCheck p s = none) : orderBind p s
    = appendHost rkService (serviceFields p.account p.slot (subStateArg p.state) p.tiers (segmentOfTap s p.tap)) s := by
  unfold orderBind
  rw [hj, hc]
  rfl

section
variable {slot : Nat} {u : Subscriber} (h : slot ≤ 2047) (hu : tget s.subs slot = some u)
include h hu

/-- UNBIND of a bound slot hands its record to the store. -/
theorem orderUnbind_records :
    orderUnbind slot s = appendHost rkService (serviceFields u.account slot none 0 (segmentOfTap s u.tap)) s := by
  unfold orderUnbind
  rw [hj]
  dsimp only
  rw [if_neg (Nat.not_lt.mpr h), hu]

/-- SET-STATE of a bound slot: answered at once where it has the state, else its record goes to the store. -/
theorem orderSetState_bound {v : Nat} {st : SubState} (hv : subStateArg v = some st) : orderSetState slot v s
    = if st = u.state then answer .ok (subBytes s slot) s
      else appendHost rkService (serviceFields u.account slot (some st) u.tiers (segmentOfTap s u.tap)) s := by
  unfold orderSetState
  rw [hj]
  dsimp only
  rw [if_neg (Nat.not_lt.mpr h), hu]
  dsimp only
  rw [hv]

/-- SET-TIERS of a bound slot: answered at once where it has the tiers, else its record goes to the store. -/
theorem orderSetTiers_bound (tiers : TierSet) : orderSetTiers slot tiers s
    = if tiers = u.tiers then answer .ok (subBytes s slot) s
      else appendHost rkService (serviceFields u.account slot (some u.state) tiers (segmentOfTap s u.tap)) s := by
  unfold orderSetTiers
  rw [hj]
  dsimp only
  rw [if_neg (Nat.not_lt.mpr h), hu]

end

/-- EVENT-CANCEL of an event on offer hands its record to the store. -/
theorem orderEventCancel_records {e : Nat} {v : Event} (h : e ≤ 15) (hv : eventOf s e = some v)
    (ho : v.state = .onSale ∨ v.state = .showing) : orderEventCancel e s = appendHost rkCancel (u8 e ++ u32 v.start) s := by
  unfold orderEventCancel
  rw [hj]
  dsimp only
  rw [if_neg (Nat.not_lt.mpr h), hv]
  exact if_pos ((onOffer_iff v).mpr ho)

/-- PURCHASE that passes its checks hands its record to the store. -/
theorem orderPurchase_records {slot e : Nat} {u : Subscriber} {v : Event} (h : purchaseCheck slot e s = .ok (u, v)) :
    orderPurchase slot e s = appendHost rkPurchase (u32 u.account ++ u8 e ++ u32 v.start ++ u32 v.stop ++ u16 v.price) s := by
  unfold orderPurchase
  rw [hj]
  dsimp only
  rw [h]

end

/-- The segment of a loaded tap's address. -/
theorem segmentOfTap_eq {s : State} {a j : Nat} {t : Tap} (h : tapAt s a = some (j, t)) : segmentOfTap s a = t.segment := by
  unfold segmentOfTap
  rw [h]
  rfl

/-- Settles O34, by the order: its record joins and it stays in flight, or it would change nothing and is answered. -/
theorem journalOrdersAwaitTheirRecord : Obligations.JournalOrdersAwaitTheirRecord := by
  intro i tag o s hi q hrun hf hn awaits service
  have hj : journalCheck (taken tag o s) = none := journalCheck_room (by exact hrun) hf hn
  have recorded {kind : Nat} {fields : List Byte}
      (h : handOver o (taken tag o s) = appendHost kind fields (taken tag o s)) : awaits kind fields :=
    awaits_of hi q (.inr hrun) (h.trans (appendHost_taken kind fields tag o s))
  have unchanged {slot : Nat} (h : handOver o (taken tag o s) = answer .ok (subBytes s slot) (taken tag o s)) :
      Answers i s s tag o .ok (subBytes s slot) := answers_of hi q (.inr hrun) q.inFlight h
  cases o with
  | bind p =>
    intro j t r hs hu ht hr hslot ha hport hacc h1 h3
    have hfree : ¬ PortTaken s p.tap p.port := by
      rintro ⟨j', t', r', ht', hr', hb⟩
      rw [ht] at ht'
      cases ht'
      rw [hr] at hr'
      cases hr'
      exact hb hslot
    have hc : bindCheck p s = none := by
      rw [bindCheck_free hs hu hfree (by rintro ⟨x, hx, he⟩; exact ha x hx he), if_neg]
      rw [ht]
      simp only [reduceCtorEq, false_or]
      omega
    obtain ⟨st, hst⟩ := subStateArg_some h1 h3
    refine recorded ((orderBind_records hj hc).trans ?_)
    rw [segmentOfTap_eq (by exact ht), hst, serviceFields, Option.elim_some, subStateArg_num hst]
  | unbind slot =>
    intro u j t hs hu ht
    refine recorded ((orderUnbind_records hj hs hu).trans ?_)
    rw [segmentOfTap_eq (by exact ht)]
    rfl
  | setState slot v =>
    intro u j t hs hu ht h1 h3
    obtain ⟨st, hst⟩ := subStateArg_some h1 h3
    have hnum := subStateArg_num hst
    have e := orderSetState_bound hj hs hu hst
    refine ⟨fun hne => recorded ?_, fun heq => unchanged ?_⟩
    · rw [if_neg (fun h => hne (by rw [← h, hnum])), segmentOfTap_eq (by exact ht), serviceFields, Option.elim_some, hnum] at e
      exact e
    · rw [← heq, subStateArg_subStateNum, Option.some_inj] at hst
      exact e.trans (if_pos hst.symm)
  | setTiers slot tiers =>
    intro u j t hs hu ht
    have e := orderSetTiers_bound hj hs hu tiers
    refine ⟨fun hne => recorded ?_, fun heq => unchanged (e.trans (if_pos heq.symm))⟩
    rw [if_neg (Ne.symm hne), segmentOfTap_eq (by exact ht)] at e
    exact e
  | eventCancel e =>
    intro v he hv hoff
    exact recorded (orderEventCancel_records hj he hv hoff)
  | purchase slot e =>
    intro u v hs he hu ha hv hoff hc hm hl hp
    have hok := purchaseCheck_offered hs he hu ha hv hoff hc
    rw [if_neg hm, if_neg (Nat.not_le.mpr hl), if_neg (Nat.not_lt.mpr hp)] at hok
    exact recorded (orderPurchase_records hj (by exact hok))
  | _ => trivial

end Sys2Proof.Safety
end

