-- ==== Proofs/SubscriberOrders.lean ====
section
/-! PROOFS. SET-LIMIT and QUERY-SUB (R48, R49; O36), and RESYNC (R60, R61; O37). -/

namespace Sys2Proof.Safety

open Sys2Proof.Machine

/-! ## SET-LIMIT (R48) -/

/-- The greatest limit, or the one asked for below it (R40). -/
def limitWritten (limit : Nat) : Nat := if 1000000 < limit then 1000000 else limit

/-- The clamp of a limit has no lower end to meet. -/
theorem clamp_limit (limit : Nat) : clamp 0 maxLimit limit = limitWritten limit := if_neg (Nat.not_lt_zero _)

section
variable {s : State} {slot limit : Nat}

/-- SET-LIMIT outside RUN. -/
theorem orderSetLimit_loading (h : s.link.op = .loading) : orderSetLimit slot limit s = refuse .state s := by
  unfold orderSetLimit running
  rw [h]
  rfl

variable (hrun : s.link.op = .run)
include hrun

/-- SET-LIMIT of a slot out of range. -/
theorem orderSetLimit_range (h : 2047 < slot) : orderSetLimit slot limit s = refuse .badArg s := by
  unfold orderSetLimit running
  rw [hrun]
  exact if_pos h

variable (h : slot ≤ 2047)
include h

/-- SET-LIMIT of a slot that is not bound. -/
theorem orderSetLimit_unbound (hu : tget s.subs slot = none) : orderSetLimit slot limit s = refuse .state s := by
  unfold orderSetLimit running
  rw [hrun, hu]
  exact if_neg (Nat.not_lt.mpr h)

/-- SET-LIMIT of a bound slot. -/
theorem orderSetLimit_bound {u : Subscriber} (hu : tget s.subs slot = some u) : orderSetLimit slot limit s
    = answer .ok (u32 (limitWritten limit) ++ u32 (spendOf s u.account))
      { s with subs := tset s.subs slot { u with limit := limitWritten limit } } := by
  unfold orderSetLimit running
  rw [hrun, hu, clamp_limit]
  exact if_neg (Nat.not_lt.mpr h)

end

/-! ## QUERY-SUB (R49) -/

section
variable {s : State} {slot : Nat}

/-- An UNBOUND slot gives its state alone. -/
theorem subBytes_unbound (h : tget s.subs slot = none) : subBytes s slot = [0] := by
  unfold subBytes
  rw [h]
  rfl

/-- A bound slot gives its record, the spend, and its port. -/
theorem subBytes_bound {u : Subscriber} (h : tget s.subs slot = some u) {j : Nat} {t : Tap} (ht : tapAt s u.tap = some (j, t))
    {r : Port} (hr : t.ports[u.port]? = some r) : subBytes s slot
      = u8 (subStateNum u.state) ++ u32 u.account ++ u16 u.tap ++ u8 u.port ++ u16 u.tiers.toNat ++ u32 u.limit
        ++ u32 (spendOf s u.account) ++ contentBytes r.desired ++ optContent r.confirmed ++ u8 (syncNum r.sync)
        ++ u8 (pclassNum r.cls) ++ u8 r.attempts ++ flag t.unreachable.isSome ++ u8 (serviceNum (serviceOf s t.segment)) := by
  unfold subBytes
  rw [h]
  dsimp only
  rw [ht]
  dsimp only
  rw [hr]
  simp only [List.append_assoc]

/-- QUERY-SUB of a slot out of range. -/
theorem orderQuerySub_range (h : 2047 < slot) : orderQuerySub slot s = refuse .badArg s := if_pos h

/-- QUERY-SUB of a slot in range. -/
theorem orderQuerySub_slot (h : slot ≤ 2047) : orderQuerySub slot s = answer .ok (subBytes s slot) s :=
  if_neg (Nat.not_lt.mpr h)

end

/-- Settles O36: SET-LIMIT by its checks, QUERY-SUB by the slot. -/
theorem limitsAndSlotQueries : Obligations.LimitsAndSlotQueries := by
  intro tag slot limit s q w
  refine ⟨fun h => answers_of rfl q w q.inFlight (orderSetLimit_loading (by exact h)),
    fun hrun hs => answers_of rfl q w q.inFlight (orderSetLimit_range (by exact hrun) hs),
    fun hrun hs hu => answers_of rfl q w q.inFlight (orderSetLimit_unbound (by exact hrun) hs hu),
    fun u hrun hs hu => answers_of rfl q w (by exact q.inFlight) (orderSetLimit_bound (by exact hrun) hs hu),
    fun hs => answers_of rfl q w q.inFlight (orderQuerySub_range hs), fun hs hu => ?_, fun u j t r hs hu ht hr => ?_⟩
  · have e : handOver (.querySub slot) (taken tag (.querySub slot) s) = _ := orderQuerySub_slot hs
    rw [subBytes_unbound (by exact hu)] at e
    exact answers_of rfl q w q.inFlight e
  · have e : handOver (.querySub slot) (taken tag (.querySub slot) s) = _ := orderQuerySub_slot hs
    rw [subBytes_bound (by exact hu) (by exact ht) hr] at e
    exact answers_of rfl q w q.inFlight e

/-! ## RESYNC (R60, R61) -/

/-- A forced refresh of a port, as one write of its record and its place in the REFRESH queue (R60). -/
def refreshForced (t : State) (q : Nat × Nat) : State :=
  match portOf t q with
  | none => t
  | some r =>
    if r.sync = .inSync ∨ r.sync = .dropped then
      if parkHoldsAt t q.1 then modPort q (fun r => { r with sync := .parked, cls := none, confirmed := none }) t
      else { modPort q (fun r => { r with sync := .pending, cls := some .refresh }) t with
        plant.refresh := t.plant.refresh ++ [q] }
    else t

/-- A forced refresh is that write. -/
theorem forceRefresh_eq (q : Nat × Nat) (t : State) : forceRefresh q t = refreshForced t q := by
  unfold forceRefresh refreshForced pend
  cases portOf t q with
  | none => rfl
  | some r =>
    simp only [Bool.or_eq_true, decide_eq_true_eq]
    by_cases hs : r.sync = .inSync ∨ r.sync = .dropped
    · rw [if_pos hs, if_pos hs]
      by_cases hp : parkHoldsAt t q.1 = true
      · rw [if_pos hp, if_pos hp]
      · rw [if_neg hp, if_neg hp, if_neg hp]
        rfl
    · rw [if_neg hs, if_neg hs]

/-- The forced refresh of a tap's ports, in order. -/
theorem forceTaps_one (j : Nat) (s : State) :
    forceTaps [j] s = [(j, 0), (j, 1), (j, 2), (j, 3)].foldl refreshForced s := by
  simp only [forceTaps, forceRefresh_eq]
  rfl

/-- A forced refresh does not look at the order in flight. -/
theorem forceRefresh_taken (tag : Byte) (o : Order) (p : Nat × Nat) (s : State) :
    forceRefresh p (taken tag o s) = taken tag o (forceRefresh p s) := by
  rw [forceRefresh_only_plant, forceRefresh_only_plant p s]
  rfl

/-- Nor does that of every port of the taps given. -/
theorem forceTaps_taken (tag : Byte) (o : Order) (taps : List Nat) (s : State) :
    forceTaps taps (taken tag o s) = taken tag o (forceTaps taps s) := by
  rw [forceTaps_only_plant, forceTaps_only_plant taps s]
  rfl

/-- The byte of a port's sync state in the reply to RESYNC. -/
def syncByte (t : State) (q : Nat × Nat) : List Byte := u8 ((portOf t q).elim 255 (fun r => syncNum r.sync))

/-- The sync states of ports stand behind their count. -/
theorem syncList_eq (t : State) (ps : List (Nat × Nat)) : syncList t ps = u8 ps.length ++ ps.flatMap (syncByte t) := by
  have byte (p : Nat × Nat) : u8 (((portOf t p).map (fun r => syncNum r.sync)).getD 255) = syncByte t p := by
    unfold syncByte
    cases portOf t p <;> rfl
  unfold syncList listOf
  simp only [byte]

section
variable {s : State}

/-- RESYNC of a slot out of range. -/
theorem orderResync_slot_range {n : Nat} (h : 2047 < n) : orderResync ⟨some n, none⟩ s = refuse .badArg s := if_pos h

/-- RESYNC of a slot that is not bound. -/
theorem orderResync_slot_unbound {n : Nat} (h : n ≤ 2047) (hu : tget s.subs n = none) :
    orderResync ⟨some n, none⟩ s = refuse .state s := by
  unfold orderResync
  dsimp only
  rw [if_neg (Nat.not_lt.mpr h), hu]
  rfl

/-- RESYNC of a bound slot. -/
theorem orderResync_slot_bound {n : Nat} (h : n ≤ 2047) {u : Subscriber} (hu : tget s.subs n = some u) {j : Nat} {x : Tap}
    (hx : tapAt s u.tap = some (j, x)) : orderResync ⟨some n, none⟩ s
      = answer .ok ([1] ++ syncByte (forceRefresh (j, u.port) s) (j, u.port)) (forceRefresh (j, u.port) s) := by
  have hport : (tget s.subs n).bind (slotPort s) = some (j, u.port) := by
    rw [hu, Option.bind_some, slotPort, hx]
    rfl
  have hlist (t : State) : syncList t [(j, u.port)] = [1] ++ syncByte t (j, u.port) := by
    have hcount : u8 [(j, u.port)].length = [1] := by simp [u8, be]
    rw [syncList_eq, List.flatMap_singleton, hcount]
  unfold orderResync
  dsimp only
  rw [if_neg (Nat.not_lt.mpr h), hport]
  dsimp only
  rw [hlist]

/-- RESYNC of an address out of range, or of no tap. -/
theorem orderResync_address_none {n : Nat} (h : 4095 < n ∨ tapAt s n = none) :
    orderResync ⟨none, some n⟩ s = refuse .badArg s := by
  unfold orderResync
  dsimp only
  by_cases hn : 4095 < n
  · exact if_pos hn
  · rw [if_neg hn, h.resolve_left hn]

/-- RESYNC of a tap. -/
theorem orderResync_address {n : Nat} (h : n ≤ 4095) {j : Nat} {x : Tap} (hx : tapAt s n = some (j, x)) :
    orderResync ⟨none, some n⟩ s = answer .ok ([4] ++ syncByte (forceTaps [j] s) (j, 0) ++ syncByte (forceTaps [j] s) (j, 1)
      ++ syncByte (forceTaps [j] s) (j, 2) ++ syncByte (forceTaps [j] s) (j, 3)) (forceTaps [j] s) := by
  have hlist (t : State) : syncList t (portsOf [j])
      = [4] ++ syncByte t (j, 0) ++ syncByte t (j, 1) ++ syncByte t (j, 2) ++ syncByte t (j, 3) := by
    have hcount : u8 (portsOf [j]).length = [4] := by simp [u8, be, portsOf]
    rw [syncList_eq, hcount]
    simp [portsOf]
  unfold orderResync
  dsimp only
  rw [if_neg (Nat.not_lt.mpr h), hx]
  dsimp only
  rw [hlist]

end

/-- Settles O37, by what the order names: a slot, an address, both or neither. -/
theorem resyncForcesRefresh : Obligations.ResyncForcesRefresh := by
  refine ⟨fun tag n s q w => ?_, fun tag n a s q w => ⟨answers_of rfl q w q.inFlight rfl, answers_of rfl q w q.inFlight rfl⟩⟩
  intro forced sync bySlot byTap
  have plantOnly {t : State} (h : PlantOnly s t) : t.link.inFlight = none := by
    rw [h.line.link]
    exact q.inFlight
  refine ⟨fun h => answers_of rfl q w q.inFlight (orderResync_slot_range h),
    fun h hu => answers_of rfl q w q.inFlight (orderResync_slot_unbound h hu), fun u j x h hu hx => ?_,
    fun h => answers_of rfl q w q.inFlight (orderResync_address_none h), fun j x h hx => ?_⟩
  · intro t
    have ht : t = forceRefresh (j, u.port) s := (forceRefresh_eq ..).symm
    have e := orderResync_slot_bound (s := taken tag (.resync ⟨some n, none⟩) s) h hu hx
    rw [forceRefresh_taken, ← ht] at e
    exact answers_of rfl q w (plantOnly (ht ▸ forceRefresh_plant ..)) e
  · intro t
    have ht : t = forceTaps [j] s := (forceTaps_one ..).symm
    have e := orderResync_address (s := taken tag (.resync ⟨none, some n⟩) s) h hx
    rw [forceTaps_taken, ← ht] at e
    exact answers_of rfl q w (plantOnly (ht ▸ forceTaps_plant ..)) e

end Sys2Proof.Safety
end

