-- ==== Proofs/PlantRules.lean ====
section
/-! PROOFS. What watch events leave, a port record written whole, and the ends of transactions: the layer that the proofs about the
plant line cite. -/

namespace Sys2Proof.Safety

open Sys2Proof.Machine

/-! ## Watch events (R113, R114) -/

/-- t is s but for what a watch event may change: the link's notices, the watch table and the print queue. -/
def WatchOnly (s t : State) : Prop := ∃ (l : Link) (ws : List WatchEntry) (c : Craft),
  t = { s with link := l, outage.watches := ws, craft := c } ∧ l.waiting = s.link.waiting ∧ c.holds = s.craft.holds

theorem WatchOnly.refl (s : State) : WatchOnly s s := ⟨_, _, _, rfl, rfl, rfl⟩

theorem WatchOnly.trans {s t u : State} : WatchOnly s t → WatchOnly t u → WatchOnly s u := by
  rintro ⟨_, _, _, rfl, hw, hc⟩ ⟨_, _, _, rfl, hw', hc'⟩
  exact ⟨_, _, _, rfl, hw'.trans hw, hc'.trans hc⟩

/-- A write of the watch table. -/
theorem WatchOnly.table (ws : List WatchEntry) (s : State) : WatchOnly s { s with outage.watches := ws } :=
  ⟨_, _, _, rfl, rfl, rfl⟩

/-- A notice changes no more. -/
theorem notice_watchOnly (kind : Nat) (urgent : Bool) (body : List Byte) (s : State) : WatchOnly s (notice kind urgent body s) := by
  rw [notice_eq]
  exact ⟨_, _, _, rfl, (noticedLink_keeps ..).1, rfl⟩

/-- A line of the controller's own changes no more. -/
theorem printLine_watchOnly (ws : List Text) (s : State) : WatchOnly s (printLine ws s) := by
  unfold printLine print fillPrint
  split
  · exact ⟨_, _, _, rfl, rfl, rfl⟩
  · split
    · exact ⟨_, _, _, rfl, rfl, rfl⟩
    · split <;> exact ⟨_, _, _, rfl, rfl, rfl⟩

/-- The report of a hit changes no more. -/
theorem reportHit_watchOnly (n : Nat) (w : Watch) (k : WatchKind) (a hits : Nat) (s : State) :
    WatchOnly s (reportHit n w k a hits s) := by
  unfold reportHit
  dsimp only
  split
  · exact notice_watchOnly ..
  · exact printLine_watchOnly ..

/-- The check of one entry changes no more. -/
theorem checkEntry_watchOnly (k : WatchKind) (a : Nat) (s : State) (n : Nat) : WatchOnly s (checkEntry k a s n) := by
  unfold checkEntry
  split
  · exact .refl s
  · split
    · exact .refl s
    · split
      · dsimp only
        split
        · exact (WatchOnly.table _ s).trans ((reportHit_watchOnly ..).trans (.table _ _))
        · exact (WatchOnly.table _ s).trans (reportHit_watchOnly ..)
      · exact .refl s

/-- A watch event changes the notices, the watch table and the print queue alone (R113, R114). -/
theorem watchEvent_watchOnly (k : WatchKind) (a : Nat) (s : State) : WatchOnly s (watchEvent k a s) := by
  unfold watchEvent
  generalize List.range 8 = l
  induction l generalizing s with
  | nil => exact .refl s
  | cons n l ih => exact (checkEntry_watchOnly k a s n).trans (ih _)

/-- What a watch event may change leaves the orders that wait. -/
theorem WatchOnly.waiting {s t : State} (h : WatchOnly s t) : t.link.waiting = s.link.waiting := by
  obtain ⟨l, ws, c, rfl, hw, -⟩ := h
  exact hw

/-! ## A port record written whole -/

/-- Two changes of a record that agree on it are one. -/
theorem tmod_congr {α : Type} {f g : α → α} {i : Nat} {l : List (Nat × α)} (h : ∀ x, tget l i = some x → f x = g x) :
    tmod l i f = tmod l i g := by
  induction l with
  | nil => rfl
  | cons y l ih =>
    obtain ⟨k, v⟩ := y
    unfold tmod
    by_cases hk : k = i
    · rw [if_pos hk, if_pos hk, h v (by rw [tget, if_pos hk])]
    · rw [if_neg hk, if_neg hk, ih (fun x hx => h x (by rw [tget, if_neg hk, hx]))]

/-- The state with a port record. -/
def putPort (p : Nat × Nat) (r : Port) (s : State) : State :=
  { s with plant.taps := tmod s.plant.taps p.1 (fun y => { y with ports := y.ports.set p.2 r }) }

/-- A port of a loaded tap. -/
theorem portOf_eq {s : State} {i q : Nat} {x : Tap} {r : Port} (hx : tget s.plant.taps i = some x) (hr : x.ports[q]? = some r) :
    portOf s (i, q) = some r := by
  unfold portOf
  rw [hx]
  exact hr

/-- A write to a port that stands is a write of its whole record. -/
theorem modPort_eq {s : State} {p : Nat × Nat} {r : Port} (hr : portOf s p = some r) (f : Port → Port) :
    modPort p f s = putPort p (f r) s := by
  have htaps : tmod s.plant.taps p.1 (fun t => { t with ports := lmod t.ports p.2 f })
      = tmod s.plant.taps p.1 (fun t => { t with ports := t.ports.set p.2 (f r) }) := by
    refine tmod_congr fun x hx => ?_
    unfold portOf at hr
    rw [hx, Option.bind_some] at hr
    unfold lmod
    rw [hr]
  unfold modPort putPort
  rw [htaps]

/-- Two writes of the record of one port are the second. -/
theorem putPort_putPort (p : Nat × Nat) (r r' : Port) (s : State) : putPort p r' (putPort p r s) = putPort p r' s := by
  unfold putPort
  simp only [tmod_tmod, List.set_set]

/-- A record written to a port that stands is read back. -/
theorem portOf_putPort {s : State} {p : Nat × Nat} {r : Port} (hr : portOf s p = some r) (r' : Port) :
    portOf (putPort p r' s) p = some r' := by
  rw [← modPort_eq hr (fun _ => r'), portOf_modPort, if_pos rfl, hr]
  rfl

/-- A tap with one of its port records written. -/
theorem tget_putPort {s : State} {p : Nat × Nat} {x : Tap} (hx : tget s.plant.taps p.1 = some x) (r : Port) :
    tget (putPort p r s).plant.taps p.1 = some { x with ports := x.ports.set p.2 r } := by
  show tget (tmod _ _ _) _ = _
  rw [tget_tmod, if_pos rfl, hx]
  rfl

/-- The park conditions of a loaded tap (R58). -/
theorem parkHoldsAt_eq {s : State} {i : Nat} {x : Tap} (hx : tget s.plant.taps i = some x) : parkHoldsAt s i = parkHolds s x := by
  unfold parkHoldsAt
  rw [hx]

/-- The park conditions do not look at a port record. -/
theorem parkHoldsAt_putPort {s : State} {p : Nat × Nat} {x : Tap} (hx : tget s.plant.taps p.1 = some x) (r : Port) :
    parkHoldsAt (putPort p r s) p.1 = parkHolds s x := by
  rw [parkHoldsAt_eq (tget_putPort hx r)]
  rfl

/-! ## The end of a transaction (R64, R65) -/

/-- The state with its transaction given up: the line is IDLE (R64, R66). -/
def lineFreed (s : State) : State := { s with plant.current := none, plant.line := .idle, plant.timer := 0 }

/-- The park conditions do not look at the transaction. -/
theorem parkHolds_lineFreed (s : State) (x : Tap) : parkHolds (lineFreed s) x = parkHolds s x := by
  unfold parkHolds
  rfl

section
variable {s : State} {t : Transaction} (ht : s.plant.current = some t)
include ht

/-- The end of the window hands NO_REPLY on (R64). -/
theorem exec_windowExpiry (hl : s.plant.line = .window) :
    exec .replyWindowExpiry s = .next (finish (handOutcome t none (lineFreed s))) := by
  show Host.Outcome.next (finish _) = _
  rw [if_pos hl]
  unfold endTx
  rw [ht]
  rfl

variable (hl : s.plant.line = .turnaround ∨ s.plant.line = .window) {t' : Transaction} {cs : List PlantChar}
include hl

/-- Characters that complete a valid reply hand it on (R65). -/
theorem exec_replyComplete {f : List Byte} (hc : takeChars t cs = (t', some f)) :
    exec (.plantReplyReceived cs) s = .next (finish (handOutcome t (some f) (lineFreed s))) := by
  show Host.Outcome.next (finish (plantReceive cs s)) = _
  unfold plantReceive
  rw [if_pos (by simpa using hl), ht]
  dsimp only
  rw [hc]
  dsimp only
  unfold endTx
  rw [ht]
  rfl

/-- Characters that complete none are kept with the transaction (R65). -/
theorem exec_replyPart (hc : takeChars t cs = (t', none)) :
    exec (.plantReplyReceived cs) s = .next (finish { s with plant.current := some t' }) := by
  show Host.Outcome.next (finish (plantReceive cs s)) = _
  unfold plantReceive
  rw [if_pos (by simpa using hl), ht]
  dsimp only
  rw [hc]

end

end Sys2Proof.Safety
end

