-- ==== Proofs/PortCommands.lean ====
section
/-! PROOFS. The phases of the plant line and the acknowledgment of a port command (R56, R64 to R66, R79, R82; O41), and a port
command without a valid reply (R57, R79, R80; O42). -/

namespace Sys2Proof.Safety

open Sys2Proof.Machine

/-! ## The assembly of a reply (R65) -/

/-- A transaction that has failed takes no more characters, and one that awaits its first takes none without a wake flag. -/
theorem takeChars_deaf {t : Transaction} {cs : List PlantChar} (h : t.failed = true ∨ (t.buffer = [] ∧ ∀ c ∈ cs, c.wake = false)) :
    takeChars t cs = (t, none) := by
  induction cs with
  | nil => rfl
  | cons c cs ih =>
    have hc : takeChar t c = (t, none) := if_pos (by
      rcases h with h | ⟨hb, hw⟩
      · simp [h]
      · simp [hb, hw c (List.mem_cons_self ..)])
    unfold takeChars
    rw [hc]
    exact ih (h.imp id (fun h => ⟨h.1, fun x hx => h.2 x (List.mem_cons_of_mem _ hx)⟩))

/-- A frame is a valid reply to a transaction: of its kind's length, with that kind in its second character (R63, R65). -/
structure RepliesTo (t : Transaction) (f : List Byte) : Prop where
  listens : t.failed = false
  length  : f.length = replyLength (replyKindOf t)
  kind    : ∀ b, f[1]? = some b → b.toNat % 16 = replyKindOf t
  valid   : replyValid t f = true

/-- The characters behind the first complete a valid reply. -/
theorem takeChars_rest {t : Transaction} {f : List Byte} (h : RepliesTo t f) (rest pre : List Byte) (hpre : pre ≠ [])
    (hrest : rest ≠ []) (hf : pre ++ rest = f) :
    takeChars { t with buffer := pre } (rest.map (fun x => ⟨x, false, true⟩)) = ({ t with buffer := f }, some f) := by
  induction rest generalizing pre with
  | nil => exact absurd rfl hrest
  | cons b rest ih =>
    have hkind : ((pre ++ [b]).length = 2 && b.toNat % 16 ≠ replyKindOf t) = false := by
      rw [Bool.and_eq_false_iff, decide_eq_false_iff_not, decide_eq_false_iff_not, not_not]
      by_cases hl : (pre ++ [b]).length = 2
      · refine .inr (h.kind b ?_)
        have hp : pre.length = 1 := by simpa using hl
        rw [← hf, List.getElem?_append_right (by omega), hp]
        rfl
      · exact .inl hl
    have hopen : (t.failed || (pre.isEmpty && !false)) = false := by simp [h.listens, hpre]
    have hstep : takeChar { t with buffer := pre } ⟨b, false, true⟩
        = if (pre ++ [b]).length < replyLength (replyKindOf t) then ({ t with buffer := pre ++ [b] }, none)
          else if replyValid t (pre ++ [b]) then ({ t with buffer := pre ++ [b] }, some (pre ++ [b]))
          else ({ t with buffer := pre ++ [b], failed := true }, none) := by
      unfold takeChar
      dsimp only
      rw [hopen]
      refine (if_neg (by decide)).trans ((if_neg (by decide)).trans ?_)
      exact (congrArg (fun x : Bool => if x = true then _ else _) hkind).trans (if_neg (by decide))
    have hlen : pre.length + (rest.length + 1) = replyLength (replyKindOf t) := by
      rw [← h.length, ← hf, List.length_append, List.length_cons]
    rw [List.map_cons]
    unfold takeChars
    rw [hstep]
    cases rest with
    | nil =>
      rw [if_neg (by simp at hlen ⊢; omega), hf, if_pos h.valid]
    | cons c rest =>
      rw [if_pos (by simp at hlen ⊢; omega)]
      exact ih (pre ++ [b]) (by simp) (by simp) (by simpa using hf)

/-- The characters of a valid reply complete it, whatever was assembled before its wake character. -/
theorem takeChars_reply {t : Transaction} {f : List Byte} (h : RepliesTo t f) :
    takeChars t (wakeFirst f) = ({ t with buffer := f }, some f) := by
  have hlong : 2 ≤ replyLength (replyKindOf t) := by
    unfold replyLength
    split <;> omega
  cases f with
  | nil =>
    have := h.length
    simp at this
    omega
  | cons b bs =>
    have hb : bs ≠ [] := by
      rintro rfl
      have := h.length
      simp at this
      omega
    have hstep : takeChar t ⟨b, true, true⟩ = ({ t with buffer := [b] }, none) := by
      unfold takeChar
      simp [h.listens, show 1 < replyLength (replyKindOf t) by omega]
    unfold wakeFirst takeChars
    rw [hstep]
    exact takeChars_rest h bs [b] (by simp) hb rfl

/-- Characters numbered from the first, which alone has its wake flag, are a frame's (R62). -/
theorem zipIdx_wakeFirst (f : List Byte) : f.zipIdx.map (fun c => (⟨c.1, c.2 = 0, true⟩ : PlantChar)) = wakeFirst f := by
  have rest (l : List Byte) (k : Nat) :
      (l.zipIdx (k + 1)).map (fun c => (⟨c.1, c.2 = 0, true⟩ : PlantChar)) = l.map (fun x => ⟨x, false, true⟩) := by
    induction l generalizing k with
    | nil => rfl
    | cons b l ih =>
      rw [List.zipIdx_cons, List.map_cons, List.map_cons, ih]
      simp
  cases f with
  | nil => rfl
  | cons b bs =>
    rw [List.zipIdx_cons, List.map_cons, rest]
    rfl

/-! ## The frame of a PORT-ACK (R63) -/

/-- The third character of a PORT-ACK: the port, the tamper switch and the enable. -/
def ackSwitches (t : Transaction) (tamper : Bool) : Nat :=
  t.port + (if tamper then 64 else 0) + (if t.content.enable then 128 else 0)

/-- The characters of a PORT-ACK before its check character. -/
def ackHead (t : Transaction) (tamper : Bool) : List Byte :=
  [BitVec.ofNat 8 (t.address / 16), BitVec.ofNat 8 (t.address % 16 * 16 + 9), BitVec.ofNat 8 (ackSwitches t tamper),
    sum8 (passBytes t.content.pass)]

/-- A PORT-ACK that agrees with the command sent. -/
def ackFrame (t : Transaction) (tamper : Bool) : List Byte := ackHead t tamper ++ [sum8 (ackHead t tamper)]

/-- What the third character says of the port, the switch and the enable. -/
theorem ackSwitches_bits {t : Transaction} (hp : t.port ≤ 3) (tamper : Bool) : ackSwitches t tamper < 256
    ∧ ackSwitches t tamper % 4 = t.port ∧ (ackSwitches t tamper).testBit 6 = tamper
    ∧ (ackSwitches t tamper).testBit 7 = t.content.enable := by
  unfold ackSwitches
  simp only [Nat.testBit_eq_decide_div_mod_eq]
  cases tamper <;> cases t.content.enable <;> simp <;> omega

/-- The third character of a PORT-ACK is read back. -/
theorem fld_ackFrame {t : Transaction} (hp : t.port ≤ 3) (tamper : Bool) : fld (ackFrame t tamper) 2 1 = ackSwitches t tamper := by
  have hs := (ackSwitches_bits hp tamper).1
  show fld [_, _, BitVec.ofNat 8 (ackSwitches t tamper), _, _] 2 1 = _
  rw [fld_cons (by omega), fld_cons (by omega), fld_head, BitVec.toNat_ofNat, Nat.mod_eq_of_lt hs]

/-- A port command is answered by a PORT-ACK. -/
theorem replyKindOf_port {t : Transaction} (h : t.purpose = .portCommand) : replyKindOf t = 9 := by
  unfold replyKindOf txKind
  rw [h]
  rfl

/-- A PORT-ACK that agrees with a port command is a valid reply to it. -/
theorem ackFrame_replies {t : Transaction} (hpur : t.purpose = .portCommand) (hf : t.failed = false) (ha : t.address ≤ 4095)
    (hp : t.port ≤ 3) (tamper : Bool) : RepliesTo t (ackFrame t tamper) := by
  have hk := replyKindOf_port hpur
  obtain ⟨-, hport, -, henable⟩ := ackSwitches_bits hp tamper
  have h0 : fld (ackFrame t tamper) 0 1 = t.address / 16 := by
    show fld (BitVec.ofNat 8 (t.address / 16) :: _) 0 1 = _
    rw [fld_head, BitVec.toNat_ofNat, Nat.mod_eq_of_lt (by omega)]
  have h1 : fld (ackFrame t tamper) 1 1 / 16 = t.address % 16 := by
    show fld [_, BitVec.ofNat 8 (t.address % 16 * 16 + 9), _, _, _] 1 1 / 16 = _
    rw [fld_cons (by omega), fld_head, BitVec.toNat_ofNat]
    omega
  have h3 : fld (ackFrame t tamper) 3 1 = (sum8 (passBytes t.content.pass)).toNat := by
    show fld [_, _, _, sum8 (passBytes t.content.pass), _] 3 1 = _
    rw [fld_cons (by omega), fld_cons (by omega), fld_cons (by omega), fld_head]
  refine ⟨hf, by rw [hk]; rfl, fun b hb => ?_, ?_⟩
  · rw [hk]
    cases hb
    rw [BitVec.toNat_ofNat]
    omega
  · have hlast : (ackFrame t tamper).getLast? = some (sum8 (ackFrame t tamper).dropLast) := by
      unfold ackFrame
      rw [List.getLast?_concat, List.dropLast_concat]
    unfold replyValid
    rw [h0, h1, h3, fld_ackFrame hp, hlast, hk, hport, henable]
    simp

/-! ## The acknowledgment of a port command (R56, R82) -/

/-- A port record whose command has been acknowledged, but for its sync state. -/
def settledPort (r : Port) (c : Content) : Port := { r with confirmed := some c, inFlight := none, attempts := 0, cls := none }

section
variable {s : State} {p : Nat × Nat} {x : Tap} {r : Port} {c : Content} (hx : tget s.plant.taps p.1 = some x)
  (hr : x.ports[p.2]? = some r) (hc : r.inFlight = some c)
include hx hr hc

/-- The acknowledgment of the desired content. -/
theorem ackPort_same (h : r.desired = c) : ackPort p s = putPort p { settledPort r c with sync := .inSync } s := by
  have hport : portOf s p = some r := portOf_eq hx hr
  unfold ackPort
  rw [hport]
  dsimp only
  rw [if_pos (by rw [hc, h]), modPort_modPort, modPort_eq hport, hc]
  rfl

variable (h : r.desired ≠ c)
include h

/-- The acknowledgment of another content marks the port again. -/
theorem ackPort_other : ackPort p s = pend (r.cls.getD .refresh) p (putPort p (settledPort r c) s) := by
  have hport : portOf s p = some r := portOf_eq hx hr
  unfold ackPort
  rw [hport]
  dsimp only
  rw [if_neg (by rw [hc]; simpa using Ne.symm h), modPort_eq hport, hc]
  rfl

/-- Under the park conditions the port is PARKED. -/
theorem ackPort_parks (hp : parkHolds s x = true) : ackPort p s = putPort p { settledPort r c with sync := .parked } s := by
  rw [ackPort_other hx hr hc h]
  unfold pend
  rw [parkHoldsAt_putPort hx, if_pos hp, modPort_eq (portOf_putPort (portOf_eq hx hr) _), putPort_putPort]
  rfl

/-- Else it is PENDING again. -/
theorem ackPort_pends (hp : parkHolds s x = false) : ackPort p s = joinQueue (r.cls.getD .refresh) p
    (putPort p { settledPort r c with sync := .pending, cls := some (r.cls.getD .refresh) } s) := by
  rw [ackPort_other hx hr hc h]
  unfold pend
  rw [parkHoldsAt_putPort hx, if_neg (by simp [hp]), modPort_eq (portOf_putPort (portOf_eq hx hr) _), putPort_putPort]

end

/-- A TAMPER event of a tap whose tamper flag was clear and is now set (R82). -/
def tamperTold (x : Tap) (v : Bool) (s : State) : State :=
  if v = true ∧ x.tamper = false then watchEvent .tamper x.address s else s

/-- The tamper flag of a loaded tap is taken (R82). -/
theorem takeTamper_eq {s : State} {i : Nat} {x : Tap} (hx : tget s.plant.taps i = some x) (v : Bool) :
    takeTamper i v s = tamperTold x v (modTap i (fun t => { t with tamper := v }) s) := by
  unfold takeTamper tamperTold
  rw [hx]
  simp only [Bool.and_eq_true, Bool.not_eq_true']

/-- The report of a tamper flag leaves the orders that wait. -/
theorem tamperTold_waiting (x : Tap) (v : Bool) (s : State) : (tamperTold x v s).link.waiting = s.link.waiting := by
  unfold tamperTold
  split
  · exact (watchEvent_watchOnly ..).waiting
  · rfl

/-- The state with a port record and the tamper flag of its tap. -/
def putAcked (p : Nat × Nat) (r : Port) (v : Bool) (s : State) : State :=
  { s with plant.taps := tmod s.plant.taps p.1 (fun y => { y with ports := y.ports.set p.2 r, tamper := v }) }

/-- A port record written, then the tamper flag of its tap. -/
theorem modTap_putPort (p : Nat × Nat) (r : Port) (v : Bool) (s : State) :
    modTap p.1 (fun t => { t with tamper := v }) (putPort p r s) = putAcked p r v s := by
  unfold modTap putPort putAcked
  simp only [tmod_tmod]

/-- A port that joins a queue leaves the taps. -/
theorem joinQueue_taps (k : PClass) (p : Nat × Nat) (s : State) : (joinQueue k p s).plant.taps = s.plant.taps := by
  cases k <;> rfl

/-- A port record written and queued, then the tamper flag of its tap. -/
theorem modTap_joinQueue (k : PClass) (p : Nat × Nat) (r : Port) (v : Bool) (s : State) :
    modTap p.1 (fun t => { t with tamper := v }) (joinQueue k p (putPort p r s)) = joinQueue k p (putAcked p r v s) := by
  rw [← modTap_putPort]
  cases k <;> rfl

section
variable {s : State} {t : Transaction} (hw : s.link.waiting = []) (ht : s.plant.current = some t)
include hw ht

/-- A PORT-ACK that agrees with the command sent is taken: its port, then the tamper flag of its tap (R56, R82). -/
theorem exec_portAck (hl : s.plant.line = .turnaround ∨ s.plant.line = .window) (hpur : t.purpose = .portCommand)
    (hf : t.failed = false) (ha : t.address ≤ 4095) (hp : t.port ≤ 3) (tamper : Bool) {x : Tap}
    (hx : tget s.plant.taps t.index = some x) {u : State} (hu : ackPort (t.index, t.port) (lineFreed s) = u)
    (hplant : PlantOnly s u) {v : Port} (htaps : u.plant.taps = (putPort (t.index, t.port) v s).plant.taps) :
    exec (.plantReplyReceived (wakeFirst (ackFrame t tamper))) s
      = .next (kick (tamperTold x tamper (modTap t.index (fun y => { y with tamper := tamper }) u))) := by
  have hy : tget u.plant.taps t.index = some { x with ports := x.ports.set t.port v } := by
    rw [htaps]
    exact tget_putPort (p := (t.index, t.port)) hx v
  have hfld : (fld (ackFrame t tamper) 2 1).testBit 6 = tamper := by
    rw [fld_ackFrame hp]
    exact (ackSwitches_bits hp tamper).2.2.1
  have hend : handOutcome t (some (ackFrame t tamper)) (lineFreed s)
      = tamperTold x tamper (modTap t.index (fun y => { y with tamper := tamper }) u) := by
    unfold handOutcome
    rw [hpur]
    dsimp only
    rw [hfld, hu, takeTamper_eq hy]
    rfl
  have hlink : u.link = s.link := hplant.line.link
  rw [exec_replyComplete ht hl (takeChars_reply (ackFrame_replies hpur hf ha hp tamper)), hend, finish_of_none]
  rw [tamperTold_waiting]
  show u.link.waiting = []
  rw [hlink, hw]

end

/-- Settles O41: the phases of the line by what each event finds, and the PORT-ACK by the content that the port desires. -/
theorem plantLineTurnsAndAcks : Obligations.PlantLineTurnsAndAcks := by
  refine ⟨fun t cs s hw ht => ?_, fun t x r tamper s hw ht hl hpur hf hb ha hp hx hr hin => ?_⟩
  · have ends {u : State} (hu : u.link = s.link) : finish u = kick u := finish_of_none ((congrArg Link.waiting hu).trans hw)
    have busy {u : State} (hu : u.plant.line ≠ .idle) : kick u = u := kick_of_not_idle (.inr hu)
    refine ⟨fun hl => ?_, fun hl => ?_, fun hl => ?_, fun hl => ?_, fun h1 h2 => ?_, fun hl hd => ?_, fun hl => ?_,
      fun p a i toTap port c => rfl⟩
    · show Host.Outcome.next (finish _) = _
      rw [if_pos hl, ends (by rfl), busy (by simp)]
    · show Host.Outcome.next (finish _) = _
      rw [if_neg hl, ends rfl]
    · show Host.Outcome.next (finish _) = _
      rw [if_pos hl, ends (by rfl), busy (by simp), windowOf, ht]
    · show Host.Outcome.next (finish _) = _
      rw [if_neg hl, ends rfl]
    · show Host.Outcome.next (finish (plantReceive cs s)) = _
      unfold plantReceive
      rw [if_neg (by simp [h1, h2]), ends rfl]
    · have hs : ({ s with plant.current := some t } : State) = s := by
        rw [← ht]
      rw [exec_replyPart ht hl (takeChars_deaf hd), hs, ends rfl, busy (by rcases hl with hl | hl <;> simp [hl])]
    · show Host.Outcome.next (finish _) = _
      rw [if_neg hl, ends rfl]
  · intro head chars q settled put ends
    have hchars : chars = wakeFirst (ackFrame t tamper) := zipIdx_wakeFirst _
    have hx' : tget (lineFreed s).plant.taps q.1 = some x := hx
    have acked (v : Port) (hv : ackPort q (lineFreed s) = putPort q v (lineFreed s)) : ends (put v) := by
      have e := exec_portAck hw ht hl hpur hf ha hp tamper hx hv ⟨_, rfl⟩ (v := v) rfl
      rw [← hchars, modTap_putPort q v] at e
      exact e
    rw [← parkHolds_lineFreed]
    refine ⟨?_, ?_, ?_⟩
    · intro h
      exact acked _ (ackPort_same hx' hr hin h)
    · intro h hpk
      exact acked _ (ackPort_parks hx' hr hin h hpk)
    intro h hpk c u
    have hv := ackPort_pends hx' hr hin h hpk
    have hplant : PlantOnly s (joinQueue c q (putPort q { settled with sync := .pending, cls := some c } (lineFreed s))) :=
      PlantOnly.trans (t := putPort q { settled with sync := .pending, cls := some c } (lineFreed s)) ⟨_, rfl⟩ (joinQueue_plant ..)
    have e := exec_portAck hw ht hl hpur hf ha hp tamper hx hv hplant (joinQueue_taps c q _)
    rw [← hchars, modTap_joinQueue c q] at e
    exact e

/-! ## Ports of one tap leave the queues (R55) -/

/-- An entry of the URGENT queue that is no port of a tap that a test names. -/
def keepsItem (i : Nat) (test : Nat → Bool) : UrgentItem → Bool
  | .port j q _ => !(decide (j = i) && test q)
  | .craft _ => true

/-- The ports of a tap that a test names leave the queues. -/
def quits (i : Nat) (test : Nat → Bool) (u : State) : State := { u with
  plant.urgent := u.plant.urgent.filter (keepsItem i test)
  plant.refresh := u.plant.refresh.filter (fun e => !(decide (e.1 = i) && test e.2)) }

/-- One port leaves the queues. -/
theorem leaveQueues_quits (i q : Nat) (u : State) : leaveQueues (i, q) u = quits i (fun k => decide (k = q)) u := by
  have pair (a b : Nat) : decide ((a, b) ≠ (i, q)) = !(decide (a = i) && decide (b = q)) := by
    rw [decide_not, ← Bool.decide_and]
    simp only [Prod.mk.injEq]
  have hport (e : UrgentItem) : (match e with | .port a b _ => decide ((a, b) ≠ (i, q)) | .craft _ => true)
      = keepsItem i (fun k => decide (k = q)) e := by
    cases e with
    | craft r => rfl
    | port a b m => exact pair a b
  have hqueue := List.filter_congr (l := u.plant.urgent) (fun e _ => hport e)
  have hpairs := List.filter_congr (l := u.plant.refresh) (fun e _ => pair e.1 e.2)
  exact congrArg₂ (fun a b => ({ u with plant.urgent := a, plant.refresh := b } : State)) hqueue hpairs

/-- Ports that leave after others leave with them. -/
theorem quits_quits (i : Nat) (a b : Nat → Bool) (u : State) : quits i b (quits i a u) = quits i (fun q => a q || b q) u := by
  have one (d x y : Bool) : (!(d && y) && !(d && x)) = !(d && (x || y)) := by
    rw [Bool.and_or_distrib_left, Bool.not_or, Bool.and_comm]
  have hport (e : UrgentItem) : (keepsItem i b e && keepsItem i a e) = keepsItem i (fun q => a q || b q) e := by
    cases e with
    | craft r => rfl
    | port j q m => exact one _ _ _
  unfold quits
  simp only [List.filter_filter, hport, one]

/-- Where no port is named none leaves. -/
theorem quits_none {i : Nat} {test : Nat → Bool} (h : ∀ q, test q = false) (u : State) : quits i test u = u := by
  have hport : keepsItem i test = fun _ => true := by
    funext e
    cases e with
    | craft r => rfl
    | port j q m => simp [keepsItem, h]
  unfold quits
  simp only [hport, h, Bool.and_false, Bool.not_false, List.filter_true]

/-! ## A port command without a valid reply (R57, R79) -/

/-- A port record after one more failed attempt. -/
def failedPort (r : Port) : Port := { r with confirmed := none, inFlight := none, attempts := r.attempts + 1, cls := none }

/-- A port record PARKED (R58). -/
def parkedPort (r : Port) : Port := { r with sync := .parked, cls := none, attempts := 0 }

section
variable {s : State} {i q : Nat} {x : Tap} {r : Port} (hx : tget s.plant.taps i = some x) (hr : x.ports[q]? = some r)
include hx hr

/-- A first or second failure with no park conditions: the port is retried at the head of the URGENT queue. -/
theorem failPort_retries (h : r.attempts < 2) (hp : parkHolds s x = false) : failPort (i, q) s
    = joinUrgentHead (i, q) false (putPort (i, q) { failedPort r with sync := .pending, cls := some .urgent } s) := by
  have hport := portOf_eq hx hr
  unfold failPort
  rw [hport]
  dsimp only
  rw [if_neg (by omega), modPort_eq hport, parkHoldsAt_putPort (p := (i, q)) hx, if_neg (by simp [hp]),
    modPort_eq (portOf_putPort hport _), putPort_putPort]
  rfl

/-- A first or second failure under the park conditions: the port is PARKED. -/
theorem failPort_parks (h : r.attempts < 2) (hp : parkHolds s x = true) : failPort (i, q) s
    = quits i (fun k => decide (k = q)) (putPort (i, q) (parkedPort (failedPort r)) s) := by
  have hport := portOf_eq hx hr
  unfold failPort
  rw [hport]
  dsimp only
  rw [if_neg (by omega), modPort_eq hport, parkHoldsAt_putPort (p := (i, q)) hx, if_pos hp, parkPort,
    modPort_eq (portOf_putPort hport _), putPort_putPort, leaveQueues_quits]
  rfl

/-- The third failure makes the tap UNREACHABLE. -/
theorem failPort_fails (h : 2 ≤ r.attempts) : failPort (i, q) s = failTap i q (putPort (i, q) (failedPort r) s) := by
  have hport := portOf_eq hx hr
  unfold failPort
  rw [hport]
  dsimp only
  rw [if_pos (by omega), modPort_eq hport]
  rfl

end

/-! ## A tap becomes UNREACHABLE (R80) -/

/-- A port of the tap parks as the tap becomes UNREACHABLE: the one that failed, and a PENDING one. -/
def parksAt (p q : Nat) (y : Port) : Bool := decide (q = p) || decide (y.sync = .pending)

/-- The ports of a tap with those that park below a number PARKED. -/
def parkedBelow (p k : Nat) (l : List Port) : List Port :=
  l.zipIdx.map (fun z => if decide (z.2 < k) && parksAt p z.2 z.1 then parkedPort z.1 else z.1)

/-- A port of a tap below a number parks. -/
def leavesBelow (p k : Nat) (l : List Port) (q : Nat) : Bool := decide (q < k) && (l[q]?).any (parksAt p q)

/-- A port read of them. -/
theorem parkedBelow_get (p k : Nat) (l : List Port) (q : Nat) : (parkedBelow p k l)[q]?
    = (l[q]?).map (fun y => if decide (q < k) && parksAt p q y then parkedPort y else y) := by
  unfold parkedBelow
  rw [List.getElem?_map, List.getElem?_zipIdx, Option.map_map]
  cases l[q]? with
  | none => rfl
  | some y => simp

/-- Below 0 none is PARKED. -/
theorem parkedBelow_zero (p : Nat) (l : List Port) : parkedBelow p 0 l = l := by
  refine List.ext_getElem? fun q => ?_
  rw [parkedBelow_get]
  simp

/-- One more port that parks is PARKED. -/
theorem parkedBelow_parks {p k : Nat} {l : List Port} {y : Port} (hy : l[k]? = some y) (h : parksAt p k y = true) :
    parkedBelow p (k + 1) l = (parkedBelow p k l).set k (parkedPort y) := by
  have hlen : k < (parkedBelow p k l).length := by
    have := (List.getElem?_eq_some_iff.mp hy).1
    simpa [parkedBelow] using this
  refine List.ext_getElem? fun q => ?_
  rw [parkedBelow_get, List.getElem?_set]
  by_cases hq : k = q
  · subst hq
    rw [if_pos rfl, if_pos hlen, hy]
    simp [h]
  · have hlt : (q < k + 1) = (q < k) := by rw [eq_iff_iff]; omega
    simp only [if_neg hq, parkedBelow_get, hlt]

/-- One more port that does not park stays. -/
theorem parkedBelow_stays {p k : Nat} {l : List Port} {y : Port} (hy : l[k]? = some y) (h : parksAt p k y = false) :
    parkedBelow p (k + 1) l = parkedBelow p k l := by
  refine List.ext_getElem? fun q => ?_
  rw [parkedBelow_get, parkedBelow_get]
  by_cases hq : k = q
  · subst hq
    rw [hy]
    simp [h]
  · have hlt : (q < k + 1) = (q < k) := by rw [eq_iff_iff]; omega
    simp only [hlt]

/-- One more port leaves the queues where it parks. -/
theorem leavesBelow_succ {p k : Nat} {l : List Port} {y : Port} (hy : l[k]? = some y) (q : Nat) :
    leavesBelow p (k + 1) l q = (leavesBelow p k l q || (decide (q = k) && parksAt p k y)) := by
  unfold leavesBelow
  by_cases hq : q = k
  · subst hq
    simp [hy]
  · have hlt : (q < k + 1) = (q < k) := by rw [eq_iff_iff]; omega
    simp [hq, hlt]

/-- One port of a tap that becomes UNREACHABLE (R80). -/
def failStep (p : Nat) (s : State) (q : Nat × Nat) : State :=
  match portOf s q with
  | none => s
  | some r => if q.2 = p || r.sync = .pending then parkPort q s else s

/-- The state in which the ports of a tap below a number have been gone through. -/
def failedTo (i p k : Nat) (l : List Port) (s : State) : State := quits i (leavesBelow p k l)
  { s with plant.taps := tmod s.plant.taps i (fun y => { y with ports := parkedBelow p k l }) }

/-- One more port is gone through. -/
theorem failStep_failedTo {s : State} {i p k : Nat} {l : List Port} {x : Tap} (hx : tget s.plant.taps i = some x) {y : Port}
    (hy : l[k]? = some y) : failStep p (failedTo i p k l s) (i, k) = failedTo i p (k + 1) l s := by
  have htap : tget (failedTo i p k l s).plant.taps i = some { x with ports := parkedBelow p k l } := by
    show tget (tmod _ _ _) _ = _
    rw [tget_tmod, if_pos rfl, hx]
    rfl
  have hport : portOf (failedTo i p k l s) (i, k) = some y := by
    refine portOf_eq htap ?_
    rw [parkedBelow_get, hy]
    simp
  unfold failStep
  rw [hport]
  dsimp only
  by_cases h : parksAt p k y = true
  · have hleaves : leavesBelow p (k + 1) l = fun q => leavesBelow p k l q || decide (q = k) := by
      funext q
      rw [leavesBelow_succ hy, h, Bool.and_true]
    rw [if_pos (by exact h), parkPort, modPort_eq hport, leaveQueues_quits]
    unfold failedTo
    rw [hleaves, ← quits_quits, parkedBelow_parks hy h]
    unfold putPort
    congr 1
    unfold quits
    simp only [tmod_tmod]
    rfl
  · have h : parksAt p k y = false := by simpa using h
    have hleaves : leavesBelow p (k + 1) l = leavesBelow p k l := by
      funext q
      rw [leavesBelow_succ hy, h, Bool.and_false, Bool.or_false]
    rw [if_neg (by intro hp; rw [show parksAt p k y = true from hp] at h; cases h)]
    unfold failedTo
    rw [hleaves, parkedBelow_stays hy h]

/-- The four ports of a tap are gone through. -/
theorem failStep_tap {s : State} {i p : Nat} {x : Tap} (hx : tget s.plant.taps i = some x) (hlen : x.ports.length = 4) :
    (portsOf [i]).foldl (failStep p) s = failedTo i p 4 x.ports s := by
  have hstart : failedTo i p 0 x.ports s = s := by
    have htaps : tmod s.plant.taps i (fun y => { y with ports := x.ports }) = s.plant.taps :=
      (tmod_congr (g := fun y => y) fun y hy => by rw [hx] at hy; cases hy; rfl).trans (tmod_id _ (fun _ => rfl) _ _)
    unfold failedTo
    rw [parkedBelow_zero, htaps]
    exact quits_none (fun q => by simp [leavesBelow]) _
  have hget (k : Nat) (hk : k < 4) : ∃ y, x.ports[k]? = some y := ⟨_, List.getElem?_eq_getElem (by omega)⟩
  obtain ⟨y0, h0⟩ := hget 0 (by omega)
  obtain ⟨y1, h1⟩ := hget 1 (by omega)
  obtain ⟨y2, h2⟩ := hget 2 (by omega)
  obtain ⟨y3, h3⟩ := hget 3 (by omega)
  show failStep p (failStep p (failStep p (failStep p s (i, 0)) (i, 1)) (i, 2)) (i, 3) = _
  conv_lhs => rw [← hstart]
  rw [failStep_failedTo hx h0, failStep_failedTo hx h1, failStep_failedTo hx h2, failStep_failedTo hx h3]

/-- A tap that becomes UNREACHABLE: its ports, TAP_FAILED, and the watch event (R80). -/
theorem failTap_eq {s : State} {i p : Nat} {x : Tap} (hx : tget s.plant.taps i = some x) (hlen : x.ports.length = 4) :
    failTap i p s = watchEvent .tapUnreachable x.address (notice nkTapFailed false
      (u16 i ++ u16 x.address ++ u8 x.segment ++ u8 p ++ opt 4 (s.time.clock.map (·.1)))
      (failedTo i p 4 x.ports (modTap i (fun t => { t with unreachable := some (minuteOf s) }) s))) := by
  have htap : tget (modTap i (fun t => { t with unreachable := some (minuteOf s) }) s).plant.taps i
      = some { x with unreachable := some (minuteOf s) } := by
    show tget (tmod _ _ _) _ = _
    rw [tget_tmod, if_pos rfl, hx]
    rfl
  have hwalk := failStep_tap (p := p) htap hlen
  unfold failTap
  rw [hx]
  show watchEvent _ _ (notice _ _ (_ ++ opt 4 (State.time (List.foldl (failStep p) _ _) |>.clock.map (·.1)))
    ((portsOf [i]).foldl (failStep p) _)) = _
  rw [hwalk]
  rfl

/-- The ports of a tap that park, where the one that failed has its record written. -/
theorem leavesBelow_failed {p : Nat} {l : List Port} (hlen : l.length = 4) {y : Port} (hp : p < 4) (q : Nat) :
    leavesBelow p 4 (l.set p y) q = (l[q]?).any (parksAt p q) := by
  unfold leavesBelow
  by_cases hq : q < 4
  · rw [decide_eq_true hq, Bool.true_and]
    by_cases hpq : p = q
    · subst hpq
      rw [List.getElem?_set_self (by omega), List.getElem?_eq_getElem (by omega)]
      simp [parksAt]
    · rw [List.getElem?_set_ne hpq]
  · rw [decide_eq_false hq, Bool.false_and, List.getElem?_eq_none (by omega)]
    rfl

/-- The ports of a tap of four with those that park PARKED. -/
theorem parkedBelow_four (p : Nat) {l : List Port} (hlen : l.length = 4) :
    parkedBelow p 4 l = l.zipIdx.map (fun z => if parksAt p z.2 z.1 then parkedPort z.1 else z.1) := by
  unfold parkedBelow
  refine List.map_congr_left fun z hz => ?_
  have hlt : z.2 < 4 := by
    have := (List.getElem?_eq_some_iff.mp (List.mem_zipIdx_iff_getElem?.mp hz)).1
    omega
  rw [decide_eq_true hlt, Bool.true_and]

/-- The state of a tap's third failure at one port, as one write of its record and one withdrawal from the queues (R80). -/
def tapFailed (i p : Nat) (x : Tap) (r : Port) (s : State) : State := quits i (fun q => (x.ports[q]?).any (parksAt p q))
  { s with plant.taps := tmod s.plant.taps i (fun y => { y with
      unreachable := some (minuteOf s)
      ports := (x.ports.set p (failedPort r)).zipIdx.map (fun z => if parksAt p z.2 z.1 then parkedPort z.1 else z.1) }) }

/-- The third failure of a port's command (R80). -/
theorem failPort_unreachable {s : State} {i q : Nat} {x : Tap} {r : Port} (hx : tget s.plant.taps i = some x)
    (hlen : x.ports.length = 4) (hr : x.ports[q]? = some r) (h : 2 ≤ r.attempts) : failPort (i, q) s
      = watchEvent .tapUnreachable x.address (notice nkTapFailed false
        (u16 i ++ u16 x.address ++ u8 x.segment ++ u8 q ++ opt 4 (s.time.clock.map (·.1))) (tapFailed i q x r s)) := by
  have hq : q < 4 := hlen ▸ (List.getElem?_eq_some_iff.mp hr).1
  have htap := tget_putPort (p := (i, q)) hx (failedPort r)
  have hset : (x.ports.set q (failedPort r)).length = 4 := by rw [List.length_set, hlen]
  have hleaves : leavesBelow q 4 (x.ports.set q (failedPort r)) = fun k => (x.ports[k]?).any (parksAt q k) :=
    funext (leavesBelow_failed hlen hq)
  have hstate : failedTo i q 4 (x.ports.set q (failedPort r)) (modTap i (fun t => { t with
      unreachable := some (minuteOf (putPort (i, q) (failedPort r) s)) }) (putPort (i, q) (failedPort r) s)) = tapFailed i q x r s := by
    unfold failedTo tapFailed
    rw [hleaves, parkedBelow_four q hset]
    congr 1
    unfold modTap putPort
    simp only [tmod_tmod]
    rfl
  rw [failPort_fails hx hr h, failTap_eq htap hset, hstate]
  rfl

section
variable {s : State} {t : Transaction} (hw : s.link.waiting = []) (ht : s.plant.current = some t) (hl : s.plant.line = .window)
  (hpur : t.purpose = .portCommand)
include hw ht hl hpur

/-- The end of a port command's window is a failure of the command (R79). -/
theorem exec_silentPort {u : State} (hu : failPort (t.index, t.port) (lineFreed s) = u) (hrest : u.link.waiting = s.link.waiting) :
    exec .replyWindowExpiry s = .next (kick u) := by
  have hend : handOutcome t none (lineFreed s) = u := by
    unfold handOutcome
    rw [hpur]
    exact hu
  rw [exec_windowExpiry ht hl, hend, finish_of_none (hrest.trans hw)]

end

/-- Settles O42, by the count of attempts and the park conditions. -/
theorem silentPortCommandsAreRetried : Obligations.SilentPortCommandsAreRetried := by
  intro t x r s hw ht hl hpur hx hlen hr idle failed put parks leaves parked quit
  have hx' : tget (lineFreed s).plant.taps t.index = some x := hx
  rw [← parkHolds_lineFreed]
  refine ⟨?_, ?_, ?_⟩
  · intro h hp
    exact exec_silentPort hw ht hl hpur (failPort_retries hx' hr h hp) rfl
  · intro h hp
    exact exec_silentPort hw ht hl hpur (failPort_parks hx' hr h hp) rfl
  · intro h
    refine exec_silentPort hw ht hl hpur (failPort_unreachable hx' hlen hr h) ?_
    exact (watchEvent_watchOnly ..).waiting.trans (notice_waiting ..)

end Sys2Proof.Safety
end

