-- ==== Proofs/ServiceStates.lean ====
section
/-! PROOFS. The recomputation of service states: the rule of R99, the hand-offs of R100, and the ports that move with them (R58, R59;
O51). -/

namespace Sys2Proof.Safety

open Sys2Proof.Machine

/-! ## Tables that agree in part -/

/-- A record read through a function of it. -/
theorem tget_map {α β : Type} (f : α → β) (l : List (Nat × α)) (n : Nat) :
    tget (l.map (fun e => (e.1, f e.2))) n = (tget l n).map f := by
  induction l with
  | nil => rfl
  | cons e l ih =>
    obtain ⟨k, v⟩ := e
    rw [List.map_cons, tget, tget]
    split
    · rfl
    · exact ih

/-- Two tables of segments agree in what a function reads of each record. -/
def SegsAgree {β : Type} (f : Segment → β) (a b : List (Nat × Segment)) : Prop :=
  a.map (fun e => (e.1, f e.2)) = b.map (fun e => (e.1, f e.2))

/-- What the function reads of a record is then the same. -/
theorem SegsAgree.get {β : Type} {f : Segment → β} {a b : List (Nat × Segment)} (h : SegsAgree f a b) (n : Nat) :
    (tget a n).map f = (tget b n).map f := by
  rw [← tget_map, ← tget_map, h]

/-- A record of one has its like in the other. -/
theorem SegsAgree.some {β : Type} {f : Segment → β} {a b : List (Nat × Segment)} (h : SegsAgree f a b) {n : Nat} {g : Segment}
    (hg : tget a n = some g) : ∃ g', tget b n = some g' ∧ f g' = f g := by
  have e := h.get n
  rw [hg, Option.map_some, eq_comm, Option.map_eq_some_iff] at e
  exact e

/-- A change of a record that the function does not read keeps the agreement. -/
theorem SegsAgree.tmod {β : Type} {f : Segment → β} {k : Segment → Segment} (hk : ∀ g, f (k g) = f g) (n : Nat)
    (a : List (Nat × Segment)) : SegsAgree f (tmod a n k) a := by
  unfold SegsAgree
  induction a with
  | nil => rfl
  | cons e a ih =>
    obtain ⟨j, v⟩ := e
    unfold Machine.tmod
    split
    · simp [hk]
    · rw [List.map_cons, ih, List.map_cons]

/-- Tables that agree in more agree in less. -/
theorem SegsAgree.weaken {β γ : Type} {f : Segment → β} {k : Segment → γ} (hk : ∀ g g', f g = f g' → k g = k g')
    {a b : List (Nat × Segment)} (h : SegsAgree f a b) : SegsAgree k a b := by
  unfold SegsAgree at h ⊢
  induction a generalizing b with
  | nil =>
    cases b with
    | nil => rfl
    | cons e b => cases h
  | cons e a ih =>
    cases b with
    | nil => cases h
    | cons e' b =>
      simp only [List.map_cons, List.cons.injEq, Prod.mk.injEq] at h ⊢
      obtain ⟨⟨h1, h2⟩, h3⟩ := h
      exact ⟨⟨h1, hk _ _ h2⟩, ih h3⟩

/-- A table lists the numbers that it has records for. -/
theorem mem_keys_tget {α : Type} {l : List (Nat × α)} {n : Nat} (h : n ∈ l.map (·.1)) : ∃ v, tget l n = some v := by
  induction l with
  | nil => cases h
  | cons e l ih =>
    obtain ⟨k, v⟩ := e
    rw [tget]
    split
    · exact ⟨v, rfl⟩
    · rename_i hk
      refine ih ?_
      rw [List.map_cons, List.mem_cons] at h
      exact h.resolve_left (fun h => hk h.symm)

/-! ## The walk up the parent links (R94) -/

/-- The walk depends on the links alone. -/
theorem ancestorsFrom_congr {a b : List (Nat × Segment)} (h : SegsAgree (·.parent) a b) (k : Nat) (seen : List Nat) (n : Nat) :
    ancestorsFrom a k seen n = ancestorsFrom b k seen n := by
  have joined (o : Option Segment) : o.bind (·.parent) = (o.map (·.parent)).join := by
    cases o <;> rfl
  have hbind (n : Nat) : (tget a n).bind (·.parent) = (tget b n).bind (·.parent) := by
    rw [joined, joined, h.get]
  have hnone (n : Nat) : (tget a n).isNone = (tget b n).isNone := by
    rw [← Option.isNone_map (f := fun g : Segment => g.parent), h.get, Option.isNone_map]
  induction k generalizing seen n with
  | zero => rfl
  | succ k ih =>
    unfold ancestorsFrom
    rw [hbind]
    cases (tget b n).bind (·.parent) with
    | none => rfl
    | some p => simp only [hnone, ih]

/-- The ancestors depend on the links alone. -/
theorem ancestors_congr {a b : List (Nat × Segment)} (h : SegsAgree (·.parent) a b) (n : Nat) : ancestors a n = ancestors b n :=
  ancestorsFrom_congr h ..

/-- Where a chain does not fail, the walk does not come back to a segment seen. -/
theorem chainFault_open {segs : List (Nat × Segment)} (k : Nat) {seen : List Nat} {n : Nat}
    (h : chainFault segs k seen n = none) {x : Nat} (hx : x ∈ seen) (m : Nat) (seen' : List Nat) :
    x ∉ ancestorsFrom segs m seen' n := by
  induction k generalizing seen n m seen' with
  | zero =>
    cases m with
    | zero => simp [ancestorsFrom]
    | succ m =>
      unfold chainFault at h
      unfold ancestorsFrom
      cases hp : (tget segs n).bind (·.parent) with
      | none => simp
      | some p =>
        rw [hp] at h
        dsimp only at h
        split at h <;> cases h
  | succ k ih =>
    cases m with
    | zero => simp [ancestorsFrom]
    | succ m =>
      unfold chainFault at h
      unfold ancestorsFrom
      cases hp : (tget segs n).bind (·.parent) with
      | none => simp
      | some p =>
        rw [hp] at h
        dsimp only at h ⊢
        split at h
        · cases h
        · rename_i hseen
          rw [List.contains_iff_mem] at hseen
          split
          · simp
          · rw [List.mem_cons, not_or]
            exact ⟨fun he => hseen (he ▸ hx), ih h (List.mem_cons_of_mem _ hx) m _⟩

/-- A segment whose chain does not fail is not its own parent, and lies one deeper than its parent (R94, R100). -/
theorem depthOf_parent {segs : List (Nat × Segment)} {n p : Nat} {g : Segment} (hbad : chainBad segs n = none)
    (hg : tget segs n = some g) (hp : g.parent = some p) :
    p ≠ n ∧ (tget segs p ≠ none → depthOf segs n = depthOf segs p + 1) := by
  have hwalk : ¬ [n].contains p = true ∧ chainFault segs 6 [p, n] p = none := by
    unfold chainBad chainFault at hbad
    rw [hg, Option.bind_some, hp] at hbad
    dsimp only at hbad
    split at hbad
    · cases hbad
    · exact ⟨‹_›, hbad⟩
  have hne : p ≠ n := by simpa using hwalk.1
  exact ⟨hne, fun hl => depthOf_child segs n p g hg hp hl hne (chainFault_open 6 hwalk.2 (by simp) _ _)⟩

/-! ## The segments concerned, in their order (R99, R100) -/

/-- The segments given and all their descendants, in the order of the table. -/
def concerned (s : State) (ns : List Nat) : List Nat := (s.telemetry.segments.map (·.1)).filter
  (fun n => ns.contains n || (ancestors s.telemetry.segments n).any (fun a => ns.contains a))

/-- They are gone through by depth. -/
theorem affected_eq (s : State) (ns : List Nat) : affected s ns = (List.range (s.telemetry.segments.length + 1)).flatMap
    (fun d => (concerned s ns).filter (fun n => depthOf s.telemetry.segments n = d)) := rfl

/-- A loaded segment is concerned where it, or an ancestor of it, is given. -/
theorem mem_affected {s : State} {ns : List Nat} {n : Nat} : n ∈ affected s ns ↔ n ∈ s.telemetry.segments.map (·.1)
    ∧ (n ∈ ns ∨ ∃ a ∈ ns, a ∈ ancestors s.telemetry.segments n) := by
  have hdepth (h : n ∈ s.telemetry.segments.map (·.1)) : depthOf s.telemetry.segments n < s.telemetry.segments.length := by
    obtain ⟨g, hg⟩ := mem_keys_tget h
    exact walk_short _ _ _ _ (by simp) (by simp [hg])
  rw [affected_eq]
  simp only [List.mem_flatMap, List.mem_filter, List.mem_range, concerned, Bool.or_eq_true, List.contains_iff_mem,
    List.any_eq_true, decide_eq_true_eq]
  constructor
  · rintro ⟨d, -, ⟨hk, hns⟩, -⟩
    exact ⟨hk, hns.imp id (fun ⟨a, ha, hn⟩ => ⟨a, hn, ha⟩)⟩
  · rintro ⟨hk, hns⟩
    exact ⟨_, by have := hdepth hk; omega, ⟨hk, hns.imp id (fun ⟨a, ha, hn⟩ => ⟨a, hn, ha⟩)⟩, rfl⟩

/-- They stand in the order of depth, and at one depth in the order of the table. -/
theorem affected_sublist (s : State) (ns : List Nat) : (affected s ns).Sublist
    ((List.range (s.telemetry.segments.length + 1)).flatMap
      (fun d => (s.telemetry.segments.map (·.1)).filter (fun n => depthOf s.telemetry.segments n = d))) := by
  rw [affected_eq]
  exact List.Sublist.flatMap_right _ fun d _ => List.filter_sublist.filter _

/-- Each stands once, where the table lists each segment once. -/
theorem affected_nodup {s : State} (h : (s.telemetry.segments.map (·.1)).Nodup) (ns : List Nat) : (affected s ns).Nodup := by
  rw [affected_eq, List.nodup_flatMap]
  refine ⟨fun d _ => (h.filter _).filter _, List.nodup_range.imp ?_⟩
  intro a b hab x hx hy
  simp only [List.mem_filter, decide_eq_true_eq] at hx hy
  exact hab (hx.2.symm.trans hy.2)

/-- With no chain failing that of a loaded segment does not. -/
theorem chainBad_of_loaded {segs : List (Nat × Segment)} (h : ∀ g ∈ segs, chainBad segs g.1 = none) {n : Nat} {g : Segment}
    (hg : tget segs n = some g) : chainBad segs n = none := by
  obtain ⟨e, he, hn⟩ := List.mem_map.mp (tget_mem_keys segs n (by simp [hg]))
  exact hn ▸ h e he

/-- With no chain failing a parent goes before its children. -/
theorem affected_parents {s : State} (h : ∀ g ∈ s.telemetry.segments, chainBad s.telemetry.segments g.1 = none) (ns : List Nat) :
    (affected s ns).Pairwise (fun a b => ∀ g, tget s.telemetry.segments a = some g → g.parent ≠ some b) := by
  have deeper {a b : Nat} (hb : b ∈ concerned s ns) {g : Segment} (hg : tget s.telemetry.segments a = some g)
      (hp : g.parent = some b) : depthOf s.telemetry.segments a = depthOf s.telemetry.segments b + 1 := by
    obtain ⟨v, hv⟩ := mem_keys_tget (List.mem_of_mem_filter hb)
    exact (depthOf_parent (chainBad_of_loaded h hg) hg hp).2 (by simp [hv])
  rw [affected_eq, List.pairwise_flatMap]
  refine ⟨fun d _ => ?_, List.pairwise_lt_range.imp ?_⟩
  · refine List.pairwise_of_forall_mem_list fun a ha b hb g hg hp => ?_
    simp only [List.mem_filter, decide_eq_true_eq] at ha hb
    have := deeper hb.1 hg hp
    omega
  · intro d e hde a ha b hb g hg hp
    simp only [List.mem_filter, decide_eq_true_eq] at ha hb
    have := deeper hb.1 hg hp
    omega

/-! ## The service state of a segment (R99) -/

/-- The parent of a segment is DARK. -/
theorem parentDark_iff {s : State} {n : Nat} {g : Segment} (hg : tget s.telemetry.segments n = some g) :
    parentDark s n = true ↔ ∃ p h, g.parent = some p ∧ tget s.telemetry.segments p = some h ∧ h.service = .dark := by
  unfold parentDark segOf
  rw [hg, Option.bind_some]
  cases g.parent with
  | none => simp
  | some p =>
    cases hp : tget s.telemetry.segments p with
    | none => simp [hp]
    | some h => simp [hp]

section
variable {s : State} {n : Nat} (g : Segment)

/-- A segment of the hold set is HELD. -/
theorem serviceFor_held (h : isHeld s n = true) : serviceFor s n g = .held := if_pos h

variable (h : isHeld s n = false)
include h

/-- A segment under one of the hold set is in SHADOW. -/
theorem serviceFor_shadow (ha : ∃ a ∈ ancestors s.telemetry.segments n, isHeld s a = true) : serviceFor s n g = .shadow := by
  unfold serviceFor
  rw [h, if_neg (by decide), if_pos (List.any_eq_true.mpr ha)]

variable (ha : ∀ a ∈ ancestors s.telemetry.segments n, isHeld s a = false)
include ha

/-- Free of holds, a segment is DARK or LIT. -/
theorem serviceFor_free : serviceFor s n g = if g.condition = .outage || parentDark s n then .dark else .lit := by
  have hany : ¬ (ancestors s.telemetry.segments n).any (isHeld s) = true := by
    rw [List.any_eq_true]
    rintro ⟨a, hm, hb⟩
    rw [ha a hm] at hb
    cases hb
  unfold serviceFor
  rw [h, if_neg (by decide), if_neg hany]

/-- Free of holds, a segment in OUTAGE or under a DARK parent is DARK. -/
theorem serviceFor_dark (hd : g.condition = .outage ∨ parentDark s n = true) : serviceFor s n g = .dark :=
  (serviceFor_free g h ha).trans (if_pos (by simpa using hd))

/-- Free of holds, any other segment is LIT. -/
theorem serviceFor_lit (hc : g.condition ≠ .outage) (hd : ¬ parentDark s n = true) : serviceFor s n g = .lit :=
  (serviceFor_free g h ha).trans (if_neg (by simp [hc, hd]))

end

/-- A segment's service state is not read of its own record, nor of any but its parent's (R99). -/
theorem serviceFor_modSeg {u : State} {n m : Nat} {g : Segment} (hg : tget u.telemetry.segments m = some g) (hp : g.parent ≠ some n)
    (v w : Service) : serviceFor (modSeg n (fun x => { x with service := v }) u) m { g with service := w } = serviceFor u m g := by
  have hlinks : SegsAgree (·.parent) (modSeg n (fun x => { x with service := v }) u).telemetry.segments u.telemetry.segments :=
    .tmod (k := fun x => { x with service := v }) (fun _ => rfl) n _
  have hdark : parentDark (modSeg n (fun x => { x with service := v }) u) m = parentDark u m := by
    obtain ⟨g', hg', hpar⟩ := (show SegsAgree _ _ _ from hlinks.symm).some hg
    rw [Bool.eq_iff_iff, parentDark_iff hg', parentDark_iff hg, hpar]
    refine exists_congr fun p => exists_congr fun h => and_congr_right fun hgp => ?_
    have hne : n ≠ p := fun e => hp (e ▸ hgp)
    rw [show tget (modSeg n (fun x => { x with service := v }) u).telemetry.segments p = tget u.telemetry.segments p from
      (tget_tmod ..).trans (if_neg hne)]
  unfold serviceFor
  rw [ancestors_congr hlinks, hdark]
  rfl

/-! ## The walk of the segments concerned (R99, R100) -/

/-- What one segment's recomputation does: nothing where its state stands, else the new state and its hand-off. -/
theorem recomputeService_cases (x : State × List HandOff) (n : Nat) :
    (recomputeService x n = x ∧ ∀ g, tget x.1.telemetry.segments n = some g → serviceFor x.1 n g = g.service)
    ∨ ∃ g, tget x.1.telemetry.segments n = some g ∧ serviceFor x.1 n g ≠ g.service
      ∧ recomputeService x n = (modSeg n (fun y => { y with service := serviceFor x.1 n g }) x.1,
        x.2 ++ [⟨n, g.service, serviceFor x.1 n g⟩]) := by
  unfold recomputeService segOf
  cases hg : tget x.1.telemetry.segments n with
  | none => exact .inl ⟨rfl, fun g h => by cases h⟩
  | some g =>
    dsimp only
    by_cases hv : serviceFor x.1 n g = g.service
    · rw [if_pos hv]
      refine .inl ⟨rfl, fun g' h => ?_⟩
      cases h
      exact hv
    · rw [if_neg hv]
      exact .inr ⟨g, rfl, hv, rfl⟩

/-- The states and hand-offs after a walk of segments. -/
def servicesWalked (s : State) (l : List Nat) : State × List HandOff := l.foldl recomputeService (s, [])

/-- One segment more. -/
theorem servicesWalked_snoc (s : State) (l : List Nat) (n : Nat) :
    servicesWalked s (l ++ [n]) = recomputeService (servicesWalked s l) n := by
  unfold servicesWalked
  rw [List.foldl_append]
  rfl

/-- A segment record but for its service state. -/
def serviceless (g : Segment) : Segment := { g with service := .lit }

/-- What a walk of segments makes of a state: service states alone. -/
structure Walked (s : State) (l : List Nat) (x : State × List HandOff) : Prop where
  only   : x.1 = { s with telemetry.segments := x.1.telemetry.segments }
  agree  : SegsAgree serviceless x.1.telemetry.segments s.telemetry.segments
  others : ∀ n, n ∉ l → tget x.1.telemetry.segments n = tget s.telemetry.segments n
  handed : (x.2.map (·.segment)).Sublist l

/-- The walk of segments writes service states alone, and hands on segments of the walk in its order. -/
theorem walked (s : State) (l : List Nat) : Walked s l (servicesWalked s l) := by
  induction l using List.reverseRecOn with
  | nil => exact ⟨rfl, rfl, fun _ _ => rfl, .slnil⟩
  | append_singleton l n ih =>
    rw [servicesWalked_snoc]
    rcases recomputeService_cases (servicesWalked s l) n with ⟨he, -⟩ | ⟨g, -, -, he⟩
    · rw [he]
      exact ⟨ih.only, ih.agree, fun m hm => ih.others m (fun h => hm (List.mem_append_left _ h)),
        ih.handed.trans (List.sublist_append_left ..)⟩
    · rw [he]
      refine ⟨?_, (SegsAgree.tmod (k := fun y => { y with service := serviceFor (servicesWalked s l).1 n g })
        (fun _ => rfl) n _).trans ih.agree, fun m hm => ?_, ?_⟩
      · show modSeg n _ (servicesWalked s l).1 = _
        rw [ih.only]
        rfl
      · have hne : n ≠ m := fun h => hm (List.mem_append_right _ (by simp [h]))
        exact ((tget_tmod ..).trans (if_neg hne)).trans (ih.others m (fun h => hm (List.mem_append_left _ h)))
      · rw [List.map_append]
        exact ih.handed.append (List.Sublist.refl _)

/-- The parent links stand through a walk. -/
theorem Walked.links {s : State} {l : List Nat} {x : State × List HandOff} (h : Walked s l x) :
    SegsAgree (·.parent) x.1.telemetry.segments s.telemetry.segments :=
  h.agree.weaken fun _ _ e => congrArg Segment.parent e

/-- Every hand-off of a walk is a change of a segment's state, from the one before to the one after; and every change is handed on
(R100). -/
theorem walked_handOffs {s : State} {l : List Nat} (hl : l.Nodup) :
    (∀ h ∈ (servicesWalked s l).2, h.before ≠ h.after
      ∧ (tget s.telemetry.segments h.segment).map (·.service) = some h.before
      ∧ (tget (servicesWalked s l).1.telemetry.segments h.segment).map (·.service) = some h.after)
    ∧ ∀ n, (tget s.telemetry.segments n).map (·.service)
        ≠ (tget (servicesWalked s l).1.telemetry.segments n).map (·.service) →
      ∃ h ∈ (servicesWalked s l).2, h.segment = n := by
  induction l using List.reverseRecOn with
  | nil => exact ⟨fun h hm => (by cases hm), fun n hn => absurd rfl hn⟩
  | append_singleton l n ih =>
    obtain ⟨hl, -, hdis⟩ := List.nodup_append.mp hl
    have hn : n ∉ l := fun h => hdis n h n (by simp) rfl
    obtain ⟨sound, all⟩ := ih hl
    have w := walked s l
    rw [servicesWalked_snoc]
    rcases recomputeService_cases (servicesWalked s l) n with ⟨he, -⟩ | ⟨g, hg, hv, he⟩
    · rw [he]
      exact ⟨sound, all⟩
    · rw [he]
      have other (m : Nat) (hm : n ≠ m) : tget (modSeg n (fun y => { y with service := serviceFor (servicesWalked s l).1 n g })
          (servicesWalked s l).1).telemetry.segments m = tget (servicesWalked s l).1.telemetry.segments m :=
        (tget_tmod ..).trans (if_neg hm)
      refine ⟨fun h hm => ?_, fun m hm => ?_⟩
      · rcases List.mem_append.mp hm with hm | hm
        · obtain ⟨h1, h2, h3⟩ := sound h hm
          have hseg : h.segment ∈ l := w.handed.subset (List.mem_map_of_mem hm)
          refine ⟨h1, h2, ?_⟩
          rw [other _ (fun e => hn (e ▸ hseg))]
          exact h3
        · rw [List.mem_singleton] at hm
          subst hm
          refine ⟨Ne.symm hv, ?_, ?_⟩
          · rw [← w.others n hn, hg]
            rfl
          · show (tget (tmod _ n _) n).map _ = _
            rw [tget_tmod, if_pos rfl, hg]
            rfl
      · by_cases hnm : n = m
        · exact ⟨_, List.mem_append_right _ (List.mem_singleton_self _), hnm⟩
        · rw [other m hnm] at hm
          obtain ⟨h, hmem, hseg⟩ := all m hm
          exact ⟨h, List.mem_append_left _ hmem, hseg⟩

/-- After a walk in which a parent goes before its children, every segment walked has the state of R99. -/
theorem walked_rule {s : State} {l : List Nat} (hl : l.Nodup)
    (horder : l.Pairwise (fun a b => ∀ g, tget s.telemetry.segments a = some g → g.parent ≠ some b))
    (hself : ∀ n g, tget s.telemetry.segments n = some g → g.parent ≠ some n) :
    ∀ n ∈ l, ∀ g, tget (servicesWalked s l).1.telemetry.segments n = some g → g.service = serviceFor (servicesWalked s l).1 n g := by
  induction l using List.reverseRecOn with
  | nil => intro n hn; cases hn
  | append_singleton l n ih =>
    obtain ⟨hl, -, hdis⟩ := List.nodup_append.mp hl
    obtain ⟨ho, -, hbefore⟩ := List.pairwise_append.mp horder
    have w := walked s l
    intro m hm g hg
    rw [servicesWalked_snoc] at hg ⊢
    rcases recomputeService_cases (servicesWalked s l) n with ⟨he, hsame⟩ | ⟨g', hg', hv, he⟩
    · rw [he] at hg ⊢
      rcases List.mem_append.mp hm with hm | hm
      · exact ih hl ho m hm g hg
      · rw [List.mem_singleton] at hm
        subst hm
        exact (hsame g hg).symm
    · rw [he] at hg ⊢
      have hread : tget (modSeg n (fun y => { y with service := serviceFor (servicesWalked s l).1 n g' })
          (servicesWalked s l).1).telemetry.segments m = _ := tget_tmod ..
      rcases List.mem_append.mp hm with hm | hm
      · have hnm : n ≠ m := fun e => hdis m hm n (by simp) e.symm
        rw [show tget _ m = some g from hg, if_neg hnm] at hread
        obtain ⟨g0, hg0, hpar⟩ := w.links.some hread.symm
        have hp : g.parent ≠ some n := hpar ▸ hbefore m hm n (by simp) g0 hg0
        exact (ih hl ho m hm g hread.symm).trans (serviceFor_modSeg hread.symm hp _ g.service).symm
      · rw [List.mem_singleton] at hm
        subst hm
        rw [show tget _ m = some g from hg, if_pos rfl, hg', Option.map_some, Option.some_inj] at hread
        subst hread
        obtain ⟨g0, hg0, hpar⟩ := w.links.some hg'
        exact (serviceFor_modSeg hg' (hpar ▸ hself m g0 hg0) _ _).symm

/-! ## The outage log takes the hand-offs (R100, R103, R105) -/

/-- A segment record but for its open outage. -/
def outageless (g : Segment) : Segment := { g with openOutage := none }

/-- t is s but for what the outage log may change as it takes a hand-off: its own record, the store, the link's notices, and the
open outage of a segment. -/
def LogOnly (s t : State) : Prop := ∃ (l : Link) (o : OutageLog) (st : Store) (segs : List (Nat × Segment)),
  t = { s with link := l, outage := o, store := st, telemetry.segments := segs } ∧ l.waiting = s.link.waiting
    ∧ SegsAgree outageless segs s.telemetry.segments

theorem LogOnly.refl (s : State) : LogOnly s s := ⟨_, _, _, _, rfl, rfl, rfl⟩

theorem LogOnly.trans {s t u : State} : LogOnly s t → LogOnly t u → LogOnly s u := by
  rintro ⟨_, _, _, _, rfl, hw, hs⟩ ⟨_, _, _, _, rfl, hw', hs'⟩
  exact ⟨_, _, _, _, rfl, hw'.trans hw, hs'.trans hs⟩

/-- A write of the outage log. -/
theorem LogOnly.log (o : OutageLog) (s : State) : LogOnly s { s with outage := o } := ⟨_, _, _, _, rfl, rfl, rfl⟩

/-- A write of the store. -/
theorem LogOnly.store (st : Store) (s : State) : LogOnly s { s with store := st } := ⟨_, _, _, _, rfl, rfl, rfl⟩

/-- The open outage of a segment written. -/
theorem openOutage_log (n : Nat) (id : Option Nat) (s : State) : LogOnly s (modSeg n (fun g => { g with openOutage := id }) s) :=
  ⟨_, _, _, _, rfl, rfl, .tmod (k := fun g => { g with openOutage := id }) (fun _ => rfl) n _⟩

/-- A notice changes no more. -/
theorem notice_log (kind : Nat) (urgent : Bool) (body : List Byte) (s : State) : LogOnly s (notice kind urgent body s) := by
  rw [notice_eq]
  exact ⟨_, _, _, _, rfl, (noticedLink_keeps ..).1, rfl⟩

/-- A check for JOURNAL_LOW changes no more. -/
theorem lowCheck_log (s : State) : LogOnly s (lowCheck s) := by
  unfold lowCheck
  split
  · split
    · exact (LogOnly.store { s.store with lowMark := true } s).trans (notice_log ..)
    · exact .refl s
  · exact .refl s

/-- A record of the controller's own changes no more. -/
theorem appendAuto_log (kind : Nat) (fields : List Byte) (o : Origin) (s : State) : LogOnly s (appendAuto kind fields o s).1 := by
  unfold appendAuto
  split
  · exact .refl s
  · split
    · unfold loseRecord
      dsimp only
      refine LogOnly.trans ?_ (notice_log ..)
      split
      · exact .refl s
      · split
        · exact .refl s
        · exact .store _ s
    · exact LogOnly.trans (t := recordJoined (recordBody kind (minuteOf s) fields) o s) (.store _ s) (lowCheck_log _)

/-- The eviction of a record changes no more. -/
theorem evict_log (s : State) : LogOnly s (evict s) := by
  unfold evict
  split
  · exact .refl s
  · split
    · exact .refl s
    · dsimp only
      have written (o : OutageLog) (st : Store) : LogOnly s { s with outage := o, store := st } := ⟨_, _, _, _, rfl, rfl, rfl⟩
      split
      · exact written ..
      · exact (written ..).trans (notice_log ..)

/-- The outage log changes no more as it takes a hand-off. -/
theorem takeHandOff_log (cause : HandCause) (s : State) (h : HandOff) : LogOnly s (takeHandOff cause s h) := by
  unfold takeHandOff
  split
  · unfold openOutage
    split
    · exact .refl s
    · dsimp only
      refine LogOnly.trans ?_ (notice_log ..)
      refine LogOnly.trans ?_ (openOutage_log ..)
      refine LogOnly.trans ?_ (LogOnly.log _ _)
      exact (LogOnly.log _ s).trans (evict_log _)
  · split
    · unfold closeOutage
      split
      · exact .refl s
      · split
        · exact .refl s
        · dsimp only
          refine LogOnly.trans ?_ (notice_log ..)
          refine LogOnly.trans ?_ (appendAuto_log ..)
          exact (LogOnly.log _ s).trans (openOutage_log ..)
    · exact .refl s

/-- Nor as it takes several. -/
theorem takeHandOffs_log (cause : HandCause) (hs : List HandOff) (s : State) : LogOnly s (hs.foldl (takeHandOff cause) s) := by
  induction hs generalizing s with
  | nil => exact .refl s
  | cons h hs ih => exact (takeHandOff_log cause s h).trans (ih _)

/-! ## The recomputation as a whole -/

/-- The state in which the changes of a recomputation have been handed to the outage log. -/
def handedToLog (ns : List Nat) (cause : HandCause) (s : State) : State :=
  (servicesWalked s (affected s ns)).2.foldl (takeHandOff cause) (servicesWalked s (affected s ns)).1

/-- The taps of the segments handed on. -/
def tapsHanded (hs : List HandOff) (s : State) : List Nat :=
  (s.plant.taps.filter (fun t => hs.any (fun h => h.segment = t.2.segment))).map (·.1)

/-- What is handed to the log leaves the plant line and the craft port. -/
theorem handedToLog_keeps (ns : List Nat) (cause : HandCause) (s : State) :
    (handedToLog ns cause s).plant = s.plant ∧ (handedToLog ns cause s).craft = s.craft := by
  have w := (walked s (affected s ns)).only
  obtain ⟨l, o, st, segs, h, -, -⟩ := takeHandOffs_log cause (servicesWalked s (affected s ns)).2 (servicesWalked s (affected s ns)).1
  unfold handedToLog
  rw [h, w]
  exact ⟨rfl, rfl⟩

/-- The recomputation: the walk, the outage log, and the ports of the taps concerned (R99, R100). -/
theorem recomputeServices_eq (ns : List Nat) (cause : HandCause) (s : State) : recomputeServices ns cause s
    = (reparkTaps (tapsHanded (servicesWalked s (affected s ns)).2 s) (handedToLog ns cause s),
      (servicesWalked s (affected s ns)).2) := by
  have htaps : tapsHanded (servicesWalked s (affected s ns)).2 s
      = tapsHanded (servicesWalked s (affected s ns)).2 (handedToLog ns cause s) := by
    unfold tapsHanded
    rw [(handedToLog_keeps ns cause s).1]
  rw [htaps]
  rfl

/-- The segments as a recomputation leaves them are those of its walk but for their open outages. -/
theorem recomputeServices_segments (ns : List Nat) (cause : HandCause) (s : State) : SegsAgree outageless
    (recomputeServices ns cause s).1.telemetry.segments (servicesWalked s (affected s ns)).1.telemetry.segments := by
  rw [recomputeServices_eq]
  obtain ⟨pl, h⟩ := reparkTaps_plant (tapsHanded (servicesWalked s (affected s ns)).2 s) (handedToLog ns cause s)
  dsimp only
  rw [h]
  obtain ⟨l, o, st, segs, h, -, hs⟩ :=
    takeHandOffs_log cause (servicesWalked s (affected s ns)).2 (servicesWalked s (affected s ns)).1
  show SegsAgree _ (handedToLog ns cause s).telemetry.segments _
  unfold handedToLog
  rw [h]
  exact hs

/-- The service states are those of the walk. -/
theorem recomputeServices_services (ns : List Nat) (cause : HandCause) (s : State) (n : Nat) :
    (tget (recomputeServices ns cause s).1.telemetry.segments n).map (·.service)
      = (tget (servicesWalked s (affected s ns)).1.telemetry.segments n).map (·.service) :=
  (recomputeServices_segments ns cause s |>.weaken (fun _ _ e => congrArg Segment.service e) : SegsAgree (·.service) _ _).get n

/-- A segment concerned has the state of R99, read of the state as the walk leaves it. -/
theorem recomputeServices_rule {s : State} (hnd : (s.telemetry.segments.map (·.1)).Nodup)
    (hbad : ∀ g ∈ s.telemetry.segments, chainBad s.telemetry.segments g.1 = none) (ns : List Nat) (cause : HandCause) {m : Nat}
    {g : Segment} (hg : tget (recomputeServices ns cause s).1.telemetry.segments m = some g)
    (hm : m ∈ ns ∨ ∃ n ∈ ns, n ∈ ancestors s.telemetry.segments m) :
    ∃ g', tget (servicesWalked s (affected s ns)).1.telemetry.segments m = some g' ∧ outageless g' = outageless g
      ∧ g.service = serviceFor (servicesWalked s (affected s ns)).1 m g' := by
  obtain ⟨g', hg', heq⟩ := (recomputeServices_segments ns cause s).some hg
  obtain ⟨g0, hg0, -⟩ := (walked s (affected s ns)).agree.some hg'
  have hmem : m ∈ affected s ns := mem_affected.mpr ⟨tget_mem_keys _ m (by simp [hg0]), hm⟩
  have hself (n : Nat) (g : Segment) (h : tget s.telemetry.segments n = some g) : g.parent ≠ some n :=
    fun hp => (depthOf_parent (chainBad_of_loaded hbad h) h hp).1 rfl
  have hservice : g'.service = g.service := (congrArg Segment.service heq :)
  exact ⟨g', hg', heq, hservice ▸ walked_rule (affected_nodup hnd ns) (affected_parents hbad ns) hself m hmem g' hg'⟩

/-! ## The ports that move (R58, R59) -/

/-- A port gone through again: parked where it is PENDING under the park conditions, and unparked where it is PARKED with none, the
service states read of one state (R58, R59). -/
def portMoved (r u : State) (p : Nat × Nat) : State :=
  match portOf u p, tget u.plant.taps p.1 with
  | some x, some t =>
    let parks : Bool := t.unreachable.isSome || decide (serviceOf r t.segment ≠ .lit)
    if parks ∧ x.sync = .pending then
      { modPort p (fun x => { x with sync := .parked, cls := none, attempts := 0 }) u with
        plant.urgent := u.plant.urgent.filter (fun e => match e with | .port a b _ => decide ((a, b) ≠ p) | .craft _ => true)
        plant.refresh := u.plant.refresh.filter (· ≠ p) }
    else if ¬ parks ∧ x.sync = .parked then
      if x.confirmed = some x.desired then modPort p (fun y => { y with sync := .inSync, cls := none, unpark := .refresh }) u
      else
        let v := modPort p (fun y => { y with sync := .pending, cls := some x.unpark, unpark := .refresh }) u
        match x.unpark with
        | .urgent => { v with plant.urgent := u.plant.urgent ++ [.port p.1 p.2 false] }
        | .refresh => { v with plant.refresh := u.plant.refresh ++ [p] }
    else u
  | _, _ => u

/-- The re-evaluation of a port does to the plant line what those writes do, where the service states are the same. -/
theorem reparkPort_moves {r v : State} (hs : ∀ n, serviceOf v n = serviceOf r n) (u : State) (p : Nat × Nat) :
    (reparkPort p { v with plant := u.plant }).plant = (portMoved r u p).plant := by
  have hport : portOf { v with plant := u.plant } p = portOf u p := rfl
  unfold reparkPort portMoved
  rw [hport]
  cases hx : portOf u p with
  | none => rfl
  | some x =>
    cases ht : tget u.plant.taps p.1 with
    | none =>
      unfold portOf at hx
      rw [ht] at hx
      cases hx
    | some t =>
      have hpark : parkHoldsAt { v with plant := u.plant } p.1 = (t.unreachable.isSome || decide (serviceOf r t.segment ≠ .lit)) := by
        rw [parkHoldsAt_eq (s := { v with plant := u.plant }) ht, ← hs]
        rfl
      dsimp only
      rw [hpark]
      by_cases hp : (t.unreachable.isSome || decide (serviceOf r t.segment ≠ .lit)) = true
      · rw [if_pos hp]
        by_cases hx : x.sync = .pending
        · rw [if_pos hx, if_pos ⟨hp, hx⟩]
          rfl
        · rw [if_neg hx, if_neg (fun h => hx h.2), if_neg (fun h => h.1 hp)]
      · have hnot : ¬ ((t.unreachable.isSome || decide (serviceOf r t.segment ≠ .lit)) = true ∧ x.sync = .pending) :=
          fun h => hp h.1
        rw [if_neg hp, if_neg hnot]
        by_cases hy : x.sync = .parked
        · rw [if_pos hy, if_pos ⟨hp, hy⟩]
          unfold unparkPort
          rw [hport, hx]
          dsimp only
          by_cases hc : x.confirmed = some x.desired
          · rw [if_pos hc, if_pos hc]
            rfl
          · rw [if_neg hc, if_neg hc]
            cases x.unpark <;> rfl
        · rw [if_neg hy, if_neg (fun h => hy h.2)]

/-- The service states stand while ports are re-evaluated. -/
theorem PlantOnly.services {s t : State} (h : PlantOnly s t) (n : Nat) : serviceOf t n = serviceOf s n := by
  obtain ⟨pl, rfl⟩ := h
  rfl

/-- The re-evaluation of a list of ports does to the plant line what those writes do, one after the other. -/
theorem reparkPorts_move {r : State} (l : List (Nat × Nat)) {u v : State} (hs : ∀ n, serviceOf v n = serviceOf r n)
    (hp : v.plant = u.plant) : (l.foldl (fun s p => reparkPort p s) v).plant = (l.foldl (portMoved r) u).plant := by
  induction l generalizing u v with
  | nil => exact hp
  | cons p l ih =>
    refine ih (fun n => ((reparkPort_plant p v).services n).trans (hs n)) ?_
    have hmove := reparkPort_moves hs u p
    rw [← hp] at hmove
    exact hmove

/-- Settles O51: the states by the walk in the order of depth, the hand-offs by its changes, and the ports one by one. -/
theorem serviceStatesFollowTheirRule : Obligations.ServiceStatesFollowTheirRule := by
  refine ⟨fun ns cause s hnd hbad => ?_, fun ns cause s => ?_, fun ns cause s => ?_⟩
  · intro t above m g hg hm
    obtain ⟨g', hg', heq, hrule⟩ := recomputeServices_rule hnd hbad ns cause hg hm
    have w := walked s (affected s ns)
    obtain ⟨u, hu⟩ : ∃ u, u = (servicesWalked s (affected s ns)).1 := ⟨_, rfl⟩
    rw [← hu] at hg' hrule
    have hheld (n : Nat) : isHeld u n = s.craft.holds.getLsbD n := by
      rw [hu, w.only]
      rfl
    have hanc : ancestors u.telemetry.segments m = above m := hu ▸ ancestors_congr w.links m
    have hagree : SegsAgree (·.service) t.telemetry.segments u.telemetry.segments := by
      rw [hu]
      exact (recomputeServices_segments ns cause s).weaken fun _ _ e => congrArg Segment.service e
    refine ⟨fun h => ?_, fun h ha => ?_, fun h ha => ?_⟩
    · exact hrule.trans (serviceFor_held g' ((hheld m).trans h))
    · refine hrule.trans (serviceFor_shadow g' ((hheld m).trans h) ?_)
      obtain ⟨a, hm, ha⟩ := ha
      exact ⟨a, hanc ▸ hm, (hheld a).trans ha⟩
    · have hfree : ∀ a ∈ ancestors u.telemetry.segments m, isHeld u a = false :=
        fun a hm => (hheld a).trans (ha a (hanc ▸ hm))
      have hcond : g'.condition = g.condition := (congrArg Segment.condition heq :)
      have hparent : g'.parent = g.parent := (congrArg Segment.parent heq :)
      have hdark : parentDark u m = true
          ↔ ∃ p h, g.parent = some p ∧ tget t.telemetry.segments p = some h ∧ h.service = .dark := by
        rw [parentDark_iff hg', hparent]
        refine exists_congr fun p => ⟨?_, ?_⟩
        · rintro ⟨h, hp, hh, hd⟩
          obtain ⟨h', hh', he⟩ := (show SegsAgree _ _ _ from hagree.symm).some hh
          exact ⟨h', hp, hh', he.trans hd⟩
        · rintro ⟨h, hp, hh, hd⟩
          obtain ⟨h', hh', he⟩ := hagree.some hh
          exact ⟨h', hp, hh', he.trans hd⟩
      intro parentDark
      refine ⟨fun hd => hrule.trans (serviceFor_dark g' ((hheld m).trans h) hfree (hd.imp hcond.trans hdark.mpr)),
        fun hc hd => hrule.trans (serviceFor_lit g' ((hheld m).trans h) hfree (fun e => hc (hcond.symm.trans e)) ?_)⟩
      exact fun e => hd (hdark.mp e)
  · intro segs walk r before after
    have w := walked s (affected s ns)
    have hr : r.2 = (servicesWalked s (affected s ns)).2 :=
      (congrArg Prod.snd (recomputeServices_eq ns cause s) :)
    have hafter (n : Nat) : after n = (tget (servicesWalked s (affected s ns)).1.telemetry.segments n).map (·.service) :=
      recomputeServices_services ns cause s n
    refine ⟨?_, fun n p g hg hp hl hne ho => depthOf_child segs n p g hg hp hl hne ho, fun hnd => ?_⟩
    · rw [hr]
      exact w.handed.trans (affected_sublist s ns)
    · obtain ⟨sound, all⟩ := walked_handOffs (affected_nodup hnd ns)
      rw [hr]
      refine ⟨fun h hm => ?_, fun n hn => all n ?_⟩
      · rw [hafter]
        exact sound h hm
      · rw [← hafter]
        exact hn
  · intro r moved taps
    have hr : r.1 = reparkTaps taps (handedToLog ns cause s) := by
      have e := recomputeServices_eq ns cause s
      have htaps : taps = tapsHanded (servicesWalked s (affected s ns)).2 s :=
        (congrArg (fun x => tapsHanded x.2 s) e :)
      rw [htaps]
      exact (congrArg Prod.fst e :)
    have hservices (n : Nat) : serviceOf (handedToLog ns cause s) n = serviceOf r.1 n := by
      rw [hr]
      exact ((reparkTaps_plant taps _).services n).symm
    have hmoves := reparkPorts_move (portsOf taps) hservices (handedToLog_keeps ns cause s).1
    exact (congrArg State.plant hr).trans hmoves

end Sys2Proof.Safety
end

