-- ==== Proofs/SilentHead.lean ====
section
/-! PROOFS. The miss that makes a counting head MISSING: from the record of the head to the outage record of its segment (R92, R93,
R98 to R100, R103, R104; O45). -/

namespace Sys2Proof.Safety

open Sys2Proof.Machine

/-! ## The next outage id (R103) -/

/-- A record further on the circle of ids does not stop the search. -/
theorem freeOutageId_passes (l : List Outage) (r : Outage) (k j : Nat) (hj : 0 < j) (hk : j + k ≤ 256) :
    freeOutageId k (l ++ [r]) ((r.id + j) % 256) = freeOutageId k l ((r.id + j) % 256) := by
  induction k generalizing j with
  | zero => rfl
  | succ k ih =>
    have hne : ¬ r.id = (r.id + j) % 256 := by omega
    have hnext : ((r.id + j) % 256 + 1) % 256 = (r.id + (j + 1)) % 256 := by omega
    unfold freeOutageId
    rw [List.any_append, List.any_cons, List.any_nil, decide_eq_false hne, Bool.false_or, Bool.or_false, hnext,
      ih (j + 1) (by omega) (by omega)]

/-! ## The parts of the recomputation for one silent segment -/

/-- The segments concerned by one that no other lies under are that one (R99). -/
theorem affected_childless {s : State} {n : Nat} {g : Segment} (hg : tget s.telemetry.segments n = some g)
    (hnd : (s.telemetry.segments.map (·.1)).Nodup)
    (hfree : ∀ y ∈ s.telemetry.segments, n ∉ ancestors s.telemetry.segments y.1) : affected s [n] = [n] := by
  refine List.perm_singleton.mp ((List.perm_ext_iff_of_nodup (affected_nodup hnd [n]) (List.nodup_singleton n)).mpr fun m => ?_)
  rw [mem_affected, List.mem_singleton]
  constructor
  · rintro ⟨hm, h | ⟨a, ha, hanc⟩⟩
    · exact h
    · obtain ⟨y, hy, rfl⟩ := List.mem_map.mp hm
      exact absurd (List.mem_singleton.mp ha ▸ hanc) (hfree y hy)
  · rintro rfl
    exact ⟨tget_mem_keys _ m (by simp [hg]), .inl rfl⟩

/-- The recomputation of a segment alone that becomes DARK opens its outage and goes through its ports (R99, R100, R103). -/
theorem recomputeServices_darkens {s : State} {n : Nat} {g : Segment} (hg : tget s.telemetry.segments n = some g)
    (hone : affected s [n] = [n]) (hv : serviceFor s n g = .dark) (hs : g.service ≠ .dark) (cause : HandCause) :
    (recomputeServices [n] cause s).1
      = reparkTaps (tapsIn s n) (openOutage n cause (modSeg n (fun y => { y with service := .dark }) s)) := by
  have hwalk : servicesWalked s (affected s [n]) = (modSeg n (fun y => { y with service := .dark }) s, [⟨n, g.service, .dark⟩]) := by
    rw [hone]
    show recomputeService (s, []) n = _
    unfold recomputeService segOf
    rw [hg]
    dsimp only
    rw [hv, if_neg (Ne.symm hs)]
    rfl
  have htaps : tapsHanded [⟨n, g.service, .dark⟩] s = tapsIn s n := by
    unfold tapsHanded tapsIn
    simp only [List.any_cons, List.any_nil, Bool.or_false, eq_comm (a := n)]
  rw [recomputeServices_eq, handedToLog, hwalk, htaps]
  rfl

/-- A segment whose counting head is MISSING is in OUTAGE from the head's first miss (R94, R98). -/
theorem conditionOf_silentHead {s : State} {n i : Nat} {g : Segment} {x : Transponder} (hg : tget s.telemetry.segments n = some g)
    (hh : g.head = some i) (hx : tget s.telemetry.transponders i = some x) (he : x.enabled = true) (hn : x.segment = n)
    (hm : x.state = .missing) : conditionOf s n = (.outage, x.firstMiss) := by
  have hcount : countingHead s n = some (i, x) := by
    unfold countingHead segOf xpOf
    rw [hg, Option.bind_some, hh]
    dsimp only
    rw [hx]
    dsimp only
    rw [he, hn, if_pos (by simp)]
  unfold conditionOf silence
  rw [hcount]
  dsimp only
  rw [if_pos hm]

/-- The outage record of a segment dark of itself begins at its miss minute, and its notice is urgent (R103, R104). -/
theorem openOutage_root {s : State} {n : Nat} {g : Segment} (hg : tget s.telemetry.segments n = some g) (hc : g.condition = .outage)
    (hp : g.parent = none) (hroom : s.outage.records.length < 64) :
    let id := s.outage.nextId
    let start := g.missMinute.getD (minuteOf s)
    let log := s.outage.records ++ [⟨id, n, start, none, .root, false, false⟩]
    openOutage n .miss s = notice nkOutageOpen true (u8 id ++ u8 n ++ [0, 0xFF] ++ u32 start ++ u32 (minuteOf s) ++ [1]) { s with
      telemetry.segments := tmod s.telemetry.segments n (fun g => { g with openOutage := some id })
      outage.records := log
      outage.nextId := freeOutageId 65 log ((id + 1) % 256) } := by
  intro id start log
  have hdark : parentDark s n = false := by
    unfold parentDark segOf
    rw [hg, Option.bind_some, hp]
  have hnext : freeOutageId 65 s.outage.records ((id + 1) % 256) = freeOutageId 65 log ((id + 1) % 256) :=
    (freeOutageId_passes _ ⟨id, n, start, none, .root, false, false⟩ 65 1 (by decide) (by decide)).symm
  have hkeep : evict { s with outage.nextId := freeOutageId 65 s.outage.records ((id + 1) % 256) }
      = { s with outage.nextId := freeOutageId 65 log ((id + 1) % 256) } := by
    rw [evict, if_pos hroom, hnext]
  unfold openOutage segOf
  rw [hg]
  dsimp only
  rw [hkeep, hc, hdark]
  rfl

section
variable {s : State} {n i : Nat} {g : Segment} {x : Transponder} (hg : tget s.telemetry.segments n = some g) (hh : g.head = some i)
  (hp : g.parent = none) (hs : g.service = .lit) (hx : tget s.telemetry.transponders i = some x) (he : x.enabled = true)
  (hn : x.segment = n) (hm : x.state = .missing) (hheld : s.craft.holds.getLsbD n = false)
  (hfree : ∀ y ∈ s.telemetry.segments, n ∉ ancestors s.telemetry.segments y.1) (hnd : (s.telemetry.segments.map (·.1)).Nodup)
  (hroom : s.outage.records.length < 64)
include hg hh hp hs hx he hn hm hheld hfree hnd hroom

/-- A segment with no parent and no other under it, LIT with its counting head MISSING, is put in OUTAGE and DARK: a ROOT record
opens, and its ports are gone through again (R98 to R100, R103, R104, R58). -/
theorem recomputeSegments_silentHead :
    let id := s.outage.nextId
    let start := x.firstMiss.getD (minuteOf s)
    let log := s.outage.records ++ [⟨id, n, start, none, .root, false, false⟩]
    recomputeSegments [n] .miss s = reparkTaps (tapsIn s n)
      (notice nkOutageOpen true (u8 id ++ u8 n ++ [0, 0xFF] ++ u32 start ++ u32 (minuteOf s) ++ [1]) { s with
        telemetry.segments := tmod s.telemetry.segments n (fun g =>
          { g with condition := .outage, missMinute := x.firstMiss, service := .dark, openOutage := some id })
        outage.records := log
        outage.nextId := freeOutageId 65 log ((id + 1) % 256) }) := by
  intro id start log
  let fails (y : Segment) : Segment := { y with condition := .outage, missMinute := x.firstMiss }
  have hcondition : recomputeCondition s n = modSeg n fails s := by
    unfold recomputeCondition
    rw [conditionOf_silentHead hg hh hx he hn hm]
  have hfailed : tget (modSeg n fails s).telemetry.segments n = some (fails g) := by
    refine (tget_tmod ..).trans ?_
    rw [if_pos rfl, hg]
    rfl
  have hlinks : SegsAgree (·.parent) (modSeg n fails s).telemetry.segments s.telemetry.segments :=
    .tmod (k := fails) (fun _ => rfl) n _
  have hkeys : (modSeg n fails s).telemetry.segments.map (·.1) = s.telemetry.segments.map (·.1) := tmod_keys ..
  have hone : affected (modSeg n fails s) [n] = [n] := by
    refine affected_childless hfailed (hkeys ▸ hnd) fun y hy => ?_
    obtain ⟨z, hz, hzy⟩ := List.mem_map.mp (hkeys ▸ List.mem_map_of_mem hy)
    rw [ancestors_congr hlinks, ← hzy]
    exact hfree z hz
  have hroot : ancestors (modSeg n fails s).telemetry.segments n = [] := by
    unfold ancestors ancestorsFrom
    rw [hfailed, Option.bind_some, show (fails g).parent = none from hp]
  have hdark : serviceFor (modSeg n fails s) n (fails g) = .dark :=
    serviceFor_dark (fails g) hheld (fun a ha => by rw [hroot] at ha; cases ha) (.inl rfl)
  have hlit : (fails g).service ≠ .dark := by
    show g.service ≠ .dark
    rw [hs]
    decide
  have hdarkened : tget (modSeg n (fun y => { y with service := .dark }) (modSeg n fails s)).telemetry.segments n
      = some { fails g with service := .dark } := by
    refine (tget_tmod ..).trans ?_
    rw [if_pos rfl, hfailed]
    rfl
  have hopen := openOutage_root hdarkened rfl hp hroom
  unfold recomputeSegments
  rw [show [n].foldl recomputeCondition s = modSeg n fails s from hcondition,
    recomputeServices_darkens hfailed hone hdark hlit, hopen]
  unfold modSeg
  simp only [tmod_tmod]
  rfl

end

/-! ## The miss (R92, R93) -/

/-- A transponder as a last miss leaves it (R92). -/
def lostXp (x : Transponder) (minute : Nat) : Transponder := { x with
  misses := min 15 (x.misses + 1)
  firstMiss := if x.misses = 0 then some minute else x.firstMiss
  state := .missing }

/-- The miss at the limit is the last (R92). -/
theorem takeMiss_last {x : Transponder} {limit minute : Nat} (h : limit ≤ min 15 (x.misses + 1)) :
    takeMiss x limit minute = lostXp x minute := by
  unfold takeMiss lostXp
  dsimp only
  rw [if_pos h]

/-- Its watch event is XP_MISSING alone (R93). -/
theorem xpEvents_lost {x : Transponder} (hs : x.state ≠ .missing) (minute : Nat) : xpEvents x (lostXp x minute) = [.xpMissing] := by
  simp [xpEvents, lostXp, hs]

/-- The state in which the loss of a transponder has been told, before its segment is recomputed (R92, R93). -/
def lossTold (i : Nat) (x : Transponder) (s : State) : State :=
  watchEvent .xpMissing x.address (xpNotice i x (lostXp x (minuteOf s)) .miss
    { s with telemetry.transponders := tset s.telemetry.transponders i (lostXp x (minuteOf s)) })

/-- The miss that makes a transponder MISSING: its notice, its watch event and its segment (R92, R93, R98). -/
theorem takeOutcome_lost {s : State} {i : Nat} {x : Transponder} (hx : tget s.telemetry.transponders i = some x)
    (hs : x.state ≠ .missing) (hl : s.params.missLimit ≤ min 15 (x.misses + 1)) :
    takeOutcome i none s = recomputeSegments [x.segment] .miss (lossTold i x s) := by
  unfold takeOutcome xpOf lossTold
  rw [hx]
  simp only [Option.isSome_none, Bool.false_eq_true, if_false, takeMiss_last hl, xpEvents_lost hs, List.foldl_cons, List.foldl_nil]

/-- The notice of a poll outcome changes the notices alone. -/
theorem xpNotice_watchOnly (i : Nat) (old new : Transponder) (cause : HandCause) (s : State) :
    WatchOnly s (xpNotice i old new cause s) := by
  unfold xpNotice
  split
  · exact .refl s
  · exact notice_watchOnly ..

/-- The loss told changes the record, and the notices, the watch table and the print queue. -/
theorem lossTold_watchOnly (i : Nat) (x : Transponder) (s : State) :
    WatchOnly { s with telemetry.transponders := tset s.telemetry.transponders i (lostXp x (minuteOf s)) } (lossTold i x s) :=
  (xpNotice_watchOnly ..).trans (watchEvent_watchOnly ..)

/-- The orders that wait stand. -/
theorem lossTold_waiting (i : Nat) (x : Transponder) (s : State) : (lossTold i x s).link.waiting = s.link.waiting := by
  rw [(lossTold_watchOnly i x s).waiting]

/-- The loss told and the segment that it darkens, for a segment's counting head (R98 to R100, R103, R104, R58). -/
theorem lossTold_darkens {s : State} {i : Nat} {g : Segment} {x : Transponder} (he : x.enabled = true)
    (hg : tget s.telemetry.segments x.segment = some g) (hh : g.head = some i) (hp : g.parent = none) (hs : g.service = .lit)
    (hheld : s.craft.holds.getLsbD x.segment = false)
    (hfree : ∀ y ∈ s.telemetry.segments, x.segment ∉ ancestors s.telemetry.segments y.1)
    (hnd : (s.telemetry.segments.map (·.1)).Nodup) (hroom : s.outage.records.length < 64) :
    let first := (lostXp x (minuteOf s)).firstMiss
    let id := s.outage.nextId
    let start := first.getD (minuteOf s)
    let log := s.outage.records ++ [⟨id, x.segment, start, none, .root, false, false⟩]
    recomputeSegments [x.segment] .miss (lossTold i x s) = reparkTaps (tapsIn s x.segment)
      (notice nkOutageOpen true (u8 id ++ u8 x.segment ++ [0, 0xFF] ++ u32 start ++ u32 (minuteOf s) ++ [1]) { lossTold i x s with
        telemetry.segments := tmod s.telemetry.segments x.segment (fun g =>
          { g with condition := .outage, missMinute := first, service := .dark, openOutage := some id })
        outage.records := log
        outage.nextId := freeOutageId 65 log ((id + 1) % 256) }) := by
  obtain ⟨l, ws, c, htold, -, hholds⟩ := lossTold_watchOnly i x s
  rw [htold]
  exact recomputeSegments_silentHead (x := lostXp x (minuteOf s)) hg hh hp hs (tget_tset ..) he rfl rfl
    ((congrArg (·.getLsbD x.segment) hholds).trans hheld) hfree hnd hroom

/-- The ports gone through again leave the orders that wait. -/
theorem reparkTaps_waiting (l : List Nat) (s : State) : (reparkTaps l s).link.waiting = s.link.waiting := by
  obtain ⟨pl, h⟩ := reparkTaps_plant l s
  rw [h]

/-- Settles O45: the end of the window is a miss, the miss is the head's last, and the recomputation darkens the segment. -/
theorem silentHeadDarkensItsSegment : Obligations.SilentHeadDarkensItsSegment := by
  intro t x g s hw ht hl hpur hx haddr he hs hlimit hg hh hp hlit hheld hfree hnd hroom n first new id start log seen dark
  have hstands : xpStands (lineFreed s) t = true := by
    unfold xpStands xpOf
    rw [show tget (lineFreed s).telemetry.transponders t.index = some x from hx]
    simp [haddr, he]
  have houtcome : handOutcome t none (lineFreed s) = recomputeSegments [x.segment] .miss (lossTold t.index x (lineFreed s)) := by
    unfold handOutcome
    rw [hpur]
    dsimp only
    rw [if_pos hstands]
    exact takeOutcome_lost hx hs hlimit
  have hdark := lossTold_darkens (s := lineFreed s) he hg hh hp hlit hheld hfree hnd hroom
  have hwaiting : (recomputeSegments [x.segment] .miss (lossTold t.index x (lineFreed s))).link.waiting = [] := by
    rw [hdark, reparkTaps_waiting, notice_waiting]
    dsimp only
    rw [lossTold_waiting]
    exact hw
  have hseen : lossTold t.index x (lineFreed s) = seen := rfl
  rw [hseen] at hdark
  rw [exec_windowExpiry ht hl, houtcome, finish_of_none hwaiting, hseen, hdark]
  rfl

end Sys2Proof.Safety
end

