-- ==== Proofs/CraftRequests.lean ====
section
/-! PROOFS. SHOW (R126), and the craft requests POLL and TEST as they are handed to the scheduler (R83, R127; O52). -/

namespace Sys2Proof.Safety

open Sys2Proof.Machine

/-! ## The craft port's commands (R121, R122) -/

/-- Lines that join the print queue, or are lost, leave the link. -/
theorem print_link (ls : List Text) (s : State) : (print ls s).link = s.link := by
  unfold print fillPrint
  repeat' split
  all_goals rfl

/-- So does one line of words. -/
theorem printLine_link (ws : List Text) (s : State) : (printLine ws s).link = s.link := print_link ..

/-- In LOADING and in RUN a command is taken. -/
theorem craftWorking_of {s : State} (w : Working s) (f : State → State) : craftWorking f s = f s := by
  unfold craftWorking craftGate
  rcases w with w | w <;> rw [w]

/-- An event that leaves no order waiting ends with the choice of work. -/
theorem next_finish_of_link {s t : State} (hw : s.link.waiting = []) (hl : t.link = s.link) :
    (.next (finish t) : Result) = .next (kick t) := by
  rw [finish_of_none ((congrArg Link.waiting hl).trans hw)]

/-! ## SHOW (R126) -/

/-- A SHOW of a number with a limit, given the matter that the host's query returns. -/
def shown (limit n : Nat) (what : String) (matter : Option (List Byte)) (s : State) : State :=
  if limit < n then printErr "RANGE" s
  else match matter with
    | none => printErr "NOT_LOADED" s
    | some m => print (showReply what n m) s

section
variable {s : State} (w : Working s) (n : Nat)
include w

/-- SHOW SEG is a SHOW of the matter of QUERY-SEGMENT. -/
theorem craftShowSeg_shown : craftShowSeg n s = shown 31 n "SEG" ((tget s.telemetry.segments n).map (segBytes s n)) s := by
  unfold craftShowSeg shown segOf
  rw [craftWorking_of w]
  cases tget s.telemetry.segments n <;> rfl

/-- SHOW XP is a SHOW of the matter of QUERY-TRANSPONDER. -/
theorem craftShowXp_shown : craftShowXp n s = shown 4095 n "XP" ((xpAt s n).map (fun x => xpBytes s x.1 x.2)) s := by
  unfold craftShowXp shown
  rw [craftWorking_of w]
  cases xpAt s n <;> rfl

/-- SHOW TAP is a SHOW of the matter of QUERY-TAP. -/
theorem craftShowTap_shown : craftShowTap n s = shown 4095 n "TAP" ((tapAt s n).map (fun x => tapBytes s x.1 x.2)) s := by
  unfold craftShowTap shown
  rw [craftWorking_of w]
  cases tapAt s n <;> rfl

end

section
variable {limit n : Nat} {what : String} {matter : Option (List Byte)} {s : State}

/-- A number out of range. -/
theorem shown_range (h : limit < n) : shown limit n what matter s = printErr "RANGE" s := if_pos h

/-- A number of no record. -/
theorem shown_none (h : n ≤ limit) : shown limit n what none s = printErr "NOT_LOADED" s := if_neg (Nat.not_lt.mpr h)

/-- The number of a record. -/
theorem shown_some (h : n ≤ limit) (m : List Byte) : shown limit n what (some m) s = print (showReply what n m) s :=
  if_neg (Nat.not_lt.mpr h)

end

/-! ## Craft requests (R83, R127) -/

/-- A craft request stands where one waits or is in progress. -/
theorem craftBusy_iff (s : State) : craftBusy s = true ↔ (∃ r, .craft r ∈ s.plant.urgent)
    ∨ ∃ t, s.plant.current = some t ∧ (t.purpose = .craftPoll ∨ t.purpose = .craftTest) := by
  have waits : (∃ e ∈ s.plant.urgent, (match e with | .craft _ => true | .port .. => false) = true)
      ↔ ∃ r, UrgentItem.craft r ∈ s.plant.urgent := by
    constructor
    · rintro ⟨e, he, h⟩
      cases e with
      | craft r => exact ⟨r, he⟩
      | port a b m => cases h
    · rintro ⟨r, hr⟩
      exact ⟨_, hr, rfl⟩
  unfold craftBusy
  rw [Bool.or_eq_true, List.any_eq_true]
  refine or_congr waits ?_
  simp only [Option.any_eq_true, Bool.or_eq_true, decide_eq_true_eq]

section
variable {s : State} {r : CraftReq}

/-- Outside RUN a request is refused. -/
theorem craftRequest_stopped (h : s.link.op ≠ .run) : craftRequest r s = printErr "STATE" s :=
  if_pos (by simp [running, h])

variable (hrun : s.link.op = .run)
include hrun

/-- While another stands it is refused. -/
theorem craftRequest_busy (hb : craftBusy s = true) : craftRequest r s = printErr "BUSY" s := by
  unfold craftRequest
  rw [if_neg (by simp [running, hrun]), if_pos hb]

variable (hb : ¬ craftBusy s = true)
include hb

/-- A request that could not be started is refused with its error. -/
theorem craftRequest_blocked {e : String} (h : craftBlocked s r = some e) : craftRequest r s = printErr e s := by
  unfold craftRequest
  rw [if_neg (by simp [running, hrun]), if_neg hb, h]

/-- Any other is queued. -/
theorem craftRequest_queued (h : craftBlocked s r = none) :
    craftRequest r s = { s with plant.urgent := .craft r :: s.plant.urgent } := by
  unfold craftRequest
  rw [if_neg (by simp [running, hrun]), if_neg hb, h]

end

section
variable {s : State} {a p : Nat} {on : Bool}

/-- No record at the address of a POLL. -/
theorem craftBlocked_poll_none (ht : tapAt s a = none) (hx : xpAt s a = none) :
    craftBlocked s (.poll a) = some "NOT_LOADED" := if_neg (by simp [ht, hx])

/-- A record at the address of a POLL. -/
theorem craftBlocked_poll_some (h : tapAt s a ≠ none ∨ xpAt s a ≠ none) : craftBlocked s (.poll a) = none :=
  if_pos (by simpa [Option.isSome_iff_ne_none] using h)

/-- No tap at the address of a TEST. -/
theorem craftBlocked_test_none (ht : tapAt s a = none) : craftBlocked s (.test a p on) = some "NOT_LOADED" := by
  unfold craftBlocked
  simp [ht]

variable {i : Nat} {x : Tap} (ht : tapAt s a = some (i, x))
include ht

/-- The tap of a TEST in a segment that is not HELD. -/
theorem craftBlocked_test_free (h : serviceOf s x.segment ≠ .held) : craftBlocked s (.test a p on) = some "NOT_HELD" := by
  unfold craftBlocked
  simp [ht, h]

/-- The tap of a TEST in a segment HELD. -/
theorem craftBlocked_test_held (h : serviceOf s x.segment = .held) : craftBlocked s (.test a p on) = none := by
  unfold craftBlocked
  simp [ht, h]

end

section
variable {s : State} (w : Working s)
include w

/-- POLL within its range is handed to the scheduler. -/
theorem craftPoll_request {a : Nat} (h : a ≤ 4095) : craftPoll a s = craftRequest (.poll a) s := by
  unfold craftPoll
  rw [craftWorking_of w, if_neg (Nat.not_lt.mpr h)]

/-- POLL out of range. -/
theorem craftPoll_range {a : Nat} (h : 4095 < a) : craftPoll a s = printErr "RANGE" s := by
  unfold craftPoll
  rw [craftWorking_of w, if_pos h]

/-- TEST within its ranges is handed to the scheduler. -/
theorem craftTest_request {a p : Nat} (on : Bool) (ha : a ≤ 4095) (hp : p ≤ 3) :
    craftTest a p on s = craftRequest (.test a p on) s := by
  unfold craftTest
  rw [craftWorking_of w, if_neg (by simp [ha, hp])]

/-- TEST out of range. -/
theorem craftTest_range {a p : Nat} (on : Bool) (h : 4095 < a ∨ 3 < p) : craftTest a p on s = printErr "RANGE" s := by
  unfold craftTest
  rw [craftWorking_of w, if_pos (by simpa using h)]

end

/-- Settles O52: each SHOW by its number and its record, each request by its causes in their order. -/
theorem craftShowsAndRequests : Obligations.CraftShowsAndRequests := by
  intro n p on s hw w typed err shows queued busy
  have said {i : Instr} {t : State} {code : String} (hi : exec i s = .next (finish t)) (ht : t = printErr code s) :
      err i code := by
    subst ht
    exact hi.trans (next_finish_of_link hw (printLine_link ..))
  have told {i : Instr} {t : State} {what : String} {m : List Byte} (hi : exec i s = .next (finish t))
      (ht : t = print (showReply what n m) s) : shows i what m := by
    subst ht
    exact hi.trans (next_finish_of_link hw (print_link ..))
  have placed {i : Instr} {t : State} {r : CraftReq} (hi : exec i s = .next (finish t))
      (ht : t = { s with plant.urgent := .craft r :: s.plant.urgent }) : queued i r := by
    subst ht
    exact hi.trans (next_finish_of_link hw rfl)
  have hbusy : craftBusy s = true ↔ busy := craftBusy_iff s
  have hseg := craftShowSeg_shown w n
  have hxp := craftShowXp_shown w n
  have htap := craftShowTap_shown w n
  refine ⟨fun h => said rfl (hseg.trans (shown_range h)), fun h hg => ?_, fun g h hg => ?_,
    fun h => ⟨said rfl (hxp.trans (shown_range h)), said rfl (htap.trans (shown_range h)), said rfl (craftPoll_range w h)⟩,
    fun h hx => ?_, fun i x h hx => ?_, fun h hx => ?_, fun i x h hx => ?_, fun h => said rfl (craftTest_range w on h),
    fun h => ?_, fun h hp => ?_⟩
  · rw [hg] at hseg
    exact said rfl (hseg.trans (shown_none h))
  · rw [hg] at hseg
    exact told rfl (hseg.trans (shown_some h _))
  · rw [hx] at hxp
    exact said rfl (hxp.trans (shown_none h))
  · rw [hx] at hxp
    exact told rfl (hxp.trans (shown_some h _))
  · rw [hx] at htap
    exact said rfl (htap.trans (shown_none h))
  · rw [hx] at htap
    exact told rfl (htap.trans (shown_some h _))
  · have hpoll := craftPoll_request w h
    refine ⟨fun hr => said rfl (hpoll.trans (craftRequest_stopped hr)),
      fun hr hb => said rfl (hpoll.trans (craftRequest_busy hr (hbusy.mpr hb))), fun hr hb hx ht => ?_, fun hr hb hl => ?_⟩
    · exact said rfl (hpoll.trans (craftRequest_blocked hr (mt hbusy.mp hb) (craftBlocked_poll_none ht hx)))
    · exact placed rfl (hpoll.trans (craftRequest_queued hr (mt hbusy.mp hb) (craftBlocked_poll_some hl.symm)))
  · have htest := craftTest_request w on h hp
    refine ⟨fun hr => said rfl (htest.trans (craftRequest_stopped hr)),
      fun hr hb => said rfl (htest.trans (craftRequest_busy hr (hbusy.mpr hb))), fun hr hb ht => ?_,
      fun i x hr hb ht => ⟨fun hs => ?_, fun hs => ?_⟩⟩
    · exact said rfl (htest.trans (craftRequest_blocked hr (mt hbusy.mp hb) (craftBlocked_test_none ht)))
    · exact said rfl (htest.trans (craftRequest_blocked hr (mt hbusy.mp hb) (craftBlocked_test_free ht hs)))
    · exact placed rfl (htest.trans (craftRequest_queued hr (mt hbusy.mp hb) (craftBlocked_test_held ht hs)))

end Sys2Proof.Safety
end

