-- ==== Proofs/TapOrders.lean ====
section
/-! PROOFS. LOAD-TAP (R52, R68, R75) and QUERY-TAP (R67, R69; O40). -/

namespace Sys2Proof.Safety

open Sys2Proof.Machine

/-! ## A tap written whole -/

/-- A record written and then changed is the changed record written. -/
theorem tmod_tset {α : Type} (l : List (Nat × α)) (i : Nat) (x : α) (f : α → α) : tmod (tset l i x) i f = tset l i (f x) := by
  induction l with
  | nil => simp [tset, tmod]
  | cons y l ih =>
    obtain ⟨k, v⟩ := y
    unfold tset
    by_cases hlt : k < i
    · simp [hlt, tmod, Nat.ne_of_lt hlt, ih]
    · by_cases hk : k = i <;> simp [hlt, hk, tmod]

/-- The state with a tap record. -/
def withTap (i : Nat) (x : Tap) (s : State) : State := { s with plant.taps := tset s.plant.taps i x }

/-- The park conditions of a tap just written. -/
theorem parkHoldsAt_withTap (i : Nat) (x : Tap) (s : State) : parkHoldsAt (withTap i x s) i = parkHolds s x :=
  parkHoldsAt_eq (tget_tset ..)

/-- A write to a port of a tap just written. -/
theorem modPort_withTap (i q : Nat) (f : Port → Port) (x : Tap) (s : State) :
    modPort (i, q) f (withTap i x s) = withTap i { x with ports := lmod x.ports q f } s := by
  unfold modPort withTap
  simp only [tmod_tset]

/-- Under the park conditions a port of a tap just written becomes PARKED. -/
theorem pend_withTap_parks {i : Nat} {x : Tap} {s : State} (h : parkHolds s x = true) (q : Nat) :
    pend .refresh (i, q) (withTap i x s)
      = withTap i { x with ports := lmod x.ports q (fun r => { r with sync := .parked, cls := none }) } s := by
  unfold pend
  rw [parkHoldsAt_withTap, if_pos h, modPort_withTap]

/-- Ports join the tail of the REFRESH queue. -/
def joinRefresh (ps : List (Nat × Nat)) (s : State) : State := { s with plant.refresh := s.plant.refresh ++ ps }

/-- Ports that join behind others join with them. -/
theorem joinRefresh_joinRefresh (ps qs : List (Nat × Nat)) (s : State) :
    joinRefresh qs (joinRefresh ps s) = joinRefresh (ps ++ qs) s := by
  unfold joinRefresh
  simp only [List.append_assoc]

/-- Else it becomes PENDING at the tail of the REFRESH queue. -/
theorem pend_withTap_joins {i : Nat} {x : Tap} {s : State} (h : parkHolds s x = false) (q : Nat) :
    pend .refresh (i, q) (withTap i x s)
      = withTap i { x with ports := lmod x.ports q (fun r => { r with sync := .pending, cls := some .refresh }) }
        (joinRefresh [(i, q)] s) := by
  unfold pend
  rw [parkHoldsAt_withTap, if_neg (by simp [h]), modPort_withTap]
  rfl

/-! ## A tap loaded afresh (R52, R68, R75) -/

/-- A tap of a segment as it is loaded afresh, with its four ports alike. -/
def tapOf (a g : Nat) (r : Port) : Tap := { address := a, segment := g, ports := List.replicate 4 r }

/-- The park conditions of a tap loaded afresh are its segment's alone. -/
theorem parkHolds_fresh (a g : Nat) (l : List Port) (s : State) :
    parkHolds s { address := a, segment := g, ports := l } = decide (serviceOf s g ≠ .lit) := rfl

/-- The four ports of a tap leave the queues. -/
theorem leaveQueues_tap (i : Nat) (s : State) :
    (portsOf [i]).foldl (fun s p => leaveQueues p s) s = quits i (fun q => decide (q ≤ 3)) s := by
  have hport : (fun q => ((decide (q = 0) || decide (q = 1)) || decide (q = 2)) || decide (q = 3))
      = fun q => decide (q ≤ 3) := by
    funext q
    simp only [← Bool.decide_or]
    exact decide_eq_decide.mpr (by omega)
  show leaveQueues (i, 3) (leaveQueues (i, 2) (leaveQueues (i, 1) (leaveQueues (i, 0) s))) = _
  simp only [leaveQueues_quits, quits_quits]
  rw [hport]

/-- The probe-due flag falls once no tap is UNREACHABLE (R75). -/
theorem dropProbe_eq (s : State) : dropProbe s
    = { s with plant.probeDue := s.plant.probeDue && s.plant.taps.any (fun y => y.2.unreachable.isSome) } := by
  have hany : s.plant.taps.any (fun y => y.2.unreachable.isSome) = !(unreachableTaps s).isEmpty := by
    unfold unreachableTaps
    rw [List.isEmpty_map, Bool.eq_iff_iff]
    simp [List.any_eq_true, Option.isSome_iff_ne_none]
  unfold dropProbe
  rw [hany]
  cases (unreachableTaps s).isEmpty <;> simp

/-- The state in which a tap has been loaded afresh: its ports PARKED in a segment that is shut, and else PENDING at the tail of the
REFRESH queue. -/
def tapFreshed (i a g : Nat) (shut : Bool) (s : State) : State :=
  dropProbe (withTap i (tapOf a g (if shut then { sync := .parked } else { sync := .pending, cls := some .refresh }))
    (joinRefresh (if shut then [] else [(i, 0), (i, 1), (i, 2), (i, 3)]) (quits i (fun q => decide (q ≤ 3)) s)))

section
variable (i a : Nat) {g : Nat} {s : State}

/-- The ports of a tap of a segment that is not LIT. -/
theorem pend_tap_parks (h : serviceOf s g ≠ .lit) :
    (portsOf [i]).foldl (fun s p => pend .refresh p s) (withTap i { address := a, segment := g } s)
      = withTap i (tapOf a g { sync := .parked }) s := by
  have step (l : List Port) (q : Nat) : pend .refresh (i, q) (withTap i { address := a, segment := g, ports := l } s)
      = withTap i { address := a, segment := g, ports := lmod l q (fun r => { r with sync := .parked, cls := none }) } s :=
    pend_withTap_parks ((parkHolds_fresh ..).trans (decide_eq_true h)) q
  show pend .refresh (i, 3) (pend .refresh (i, 2) (pend .refresh (i, 1) (pend .refresh (i, 0) _))) = _
  rw [step, step, step, step]
  rfl

/-- The ports of a tap of a segment that is LIT. -/
theorem pend_tap_joins (h : serviceOf s g = .lit) :
    (portsOf [i]).foldl (fun s p => pend .refresh p s) (withTap i { address := a, segment := g } s)
      = withTap i (tapOf a g { sync := .pending, cls := some .refresh }) (joinRefresh [(i, 0), (i, 1), (i, 2), (i, 3)] s) := by
  have step (l : List Port) (q : Nat) (u : State) (hu : serviceOf u g = .lit) :
      pend .refresh (i, q) (withTap i { address := a, segment := g, ports := l } u)
        = withTap i { address := a, segment := g, ports := lmod l q (fun r => { r with sync := .pending, cls := some .refresh }) }
          (joinRefresh [(i, q)] u) :=
    pend_withTap_joins ((parkHolds_fresh ..).trans (decide_eq_false (not_not.mpr hu))) q
  have join (ps : List (Nat × Nat)) : serviceOf (joinRefresh ps s) g = .lit := h
  show pend .refresh (i, 3) (pend .refresh (i, 2) (pend .refresh (i, 1) (pend .refresh (i, 0) _))) = _
  rw [step _ _ _ h, step _ _ _ (join _), joinRefresh_joinRefresh, step _ _ _ (join _), joinRefresh_joinRefresh,
    step _ _ _ (join _), joinRefresh_joinRefresh]
  rfl

/-- A tap is loaded afresh. -/
theorem freshTap_eq {shut : Bool} (h : decide (serviceOf s g ≠ .lit) = shut) : freshTap i a g s = tapFreshed i a g shut s := by
  show dropProbe ((portsOf [i]).foldl _ (withTap i _ (List.foldl _ s (portsOf [i])))) = _
  rw [leaveQueues_tap]
  cases shut with
  | true =>
    rw [pend_tap_parks (s := quits i (fun q => decide (q ≤ 3)) s) i a (of_decide_eq_true h)]
    unfold tapFreshed joinRefresh
    rw [if_pos rfl, if_pos rfl, List.append_nil]
  | false =>
    rw [pend_tap_joins (s := quits i (fun q => decide (q ≤ 3)) s) i a (not_not.mp (of_decide_eq_false h))]
    rfl

/-- The tap loaded afresh is read back. -/
theorem tget_tapFreshed (shut : Bool) : tget (tapFreshed i a g shut s).plant.taps i
    = some (tapOf a g (if shut then { sync := .parked } else { sync := .pending, cls := some .refresh })) := by
  unfold tapFreshed
  rw [dropProbe_eq]
  exact tget_tset ..

/-- A tap loaded afresh does not look at the order in flight. -/
theorem tapFreshed_taken (tag : Byte) (o : Order) (shut : Bool) :
    tapFreshed i a g shut (taken tag o s) = taken tag o (tapFreshed i a g shut s) := by
  unfold tapFreshed
  rw [dropProbe_eq, dropProbe_eq]
  rfl

/-- A tap loaded afresh leaves the link. -/
theorem tapFreshed_link (shut : Bool) : (tapFreshed i a g shut s).link = s.link := by
  unfold tapFreshed
  rw [dropProbe_eq]
  rfl

end

/-! ## LOAD-TAP (R68) -/

/-- A segment loaded is shut where it is not LIT. -/
theorem serviceOf_shut {s : State} {g : Nat} (h : tget s.telemetry.segments g ≠ none) :
    decide (serviceOf s g ≠ .lit) = (tget s.telemetry.segments g).any (fun x => x.service ≠ .lit) := by
  unfold serviceOf
  cases hg : tget s.telemetry.segments g with
  | none => exact absurd hg h
  | some x => rfl

/-- The causes for which LOAD-TAP is refused BAD_ARG. -/
def LoadTapRefused (i a g : Nat) (s : State) : Prop := 511 < i ∨ 4095 < a ∨ 31 < g ∨ tget s.telemetry.segments g = none
  ∨ (∃ x ∈ s.telemetry.transponders, x.2.address = a) ∨ (∃ x ∈ s.plant.taps, x.2.address = a ∧ x.1 ≠ i)

/-- The check of LOAD-TAP finds one of its causes. -/
theorem loadTapCheck_iff (i a g : Nat) (s : State) : (511 < i || 4095 < a || 31 < g || (segOf s g).isNone || (xpAt s a).isSome
    || s.plant.taps.any (fun t => t.2.address = a && t.1 ≠ i)) = true ↔ LoadTapRefused i a g s := by
  unfold LoadTapRefused segOf xpAt
  simp [or_assoc, List.find?_isSome]

/-- The answer to a LOAD-TAP that is done: the whole matter of QUERY-TAP. -/
def answerTap (i : Nat) (s : State) : State := answer .ok (((tget s.plant.taps i).map (tapBytes s i)).getD []) s

section
variable {i a g : Nat} {s : State}

/-- LOAD-TAP refused by its check. -/
theorem orderLoadTap_refused (h : LoadTapRefused i a g s) : orderLoadTap i a g s = refuse .badArg s :=
  if_pos ((loadTapCheck_iff ..).mpr h)

variable (h : ¬ LoadTapRefused i a g s)
include h

/-- LOAD-TAP of an empty index. -/
theorem orderLoadTap_empty (hx : tget s.plant.taps i = none) : orderLoadTap i a g s = answerTap i (freshTap i a g s) := by
  unfold orderLoadTap
  rw [if_neg (mt (loadTapCheck_iff ..).mp h), hx]
  rfl

variable {x : Tap} (hx : tget s.plant.taps i = some x)
include hx

/-- LOAD-TAP of an index whose tap at another address has a port bound, SENT or HELD. -/
theorem orderLoadTap_engaged (ha : x.address ≠ a) (hp : ∃ r ∈ x.ports, r.slot ≠ none ∨ r.sync = .sent ∨ r.sync = .held) :
    orderLoadTap i a g s = refuse .state s := by
  unfold orderLoadTap
  rw [if_neg (mt (loadTapCheck_iff ..).mp h), hx]
  dsimp only
  rw [if_pos ha, if_pos (by simpa [List.any_eq_true, or_assoc, Option.isSome_iff_ne_none] using hp)]

/-- LOAD-TAP of an index whose tap at another address has none. -/
theorem orderLoadTap_replaces (ha : x.address ≠ a) (hp : ∀ r ∈ x.ports, r.slot = none ∧ r.sync ≠ .sent ∧ r.sync ≠ .held) :
    orderLoadTap i a g s = answerTap i (freshTap i a g s) := by
  unfold orderLoadTap
  rw [if_neg (mt (loadTapCheck_iff ..).mp h), hx]
  dsimp only
  rw [if_pos ha, if_neg (by simpa [List.any_eq_true, and_assoc, Option.isSome_iff_ne_none] using hp)]
  rfl

variable (ha : x.address = a)
include ha

/-- LOAD-TAP of a known tap with its own segment. -/
theorem orderLoadTap_same (hg : x.segment = g) : orderLoadTap i a g s = answerTap i s := by
  unfold orderLoadTap
  rw [if_neg (mt (loadTapCheck_iff ..).mp h), hx]
  dsimp only
  rw [if_neg (not_not.mpr ha), if_pos hg]
  unfold answerTap
  rw [hx]

/-- LOAD-TAP of a known tap with a bound port and another segment. -/
theorem orderLoadTap_bound (hg : x.segment ≠ g) (hp : ∃ r ∈ x.ports, r.slot ≠ none) : orderLoadTap i a g s = refuse .state s := by
  unfold orderLoadTap
  rw [if_neg (mt (loadTapCheck_iff ..).mp h), hx]
  dsimp only
  rw [if_neg (not_not.mpr ha), if_neg hg, if_pos (by simpa [List.any_eq_true, Option.isSome_iff_ne_none] using hp)]

/-- LOAD-TAP of a known tap with no bound port and another segment. -/
theorem orderLoadTap_moves (hg : x.segment ≠ g) (hp : ∀ r ∈ x.ports, r.slot = none) :
    orderLoadTap i a g s = answerTap i (reparkTaps [i] (withTap i { x with segment := g } s)) := by
  unfold orderLoadTap
  rw [if_neg (mt (loadTapCheck_iff ..).mp h), hx]
  dsimp only
  rw [if_neg (not_not.mpr ha), if_neg hg, if_neg (by simpa [List.any_eq_true, Option.isSome_iff_ne_none] using hp)]
  rfl

end

/-- The re-evaluation of ports does not look at the order in flight. -/
theorem reparkTaps_taken (tag : Byte) (o : Order) (taps : List Nat) (s : State) :
    reparkTaps taps (taken tag o s) = taken tag o (reparkTaps taps s) := by
  have hplant : (reparkTaps taps (taken tag o s)).plant = (reparkTaps taps s).plant :=
    (reparkPorts_move (r := s) (u := s) (v := taken tag o s) (portsOf taps) (fun _ => rfl) rfl).trans
      (reparkPorts_move (r := s) (u := s) (portsOf taps) (fun _ => rfl) rfl).symm
  obtain ⟨pl, hpl⟩ := reparkTaps_plant taps (taken tag o s)
  obtain ⟨pl', hpl'⟩ := reparkTaps_plant taps s
  rw [hpl, hpl'] at hplant ⊢
  exact congrArg (fun p => ({ taken tag o s with plant := p } : State)) hplant

/-- Settles O40: LOAD-TAP by its check and by what stands at the index, QUERY-TAP by its address. -/
theorem tapOrdersLoadAndReport : Obligations.TapOrdersLoadAndReport := by
  intro tag i a g s q w answers refused isOf shut fresh
  have refuses {code : StatusCode} (e : orderLoadTap i a g (taken tag (.loadTap i a g) s) = refuse code (taken tag (.loadTap i a g) s)) :
      answers s code [] := answers_of rfl q w q.inFlight e
  have done {t : State} (ht : t.link = s.link)
      (e : orderLoadTap i a g (taken tag (.loadTap i a g) s) = answerTap i (taken tag (.loadTap i a g) t)) :
      answers t .ok (((tget t.plant.taps i).map (tapBytes t i)).getD []) :=
    answers_of rfl q w ((congrArg Link.inFlight ht).trans q.inFlight) e
  have freshed (hn : ¬ refused) (e : orderLoadTap i a g (taken tag (.loadTap i a g) s)
      = answerTap i (freshTap i a g (taken tag (.loadTap i a g) s))) : ∃ t, fresh t := by
    have hseg : tget s.telemetry.segments g ≠ none := fun hg => hn (.inr (.inr (.inr (.inl hg))))
    rw [freshTap_eq (s := taken tag (.loadTap i a g) s) i a (serviceOf_shut hseg), tapFreshed_taken] at e
    have hreply := done (tapFreshed_link ..) e
    rw [tget_tapFreshed] at hreply
    refine ⟨tapFreshed i a g shut s, ?_, hreply⟩
    have outside (j q : Nat) : (!(decide (j = i) && decide (q ≤ 3))) = (!decide (j = i) || decide (3 < q)) := by
      rw [Bool.not_and, ← decide_not (p := q ≤ 3)]
      simp only [Nat.not_le]
    have hitem : keepsItem i (fun q => decide (q ≤ 3))
        = fun e => !isOf e || (match e with | .port _ q _ => decide (3 < q) | .craft _ => true) := by
      funext e
      cases e with
      | craft r => rfl
      | port j q m => exact outside j q
    have hpair : (fun e : Nat × Nat => !(decide (e.1 = i) && decide (e.2 ≤ 3)))
        = fun e => decide (e.1 ≠ i) || decide (3 < e.2) := by
      funext e
      rw [decide_not]
      exact outside e.1 e.2
    unfold tapFreshed quits
    rw [dropProbe_eq, hitem, hpair]
    rfl
  refine ⟨fun h => refuses (orderLoadTap_refused h), fun h hx => freshed h (orderLoadTap_empty h hx), fun x h hx ha => ?_,
    fun x h hx ha => ?_, fun ht => answers_of rfl q w q.inFlight ?_, fun j x ht => answers_of rfl q w q.inFlight ?_⟩
  · exact ⟨fun hp => refuses (orderLoadTap_engaged h hx ha hp), fun hp => freshed h (orderLoadTap_replaces h hx ha hp)⟩
  · refine ⟨fun hg => ?_, fun hg hp => refuses (orderLoadTap_bound h hx ha hg hp), fun hg hp => ?_⟩
    · have hreply := done rfl (orderLoadTap_same h hx ha hg)
      rw [hx] at hreply
      exact hreply
    · intro t
      have e := orderLoadTap_moves (s := taken tag (.loadTap i a g) s) h hx ha hg hp
      rw [show withTap i _ (taken _ _ s) = taken tag (.loadTap i a g) (withTap i { x with segment := g } s) from rfl,
        reparkTaps_taken] at e
      exact done (reparkTaps_plant ..).line.link e
  · show orderQueryTap a _ = _
    unfold orderQueryTap
    rw [show tapAt (taken tag (.queryTap a) s) a = none from ht]
    rfl
  · show orderQueryTap a _ = _
    unfold orderQueryTap
    rw [show tapAt (taken tag (.queryTap a) s) a = some (j, x) from ht]
    rfl

end Sys2Proof.Safety
end

