-- ==== Proofs/ChoiceFrame.lean ====
section
/-! PROOFS. What the choice of work may do to the ports, to the phase of the line, to the watches and to the reports (R71, R78, R115):
one relation that every step of the choice keeps (O5, its first part). -/

namespace Sys2Proof.Safety

open Sys2Proof.Machine

/-! ## What an offer of work may do -/

/-- An enabled GUARD entry (R115). -/
def guarding (e : WatchEntry) : Bool := e.enabled && e.watch.any (·.guard)

/-- The transaction record with which a transaction starts in a state (R66, R70). -/
def StartedIn (s : State) (t : Plant) : Prop := ∃ x, t.current = some x ∧ x.position = s.plant.position
  ∧ x.window = s.params.replyWindow ∧ x.failed = false ∧ x.buffer = [] ∧ t.line = .sending ∧ t.timer = 0
  ∧ t.position = (s.plant.position + 1) % 8

/-- The plant line stands as it was: no transaction has started. -/
def LineStands (s t : Plant) : Prop := t.line = s.line ∧ t.current = s.current ∧ t.timer = s.timer ∧ t.position = s.position
  ∧ t.roundShare = s.roundShare ∧ t.probeCur = s.probeCur

/-- A port HELD (R115). -/
def heldPort (r : Port) : Port := { r with sync := .held, cls := none }

/-- A port SENT (R78). -/
def sentPort (r : Port) : Port := { r with sync := .sent, inFlight := some r.desired, cls := none }

/-- The transaction of a port command is in progress. -/
def Commands (t : Plant) (q : Nat × Nat) (c : Content) : Prop :=
  ∃ x, t.current = some x ∧ x.purpose = .portCommand ∧ (x.index, x.port) = q ∧ x.content = c

/-- What an offer of work to the line may do to a state, given whether a craft request is among what is offered and whether a
transaction may have started. -/
structure Offered (crafts : Prop) (started : Bool) (s t : State) : Prop where
  ports   : ∀ q r', portOf t q = some r' → ∃ r, portOf s q = some r ∧ (r' = r ∨ r' = heldPort r
    ∨ (started = true ∧ r' = sentPort r ∧ Commands t.plant q r.desired))
  line    : LineStands s.plant t.plant ∨ (started = true ∧ StartedIn s t.plant)
  params  : t.params = s.params
  watches : ∀ (n : Nat) (e : WatchEntry), s.outage.watches[n]? = some e → guarding e = false → t.outage.watches[n]? = some e
  quiet   : (∀ e ∈ s.outage.watches, guarding e = false) → t.outage = s.outage ∧ t.link = s.link ∧ (¬ crafts → t.craft = s.craft)

/-- Nothing offered. -/
theorem Offered.refl (crafts : Prop) (started : Bool) (s : State) : Offered crafts started s s where
  ports _ r' h := ⟨r', h, .inl rfl⟩
  line := .inl ⟨rfl, rfl, rfl, rfl, rfl, rfl⟩
  params := rfl
  watches _ _ h _ := h
  quiet _ := ⟨rfl, rfl, fun _ => rfl⟩

/-- An offer that starts nothing, then another. -/
theorem Offered.trans {crafts : Prop} {started : Bool} {s t u : State} (h : Offered crafts false s t)
    (k : Offered crafts started t u) : Offered crafts started s u where
  ports q r' hr := by
    obtain ⟨r₁, h₁, hk⟩ := k.ports q r' hr
    obtain ⟨r, h₀, rfl | rfl | ⟨hf, -⟩⟩ := h.ports q r₁ h₁
    · exact ⟨r₁, h₀, hk⟩
    · exact ⟨r, h₀, .inr (hk.elim .inl (fun hk => hk.elim .inl .inr))⟩
    · cases hf
  line := by
    have hstands := h.line.resolve_right (fun hf => Bool.false_ne_true hf.1)
    obtain ⟨hl, hc, ht, hp, hs, hu⟩ := hstands
    rcases k.line with ⟨kl, kc, kt, kp, ks, ku⟩ | ⟨hb, x, hx, hpos, hwin, hrest⟩
    · exact .inl ⟨kl.trans hl, kc.trans hc, kt.trans ht, kp.trans hp, ks.trans hs, ku.trans hu⟩
    · refine .inr ⟨hb, x, hx, hpos.trans hp, hwin.trans (congrArg Params.replyWindow h.params), ?_⟩
      rwa [hp] at hrest
  params := k.params.trans h.params
  watches n e hn hg := k.watches n e (h.watches n e hn hg) hg
  quiet hg := by
    obtain ⟨ho, hl, hc⟩ := h.quiet hg
    obtain ⟨ko, kl, kc⟩ := k.quiet (by rw [ho]; exact hg)
    exact ⟨ko.trans ho, kl.trans hl, fun hn => (kc hn).trans (hc hn)⟩

/-- More may be offered. -/
theorem Offered.mono {crafts crafts' : Prop} {started : Bool} {s t : State} (hc : crafts → crafts')
    (h : Offered crafts started s t) : Offered crafts' started s t :=
  { h with quiet := fun hg => ⟨(h.quiet hg).1, (h.quiet hg).2.1, fun hn => (h.quiet hg).2.2 (fun hx => hn (hc hx))⟩ }

/-- What starts nothing may as well have started something. -/
theorem Offered.start {crafts : Prop} {s t : State} (h : Offered crafts false s t) (started : Bool) : Offered crafts started s t :=
  { h with
    ports := fun q r' hr => by
      obtain ⟨r, h0, h1 | h1 | ⟨hf, -⟩⟩ := h.ports q r' hr
      · exact ⟨r, h0, .inl h1⟩
      · exact ⟨r, h0, .inr (.inl h1)⟩
      · cases hf
    line := .inl (h.line.resolve_right (fun hf => Bool.false_ne_true hf.1)) }

/-- A change of the two queues, of the cursor of the cycle and of the probe-due flag starts nothing. -/
theorem Offered.queues (crafts : Prop) (s : State) (u : List UrgentItem) (r : List (Nat × Nat)) (c : Option Nat) (d : Bool) :
    Offered crafts false s { s with plant.urgent := u, plant.refresh := r, plant.cursor := c, plant.probeDue := d } :=
  { Offered.refl crafts false s with }

/-- A transaction that starts where the line and the ports stand as they did. -/
theorem startTx_offered (crafts : Prop) {s u : State} (p : Purpose) (a i : Nat) (toTap : Bool) (port : Nat) (c : Content)
    (hu : ∃ (ur : List UrgentItem) (cur pr : Option Nat) (d : Bool),
      u = { s with plant.urgent := ur, plant.cursor := cur, plant.probeDue := d, plant.probeCur := pr }) :
    Offered crafts true s (startTx p a i toTap port c u) := by
  obtain ⟨ur, cur, pr, d, rfl⟩ := hu
  exact { Offered.refl crafts true s with
    ports := fun _ r' h => ⟨r', h, .inl rfl⟩
    line := .inr ⟨rfl, _, rfl, rfl, rfl, rfl, rfl, rfl, rfl, rfl⟩ }

/-! ## Port commands (R77, R78, R115) -/

/-- A port command that starts (R78). -/
theorem startPort_offered (crafts : Prop) (p : Nat × Nat) (s : State) : Offered crafts true s (startPort p s) := by
  unfold startPort
  split
  · rename_i t r ht hr
    have hport (q : Nat × Nat) (u : State) (hu : u.plant.taps = (modPort p sentPort s).plant.taps) :
        portOf u q = if p = q then some (sentPort r) else portOf s q := by
      rw [portOf_congr hu, portOf_modPort, hr]
      rfl
    refine { Offered.refl crafts true s with
      ports := fun q r' hq => ?_
      line := .inr ⟨rfl, _, rfl, rfl, rfl, rfl, rfl, rfl, rfl, rfl⟩ }
    replace hq := (hport q _ rfl).symm.trans hq
    split at hq
    · rename_i hpq
      cases hq
      exact ⟨r, hpq ▸ hr, .inr (.inr ⟨rfl, rfl, _, rfl, rfl, hpq, rfl⟩)⟩
    · exact ⟨r', hq, .inl rfl⟩
  · exact .refl ..

/-- A line of the controller's own changes the craft port alone, as the craft port says. -/
theorem printLine_eq (ws : List Text) (s : State) :
    printLine ws s = { s with craft := (printLine ws { craft := s.craft }).craft } := by
  unfold printLine print fillPrint
  dsimp only
  repeat' split
  all_goals rfl

/-- The report of a hit leaves the plant line, the parameters and the outage log. -/
theorem reportGuard_keeps (n k : Nat) (h : Held) (s : State) :
    (reportGuard n k h s).plant = s.plant ∧ (reportGuard n k h s).params = s.params ∧ (reportGuard n k h s).outage = s.outage := by
  unfold reportGuard
  split
  · rw [notice_eq]
    exact ⟨rfl, rfl, rfl⟩
  · rw [printLine_eq]
    exact ⟨rfl, rfl, rfl⟩

/-- The entry that the guard check finds guards. -/
theorem guardFor_guarding {s : State} {a n : Nat} (h : guardFor s a = some n) :
    ∃ e, s.outage.watches[n]? = some e ∧ guarding e = true := by
  obtain ⟨hn, he, -⟩ := List.findIdx?_eq_some_iff_getElem.mp h
  refine ⟨_, List.getElem?_eq_getElem hn, ?_⟩
  unfold guarding
  simp only [Bool.and_eq_true, Option.any_eq_true] at he ⊢
  obtain ⟨hen, w, hw, hg, -⟩ := he
  exact ⟨hen, w, hw, hg⟩

/-- The held command that a port command becomes (R115). -/
def heldCommand (n : Nat) (p : Nat × Nat) (a : Nat) (s : State) : Held :=
  ⟨p.1, a, p.2, n, (portOf s p).bind (·.cls), minuteOf s⟩

/-- The state in which a port command is held, before its hit is reported (R115). -/
def heldUnreported (n k : Nat) (p : Nat × Nat) (a : Nat) (s : State) : State :=
  leaveQueues p (modPort p (fun r => { r with sync := .held, cls := none }) { s with
    outage.watches := lmod s.outage.watches n (fun e =>
      { e with hits := min 255 (e.hits + 1), enabled := e.enabled && !e.watch.any (·.once) })
    outage.held := s.outage.held.set k (some (heldCommand n p a s)) })

/-- A command is held, then its hit reported. -/
theorem holdCommand_report (n k : Nat) (p : Nat × Nat) (a : Nat) (s : State) :
    holdCommand n k p a s = reportGuard n k (heldCommand n p a s) (heldUnreported n k p a s) := rfl

/-- A port command that is held (R115). -/
theorem holdCommand_offered (crafts : Prop) {s : State} {n : Nat} {a : Nat} (hg : guardFor s a = some n) (k : Nat) (p : Nat × Nat) :
    Offered crafts false s (holdCommand n k p a s) := by
  obtain ⟨e, he, hgd⟩ := guardFor_guarding hg
  obtain ⟨hplant, hparams, houtage⟩ := reportGuard_keeps n k (heldCommand n p a s) (heldUnreported n k p a s)
  rw [holdCommand_report]
  refine ⟨fun q r' hq => ?_, .inl ?_, hparams, fun m e' hm hq => ?_, fun hall => ?_⟩
  · rw [portOf_congr (congrArg Plant.taps hplant)] at hq
    replace hq : (if p = q then (portOf s p).map heldPort else portOf s q) = some r' := (portOf_modPort p q heldPort s).symm.trans hq
    split at hq
    · rename_i hpq
      obtain ⟨r, hr, rfl⟩ := Option.map_eq_some_iff.mp hq
      exact ⟨r, hpq ▸ hr, .inr (.inl rfl)⟩
    · exact ⟨r', hq, .inl rfl⟩
  · rw [hplant]
    exact ⟨rfl, rfl, rfl, rfl, rfl, rfl⟩
  · rw [houtage]
    have hne : n ≠ m := by
      rintro rfl
      rw [he] at hm
      cases hm
      rw [hgd] at hq
      cases hq
    show (lmod s.outage.watches n _)[m]? = _
    rw [lmod_get, if_neg hne, hm]
  · exact absurd (hall e (List.mem_of_getElem? he)) (by simp [hgd])

/-- What the guard check holds, an entry guards (R115). -/
theorem guardCheck_hold {s : State} {a n k : Nat} {m : Bool} (h : guardCheck s a m = .hold n k) : guardFor s a = some n := by
  unfold guardCheck at h
  split at h
  · cases h
  · split at h
    · cases h
    · split at h
      · rename_i hn _ _ _
        cases h
        exact hn
      · cases h

/-- A port entry that is offered. -/
theorem offerPort_offered (crafts : Prop) (p : Nat × Nat) (m : Bool) (s : State) :
    Offered crafts (offerPort p m s).2 s (offerPort p m s).1 := by
  unfold offerPort
  split
  · exact .refl ..
  · split
    · exact startPort_offered ..
    · rename_i h
      exact holdCommand_offered crafts (guardCheck_hold h) ..
    · exact .refl ..

/-! ## Craft requests and the queues (R72, R83, R127) -/

/-- A craft request given up with its error. -/
def craftGivenUp (code : String) (s : State) : State := printErr code (leaveCraft s)

/-- A craft request that is given up leaves the queue and prints its error. -/
theorem craftGivenUp_eq (code : String) (s : State) : craftGivenUp code s
    = { leaveCraft s with craft := (printLine [word "ERR", word code] { craft := s.craft }).craft } := printLine_eq ..

/-- A craft request that is given up. -/
theorem craftGivenUp_offered (code : String) (s : State) : Offered True false s (craftGivenUp code s) := by
  rw [craftGivenUp_eq]
  exact { Offered.refl True false s with quiet := fun _ => ⟨rfl, rfl, fun h => absurd trivial h⟩ }

/-- A craft request that is offered. -/
theorem offerCraft_offered (r : CraftReq) (s : State) : Offered True (offerCraft r s).2 s (offerCraft r s).1 := by
  have left : Offered True false s (leaveCraft s) := { Offered.refl True false s with }
  have started (p : Purpose) (a i : Nat) (toTap : Bool) (port : Nat) (c : Content) :
      Offered True true s (startTx p a i toTap port c (leaveCraft s)) :=
    startTx_offered True p a i toTap port c ⟨_, _, _, _, rfl⟩
  unfold offerCraft
  dsimp only
  split
  · exact craftGivenUp_offered ..
  · split
    · split
      · exact started ..
      · exact started ..
      · exact left
    · split
      · exact started ..
      · exact left

/-- One offer that starts nothing, then the rest. -/
theorem Offered.andThen {crafts : Prop} {s : State} {u v : State × Bool} (h : Offered crafts u.2 s u.1)
    (k : Offered crafts v.2 u.1 v.1) : Offered crafts (if u.2 then u else v).2 s (if u.2 then u else v).1 := by
  obtain ⟨u, b⟩ := u
  cases b with
  | true => exact h
  | false => exact h.trans k

/-- The entries of the URGENT queue offered in order. -/
theorem offerUrgent_offered (l : List UrgentItem) (s : State) :
    Offered (∃ r, .craft r ∈ l) (offerUrgent l s).2 s (offerUrgent l s).1 := by
  induction l generalizing s with
  | nil => exact .refl ..
  | cons e es ih =>
    have rest (u : State) := (ih u).mono (crafts' := ∃ r, .craft r ∈ e :: es)
      (fun h => h.imp fun _ hr => List.mem_cons_of_mem _ hr)
    cases e with
    | port j q m => exact Offered.andThen (offerPort_offered _ (j, q) m s) (rest _)
    | craft r =>
      exact Offered.andThen ((offerCraft_offered r s).mono fun _ => ⟨r, List.mem_cons_self ..⟩) (rest _)

/-- The entries of the REFRESH queue offered in order. -/
theorem offerRefresh_offered (crafts : Prop) (l : List (Nat × Nat)) (s : State) :
    Offered crafts (offerRefresh l s).2 s (offerRefresh l s).1 := by
  induction l generalizing s with
  | nil => exact .refl ..
  | cons p ps ih => exact Offered.andThen (offerPort_offered crafts p false s) (ih _)

/-- Command work. -/
theorem commandWork_offered (s : State) :
    Offered (∃ r, .craft r ∈ s.plant.urgent) (commandWork s).2 s (commandWork s).1 :=
  Offered.andThen (offerUrgent_offered _ s) (offerRefresh_offered ..)

/-! ## Poll work (R74, R75) -/

/-- A cycle that is completed. -/
theorem completeCycle_offered (crafts : Prop) (s : State) : Offered crafts false s (completeCycle s) :=
  .queues crafts s _ _ _ _

/-- A due probe that starts. -/
theorem startProbe_offered (crafts : Prop) {s t : State} (h : startProbe s = some t) : Offered crafts true s t := by
  unfold startProbe at h
  split at h
  · cases h
  · dsimp only at h
    split at h
    · cases h
    · obtain ⟨x, -, rfl⟩ := Option.map_eq_some_iff.mp h
      exact startTx_offered crafts _ _ _ _ _ _ ⟨_, _, _, _, rfl⟩

/-- A poll that starts, with the completion of its cycle. -/
theorem startPoll_offered (crafts : Prop) (i : Nat) (s : State) : Offered crafts true s (startPoll i s) := by
  unfold startPoll
  split
  · exact .refl ..
  · have h (x : Transponder) := startTx_offered crafts (s := s) (u := { s with plant.cursor := some i }) .poll x.address i false 0
      noContent ⟨_, _, _, _, rfl⟩
    dsimp only
    split
    · exact { h _ with }
    · exact h _

/-- The next due poll. -/
theorem startDuePoll_offered (crafts : Prop) (s : State) : Offered crafts (startDuePoll s).2 s (startDuePoll s).1 := by
  have dropped : Offered crafts false s (dropProbe s) := by
    unfold dropProbe
    split
    · exact .queues crafts s _ _ _ _
    · exact .refl ..
  unfold startDuePoll
  dsimp only
  revert dropped
  generalize dropProbe s = u
  intro dropped
  split
  · rename_i h
    exact dropped.trans (startProbe_offered crafts h)
  · split
    · exact dropped.trans (startPoll_offered ..)
    · split
      · exact dropped
      · have completed := dropped.trans (completeCycle_offered crafts u)
        split
        · rename_i h
          exact completed.trans (startProbe_offered crafts h)
        · split
          · exact completed.trans (startPoll_offered ..)
          · exact completed

/-! ## The choice (R71) -/

/-- The choice of work. -/
theorem choose_offered (s : State) : Offered (∃ r, .craft r ∈ s.plant.urgent) true s (choose s) := by
  have crafts {u : State} (hu : OnlyChoice s u) : (∃ r, .craft r ∈ u.plant.urgent) → ∃ r, .craft r ∈ s.plant.urgent :=
    Exists.imp fun _ hr => hu.urgent.subset hr
  have opened : Offered (∃ r, .craft r ∈ s.plant.urgent) false s
        (if (enabledXps s).isEmpty && s.plant.position = 0 then completeCycle s else s)
      ∧ OnlyChoice s (if (enabledXps s).isEmpty && s.plant.position = 0 then completeCycle s else s) := by
    split
    · exact ⟨completeCycle_offered _ s, completeCycle_only s⟩
    · exact ⟨.refl .., .refl s⟩
  unfold choose
  dsimp only
  revert opened
  generalize (if (enabledXps s).isEmpty && s.plant.position = 0 then completeCycle s else s) = u
  rintro ⟨hopened, honly⟩
  have first : Offered (∃ r, .craft r ∈ s.plant.urgent)
        (if isPollSlot (shareNow u) u.plant.position then startDuePoll u else commandWork u).2 u
        (if isPollSlot (shareNow u) u.plant.position then startDuePoll u else commandWork u).1
      ∧ OnlyChoice u (if isPollSlot (shareNow u) u.plant.position then startDuePoll u else commandWork u).1 := by
    split
    · exact ⟨startDuePoll_offered _ u, startDuePoll_only u⟩
    · exact ⟨(commandWork_offered u).mono (crafts honly), commandWork_only u⟩
  revert first
  generalize (if isPollSlot (shareNow u) u.plant.position then startDuePoll u else commandWork u) = v
  rintro ⟨hfirst, hv⟩
  have second : Offered (∃ r, .craft r ∈ s.plant.urgent)
      (if isPollSlot (shareNow u) u.plant.position then commandWork v.1 else startDuePoll v.1).2 v.1
      (if isPollSlot (shareNow u) u.plant.position then commandWork v.1 else startDuePoll v.1).1 := by
    split
    · exact (commandWork_offered v.1).mono (crafts (honly.trans hv))
    · exact startDuePoll_offered _ v.1
  have both := hfirst.andThen second
  revert both
  generalize (if v.2 then v else if isPollSlot (shareNow u) u.plant.position then commandWork v.1 else startDuePoll v.1) = w
  obtain ⟨w, b⟩ := w
  intro both
  refine hopened.trans ?_
  cases b with
  | true => exact both
  | false =>
    rw [if_neg Bool.false_ne_true]
    split
    · refine both.trans ((completeCycle_offered _ w).trans ?_)
      have last := startDuePoll_offered (∃ r, .craft r ∈ s.plant.urgent) (completeCycle w)
      revert last
      generalize startDuePoll (completeCycle w) = x
      obtain ⟨x, b⟩ := x
      cases b with
      | true => exact id
      | false => exact fun h => h.start true
    · exact both.start true

end Sys2Proof.Safety
end

