-- ==== Proofs/ChoiceOfWork.lean ====
section
/-! PROOFS. What the choice of work takes up: the entries of the queues, the due polls, and the choice as a whole (R71 to R75, R77,
R78, R83, R115, R127; O5, its second part). -/

namespace Sys2Proof.Safety

open Sys2Proof.Machine

/-! ## Entries passed over (R77, R115) -/

/-- A port command to a tap waits in its place: the held list is full and an enabled GUARD entry contains the address. -/
def PortWaits (s : State) (j : Nat) : Prop :=
  none ∉ s.outage.held ∧ ∃ t, tget s.plant.taps j = some t ∧ guardFor s t.address ≠ none

/-- Every entry of a part of the URGENT queue waits in its place. -/
def PassedOver (s : State) (l : List UrgentItem) : Prop := ∀ x ∈ l, ∃ j q, x = .port j q false ∧ PortWaits s j

/-- Every entry of both queues waits in its place: no command work can start. -/
def Barren (s : State) : Prop := PassedOver s s.plant.urgent ∧ ∀ x ∈ s.plant.refresh, PortWaits s x.1

/-- What waits is said by the held list, the watch table and the taps. -/
theorem PortWaits.congr {s t : State} {j : Nat} (h : PortWaits s j) (ho : t.outage = s.outage) (ht : t.plant.taps = s.plant.taps) :
    PortWaits t j := by
  unfold PortWaits guardFor
  rw [ho, ht]
  exact h

/-- A command that waits is passed over. -/
theorem offerPort_waits {s : State} {j : Nat} (h : PortWaits s j) (q : Nat) : offerPort (j, q) false s = (s, false) := by
  obtain ⟨hfull, t, ht, hg⟩ := h
  obtain ⟨n, hn⟩ := Option.ne_none_iff_exists'.mp hg
  have hplace : s.outage.held.findIdx? (·.isNone) = none := by
    refine List.findIdx?_eq_none_iff.mpr fun x hx => ?_
    cases x with
    | none => exact absurd hx hfull
    | some h => rfl
  have hwait : guardCheck s t.address false = .wait := by
    unfold guardCheck
    rw [if_neg (by decide), hn]
    dsimp only
    rw [hplace]
  unfold offerPort
  rw [ht]
  dsimp only
  rw [hwait]

/-- One entry of the URGENT queue is offered. -/
def offerItem : UrgentItem → State → State × Bool
  | .port j q m => offerPort (j, q) m
  | .craft r => offerCraft r

/-- The first entry of the URGENT queue is offered, then the rest. -/
theorem offerUrgent_cons (e : UrgentItem) (l : List UrgentItem) (s : State) : offerUrgent (e :: l) s
    = if (offerItem e s).2 then offerItem e s else offerUrgent l (offerItem e s).1 := by
  cases e <;> rfl

/-- The first entry of the REFRESH queue is offered, then the rest. -/
theorem offerRefresh_cons (p : Nat × Nat) (l : List (Nat × Nat)) (s : State) : offerRefresh (p :: l) s
    = if (offerPort p false s).2 then offerPort p false s else offerRefresh l (offerPort p false s).1 := rfl

/-- Entries of the URGENT queue that wait are passed over. -/
theorem offerUrgent_passed {s : State} {l : List UrgentItem} (h : PassedOver s l) (l' : List UrgentItem) :
    offerUrgent (l ++ l') s = offerUrgent l' s := by
  induction l with
  | nil => rfl
  | cons e l ih =>
    obtain ⟨j, q, rfl, hw⟩ := h e (List.mem_cons_self ..)
    rw [List.cons_append, offerUrgent_cons, show offerItem (.port j q false) s = (s, false) from offerPort_waits hw q,
      if_neg Bool.false_ne_true]
    exact ih fun x hx => h x (List.mem_cons_of_mem _ hx)

/-- Entries of the REFRESH queue that wait are passed over. -/
theorem offerRefresh_passed {s : State} {l : List (Nat × Nat)} (h : ∀ x ∈ l, PortWaits s x.1) (l' : List (Nat × Nat)) :
    offerRefresh (l ++ l') s = offerRefresh l' s := by
  induction l with
  | nil => rfl
  | cons p l ih =>
    rw [List.cons_append, offerRefresh_cons, offerPort_waits (h p (List.mem_cons_self ..)) p.2, if_neg Bool.false_ne_true]
    exact ih fun x hx => h x (List.mem_cons_of_mem _ hx)

/-! ## Command work (R72) -/

/-- The URGENT queue, all of whose entries wait. -/
theorem offerUrgent_all {s : State} {l : List UrgentItem} (h : PassedOver s l) : offerUrgent l s = (s, false) := by
  have e := offerUrgent_passed h []
  rwa [List.append_nil] at e

/-- With every entry waiting there is no command work. -/
theorem commandWork_barren {s : State} (h : Barren s) : commandWork s = (s, false) := by
  have e := offerRefresh_passed h.2 []
  rw [List.append_nil] at e
  unfold commandWork
  rw [offerUrgent_all h.1]
  exact e

section
variable {s u : State}

/-- The first entry of the URGENT queue that does not wait starts. -/
theorem commandWork_starts {l l' : List UrgentItem} {e : UrgentItem} (hq : s.plant.urgent = l ++ e :: l') (hl : PassedOver s l)
    (he : offerItem e s = (u, true)) : commandWork s = (u, true) := by
  unfold commandWork
  rw [hq, offerUrgent_passed hl, offerUrgent_cons, he]
  rfl

/-- It starts nothing and leaves the queue: the choice of command work goes on as from the state that it leaves. -/
theorem commandWork_leaves {l l' : List UrgentItem} {e : UrgentItem} (hq : s.plant.urgent = l ++ e :: l') (hl : PassedOver s l)
    (he : offerItem e s = (u, false)) (hq' : u.plant.urgent = l ++ l') (hl' : PassedOver u l) : commandWork s = commandWork u := by
  unfold commandWork
  rw [hq, offerUrgent_passed hl, offerUrgent_cons, he, hq', offerUrgent_passed hl']
  rfl

/-- Where the URGENT queue waits, the first entry of the REFRESH queue that does not wait starts. -/
theorem commandWork_refreshes {l l' : List (Nat × Nat)} {p : Nat × Nat} (hu : PassedOver s s.plant.urgent)
    (hq : s.plant.refresh = l ++ p :: l') (hl : ∀ x ∈ l, PortWaits s x.1) (hp : offerPort p false s = (u, true)) :
    commandWork s = (u, true) := by
  unfold commandWork
  rw [offerUrgent_all hu]
  dsimp only
  rw [hq, offerRefresh_passed hl, offerRefresh_cons, hp]
  rfl

/-- It starts nothing and leaves the queue, where it stands first and the URGENT queue is empty. -/
theorem commandWork_leaves_refresh {l : List (Nat × Nat)} {p : Nat × Nat} (hu : s.plant.urgent = []) (hq : s.plant.refresh = p :: l)
    (hp : offerPort p false s = (u, false)) (hu' : u.plant.urgent = []) (hq' : u.plant.refresh = l) :
    commandWork s = commandWork u := by
  unfold commandWork
  rw [hu, hu']
  show offerRefresh s.plant.refresh s = offerRefresh u.plant.refresh u
  rw [hq, hq', offerRefresh_cons, hp]
  rfl

end

/-! ## Due polls (R74, R75) -/

/-- A due probe can be taken: the flag stands and a tap is UNREACHABLE. -/
def probeCalls (s : State) : Bool := s.plant.probeDue && !(unreachableTaps s).isEmpty

/-- A probe that has started (R75). -/
def probeStarted (i : Nat) (x : Tap) (s : State) : State :=
  { startTx .probe x.address i true 0 noContent s with plant.probeDue := false, plant.probeCur := some i }

/-- A poll that has started, with the completion of its cycle where no enabled record lies above it (R74). -/
def pollStarted (i : Nat) (x : Transponder) (s : State) : State :=
  { startTx .poll x.address i false 0 noContent s with
    plant.cursor := if above (enabledXps s) (some i) = none then none else some i
    plant.probeDue := decide (above (enabledXps s) (some i) = none) && !(unreachableTaps s).isEmpty }

/-- The state with the cursor of the cycle and the probe-due flag as given. -/
def withCursor (c : Option Nat) (d : Bool) (s : State) : State := { s with plant.cursor := c, plant.probeDue := d }

/-- A cycle is completed by a write of the cursor and of the flag. -/
theorem completeCycle_cursor (s : State) :
    completeCycle s = withCursor none (s.plant.probeDue || !(unreachableTaps s).isEmpty) s := rfl

section
variable {s : State}

/-- A probe that is due starts. -/
theorem startDuePoll_probe (hd : probeCalls s = true) {i : Nat}
    (hi : (above (unreachableTaps s) s.plant.probeCur).or (unreachableTaps s).head? = some i) {x : Tap}
    (hx : tget s.plant.taps i = some x) : startDuePoll s = (probeStarted i x s, true) := by
  obtain ⟨hdue, hlost⟩ : s.plant.probeDue = true ∧ (unreachableTaps s).isEmpty = false := by
    simpa [probeCalls] using hd
  have hdrop : dropProbe s = s := by
    unfold dropProbe
    rw [hlost]
    rfl
  have hprobe : startProbe s = some (probeStarted i x s) := by
    unfold startProbe
    rw [hdue]
    dsimp only
    rw [if_neg (by decide), hi]
    dsimp only
    rw [hx]
    rfl
  unfold startDuePoll
  rw [hdrop]
  dsimp only
  rw [hprobe]

/-- With no probe to take, the flag falls or lay already. -/
theorem dropProbe_of_none (hd : probeCalls s = false) : dropProbe s = { s with plant.probeDue := false } := by
  unfold dropProbe
  split
  · rfl
  · rename_i hlost
    have hdue : s.plant.probeDue = false := by simpa [probeCalls, hlost] using hd
    rw [← hdue]

/-- No probe starts where the flag lies. -/
theorem startProbe_none (hd : s.plant.probeDue = false) : startProbe s = none := by
  unfold startProbe
  rw [hd]
  rfl

/-- With no probe to take, the poll above the cursor starts. -/
theorem startDuePoll_poll (hd : probeCalls s = false) {i : Nat} (hi : above (enabledXps s) s.plant.cursor = some i)
    {x : Transponder} (hx : tget s.telemetry.transponders i = some x) : startDuePoll s = (pollStarted i x s, true) := by
  have hpoll : startPoll i { s with plant.probeDue := false } = pollStarted i x s := by
    unfold startPoll
    rw [show xpOf { s with plant.probeDue := false } i = some x from hx]
    show (if (above (enabledXps s) (some i)).isNone then _ else _) = _
    unfold pollStarted
    cases ha : above (enabledXps s) (some i) with
    | none => rfl
    | some k => rfl
  unfold startDuePoll
  rw [dropProbe_of_none hd]
  dsimp only
  rw [startProbe_none rfl]
  dsimp only
  rw [show above (enabledXps { s with plant.probeDue := false }) s.plant.cursor = some i from hi]
  dsimp only
  rw [hpoll]

/-- With no probe to take and no transponder enabled, no poll starts. -/
theorem startDuePoll_none (hd : probeCalls s = false) (hx : enabledXps s = []) :
    startDuePoll s = ({ s with plant.probeDue := false }, false) := by
  have habove : above (enabledXps { s with plant.probeDue := false }) s.plant.cursor = none := by
    rw [show enabledXps { s with plant.probeDue := false } = [] from hx]
    cases s.plant.cursor <;> rfl
  unfold startDuePoll
  rw [dropProbe_of_none hd]
  dsimp only
  rw [startProbe_none rfl]
  dsimp only
  rw [habove]
  dsimp only
  rw [show enabledXps { s with plant.probeDue := false } = [] from hx]
  rfl

/-- With the flag down and no transponder enabled, nothing is changed. -/
theorem startDuePoll_still (hd : s.plant.probeDue = false) (hx : enabledXps s = []) : startDuePoll s = (s, false) := by
  rw [startDuePoll_none (by simp [probeCalls, hd]) hx, ← hd]

/-- With no probe to take and the cursor above every enabled record, the cycle is complete, and the polls begin anew (log 29). -/
theorem startDuePoll_wraps (hd : probeCalls s = false) (hx : enabledXps s ≠ []) (hn : above (enabledXps s) s.plant.cursor = none) :
    startDuePoll s = startDuePoll (withCursor none (!(unreachableTaps s).isEmpty) s) := by
  have hsame : enabledXps (withCursor none (!(unreachableTaps s).isEmpty) s) = enabledXps s := rfl
  have hdrop : dropProbe (withCursor none (!(unreachableTaps s).isEmpty) s) = withCursor none (!(unreachableTaps s).isEmpty) s := by
    unfold dropProbe
    split
    · rename_i h
      rw [show unreachableTaps (withCursor none (!(unreachableTaps s).isEmpty) s) = unreachableTaps s from rfl] at h
      rw [h]
      rfl
    · rfl
  have hleft : startDuePoll s = match startProbe (withCursor none (!(unreachableTaps s).isEmpty) s) with
      | some u => (u, true)
      | none => match (enabledXps s).head? with
        | some i => (startPoll i (withCursor none (!(unreachableTaps s).isEmpty) s), true)
        | none => (withCursor none (!(unreachableTaps s).isEmpty) s, false) := by
    unfold startDuePoll
    rw [dropProbe_of_none hd]
    dsimp only
    rw [startProbe_none rfl]
    dsimp only
    rw [show above (enabledXps { s with plant.probeDue := false }) s.plant.cursor = none from hn]
    dsimp only
    rw [if_neg (by rw [List.isEmpty_iff]; exact hx)]
    rfl
  rw [hleft]
  unfold startDuePoll
  rw [hdrop]
  dsimp only
  cases startProbe (withCursor none (!(unreachableTaps s).isEmpty) s) with
  | some u => rfl
  | none =>
    rw [hsame]
    show _ = match (enabledXps s).head? with | some i => _ | none => _
    cases hh : (enabledXps s).head? with
    | some i => rfl
    | none => exact absurd (List.head?_eq_none_iff.mp hh) hx

/-- With a transponder enabled a due poll or a probe always starts. -/
theorem startDuePoll_works (hx : enabledXps s ≠ []) : (startDuePoll s).2 = true := by
  have hsame (u : State) (hu : u.telemetry = s.telemetry) : enabledXps u ≠ [] := by
    unfold enabledXps
    rw [hu]
    exact hx
  unfold startDuePoll
  dsimp only
  split
  · rfl
  · split
    · rfl
    · have hne := hsame (dropProbe s) (dropProbe_only s).telemetry
      rw [if_neg (by simpa using hne)]
      split
      · rfl
      · split
        · rfl
        · rename_i hh
          exact absurd (List.head?_eq_none_iff.mp hh) hne

end

/-! ## The choice as a whole (R71, R74) -/

/-- The current position is a poll slot (R70). -/
def PollSlot (s : State) : Prop := isPollSlot (shareNow s) s.plant.position = true

/-- The state in which the work of a slot is chosen: with no transponder enabled a cycle is counted at position 0 (R74). -/
def opened (s : State) : State := if (enabledXps s).isEmpty && s.plant.position = 0 then completeCycle s else s

/-- The work of a slot: poll or command work, then the other (R71). -/
def slotWork (s : State) : State × Bool :=
  let first := if isPollSlot (shareNow s) s.plant.position then startDuePoll s else commandWork s
  if first.2 then first else if isPollSlot (shareNow s) s.plant.position then commandWork first.1 else startDuePoll first.1

/-- The choice of work: the work of the slot, and with no transponder enabled a cycle where it finds none (R71, R74). -/
theorem choose_eq (s : State) : choose s = if (slotWork (opened s)).2 then (slotWork (opened s)).1
    else if (enabledXps s).isEmpty then (startDuePoll (completeCycle (slotWork (opened s)).1)).1 else (slotWork (opened s)).1 := rfl

/-- It is the state itself but for the cursor and the flag. -/
theorem opened_cursor (s : State) : ∃ c d, opened s = withCursor c d s := by
  unfold opened
  split
  · exact ⟨_, _, completeCycle_cursor s⟩
  · exact ⟨s.plant.cursor, s.plant.probeDue, rfl⟩

/-- With a transponder enabled it is the state itself. -/
theorem opened_of_enabled {s : State} (hx : enabledXps s ≠ []) : opened s = s := by
  unfold opened
  rw [if_neg (by simp [hx])]

section
variable {s u : State}

/-- In RUN with the line IDLE work is chosen (R71). -/
theorem kick_choose (hrun : s.link.op = .run) (hidle : s.plant.line = .idle) : kick s = choose s := by
  unfold kick
  rw [if_pos (by simp [running, hrun, hidle])]

/-- The slot's work starts. -/
theorem choose_work (h : slotWork (opened s) = (u, true)) : choose s = u := by
  rw [choose_eq, h]
  rfl

/-- The slot has no work, with no transponder enabled. -/
theorem choose_none (h : slotWork (opened s) = (u, false)) (hx : enabledXps s = []) :
    choose s = (startDuePoll (completeCycle u)).1 := by
  rw [choose_eq, h, hx]
  rfl

/-- A poll slot: a due poll, then command work. -/
theorem slotWork_pollSlot (hp : PollSlot s) :
    slotWork s = if (startDuePoll s).2 then startDuePoll s else commandWork (startDuePoll s).1 := by
  unfold PollSlot at hp
  unfold slotWork
  simp only [hp, if_true]

/-- A command slot: command work, then a due poll. -/
theorem slotWork_commandSlot (hp : ¬ PollSlot s) :
    slotWork s = if (commandWork s).2 then commandWork s else startDuePoll (commandWork s).1 := by
  unfold PollSlot at hp
  unfold slotWork
  simp only [hp, Bool.false_eq_true, if_false]

/-- A due poll starts in its slot, or where there is no command work. -/
theorem slotWork_poll (hp : PollSlot s ∨ Barren s) (h : startDuePoll s = (u, true)) : slotWork s = (u, true) := by
  by_cases hs : PollSlot s
  · rw [slotWork_pollSlot hs, h]
    rfl
  · rw [slotWork_commandSlot hs, commandWork_barren (hp.resolve_left hs)]
    exact h

/-- With no work and no transponder enabled the slot changes the flag at most. -/
theorem slotWork_none (hb : Barren s) (hd : probeCalls s = false) (hx : enabledXps s = []) :
    slotWork s = ({ s with plant.probeDue := false }, false) := by
  have hpoll := startDuePoll_none hd hx
  have hb' : Barren { s with plant.probeDue := false } := hb
  by_cases hs : PollSlot s
  · rw [slotWork_pollSlot hs, hpoll]
    exact commandWork_barren hb'
  · rw [slotWork_commandSlot hs, commandWork_barren hb]
    exact hpoll

/-- Command work comes first: in a command slot, and in a poll slot that has no poll to start. -/
def CommandSlot (s : State) : Prop := ¬ PollSlot s ∨ (enabledXps s = [] ∧ s.plant.probeDue = false)

/-- Command work that starts is the slot's work. -/
theorem slotWork_command (hc : CommandSlot s) (h : commandWork s = (u, true)) : slotWork s = (u, true) := by
  by_cases hs : PollSlot s
  · obtain ⟨hx, hd⟩ := hc.resolve_left (not_not.mpr hs)
    rw [slotWork_pollSlot hs, startDuePoll_still hd hx]
    exact h
  · rw [slotWork_commandSlot hs, h]
    rfl

/-- The slot's work is said by its command work, where that comes first. -/
theorem slotWork_congr {t : State} (hc : CommandSlot s) (hslot : PollSlot t ↔ PollSlot s) (hx : enabledXps t = enabledXps s)
    (hd : t.plant.probeDue = s.plant.probeDue) (h : commandWork s = commandWork t) : slotWork s = slotWork t := by
  by_cases hs : PollSlot s
  · obtain ⟨hxs, hds⟩ := hc.resolve_left (not_not.mpr hs)
    rw [slotWork_pollSlot hs, slotWork_pollSlot (hslot.mpr hs), startDuePoll_still hds hxs,
      startDuePoll_still (hd.trans hds) (hx.trans hxs)]
    exact h
  · rw [slotWork_commandSlot hs, slotWork_commandSlot (mt hslot.mp hs), h]

end

/-! ## Due polls chosen (R70, R74, R75) -/

/-- A list with a record above a cursor is not empty. -/
theorem ne_nil_of_above {l : List Nat} {c : Option Nat} {i : Nat} (h : above l c = some i) : l ≠ [] := by
  rintro rfl
  cases c <;> cases h

/-- A cycle is counted before any transaction: no transponder is enabled, and the position is 0 or no work is found (R74). -/
def CycleCounts (s : State) : Prop := enabledXps s = [] ∧ (s.plant.position = 0 ∨ (Barren s ∧ probeCalls s = false))

/-- The state from which the choice starts a transaction. -/
def ChosenFrom (s v : State) : Prop := (CycleCounts s → v = completeCycle s) ∧ (¬ CycleCounts s → v = s)

/-- It is the state in which the slot's work is chosen, or the cycle is counted because that found none. -/
theorem ChosenFrom.cases {s v : State} (h : ChosenFrom s v) :
    v = opened s ∨ (opened s = s ∧ enabledXps s = [] ∧ Barren s ∧ probeCalls s = false ∧ v = completeCycle s) := by
  have hopen : opened s = if enabledXps s = [] ∧ s.plant.position = 0 then completeCycle s else s := by
    unfold opened
    simp only [Bool.and_eq_true, List.isEmpty_iff, decide_eq_true_eq]
  by_cases hp : enabledXps s = [] ∧ s.plant.position = 0
  · rw [hopen, if_pos hp]
    exact .inl (h.1 ⟨hp.1, .inl hp.2⟩)
  · rw [hopen, if_neg hp]
    by_cases hc : CycleCounts s
    · obtain ⟨hx, hrest⟩ := hc
      obtain ⟨hb, hd⟩ := hrest.resolve_left (fun h0 => hp ⟨hx, h0⟩)
      exact .inr ⟨rfl, hx, hb, hd, h.1 ⟨hx, hrest⟩⟩
    · exact .inl (h.2 hc)

/-- Where some command work can start it is the first of them. -/
theorem ChosenFrom.eq_opened {s v : State} (h : ChosenFrom s v) (hb : ¬ Barren s) : v = opened s :=
  h.cases.resolve_right (fun hc => hb hc.2.2.1)

section
variable {s v : State} (hrun : s.link.op = .run) (hidle : s.plant.line = .idle)
include hrun hidle

section
variable (hv : ChosenFrom s v) (hslot : PollSlot s ∨ Barren s)
include hv hslot

/-- A due probe is chosen. -/
theorem kick_probe (hd : (v.plant.probeDue && !(unreachableTaps s).isEmpty) = true) {i : Nat}
    (hi : (above (unreachableTaps s) s.plant.probeCur).or (unreachableTaps s).head? = some i) {x : Tap}
    (hx : tget s.plant.taps i = some x) : kick s = probeStarted i x v := by
  rw [kick_choose hrun hidle]
  rcases hv.cases with rfl | ⟨ho, hxs, hb, hnone, rfl⟩
  · obtain ⟨c, d, ho⟩ := opened_cursor s
    rw [ho] at hd
    have hstart : startDuePoll (opened s) = (probeStarted i x (opened s), true) := by
      rw [ho]
      exact startDuePoll_probe hd hi hx
    refine choose_work (slotWork_poll ?_ hstart)
    rw [ho]
    exact hslot
  · have hflag : ({ s with plant.probeDue := false } : State) = s := by
      have hlost : (unreachableTaps s).isEmpty = false := by
        simp only [Bool.and_eq_true, Bool.not_eq_true'] at hd
        exact hd.2
      have hdue : s.plant.probeDue = false := by simpa [probeCalls, hlost] using hnone
      rw [← hdue]
    have hnothing := slotWork_none hb hnone hxs
    rw [hflag] at hnothing
    rw [choose_none (by rw [ho, hnothing]) hxs]
    exact congrArg Prod.fst (startDuePoll_probe (s := completeCycle s) hd hi hx)

omit hv in
/-- With no probe due the poll above the cursor is chosen. -/
theorem kick_poll (hd : probeCalls s = false) {i : Nat} (hi : above (enabledXps s) s.plant.cursor = some i) {x : Transponder}
    (hx : tget s.telemetry.transponders i = some x) : kick s = pollStarted i x s := by
  have hopen := opened_of_enabled (ne_nil_of_above hi)
  rw [kick_choose hrun hidle]
  refine choose_work (slotWork_poll ?_ ?_)
  · rwa [hopen]
  · rw [hopen]
    exact startDuePoll_poll hd hi hx

omit hv in
/-- With no probe due and the cursor above every enabled record, the choice is that with the cycle complete. -/
theorem kick_wraps (hd : probeCalls s = false) (hne : enabledXps s ≠ []) (hn : above (enabledXps s) s.plant.cursor = none) :
    kick s = kick (withCursor none (!(unreachableTaps s).isEmpty) s) := by
  have hopen := opened_of_enabled hne
  have hopen' : opened (withCursor none (!(unreachableTaps s).isEmpty) s) = withCursor none (!(unreachableTaps s).isEmpty) s :=
    opened_of_enabled hne
  have hstart (t : State) (hx : enabledXps t ≠ []) : startDuePoll t = ((startDuePoll t).1, true) :=
    Prod.ext rfl (startDuePoll_works hx)
  have hleft := choose_work (s := s) (by rw [hopen]; exact slotWork_poll hslot (hstart s hne))
  have hright := choose_work (s := withCursor none (!(unreachableTaps s).isEmpty) s)
    (by rw [hopen']; exact slotWork_poll hslot (hstart _ hne))
  rw [kick_choose hrun hidle, kick_choose (s := withCursor none _ s) hrun hidle, hleft, hright, startDuePoll_wraps hd hne hn]

end

/-- With no work, no transponder enabled and no tap UNREACHABLE the cycle is counted alone. -/
theorem kick_nothing (hb : Barren s) (hx : enabledXps s = []) (hl : unreachableTaps s = []) :
    kick s = withCursor none false s := by
  have hcalls (c : Option Nat) (d : Bool) : probeCalls (withCursor c d s) = false := by
    unfold probeCalls
    rw [show unreachableTaps (withCursor c d s) = [] from hl]
    exact Bool.and_false _
  obtain ⟨c, d, ho⟩ := opened_cursor s
  have hnothing : slotWork (opened s) = (withCursor c false s, false) := by
    rw [ho]
    exact slotWork_none (s := withCursor c d s) hb (hcalls c d) hx
  rw [kick_choose hrun hidle, choose_none hnothing hx]
  exact congrArg Prod.fst (startDuePoll_none (s := completeCycle (withCursor c false s)) (hcalls none _) hx)

end

/-! ## Command work chosen (R72, R77, R78, R115) -/

/-- Command work that starts is chosen, where it comes first. -/
theorem kick_starts {s u : State} (hrun : s.link.op = .run) (hidle : s.plant.line = .idle) (hc : CommandSlot (opened s))
    (h : commandWork (opened s) = (u, true)) : kick s = u := by
  rw [kick_choose hrun hidle]
  exact choose_work (slotWork_command hc h)

/-- What the choice keeps of the taps, the UNREACHABLE ones are part of. -/
theorem unreachableTaps_of_only {s t : State} (h : OnlyChoice s t) : unreachableTaps t = unreachableTaps s := by
  have read (u : State) : unreachableTaps u
      = ((u.plant.taps.map (fun x => (x.1, tapFixed x.2))).filter (fun y => y.2.2.2.1.isSome)).map (·.1) := by
    unfold unreachableTaps
    rw [List.filter_map, List.map_map]
    rfl
  rw [read, read, h.taps]

/-- An operation that does not look at the cursor and the flag, and that only offers work, may come before or after the count of a
cycle. -/
theorem opened_comm {f : State → State} {crafts : Prop} {s : State} (comm : ∀ c d s, f (withCursor c d s) = withCursor c d (f s))
    (honly : OnlyChoice s (f s)) (hoff : Offered crafts false s (f s)) : opened (f s) = f (opened s) := by
  have hx : enabledXps (f s) = enabledXps s := by
    unfold enabledXps
    rw [honly.telemetry]
  have hpos : (f s).plant.position = s.plant.position := by
    obtain ⟨-, -, -, hpos, -⟩ := hoff.line.resolve_right (fun h => Bool.false_ne_true h.1)
    exact hpos
  have hdue : (f s).plant.probeDue = s.plant.probeDue := by
    have e := comm s.plant.cursor s.plant.probeDue s
    rw [show withCursor s.plant.cursor s.plant.probeDue s = s from rfl] at e
    rw [e]
    rfl
  unfold opened
  rw [hx, hpos]
  split
  · rw [completeCycle_cursor, completeCycle_cursor, comm, hdue, unreachableTaps_of_only honly]
  · rfl

/-- An entry that leaves its queue without a start: the choice is that of the state that it leaves. -/
theorem kick_leaves {f : State → State} {crafts : Prop} {s : State} (hrun : s.link.op = .run) (hidle : s.plant.line = .idle)
    (hc : CommandSlot (opened s)) (comm : ∀ c d s, f (withCursor c d s) = withCursor c d (f s)) (honly : OnlyChoice s (f s))
    (hoff : Offered crafts false s (f s)) (h : commandWork (opened s) = commandWork (f (opened s))) : kick s = kick (f s) := by
  obtain ⟨hline, -, -, hpos, hshare, -⟩ := hoff.line.resolve_right (fun h => Bool.false_ne_true h.1)
  have hx : enabledXps (f s) = enabledXps s := by
    unfold enabledXps
    rw [honly.telemetry]
  have hopen := opened_comm comm honly hoff
  have hslot : slotWork (opened s) = slotWork (opened (f s)) := by
    obtain ⟨c, d, ho⟩ := opened_cursor s
    rw [hopen]
    rw [ho] at h hc ⊢
    rw [comm] at h ⊢
    refine slotWork_congr hc ?_ hx rfl h
    unfold PollSlot shareNow
    show isPollSlot (if (f s).plant.position = 0 then (f s).params.pollShare else (f s).plant.roundShare) (f s).plant.position = true ↔ _
    rw [hpos, hshare, honly.params]
    rfl
  rw [kick_choose hrun hidle, kick_choose (honly.link.op.trans hrun) (hline.trans hidle), choose_eq, choose_eq, hslot, hx]

end Sys2Proof.Safety
end

