-- ==== Proofs/CommandsChosen.lean ====
section
/-! PROOFS. Port commands and craft requests as the choice of work takes them up: started, held, or given up with their error (R77,
R78, R83, R115, R127; O5, its second part). -/

namespace Sys2Proof.Safety

open Sys2Proof.Machine

/-! ## Where command work comes first -/

/-- The slot says whether command work comes first, given the state from which the choice starts a transaction. -/
theorem commandSlot_opened {s v : State} (hv : v = opened s) (h : ¬ PollSlot s ∨ (enabledXps s = [] ∧ v.plant.probeDue = false)) :
    CommandSlot (opened s) := by
  subst hv
  obtain ⟨c, d, ho⟩ := opened_cursor s
  rw [ho] at h ⊢
  exact h

/-- The tap of a command that waits is guarded. -/
theorem PortWaits.guarded {s : State} {j : Nat} (h : PortWaits s j) {t : Tap} (ht : tget s.plant.taps j = some t) :
    guardFor s t.address ≠ none := by
  obtain ⟨-, t', ht', hg⟩ := h
  rw [ht] at ht'
  cases ht'
  exact hg

/-- An entry of the URGENT queue that does not wait is command work. -/
theorem not_barren_of_urgent {s : State} {e : UrgentItem} (he : e ∈ s.plant.urgent)
    (h : ∀ j q, e = .port j q false → ¬ PortWaits s j) : ¬ Barren s := by
  rintro ⟨hu, -⟩
  obtain ⟨j, q, rfl, hw⟩ := hu e he
  exact h j q rfl hw

/-- An entry of the REFRESH queue that does not wait is command work. -/
theorem not_barren_of_refresh {s : State} {p : Nat × Nat} (hp : p ∈ s.plant.refresh) (h : ¬ PortWaits s p.1) : ¬ Barren s :=
  fun hb => h (hb.2 p hp)

/-! ## Port commands that start (R78) -/

/-- A port command that has started. -/
def portStarted (j q : Nat) (t : Tap) (r : Port) (s : State) : State :=
  startTx .portCommand t.address j true q r.desired (leaveQueues (j, q) (putPort (j, q) (sentPort r) s))

section
variable {s : State} {j q : Nat} {t : Tap} {r : Port} (ht : tget s.plant.taps j = some t) (hr : t.ports[q]? = some r)
include ht hr

/-- A port command that is not guarded, or resumed, starts when it is offered. -/
theorem offerPort_starts {m : Bool} (hg : m = true ∨ guardFor s t.address = none) :
    offerPort (j, q) m s = (portStarted j q t r s, true) := by
  have hpass : guardCheck s t.address m = .pass := by
    unfold guardCheck
    cases m with
    | true => rfl
    | false =>
      rw [if_neg Bool.false_ne_true, hg.resolve_left Bool.false_ne_true]
  have hport := portOf_eq ht hr
  unfold offerPort
  rw [ht]
  dsimp only
  rw [hpass]
  unfold startPort
  rw [ht, hport]
  dsimp only
  rw [modPort_eq hport]
  rfl

variable (hrun : s.link.op = .run) (hidle : s.plant.line = .idle) (hc : CommandSlot (opened s))
include hrun hidle hc

/-- The first entry of the URGENT queue that does not wait is chosen. -/
theorem kick_urgentPort {l l' : List UrgentItem} {m : Bool} (hq : s.plant.urgent = l ++ .port j q m :: l') (hl : PassedOver s l)
    (hg : m = true ∨ guardFor s t.address = none) : kick s = portStarted j q t r (opened s) := by
  refine kick_starts hrun hidle hc ?_
  obtain ⟨c, d, ho⟩ := opened_cursor s
  rw [ho]
  exact commandWork_starts (s := withCursor c d s) hq hl (offerPort_starts (s := withCursor c d s) ht hr hg)

/-- Where the URGENT queue waits, the first entry of the REFRESH queue that does not wait is chosen. -/
theorem kick_refreshPort {l l' : List (Nat × Nat)} (hu : PassedOver s s.plant.urgent) (hq : s.plant.refresh = l ++ (j, q) :: l')
    (hl : ∀ x ∈ l, PortWaits s x.1) (hg : guardFor s t.address = none) : kick s = portStarted j q t r (opened s) := by
  refine kick_starts hrun hidle hc ?_
  obtain ⟨c, d, ho⟩ := opened_cursor s
  rw [ho]
  exact commandWork_refreshes (s := withCursor c d s) hu hq hl (offerPort_starts (s := withCursor c d s) ht hr (.inr hg))

end

/-! ## Port commands that are held (R115) -/

/-- The first empty place of the held list. -/
theorem findIdx_place (l₁ l₂ : List (Option Held)) (h : none ∉ l₁) :
    (l₁ ++ none :: l₂).findIdx? (·.isNone) = some l₁.length := by
  induction l₁ with
  | nil => rfl
  | cons x l₁ ih =>
    cases x with
    | none => exact absurd (List.mem_cons_self ..) h
    | some y =>
      rw [List.cons_append, List.findIdx?_cons, if_neg (by simp), ih (fun hm => h (List.mem_cons_of_mem _ hm))]
      rfl

/-- The entry of a GUARD watch after a hit (R115). -/
def guardHit (e : WatchEntry) : WatchEntry := { e with hits := min 255 (e.hits + 1), enabled := !e.watch.any (·.once) }

/-- The state with a port command in an empty place of the held list, before its hit is reported (R115). -/
def heldIn (j q n : Nat) (t : Tap) (r : Port) (e : WatchEntry) (l₁ l₂ : List (Option Held)) (s : State) : State :=
  leaveQueues (j, q) (putPort (j, q) (heldPort r) { s with
    outage.watches := s.outage.watches.set n (guardHit e)
    outage.held := l₁ ++ some ⟨j, t.address, q, n, r.cls, minuteOf s⟩ :: l₂ })

section
variable {s : State} {j q n : Nat} {t : Tap} {r : Port} {e : WatchEntry} {l₁ l₂ : List (Option Held)}
  (ht : tget s.plant.taps j = some t) (hr : t.ports[q]? = some r) (hg : guardFor s t.address = some n)
  (he : s.outage.watches[n]? = some e) (hh : s.outage.held = l₁ ++ none :: l₂)
include ht hr hg he hh

/-- A command that is held, then its report. -/
theorem holdCommand_eq : holdCommand n l₁.length (j, q) t.address s
    = reportGuard n l₁.length ⟨j, t.address, q, n, r.cls, minuteOf s⟩ (heldIn j q n t r e l₁ l₂ s) := by
  have hport := portOf_eq ht hr
  have hen : e.enabled = true := by
    obtain ⟨e', he', hgd⟩ := guardFor_guarding hg
    rw [he] at he'
    cases he'
    unfold guarding at hgd
    simp only [Bool.and_eq_true] at hgd
    exact hgd.1
  have hwatches : lmod s.outage.watches n (fun e =>
      { e with hits := min 255 (e.hits + 1), enabled := e.enabled && !e.watch.any (·.once) })
      = s.outage.watches.set n (guardHit e) := by
    unfold lmod
    rw [he]
    dsimp only
    rw [hen, Bool.true_and]
    rfl
  have hheld (x : Option Held) : s.outage.held.set l₁.length x = l₁ ++ x :: l₂ := by
    rw [hh, List.set_append_right _ _ (Nat.le_refl _), Nat.sub_self]
    rfl
  have hcommand : heldCommand n (j, q) t.address s = ⟨j, t.address, q, n, r.cls, minuteOf s⟩ := by
    unfold heldCommand
    rw [hport]
    rfl
  rw [holdCommand_report, heldUnreported, hcommand, hwatches, hheld]
  exact congrArg (fun u => reportGuard n _ _ (leaveQueues (j, q) u)) (modPort_eq (s := { s with
    outage.watches := s.outage.watches.set n (guardHit e)
    outage.held := l₁ ++ some ⟨j, t.address, q, n, r.cls, minuteOf s⟩ :: l₂ }) hport _)

/-- With the host as owner the report is GUARD_HIT. -/
theorem holdCommand_host (ho : s.outage.owner = .host) : holdCommand n l₁.length (j, q) t.address s
    = notice nkGuardHit (e.watch.any (·.urgent)) (u8 n ++ u8 l₁.length ++ u16 j ++ u16 t.address ++ u8 q ++ u8 (pclassNum r.cls)
      ++ opt 4 (s.time.clock.map (·.1))) (heldIn j q n t r e l₁ l₂ s) := by
  have hentry : (heldIn j q n t r e l₁ l₂ s).outage.watches[n]? = some (guardHit e) := by
    show (s.outage.watches.set n (guardHit e))[n]? = _
    rw [List.getElem?_set_self (List.getElem?_eq_some_iff.mp he).1]
  rw [holdCommand_eq ht hr hg he hh]
  unfold reportGuard
  rw [show (heldIn j q n t r e l₁ l₂ s).outage.owner = .host from ho]
  dsimp only
  rw [hentry]
  rfl

/-- With the craft port as owner it is the line GUARD. -/
theorem holdCommand_craft (ho : s.outage.owner = .craft) : holdCommand n l₁.length (j, q) t.address s
    = printLine [word "GUARD", dec n, dec l₁.length, dec t.address, dec q, pclassWord r.cls] (heldIn j q n t r e l₁ l₂ s) := by
  rw [holdCommand_eq ht hr hg he hh]
  unfold reportGuard
  rw [show (heldIn j q n t r e l₁ l₂ s).outage.owner = .craft from ho]

omit hr he

/-- A guarded command is held when it is offered and a place is empty. -/
theorem offerPort_holds (hn : none ∉ l₁) : offerPort (j, q) false s = (holdCommand n l₁.length (j, q) t.address s, false) := by
  have hhold : guardCheck s t.address false = .hold n l₁.length := by
    unfold guardCheck
    rw [if_neg Bool.false_ne_true, hg]
    dsimp only
    rw [hh, findIdx_place l₁ l₂ hn]
  unfold offerPort
  rw [ht]
  dsimp only
  rw [hhold]

end

/-- A command that is held does not look at the cursor and the flag. -/
theorem holdCommand_cursor (n k : Nat) (p : Nat × Nat) (a : Nat) (c : Option Nat) (d : Bool) (s : State) :
    holdCommand n k p a (withCursor c d s) = withCursor c d (holdCommand n k p a s) := by
  have report (h : Held) (u : State) : reportGuard n k h (withCursor c d u) = withCursor c d (reportGuard n k h u) := by
    unfold reportGuard
    rw [show (withCursor c d u).outage = u.outage from rfl]
    cases u.outage.owner with
    | host =>
      dsimp only
      rw [notice_eq, notice_eq _ _ _ u]
      rfl
    | craft =>
      dsimp only
      rw [printLine_eq, printLine_eq _ u]
      rfl
  rw [holdCommand_report, holdCommand_report n k p a s]
  exact report (heldCommand n p a s) (heldUnreported n k p a s)

/-- The queues of a command that is held. -/
theorem holdCommand_queues (n k : Nat) (p : Nat × Nat) (a : Nat) (s : State) :
    (holdCommand n k p a s).plant.urgent = (leaveQueues p s).plant.urgent
      ∧ (holdCommand n k p a s).plant.refresh = (leaveQueues p s).plant.refresh := by
  rw [holdCommand_report, (reportGuard_keeps ..).1]
  exact ⟨rfl, rfl⟩

section
variable {s : State} {j q n : Nat} {t : Tap} {l₁ l₂ : List (Option Held)} (hrun : s.link.op = .run) (hidle : s.plant.line = .idle)
  (hc : CommandSlot (opened s)) (ht : tget s.plant.taps j = some t) (hg : guardFor s t.address = some n)
  (hh : s.outage.held = l₁ ++ none :: l₂) (hn : none ∉ l₁)
include hrun hidle hc ht hg hh hn

/-- A guarded command whose departure from its queue the choice goes on behind. -/
theorem kick_holds (hwork : ∀ c d, offerPort (j, q) false (withCursor c d s)
      = (withCursor c d (holdCommand n l₁.length (j, q) t.address s), false) →
    commandWork (withCursor c d s) = commandWork (withCursor c d (holdCommand n l₁.length (j, q) t.address s))) :
    kick s = kick (holdCommand n l₁.length (j, q) t.address s) := by
  have hplace : s.outage.held[l₁.length]? = some none := by
    rw [hh, List.getElem?_append_right (Nat.le_refl _), Nat.sub_self]
    rfl
  refine kick_leaves (f := holdCommand n l₁.length (j, q) t.address) (crafts := False) hrun hidle hc
    (holdCommand_cursor _ _ _ _) (holdCommand_only _ _ _ _ _ hplace) (holdCommand_offered _ hg ..) ?_
  obtain ⟨c, d, ho⟩ := opened_cursor s
  rw [ho, holdCommand_cursor]
  refine hwork c d ?_
  rw [← holdCommand_cursor]
  exact offerPort_holds (s := withCursor c d s) ht hg hh hn

/-- A guarded command at the head of the URGENT queue is held. -/
theorem kick_holds_urgent {l : List UrgentItem} (hq : s.plant.urgent = .port j q false :: l) (hl : ∀ m, .port j q m ∉ l) :
    kick s = kick (holdCommand n l₁.length (j, q) t.address s) := by
  refine kick_holds hrun hidle hc ht hg hh hn fun c d ho => ?_
  refine commandWork_leaves (l := []) (l' := l) hq (fun x hx => by cases hx) ho ?_ (fun x hx => by cases hx)
  show (holdCommand n l₁.length (j, q) t.address s).plant.urgent = l
  rw [(holdCommand_queues ..).1]
  show s.plant.urgent.filter _ = l
  rw [hq, List.filter_cons_of_neg (by simp)]
  refine List.filter_eq_self.mpr fun x hx => ?_
  cases x with
  | craft r => rfl
  | port a b m =>
    refine decide_eq_true fun h => ?_
    cases h
    exact hl m hx

/-- With the URGENT queue empty, a guarded command at the head of the REFRESH queue is held. -/
theorem kick_holds_refresh {l : List (Nat × Nat)} (hu : s.plant.urgent = []) (hq : s.plant.refresh = (j, q) :: l) (hl : (j, q) ∉ l) :
    kick s = kick (holdCommand n l₁.length (j, q) t.address s) := by
  refine kick_holds hrun hidle hc ht hg hh hn fun c d ho => ?_
  refine commandWork_leaves_refresh (l := l) hu hq ho ?_ ?_
  · show (holdCommand n l₁.length (j, q) t.address s).plant.urgent = []
    rw [(holdCommand_queues ..).1]
    show s.plant.urgent.filter _ = []
    rw [hu]
    rfl
  · show (holdCommand n l₁.length (j, q) t.address s).plant.refresh = l
    rw [(holdCommand_queues ..).2]
    show s.plant.refresh.filter _ = l
    rw [hq, List.filter_cons_of_neg (by simp)]
    exact List.filter_eq_self.mpr fun x hx => decide_eq_true fun h => hl (h ▸ hx)

end

/-! ## Craft requests (R83, R127) -/

/-- The craft request of a queue that has no other leaves it. -/
theorem leaveCraft_eq {s : State} {l l' : List UrgentItem} {r : CraftReq} (hq : s.plant.urgent = l ++ .craft r :: l')
    (hl : PassedOver s l) (hl' : ∀ x, .craft x ∉ l') : leaveCraft s = { s with plant.urgent := l ++ l' } := by
  have ports (k : List UrgentItem) (hk : ∀ x, .craft x ∉ k) :
      k.filter (fun e => match e with | .craft _ => false | .port .. => true) = k := by
    refine List.filter_eq_self.mpr fun x hx => ?_
    cases x with
    | craft r => exact absurd hx (hk r)
    | port a b m => rfl
  have hbefore := ports l fun x hx => by
    obtain ⟨j, q, h, -⟩ := hl _ hx
    cases h
  have hqueue : (leaveCraft s).plant.urgent = l ++ l' := by
    show s.plant.urgent.filter _ = _
    rw [hq, List.filter_append, List.filter_cons_of_neg Bool.false_ne_true]
    exact congrArg₂ (· ++ ·) hbefore (ports l' hl')
  exact congrArg (fun k => ({ s with plant.urgent := k } : State)) hqueue

section
variable {s : State} {r : CraftReq}

/-- Whether a craft request can be started is not said by the queue. -/
theorem craftBlocked_leaveCraft : craftBlocked (leaveCraft s) r = craftBlocked s r := by
  cases r <;> rfl

/-- A request that cannot be started is given up. -/
theorem offerCraft_fails {code : String} (h : craftBlocked s r = some code) : offerCraft r s = (craftGivenUp code s, false) := by
  unfold offerCraft
  dsimp only
  rw [craftBlocked_leaveCraft, h]
  rfl

/-- A craft POLL of a tap starts. -/
theorem offerCraft_pollTap {a i : Nat} {x : Tap} (ht : tapAt s a = some (i, x)) :
    offerCraft (.poll a) s = (startTx .craftPoll a i true 0 noContent (leaveCraft s), true) := by
  have hb : craftBlocked s (.poll a) = none := craftBlocked_poll_some (.inl (by rw [ht]; exact Option.some_ne_none _))
  unfold offerCraft
  dsimp only
  rw [craftBlocked_leaveCraft, hb]
  dsimp only
  rw [show tapAt (leaveCraft s) a = some (i, x) from ht]

/-- A craft POLL of a transponder starts. -/
theorem offerCraft_pollXp {a i : Nat} {x : Transponder} (ht : tapAt s a = none) (hx : xpAt s a = some (i, x)) :
    offerCraft (.poll a) s = (startTx .craftPoll a i false 0 noContent (leaveCraft s), true) := by
  have hb : craftBlocked s (.poll a) = none := craftBlocked_poll_some (.inr (by rw [hx]; exact Option.some_ne_none _))
  unfold offerCraft
  dsimp only
  rw [craftBlocked_leaveCraft, hb]
  dsimp only
  rw [show tapAt (leaveCraft s) a = none from ht, show xpAt (leaveCraft s) a = some (i, x) from hx]

/-- A craft TEST of a port in a segment HELD starts. -/
theorem offerCraft_test {a q i : Nat} {on : Bool} {x : Tap} (ht : tapAt s a = some (i, x)) (hs : serviceOf s x.segment = .held) :
    offerCraft (.test a q on) s = (startTx .craftTest a i true q (testContent on) (leaveCraft s), true) := by
  have hb : craftBlocked s (.test a q on) = none := craftBlocked_test_held ht hs
  unfold offerCraft
  dsimp only
  rw [craftBlocked_leaveCraft, hb]
  dsimp only
  rw [show tapAt (leaveCraft s) a = some (i, x) from ht]

end

section
variable {s : State} {l l' : List UrgentItem} {r : CraftReq} (hrun : s.link.op = .run) (hidle : s.plant.line = .idle)
  (hc : CommandSlot (opened s)) (hq : s.plant.urgent = l ++ .craft r :: l') (hl : PassedOver s l)
include hrun hidle hc hq hl

/-- The craft request is chosen where no entry before it can start. -/
theorem kick_craft {u : State} (h : offerCraft r (opened s) = (u, true)) : kick s = u := by
  refine kick_starts hrun hidle hc ?_
  obtain ⟨c, d, ho⟩ := opened_cursor s
  rw [ho] at h ⊢
  exact commandWork_starts (s := withCursor c d s) hq hl h

/-- A craft request that starts leaves the URGENT queue. -/
theorem kick_craft_starts (hl' : ∀ x, .craft x ∉ l') {p : Purpose} {a i port : Nat} {toTap : Bool} {content : Content}
    (h : ∀ c d, offerCraft r (withCursor c d s) = (startTx p a i toTap port content (leaveCraft (withCursor c d s)), true)) :
    kick s = startTx p a i toTap port content { opened s with plant.urgent := l ++ l' } := by
  obtain ⟨c, d, ho⟩ := opened_cursor s
  refine kick_craft hrun hidle hc hq hl ?_
  rw [ho, h c d, leaveCraft_eq (s := withCursor c d s) hq hl hl']

/-- A craft request that cannot be started is given up, and the choice goes on. -/
theorem kick_craft_fails (hl' : ∀ x, .craft x ∉ l') {code : String} (h : craftBlocked s r = some code) :
    kick s = kick (printLine [word "ERR", word code] { s with plant.urgent := l ++ l' }) := by
  have comm (c : Option Nat) (d : Bool) (u : State) : craftGivenUp code (withCursor c d u) = withCursor c d (craftGivenUp code u) := by
    rw [craftGivenUp_eq, craftGivenUp_eq]
    rfl
  have hgiven : leaveCraft s = { s with plant.urgent := l ++ l' } := leaveCraft_eq hq hl hl'
  have hplant : (craftGivenUp code s).plant = { s.plant with urgent := l ++ l' } := by
    rw [craftGivenUp_eq, hgiven]
  have houtage : (craftGivenUp code s).outage = s.outage := by
    rw [craftGivenUp_eq]
    rfl
  rw [← hgiven]
  refine kick_leaves (f := craftGivenUp code) (crafts := True) hrun hidle hc comm
    ((leaveCraft_only s).trans (printErr_only ..)) (craftGivenUp_offered ..) ?_
  obtain ⟨c, d, ho⟩ := opened_cursor s
  rw [ho, comm]
  have hoffer : offerItem (.craft r) (withCursor c d s) = (withCursor c d (craftGivenUp code s), false) := by
    rw [← comm]
    refine offerCraft_fails ?_
    rw [← h]
    cases r <;> rfl
  have htaps : (craftGivenUp code s).plant.taps = s.plant.taps := by rw [hplant]
  refine commandWork_leaves hq hl hoffer (congrArg Plant.urgent hplant) fun x hx => ?_
  obtain ⟨j, q, hx, hw⟩ := hl x hx
  exact ⟨j, q, hx, hw.congr houtage htaps⟩

end

end Sys2Proof.Safety
end

