-- ==== Proofs/PlantOutcomes.lean ====
section
/-! PROOFS. The outcomes of probes, craft POLLs and craft TESTs: the frames of their replies, a reply heard from a tap, and the lines
printed (R63, R65, R76, R81 to R83, R127; O5, its third part). -/

namespace Sys2Proof.Safety

open Sys2Proof.Machine

/-! ## The frame of a STATUS (R63, 12.4) -/

/-- The characters of a STATUS before its check character. -/
def statusHead (a : Nat) (role flags battery : Byte) (level : Int) (supply : Nat) : List Byte :=
  addressChars a 8 ++ [role, flags] ++ i16 level ++ u16 supply ++ [battery]

/-- A STATUS from an address. -/
def statusFrame (a : Nat) (role flags battery : Byte) (level : Int) (supply : Nat) : List Byte :=
  statusHead a role flags battery level supply ++ [sum8 (statusHead a role flags battery level supply)]

section
variable (a : Nat) (role flags battery : Byte) (level : Int) (supply : Nat)

/-- Its characters one behind the other. -/
theorem statusFrame_eq : statusFrame a role flags battery level supply
    = BitVec.ofNat 8 (a / 16) :: BitVec.ofNat 8 (a % 16 * 16 + 8) :: role :: flags :: (be 2 (BitVec.ofInt 16 level).toNat
      ++ (be 2 supply ++ [battery, sum8 (statusHead a role flags battery level supply)])) := by
  unfold statusFrame
  generalize sum8 _ = c
  simp [statusHead, addressChars, i16, u16]

/-- The fields of a STATUS are read back. -/
theorem statusOfChars_frame (h1 : -32768 ≤ level) (h2 : level ≤ 32767) (hs : supply ≤ 65535) :
    statusOfChars ((statusFrame a role flags battery level supply).drop 2)
      = ⟨role.toNat, flags.getLsbD 0, flags.getLsbD 1, flags.getLsbD 2, level, supply, battery.toNat⟩ := by
  rw [statusFrame_eq]
  generalize sum8 _ = c
  show statusOfChars (role :: flags :: (be 2 (BitVec.ofInt 16 level).toNat ++ (be 2 supply ++ [battery, c]))) = _
  unfold statusOfChars fldInt
  rw [fld_head, fld_cons (by omega), fld_head, fld_cons (by omega), fld_cons (by omega), fld_here, i16_back h1 h2,
    fld_cons (by omega), fld_cons (by omega), fld_skip (by omega), fld_here, Nat.mod_eq_of_lt (by omega),
    fld_cons (by omega), fld_cons (by omega), fld_skip (by omega), fld_skip (by omega), fld_head]
  simp only [BitVec.testBit_toNat]

end

/-- The tamper flag of a STATUS. -/
theorem statusFrame_tamper {level : Int} {supply : Nat} (h1 : -32768 ≤ level) (h2 : level ≤ 32767) (hs : supply ≤ 65535) (a : Nat)
    (role flags battery : Byte) :
    (statusOfChars ((statusFrame a role flags battery level supply).drop 2)).tamper = flags.getLsbD 2 := by
  rw [statusOfChars_frame a role flags battery level supply h1 h2 hs]

/-- A STATUS from a transaction's address, of a tap where it goes to one, is a valid reply to it. -/
theorem statusFrame_replies {t : Transaction} (hk : replyKindOf t = 8) (hf : t.failed = false) (ha : t.address ≤ 4095)
    {role : Byte} (hr : if t.toTap then role = 4 else role ≠ 4) (flags battery : Byte) (level : Int) (supply : Nat) :
    RepliesTo t (statusFrame t.address role flags battery level supply) := by
  have hrole : (if t.toTap then decide (role.toNat = 4) else decide (role.toNat ≠ 4)) = true := by
    have hnum : role.toNat = 4 ↔ role = 4 := BitVec.toNat_inj (y := (4 : Byte))
    split at hr <;> simp_all
  refine ⟨hf, ?_, fun b hb => ?_, ?_⟩
  · rw [hk, statusFrame_eq]
    rfl
  · rw [hk]
    rw [statusFrame_eq] at hb
    cases hb
    rw [BitVec.toNat_ofNat]
    omega
  · have hlast : (statusFrame t.address role flags battery level supply).getLast?
        = some (sum8 (statusFrame t.address role flags battery level supply).dropLast) := by
      unfold statusFrame
      rw [List.getLast?_concat, List.dropLast_concat]
    unfold replyValid
    rw [hlast, hk, statusFrame_eq, fld_head, fld_cons (by omega), fld_head, fld_cons (by omega), fld_cons (by omega), fld_head,
      BitVec.toNat_ofNat, BitVec.toNat_ofNat, Nat.mod_eq_of_lt (by omega), Nat.mod_eq_of_lt (by omega)]
    simp only [hrole]
    simp
    omega

/-- A PORT-ACK that agrees with a craft TEST is a valid reply to it. -/
theorem ackFrame_repliesTest {t : Transaction} (hp : t.purpose = .craftTest) (hf : t.failed = false) (ha : t.address ≤ 4095)
    (hport : t.port ≤ 3) (tamper : Bool) : RepliesTo t (ackFrame t tamper) := by
  have hk : replyKindOf t = replyKindOf { t with purpose := .portCommand } := by
    unfold replyKindOf txKind
    rw [hp]
  obtain ⟨-, hlen, hkind, hvalid⟩ := ackFrame_replies (t := { t with purpose := .portCommand }) rfl hf ha hport tamper
  refine ⟨hf, by rw [hk]; exact hlen, fun b hb => by rw [hk]; exact hkind b hb, ?_⟩
  unfold replyValid at hvalid ⊢
  rw [hk]
  exact hvalid

/-! ## What outcomes leave of the orders that wait -/

/-- The recomputation of segments leaves the orders that wait. -/
theorem recomputeSegments_waiting (ns : List Nat) (cause : HandCause) (s : State) :
    (recomputeSegments ns cause s).link.waiting = s.link.waiting := by
  have hconditions (u : State) : (ns.foldl recomputeCondition u).link = u.link := by
    induction ns generalizing u with
    | nil => rfl
    | cons n ns ih => exact ih (recomputeCondition u n)
  have hservices (u : State) : (recomputeServices ns cause u).1.link.waiting = u.link.waiting := by
    rw [recomputeServices_eq, reparkTaps_waiting]
    obtain ⟨l, o, st, segs, h, hw, -⟩ :=
      takeHandOffs_log cause (servicesWalked u (affected u ns)).2 (servicesWalked u (affected u ns)).1
    unfold handedToLog
    rw [h]
    refine hw.trans ?_
    rw [(walked u (affected u ns)).only]
  unfold recomputeSegments
  rw [hservices, hconditions]

/-- So does the outcome of a poll. -/
theorem takeOutcome_waiting (i : Nat) (o : Option StatusMsg) (s : State) :
    (takeOutcome i o s).link.waiting = s.link.waiting := by
  have events (l : List WatchKind) (a : Nat) (u : State) : WatchOnly u (l.foldl (fun s k => watchEvent k a s) u) := by
    induction l generalizing u with
    | nil => exact .refl u
    | cons k l ih => exact (watchEvent_watchOnly k a u).trans (ih _)
  unfold takeOutcome
  split
  · rfl
  · dsimp only
    rw [recomputeSegments_waiting, (events _ _ _).waiting, (xpNotice_watchOnly ..).waiting]

/-! ## A reply heard from a tap (R75, R81, R82) -/

/-- Two changes of one tap that agree on the UNREACHABLE state leave the same taps UNREACHABLE. -/
theorem tmod_unreachable {f g : Tap → Tap} (h : ∀ y, (f y).unreachable = (g y).unreachable) (i : Nat) (l : List (Nat × Tap)) :
    (tmod l i f).any (fun y => y.2.unreachable.isSome) = (tmod l i g).any (fun y => y.2.unreachable.isSome) := by
  induction l with
  | nil => rfl
  | cons y l ih =>
    obtain ⟨k, v⟩ := y
    unfold tmod
    split
    · simp only [List.any_cons, h]
    · simp only [List.any_cons, ih]

/-- The state in which a tap has been heard: its tamper flag is taken, with a change of its record besides; the probe-due flag falls
with the last UNREACHABLE tap, and a tamper flag that is now set is told (R75, R82). -/
def tapCleared (i : Nat) (v : Bool) (x : Tap) (f : Tap → Tap) (s : State) : State :=
  tamperTold x v { s with
    plant.taps := tmod s.plant.taps i (fun y => { f y with tamper := v })
    plant.probeDue := s.plant.probeDue && (x.unreachable.isNone
      || (tmod s.plant.taps i (fun y => { f y with tamper := v })).any (fun y => y.2.unreachable.isSome)) }

/-- A reply heard from a tap: an UNREACHABLE tap is restored (R81, R82). -/
def tapHeard (i : Nat) (v : Bool) (x : Tap) (cause : Nat) (test : State → State) (s : State) : State :=
  match x.unreachable with
  | none => test (tapCleared i v x (fun y => y) s)
  | some since => notice nkTapRestored false
    (u16 i ++ u16 x.address ++ u8 x.segment ++ u32 since ++ opt 4 (s.time.clock.map (·.1)) ++ u8 cause)
    (forceTaps [i] (reparkTaps [i] (test (tapCleared i v x (fun y => { y with unreachable := none }) s))))

/-- What a watch event may change leaves the clock. -/
theorem WatchOnly.time {s t : State} (h : WatchOnly s t) : t.time = s.time := by
  obtain ⟨l, ws, c, rfl, -⟩ := h
  rfl

/-- A tap heard changes the watches, and the record and the flag. -/
theorem tapCleared_keeps (i : Nat) (v : Bool) (x : Tap) (f : Tap → Tap) (s : State) :
    (tapCleared i v x f s).link.waiting = s.link.waiting ∧ (tapCleared i v x f s).time = s.time := by
  refine ⟨tamperTold_waiting .., ?_⟩
  unfold tapCleared tamperTold
  split
  · exact (watchEvent_watchOnly ..).time
  · rfl

section
variable {s : State} {i : Nat} {x : Tap} (hx : tget s.plant.taps i = some x) (v : Bool) (cause : Nat) {test : State → State}
  (htest : ∀ u, (test u).time = u.time)
include hx htest

/-- The reply of a tap is taken. -/
theorem tapReply_heard : tapReply i v cause test s = tapHeard i v x cause test s := by
  unfold tapReply tapHeard
  rw [hx]
  dsimp only
  cases hu : x.unreachable with
  | none =>
    dsimp only
    rw [takeTamper_eq hx]
    unfold tapCleared modTap
    rw [hu, Option.isNone_none, Bool.true_or, Bool.and_true]
  | some since =>
    dsimp only
    have hcleared : takeTamper i v (dropProbe (modTap i (fun t => { t with unreachable := none }) s))
        = tapCleared i v x (fun y => { y with unreachable := none }) s := by
      have htap : tget (dropProbe (modTap i (fun t => { t with unreachable := none }) s)).plant.taps i
          = some { x with unreachable := none } := by
        rw [dropProbe_eq]
        show tget (tmod _ _ _) _ = _
        rw [tget_tmod, if_pos rfl, hx]
        rfl
      have hany := tmod_unreachable (f := fun t => { t with unreachable := none })
        (g := fun y => { { y with unreachable := none } with tamper := v }) (fun _ => rfl) i s.plant.taps
      rw [takeTamper_eq htap, dropProbe_eq]
      unfold tapCleared modTap
      rw [hu, Option.isNone_some, Bool.false_or, ← hany]
      simp only [tmod_tmod]
      rfl
    have htime (u : State) : (forceTaps [i] (reparkTaps [i] (test u))).time = u.time := by
      obtain ⟨pl, hpl⟩ := (reparkTaps_plant [i] (test u)).trans (forceTaps_plant [i] (reparkTaps [i] (test u)))
      rw [hpl]
      exact htest u
    rw [hcleared, htime, (tapCleared_keeps ..).2]

omit hx htest in
/-- A reply heard leaves the orders that wait. -/
theorem tapHeard_waiting (hw : ∀ u, (test u).link = u.link) : (tapHeard i v x cause test s).link.waiting = s.link.waiting := by
  have hcleared (f : Tap → Tap) : (test (tapCleared i v x f s)).link.waiting = s.link.waiting := by
    rw [hw, (tapCleared_keeps ..).1]
  unfold tapHeard
  split
  · exact hcleared _
  · rw [notice_waiting]
    obtain ⟨pl, hpl⟩ := forceTaps_plant [i] (reparkTaps [i] (test (tapCleared i v x (fun y => { y with unreachable := none }) s)))
    rw [hpl]
    exact (reparkTaps_waiting ..).trans (hcleared _)

end

/-! ## Outcomes (R76, R83, R127) -/

section
variable {s : State} {t : Transaction}

/-- The tap of a transaction is gone: its record is empty or at another address (R76). -/
def TapGone (s : State) (t : Transaction) : Prop := ∀ x, tget s.plant.taps t.index = some x → x.address ≠ t.address

/-- The transponder of a transaction is gone: its record is empty, disabled or at another address (R76). -/
def XpGone (s : State) (t : Transaction) : Prop :=
  ∀ x, tget s.telemetry.transponders t.index = some x → ¬ (x.address = t.address ∧ x.enabled = true)

/-- A tap that is gone does not stand. -/
theorem tapStands_gone (h : TapGone s t) : tapStands s t = false := by
  unfold tapStands
  cases hx : tget s.plant.taps t.index with
  | none => rfl
  | some x => exact decide_eq_false (h x hx)

/-- A tap at the transaction's address stands. -/
theorem tapStands_loaded {x : Tap} (hx : tget s.plant.taps t.index = some x) (ha : x.address = t.address) : tapStands s t = true := by
  unfold tapStands
  rw [hx]
  exact decide_eq_true ha

/-- A transponder stands where it is not gone. -/
theorem xpStands_iff : xpStands s t = true ↔ ¬ XpGone s t := by
  unfold xpStands xpOf XpGone
  simp [Option.any_eq_true]

end

/-- The outcome of a craft POLL of a transponder is taken where the record stands (R76, R88). -/
def xpJudged (t : Transaction) (m : Option StatusMsg) (s : State) : State := if xpStands s t then takeOutcome t.index m s else s

/-- The judgement is said by whether the transponder is gone. -/
theorem eq_xpJudged {s u : State} {t : Transaction} {m : Option StatusMsg}
    (h : (XpGone s t → u = s) ∧ (¬ XpGone s t → u = takeOutcome t.index m s)) : u = xpJudged t m s := by
  unfold xpJudged
  by_cases hg : XpGone s t
  · rw [if_neg fun hx => xpStands_iff.mp hx hg]
    exact h.1 hg
  · rw [if_pos (xpStands_iff.mpr hg)]
    exact h.2 hg

/-- The outcome of a poll of a transponder leaves the orders that wait. -/
theorem xpJudged_waiting (t : Transaction) (m : Option StatusMsg) (s : State) : (xpJudged t m s).link.waiting = s.link.waiting := by
  unfold xpJudged
  split
  · exact takeOutcome_waiting ..
  · rfl

/-- The line of a craft request without a valid reply (R127). -/
def silentTold (t : Transaction) (s : State) : State := printLine [word "ERR", word "NO_REPLY", dec t.address] s

/-- The line of a craft POLL of a tap (R127). -/
def tapPollTold (t : Transaction) (tamper : Bool) (s : State) : State :=
  printLine [word "OK", word "POLL", dec t.address, word "TAP", flagWord tamper] s

/-- The line of a craft TEST (R127). -/
def testTold (t : Transaction) (tamper : Bool) (s : State) : State :=
  printLine [word "OK", word "TEST", dec t.address, dec t.port, onWord t.content.enable, flagWord tamper] s

section
variable {s : State} {t : Transaction}

/-- A probe without a valid reply (R81). -/
theorem probe_silent (hp : t.purpose = .probe) : handOutcome t none s = s := by
  unfold handOutcome
  rw [hp]

/-- The valid reply to a probe of a tap that is gone. -/
theorem probe_gone (hp : t.purpose = .probe) (h : TapGone s t) (f : List Byte) : handOutcome t (some f) s = s := by
  unfold handOutcome
  rw [hp]
  dsimp only
  rw [if_neg (by simp [tapStands_gone h])]

/-- The valid reply to a probe. -/
theorem probe_heard (hp : t.purpose = .probe) {x : Tap} (hx : tget s.plant.taps t.index = some x) (ha : x.address = t.address)
    (f : List Byte) : handOutcome t (some f) s = tapHeard t.index (statusOfChars (f.drop 2)).tamper x 0 (fun u => u) s := by
  unfold handOutcome
  rw [hp]
  dsimp only
  rw [if_pos (tapStands_loaded hx ha)]
  exact tapReply_heard hx _ 0 (fun _ => rfl)

variable (hp : t.purpose = .craftPoll)
include hp

section
variable (ht : t.toTap = true)
include ht

/-- A craft POLL of a tap without a valid reply. -/
theorem tapPoll_silent : handOutcome t none s = silentTold t s := by
  unfold handOutcome
  rw [hp, ht]
  rfl

/-- The line of the valid reply to a craft POLL of a tap. -/
theorem printOutcome_tapPoll (f : List Byte) : printOutcome t (some f) s = tapPollTold t (statusOfChars (f.drop 2)).tamper s := by
  unfold printOutcome
  dsimp only
  rw [if_neg (by rw [hp]; decide), if_pos ht]
  rfl

/-- The valid reply to a craft POLL of a tap that is gone. -/
theorem tapPoll_gone (h : TapGone s t) (f : List Byte) :
    handOutcome t (some f) s = tapPollTold t (statusOfChars (f.drop 2)).tamper s := by
  unfold handOutcome
  rw [hp]
  dsimp only
  rw [if_pos ht, if_neg (by simp [tapStands_gone h]), printOutcome_tapPoll hp ht]

/-- The valid reply to a craft POLL of a tap. -/
theorem tapPoll_heard {x : Tap} (hx : tget s.plant.taps t.index = some x) (ha : x.address = t.address) (f : List Byte) :
    handOutcome t (some f) s = tapPollTold t (statusOfChars (f.drop 2)).tamper
      (tapHeard t.index (statusOfChars (f.drop 2)).tamper x 1 (fun u => u) s) := by
  have hreply := tapReply_heard hx (statusOfChars (f.drop 2)).tamper 1 (test := id) (fun _ => rfl)
  unfold handOutcome
  rw [hp]
  dsimp only
  rw [if_pos ht, if_pos (tapStands_loaded hx ha), hreply, printOutcome_tapPoll hp ht]
  rfl

end

section
variable (ht : t.toTap = false)
include ht

/-- A craft POLL of a transponder without a valid reply. -/
theorem xpPoll_silent : handOutcome t none s = silentTold t (xpJudged t none s) := by
  unfold handOutcome
  rw [hp, ht]
  rfl

/-- The valid reply to a craft POLL of a transponder. -/
theorem xpPoll_heard {f : List Byte} {m : StatusMsg} (hm : statusOfChars (f.drop 2) = m) : handOutcome t (some f) s
    = printLine [word "OK", word "POLL", dec t.address, roleWord m.role, decInt m.level, dec m.supply, dec m.battery,
      flagWord m.onBattery, flagWord m.outputOff, flagWord m.tamper] (xpJudged t (some m) s) := by
  subst hm
  unfold handOutcome printOutcome
  rw [hp, ht]
  rfl

end

end

section
variable {s : State} {t : Transaction} (hp : t.purpose = .craftTest)
include hp

/-- A craft TEST of a tap that is gone, without a valid reply. -/
theorem test_gone_silent (h : TapGone s t) : handOutcome t none s = silentTold t s := by
  unfold handOutcome
  rw [hp]
  dsimp only
  rw [if_pos (by simp [tapStands_gone h])]
  rfl

/-- The line of the valid reply to a craft TEST. -/
theorem printOutcome_test (f : List Byte) : printOutcome t (some f) s = testTold t ((fld f 2 1).testBit 6) s := by
  unfold printOutcome
  dsimp only
  rw [if_pos hp]
  rfl

/-- The valid reply to a craft TEST of a tap that is gone. -/
theorem test_gone (h : TapGone s t) (f : List Byte) : handOutcome t (some f) s = testTold t ((fld f 2 1).testBit 6) s := by
  unfold handOutcome
  rw [hp]
  dsimp only
  rw [if_pos (by simp [tapStands_gone h]), printOutcome_test hp]

variable {x : Tap} (hx : tget s.plant.taps t.index = some x) (ha : x.address = t.address)
include hx ha

/-- A craft TEST without a valid reply. -/
theorem test_silent : handOutcome t none s
    = silentTold t (reparkPort (t.index, t.port) (testPort (t.index, t.port) none s)) := by
  unfold handOutcome
  rw [hp]
  dsimp only
  rw [if_neg (by simp [tapStands_loaded hx ha])]
  rfl

/-- The valid reply to a craft TEST. -/
theorem test_heard (f : List Byte) : handOutcome t (some f) s = testTold t ((fld f 2 1).testBit 6)
    (reparkPort (t.index, t.port)
      (tapHeard t.index ((fld f 2 1).testBit 6) x 2 (testPort (t.index, t.port) (some t.content)) s)) := by
  have hreply := tapReply_heard hx ((fld f 2 1).testBit 6) 2 (test := testPort (t.index, t.port) (some t.content)) (fun _ => rfl)
  unfold handOutcome
  rw [hp]
  dsimp only
  rw [if_neg (by simp [tapStands_loaded hx ha]), hreply, printOutcome_test hp]

end

/-! ## The ends of transactions -/

section
variable {s : State} {t : Transaction} (hw : s.link.waiting = []) (ht : s.plant.current = some t) (hl : s.plant.line = .window)
include hw ht hl

/-- The end of the window hands NO_REPLY on, then work is chosen. -/
theorem exec_silent {u : State} (hu : handOutcome t none (lineFreed s) = u) (hk : u.link.waiting = (lineFreed s).link.waiting) :
    exec .replyWindowExpiry s = .next (kick u) := by
  rw [exec_windowExpiry ht hl, hu, finish_of_none (hk.trans hw)]

/-- The characters of a valid reply hand it on, then work is chosen. -/
theorem exec_answered {f : List Byte} (hf : RepliesTo t f) {u : State} (hu : handOutcome t (some f) (lineFreed s) = u)
    (hk : u.link.waiting = (lineFreed s).link.waiting) :
    exec (.plantReplyReceived (f.zipIdx.map (fun c => ⟨c.1, c.2 = 0, true⟩))) s = .next (kick u) := by
  rw [zipIdx_wakeFirst, exec_replyComplete ht (.inr hl) (takeChars_reply hf), hu, finish_of_none (hk.trans hw)]

end

end Sys2Proof.Safety
end

