-- ==== Proofs/OutcomesReceived.lean ====
section
/-! PROOFS. What follows the outcomes of probes, craft POLLs and craft TESTs, as the plant line receives them (O5, its third part). -/

namespace Sys2Proof.Safety

open Sys2Proof.Machine

/-! ## Outcomes received (R63, R65, R76, R81 to R83, R127) -/

/-- A probe and a craft POLL are answered by a STATUS. -/
theorem replyKindOf_status {t : Transaction} (h : t.purpose = .probe ∨ t.purpose = .craftPoll) : replyKindOf t = 8 := by
  unfold replyKindOf txKind
  obtain hp | hp := h
  · rw [hp]
    rfl
  · rw [hp]
    cases t.toTap <;> rfl

/-- A line printed leaves the orders that wait. -/
theorem printLine_waiting (ws : List Text) (s : State) : (printLine ws s).link.waiting = s.link.waiting :=
  congrArg Link.waiting (printLine_link ws s)

/-- So does the park of a port. -/
theorem reparkPort_waiting (p : Nat × Nat) (s : State) : (reparkPort p s).link.waiting = s.link.waiting := by
  obtain ⟨pl, hpl⟩ := reparkPort_plant p s
  rw [hpl]

/-- A frame received character by character, the first with wake flag 1 (R62). -/
def frameReceived (f : List Byte) : Instr := .plantReplyReceived (f.zipIdx.map (fun c => ⟨c.1, c.2 = 0, true⟩))

section
variable {s : State} {t : Transaction} (hw : s.link.waiting = []) (ht : s.plant.current = some t) (hl : s.plant.line = .window)
include hw ht hl

section
variable (hf : t.failed = false) (ha : t.address ≤ 4095) {role flags battery : Byte} {level : Int} {supply : Nat}
include hf ha

/-- A STATUS in reply hands its fields on, then work is chosen. -/
theorem exec_status (hp : t.purpose = .probe ∨ t.purpose = .craftPoll) (hr : if t.toTap then role = 4 else role ≠ 4) {u : State}
    (hu : handOutcome t (some (statusFrame t.address role flags battery level supply)) (lineFreed s) = u)
    (hk : u.link.waiting = s.link.waiting) :
    exec (frameReceived (statusFrame t.address role flags battery level supply)) s = .next (kick u) :=
  exec_answered hw ht hl (statusFrame_replies (replyKindOf_status hp) hf ha hr flags battery level supply) hu hk

variable (h1 : -32768 ≤ level) (h2 : level ≤ 32767) (hs : supply ≤ 65535)
include h1 h2 hs

/-- What follows a probe (R75, R76, R81, R82). -/
theorem exec_probe (hp : t.purpose = .probe) (htap : t.toTap = true) :
    exec .replyWindowExpiry s = .next (kick (lineFreed s))
    ∧ (role = 4 → (TapGone s t →
        exec (frameReceived (statusFrame t.address role flags battery level supply)) s = .next (kick (lineFreed s)))
      ∧ ∀ x, tget s.plant.taps t.index = some x → x.address = t.address →
        exec (frameReceived (statusFrame t.address role flags battery level supply)) s
          = .next (kick (tapHeard t.index (flags.getLsbD 2) x 0 (fun u => u) (lineFreed s)))) := by
  refine ⟨exec_silent hw ht hl (probe_silent hp) rfl, fun hr => ?_⟩
  replace hr : if t.toTap then role = 4 else role ≠ 4 := by rwa [if_pos htap]
  refine ⟨fun hg => ?_, fun x hx hxa => ?_⟩
  · exact exec_status hw ht hl hf ha (.inl hp) hr (probe_gone (s := lineFreed s) hp hg _) rfl
  · have hheard := probe_heard (s := lineFreed s) hp hx hxa (statusFrame t.address role flags battery level supply)
    rw [statusFrame_tamper h1 h2 hs] at hheard
    exact exec_status hw ht hl hf ha (.inl hp) hr hheard (tapHeard_waiting _ _ fun _ => rfl)

/-- What follows a craft POLL of a tap (R76, R81, R82, R127). -/
theorem exec_tapPoll (hp : t.purpose = .craftPoll) (htap : t.toTap = true) :
    exec .replyWindowExpiry s = .next (kick (silentTold t (lineFreed s)))
    ∧ (role = 4 → (TapGone s t → exec (frameReceived (statusFrame t.address role flags battery level supply)) s
        = .next (kick (tapPollTold t (flags.getLsbD 2) (lineFreed s))))
      ∧ ∀ x, tget s.plant.taps t.index = some x → x.address = t.address →
        exec (frameReceived (statusFrame t.address role flags battery level supply)) s
          = .next (kick (tapPollTold t (flags.getLsbD 2)
            (tapHeard t.index (flags.getLsbD 2) x 1 (fun u => u) (lineFreed s))))) := by
  refine ⟨exec_silent hw ht hl (tapPoll_silent hp htap) (printLine_waiting ..), fun hr => ?_⟩
  replace hr : if t.toTap then role = 4 else role ≠ 4 := by rwa [if_pos htap]
  refine ⟨fun hg => ?_, fun x hx hxa => ?_⟩
  · have hgone := tapPoll_gone (s := lineFreed s) hp htap hg (statusFrame t.address role flags battery level supply)
    rw [statusFrame_tamper h1 h2 hs] at hgone
    exact exec_status hw ht hl hf ha (.inr hp) hr hgone (printLine_waiting ..)
  · have hheard := tapPoll_heard (s := lineFreed s) hp htap hx hxa (statusFrame t.address role flags battery level supply)
    rw [statusFrame_tamper h1 h2 hs] at hheard
    exact exec_status hw ht hl hf ha (.inr hp) hr hheard ((printLine_waiting ..).trans (tapHeard_waiting _ _ fun _ => rfl))

/-- What follows a craft POLL of a transponder (R76, R88, R127). -/
theorem exec_xpPoll (hp : t.purpose = .craftPoll) (htap : t.toTap = false) :
    exec .replyWindowExpiry s = .next (kick (silentTold t (xpJudged t none (lineFreed s))))
    ∧ (role ≠ 4 → exec (frameReceived (statusFrame t.address role flags battery level supply)) s
      = .next (kick (printLine [word "OK", word "POLL", dec t.address, roleWord role.toNat, decInt level, dec supply,
        dec battery.toNat, flagWord (flags.getLsbD 0), flagWord (flags.getLsbD 1), flagWord (flags.getLsbD 2)]
        (xpJudged t (some ⟨role.toNat, flags.getLsbD 0, flags.getLsbD 1, flags.getLsbD 2, level, supply, battery.toNat⟩)
          (lineFreed s))))) := by
  refine ⟨exec_silent hw ht hl (xpPoll_silent hp htap) ((printLine_waiting ..).trans (xpJudged_waiting ..)), fun hr => ?_⟩
  exact exec_status hw ht hl hf ha (.inr hp) (by rwa [if_neg (by simp [htap])])
    (xpPoll_heard hp htap (statusOfChars_frame t.address role flags battery level supply h1 h2 hs))
    ((printLine_waiting ..).trans (xpJudged_waiting ..))

end

/-- What follows a craft TEST (R76, R81 to R83, R127). -/
theorem exec_test (hf : t.failed = false) (ha : t.address ≤ 4095) (hport : t.port ≤ 3) (b : Bool) (hp : t.purpose = .craftTest) :
    (TapGone s t → exec .replyWindowExpiry s = .next (kick (silentTold t (lineFreed s)))
      ∧ exec (frameReceived (ackFrame t b)) s = .next (kick (testTold t b (lineFreed s))))
    ∧ ∀ x, tget s.plant.taps t.index = some x → x.address = t.address →
      exec .replyWindowExpiry s = .next (kick (silentTold t
        (reparkPort (t.index, t.port) (testPort (t.index, t.port) none (lineFreed s)))))
      ∧ exec (frameReceived (ackFrame t b)) s = .next (kick (testTold t b (reparkPort (t.index, t.port)
        (tapHeard t.index b x 2 (testPort (t.index, t.port) (some t.content)) (lineFreed s))))) := by
  have hbit : (fld (ackFrame t b) 2 1).testBit 6 = b := by
    rw [fld_ackFrame hport]
    exact (ackSwitches_bits hport b).2.2.1
  have hreply := ackFrame_repliesTest hp hf ha hport b
  refine ⟨fun hg => ⟨exec_silent hw ht hl (test_gone_silent (s := lineFreed s) hp hg) (printLine_waiting ..), ?_⟩,
    fun x hx hxa => ⟨?_, ?_⟩⟩
  · have hgone := test_gone (s := lineFreed s) hp hg (ackFrame t b)
    rw [hbit] at hgone
    exact exec_answered hw ht hl hreply hgone (printLine_waiting ..)
  · exact exec_silent hw ht hl (test_silent (s := lineFreed s) hp hx hxa)
      ((printLine_waiting ..).trans (reparkPort_waiting ..))
  · have hheard := test_heard (s := lineFreed s) hp hx hxa (ackFrame t b)
    rw [hbit] at hheard
    exact exec_answered hw ht hl hreply hheard ((printLine_waiting ..).trans
      ((reparkPort_waiting ..).trans (tapHeard_waiting _ _ fun _ => rfl)))

end

end Sys2Proof.Safety
end

