-- ==== Proofs/PlantWork.lean ====
section
/-! PROOFS. O5: the choice of the plant line's work and what follows the outcomes of probes and craft requests. -/

namespace Sys2Proof.Safety

open Sys2Proof.Machine

/-! ## What the choice changes (R71) -/

/-- A choice that is made or not. -/
theorem kick_only (s : State) : OnlyChoice s (kick s) := by
  unfold kick
  split
  · exact choose_only s
  · exact .refl s

/-- What the choice may do to the ports, the line, the watches and the reports. -/
theorem kick_offered (s : State) : Offered (∃ r, .craft r ∈ s.plant.urgent) true s (kick s) := by
  unfold kick
  split
  · exact choose_offered s
  · exact .refl ..

/-! ## The slot and the state from which the choice starts (R70, R74) -/

/-- The positions of a round in the order in which POLL_SHARE makes them poll slots. -/
theorem pollSlot_iff (s : State) : s.plant.position ∈ [0, 2, 4, 6, 1, 3, 5].take (shareNow s) ↔ PollSlot s := by
  unfold PollSlot isPollSlot
  exact List.contains_iff_mem.symm

/-- The choice starts from the state itself but for the cursor and the flag. -/
theorem ChosenFrom.cursor {s v : State} (h : ChosenFrom s v) : ∃ c d, v = withCursor c d s := by
  by_cases hc : CycleCounts s
  · exact ⟨_, _, (h.1 hc).trans (completeCycle_cursor s)⟩
  · exact ⟨s.plant.cursor, s.plant.probeDue, h.2 hc⟩

/-! ## Command work that comes first (R72, R77, R78, R83, R115, R127) -/

/-- A port command at the head of the queues is held where its tap is guarded and a place of the held list is empty: its report is
made, and the choice goes on (R115). -/
def HeldFirst (s : State) (j q n : Nat) (t : Tap) (r : Port) : Prop :=
  ∀ (e : WatchEntry) (l₁ l₂ : List (Option Held)), guardFor s t.address = some n → s.outage.watches[n]? = some e →
    s.outage.held = l₁ ++ none :: l₂ → none ∉ l₁ →
    (s.outage.owner = .host → kick s = kick (notice nkGuardHit (e.watch.any (·.urgent))
      (u8 n ++ u8 l₁.length ++ u16 j ++ u16 t.address ++ u8 q ++ u8 (pclassNum r.cls) ++ opt 4 (s.time.clock.map (·.1)))
      (heldIn j q n t r e l₁ l₂ s)))
    ∧ (s.outage.owner = .craft → kick s = kick (printLine
      [word "GUARD", dec n, dec l₁.length, dec t.address, dec q, pclassWord r.cls] (heldIn j q n t r e l₁ l₂ s)))

section
variable {s v : State} (hrun : s.link.op = .run) (hidle : s.plant.line = .idle) (hv : ChosenFrom s v)
  (hc : ¬ PollSlot s ∨ (enabledXps s = [] ∧ v.plant.probeDue = false))
include hv hc

/-- Where some command work can start, command work comes first. -/
theorem commandsFirst (hb : ¬ Barren s) : v = opened s ∧ CommandSlot (opened s) :=
  ⟨hv.eq_opened hb, commandSlot_opened (hv.eq_opened hb) hc⟩

include hrun hidle

section
variable {j q : Nat} {t : Tap} {r : Port} (ht : tget s.plant.taps j = some t) (hr : t.ports[q]? = some r)
include ht hr

/-- The first entry of the URGENT queue that does not wait starts. -/
theorem startsFirst_urgent {l l' : List UrgentItem} {m : Bool} (hq : s.plant.urgent = l ++ .port j q m :: l') (hl : PassedOver s l)
    (hg : m = true ∨ guardFor s t.address = none) : kick s = portStarted j q t r v := by
  have hb : ¬ Barren s := by
    refine not_barren_of_urgent (e := .port j q m) (by rw [hq]; simp) ?_
    rintro j' q' h
    cases h
    exact fun hw => hw.guarded ht (hg.resolve_left Bool.false_ne_true)
  obtain ⟨rfl, hfirst⟩ := commandsFirst hv hc hb
  exact kick_urgentPort ht hr hrun hidle hfirst hq hl hg

/-- Where the URGENT queue waits, the first entry of the REFRESH queue that does not wait starts. -/
theorem startsFirst_refresh {l l' : List (Nat × Nat)} (hu : PassedOver s s.plant.urgent) (hq : s.plant.refresh = l ++ (j, q) :: l')
    (hl : ∀ x ∈ l, PortWaits s x.1) (hg : guardFor s t.address = none) : kick s = portStarted j q t r v := by
  have hb : ¬ Barren s := not_barren_of_refresh (p := (j, q)) (by rw [hq]; simp) fun hw => hw.guarded ht hg
  obtain ⟨rfl, hfirst⟩ := commandsFirst hv hc hb
  exact kick_refreshPort ht hr hrun hidle hfirst hu hq hl hg

omit hrun hidle in
/-- What the hold of a command reports, by the owner of the watch table. -/
theorem heldFirst_of_kick {n : Nat} (hb : none ∈ s.outage.held → ¬ Barren s)
    (h : ∀ l₁ l₂, CommandSlot (opened s) → guardFor s t.address = some n → s.outage.held = l₁ ++ none :: l₂ → none ∉ l₁ →
      kick s = kick (holdCommand n l₁.length (j, q) t.address s)) : HeldFirst s j q n t r := by
  intro e l₁ l₂ hg he hh hn
  obtain ⟨-, hfirst⟩ := commandsFirst hv hc (hb (by rw [hh]; simp))
  rw [h l₁ l₂ hfirst hg hh hn]
  exact ⟨fun ho => by rw [holdCommand_host ht hr hg he hh ho], fun ho => by rw [holdCommand_craft ht hr hg he hh ho]⟩

/-- A guarded command at the head of the URGENT queue is held. -/
theorem heldFirst_urgent {n : Nat} {l : List UrgentItem} (hq : s.plant.urgent = .port j q false :: l) (hl : ∀ m, .port j q m ∉ l) :
    HeldFirst s j q n t r :=
  heldFirst_of_kick hv hc ht hr
    (fun hn => not_barren_of_urgent (e := .port j q false) (by rw [hq]; simp) fun _ _ _ hw => hw.1 hn)
    fun _ _ hfirst hg hh hn => kick_holds_urgent hrun hidle hfirst ht hg hh hn hq hl

/-- With the URGENT queue empty, a guarded command at the head of the REFRESH queue is held. -/
theorem heldFirst_refresh {n : Nat} {l : List (Nat × Nat)} (hu : s.plant.urgent = []) (hq : s.plant.refresh = (j, q) :: l)
    (hl : (j, q) ∉ l) : HeldFirst s j q n t r :=
  heldFirst_of_kick hv hc ht hr (fun hn => not_barren_of_refresh (p := (j, q)) (by rw [hq]; simp) fun hw => hw.1 hn)
    fun _ _ hfirst hg hh hn => kick_holds_refresh hrun hidle hfirst ht hg hh hn hu hq hl

end

section
variable {l l' : List UrgentItem} (hl : PassedOver s l) (hl' : ∀ x, .craft x ∉ l')
include hl hl'

/-- A craft POLL starts for the tap at its address, else the transponder, else it is given up (R127). -/
theorem craftFirst_poll {a : Nat} (hq : s.plant.urgent = l ++ .craft (.poll a) :: l') :
    (∀ i x, tapAt s a = some (i, x) → kick s = startTx .craftPoll a i true 0 noContent { v with plant.urgent := l ++ l' })
    ∧ (∀ i x, tapAt s a = none → xpAt s a = some (i, x) →
      kick s = startTx .craftPoll a i false 0 noContent { v with plant.urgent := l ++ l' })
    ∧ (tapAt s a = none → xpAt s a = none →
      kick s = kick (printLine [word "ERR", word "NOT_LOADED"] { s with plant.urgent := l ++ l' })) := by
  obtain ⟨rfl, hfirst⟩ :=
    commandsFirst hv hc (not_barren_of_urgent (e := .craft (.poll a)) (by rw [hq]; simp) fun _ _ h => by cases h)
  refine ⟨fun i x ht => ?_, fun i x ht hx => ?_, fun ht hx => ?_⟩
  · exact kick_craft_starts hrun hidle hfirst hq hl hl' fun c d => offerCraft_pollTap (s := withCursor c d s) ht
  · exact kick_craft_starts hrun hidle hfirst hq hl hl' fun c d => offerCraft_pollXp (s := withCursor c d s) ht hx
  · exact kick_craft_fails hrun hidle hfirst hq hl hl' (craftBlocked_poll_none ht hx)

/-- A craft TEST starts where the segment of its tap is HELD, else it is given up (R83, R127). -/
theorem craftFirst_test {a q : Nat} {on : Bool} (hq : s.plant.urgent = l ++ .craft (.test a q on) :: l') :
    (∀ i x, tapAt s a = some (i, x) → serviceOf s x.segment = .held →
      kick s = startTx .craftTest a i true q (testContent on) { v with plant.urgent := l ++ l' })
    ∧ (tapAt s a = none → kick s = kick (printLine [word "ERR", word "NOT_LOADED"] { s with plant.urgent := l ++ l' }))
    ∧ (∀ i x, tapAt s a = some (i, x) → serviceOf s x.segment ≠ .held →
      kick s = kick (printLine [word "ERR", word "NOT_HELD"] { s with plant.urgent := l ++ l' })) := by
  obtain ⟨rfl, hfirst⟩ :=
    commandsFirst hv hc (not_barren_of_urgent (e := .craft (.test a q on)) (by rw [hq]; simp) fun _ _ h => by cases h)
  refine ⟨fun i x ht hs => ?_, fun ht => ?_, fun i x ht hs => ?_⟩
  · exact kick_craft_starts hrun hidle hfirst hq hl hl' fun c d => offerCraft_test (s := withCursor c d s) ht hs
  · exact kick_craft_fails hrun hidle hfirst hq hl hl' (craftBlocked_test_none ht)
  · exact kick_craft_fails hrun hidle hfirst hq hl hl' (craftBlocked_test_free ht hs)

end

end

/-- Settles O5: what the choice may change is one relation that every offer of work keeps; what it takes up is the first work of
the slot that can start; and each outcome is read off the reply received. -/
theorem choiceOfPlantWork : Obligations.ChoiceOfPlantWork := by
  refine ⟨fun s => ?_, fun s v hrun hidle => ?_, fun t role flags battery level supply b s hw ht hl hf _ ha hport h1 h2 hs => ?_⟩
  · intro guards t
    obtain ⟨hports, hline, -, hwatches, hquiet⟩ := kick_offered s
    refine ⟨kick_only s, kick_of_not_idle, fun q r' hq => ?_, hwatches, fun hg => ?_, hline.imp_right And.right⟩
    · obtain ⟨r, hr, hsame | hheld | ⟨-, hsent⟩⟩ := hports q r' hq
      · exact ⟨r, hr, .inl hsame⟩
      · exact ⟨r, hr, .inr (.inl hheld)⟩
      · exact ⟨r, hr, .inr (.inr hsent)⟩
    · exact (hquiet hg).imp_right (And.imp_right fun hcraft h => hcraft (not_exists.mpr h))
  · intro p xps lost next share pollSlot guard waits passed barren cycle hcycle hnone due toCommands without put starts holds
    have hv : ChosenFrom s v := ⟨hcycle, hnone⟩
    have hslot : pollSlot ↔ PollSlot s := pollSlot_iff s
    have commands : toCommands → ¬ PollSlot s ∨ (enabledXps s = [] ∧ v.plant.probeDue = false) := Or.imp_left (mt hslot.mpr)
    refine ⟨fun h => ?_, kick_nothing hrun hidle, fun h j q t r ht hr => ?_, fun h l r l' hq hl hl' => ?_⟩
    · have hwork : PollSlot s ∨ Barren s := h.imp_left hslot.mp
      refine ⟨fun i x hd hi hx => kick_probe hrun hidle hv hwork hd hi hx, fun i x hd hi hx => ?_, fun hd hx hn => ?_⟩
      · obtain rfl : v = s := hnone fun hc => ne_nil_of_above hi hc.1
        exact kick_poll hrun hidle hwork hd hi hx
      · obtain rfl : v = s := hnone fun hc => hx hc.1
        exact kick_wraps hrun hidle hwork hd hx hn
    · have hc := commands h
      obtain ⟨c, d, rfl⟩ := hv.cursor
      exact ⟨fun l m l' => startsFirst_urgent hrun hidle hv hc ht hr, fun l l' => startsFirst_refresh hrun hidle hv hc ht hr,
        fun n l hq hl _ => heldFirst_urgent hrun hidle hv hc ht hr hq hl, fun n l => heldFirst_refresh hrun hidle hv hc ht hr⟩
    · cases r with
      | poll a => exact craftFirst_poll hrun hidle hv (commands h) hl hl' hq
      | test a q on => exact craftFirst_test hrun hidle hv (commands h) hl hl' hq
  · have hpoll := exec_xpPoll hw ht hl hf ha (role := role) (flags := flags) (battery := battery) h1 h2 hs
    refine ⟨exec_probe hw ht hl hf ha h1 h2 hs, exec_tapPoll hw ht hl hf ha h1 h2 hs, fun hp htap => ?_,
      exec_test hw ht hl hf ha hport b⟩
    refine ⟨fun u hu => ?_, fun hr u hu => ?_⟩
    · obtain rfl := eq_xpJudged (s := lineFreed s) hu
      exact (hpoll hp htap).1
    · obtain rfl := eq_xpJudged (s := lineFreed s) hu
      exact (hpoll hp htap).2 hr

end Sys2Proof.Safety
end

