-- ==== Proofs/OrderInFlight.lean ====
section
/-! PROOFS. The order in flight is none of the telemetry monitor's: the recomputation of service states with its hand-offs, notices
and records, and the re-derivation of ports neither look at it nor change it (R100, R178), which each theorem named `…_flightFree`
says of one operation. -/

namespace Sys2Proof.Safety

open Sys2Proof.Machine

/-! ## Operations that do not look at the order in flight -/

/-- The state with an order in flight, or with none. -/
def withFlight (f : Option TaggedOrder) (s : State) : State := { s with link.inFlight := f }

/-- An operation neither looks at the order in flight nor changes it. -/
def FlightFree (op : State → State) : Prop := ∀ f s, op (withFlight f s) = withFlight f (op s)

/-- Such an operation leaves the order in flight. -/
theorem FlightFree.inFlight {op : State → State} (h : FlightFree op) (s : State) : (op s).link.inFlight = s.link.inFlight :=
  congrArg (·.link.inFlight) (show op s = withFlight s.link.inFlight (op s) from h s.link.inFlight s)

/-- It does to the state in which an order has been taken what it does to the state before. -/
theorem FlightFree.taken {op : State → State} (h : FlightFree op) (tag : Byte) (o : Order) (s : State) :
    op (taken tag o s) = taken tag o (op s) := h _ s

/-- So do two one after the other. -/
theorem FlightFree.comp {op op' : State → State} (h : FlightFree op) (h' : FlightFree op') : FlightFree (fun s => op' (op s)) :=
  fun f s => (congrArg op' (h f s)).trans (h' f (op s))

/-- So do several, one for each member of a list. -/
theorem FlightFree.foldl {α : Type} {op : State → α → State} (h : ∀ a, FlightFree (fun s => op s a)) (l : List α) :
    FlightFree (fun s => l.foldl op s) := by
  induction l with
  | nil => exact fun _ _ => rfl
  | cons a l ih => exact (h a).comp ih

/-! ## Notices and records (R150 to R152, R181) -/

theorem pump_flightFree : FlightFree pump := by
  intro f s
  unfold pump withFlight
  dsimp only
  repeat' split
  all_goals rfl

theorem notice_flightFree (kind : Nat) (urgent : Bool) (body : List Byte) : FlightFree (notice kind urgent body) := by
  intro f s
  have hurgentOn : (withFlight f s).link.urgentOn = s.link.urgentOn := rfl
  have hroutineOn : (withFlight f s).link.routineOn = s.link.routineOn := rfl
  have hurgent : (withFlight f s).link.urgent = s.link.urgent := rfl
  have hroutine : (withFlight f s).link.routine = s.link.routine := rfl
  unfold notice
  rw [hurgentOn, hroutineOn, hurgent, hroutine]
  split
  · split
    · rfl
    · dsimp only
      split
      · exact pump_flightFree f { s with link.urgent := s.link.urgent ++ [⟨kind, true, s.time.clock, body⟩] }
      · split
        · rfl
        · rename_i rs _
          exact pump_flightFree f
            { s with link.urgent := s.link.urgent ++ [⟨kind, true, s.time.clock, body⟩], link.routine := rs, link.gap := true }
  · split
    · rfl
    · split
      · exact pump_flightFree f { s with link.routine := s.link.routine ++ [⟨kind, false, s.time.clock, body⟩] }
      · rfl

theorem lowCheck_flightFree : FlightFree lowCheck := by
  intro f s
  have hopen : openBank (withFlight f s) = openBank s := rfl
  have hqueue : (withFlight f s).store = s.store := rfl
  have hfree : freeSlots (withFlight f s) = freeSlots s := rfl
  unfold lowCheck
  rw [hopen, hqueue, hfree]
  cases openBank s with
  | none => rfl
  | some i =>
    cases behindOpened s.store.queue with
    | some l => rfl
    | none =>
      dsimp only
      split
      · exact notice_flightFree _ _ _ f { s with store.lowMark := true }
      · rfl

theorem loseRecord_flightFree (kind : Nat) : FlightFree (loseRecord kind) := by
  intro f s
  have hopen : openBank (withFlight f s) = openBank s := rfl
  unfold loseRecord
  rw [hopen]
  cases openBank s with
  | none => exact notice_flightFree _ _ _ f s
  | some i =>
    have hset : (overflowSet (bank (withFlight f s) i) || overflowQueued (withFlight f s) i)
        = (overflowSet (bank s i) || overflowQueued s i) := rfl
    dsimp only
    rw [hset]
    split
    · exact notice_flightFree _ _ _ f s
    · exact notice_flightFree _ _ _ f (joinItem (.header i .overflow) s)

theorem appendAuto_flightFree (kind : Nat) (fields : List Byte) (o : Origin) :
    FlightFree (fun s => (appendAuto kind fields o s).1) := by
  intro f s
  have hfault : (withFlight f s).store.fault = s.store.fault := rfl
  have hfree : freeSlots (withFlight f s) = freeSlots s := rfl
  dsimp only [appendAuto]
  rw [hfault, hfree]
  split
  · rfl
  · split
    · exact loseRecord_flightFree kind f s
    · exact lowCheck_flightFree f (recordJoined (recordBody kind (minuteOf s) fields) o s)

/-! ## The outage log (R103 to R106) -/

/-- The state with a record of the outage log removed, and its OUTAGE record in the append queue of no record any more (R103). -/
def outageRemoved (r : Outage) (s : State) : State := { s with
  outage.records := s.outage.records.filter (fun x => x.id ≠ r.id)
  store.queue := s.store.queue.map (fun i => match i with
    | .record b (.outage (some k)) => if k = r.id then .record b (.outage none) else i
    | i => i) }

theorem evict_flightFree : FlightFree evict := by
  intro f s
  have hlog : (withFlight f s).outage = s.outage := rfl
  unfold evict
  rw [hlog]
  split
  · rfl
  · split
    · rfl
    · rename_i r _
      dsimp only
      split
      · rfl
      · exact notice_flightFree _ _ _ f (outageRemoved r s)

/-- The outage of a segment is one of its own (R104). -/
def ownOutage (n : Nat) (g : Segment) (s : State) : Bool := g.condition = .outage && !parentDark s n

/-- The record that a segment's outage opens (R103, R104). -/
def openedRecord (n : Nat) (cause : HandCause) (g : Segment) (s : State) : Outage :=
  ⟨s.outage.nextId, n,
    if ownOutage n g s && (cause = .reply || cause = .miss || cause = .reload) then g.missMinute.getD (minuteOf s) else minuteOf s,
    none, if ownOutage n g s then .root else .inherited (rootRecord s n), false, false⟩

/-- The matter of OUTAGE_OPEN (R104). -/
def openedBytes (cause : HandCause) (minute : Nat) (r : Outage) : List Byte :=
  u8 r.id ++ u8 r.segment ++ (match r.cause with | .root => u8 0 ++ absent 1 | .inherited i => u8 1 ++ u8 i) ++ u32 r.start
    ++ u32 minute ++ u8 (handCauseNum cause)

/-- The state with the next outage id advanced past those of the log (R103). -/
def idAdvanced (s : State) : State :=
  { s with outage.nextId := freeOutageId 65 s.outage.records ((s.outage.nextId + 1) % 256) }

/-- The state with a record in the log, open for its segment. -/
def outageJoined (r : Outage) (s : State) : State :=
  modSeg r.segment (fun g => { g with openOutage := some r.id }) { s with outage.records := s.outage.records ++ [r] }

/-- What a loaded segment that became DARK opens. -/
theorem openOutage_eq {s : State} {n : Nat} {g : Segment} (hg : segOf s n = some g) (cause : HandCause) :
    openOutage n cause s = notice nkOutageOpen (ownOutage n g s) (openedBytes cause (minuteOf s) (openedRecord n cause g s))
      (outageJoined (openedRecord n cause g s) (evict (idAdvanced s))) := by
  unfold openOutage
  rw [hg]
  rfl

theorem openOutage_flightFree (n : Nat) (cause : HandCause) : FlightFree (openOutage n cause) := by
  intro f s
  have hseg : segOf (withFlight f s) n = segOf s n := rfl
  have hevict : evict (idAdvanced (withFlight f s)) = withFlight f (evict (idAdvanced s)) := evict_flightFree f (idAdvanced s)
  cases hg : segOf s n with
  | none =>
    unfold openOutage
    rw [hseg, hg]
  | some g =>
    rw [openOutage_eq (hseg.trans hg), openOutage_eq hg, hevict]
    exact notice_flightFree _ _ _ f (outageJoined (openedRecord n cause g s) (evict (idAdvanced s)))

/-- The record of an outage that ends (R105). -/
def closedRecord (after : Service) (minute : Nat) (r : Outage) : Outage := { r with stop := some (minute, closeReason after) }

/-- The state with a record of the log written, and no outage open for its segment. -/
def outageEnded (n id : Nat) (r : Outage) (s : State) : State :=
  modSeg n (fun g => { g with openOutage := none })
    { s with outage.records := s.outage.records.map (fun x => if x.id = id then r else x) }

theorem closeOutage_flightFree (n : Nat) (after : Service) : FlightFree (closeOutage n after) := by
  intro f s
  have hseg : segOf (withFlight f s) n = segOf s n := rfl
  have hlog (id : Nat) : outageOf (withFlight f s) id = outageOf s id := rfl
  unfold closeOutage
  rw [hseg]
  cases (segOf s n).bind (·.openOutage) with
  | none => rfl
  | some id =>
    dsimp only
    rw [hlog]
    cases outageOf s id with
    | none => rfl
    | some r =>
      have hstored := appendAuto_flightFree rkOutage
        (outageFields n id r.start (max r.start (currentOpenMinute (outageEnded n id (closedRecord after (minuteOf s) r) s)))
          (minuteOf s) (qualifies s.params.creditThreshold (minuteOf s - r.start)))
        (.outage (some id)) f (outageEnded n id (closedRecord after (minuteOf s) r) s)
      exact (congrArg (notice nkOutageClose false _) hstored).trans (notice_flightFree _ _ _ f _)

theorem takeHandOff_flightFree (cause : HandCause) (h : HandOff) : FlightFree (fun s => takeHandOff cause s h) := by
  intro f s
  unfold takeHandOff
  split
  · exact openOutage_flightFree _ _ f s
  · split
    · exact closeOutage_flightFree _ _ f s
    · rfl

/-! ## The ports (R54, R58, R59) -/

theorem reparkTaps_flightFree (taps : List Nat) : FlightFree (reparkTaps taps) := by
  intro f s
  have hplant : (reparkTaps taps (withFlight f s)).plant = (reparkTaps taps s).plant :=
    (reparkPorts_move (r := s) (u := s) (v := withFlight f s) (portsOf taps) (fun _ => rfl) rfl).trans
      (reparkPorts_move (r := s) (u := s) (portsOf taps) (fun _ => rfl) rfl).symm
  obtain ⟨pl, hpl⟩ := reparkTaps_plant taps (withFlight f s)
  obtain ⟨pl', hpl'⟩ := reparkTaps_plant taps s
  rw [hpl, hpl'] at hplant ⊢
  exact congrArg (fun p => ({ withFlight f s with plant := p } : State)) hplant

theorem pend_flightFree (c : PClass) (p : Nat × Nat) : FlightFree (pend c p) := by
  intro f s
  have hpark : parkHoldsAt (withFlight f s) p.1 = parkHoldsAt s p.1 := rfl
  unfold pend
  rw [hpark]
  split
  · rfl
  · cases c <;> rfl

theorem markPort_flightFree (c : PClass) (p : Nat × Nat) : FlightFree (markPort c p) := by
  intro f s
  have hport : portOf (withFlight f s) p = portOf s p := rfl
  unfold markPort
  rw [hport]
  cases portOf s p with
  | none => rfl
  | some r =>
    dsimp only
    rw [pend_flightFree c p f s]
    cases r.sync with
    | pending =>
      dsimp only
      split
      · rfl
      · split <;> rfl
    | dropped =>
      dsimp only
      split <;> rfl
    | _ => rfl

theorem rederive_flightFree (c : PClass) (p : Nat × Nat) : FlightFree (rederive c p) := by
  intro f s
  have htap : tget (withFlight f s).plant.taps p.1 = tget s.plant.taps p.1 := rfl
  have hport : portOf (withFlight f s) p = portOf s p := rfl
  have hcontent (n : Nat) (slot : Option Nat) : deriveContent (withFlight f s) n slot = deriveContent s n slot := rfl
  unfold rederive
  rw [htap, hport]
  split
  · dsimp only
    rw [hcontent]
    split
    · rfl
    · exact markPort_flightFree c p f (modPort p _ s)
  · rfl

theorem rederiveSegment_flightFree (n : Nat) : FlightFree (rederiveSegment n) := fun f s => by
  unfold rederiveSegment
  exact FlightFree.foldl (op := fun s p => rederive .refresh p s) (rederive_flightFree .refresh)
    (portsOf ((s.plant.taps.filter (fun t => t.2.segment = n)).map Prod.fst)) f s

/-! ## The recomputation (R98 to R100) -/

/-- The walk of the segments concerned looks at no link. -/
theorem servicesWalked_flight (f : Option TaggedOrder) (s : State) (l : List Nat) :
    servicesWalked (withFlight f s) l = (withFlight f (servicesWalked s l).1, (servicesWalked s l).2) := by
  induction l using List.reverseRecOn with
  | nil => rfl
  | append_singleton l n ih =>
    rw [servicesWalked_snoc, servicesWalked_snoc, ih]
    have hseg : segOf (withFlight f (servicesWalked s l).1) n = segOf (servicesWalked s l).1 n := rfl
    have hrule (g : Segment) : serviceFor (withFlight f (servicesWalked s l).1) n g = serviceFor (servicesWalked s l).1 n g := rfl
    unfold recomputeService
    dsimp only
    rw [hseg]
    cases segOf (servicesWalked s l).1 n with
    | none => rfl
    | some g =>
      dsimp only
      rw [hrule]
      split <;> rfl

/-- The service states are recomputed, and handed on, alike whatever order is in flight. -/
theorem recomputeServices_flight (ns : List Nat) (cause : HandCause) (f : Option TaggedOrder) (s : State) :
    recomputeServices ns cause (withFlight f s)
      = (withFlight f (recomputeServices ns cause s).1, (recomputeServices ns cause s).2) := by
  have hmet : affected (withFlight f s) ns = affected s ns := rfl
  have htaps (hs : List HandOff) : tapsHanded hs (withFlight f s) = tapsHanded hs s := rfl
  have hlog : handedToLog ns cause (withFlight f s) = withFlight f (handedToLog ns cause s) := by
    unfold handedToLog
    rw [hmet, servicesWalked_flight]
    exact FlightFree.foldl (takeHandOff_flightFree cause) _ f _
  rw [recomputeServices_eq, recomputeServices_eq, hmet, servicesWalked_flight, hlog, htaps, reparkTaps_flightFree]

/-- So are the conditions, and the service states that follow. -/
theorem recomputeSegments_flightFree (ns : List Nat) (cause : HandCause) : FlightFree (recomputeSegments ns cause) := by
  intro f s
  have hconditions := FlightFree.foldl (op := recomputeCondition) (fun _ _ _ => rfl) ns f s
  dsimp only at hconditions
  unfold recomputeSegments
  rw [hconditions, recomputeServices_flight]

/-- The recomputation of service states leaves the clock and the orders that wait. -/
theorem recomputeServices_keeps (ns : List Nat) (cause : HandCause) (s : State) :
    (recomputeServices ns cause s).1.time = s.time
      ∧ (recomputeServices ns cause s).1.link.waiting = s.link.waiting := by
  obtain ⟨pl, hpl⟩ := reparkTaps_plant (tapsHanded (servicesWalked s (affected s ns)).2 s) (handedToLog ns cause s)
  obtain ⟨l, o, st, segs, hlog, hw, -⟩ :=
    takeHandOffs_log cause (servicesWalked s (affected s ns)).2 (servicesWalked s (affected s ns)).1
  rw [recomputeServices_eq, hpl, handedToLog, hlog]
  rw [(walked s (affected s ns)).only] at hw ⊢
  exact ⟨rfl, hw⟩

/-- The notice of a transponder's change does not look at the order in flight (R93). -/
theorem xpNotice_flightFree (i : Nat) (old new : Transponder) (cause : HandCause) : FlightFree (xpNotice i old new cause) := by
  intro f s
  unfold xpNotice
  split
  · rfl
  · exact notice_flightFree _ _ _ f s

end Sys2Proof.Safety
end

