-- ==== Proofs/SegmentHolds.lean ====
section
/-! PROOFS. HOLD and FREE at the craft port, and FORCE-FREE of the host (R123 to R125; O50). -/

namespace Sys2Proof.Safety

open Sys2Proof.Machine

/-! ## What is told of a hold (R122, R125) -/

/-- A line printed does not look at the order in flight. -/
theorem printLine_flightFree (ws : List Text) : FlightFree (printLine ws) := by
  intro f s
  have hcraft : (withFlight f s).craft = s.craft := rfl
  unfold printLine print
  rw [hcraft]
  repeat' split
  all_goals rfl

/-- CRAFT_HOLD as it is queued at a clock (R125). -/
def holdTold (clock : Option (Nat × Nat)) (n action : Nat) (hs : List HandOff) (s : State) : State :=
  notice nkCraftHold false (u8 n ++ u8 action
    ++ listOf (fun h => u8 h.segment ++ u8 (serviceNum h.before) ++ u8 (serviceNum h.after)) hs
    ++ u16 (hs.filter (fun h => h.before = .dark)).length ++ u16 (hs.filter (fun h => h.after = .dark)).length
    ++ opt 4 (clock.map (·.1))) s

/-- CRAFT_HOLD does not look at the order in flight. -/
theorem holdTold_flightFree (clock : Option (Nat × Nat)) (n action : Nat) (hs : List HandOff) :
    FlightFree (holdTold clock n action hs) := fun f s => notice_flightFree _ _ _ f s

/-- CRAFT_HOLD leaves the orders that wait. -/
theorem holdTold_waiting (clock : Option (Nat × Nat)) (n action : Nat) (hs : List HandOff) (s : State) :
    (holdTold clock n action hs s).link.waiting = s.link.waiting := notice_waiting ..

/-- CRAFT_HOLD bears the clock of the state in which it is queued. -/
theorem holdNotice_eq {s t : State} (h : t.time = s.time) (n action : Nat) (hs : List HandOff) :
    holdNotice n action hs t = holdTold s.time.clock n action hs t := by
  unfold holdNotice holdTold
  rw [h]

/-! ## The matter of QUERY-SEGMENT (R97) -/

/-- The matter of QUERY-SEGMENT, where the segment is loaded. -/
def segMatter (n : Nat) (s : State) : List Byte := ((tget s.telemetry.segments n).map (segBytes s n)).getD []

/-- It is read of the telemetry monitor, the plant line and the hold set alone. -/
theorem segMatter_congr {s t : State} (ht : t.telemetry = s.telemetry) (hp : t.plant = s.plant)
    (hh : t.craft.holds = s.craft.holds) (n : Nat) : segMatter n t = segMatter n s := by
  have hbytes : segBytes t n = segBytes s n := by
    unfold segBytes enabledIn countingHead isHeld segOf xpOf
    rw [ht, hp, hh]
  unfold segMatter
  rw [ht, hbytes]

/-- A line printed leaves it. -/
theorem segMatter_printLine (n : Nat) (ws : List Text) (s : State) : segMatter n (printLine ws s) = segMatter n s := by
  obtain ⟨l, w, c, hprint, -, hholds⟩ := printLine_watchOnly ws s
  have htelemetry : (printLine ws s).telemetry = s.telemetry := by rw [hprint]
  have hplant : (printLine ws s).plant = s.plant := by rw [hprint]
  have hset : (printLine ws s).craft.holds = s.craft.holds := by
    rw [hprint]
    exact hholds
  exact segMatter_congr htelemetry hplant hset n

/-- An order in flight leaves it. -/
theorem segMatter_taken (n : Nat) (tag : Byte) (o : Order) (s : State) : segMatter n (taken tag o s) = segMatter n s := rfl

/-! ## The hold set (R123, R124) -/

/-- The state with a segment in the hold set. -/
def holdJoined (n : Nat) (s : State) : State := { s with craft.holds := s.craft.holds ||| BitVec.ofNat 32 (2 ^ n) }

/-- The state with a segment out of the hold set. -/
def holdLeft (n : Nat) (s : State) : State := { s with craft.holds := s.craft.holds &&& ~~~ BitVec.ofNat 32 (2 ^ n) }

/-- What a HOLD recomputes (R123). -/
def heldServices (n : Nat) (s : State) : State × List HandOff := recomputeServices [n] .hold (holdJoined n s)

/-- A segment that joins the hold set: the recomputation, and CRAFT_HOLD (R123). -/
theorem holdSegment_eq (n : Nat) (s : State) : holdSegment n s
    = (holdTold s.time.clock n 0 (heldServices n s).2 (heldServices n s).1, (heldServices n s).2.length) := by
  have htime : (heldServices n s).1.time = s.time := (recomputeServices_keeps ..).1
  rw [← holdNotice_eq htime]
  rfl

/-- What the end of a hold recomputes (R124). -/
def freedServices (n : Nat) (cause : HandCause) (s : State) : State × List HandOff := recomputeServices [n] cause (holdLeft n s)

/-- The state in which the ports of the segments that a recomputation freed are refreshed (R124). -/
def freedRefreshed (r : State × List HandOff) : State := forceTaps (tapsHanded (r.2.filter frees) r.1) r.1

/-- The refresh leaves all but the plant line. -/
theorem freedRefreshed_plant (r : State × List HandOff) : PlantOnly r.1 (freedRefreshed r) := forceTaps_plant ..

/-- A segment that leaves the hold set: the recomputation, the refresh of what it frees, and CRAFT_HOLD (R124). -/
theorem freeSegment_eq (n : Nat) (cause : HandCause) (action : Nat) (s : State) : freeSegment n cause action s
    = (holdTold s.time.clock n action (freedServices n cause s).2 (freedRefreshed (freedServices n cause s)),
      ((freedServices n cause s).2.filter frees).length) := by
  have htime : (freedRefreshed (freedServices n cause s)).time = s.time := by
    obtain ⟨pl, hpl⟩ := freedRefreshed_plant (freedServices n cause s)
    rw [hpl]
    exact (recomputeServices_keeps ..).1
  rw [← holdNotice_eq htime]
  rfl

/-- A segment joins the hold set and leaves the orders that wait. -/
theorem holdSegment_waiting (n : Nat) (s : State) : (holdSegment n s).1.link.waiting = s.link.waiting := by
  rw [holdSegment_eq]
  dsimp only
  rw [holdTold_waiting]
  exact (recomputeServices_keeps ..).2

/-- So does one that leaves it. -/
theorem freeSegment_waiting (n : Nat) (cause : HandCause) (action : Nat) (s : State) :
    (freeSegment n cause action s).1.link.waiting = s.link.waiting := by
  have hservices : (freedServices n cause s).1.link.waiting = s.link.waiting := (recomputeServices_keeps ..).2
  obtain ⟨pl, hpl⟩ := freedRefreshed_plant (freedServices n cause s)
  rw [freeSegment_eq]
  dsimp only
  rw [holdTold_waiting, hpl]
  exact hservices

/-- A segment leaves the hold set alike whatever order is in flight. -/
theorem freeSegment_flightFree (n : Nat) (cause : HandCause) (action : Nat) :
    FlightFree (fun s => (freeSegment n cause action s).1) := by
  intro f s
  have hservices : freedServices n cause (withFlight f s) = (withFlight f (freedServices n cause s).1, (freedServices n cause s).2) :=
    recomputeServices_flight [n] cause f (holdLeft n s)
  have hrefreshed (r : State × List HandOff) : freedRefreshed (withFlight f r.1, r.2) = withFlight f (freedRefreshed r) := by
    have htaps : tapsHanded (r.2.filter frees) (withFlight f r.1) = tapsHanded (r.2.filter frees) r.1 := rfl
    unfold freedRefreshed
    rw [htaps, forceTaps_only_plant, forceTaps_only_plant _ r.1]
    rfl
  dsimp only
  rw [freeSegment_eq, freeSegment_eq, hservices, hrefreshed]
  dsimp only
  exact holdTold_flightFree s.time.clock n action (freedServices n cause s).2 f (freedRefreshed (freedServices n cause s))

/-! ## The commands (R123 to R125) -/

section
variable {n : Nat} {s : State}

/-- HOLD of a segment out of range. -/
theorem craftHold_range (w : Working s) (h : 31 < n) : craftHold n s = printErr "RANGE" s := by
  unfold craftHold
  rw [craftWorking_of w, if_pos h]

/-- FREE of a segment out of range. -/
theorem craftFree_range (w : Working s) (h : 31 < n) : craftFree n s = printErr "RANGE" s := by
  unfold craftFree
  rw [craftWorking_of w, if_pos h]

/-- FORCE-FREE of a segment out of range. -/
theorem orderForceFree_range (h : 31 < n) : orderForceFree n s = refuse .badArg s := if_pos h

variable (h : n ≤ 31)
include h

/-- HOLD of a segment that is not loaded. -/
theorem craftHold_unloaded (w : Working s) (hg : tget s.telemetry.segments n = none) :
    craftHold n s = printErr "NOT_LOADED" s := by
  unfold craftHold segOf
  rw [craftWorking_of w, if_neg (Nat.not_lt.mpr h), hg]
  rfl

/-- HOLD of a segment already held. -/
theorem craftHold_again (w : Working s) (hg : tget s.telemetry.segments n ≠ none) (hh : isHeld s n = true) :
    craftHold n s = printLine [word "OK", word "HELD", dec n] s := by
  unfold craftHold segOf
  rw [craftWorking_of w, if_neg (Nat.not_lt.mpr h), if_neg (by simpa using hg), if_pos hh]

/-- HOLD of a loaded segment. -/
theorem craftHold_holds (w : Working s) (hg : tget s.telemetry.segments n ≠ none) (hh : isHeld s n = false) :
    craftHold n s = printLine [word "OK", word "HELD", dec n, dec (holdSegment n s).2] (holdSegment n s).1 := by
  unfold craftHold segOf
  rw [craftWorking_of w, if_neg (Nat.not_lt.mpr h), if_neg (by simpa using hg), if_neg (by simp [hh])]

/-- FREE of a segment that is not held. -/
theorem craftFree_unheld (w : Working s) (hh : isHeld s n = false) : craftFree n s = printErr "NOT_HELD" s := by
  unfold craftFree
  rw [craftWorking_of w, if_neg (Nat.not_lt.mpr h), if_pos (by simp [hh])]

/-- FREE of a segment held. -/
theorem craftFree_frees (w : Working s) (hh : isHeld s n = true) : craftFree n s
    = printLine [word "OK", word "FREED", dec n, dec (freeSegment n .free 1 s).2] (freeSegment n .free 1 s).1 := by
  unfold craftFree
  rw [craftWorking_of w, if_neg (Nat.not_lt.mpr h), if_neg (by simp [hh])]

/-- FORCE-FREE of a segment that is not held. -/
theorem orderForceFree_unheld (hh : isHeld s n = false) : orderForceFree n s = refuse .state s := by
  unfold orderForceFree
  rw [if_neg (Nat.not_lt.mpr h), if_pos (by simp [hh])]

/-- The state after FORCE-FREE but for its reply. -/
def officeFreed (n : Nat) (s : State) : State :=
  printLine [word "FREED", word "BY", word "OFFICE", dec n] (freeSegment n .forceFree 2 s).1

/-- FORCE-FREE of a segment held. -/
theorem orderForceFree_frees (hh : isHeld s n = true) : orderForceFree n s
    = answer .ok (segMatter n (officeFreed n s)) (officeFreed n s) := by
  unfold orderForceFree officeFreed segMatter segOf
  rw [if_neg (Nat.not_lt.mpr h), if_neg (by simp [hh])]

end

/-- What FORCE-FREE does, it does alike whatever order is in flight. -/
theorem officeFreed_flightFree (n : Nat) : FlightFree (officeFreed n) := by
  intro f s
  have hfreed : (freeSegment n .forceFree 2 (withFlight f s)).1 = withFlight f (freeSegment n .forceFree 2 s).1 :=
    freeSegment_flightFree n .forceFree 2 f s
  unfold officeFreed
  rw [hfreed, printLine_flightFree _ f]

/-- Settles O50: each command by its range and the hold set; what a hold or its end does is one recomputation. -/
theorem segmentHolds : Obligations.SegmentHolds := by
  intro tag n s q w typed forced held told freed
  have said {i : Instr} {ws : List Text} {t u : State} (hi : exec i s = .next (finish u)) (hu : u = printLine ws t)
      (hw : t.link.waiting = s.link.waiting) : typed i ws t := by
    subst hu
    exact hi.trans (by rw [finish_of_none ((printLine_waiting ..).trans (hw.trans q.waiting))])
  have refuses {code : StatusCode} (e : orderForceFree n (taken tag (.forceFree n) s) = refuse code (taken tag (.forceFree n) s)) :
      forced s code [] := answers_of rfl q w q.inFlight e
  have ended (cause : HandCause) (action : Nat) (p : State → List HandOff → Prop)
      (hp : p (holdTold s.time.clock n action (freedServices n cause s).2 (freedRefreshed (freedServices n cause s)))
        ((freedServices n cause s).2.filter frees)) : freed cause action p := hp
  refine ⟨fun h => ⟨said rfl (craftHold_range w h) rfl, said rfl (craftFree_range w h) rfl, refuses (orderForceFree_range h)⟩,
    fun h hh => ⟨said rfl (craftFree_unheld h w hh) rfl, refuses (orderForceFree_unheld h hh),
      fun hg => said rfl (craftHold_unloaded h w hg) rfl, fun hg => ?_⟩,
    fun h hh => ⟨fun hg => said rfl (craftHold_again h w hg hh) rfl, ?_, ?_⟩⟩
  · have hheld := said (i := .hold n) rfl (craftHold_holds h w hg hh) (holdSegment_waiting n s)
    rw [holdSegment_eq] at hheld
    dsimp only at hheld
    exact hheld
  · have hfreed := said (i := .free n) rfl (craftFree_frees h w hh) (freeSegment_waiting n .free 1 s)
    rw [freeSegment_eq] at hfreed
    dsimp only at hfreed
    exact ended .free 1 (fun t out => typed (.free n) [word "OK", word "FREED", dec n, dec out.length] t) hfreed
  · have e := orderForceFree_frees (s := taken tag (.forceFree n) s) h hh
    rw [(officeFreed_flightFree n).taken, segMatter_taken] at e
    have hforced : forced (officeFreed n s) .ok (segMatter n (officeFreed n s)) :=
      answers_of rfl q w (((officeFreed_flightFree n).inFlight s).trans q.inFlight) e
    unfold officeFreed at hforced
    rw [segMatter_printLine, freeSegment_eq] at hforced
    dsimp only at hforced
    exact ended .forceFree 2 (fun t _ => forced (printLine _ t) .ok (segMatter n t)) hforced

end Sys2Proof.Safety
end

