-- ==== Proofs/PollOutcomes.lean ====
section
/-! PROOFS. The outcomes of polls: misses and replies, the alarm flags, and what a change of a record tells (R88 to R93; O44). -/

namespace Sys2Proof.Safety

open Sys2Proof.Machine

/-! ## A record judged (R88 to R92) -/

/-- A miss counts up to 15 (R92). -/
theorem takeMiss_eq (x : Transponder) (limit minute : Nat) :
    let n := if x.misses < 15 then x.misses + 1 else 15
    takeMiss x limit minute = { x with
      misses := n
      firstMiss := if x.misses = 0 then some minute else x.firstMiss
      state := if limit ≤ n then .missing else x.state } := by
  have hcount : min 15 (x.misses + 1) = if x.misses < 15 then x.misses + 1 else 15 := by
    split <;> omega
  unfold takeMiss
  rw [hcount]

/-- BATTERY_LOW stands under BATTERY alone, so that it adds nothing to the flags that make an ALARM (R88, R91). -/
theorem any_judgeFlags (x : Transponder) (m : StatusMsg) (windowOpen : Bool) (warn : Nat) :
    (judgeFlags x m windowOpen warn).any
      = (judgeLow x m.level windowOpen || judgeHigh x m.level windowOpen || m.onBattery || m.outputOff || m.tamper) := by
  unfold AlarmFlags.any judgeFlags
  cases m.onBattery <;> simp

/-- A level is deferred under the OPEN settle window where a raise is withheld or one was before (R90). -/
theorem judgeDeferred_eq (x : Transponder) (level : Int) (windowOpen : Bool) : judgeDeferred x level windowOpen
    = (windowOpen && (((!x.flags.low && decide (level < x.low)) || (!x.flags.high && decide (x.high < level))) || x.deferred)) := by
  unfold judgeDeferred raiseWithheld
  cases windowOpen <;> simp

/-- The record that a valid STATUS of its role leaves (R88 to R91). -/
theorem takeStatus_eq (x : Transponder) (m : StatusMsg) (windowOpen : Bool) (warn : Nat) (clock : Option (Nat × Nat)) :
    let l := clampInt (-200) 600 m.level
    takeStatus x m windowOpen warn clock = { x with
      misses := 0
      firstMiss := none
      lastReply := clock
      last := some { m with level := l }
      flags := ⟨judgeLow x l windowOpen, judgeHigh x l windowOpen, m.onBattery, m.onBattery && decide (m.battery < warn),
        m.outputOff, m.tamper⟩
      deferred := windowOpen
        && (((!x.flags.low && decide (l < x.low)) || (!x.flags.high && decide (x.high < l))) || x.deferred)
      state := if judgeLow x l windowOpen || judgeHigh x l windowOpen || m.onBattery || m.outputOff || m.tamper
        then .alarm else .ok } := by
  unfold takeStatus
  dsimp only
  rw [any_judgeFlags, judgeDeferred_eq]
  rfl

/-! ## What the outcome of a poll makes (R93) -/

/-- The state in which a record has been judged: it is written, the change is told, and its segment is recomputed. -/
def xpBecomes (i : Nat) (x new : Transponder) (cause : HandCause) (s : State) : State :=
  recomputeSegments [x.segment] cause ((xpEvents x new).foldl (fun u k => watchEvent k x.address u)
    (xpNotice i x new cause { s with telemetry.transponders := tset s.telemetry.transponders i new }))

section
variable {s : State} {i : Nat} {x : Transponder} (hx : tget s.telemetry.transponders i = some x)
include hx

/-- The outcome without a STATUS is a miss. -/
theorem takeOutcome_silent :
    takeOutcome i none s = xpBecomes i x (takeMiss x s.params.missLimit (minuteOf s)) .miss s := by
  unfold takeOutcome xpOf
  rw [hx]
  rfl

/-- The outcome with a STATUS of another role is a miss. -/
theorem takeOutcome_foreign {m : StatusMsg} (h : m.role ≠ roleChar x.role) :
    takeOutcome i (some m) s = xpBecomes i x (takeMiss x s.params.missLimit (minuteOf s)) .miss s := by
  unfold takeOutcome xpOf
  rw [hx]
  dsimp only
  rw [if_neg h]
  rfl

/-- The outcome with a STATUS of its role is a reply. -/
theorem takeOutcome_reply {m : StatusMsg} (h : m.role = roleChar x.role) : takeOutcome i (some m) s
    = xpBecomes i x (takeStatus x m s.lineup.settleOpen s.params.batteryWarn s.time.clock) .reply s := by
  unfold takeOutcome xpOf
  rw [hx]
  dsimp only
  rw [if_pos h]
  rfl

end

section
variable {s : State} {t : Transaction} {x : Transponder}

/-- The outcome of a poll of a record that stands is taken (R76, R88). -/
theorem handOutcome_poll (hp : t.purpose = .poll) (hx : tget s.telemetry.transponders t.index = some x)
    (ha : x.address = t.address) (he : x.enabled = true) (r : Option (List Byte)) :
    handOutcome t r s = takeOutcome t.index (r.map (fun f => statusOfChars (f.drop 2))) s := by
  have hstands : xpStands s t = true := xpStands_iff.mpr fun hg => hg x hx ⟨ha, he⟩
  unfold handOutcome
  rw [hp]
  exact if_pos hstands

/-- A poll is answered by a STATUS. -/
theorem replyKindOf_poll (hp : t.purpose = .poll) : replyKindOf t = 8 := by
  unfold replyKindOf txKind
  rw [hp]
  rfl

end

section
variable {s : State} {t : Transaction} {x : Transponder} (hw : s.link.waiting = []) (ht : s.plant.current = some t)
  (hl : s.plant.line = .window) (hp : t.purpose = .poll) (hx : tget s.telemetry.transponders t.index = some x)
  (ha : x.address = t.address) (he : x.enabled = true)
include hw ht hl hp hx ha he

/-- The end of the window judges the record by a miss, then work is chosen (R92). -/
theorem exec_pollSilent : exec .replyWindowExpiry s
    = .next (kick (xpBecomes t.index x (takeMiss x s.params.missLimit (minuteOf s)) .miss (lineFreed s))) := by
  have hout : handOutcome t none (lineFreed s) = takeOutcome t.index none (lineFreed s) :=
    handOutcome_poll (s := lineFreed s) hp hx ha he none
  rw [exec_silent hw ht hl hout (takeOutcome_waiting ..), takeOutcome_silent (s := lineFreed s) hx]
  rfl

section
variable (htap : t.toTap = false) (hf : t.failed = false) (hrange : t.address ≤ 4095) {role flags battery : Byte} {level : Int}
  {supply : Nat} (h1 : -32768 ≤ level) (h2 : level ≤ 32767) (hs : supply ≤ 65535) (hr : role ≠ 4)
include htap hf hrange h1 h2 hs hr

/-- A STATUS in reply is the outcome of the poll, then work is chosen (R88). -/
theorem exec_pollStatus : exec (frameReceived (statusFrame t.address role flags battery level supply)) s
    = .next (kick (takeOutcome t.index
      (some ⟨role.toNat, flags.getLsbD 0, flags.getLsbD 1, flags.getLsbD 2, level, supply, battery.toNat⟩) (lineFreed s))) := by
  have hout := handOutcome_poll (s := lineFreed s) hp hx ha he (some (statusFrame t.address role flags battery level supply))
  rw [Option.map_some, statusOfChars_frame t.address role flags battery level supply h1 h2 hs] at hout
  exact exec_answered hw ht hl
    (statusFrame_replies (replyKindOf_poll hp) hf hrange (by rwa [if_neg (by simp [htap])]) flags battery level supply)
    hout (takeOutcome_waiting ..)

/-- A STATUS of another role judges the record by a miss (R92). -/
theorem exec_pollForeign (hrole : role.toNat ≠ roleChar x.role) :
    exec (frameReceived (statusFrame t.address role flags battery level supply)) s
      = .next (kick (xpBecomes t.index x (takeMiss x s.params.missLimit (minuteOf s)) .miss (lineFreed s))) := by
  rw [exec_pollStatus hw ht hl hp hx ha he htap hf hrange h1 h2 hs hr, takeOutcome_foreign (s := lineFreed s) hx hrole]
  rfl

/-- A STATUS of its role judges the record by a reply (R88 to R91). -/
theorem exec_pollReply (hrole : role.toNat = roleChar x.role) :
    exec (frameReceived (statusFrame t.address role flags battery level supply)) s
      = .next (kick (xpBecomes t.index x (takeStatus x
        ⟨role.toNat, flags.getLsbD 0, flags.getLsbD 1, flags.getLsbD 2, level, supply, battery.toNat⟩
        s.lineup.settleOpen s.params.batteryWarn s.time.clock) .reply (lineFreed s))) := by
  rw [exec_pollStatus hw ht hl hp hx ha he htap hf hrange h1 h2 hs hr, takeOutcome_reply (s := lineFreed s) hx hrole]
  rfl

end

end

/-! ## What a change of a record tells (R93) -/

section
variable (i : Nat) (old new : Transponder) (cause : HandCause) (s : State)

/-- A record that stays in its state with its flags tells nothing. -/
theorem xpNotice_same (hs : new.state = old.state) (hf : new.flags = old.flags) : xpNotice i old new cause s = s :=
  if_pos (by simp [hs, hf])

/-- XP_STATE of any other change. -/
theorem xpNotice_changed (h : new.state ≠ old.state ∨ new.flags ≠ old.flags) : xpNotice i old new cause s
    = notice nkXpState ((new.state = .missing && old.state ≠ .missing) || (new.flags.outputOff && !old.flags.outputOff)
        || (new.flags.batteryLow && !old.flags.batteryLow))
      (u8 i ++ u16 new.address ++ u8 new.segment ++ u8 (roleNum new.role) ++ u8 (xpStateNum old.state)
        ++ u8 (xpStateNum new.state) ++ u8 (alarmNum old.flags) ++ u8 (alarmNum new.flags) ++ flag new.deferred
        ++ u8 new.misses ++ opt 4 new.firstMiss ++ optStatus new.last ++ opt 4 (s.time.clock.map (·.1))
        ++ u8 (handCauseNum cause)) s :=
  if_neg (by
    rw [Bool.and_eq_true, decide_eq_true_eq, decide_eq_true_eq, not_and_or]
    exact h)

end

/-- Settles O44: an outcome is a reply by the role of its STATUS and else a miss, and each tells its record's change. -/
theorem pollOutcomesAreJudged : Obligations.PollOutcomesAreJudged := by
  refine ⟨fun t x role flags battery level supply s hw ht hl hp htap hf _ hrange hx ha he h1 h2 hs hr => ?_,
    fun i old new cause s => ?_⟩
  · intro head chars judged miss l low high withheld batteryLow reply
    have hmiss : takeMiss x s.params.missLimit (minuteOf s) = miss := takeMiss_eq ..
    have hreply : takeStatus x ⟨role.toNat, flags.getLsbD 0, flags.getLsbD 1, flags.getLsbD 2, level, supply, battery.toNat⟩
        s.lineup.settleOpen s.params.batteryWarn s.time.clock = reply := takeStatus_eq ..
    have become (i : Instr) (new : Transponder) (cause : HandCause)
        (e : exec i s = .next (kick (xpBecomes t.index x new cause (lineFreed s)))) : judged i new cause := e
    refine ⟨?_, fun hforeign => ?_, fun hown => ?_⟩
    · have hsilent := exec_pollSilent hw ht hl hp hx ha he
      rw [hmiss] at hsilent
      exact become _ _ _ hsilent
    · have hstatus := exec_pollForeign hw ht hl hp hx ha he htap hf hrange (flags := flags) (battery := battery) h1 h2 hs hr hforeign
      rw [hmiss] at hstatus
      exact become _ _ _ hstatus
    · have hstatus := exec_pollReply hw ht hl hp hx ha he htap hf hrange (flags := flags) (battery := battery) h1 h2 hs hr hown
      rw [hreply] at hstatus
      exact become _ _ _ hstatus
  · intro bits last lost found raised told
    have hlast : optStatus new.last = last := by
      cases h : new.last with
      | none => simp only [last, h, optStatus]
      | some m => simp only [last, h, optStatus, statusMsgBytes]
    have hlost : (decide (new.state = .missing) && decide (old.state ≠ .missing)) = lost := (Bool.decide_and ..).symm
    have hfound : (decide (old.state = .missing) && decide (new.state ≠ .missing)) = found := (Bool.decide_and ..).symm
    refine ⟨xpNotice_same i old new cause s, fun h => ?_, ?_⟩
    · rw [xpNotice_changed i old new cause s h, hlast, ← hlost]
      rfl
    · unfold xpEvents
      rw [← hlost, ← hfound]

end Sys2Proof.Safety
end

