-- ==== Proofs/PlantTables.lean ====
section
/-! PROOFS. LOAD-SEGMENT and QUERY-SEGMENT (R95 to R97), LOAD-TRANSPONDER and QUERY-TRANSPONDER (R85 to R87; O43). -/

namespace Sys2Proof.Safety

open Sys2Proof.Machine

/-! ## The checks of LOAD-SEGMENT (R95) -/

/-- A field that names a record, or 255 for none. -/
def namedArg (v : Nat) : Option Nat := if v = 255 then none else some v

/-- The record that LOAD-SEGMENT writes has the zone, parent and head given, and else what stood there (R96). -/
theorem reloadSeg_eq (s : State) (p : SegmentArgs) : reloadSeg s p
    = { (tget s.telemetry.segments p.segment).getD { zone := 0, parent := none, head := none } with
        zone := p.zone, parent := namedArg p.parent, head := namedArg p.head } := by
  unfold reloadSeg segOf
  cases tget s.telemetry.segments p.segment <;> rfl

/-- The segments with the record that LOAD-SEGMENT writes. -/
def segsReloaded (s : State) (p : SegmentArgs) : List (Nat × Segment) := tset s.telemetry.segments p.segment (reloadSeg s p)

/-- The causes for which LOAD-SEGMENT is refused in either state. -/
def SegRefused (s : State) (p : SegmentArgs) : Prop := 31 < p.segment ∨ 7 < p.zone ∨ (31 < p.parent ∧ p.parent ≠ 255)
  ∨ (127 < p.head ∧ p.head ≠ 255) ∨ (p.parent ≠ 255 ∧ (p.parent = p.segment ∨ tget s.telemetry.segments p.parent = none))

/-- The causes for which it is refused in RUN: a chain that fails, or a head that does not count. -/
def SegUnfit (s : State) (p : SegmentArgs) : Prop := (∃ g ∈ segsReloaded s p, chainBad (segsReloaded s p) g.1 ≠ none)
  ∨ (p.head ≠ 255 ∧ ∀ h, tget s.telemetry.transponders p.head = some h → ¬ (h.enabled = true ∧ h.segment = p.segment))

/-- The check of LOAD-SEGMENT finds one of its causes. -/
theorem segmentCheck_iff (p : SegmentArgs) (s : State) :
    segmentCheck p s = true ↔ ¬ SegRefused s p ∧ (s.link.op = .run → ¬ SegUnfit s p) := by
  have hfields : (decide (p.segment ≤ 31) && decide (p.zone ≤ 7) && (decide (p.parent ≤ 31) || p.parent = 255)
      && (decide (p.head ≤ 127) || p.head = 255)
      && (p.parent = 255 || (p.parent ≠ p.segment && (segOf s p.parent).isSome))) = true ↔ ¬ SegRefused s p := by
    unfold SegRefused segOf
    simp [Option.isSome_iff_ne_none, and_assoc, or_iff_not_imp_left]
  have hchains : (segsReloaded s p).all (fun g => (chainBad (segsReloaded s p) g.1).isNone) = true
      ↔ ¬ ∃ g ∈ segsReloaded s p, chainBad (segsReloaded s p) g.1 ≠ none := by
    simp [List.all_eq_true]
  have hhead : (decide (p.head = 255) || headLegal s p.segment p.head) = true ↔ ¬ (p.head ≠ 255
      ∧ ∀ h, tget s.telemetry.transponders p.head = some h → ¬ (h.enabled = true ∧ h.segment = p.segment)) := by
    rw [Bool.or_eq_true, headLegal_iff, decide_eq_true_eq]
    simp [or_iff_not_imp_left]
  have hrun : running s = true ↔ s.link.op = .run := decide_eq_true_iff
  unfold segmentCheck
  rw [Bool.and_eq_true, hfields, Bool.or_eq_true, Bool.not_eq_true', ← Bool.not_eq_true, hrun]
  refine and_congr_right fun _ => ?_
  show _ ∨ ((segsReloaded s p).all (fun g => (chainBad (segsReloaded s p) g.1).isNone)
    && (decide (p.head = 255) || headLegal s p.segment p.head)) = true ↔ _
  rw [Bool.and_eq_true, hchains, hhead, ← not_or, or_iff_not_imp_left, not_not]
  rfl

/-! ## LOAD-SEGMENT accepted (R96) -/

/-- The state in which a segment has been written, and the conditions and service states recomputed. -/
def segRecomputed (p : SegmentArgs) (s : State) : State :=
  recomputeSegments [p.segment] .reload { s with telemetry.segments := segsReloaded s p }

/-- The state after an accepted LOAD-SEGMENT but for its reply: a changed zone re-derives the ports of the segment. -/
def segLoaded (p : SegmentArgs) (s : State) : State :=
  if (tget s.telemetry.segments p.segment).any (fun g => g.zone ≠ p.zone) then rederiveSegment p.segment (segRecomputed p s)
  else segRecomputed p s

/-- A refused LOAD-SEGMENT. -/
theorem orderLoadSegment_refused {p : SegmentArgs} {s : State} (h : segmentCheck p s ≠ true) :
    orderLoadSegment p s = refuse .badArg s := if_pos (by simpa using h)

/-- An accepted LOAD-SEGMENT. -/
theorem orderLoadSegment_loads {p : SegmentArgs} {s : State} (h : segmentCheck p s = true) :
    orderLoadSegment p s = answer .ok (segMatter p.segment (segLoaded p s)) (segLoaded p s) := by
  have hzone : (reloadSeg s p).zone = p.zone := by rw [reloadSeg_eq]
  unfold orderLoadSegment
  rw [if_neg (by simp [h])]
  dsimp only
  rw [hzone]
  rfl

/-- What it does, it does alike whatever order is in flight. -/
theorem segLoaded_flightFree (p : SegmentArgs) : FlightFree (segLoaded p) := by
  intro f s
  have hwritten : segRecomputed p (withFlight f s) = withFlight f (segRecomputed p s) :=
    recomputeSegments_flightFree [p.segment] .reload f { s with telemetry.segments := segsReloaded s p }
  have hsegs : (withFlight f s).telemetry = s.telemetry := rfl
  unfold segLoaded
  rw [hwritten, hsegs]
  split
  · exact rederiveSegment_flightFree p.segment f (segRecomputed p s)
  · rfl

/-- The fields of a segment record that an order names (R94). -/
def loadedFields (g : Segment) : Nat × Option Nat × Option Nat := (g.zone, g.parent, g.head)

/-- A recomputation leaves them. -/
theorem recomputeSegments_fields (ns : List Nat) (cause : HandCause) (s : State) :
    SegsAgree loadedFields (recomputeSegments ns cause s).telemetry.segments s.telemetry.segments := by
  have hconditions (u : State) : SegsAgree loadedFields (ns.foldl recomputeCondition u).telemetry.segments u.telemetry.segments := by
    induction ns generalizing u with
    | nil => rfl
    | cons n ns ih =>
      exact (ih (recomputeCondition u n)).trans (SegsAgree.tmod
        (k := fun g => { g with condition := (conditionOf u n).1, missMinute := (conditionOf u n).2 }) (fun _ => rfl) n _)
  have hservices (u : State) :
      SegsAgree loadedFields (recomputeServices ns cause u).1.telemetry.segments u.telemetry.segments :=
    ((recomputeServices_segments ns cause u).weaken fun _ _ e =>
        (congrArg loadedFields e : loadedFields (outageless _) = loadedFields (outageless _))).trans
      ((walked u (affected u ns)).agree.weaken fun _ _ e =>
        (congrArg loadedFields e : loadedFields (serviceless _) = loadedFields (serviceless _)))
  exact (hservices _).trans (hconditions s)

/-- The segment loaded is read back with the fields given. -/
theorem tget_segLoaded (p : SegmentArgs) (s : State) : ∃ g, tget (segLoaded p s).telemetry.segments p.segment = some g
    ∧ g.zone = p.zone ∧ g.parent = namedArg p.parent ∧ g.head = namedArg p.head := by
  have hsegs : (segLoaded p s).telemetry = (segRecomputed p s).telemetry := by
    unfold segLoaded
    split
    · obtain ⟨pl, hpl⟩ := rederiveSegment_plant p.segment (segRecomputed p s)
      rw [hpl]
    · rfl
  have hwritten : tget (segsReloaded s p) p.segment = some (reloadSeg s p) := tget_tset ..
  have hagree : SegsAgree loadedFields (segsReloaded s p) (segRecomputed p s).telemetry.segments :=
    (recomputeSegments_fields [p.segment] .reload { s with telemetry.segments := segsReloaded s p }).symm
  obtain ⟨g, hg, hfields⟩ := hagree.some hwritten
  rw [reloadSeg_eq] at hfields
  simp only [loadedFields, Prod.mk.injEq] at hfields
  rw [hsegs]
  exact ⟨g, hg, hfields⟩

/-- An accepted LOAD-SEGMENT at a quiet link is answered with the matter of QUERY-SEGMENT. -/
theorem loadSegment_answers {tag : Byte} {p : SegmentArgs} {s : State} (q : Quiet s) (w : Working s) (h : segmentCheck p s = true) :
    ∃ g, tget (segLoaded p s).telemetry.segments p.segment = some g
      ∧ g.zone = p.zone ∧ g.parent = namedArg p.parent ∧ g.head = namedArg p.head
      ∧ Answers (.loadSegment tag p) s (segLoaded p s) tag (.loadSegment p) .ok (segBytes (segLoaded p s) p.segment g) := by
  obtain ⟨g, hg, hzone, hparent, hhead⟩ := tget_segLoaded p s
  have hmatter : segMatter p.segment (segLoaded p s) = segBytes (segLoaded p s) p.segment g := by
    unfold segMatter
    rw [hg]
    rfl
  have e := orderLoadSegment_loads (s := taken tag (.loadSegment p) s) h
  rw [(segLoaded_flightFree p).taken, segMatter_taken, hmatter] at e
  exact ⟨g, hg, hzone, hparent, hhead,
    answers_of rfl q w (((segLoaded_flightFree p).inFlight s).trans q.inFlight) e⟩

/-! ## QUERY-SEGMENT (R97) -/

/-- The head counts where the segment names an enabled record of its own (R94). -/
theorem countingHead_isSome {s : State} {n : Nat} {g : Segment} (hg : tget s.telemetry.segments n = some g) :
    (countingHead s n).isSome
      = (g.head.bind (tget s.telemetry.transponders)).any (fun h => h.enabled && decide (h.segment = n)) := by
  unfold countingHead segOf xpOf
  rw [hg, Option.bind_some]
  cases g.head with
  | none => rfl
  | some h =>
    rw [Option.bind_some]
    dsimp only
    cases tget s.telemetry.transponders h with
    | none => rfl
    | some x =>
      dsimp only
      rw [Option.any_some]
      cases x.enabled && decide (x.segment = n) <;> rfl

/-- What is sent of each state in turn (R84). -/
theorem flatMap_states (f : XpState → List Byte) (l : List Byte) :
    l ++ [XpState.unknown, .ok, .alarm, .missing].flatMap f = l ++ f .unknown ++ f .ok ++ f .alarm ++ f .missing := by
  simp only [List.flatMap_cons, List.flatMap_nil, List.append_nil, List.append_assoc]

/-- The matter of QUERY-SEGMENT of a loaded segment, with its four numbers of records one by one. -/
theorem segBytes_eq {s : State} {n : Nat} {g : Segment} (hg : tget s.telemetry.segments n = some g) :
    let above := ancestors s.telemetry.segments n
    let mine := s.telemetry.transponders.filter (fun t => t.2.enabled && decide (t.2.segment = n))
    let taps := s.plant.taps.filter (fun t => decide (t.2.segment = n))
    let count (k : XpState) : List Byte := u16 (mine.filter (fun t => t.2.state = k)).length
    let bad := mine.filter (fun t => t.2.state = .missing || t.2.state = .alarm)
    segBytes s n g = u8 g.zone ++ opt 1 g.parent ++ opt 1 g.head ++ u8 (conditionNum g.condition) ++ u8 (serviceNum g.service)
      ++ opt 1 g.openOutage ++ flag (s.craft.holds.getLsbD n) ++ opt 1 (above.find? (fun m => s.craft.holds.getLsbD m))
      ++ (u8 above.length ++ above.flatMap u8) ++ count .unknown ++ count .ok ++ count .alarm ++ count .missing
      ++ (u8 bad.length ++ bad.flatMap (fun t => u8 t.1))
      ++ flag ((g.head.bind (tget s.telemetry.transponders)).any (fun h => h.enabled && decide (h.segment = n)))
      ++ u16 taps.length ++ u16 (taps.filter (fun t => t.2.unreachable.isSome)).length
      ++ u16 (taps.flatMap (fun t => t.2.ports.filter (fun r => r.sync = .parked))).length := by
  intro above mine taps count bad
  unfold segBytes
  dsimp only
  rw [flatMap_states, countingHead_isSome hg]
  rfl

/-! ## The checks of LOAD-TRANSPONDER (R85) -/

/-- The causes for which LOAD-TRANSPONDER is refused in either state. -/
def XpRefused (s : State) (p : TransponderArgs) : Prop := 127 < p.index ∨ 4095 < p.address ∨ 31 < p.segment ∨ 2 < p.role
  ∨ tget s.telemetry.segments p.segment = none ∨ (∃ t ∈ s.plant.taps, t.2.address = p.address)
  ∨ (∃ t ∈ s.telemetry.transponders, t.2.address = p.address ∧ t.1 ≠ p.index)
  ∨ clampInt (-200) 600 p.high < clampInt (-200) 600 p.low

/-- The causes for which it is refused in RUN: a head that would leave its segment or be disabled. -/
def XpUnfit (s : State) (p : TransponderArgs) : Prop := (∃ g ∈ s.telemetry.segments, g.2.head = some p.index)
  ∧ ∃ o, tget s.telemetry.transponders p.index = some o ∧ (o.segment ≠ p.segment ∨ (o.enabled = true ∧ p.enable = 0))

/-- A role is named by a number up to 2. -/
theorem roleArg_iff (v : Nat) : roleArg v = none ↔ 2 < v := by
  unfold roleArg
  repeat' split
  all_goals
    simp
    omega

/-- An enable byte up to 1 says whether it is 1. -/
theorem flagArg_of {v : Nat} (h : v ≤ 1) : flagArg v = some (decide (v = 1)) := by
  obtain rfl | rfl : v = 0 ∨ v = 1 := by omega
  · rfl
  · rfl

/-- An enable byte above 1 says nothing (log 18). -/
theorem flagArg_above {v : Nat} (h : 1 < v) : flagArg v = none := by
  unfold flagArg
  rw [if_neg (by omega), if_neg (by omega)]

/-- The record that LOAD-TRANSPONDER describes. -/
def xpNamed (p : TransponderArgs) (role : Role) : Transponder := freshXp p role (decide (p.enable = 1))

/-- The check that RUN adds finds its cause. -/
theorem xpUnfit_iff {p : TransponderArgs} (he : p.enable ≤ 1) (role : Role) (s : State) :
    (running s && isHeadIndex s p.index && (xpOf s p.index).any
      (fun x => x.segment ≠ (xpNamed p role).segment || (x.enabled && !(xpNamed p role).enabled))) = true
      ↔ s.link.op = .run ∧ XpUnfit s p := by
  have hhead : isHeadIndex s p.index = true ↔ ∃ g ∈ s.telemetry.segments, g.2.head = some p.index := by
    unfold isHeadIndex
    simp
  have hzero : (!(xpNamed p role).enabled) = true ↔ p.enable = 0 := by
    show (!decide (p.enable = 1)) = true ↔ _
    rw [Bool.not_eq_true', decide_eq_false_iff_not]
    omega
  have hold : (xpOf s p.index).any
      (fun x => x.segment ≠ (xpNamed p role).segment || (x.enabled && !(xpNamed p role).enabled)) = true
      ↔ ∃ o, tget s.telemetry.transponders p.index = some o ∧ (o.segment ≠ p.segment ∨ (o.enabled = true ∧ p.enable = 0)) := by
    rw [Option.any_eq_true]
    simp only [Bool.or_eq_true, Bool.and_eq_true, decide_eq_true_eq, hzero]
    rfl
  rw [Bool.and_eq_true, Bool.and_eq_true, hhead, hold, and_assoc]
  exact and_congr_left' decide_eq_true_iff

/-- The checks of LOAD-TRANSPONDER from the second on find none of their causes. -/
theorem xpCheck_iff {p : TransponderArgs} (he : p.enable ≤ 1) (role : Role) (s : State) :
    xpCheck p (xpNamed p role) s = true ↔ tget s.telemetry.segments p.segment ≠ none
      ∧ (¬ ∃ t ∈ s.plant.taps, t.2.address = p.address)
      ∧ (¬ ∃ t ∈ s.telemetry.transponders, t.2.address = p.address ∧ t.1 ≠ p.index)
      ∧ ¬ clampInt (-200) 600 p.high < clampInt (-200) 600 p.low ∧ ¬ (s.link.op = .run ∧ XpUnfit s p) := by
  have hseg : (segOf s p.segment).isSome = true ↔ tget s.telemetry.segments p.segment ≠ none := Option.isSome_iff_ne_none
  have htaps : (tapAt s p.address).isNone = true ↔ ¬ ∃ t ∈ s.plant.taps, t.2.address = p.address := by
    unfold tapAt
    simp
  have hxps : (!s.telemetry.transponders.any (fun t => t.2.address = p.address && t.1 ≠ p.index)) = true
      ↔ ¬ ∃ t ∈ s.telemetry.transponders, t.2.address = p.address ∧ t.1 ≠ p.index := by
    simp
  have hlevels : decide ((xpNamed p role).low ≤ (xpNamed p role).high) = true
      ↔ ¬ clampInt (-200) 600 p.high < clampInt (-200) 600 p.low := decide_eq_true_iff.trans Int.not_lt.symm
  unfold xpCheck
  rw [Bool.and_eq_true, Bool.and_eq_true, Bool.and_eq_true, Bool.and_eq_true, hseg, htaps, hxps, hlevels, Bool.not_eq_true',
    ← Bool.not_eq_true, xpUnfit_iff he]
  simp only [and_assoc]

/-- LOAD-TRANSPONDER with a role and an enable is refused for one of its causes. -/
theorem xpRefused_iff {p : TransponderArgs} {role : Role} (hr : roleArg p.role = some role) (he : p.enable ≤ 1) (s : State) :
    (127 < p.index || 4095 < p.address || 31 < p.segment || !xpCheck p (xpNamed p role) s) = true
      ↔ XpRefused s p ∨ (s.link.op = .run ∧ XpUnfit s p) := by
  have hrole : ¬ 2 < p.role := fun h => by
    rw [(roleArg_iff _).mpr h] at hr
    cases hr
  unfold XpRefused
  rw [Bool.or_eq_true, Bool.or_eq_true, Bool.or_eq_true, Bool.not_eq_true', ← Bool.not_eq_true, xpCheck_iff he]
  generalize (s.link.op = .run ∧ XpUnfit s p) = unfit
  simp only [decide_eq_true_eq, not_and_or, not_not, ne_eq, hrole, false_or, or_assoc]

/-! ## LOAD-TRANSPONDER (R86) -/

/-- The record of a LOAD-TRANSPONDER with its levels and its hysteresis brought into their ranges (R85). -/
theorem xpNamed_eq (p : TransponderArgs) (role : Role) : xpNamed p role = {
    address := p.address, segment := p.segment, role := role, enabled := decide (p.enable = 1)
    low := clampInt (-200) 600 p.low, high := clampInt (-200) 600 p.high
    hysteresis := if 50 < p.hysteresis then 50 else p.hysteresis } := by
  have hclamp : clamp 0 50 p.hysteresis = if 50 < p.hysteresis then 50 else p.hysteresis := if_neg (Nat.not_lt_zero _)
  unfold xpNamed freshXp
  rw [hclamp]

/-- A record loaded again lies in the segment named. -/
theorem reloadXp_segment (old : Option Transponder) (new : Transponder) : (reloadXp old new).segment = new.segment := by
  unfold reloadXp
  split
  · rfl
  · split <;> rfl

/-- A record at the same address with the same enable keeps its judgement (R86). -/
theorem reloadXp_some (x new : Transponder) : reloadXp (some x) new
    = if x.address = new.address ∧ x.enabled = new.enabled then
      { x with segment := new.segment, role := new.role, low := new.low, high := new.high, hysteresis := new.hysteresis }
      else new := by
  unfold reloadXp
  simp only [Bool.and_eq_true, decide_eq_true_eq]

/-- The state in which a record has been written and its change told, and the segments it left and joined are recomputed. -/
def xpLoaded (i : Nat) (new : Transponder) (told : State → State) (left : List Nat) (s : State) : State :=
  recomputeSegments (left ++ [new.segment]) .reload
    (told { s with telemetry.transponders := tset s.telemetry.transponders i new })

/-- The state in which a record loaded again has been written and its change told. -/
def xpTold (i : Nat) (x new : Transponder) (s : State) : State :=
  xpNotice i x new .reload { s with telemetry.transponders := tset s.telemetry.transponders i new }

/-- What LOAD-TRANSPONDER does, it does alike whatever order is in flight. -/
theorem xpLoaded_flightFree {told : State → State} (h : FlightFree told) (i : Nat) (new : Transponder) (left : List Nat) :
    FlightFree (xpLoaded i new told left) := by
  intro f s
  have htold := h f { s with telemetry.transponders := tset s.telemetry.transponders i new }
  exact (congrArg (recomputeSegments (left ++ [new.segment]) .reload) htold).trans (recomputeSegments_flightFree _ _ f _)

section
variable {p : TransponderArgs} {s : State}

/-- LOAD-TRANSPONDER with a role that names none. -/
theorem orderLoadTransponder_role (h : roleArg p.role = none) : orderLoadTransponder p s = refuse .badArg s := by
  unfold orderLoadTransponder
  rw [h]

/-- LOAD-TRANSPONDER with an enable byte above 1 (log 18). -/
theorem orderLoadTransponder_enable (h : 1 < p.enable) : orderLoadTransponder p s = refuse .badArg s := by
  unfold orderLoadTransponder
  rw [flagArg_above h]
  cases roleArg p.role <;> rfl

variable (he : p.enable ≤ 1)
include he

/-- A refused LOAD-TRANSPONDER. -/
theorem orderLoadTransponder_refused (h : XpRefused s p ∨ (s.link.op = .run ∧ XpUnfit s p)) :
    orderLoadTransponder p s = refuse .badArg s := by
  cases hr : roleArg p.role with
  | none => exact orderLoadTransponder_role hr
  | some role =>
    unfold orderLoadTransponder
    rw [hr, flagArg_of he]
    exact if_pos ((xpRefused_iff hr he s).mpr h)

variable {role : Role} (hr : roleArg p.role = some role) (h : ¬ (XpRefused s p ∨ (s.link.op = .run ∧ XpUnfit s p)))
include hr h

/-- LOAD-TRANSPONDER of an empty index (R86). -/
theorem orderLoadTransponder_empty (hx : tget s.telemetry.transponders p.index = none) :
    let t := xpLoaded p.index (xpNamed p role) (fun u => u) [] s
    orderLoadTransponder p s = answer .ok (xpBytes t p.index (xpNamed p role)) t := by
  unfold orderLoadTransponder xpOf
  rw [hr, flagArg_of he, hx]
  exact if_neg (mt (xpRefused_iff hr he s).mp h)

/-- LOAD-TRANSPONDER of a loaded index (R86). -/
theorem orderLoadTransponder_again {x : Transponder} (hx : tget s.telemetry.transponders p.index = some x) :
    let new := reloadXp (some x) (xpNamed p role)
    let t := xpLoaded p.index new (xpNotice p.index x new .reload) (if x.segment = p.segment then [] else [x.segment]) s
    orderLoadTransponder p s = answer .ok (xpBytes t p.index new) t := by
  have hsegs : (if x.segment = (reloadXp (some x) (xpNamed p role)).segment then [(reloadXp (some x) (xpNamed p role)).segment]
      else [x.segment, (reloadXp (some x) (xpNamed p role)).segment])
      = (if x.segment = p.segment then [] else [x.segment]) ++ [(reloadXp (some x) (xpNamed p role)).segment] := by
    rw [reloadXp_segment, show (xpNamed p role).segment = p.segment from rfl]
    split <;> rfl
  intro new t
  unfold orderLoadTransponder xpOf
  rw [hr, flagArg_of he, hx]
  refine (if_neg (mt (xpRefused_iff hr he s).mp h)).trans ?_
  exact congrArg (fun segs => answer .ok (xpBytes (recomputeSegments segs .reload (xpTold p.index x new s)) p.index new)
    (recomputeSegments segs .reload (xpTold p.index x new s))) hsegs

end

/-- The matter of QUERY-TRANSPONDER does not look at the order in flight. -/
theorem xpBytes_taken (tag : Byte) (o : Order) (s : State) (i : Nat) (x : Transponder) :
    xpBytes (taken tag o s) i x = xpBytes s i x := rfl

/-- A LOAD-TRANSPONDER that writes its record at a quiet link is answered with the matter of QUERY-TRANSPONDER. -/
theorem loadTransponder_answers {tag : Byte} {p : TransponderArgs} {s : State} (q : Quiet s) (w : Working s) {new : Transponder}
    {told : State → State} {left : List Nat} (htold : FlightFree told) (hseg : new.segment = p.segment)
    (e : let t := xpLoaded p.index new told left (taken tag (.loadTransponder p) s)
      orderLoadTransponder p (taken tag (.loadTransponder p) s) = answer .ok (xpBytes t p.index new) t) :
    let t := recomputeSegments (left ++ [p.segment]) .reload
      (told { s with telemetry.transponders := tset s.telemetry.transponders p.index new })
    Answers (.loadTransponder tag p) s t tag (.loadTransponder p) .ok (xpBytes t p.index new) := by
  have hfree := xpLoaded_flightFree htold p.index new left
  dsimp only at e
  rw [hfree.taken, xpBytes_taken] at e
  have hreply : Answers (.loadTransponder tag p) s (xpLoaded p.index new told left s) tag (.loadTransponder p) .ok
      (xpBytes (xpLoaded p.index new told left s) p.index new) :=
    answers_of rfl q w ((hfree.inFlight s).trans q.inFlight) e
  unfold xpLoaded at hreply
  rw [hseg] at hreply
  exact hreply

/-! ## The queries (R87, R97) -/

/-- QUERY-SEGMENT of a loaded segment. -/
theorem orderQuerySegment_loaded {n : Nat} {g : Segment} {s : State} (hg : tget s.telemetry.segments n = some g) :
    orderQuerySegment n s = answer .ok (segBytes s n g) s := by
  unfold orderQuerySegment segOf
  rw [hg]

/-- QUERY-SEGMENT of any other. -/
theorem orderQuerySegment_none {n : Nat} {s : State} (hg : tget s.telemetry.segments n = none) :
    orderQuerySegment n s = refuse .badArg s := by
  unfold orderQuerySegment segOf
  rw [hg]

/-- QUERY-TRANSPONDER of a loaded address. -/
theorem orderQueryTransponder_loaded {a i : Nat} {x : Transponder} {s : State} (hx : xpAt s a = some (i, x)) :
    orderQueryTransponder a s = answer .ok (xpBytes s i x) s := by
  unfold orderQueryTransponder
  rw [hx]

/-- QUERY-TRANSPONDER of any other. -/
theorem orderQueryTransponder_none {a : Nat} {s : State} (hx : xpAt s a = none) :
    orderQueryTransponder a s = refuse .badArg s := by
  unfold orderQueryTransponder
  rw [hx]

/-- A cause that counts in RUN alone is absent in RUN where it is absent outside LOADING. -/
theorem runCause_absent {s : State} {cause : Prop} (h : s.link.op = .loading ∨ ¬ cause) (hrun : s.link.op = .run) : ¬ cause :=
  h.resolve_left (by rw [hrun]; decide)

/-- Settles O43: each load by its check and by what stands at its number, each query by its record. -/
theorem plantTableOrders : Obligations.PlantTableOrders := by
  intro tag p x n a s q w segs xps known seg segs' segAnswers segRefused segUnfit clampLevel xpAnswers xpRefused xpUnfit
  have hsegs : segsReloaded s p = segs' := congrArg (tset segs p.segment) (reloadSeg_eq s p)
  have hunfit : SegUnfit s p ↔ segUnfit := by
    unfold SegUnfit
    rw [hsegs]
  have segRefuses (h : segmentCheck p s ≠ true) : segAnswers s .badArg [] :=
    answers_of rfl q w q.inFlight (orderLoadSegment_refused (s := taken tag (.loadSegment p) s) h)
  refine ⟨fun h => segRefuses (mt (segmentCheck_iff p s).mp fun hc => hc.1 h),
    fun hrun h => segRefuses (mt (segmentCheck_iff p s).mp fun hc => hc.2 hrun (hunfit.mpr h)), fun hn hor => ?_,
    fun he => ⟨fun h => ?_, fun hrun h => ?_, fun role hr hn hor => ?_⟩,
    fun h => answers_of rfl q w q.inFlight (orderLoadTransponder_enable (s := taken tag (.loadTransponder x) s) h),
    fun hg => answers_of rfl q w q.inFlight (orderQuerySegment_none (s := taken tag (.querySegment n) s) hg),
    fun g hg => ?_,
    fun hx => answers_of rfl q w q.inFlight (orderQueryTransponder_none (s := taken tag (.queryTransponder a) s) hx),
    fun i o hx => answers_of rfl q w q.inFlight (orderQueryTransponder_loaded (s := taken tag (.queryTransponder a) s) hx)⟩
  · intro t t'
    have hloaded : t' = segLoaded p s := by
      unfold segLoaded segRecomputed
      rw [hsegs]
    have hcheck : segmentCheck p s = true :=
      (segmentCheck_iff p s).mpr ⟨hn, fun hrun hu => runCause_absent hor hrun (hunfit.mp hu)⟩
    rw [hloaded]
    exact loadSegment_answers q w hcheck
  · exact answers_of rfl q w q.inFlight (orderLoadTransponder_refused (s := taken tag (.loadTransponder x) s) he (.inl h))
  · exact answers_of rfl q w q.inFlight
      (orderLoadTransponder_refused (s := taken tag (.loadTransponder x) s) he (.inr ⟨hrun, h⟩))
  · intro fresh loads
    have hfresh : xpNamed x role = fresh := xpNamed_eq x role
    have hno : ¬ (XpRefused s x ∨ (s.link.op = .run ∧ XpUnfit s x)) := by
      rintro (h | ⟨hrun, h⟩)
      · exact hn h
      · exact runCause_absent hor hrun h
    refine ⟨fun hx => ?_, fun o hx => ?_⟩
    · have e := orderLoadTransponder_empty (s := taken tag (.loadTransponder x) s) he hr hno hx
      have hreply := loadTransponder_answers q w (told := fun u => u) (fun _ _ => rfl) rfl e
      rw [hfresh] at hreply
      exact hreply
    · intro new
      have hnew : reloadXp (some o) (xpNamed x role) = new := by rw [reloadXp_some, hfresh]
      have e := orderLoadTransponder_again (s := taken tag (.loadTransponder x) s) he hr hno hx
      have hreply := loadTransponder_answers q w (xpNotice_flightFree x.index o _ .reload) (reloadXp_segment ..) e
      rw [hnew] at hreply
      exact hreply
  · have hquery : Answers (.querySegment tag n) s s tag (.querySegment n) .ok (segBytes s n g) :=
      answers_of rfl q w q.inFlight (orderQuerySegment_loaded (s := taken tag (.querySegment n) s) hg)
    rw [segBytes_eq hg] at hquery
    exact hquery

end Sys2Proof.Safety
end

