-- ==== Proofs/OutageRecords.lean ====
section
/-! PROOFS. ACK-OUTAGE and LIST-OUTAGES, the close of an outage record, and the one that a full log gives up (R103 to R106, R108,
R109; O46). -/

namespace Sys2Proof.Safety

open Sys2Proof.Machine

/-! ## ACK-OUTAGE and LIST-OUTAGES (R108, R109) -/

/-- The cause of an outage record with its root record id (R102). -/
def causeBytes : OutageCause → List Byte
  | .root => [0, 0xFF]
  | .inherited i => [1] ++ u8 i

/-- The fields of an outage record, the cause as two bytes (R102). -/
theorem outageBytes_eq (r : Outage) : outageBytes r = u8 r.id ++ u8 r.segment ++ u32 r.start ++ opt 4 (r.stop.map (·.1))
    ++ causeBytes r.cause
    ++ opt 1 (r.stop.map (fun x => match x.2 with | .restored => 0 | .held => 1 | .shadowed => 2))
    ++ flag r.credit ++ flag r.acked := by
  unfold outageBytes causeBytes
  cases r.cause <;> rfl

/-- The matter of OUTAGE_OPEN, the cause as two bytes (R104). -/
theorem openedBytes_eq (cause : HandCause) (minute : Nat) (r : Outage) : openedBytes cause minute r
    = u8 r.id ++ u8 r.segment ++ causeBytes r.cause ++ u32 r.start ++ u32 minute ++ u8 (handCauseNum cause) := by
  unfold openedBytes causeBytes
  cases r.cause <;> rfl

/-- ACK-OUTAGE of an id that no record of the log holds. -/
theorem orderAckOutage_none {id : Nat} {s : State} (h : outageOf s id = none) : orderAckOutage id s = refuse .badArg s := by
  unfold orderAckOutage
  rw [h]

/-- The state with an outage record written in the place of the one with its id. -/
def outagePut (id : Nat) (r : Outage) (s : State) : State :=
  { s with outage.records := s.outage.records.map (fun x => if x.id = id then r else x) }

/-- ACK-OUTAGE of a record of the log. -/
theorem orderAckOutage_some {id : Nat} {r : Outage} {s : State} (h : outageOf s id = some r) :
    orderAckOutage id s = answer .ok (outageBytes { r with acked := true }) (outagePut id { r with acked := true } s) := by
  unfold orderAckOutage
  rw [h]
  rfl

/-- The records of the three selections of LIST-OUTAGES (R109). -/
theorem outageSelection_eq {k : Nat} (h : k ≤ 2) (l : List Outage) : outageSelection k l
    = some (l.filter (fun r => if k = 0 then true else if k = 1 then r.stop.isNone else !r.acked)) := by
  match k, h with
  | 0, _ => simp [outageSelection]
  | 1, _ => rfl
  | 2, _ => rfl

/-- LIST-OUTAGES of a selection that none of R109 is. -/
theorem orderListOutages_refused {k : Nat} (h : 2 < k) (start : Nat) (s : State) :
    orderListOutages k start s = refuse .badArg s := by
  match k, h with
  | _ + 3, _ => rfl

/-- The matter of LIST-OUTAGES for the records chosen (R109). -/
def outageListBytes (s : State) (chosen page : List Outage) : List Byte :=
  u16 s.outage.records.length ++ u16 chosen.length ++ u8 s.outage.nextId ++ u16 s.params.creditThreshold
    ++ listOf (fun r => outageBytes r
      ++ (if r.stop.isSome && !r.credit then flag (creditWaiting s r.id) else absent 1)) page

/-- LIST-OUTAGES of one of the three selections. -/
theorem orderListOutages_lists {k : Nat} {s : State} {chosen : List Outage}
    (h : outageSelection k s.outage.records = some chosen) (start : Nat) :
    orderListOutages k start s = answer .ok (outageListBytes s chosen ((chosen.drop start).take 16)) s := by
  unfold orderListOutages
  rw [h]
  rfl

/-! ## The close of a record (R105, R106) -/

/-- The matter of the OUTAGE record of an outage that ends (R106). -/
def endedFields (n id : Nat) (r : Outage) (s : State) : List Byte :=
  outageFields n id r.start (max r.start (currentOpenMinute s)) (minuteOf s)
    (qualifies s.params.creditThreshold (minuteOf s - r.start))

/-- The OUTAGE record's fields leave eleven bytes of its body (12.5). -/
theorem endedFields_length (n id : Nat) (r : Outage) (s : State) : (endedFields n id r s).length + 11 = 26 := by
  have hflag (b : Bool) : (flag b).length = 1 := by cases b <;> rfl
  simp only [endedFields, outageFields, u8, u32, List.length_append, be_length, hflag]

/-- A segment that left DARK closes its record, where the store takes the OUTAGE record and more than 256 slots stay free. -/
theorem closeOutage_room {s : State} {n id : Nat} {r : Outage} (after : Service)
    (ho : (segOf s n).bind (·.openOutage) = some id) (hr : outageOf s id = some r) (hf : s.store.fault = false)
    (hroom : 257 < freeSlots s) : closeOutage n after s = notice nkOutageClose false
      (outageBytes (closedRecord after (minuteOf s) r) ++ flag (qualifies s.params.creditThreshold (minuteOf s - r.start)))
      (recordJoined (recordBody rkOutage (minuteOf s) (endedFields n id r s)) (.outage (some id))
        (outageEnded n id (closedRecord after (minuteOf s) r) s)) := by
  have hstored := appendAuto_room (s := outageEnded n id (closedRecord after (minuteOf s) r) s) hf hroom rkOutage
    (endedFields n id r s) (.outage (some id))
  unfold closeOutage
  rw [ho]
  dsimp only
  rw [hr]
  exact congrArg (fun t => notice nkOutageClose false _ t.1) hstored

/-! ## The record that a full log gives up (R103) -/

/-- In a log of at most 64 records the next id is the first one after id, on the circle of ids, that no record holds. -/
theorem freeOutageId_next {l : List Outage} (h : l.length ≤ 64) (id : Nat) :
    ∃ j, freeOutageId 65 l ((id + 1) % 256) = (id + 1 + j) % 256
      ∧ (∀ x ∈ l, x.id ≠ freeOutageId 65 l ((id + 1) % 256)) ∧ ∀ i < j, ∃ x ∈ l, x.id = (id + 1 + i) % 256 := by
  obtain ⟨j, hout, hfree, hpassed⟩ := freeOutageId_first l ((id + 1) % 256) (Nat.mod_lt _ (by decide)) h
  refine ⟨j, hout.trans (Nat.mod_add_mod ..), hfree, fun i hi => ?_⟩
  rw [← Nat.mod_add_mod]
  exact hpassed i hi

/-- The record of the oldest closed outage is the first closed one of the log. -/
theorem find_closed {l₁ l₂ : List Outage} {r : Outage} (hopen : ∀ x ∈ l₁, x.stop = none) (hr : r.stop ≠ none) :
    (l₁ ++ r :: l₂).find? (fun x => x.stop.isSome) = some r := by
  have hnone : l₁.find? (fun x => x.stop.isSome) = none := by
    rw [List.find?_eq_none]
    intro x hx
    simp [hopen x hx]
  rw [List.find?_append, hnone, Option.none_or]
  exact List.find?_cons_of_pos (Option.isSome_iff_ne_none.mpr hr)

/-- A full log removes its oldest closed record, and tells of one that was not acknowledged. -/
theorem evict_full {s : State} {r : Outage} (hfull : s.outage.records.length = 64)
    (hr : s.outage.records.find? (fun x => x.stop.isSome) = some r) : evict s
      = if r.acked then outageRemoved r s else notice nkOutageEvicted false (outageBytes r) (outageRemoved r s) := by
  unfold evict
  rw [if_neg (by omega), hr]
  rfl

/-- The item of the append queue once an outage record is gone: an OUTAGE record of its reports to none (log 32). -/
def itemForgets (id : Nat) : StoreItem → StoreItem
  | .record body (.outage (some j)) => .record body (.outage (if j = id then none else some j))
  | i => i

/-- The removal of a record makes the append queue forget it. -/
theorem outageRemoved_eq (r : Outage) (s : State) : outageRemoved r s = { s with
    outage.records := s.outage.records.filter (fun x => x.id ≠ r.id)
    store.queue := s.store.queue.map (itemForgets r.id) } := by
  refine congrArg (fun q => { s with outage.records := s.outage.records.filter (fun x => x.id ≠ r.id), store.queue := q })
    (List.map_congr_left fun i _ => ?_)
  match i with
  | .record b (.outage (some k)) => exact (apply_ite (fun x => StoreItem.record b (.outage x)) ..).symm
  | .record _ (.outage none) | .record _ .order | .record _ .roll | .record _ .other | .header .. | .identity .. => rfl

/-- Settles O46: each order by its check, the close by the room of the journal, the opening in a full log by its oldest closed
record. -/
theorem outageRecordsAreKept : Obligations.OutageRecordsAreKept := by
  intro tag id k start s q w entry known
  have hentry : outageBytes = entry := funext fun r => by
    rw [outageBytes_eq]
    rfl
  refine ⟨fun h => ?_, fun r h => ?_, fun h => ?_, fun h => ?_, fun n after g r hg ho hr hf hroom => ?_,
    fun n cause g l₁ l₂ r hg hlog hfull hopen hr => ?_⟩
  · exact answers_of rfl q w q.inFlight (orderAckOutage_none (s := taken tag (.ackOutage id) s) h)
  · rw [← hentry]
    exact answers_of (s' := outagePut id { r with acked := true } s) rfl q w q.inFlight
      (orderAckOutage_some (s := taken tag (.ackOutage id) s) h)
  · exact answers_of rfl q w q.inFlight (orderListOutages_refused h start (taken tag (.listOutages k start) s))
  · intro chosen page
    have hlist := answers_of (i := .listOutages tag k start) (o := .listOutages k start) (s' := s) rfl q w q.inFlight
      (orderListOutages_lists (s := taken tag (.listOutages k start) s) (outageSelection_eq h s.outage.records) start)
    rw [← hentry]
    exact hlist
  · intro now closed length credit body
    have hseg : (segOf s n).bind (·.openOutage) = some id := by
      unfold segOf
      rw [hg]
      exact ho
    have hclosed : closedRecord after (minuteOf s) r = closed := by
      unfold closedRecord
      cases after <;> rfl
    have hbody : recordBody rkOutage (minuteOf s) (endedFields n id r s) = body := by
      rw [recordBody_eq (endedFields_length n id r s)]
      simp only [endedFields, outageFields, List.append_assoc]
      rfl
    rw [closeOutage_room after hseg hr hf hroom, hclosed, hbody, hentry]
    rfl
  · intro now fresh next root start why forgets removed told
    have hrecord : openedRecord n cause g s = ⟨fresh, n, start, none, why, false, false⟩ := by
      have hstart : (if (root && (cause = .reply || cause = .miss || cause = .reload)) = true then g.missMinute.getD now else now)
          = start := if_congr (by simp [or_assoc]) rfl rfl
      exact congrArg (fun m => (⟨fresh, n, m, none, why, false, false⟩ : Outage)) hstart
    have hremoved : outageRemoved r (idAdvanced s) = removed := outageRemoved_eq r (idAdvanced s)
    have hevict : evict (idAdvanced s) = told := by
      rw [evict_full (s := idAdvanced s) hfull (hlog ▸ find_closed hopen hr), hremoved, hentry]
    have hsegs : told.telemetry = s.telemetry := by
      show (if r.acked = true then removed else notice _ _ _ removed).telemetry = s.telemetry
      split
      · rfl
      · rw [notice_eq]
    refine ⟨freeOutageId_next hfull.le fresh, ?_⟩
    rw [openOutage_eq hg, hrecord, openedBytes_eq, hevict]
    unfold outageJoined modSeg
    simp only [hsegs]
    rfl

end Sys2Proof.Safety
end

