-- ==== Proofs/WatchOrders.lean ====
section
/-! PROOFS. WATCH-SET, WATCH-CLEAR and RECLAIM-WATCH, and what a watch event does to the whole table (R111 to R114, R120, R130;
O47). -/

namespace Sys2Proof.Safety

open Sys2Proof.Machine

/-! ## WATCH-SET and WATCH-CLEAR (R111, R112) -/

/-- What refuses the arguments of WATCH-SET (R111; logs 18 and 20). -/
def WatchRefused (p : WatchArgs) : Prop :=
  7 < p.entry ∨ 1 < p.kind ∨ 4095 < p.address ∨ p.span ∉ [1, 2, 4, 8, 16, 32, 64, 128, 256]
    ∨ (p.kind = 0 ∧ (p.kinds = 0 ∨ 127 < p.kinds)) ∨ 1 < p.cls ∨ 1 < p.oneShot

/-- The watch that the arguments of WATCH-SET describe (R110, R111). -/
def watchAsked (p : WatchArgs) : Watch :=
  ⟨p.kind = 1, p.address - p.address % p.span, p.span, if p.kind = 1 then 0 else p.kinds, p.cls = 0, p.oneShot = 1⟩

/-- A yes or no is read from 0 and 1 alone. -/
theorem flagArg_eq (v : Nat) : flagArg v = if 1 < v then none else some (decide (v = 1)) := by
  match v with
  | 0 | 1 => rfl
  | v + 2 =>
    unfold flagArg
    rw [if_neg (by omega), if_neg (by omega), if_pos (by omega)]

/-- Of a byte of 0 or 1, what is not 1 is 0. -/
theorem not_one_iff_zero {v : Nat} (h : ¬ 1 < v) : (!decide (v = 1)) = decide (v = 0) := by
  rw [← decide_not, decide_eq_decide]
  omega

/-- The arguments of WATCH-SET describe a watch unless they are refused. -/
theorem watchOfArgs_eq (p : WatchArgs) [Decidable (WatchRefused p)] :
    watchOfArgs p = if WatchRefused p then none else some (p.entry, watchAsked p) := by
  unfold watchOfArgs
  rw [flagArg_eq, flagArg_eq, flagArg_eq]
  by_cases hk : 1 < p.kind
  · have hrefused : WatchRefused p := .inr (.inl hk)
    rw [if_pos hk, if_pos hrefused]
  by_cases hc : 1 < p.cls
  · have hrefused : WatchRefused p := by simp only [WatchRefused, hc, true_or, or_true]
    rw [if_neg hk, if_pos hc, if_pos hrefused]
  by_cases ho : 1 < p.oneShot
  · have hrefused : WatchRefused p := by simp only [WatchRefused, ho, or_true]
    rw [if_neg hk, if_neg hc, if_pos ho, if_pos hrefused]
  have hguard : (!decide (p.kind = 1)) = decide (p.kind = 0) := not_one_iff_zero hk
  have hwatch : (⟨decide (p.kind = 1), p.address / p.span * p.span, p.span, if decide (p.kind = 1) = true then 0 else p.kinds,
      !decide (p.cls = 1), decide (p.oneShot = 1)⟩ : Watch) = watchAsked p := by
    rw [Nat.div_mul_self_eq_mod_sub_self, not_one_iff_zero hc, watchAsked]
    simp only [decide_eq_true_eq]
  rw [if_neg hk, if_neg hc, if_neg ho]
  dsimp only
  rw [hwatch, hguard]
  refine if_congr ?_ rfl rfl
  unfold WatchRefused isSpan
  simp only [hk, hc, ho, false_or, or_false, Bool.or_eq_true, Bool.and_eq_true, decide_eq_true_eq, Bool.not_eq_true',
    List.contains_eq_mem, decide_eq_false_iff_not, or_assoc, or_comm (a := 127 < p.kinds)]

section
variable {s : State}

/-- WATCH-SET while the craft port owns the watches. -/
theorem orderWatchSet_owned (ho : s.outage.owner = .craft) (p : WatchArgs) : orderWatchSet p s = refuse .held s := if_pos ho

/-- WATCH-CLEAR while the craft port owns the watches. -/
theorem orderWatchClear_owned (ho : s.outage.owner = .craft) (n : Nat) : orderWatchClear n s = refuse .held s := if_pos ho

/-- RECLAIM-WATCH while the craft port owns the watches. -/
theorem orderReclaimWatch_owned (ho : s.outage.owner = .craft) : orderReclaimWatch s
    = answer .ok (watchReply { s with outage.owner := .host })
      (printLine [word "RECLAIMED", word "BY", word "OFFICE"] (changeOwner .host 2 s)) := by
  have hreply : watchReply (printLine [word "RECLAIMED", word "BY", word "OFFICE"] (changeOwner .host 2 s))
      = watchReply { s with outage.owner := .host } := by
    rw [printLine_eq]
    unfold changeOwner
    rw [notice_eq]
    rfl
  unfold orderReclaimWatch
  rw [if_pos ho]
  dsimp only
  rw [hreply]

/-- While the host owns the watches no order about them is refused HELD. -/
theorem host_ne_craft (ho : s.outage.owner = .host) : ¬ s.outage.owner = .craft := by
  rw [ho]
  decide

variable (ho : s.outage.owner = .host)
include ho

/-- WATCH-SET of arguments that are refused. -/
theorem orderWatchSet_refused {p : WatchArgs} (h : WatchRefused p) : orderWatchSet p s = refuse .badArg s := by
  classical
  unfold orderWatchSet
  rw [if_neg (host_ne_craft ho), watchOfArgs_eq, if_pos h]

/-- WATCH-SET of arguments that describe a watch. -/
theorem orderWatchSet_sets {p : WatchArgs} (h : ¬ WatchRefused p) : orderWatchSet p s
    = answer .ok (watchReply (writeWatch p.entry (watchAsked p) s)) (writeWatch p.entry (watchAsked p) s) := by
  classical
  unfold orderWatchSet
  rw [if_neg (host_ne_craft ho), watchOfArgs_eq, if_neg h]

/-- WATCH-CLEAR of an entry out of range. -/
theorem orderWatchClear_range {n : Nat} (h : 7 < n) : orderWatchClear n s = refuse .badArg s := by
  unfold orderWatchClear
  rw [if_neg (host_ne_craft ho), if_pos h]

/-- WATCH-CLEAR of an entry of the table. -/
theorem orderWatchClear_clears {n : Nat} (h : n ≤ 7) :
    orderWatchClear n s = answer .ok (watchReply (clearWatch n s)) (clearWatch n s) := by
  unfold orderWatchClear
  rw [if_neg (host_ne_craft ho), if_neg (Nat.not_lt.mpr h)]

/-- RECLAIM-WATCH while the host owns the watches. -/
theorem orderReclaimWatch_host : orderReclaimWatch s = answer .ok (watchReply s) s := by
  unfold orderReclaimWatch
  rw [if_neg (host_ne_craft ho)]

end

/-- The claim of the watches does not look at the order in flight. -/
theorem changeOwner_flightFree (o : Owner) (cause : Nat) : FlightFree (changeOwner o cause) :=
  fun f s => notice_flightFree _ _ _ f { s with outage.owner := o }

/-- A list with a function applied to a member that stands. -/
theorem lmod_eq_set {α : Type} {l : List α} {i : Nat} {v : α} (h : l[i]? = some v) (f : α → α) : lmod l i f = l.set i (f v) := by
  unfold lmod
  rw [h]

/-- WATCH-CLEAR disables the entry that stands. -/
theorem clearWatch_eq {n : Nat} {e : WatchEntry} {s : State} (h : s.outage.watches[n]? = some e) :
    clearWatch n s = { s with outage.watches := s.outage.watches.set n { e with enabled := false } } := by
  unfold clearWatch
  rw [lmod_eq_set h]

/-! ## The report of a hit (R114, R130) -/

/-- Whose address a hit reports, as bytes (R114). -/
def deviceBytes : Option (Bool × Nat) → List Byte
  | some (true, i) => [0] ++ u16 i
  | some (false, i) => [1] ++ u8 i
  | none => [0xFF, 0xFF]

/-- Whose address a hit reports, as words (R130). -/
def deviceWords : Option (Bool × Nat) → List Text
  | some (true, i) => [word "TAP", dec i]
  | some (false, i) => [word "XP", dec i]
  | none => []

/-- The matter of WATCH_HIT (R114). -/
def hitBytes (n : Nat) (w : Watch) (k : WatchKind) (a hits : Nat) (s : State) : List Byte :=
  u8 n ++ u8 (watchKindNum k) ++ u16 a ++ deviceBytes (deviceOf s a) ++ u8 hits ++ flag w.once ++ opt 4 (s.time.clock.map (·.1))

/-- The words of the line HIT (R130). -/
def hitWords (n : Nat) (w : Watch) (k : WatchKind) (a hits : Nat) (s : State) : List Text :=
  [word "HIT", dec n, word (watchKindName k), dec a] ++ deviceWords (deviceOf s a) ++ [dec hits]
    ++ (if w.once then [word "OFF"] else [])

section
variable {s : State} (n : Nat) (w : Watch) (k : WatchKind) (a hits : Nat)

/-- A hit is reported to the host while it owns the watches. -/
theorem reportHit_host (ho : s.outage.owner = .host) :
    reportHit n w k a hits s = notice nkWatchHit w.urgent (hitBytes n w k a hits s) s := by
  unfold reportHit hitBytes deviceBytes
  rw [ho]
  rcases deviceOf s a with _ | ⟨_ | _, _⟩ <;> rfl

/-- A hit is printed while the craft port owns the watches. -/
theorem reportHit_craft (ho : s.outage.owner = .craft) :
    reportHit n w k a hits s = printLine (hitWords n w k a hits s) s := by
  unfold reportHit
  rw [ho]
  rfl

/-- The state with a watch table. -/
def withWatches (ws : List WatchEntry) (s : State) : State := { s with outage.watches := ws }

/-- The report of a hit does not look at the watch table. -/
theorem reportHit_withWatches (ws : List WatchEntry) :
    reportHit n w k a hits (withWatches ws s) = withWatches ws (reportHit n w k a hits s) := by
  cases ho : s.outage.owner with
  | host =>
    rw [reportHit_host (s := withWatches ws s) _ _ _ _ _ ho, reportHit_host _ _ _ _ _ ho, notice_eq, notice_eq]
    rfl
  | craft =>
    rw [reportHit_craft (s := withWatches ws s) _ _ _ _ _ ho, reportHit_craft _ _ _ _ _ ho]
    exact (printLine_eq ..).trans (congrArg (withWatches ws) (printLine_eq ..)).symm

/-- The report of a hit leaves the outage log and the watch unit. -/
theorem reportHit_outage : (reportHit n w k a hits s).outage = s.outage := by
  cases ho : s.outage.owner with
  | host => rw [reportHit_host _ _ _ _ _ ho, notice_eq]
  | craft => rw [reportHit_craft _ _ _ _ _ ho, printLine_eq]

end

/-! ## A watch event (R113) -/

/-- An event hits an entry. -/
def hitBy (k : WatchKind) (a : Nat) (e : WatchEntry) : Bool :=
  e.enabled && e.watch.any (fun w => !w.guard && inRange w a && w.kinds.testBit (watchKindNum k))

/-- The hit count of an entry once it is hit. -/
def hitCount (e : WatchEntry) : Nat := if e.hits < 255 then e.hits + 1 else 255

/-- An entry after an event. -/
def struckBy (k : WatchKind) (a : Nat) (e : WatchEntry) : WatchEntry :=
  if hitBy k a e then { e with enabled := !(e.watch.any (·.once)), hits := hitCount e } else e

/-- The hit of an entry is reported, with its number. -/
def hitTold (k : WatchKind) (a : Nat) (s : State) (x : WatchEntry × Nat) : State :=
  match x.1.watch with
  | none => s
  | some w => reportHit x.2 w k a (hitCount x.1) s

section
variable (k : WatchKind) (a : Nat)

theorem hitTold_withWatches (ws : List WatchEntry) (s : State) (x : WatchEntry × Nat) :
    hitTold k a (withWatches ws s) x = withWatches ws (hitTold k a s x) := by
  unfold hitTold
  split
  · rfl
  · exact reportHit_withWatches ..

theorem hitTold_outage (s : State) (x : WatchEntry × Nat) : (hitTold k a s x).outage = s.outage := by
  unfold hitTold
  split
  · rfl
  · exact reportHit_outage ..

/-- An entry that an event does not hit stays as it was. -/
theorem struckBy_of_not {e : WatchEntry} (h : hitBy k a e = false) : struckBy k a e = e := by
  unfold struckBy
  rw [h]
  rfl

/-- The check of an entry that the event does not hit. -/
theorem checkEntry_not {s : State} {n : Nat} {e : WatchEntry} (he : s.outage.watches[n]? = some e) (h : hitBy k a e = false) :
    checkEntry k a s n = s := by
  unfold checkEntry
  rw [he]
  dsimp only
  cases hw : e.watch with
  | none => rfl
  | some w =>
    unfold hitBy at h
    rw [hw, Option.any_some, ← Bool.and_assoc, ← Bool.and_assoc] at h
    dsimp only
    rw [h]
    rfl

/-- The check of an entry that the event hits. -/
theorem checkEntry_hit {s : State} {n : Nat} {e : WatchEntry} (he : s.outage.watches[n]? = some e) (h : hitBy k a e = true) :
    checkEntry k a s n = hitTold k a (withWatches (s.outage.watches.set n (struckBy k a e)) s) (e, n) := by
  cases hw : e.watch with
  | none => simp [hitBy, hw] at h
  | some w =>
    have hcond : (e.enabled && !w.guard && inRange w a && w.kinds.testBit (watchKindNum k)) = true := by
      simpa only [hitBy, hw, Option.any_some, Bool.and_assoc] using h
    have hen : e.enabled = true := (Bool.and_eq_true_iff.mp h).1
    have hcount : min 255 (e.hits + 1) = hitCount e := by
      unfold hitCount
      split <;> omega
    have hstruck : struckBy k a e = { e with enabled := !w.once, hits := hitCount e } := by
      rw [struckBy, if_pos h, hw]
      rfl
    have hcounted : ({ e with hits := hitCount e } : WatchEntry) = { e with enabled := true, hits := hitCount e } := by rw [hen]
    have hplace (x : WatchEntry) : (s.outage.watches.set n x)[n]? = some x :=
      List.getElem?_set_self (List.getElem?_eq_some_iff.mp he).1
    unfold checkEntry hitTold
    rw [he]
    dsimp only
    rw [hw]
    dsimp only
    rw [if_pos hcond, hcount, lmod_eq_set he, hstruck]
    cases ho : w.once with
    | false =>
      rw [if_neg (by decide), hcounted]
      rfl
    | true =>
      have hlast (t : State) (ht : t.outage.watches = s.outage.watches.set n { e with hits := hitCount e }) :
          lmod (reportHit n w k a (hitCount e) t).outage.watches n (fun e => { e with enabled := false })
            = s.outage.watches.set n { e with enabled := false, hits := hitCount e } := by
        rw [reportHit_outage, ht, lmod_eq_set (hplace _), List.set_set]
      rw [if_pos rfl]
      exact (congrArg (fun ws => withWatches ws (reportHit n w k a (hitCount e) (withWatches _ s))) (hlast _ rfl)).trans
        (reportHit_withWatches ..).symm

/-- The checks of a table's entries from some number on, one after the other. -/
theorem checkEntries_eq (l : List WatchEntry) : ∀ (l₀ : List WatchEntry) (s : State), s.outage.watches = l₀ ++ l →
    (List.range' l₀.length l.length).foldl (checkEntry k a) s = ((l.zipIdx l₀.length).filter (fun x => hitBy k a x.1)).foldl
      (hitTold k a) (withWatches (l₀ ++ l.map (struckBy k a)) s) := by
  induction l with
  | nil =>
    intro l₀ s hs
    rw [List.map_nil, ← hs]
    rfl
  | cons e l ih =>
    intro l₀ s hs
    have he : s.outage.watches[l₀.length]? = some e := by simp [hs]
    have hrest (x : WatchEntry) (t : State) (ht : t.outage.watches = l₀ ++ x :: l) :
        (List.range' (l₀.length + 1) l.length).foldl (checkEntry k a) t
          = ((l.zipIdx (l₀.length + 1)).filter (fun x => hitBy k a x.1)).foldl (hitTold k a)
            (withWatches (l₀ ++ x :: l.map (struckBy k a)) t) := by
      have h := ih (l₀ ++ [x]) t (by rw [ht, List.append_assoc, List.singleton_append])
      rw [List.length_append, List.length_singleton, List.append_assoc, List.singleton_append] at h
      exact h
    rw [List.length_cons, List.range'_succ, List.foldl_cons, List.zipIdx_cons, List.map_cons]
    cases h : hitBy k a e with
    | false =>
      rw [checkEntry_not k a he h, List.filter_cons_of_neg (by simp [h]), struckBy_of_not k a h]
      exact hrest e s hs
    | true =>
      have htable : (s.outage.watches.set l₀.length (struckBy k a e)) = l₀ ++ struckBy k a e :: l := by
        rw [hs, List.set_append_right _ _ le_rfl, Nat.sub_self, List.set_cons_zero]
      rw [checkEntry_hit k a he h, List.filter_cons_of_pos (p := fun x : WatchEntry × Nat => hitBy k a x.1) h, List.foldl_cons,
        hrest (struckBy k a e) _ (by rw [hitTold_outage]; exact htable), ← hitTold_withWatches]
      rfl

/-- An event hits entry after entry: the table is struck, and each hit reported in ascending entry. -/
theorem watchEvent_eq {s : State} (h : s.outage.watches.length = 8) : watchEvent k a s
    = ((s.outage.watches.zipIdx).filter (fun x => hitBy k a x.1)).foldl (hitTold k a)
      (withWatches (s.outage.watches.map (struckBy k a)) s) := by
  have hchecks := checkEntries_eq k a s.outage.watches [] s rfl
  rw [h] at hchecks
  exact hchecks

/-- The hit of an entry as it is reported at an event that finds a state: by its owner, with its clock and its devices. -/
def hitReported (s t : State) (x : WatchEntry × Nat) : State :=
  match x.1.watch with
  | none => t
  | some w => match s.outage.owner with
    | .host => notice nkWatchHit w.urgent (hitBytes x.2 w k a (hitCount x.1) s) t
    | .craft => printLine (hitWords x.2 w k a (hitCount x.1) s) t

/-- What an event has changed does not show in its reports. -/
theorem hitTold_reported {s t : State} (h : WatchOnly s t) (x : WatchEntry × Nat) : hitTold k a t x = hitReported k a s t x := by
  obtain ⟨l, ws, c, rfl, -, -⟩ := h
  unfold hitTold hitReported
  cases x.1.watch with
  | none => rfl
  | some w =>
    dsimp only
    cases s.outage.owner with
    | host => exact reportHit_host _ _ _ _ _ rfl
    | craft => exact reportHit_craft _ _ _ _ _ rfl

/-- So the reports of an event can be read of the state that it finds. -/
theorem foldl_hitTold {s : State} (l : List (WatchEntry × Nat)) : ∀ t, WatchOnly s t →
    l.foldl (hitTold k a) t = l.foldl (hitReported k a s) t := by
  induction l with
  | nil => exact fun _ _ => rfl
  | cons x l ih =>
    intro t ht
    have hnext : WatchOnly s (hitTold k a t x) := by
      unfold hitTold
      split
      · exact ht
      · exact ht.trans (reportHit_watchOnly ..)
    rw [List.foldl_cons, List.foldl_cons, ih _ hnext, hitTold_reported k a ht]

/-- A table that an event does not hit stays as it was. -/
theorem map_struckBy {l : List WatchEntry} (h : ∀ e ∈ l, hitBy k a e = false) : l.map (struckBy k a) = l :=
  (List.map_congr_left fun e he => struckBy_of_not k a (h e he)).trans (List.map_id' l)

/-- Of a table that an event does not hit nothing is told. -/
theorem filter_hitBy {l : List WatchEntry} (h : ∀ e ∈ l, hitBy k a e = false) (n : Nat) :
    (l.zipIdx n).filter (fun x => hitBy k a x.1) = [] :=
  List.filter_eq_nil_iff.mpr fun x hx => Bool.eq_false_iff.mp (h x.1 (List.fst_mem_of_mem_zipIdx hx))

/-- An event that hits no entry. -/
theorem watchEvent_none {s : State} (hlen : s.outage.watches.length = 8) (h : ∀ e ∈ s.outage.watches, hitBy k a e = false) :
    watchEvent k a s = s := by
  rw [watchEvent_eq k a hlen, map_struckBy k a h, filter_hitBy k a h]
  rfl

/-- An event that hits one entry. -/
theorem watchEvent_one {s : State} (hlen : s.outage.watches.length = 8) {l₁ l₂ : List WatchEntry} {e : WatchEntry}
    (hs : s.outage.watches = l₁ ++ e :: l₂) (he : hitBy k a e = true) (h : ∀ e ∈ l₁ ++ l₂, hitBy k a e = false) :
    watchEvent k a s = hitTold k a (withWatches (l₁ ++ struckBy k a e :: l₂) s) (e, l₁.length) := by
  have h₁ : ∀ e ∈ l₁, hitBy k a e = false := fun e he => h e (List.mem_append_left _ he)
  have h₂ : ∀ e ∈ l₂, hitBy k a e = false := fun e he => h e (List.mem_append_right _ he)
  rw [watchEvent_eq k a hlen, hs, List.zipIdx_append, List.filter_append, filter_hitBy k a h₁, List.zipIdx_cons,
    List.filter_cons_of_pos (p := fun x : WatchEntry × Nat => hitBy k a x.1) he, filter_hitBy k a h₂, List.map_append, List.map_cons,
    map_struckBy k a h₁, map_struckBy k a h₂, Nat.zero_add]
  rfl

end

/-- Settles O47: the orders by the owner and their checks, and an event by the walk of the whole table, of which the event that
hits no entry and the one that hits one entry are cases. -/
theorem watchOrdersAndHits : Obligations.WatchOrdersAndHits := by
  intro tag p n s q so w sets clears wrong entry
  have hlen := so.watches
  refine ⟨fun ho => ⟨?_, ?_, ?_⟩, fun ho => ⟨fun h => ?_, fun h => ?_, fun h => ?_, fun e he => ?_, ?_⟩, fun k a => ⟨fun h => ?_,
    fun l₁ l₂ v hits hs he h ho => ?_, ?_⟩⟩
  · exact answers_of rfl q w q.inFlight (orderWatchSet_owned (s := taken tag (.watchSet p) s) ho p)
  · exact answers_of rfl q w q.inFlight (orderWatchClear_owned (s := taken tag (.watchClear n) s) ho n)
  · intro u told
    have hfree := (changeOwner_flightFree .host 2).comp (printLine_flightFree [word "RECLAIMED", word "BY", word "OFFICE"])
    have hclaim := orderReclaimWatch_owned (s := taken tag .reclaimWatch s) ho
    rw [hfree.taken] at hclaim
    exact answers_of rfl q w ((hfree.inFlight s).trans q.inFlight) hclaim
  · exact answers_of rfl q w q.inFlight (orderWatchSet_refused (s := taken tag (.watchSet p) s) ho h)
  · exact answers_of (s' := writeWatch p.entry (watchAsked p) s) rfl q w q.inFlight
      (orderWatchSet_sets (s := taken tag (.watchSet p) s) ho h)
  · exact answers_of rfl q w q.inFlight (orderWatchClear_range (s := taken tag (.watchClear n) s) ho h)
  · intro t
    have ht : clearWatch n s = t := clearWatch_eq he
    have hn : n < s.outage.watches.length := (List.getElem?_eq_some_iff.mp he).1
    rw [← ht]
    exact answers_of (s' := clearWatch n s) rfl q w q.inFlight
      (orderWatchClear_clears (s := taken tag (.watchClear n) s) ho (by omega))
  · exact answers_of (s' := s) rfl q w q.inFlight (orderReclaimWatch_host (s := taken tag .reclaimWatch s) ho)
  · exact watchEvent_none k a hlen h
  · intro n
    have hstruck : struckBy k a ⟨true, some v, hits⟩ = ⟨!v.once, some v, n⟩ := if_pos he
    rw [watchEvent_one k a hlen hs he h, hstruck]
    exact reportHit_host (s := withWatches _ s) _ _ _ _ _ ho
  · intro count struck report
    exact (watchEvent_eq k a hlen).trans (foldl_hitTold k a _ _ (.table _ s))

end Sys2Proof.Safety
end

