-- ==== Proofs/HeldCommands.lean ====
section
/-! PROOFS. RELEASE-HELD and DROP-HELD of the host, RELEASE and DROP of the craft port (R118, R119, R129; O48). -/

namespace Sys2Proof.Safety

open Sys2Proof.Machine

/-! ## A held command leaves the list (R118, R119) -/

/-- The state with a place of the held list empty. -/
def placeEmptied (n : Nat) (s : State) : State := { s with outage.held := s.outage.held.set n none }

/-- The state with a place of the held list empty and the port of its command in a sync state with a pending class. -/
def heldMoved (n : Nat) (h : Held) (k : Sync) (c : Option PClass) (s : State) : State :=
  modPort (h.tap, h.port) (fun r => { r with sync := k, cls := c }) (placeEmptied n s)

section
variable {n : Nat} {h : Held} {r : Port} {s : State} (hr : portOf s (h.tap, h.port) = some r)
include hr

/-- The port of the command stands in the state that it has been moved to. -/
theorem portOf_heldMoved (k : Sync) (c : Option PClass) :
    portOf (heldMoved n h k c s) (h.tap, h.port) = some { r with sync := k, cls := c } := by
  have hport : portOf (placeEmptied n s) (h.tap, h.port) = some r := hr
  rw [heldMoved, portOf_modPort, if_pos rfl, hport]
  rfl

/-- A command released moves its port by the table of R118. -/
theorem releaseHeld_eq : releaseHeld n h s =
    if parkHoldsAt s h.tap then heldMoved n h .parked none s
    else if r.confirmed = some r.desired then heldMoved n h .inSync none s
    else joinUrgentHead (h.tap, h.port) true (heldMoved n h .pending (some .urgent) s) := by
  have hport : portOf { s with outage.held := s.outage.held.set n none } (h.tap, h.port) = some r := hr
  unfold releaseHeld
  dsimp only
  rw [hport]
  rfl

end

/-! ## The orders of the host (R118, R119) -/

section
variable {n : Nat} {s : State}

/-- RELEASE-HELD while the craft port owns the watches. -/
theorem orderReleaseHeld_owned (ho : s.outage.owner = .craft) : orderReleaseHeld n s = refuse .held s := if_pos ho

/-- DROP-HELD while the craft port owns the watches. -/
theorem orderDropHeld_owned (ho : s.outage.owner = .craft) : orderDropHeld n s = refuse .held s := if_pos ho

variable (ho : s.outage.owner = .host)
include ho

/-- RELEASE-HELD of a place without a command. -/
theorem orderReleaseHeld_empty (hh : heldAt s n = none) : orderReleaseHeld n s = refuse .badArg s := by
  unfold orderReleaseHeld
  rw [if_neg (host_ne_craft ho), hh]

/-- DROP-HELD of a place without a command. -/
theorem orderDropHeld_empty (hh : heldAt s n = none) : orderDropHeld n s = refuse .badArg s := by
  unfold orderDropHeld
  rw [if_neg (host_ne_craft ho), hh]

/-- RELEASE-HELD of a held command reports the list and the port's sync state as the release leaves them. -/
theorem orderReleaseHeld_releases {h : Held} {r : Port} {t : State} (hh : heldAt s n = some h) (ht : releaseHeld n h s = t)
    (hr : portOf t (h.tap, h.port) = some r) :
    orderReleaseHeld n s = answer .ok (heldListBytes t ++ u8 (syncNum r.sync)) t := by
  unfold orderReleaseHeld
  rw [if_neg (host_ne_craft ho), hh]
  dsimp only
  rw [ht, hr]
  rfl

/-- DROP-HELD of a held command reports the list as the drop leaves it. -/
theorem orderDropHeld_drops {h : Held} (hh : heldAt s n = some h) :
    orderDropHeld n s = answer .ok (heldListBytes (dropHeld n h s)) (dropHeld n h s) := by
  unfold orderDropHeld
  rw [if_neg (host_ne_craft ho), hh]

end

/-! ## The commands of the craft port (R129) -/

section
variable {n : Nat} {s : State} (w : Working s)
include w

/-- A watch command while the host owns the watches. -/
theorem craftOwned_host (ho : s.outage.owner = .host) (f : State → State) : craftOwned f s = printErr "OWNER" s := by
  unfold craftOwned
  rw [craftWorking_of w, if_pos ho]

/-- A watch command while the craft port owns the watches. -/
theorem craftOwned_craft (ho : s.outage.owner = .craft) (f : State → State) : craftOwned f s = f s := by
  unfold craftOwned
  rw [craftWorking_of w, if_neg (by rw [ho]; decide)]

/-- A command of a held place while the host owns the watches. -/
theorem craftHeld_host (ho : s.outage.owner = .host) (f : Held → State → State) : craftHeld n f s = printErr "OWNER" s :=
  craftOwned_host w ho _

variable (ho : s.outage.owner = .craft) (f : Held → State → State)
include ho

/-- A command of a place out of range. -/
theorem craftHeld_range (h : 15 < n) : craftHeld n f s = printErr "RANGE" s := by
  unfold craftHeld
  rw [craftOwned_craft w ho, if_pos h]

/-- A command of an empty place. -/
theorem craftHeld_empty (h : ¬ 15 < n) (hh : heldAt s n = none) : craftHeld n f s = printErr "STATE" s := by
  unfold craftHeld
  rw [craftOwned_craft w ho, if_neg h, hh]

/-- A command of a place that holds a command. -/
theorem craftHeld_holds {x : Held} (h : ¬ 15 < n) (hh : heldAt s n = some x) : craftHeld n f s = f x s := by
  unfold craftHeld
  rw [craftOwned_craft w ho, if_neg h, hh]

/-- RELEASE of a held command prints the port's sync state as the release leaves it. -/
theorem craftRelease_releases {x : Held} {r : Port} {t : State} (h : ¬ 15 < n) (hh : heldAt s n = some x)
    (ht : releaseHeld n x s = t) (hr : portOf t (x.tap, x.port) = some r) :
    craftRelease n s = printLine [word "OK", word "RELEASE", dec n, syncWord r.sync] t := by
  unfold craftRelease
  rw [craftHeld_holds w ho _ h hh]
  dsimp only
  rw [ht, hr]
  rfl

/-- DROP of a held command. -/
theorem craftDrop_drops {x : Held} (h : ¬ 15 < n) (hh : heldAt s n = some x) :
    craftDrop n s = printLine [word "OK", word "DROP", dec n] (dropHeld n x s) := craftHeld_holds w ho _ h hh

end

/-! ## The events of the orders and commands -/

/-- The event of a craft RELEASE that leaves the link ends with the choice of work. -/
theorem exec_release {n : Nat} {s t : State} {ws : List Text} (q : Quiet s) (e : craftRelease n s = printLine ws t)
    (ht : t.link = s.link) : exec (.release n) s = .next (kick (printLine ws t)) := by
  have hlink : (craftRelease n s).link = s.link := by rw [e, printLine_link, ht]
  rw [← e]
  exact next_finish_of_link q.waiting hlink

/-- The event of a craft DROP that leaves the link ends with the choice of work. -/
theorem exec_drop {n : Nat} {s t : State} {ws : List Text} (q : Quiet s) (e : craftDrop n s = printLine ws t)
    (ht : t.link = s.link) : exec (.drop n) s = .next (kick (printLine ws t)) := by
  have hlink : (craftDrop n s).link = s.link := by rw [e, printLine_link, ht]
  rw [← e]
  exact next_finish_of_link q.waiting hlink

/-- The word of a text. -/
theorem word_ofList (x : Text) : word (String.ofList x) = x := String.toList_ofList

/-- What a release makes of the state is told by the order to the host, and by the craft command on the terminal. -/
theorem release_told {tag : Byte} {n : Nat} {s t : State} {h : Held} {r : Port} (q : Quiet s) (w : Working s) (hn : ¬ 15 < n)
    (hh : heldAt s n = some h) (ht : ∀ f, releaseHeld n h (withFlight f s) = withFlight f t) (hlink : t.link = s.link)
    (hr : portOf t (h.tap, h.port) = some r) :
    (s.outage.owner = .host →
      Answers (.releaseHeld tag n) s t tag (.releaseHeld n) .ok (heldListBytes t ++ u8 (syncNum r.sync)))
    ∧ (s.outage.owner = .craft →
      exec (.release n) s = .next (kick (printLine [word "OK", word "RELEASE", dec n, syncWord r.sync] t))) := by
  refine ⟨fun ho => ?_, fun ho => ?_⟩
  · exact answers_of (s' := t) rfl q w ((congrArg Link.inFlight hlink).trans q.inFlight)
      (orderReleaseHeld_releases (s := taken tag (.releaseHeld n) s) ho hh (ht _) hr)
  · have hs : releaseHeld n h s = t :=
      (ht s.link.inFlight).trans (congrArg (fun l : Link => withFlight l.inFlight t) hlink.symm)
    exact exec_release q (craftRelease_releases w ho hn hh hs hr) hlink

/-- Settles O48: the refusals by the owner and the place, the release by the table of R118, and the drop. -/
theorem heldCommandsLeaveTheList : Obligations.HeldCommandsLeaveTheList := by
  intro tag n s q so w releases drops typed number
  have hlen := so.held
  have hnumber : word number = dec n := word_ofList _
  refine ⟨fun ho => ⟨?_, ?_, fun hn => ⟨?_, ?_⟩, fun he => ?_⟩, fun ho => ⟨?_, ?_, fun he => ?_⟩, fun h r he hr => ?_⟩
  · exact answers_of rfl q w q.inFlight (orderReleaseHeld_owned (s := taken tag (.releaseHeld n) s) ho)
  · exact answers_of rfl q w q.inFlight (orderDropHeld_owned (s := taken tag (.dropHeld n) s) ho)
  · exact exec_release q (craftHeld_range w ho _ hn) rfl
  · exact exec_drop q (craftHeld_range w ho _ hn) rfl
  · have hn : n < s.outage.held.length := (List.getElem?_eq_some_iff.mp he).1
    have hempty : heldAt s n = none := congrArg Option.join he
    exact ⟨exec_release q (craftHeld_empty w ho _ (by omega) hempty) rfl,
      exec_drop q (craftHeld_empty w ho _ (by omega) hempty) rfl⟩
  · exact exec_release q (craftHeld_host w ho _) rfl
  · exact exec_drop q (craftHeld_host w ho _) rfl
  · have hempty : heldAt s n = none := by
      rcases he with hn | he
      · exact congrArg Option.join (List.getElem?_eq_none (by omega))
      · exact congrArg Option.join he
    exact ⟨answers_of rfl q w q.inFlight (orderReleaseHeld_empty (s := taken tag (.releaseHeld n) s) ho hempty),
      answers_of rfl q w q.inFlight (orderDropHeld_empty (s := taken tag (.dropHeld n) s) ho hempty)⟩
  · intro empty put ends
    have hn : n < s.outage.held.length := (List.getElem?_eq_some_iff.mp he).1
    have hin : ¬ 15 < n := by omega
    have hh : heldAt s n = some h := congrArg Option.join he
    have hends (t : State) (k : Sync) (name : String) (hname : syncWord k = word name) (c : Option PClass)
        (ht : ∀ f, releaseHeld n h (withFlight f s) = withFlight f t) (hlink : t.link = s.link)
        (hport : portOf t (h.tap, h.port) = some { r with sync := k, cls := c }) : ends t k name := by
      have htold := release_told (tag := tag) q w hin hh ht hlink hport
      rw [hname, ← hnumber] at htold
      exact htold
    have htable (f : Option TaggedOrder) := releaseHeld_eq (n := n) (s := withFlight f s) hr
    refine ⟨fun hp => ?_, fun hp hc => ?_, fun hp hc => ?_, fun ho => ?_, fun ho => ?_⟩
    · exact hends (heldMoved n h .parked none s) _ _ rfl _ (fun f => (htable f).trans (if_pos hp)) rfl (portOf_heldMoved hr _ _)
    · have hlit : ¬ parkHoldsAt s h.tap = true := by simp [hp]
      exact hends (heldMoved n h .inSync none s) _ _ rfl _
        (fun f => (htable f).trans ((if_neg hlit).trans (if_pos hc))) rfl (portOf_heldMoved hr _ _)
    · have hlit : ¬ parkHoldsAt s h.tap = true := by simp [hp]
      exact hends (joinUrgentHead (h.tap, h.port) true (heldMoved n h .pending (some .urgent) s)) _ _ rfl _
        (fun f => (htable f).trans ((if_neg hlit).trans (if_neg hc))) rfl (portOf_heldMoved hr .pending (some .urgent))
    · exact answers_of (s' := heldMoved n h .dropped none s) rfl q w q.inFlight
        (orderDropHeld_drops (s := taken tag (.dropHeld n) s) ho hh)
    · have hdrop := exec_drop q (craftDrop_drops w ho hin hh) rfl
      rw [← hnumber] at hdrop
      exact hdrop

end Sys2Proof.Safety
end

