-- ==== Proofs/CraftWatchCommands.lean ====
section
/-! PROOFS. The watch commands of the craft port: TAKE, GIVE, and the forms of WATCH (R128, R129; O53). -/

namespace Sys2Proof.Safety

open Sys2Proof.Machine

/-! ## What a craft command prints -/

/-- An event that prints a line and leaves no order waiting ends with the choice of work. -/
theorem next_finish_printLine {t : State} (hw : t.link.waiting = []) (ws : List Text) :
    (.next (finish (printLine ws t)) : Result) = .next (kick (printLine ws t)) := by
  rw [finish_of_none ((printLine_waiting ..).trans hw)]

/-- The claim of the watches leaves the orders that wait. -/
theorem changeOwner_waiting (o : Owner) (cause : Nat) (s : State) :
    (changeOwner o cause s).link.waiting = s.link.waiting := notice_waiting ..

/-- WATCH prints one line for each enabled entry (R129). -/
theorem length_watchLines (l : List WatchEntry) : ∀ n, (watchLines n l).length = (l.filter (·.enabled)).length := by
  induction l with
  | nil => exact fun _ => rfl
  | cons e l ih =>
    intro n
    unfold watchLines
    cases he : e.enabled with
    | false =>
      rw [if_neg (by decide), ih, List.filter_cons_of_neg (by simp [he])]
    | true =>
      rw [if_pos rfl, List.length_cons, ih, List.filter_cons_of_pos (by simp [he]), List.length_cons]

/-- WATCH prints one line for each held command (R129). -/
theorem length_heldLines (s : State) (l : List (Option Held)) :
    ∀ n, (heldLines s n l).length = (l.filter (·.isSome)).length := by
  induction l with
  | nil => exact fun _ => rfl
  | cons x l ih =>
    intro n
    cases x with
    | none => exact ih _
    | some h => exact congrArg (· + 1) (ih _)

/-! ## TAKE, GIVE and WATCH (R128, R129) -/

section
variable {s : State} (w : Working s)
include w

/-- TAKE while the host owns the watches. -/
theorem craftTake_host (ho : s.outage.owner = .host) : craftTake s
    = printLine [word "OK", word "TAKEN", dec (enabledCount s), dec (heldCount s)] (changeOwner .craft 0 s) := by
  unfold craftTake
  rw [craftWorking_of w, if_neg (host_ne_craft ho)]

/-- TAKE while the craft port owns them. -/
theorem craftTake_craft (ho : s.outage.owner = .craft) : craftTake s = printLine [word "OK", word "TAKEN"] s := by
  unfold craftTake
  rw [craftWorking_of w, if_pos ho]

end

/-! ## The forms of WATCH that write the table (R111, R112, R129) -/

/-- The arguments of WATCH-SET that a WATCH form types. -/
def watchTyped (guard : Bool) (n a span kinds : Nat) (urgent once : Bool) : WatchArgs :=
  ⟨n, if guard then 1 else 0, a, span, if guard then 0 else kinds, if urgent then 0 else 1, if once then 1 else 0⟩

section
variable (guard : Bool) (n a span kinds : Nat) (urgent once : Bool)

/-- What is refused of them (R111; log 20): a flag that is typed lies in its range. -/
theorem watchRefused_typed : WatchRefused (watchTyped guard n a span kinds urgent once)
    ↔ 7 < n ∨ 4095 < a ∨ span ∉ [1, 2, 4, 8, 16, 32, 64, 128, 256] ∨ (guard = false ∧ (kinds = 0 ∨ 127 < kinds)) := by
  have hflag (b : Bool) (x y : Nat) (hx : x ≤ 1) (hy : y ≤ 1) : ¬ 1 < (if b then x else y) := by
    split <;> omega
  unfold WatchRefused watchTyped
  simp only [hflag, Nat.zero_le, le_refl, false_or, or_false]
  cases guard <;> simp

/-- The watch that they describe. -/
theorem watchAsked_typed : watchAsked (watchTyped guard n a span kinds urgent once)
    = ⟨guard, a - a % span, span, if guard then 0 else kinds, urgent, once⟩ := by
  have hone (b : Bool) : decide ((if b then 1 else 0) = 1) = b := by cases b <;> rfl
  have hzero (b : Bool) : decide ((if b then 0 else 1) = 0) = b := by cases b <;> rfl
  unfold watchAsked watchTyped
  dsimp only
  rw [hone, hone, hzero]
  cases guard <;> rfl

end

section
variable {s : State} (w : Working s) (ho : s.outage.owner = .craft)
include w ho

/-- A WATCH form of arguments that are refused. -/
theorem craftWatchSet_refused {p : WatchArgs} (h : WatchRefused p) : craftWatchSet p s = printErr "RANGE" s := by
  classical
  unfold craftWatchSet
  rw [craftOwned_craft w ho, watchOfArgs_eq, if_pos h]

/-- A WATCH form of arguments that describe a watch. -/
theorem craftWatchSet_sets {p : WatchArgs} (h : ¬ WatchRefused p) : craftWatchSet p s
    = printLine [word "OK", word "WATCH", dec p.entry, dec (watchAsked p).base] (writeWatch p.entry (watchAsked p) s) := by
  classical
  unfold craftWatchSet
  rw [craftOwned_craft w ho, watchOfArgs_eq, if_neg h]

/-- WATCH OFF of an entry out of range. -/
theorem craftWatchOff_range {n : Nat} (h : 7 < n) : craftWatchOff n s = printErr "RANGE" s := by
  unfold craftWatchOff
  rw [craftOwned_craft w ho, if_pos h]

/-- WATCH OFF of an entry of the table. -/
theorem craftWatchOff_clears {n : Nat} {e : WatchEntry} (h : n ≤ 7) (he : s.outage.watches[n]? = some e) :
    craftWatchOff n s = printLine [word "OK", word "WATCH", dec n, word "OFF", dec e.hits] (clearWatch n s) := by
  unfold craftWatchOff
  rw [craftOwned_craft w ho, if_neg (Nat.not_lt.mpr h), he]
  rfl

end

/-- A WATCH form runs WATCH-SET's checks on the arguments that it types. -/
theorem exec_watchForm (guard : Bool) (n a span kinds : Nat) (urgent once : Bool) (s : State) :
    exec (if guard then .watchNGuard n a span urgent once else .watchNEvent n a span kinds urgent once) s
      = .next (finish (craftWatchSet (watchTyped guard n a span kinds urgent once) s)) := by
  cases guard <;> rfl

/-- Settles O53: each command by the owner and its checks, with the claims, the table and the lists that they print. -/
theorem craftWatchCommands : Obligations.CraftWatchCommands := by
  intro n a span kinds urgent once guard s hw w so typed set enabled held claimed
  have said {i : Instr} {ws : List Text} {t u : State} (hi : exec i s = .next (finish u)) (hu : u = printLine ws t)
      (ht : t.link.waiting = s.link.waiting) : typed i ws t := by
    subst hu
    exact hi.trans (next_finish_printLine (ht.trans hw) ws)
  have hclaimed (o : Owner) (cause : Nat) : (claimed o cause).link.waiting = s.link.waiting := changeOwner_waiting o cause s
  have hset := exec_watchForm guard n a span kinds urgent once s
  have hrefused := watchRefused_typed guard n a span kinds urgent once
  refine ⟨fun ho => ⟨said rfl (craftTake_host w ho) (hclaimed ..), fun i hi => ?_⟩,
    fun ho => ⟨said rfl (craftTake_craft w ho) rfl, said rfl (craftOwned_craft w ho _) (hclaimed ..), ?_,
      length_watchLines _ 0, length_heldLines s _ 0, fun h => said rfl (craftWatchOff_range w ho h) rfl, fun e he => ?_,
      fun h => ?_, fun h => ?_⟩⟩
  · have howner {i : Instr} {f : State → State} (hi : exec i s = .next (finish (craftOwned f s))) :
        typed i [word "ERR", word "OWNER"] s := said hi (craftOwned_host w ho f) rfl
    simp only [List.mem_cons, List.not_mem_nil, or_false] at hi
    rcases hi with rfl | rfl | rfl | rfl
    · exact howner rfl
    · exact howner rfl
    · exact howner hset
    · exact howner rfl
  · have hprint : craftWatch s = print _ s := craftOwned_craft w ho _
    exact (congrArg (fun t => Host.Outcome.next (finish t)) hprint).trans (next_finish_of_link hw (print_link ..))
  · have hn : n < s.outage.watches.length := (List.getElem?_eq_some_iff.mp he).1
    have hlen := so.watches
    have hoff := craftWatchOff_clears w ho (by omega) he
    rw [clearWatch_eq he] at hoff
    exact said rfl hoff rfl
  · exact said hset (craftWatchSet_refused w ho (hrefused.mpr h)) rfl
  · have hsets := craftWatchSet_sets w ho (mt hrefused.mp h)
    rw [watchAsked_typed] at hsets
    exact said hset hsets rfl

end Sys2Proof.Safety
end

