-- ==== Proofs/IdentityWords.lean ====
section
/-! PROOFS. IDENT and LOCK-WRITE, and the end of an identity word's programming (R131, R161, R162; O54). -/

namespace Sys2Proof.Safety

open Sys2Proof.Machine

/-! ## IDENT (R131) -/

section
variable {h : Nat} {service : Bool} {s : State}

/-- An id is refused outside 1 to 4,294,967,294. -/
theorem idOutside_iff : (decide (h = 0) || decide (4294967294 < h)) = true ↔ ¬ (1 ≤ h ∧ h ≤ 4294967294) := by
  rw [Bool.or_eq_true, decide_eq_true_eq, decide_eq_true_eq]
  omega

/-- Without the SERVICE strap. -/
theorem identCheck_service (hs : service = false) : identCheck h service s = some "SERVICE" := if_pos (by rw [hs]; rfl)

section
variable (hs : service = true)
include hs

/-- An id out of range. -/
theorem identCheck_range (hh : ¬ (1 ≤ h ∧ h ≤ 4294967294)) : identCheck h service s = some "RANGE" := by
  unfold identCheck
  rw [if_neg (by simp [hs]), if_pos (idOutside_iff.mpr hh)]

variable (hh : 1 ≤ h ∧ h ≤ 4294967294)
include hh

/-- The checks that look at the state. -/
theorem identCheck_ranged : identCheck h service s
    = if idProgrammed s.store.identity.headId then some "PROGRAMMED"
      else if s.craft.ident then some "BUSY" else if s.store.fault then some "STORE" else none := by
  unfold identCheck
  rw [if_neg (by simp [hs]), if_neg (mt idOutside_iff.mp (not_not.mpr hh))]

/-- A head-end id that stands already. -/
theorem identCheck_programmed (hd : s.store.identity.headId ≠ 0xFFFFFFFF) : identCheck h service s = some "PROGRAMMED" := by
  rw [identCheck_ranged hs hh]
  exact if_pos (decide_eq_true hd)

variable (hd : s.store.identity.headId = 0xFFFFFFFF)
include hd

/-- A head-end id not yet programmed leaves the checks of what is under way and of the store. -/
theorem identCheck_blank : identCheck h service s
    = if s.craft.ident then some "BUSY" else if s.store.fault then some "STORE" else none := by
  rw [identCheck_ranged hs hh, if_neg (by simp [idProgrammed, hd])]

end

/-- IDENT in STARTING. -/
theorem craftIdent_starting (hop : s.link.op = .starting) : craftIdent h service s = printErr "BUSY" s := if_pos hop

variable (hop : s.link.op ≠ .starting)
include hop

/-- IDENT that a check refuses. -/
theorem craftIdent_refused {e : String} (hc : identCheck h service s = some e) : craftIdent h service s = printErr e s := by
  unfold craftIdent
  rw [if_neg hop, hc]

/-- IDENT that passes its checks. -/
theorem craftIdent_accepted (hc : identCheck h service s = none) : craftIdent h service s
    = joinItem (.identity .headId (BitVec.ofNat 32 h)) { s with craft.ident := true } := by
  unfold craftIdent
  rw [if_neg hop, hc]

end

/-! ## LOCK-WRITE (R162) -/

/-- The word that LOCK-WRITE names. -/
def lockTarget (w : Nat) : IdTarget := if w = 0 then .lockA else .lockB

/-- The value that the word takes (R162). -/
def lockWant (w : Nat) (d : Identity) : IdWord := if w = 0 then d.headId else ~~~ d.headId

/-- A word out of range. -/
theorem orderLockWrite_range {w v : Nat} {s : State} (hw : 1 < w) : orderLockWrite w v s = refuse .badArg s := by
  have hbank : bankArg w = none := (if_neg (by omega)).trans (if_neg (by omega))
  unfold orderLockWrite
  rw [hbank]

/-- The checks of LOCK-WRITE, in their order. -/
theorem orderLockWrite_eq {w : Nat} (hw : w ≤ 1) (v : Nat) (s : State) : orderLockWrite w v s =
    if s.store.fault = true then refuse .storeFault s
    else if idWord s.store.identity (lockTarget w) ≠ 0xFFFFFFFF then refuse .locked s
    else if s.store.identity.headId = 0xFFFFFFFF then refuse .state s
    else if BitVec.ofNat 32 v ≠ lockWant w s.store.identity then refuse .badArg s
    else joinItem (.identity (lockTarget w) (lockWant w s.store.identity)) s := by
  unfold orderLockWrite
  simp only [idProgrammed, decide_eq_true_eq, Bool.not_eq_true', decide_eq_false_iff_not, not_not]
  obtain rfl | rfl : w = 0 ∨ w = 1 := by omega
  · rfl
  · rfl

/-! ## The end of an identity word's programming (R161) -/

/-- A path left with nothing queued falls idle behind a line printed. -/
theorem nextItem_printLine {s : State} (hq : s.store.queue = []) (he : s.engine.state = .idle) (ws : List Text) :
    nextItem (printLine ws s) = printLine ws { s with store.path := .idle } := by
  rw [printLine_eq ws s, nextItem_idle (by exact hq) (by exact he), printLine_eq ws { s with store.path := .idle }]

/-- So it does behind a reply. -/
theorem nextItem_joinReply {s : State} (hq : s.store.queue = []) (he : s.engine.state = .idle) (o : TaggedOrder)
    (code : StatusCode) (body : List Byte) :
    nextItem (joinReply o code body s) = joinReply o code body { s with store.path := .idle } := by
  rw [joinReply_eq, joinReply_eq, nextItem_idle (by exact hq) (by exact he)]

/-- What a word holds once a value has been programmed: bits are cleared alone, and by the word's own bytes (R161; log 4). -/
def wordTaken (p : Programmed) (x old : IdWord) : IdWord := old &&& BitVec.ofNat 32 (unbe (took p (u32 x.toNat)))

/-- The state with a word of the identity area read back, and nothing queued. -/
def wordRead (k : IdTarget) (got : IdWord) (s : State) : State :=
  { s with store.identity := setIdWord s.store.identity k got, store.queue := [] }

/-- Both lock words hold their values. -/
theorem lockHolds_iff (d : Identity) :
    lockHolds d = true ↔ d.headId ≠ 0xFFFFFFFF ∧ d.lockA = d.headId ∧ d.lockB = ~~~ d.headId := by
  simp only [lockHolds, idProgrammed, Bool.and_eq_true, decide_eq_true_eq, and_assoc]

/-- The lock once a lock word has been read back: PENDING with the second of the two, unless it is EFFECTIVE (R162). -/
def lockAfter (got x : IdWord) (d : Identity) (lock : LockState) : LockState :=
  if got = x ∧ d.headId ≠ 0xFFFFFFFF ∧ d.lockA = d.headId ∧ d.lockB = ~~~ d.headId ∧ lock ≠ .effective then .pending
  else lock

/-- It is set in the state with its word read back. -/
theorem lockAfter_set (got x : IdWord) (s : State) :
    (if (decide (got = x) && lockHolds s.store.identity && decide (s.store.lock ≠ .effective)) = true
      then { s with store.lock := .pending } else s)
      = { s with store.lock := lockAfter got x s.store.identity s.store.lock } := by
  unfold lockAfter
  simp only [Bool.and_eq_true, decide_eq_true_eq, lockHolds_iff, and_assoc]
  split <;> rfl

/-- What the end of a lock word's programming makes of the state with the word read back, while its order is in flight. -/
def lockTold (got x : IdWord) (s : State) : State :=
  let t := if (decide (got = x) && lockHolds s.store.identity && decide (s.store.lock ≠ .effective)) = true
    then { s with store.lock := .pending } else s
  if got = x then answer .ok [] t else answer .storeFault (u32 got.toNat) t

/-- The state with a lock word read back and its order answered. -/
def lockRead (k : IdTarget) (got x : IdWord) (s : State) : State :=
  { wordRead k got s with
    store.path := .idle
    store.lock := lockAfter got x (setIdWord s.store.identity k got) s.store.lock
    link.inFlight := none }

/-- The state with a lock word read back and its order answered, with the value read where it disagrees (R162; log 81). -/
def lockAnswered (o : TaggedOrder) (k : IdTarget) (got x : IdWord) (s : State) : State :=
  if got = x then joinReply o .ok [] (lockRead k got x s) else joinReply o .storeFault (u32 got.toNat) (lockRead k got x s)

/-- The answer leaves the orders that wait. -/
theorem lockAnswered_waiting (o : TaggedOrder) (k : IdTarget) (got x : IdWord) (s : State) :
    (lockAnswered o k got x s).link.waiting = s.link.waiting := by
  unfold lockAnswered
  split <;> exact (joinReply_queue ..).1

section
variable {p : Programmed} {x : IdWord} {s : State} (hp : s.store.path = .append) (he : s.engine.state = .idle)
include hp

include he in
/-- The head-end id read back ends its IDENT with a line (R131). -/
theorem identityProgrammed_headId (hq : s.store.queue = [.identity .headId x]) :
    identityProgrammed p s = printLine
      (if wordTaken p x s.store.identity.headId = x then [word "OK", word "IDENT", dec x.toNat] else [word "ERR", word "STORE"])
      { wordRead .headId (wordTaken p x s.store.identity.headId) s with store.path := .idle, craft.ident := false } := by
  have hend (ws : List Text) := nextItem_printLine
    (s := { wordRead .headId (wordTaken p x s.store.identity.headId) s with craft.ident := false }) rfl he ws
  unfold identityProgrammed
  rw [hp, hq]
  by_cases hx : wordTaken p x s.store.identity.headId = x
  · rw [if_pos hx, ← hend]
    exact congrArg nextItem (if_pos hx)
  · rw [if_neg hx, ← hend]
    exact congrArg nextItem (if_neg hx)

/-- A lock word read back is told before the path takes its next item. -/
theorem identityProgrammed_told {k : IdTarget} (hk : k ≠ .headId) (hq : s.store.queue = [.identity k x]) :
    identityProgrammed p s = nextItem (lockTold (wordTaken p x (idWord s.store.identity k)) x
      (wordRead k (wordTaken p x (idWord s.store.identity k)) s)) := by
  unfold identityProgrammed
  rw [hp, hq]
  cases k with
  | headId => exact absurd rfl hk
  | lockA => rfl
  | lockB => rfl

include he in
/-- A lock word read back answers its LOCK-WRITE (R162). -/
theorem identityProgrammed_lock {k : IdTarget} {o : TaggedOrder} (hk : k ≠ .headId) (ho : s.link.inFlight = some o)
    (hq : s.store.queue = [.identity k x]) :
    identityProgrammed p s = lockAnswered o k (wordTaken p x (idWord s.store.identity k)) x s := by
  have hend (got : IdWord) (code : StatusCode) (body : List Byte) : nextItem (answer code body
        { wordRead k got s with store.lock := lockAfter got x (setIdWord s.store.identity k got) s.store.lock })
      = joinReply o code body (lockRead k got x s) := by
    rw [answer_inFlight (t := o) (by exact ho), nextItem_joinReply (by rfl) (by exact he)]
    rfl
  rw [identityProgrammed_told hp hk hq]
  unfold lockTold lockAnswered
  rw [lockAfter_set]
  dsimp only
  by_cases hx : wordTaken p x (idWord s.store.identity k) = x
  · rw [if_pos hx, if_pos hx, ← hend]
    rfl
  · rw [if_neg hx, if_neg hx, ← hend]
    rfl

end

/-- Settles O54: the checks of IDENT and of LOCK-WRITE in their order, and the end of a word's programming for the id and for a
lock word. -/
theorem identityWordsAreProgrammed : Obligations.IdentityWordsAreProgrammed := by
  intro tag h w v service p s hw d blank u typed joined ranged writes target old want
  have hident {t : State} (ht : craftIdent h service u = t) (hwaits : t.link.waiting = []) :
      exec (.ident h service) s = .next (kick t) := by
    subst ht
    exact congrArg Host.Outcome.next (finish_of_none hwaits)
  have said {code : String} (hu : craftIdent h service u = printErr code u) : typed code :=
    hident hu ((printLine_waiting ..).trans hw)
  refine ⟨fun hop => said (craftIdent_starting hop), fun hop => ?_, fun q wk => ?_, fun x hp he => ?_⟩
  · have hop' : u.link.op ≠ .starting := hop
    have refused {code : String} (hc : identCheck h service u = some code) : typed code := said (craftIdent_refused hop' hc)
    refine ⟨fun hs => refused (identCheck_service hs), fun hs hh => refused (identCheck_range hs hh),
      fun hs hh hd => refused (identCheck_programmed hs hh hd),
      fun hs hh hd hi => refused ((identCheck_blank hs hh hd).trans (if_pos hi)), fun hs hh hd hi hf => ?_,
      fun hs hh hd hi hf => ?_⟩
    · exact refused ((identCheck_blank hs hh hd).trans ((if_neg (Bool.eq_false_iff.mp hi)).trans (if_pos hf)))
    · have hpass : identCheck h service u = none :=
        (identCheck_blank hs hh hd).trans ((if_neg (Bool.eq_false_iff.mp hi)).trans (if_neg (Bool.eq_false_iff.mp hf)))
      exact hident (craftIdent_accepted hop' hpass) hw
  · let r := taken tag (.lockWrite w v) s
    have refused {code : StatusCode} (hr : orderLockWrite w v r = refuse code r) : writes code :=
      answers_of rfl q wk q.inFlight hr
    have hold : idWord r.store.identity (lockTarget w) = old := apply_ite (idWord d) _ _ _
    have hchecks (hw1 : w ≤ 1) := orderLockWrite_eq hw1 v r
    rw [hold] at hchecks
    refine ⟨fun h1 => refused (orderLockWrite_range h1), fun h1 hf => refused ((hchecks h1).trans (if_pos hf)),
      fun h1 hf ho => ?_, fun h1 hf ho hd => ?_, fun h1 hf ho hd hv => ?_, fun h1 hf ho hd hv => ?_⟩
    all_goals replace hchecks := (hchecks h1).trans (if_neg (Bool.eq_false_iff.mp hf))
    · exact refused (hchecks.trans (if_pos ho))
    · exact refused (hchecks.trans ((if_neg (not_not.mpr ho)).trans (if_pos hd)))
    · exact refused (hchecks.trans ((if_neg (not_not.mpr ho)).trans ((if_neg hd).trans (if_pos hv))))
    · exact awaits_of rfl q wk (hchecks.trans ((if_neg (not_not.mpr ho)).trans ((if_neg hd).trans (if_neg (not_not.mpr hv)))))
  · intro reads
    have hend {t : State} (ht : identityProgrammed p s = t) (hwaits : t.link.waiting = []) :
        exec (.identityWordProgrammed p) s = .next (kick t) := by
      subst ht
      exact congrArg Host.Outcome.next (finish_of_none hwaits)
    refine ⟨fun hq => hend (identityProgrammed_headId hp he hq) ((printLine_waiting ..).trans hw), fun hw1 ho hq => ?_⟩
    have hk : target ≠ .headId := by
      unfold target
      split <;> decide
    have hlock := hend (identityProgrammed_lock hp he hk ho hq) ((lockAnswered_waiting ..).trans hw)
    obtain rfl | rfl : w = 0 ∨ w = 1 := by omega
    · exact hlock
    · exact hlock

end Sys2Proof.Safety
end

