-- ==== Proofs/CraftLines.lean ====
section
/-! PROOFS. The line buffer, the words of a line and the commands that they name, and the print queue (R121, R122; O49). -/

namespace Sys2Proof.Safety

open Sys2Proof.Machine

/-! ## Characters (R121) -/

section
variable {c : Byte} {s : State}

/-- A printable character while the buffer has room. -/
theorem craftKeep_kept (hlo : 32 ≤ c.toNat) (hhi : c.toNat ≤ 126) (hroom : s.craft.buffer.length < 80) : craftKeep c s
    = { s with craft.buffer := s.craft.buffer ++ [Char.ofNat c.toNat], craft.output := [Char.ofNat c.toNat] } := by
  unfold craftKeep
  rw [if_neg (by simp; omega), if_neg (Nat.not_le.mpr hroom)]

/-- A printable character past the 80th. -/
theorem craftKeep_long (hlo : 32 ≤ c.toNat) (hhi : c.toNat ≤ 126) (hfull : 80 ≤ s.craft.buffer.length) :
    craftKeep c s = { s with craft.long := true } := by
  unfold craftKeep
  rw [if_neg (by simp; omega), if_pos hfull]

/-- A character that is not printable. -/
theorem craftKeep_discarded (h : c.toNat < 32 ∨ 126 < c.toNat) : craftKeep c s = s := by
  unfold craftKeep
  rw [if_pos (by simpa using h)]

/-- A backspace. -/
theorem craftErase_eq : craftErase s = if s.craft.buffer = [] then s
    else { s with craft.buffer := s.craft.buffer.dropLast, craft.output := [Char.ofNat 8] } := by
  unfold craftErase
  simp only [List.isEmpty_iff]

/-- A character that is neither a backspace nor a carriage return is kept or discarded. -/
theorem exec_craftChar_keep (h8 : c ≠ 0x08) (h7f : c ≠ 0x7F) (hcr : c ≠ 0x0D) (s : State) :
    exec (.craftChar c) s = .next (finish (craftKeep c s)) := by
  show execCraftChar c s = _
  unfold execCraftChar
  rw [if_neg (by simp only [h8, h7f, decide_false, Bool.or_self, Bool.false_eq_true, not_false_eq_true]), if_neg hcr]

/-- A printable character is kept or marks the line long. -/
theorem exec_craftChar_printable (hlo : 32 ≤ c.toNat) (hhi : c.toNat ≤ 126) (s : State) :
    exec (.craftChar c) s = .next (finish (craftKeep c s)) := by
  refine exec_craftChar_keep ?_ ?_ ?_ s
  all_goals
    rintro rfl
    revert hlo hhi
    decide

end

/-! ## The end of a line (R121; log 12) -/

section
variable {service : Bool} {text : Text} {s : State}

/-- A line of spaces. -/
theorem takeLine_spaces (h : words text = []) (long : Bool) : takeLine long service text s = s := by
  unfold takeLine
  rw [h]

variable {w : Text} {ws : List Text} (h : words text = w :: ws)
include h

/-- A long line. -/
theorem takeLine_long : takeLine true service text s = printErr "LONG" s := by
  unfold takeLine
  rw [h]
  exact if_pos rfl

/-- A line in STARTING. -/
theorem takeLine_starting (hop : s.link.op = .starting) : takeLine false service text s = printErr "BUSY" s := by
  unfold takeLine
  rw [h]
  exact if_pos hop

/-- A line in UNSET that does not begin with IDENT. -/
theorem takeLine_unset (hop : s.link.op = .unset) (hw : w ≠ word "IDENT") :
    takeLine false service text s = printErr "NO_TIME" s := by
  unfold takeLine
  rw [h]
  dsimp only
  rw [if_neg (by decide), if_neg (by rw [hop]; decide), if_pos (by simp [hop, hw])]

/-- A line that is taken under its command's rule. -/
theorem takeLine_taken (hop : s.link.op ≠ .starting) (hw : s.link.op = .unset → w = word "IDENT") :
    takeLine false service text s = ((craftCommand service (w :: ws)).getD (printErr "SYNTAX")) s := by
  unfold takeLine
  rw [h]
  dsimp only
  rw [if_neg (by decide), if_neg hop, if_neg (by simpa using hw)]
  cases craftCommand service (w :: ws) <;> rfl

end

/-! ## The commands that are taken in LOADING and in RUN alone (R121) -/

/-- What a command other than IDENT asks. -/
def craftAsked : Instr → Option (State → State)
  | .take => some craftTake
  | .give => some craftGive
  | .watch => some craftWatch
  | .hold n => some (craftHold n)
  | .free n => some (craftFree n)
  | .poll n => some (craftPoll n)
  | .release n => some (craftRelease n)
  | .drop n => some (craftDrop n)
  | .showSeg n => some (craftShowSeg n)
  | .showXp n => some (craftShowXp n)
  | .showTap n => some (craftShowTap n)
  | .watchNOff n => some (craftWatchOff n)
  | .test a p on => some (craftTest a p on)
  | .watchNGuard n a span urgent once => some (craftWatchGuard n a span urgent once)
  | .watchNEvent n a span kinds urgent once => some (craftWatchEvent n a span kinds urgent once)
  | _ => none

section
variable {i : Instr} {f : State → State} (h : craftAsked i = some f)
include h

/-- It is what the command does. -/
theorem exec_craftAsked (s : State) : exec i s = .next (finish (f s)) := by
  cases i <;> cases h <;> rfl

/-- It passes the gate of the operating state. -/
theorem craftAsked_working : ∃ g, f = craftWorking g := by
  cases i <;> cases h <;> exact ⟨_, rfl⟩

/-- In STARTING it is answered ERR BUSY. -/
theorem craftAsked_starting {s : State} (hop : s.link.op = .starting) : f s = printErr "BUSY" s := by
  obtain ⟨g, rfl⟩ := craftAsked_working h
  unfold craftWorking craftGate
  rw [hop]

/-- In UNSET it is answered ERR NO_TIME. -/
theorem craftAsked_unset {s : State} (hop : s.link.op = .unset) : f s = printErr "NO_TIME" s := by
  obtain ⟨g, rfl⟩ := craftAsked_working h
  unfold craftWorking craftGate
  rw [hop]

end

/-! ## The words that spell a command (R121, 7.2) -/

/-- Two words are one when their texts are. -/
@[simp] theorem word_inj {x y : String} : word x = word y ↔ x = y := String.toList_inj

/-- One of two different words, as it is typed, is read back. -/
theorem either_typed {x y : String} (h : y ≠ x) (b : Bool) : either x y (if b then word x else word y) = some b := by
  unfold either
  cases b <;> simp [h]

/-- What is read as one of two words is typed so. -/
theorem typed_of_either {x y : String} {w : Text} {b : Bool} (h : either x y w = some b) : w = if b then word x else word y := by
  unfold either at h
  split at h
  · cases h; assumption
  · split at h
    · cases h; assumption
    · cases h

/-- The words that spell a command are read as what it asks: IDENT, or a command with a gate. -/
theorem craftCommand_of_spells {service : Bool} {typed : List Text} {i : Instr} (h : Spells service typed i) :
    (∃ n, i = .ident n service ∧ typed.head? = some (word "IDENT") ∧ craftCommand service typed = some (craftIdent n service))
      ∨ ∃ f, craftAsked i = some f ∧ craftCommand service typed = some f := by
  cases i with
  | ident n x =>
    obtain ⟨rfl, w, hw, rfl⟩ := h
    exact .inl ⟨n, rfl, rfl, by simp [craftCommand, hw]⟩
  | take => subst h; exact .inr ⟨_, rfl, by simp [craftCommand]⟩
  | give => subst h; exact .inr ⟨_, rfl, by simp [craftCommand]⟩
  | watch => subst h; exact .inr ⟨_, rfl, by simp [craftCommand]⟩
  | hold n => obtain ⟨w, hw, rfl⟩ := h; exact .inr ⟨_, rfl, by simp [craftCommand, hw]⟩
  | free n => obtain ⟨w, hw, rfl⟩ := h; exact .inr ⟨_, rfl, by simp [craftCommand, hw]⟩
  | poll n => obtain ⟨w, hw, rfl⟩ := h; exact .inr ⟨_, rfl, by simp [craftCommand, hw]⟩
  | release n => obtain ⟨w, hw, rfl⟩ := h; exact .inr ⟨_, rfl, by simp [craftCommand, hw]⟩
  | drop n => obtain ⟨w, hw, rfl⟩ := h; exact .inr ⟨_, rfl, by simp [craftCommand, hw]⟩
  | showSeg n => obtain ⟨w, hw, rfl⟩ := h; exact .inr ⟨_, rfl, by simp [craftCommand, hw]⟩
  | showXp n => obtain ⟨w, hw, rfl⟩ := h; exact .inr ⟨_, rfl, by simp [craftCommand, hw]⟩
  | showTap n => obtain ⟨w, hw, rfl⟩ := h; exact .inr ⟨_, rfl, by simp [craftCommand, hw]⟩
  | watchNOff n => obtain ⟨w, hw, rfl⟩ := h; exact .inr ⟨_, rfl, by simp [craftCommand, hw]⟩
  | test a p on =>
    obtain ⟨v, w, hv, hw, rfl⟩ := h
    exact .inr ⟨_, rfl, by simp [craftCommand, hv, hw, either_typed]⟩
  | watchNGuard n a span urgent once =>
    obtain ⟨u, v, w, hu, hv, hw, rfl⟩ := h
    exact .inr ⟨_, rfl, by simp [craftCommand, hu, hv, hw, either_typed]⟩
  | watchNEvent n a span kinds urgent once =>
    obtain ⟨u, v, w, k, hu, hv, hw, hk, rfl⟩ := h
    exact .inr ⟨_, rfl, by simp [craftCommand, hu, hv, hw, hk, either_typed]⟩
  | _ => exact h.elim

/-- The first words of 7.2. -/
def commandWords : List String := ["HOLD", "FREE", "SHOW", "POLL", "TEST", "TAKE", "GIVE", "WATCH", "RELEASE", "DROP", "IDENT"]

/-- The words of a line spell a command, whose first word is one of 7.2. -/
def SpellsCommand (service : Bool) (ws : List Text) : Prop :=
  ∃ i, Spells service ws i ∧ ∃ x ∈ commandWords, ws.head? = some (word x)

/-- Words that spell a command name it by the first of them. -/
theorem SpellsCommand.of {service : Bool} {x : String} {ws : List Text} {i : Instr} (h : Spells service (word x :: ws) i)
    (hx : x ∈ commandWords := by simp [commandWords]) : SpellsCommand service (word x :: ws) := ⟨i, h, x, hx, rfl⟩

section
variable {service : Bool} {f : State → State}

/-- A line of one word that asks something. -/
theorem spellsCommand_one {c : Text} (h : craftCommand service [c] = some f) : SpellsCommand service [c] := by
  unfold craftCommand at h
  dsimp only at h
  split at h
  · subst c; exact .of (i := .take) rfl
  split at h
  · subst c; exact .of (i := .give) rfl
  split at h
  · subst c; exact .of (i := .watch) rfl
  cases h

/-- A line of two words that asks something. -/
theorem spellsCommand_two {c w : Text} (h : craftCommand service [c, w] = some f) : SpellsCommand service [c, w] := by
  obtain ⟨n, hw, h⟩ := Option.bind_eq_some_iff.mp h
  split at h
  · subst c; exact .of (i := .hold n) ⟨w, hw, rfl⟩
  split at h
  · subst c; exact .of (i := .free n) ⟨w, hw, rfl⟩
  split at h
  · subst c; exact .of (i := .poll n) ⟨w, hw, rfl⟩
  split at h
  · subst c; exact .of (i := .release n) ⟨w, hw, rfl⟩
  split at h
  · subst c; exact .of (i := .drop n) ⟨w, hw, rfl⟩
  split at h
  · subst c; exact .of (i := .ident n service) ⟨rfl, w, hw, rfl⟩
  cases h

/-- A line of three words that asks something. -/
theorem spellsCommand_three {c k w : Text} (h : craftCommand service [c, k, w] = some f) : SpellsCommand service [c, k, w] := by
  unfold craftCommand at h
  dsimp only at h
  split at h
  · subst c
    obtain ⟨n, hw, h⟩ := Option.bind_eq_some_iff.mp h
    split at h
    · subst k; exact .of (i := .showSeg n) ⟨w, hw, rfl⟩
    split at h
    · subst k; exact .of (i := .showXp n) ⟨w, hw, rfl⟩
    split at h
    · subst k; exact .of (i := .showTap n) ⟨w, hw, rfl⟩
    cases h
  split at h
  · rename_i hoff
    simp only [Bool.and_eq_true, decide_eq_true_eq] at hoff
    obtain ⟨rfl, rfl⟩ := hoff
    obtain ⟨n, hk, -⟩ := Option.map_eq_some_iff.mp h
    exact .of (i := .watchNOff n) ⟨k, hk, rfl⟩
  cases h

/-- A line of four words that asks something. -/
theorem spellsCommand_four {c v w z : Text} (h : craftCommand service [c, v, w, z] = some f) :
    SpellsCommand service [c, v, w, z] := by
  unfold craftCommand at h
  dsimp only at h
  split at h
  · subst c
    split at h
    · rename_i a p on hv hw hz
      rw [typed_of_either hz]
      exact .of (i := .test a p on) ⟨v, w, hv, hw, rfl⟩
    · cases h
  · cases h

/-- A line of seven words that asks something. -/
theorem spellsCommand_seven {c u k v w y z : Text} (h : craftCommand service [c, u, k, v, w, y, z] = some f) :
    SpellsCommand service [c, u, k, v, w, y, z] := by
  unfold craftCommand at h
  dsimp only at h
  split at h
  · rename_i hguard
    simp only [Bool.and_eq_true, decide_eq_true_eq] at hguard
    obtain ⟨rfl, rfl⟩ := hguard
    split at h
    · rename_i n a span urgent once hu hv hw hy hz
      rw [typed_of_either hy, typed_of_either hz]
      exact .of (i := .watchNGuard n a span urgent once) ⟨u, v, w, hu, hv, hw, rfl⟩
    · cases h
  · cases h

/-- A line of eight words that asks something. -/
theorem spellsCommand_eight {c u k v w x y z : Text} (h : craftCommand service [c, u, k, v, w, x, y, z] = some f) :
    SpellsCommand service [c, u, k, v, w, x, y, z] := by
  unfold craftCommand at h
  dsimp only at h
  split at h
  · rename_i hevent
    simp only [Bool.and_eq_true, decide_eq_true_eq] at hevent
    obtain ⟨rfl, rfl⟩ := hevent
    split at h
    · rename_i n a span kinds urgent once hu hv hw hx hy hz
      rw [typed_of_either hy, typed_of_either hz]
      exact .of (i := .watchNEvent n a span kinds urgent once) ⟨u, v, w, x, hu, hv, hw, hx, rfl⟩
    · cases h
  · cases h

/-- A line that asks something spells a command. -/
theorem spellsCommand_of_craftCommand {ws : List Text} (h : craftCommand service ws = some f) : SpellsCommand service ws := by
  match ws, h with
  | [_], h => exact spellsCommand_one h
  | [_, _], h => exact spellsCommand_two h
  | [_, _, _], h => exact spellsCommand_three h
  | [_, _, _, _], h => exact spellsCommand_four h
  | [_, _, _, _, _, _, _], h => exact spellsCommand_seven h
  | [_, _, _, _, _, _, _, _], h => exact spellsCommand_eight h

end

/-! ## The print queue (R122) -/

section
variable {l : List Text} {s : State}

/-- Lines that find room join as a whole. -/
theorem print_joins (hr : s.craft.rest = []) (h : s.craft.print.length + l.length ≤ 16) :
    print l s = { s with craft.print := s.craft.print ++ l } := by
  unfold print
  rw [if_neg (by simp [hr]), if_neg (by omega), if_pos h]

/-- A reply of more than 16 lines joins as far as there is room, and the rest of it waits. -/
theorem print_waits (hr : s.craft.rest = []) (h : 16 < l.length) : print l s = { s with
    craft.print := s.craft.print ++ l.take (16 - s.craft.print.length), craft.rest := l.drop (16 - s.craft.print.length) } := by
  unfold print
  rw [if_neg (by simp [hr]), if_pos h]
  rfl

/-- Lines that find too little room, and all of them while a reply waits, are counted lost. -/
theorem print_lost (h : s.craft.rest ≠ [] ∨ (16 < s.craft.print.length + l.length ∧ l.length ≤ 16)) :
    print l s = { s with craft.lost := if s.craft.lost < 255 then s.craft.lost + 1 else 255 } := by
  have hcount : min 255 (s.craft.lost + 1) = if s.craft.lost < 255 then s.craft.lost + 1 else 255 := by
    split <;> omega
  unfold print
  rw [hcount]
  by_cases hr : s.craft.rest = []
  · obtain ⟨hfull, hl⟩ := h.resolve_left (not_not.mpr hr)
    rw [if_neg (by simp [hr]), if_neg (Nat.not_lt.mpr hl), if_neg (Nat.not_le.mpr hfull)]
  · exact if_pos (by simpa using hr)

/-- The output as a line of the print queue is sent: a partial line of the technician is ended before it and sent again behind
it. -/
def sentOutput (buffer l : Text) : Text :=
  if buffer = [] then l ++ ['\r', '\n'] else ['\r', '\n'] ++ l ++ ['\r', '\n'] ++ buffer

/-- The print queue once a line has left it, with the lines that join from a reply that waits. -/
def printJoined (ls : List Text) (s : State) : List Text := ls ++ s.craft.rest.take (16 - ls.length)

/-- LOST n joins the print queue as a line leaves it. -/
abbrev TellsLost (ls : List Text) (s : State) : Prop :=
  0 < s.craft.lost ∧ s.craft.rest.length ≤ 16 - ls.length ∧ (printJoined ls s).length < 16

/-- No line to be sent. -/
theorem lineSent_none (h : s.craft.print = []) : lineSent s = s := by
  unfold lineSent
  rw [h]

/-- A line sent leaves the print queue. -/
theorem lineSent_eq {t : Text} {ls : List Text} (h : s.craft.print = t :: ls) : lineSent s = { s with
    craft.print := if TellsLost ls s then printJoined ls s ++ [word "LOST " ++ dec s.craft.lost] else printJoined ls s
    craft.rest := s.craft.rest.drop (16 - ls.length)
    craft.lost := if TellsLost ls s then 0 else s.craft.lost
    craft.output := sentOutput s.craft.buffer t } := by
  have htold : (decide (0 < s.craft.lost) && (s.craft.rest.drop (16 - ls.length)).isEmpty
      && decide ((printJoined ls s).length < 16)) = true ↔ TellsLost ls s := by
    simp only [TellsLost, Bool.and_eq_true, decide_eq_true_eq, List.isEmpty_iff, List.drop_eq_nil_iff, and_assoc]
  have hlost : line [word "LOST", dec s.craft.lost] = word "LOST " ++ dec s.craft.lost := rfl
  have hout : (if s.craft.buffer.isEmpty then t ++ lineEnd else lineEnd ++ t ++ lineEnd ++ s.craft.buffer)
      = sentOutput s.craft.buffer t := by
    unfold sentOutput lineEnd
    simp only [List.isEmpty_iff]
  unfold lineSent
  rw [h]
  dsimp only [fillPrint]
  rw [hout, hlost]
  by_cases hl : TellsLost ls s
  · rw [if_pos hl, if_pos hl]
    exact if_pos (htold.mpr hl)
  · rw [if_neg hl, if_neg hl]
    exact if_neg (mt htold.mp hl)

end

/-! ## The events -/

section
variable {service : Bool} {s : State}

/-- The state with the line buffer emptied and the SERVICE input read as a line ends (R121, R131). -/
def lineEnded (service : Bool) (s : State) : State :=
  { s with craft.buffer := [], craft.long := false, craft.service := service }

/-- The end of a line takes it with the buffer emptied. -/
theorem exec_craftLineEnd (service : Bool) (s : State) : exec (.craftLineEnd service) s
    = .next (finish (takeLine s.craft.long service s.craft.buffer (lineEnded service s))) := rfl

variable (hw : s.link.waiting = [])
include hw

/-- A line answered by an error. -/
theorem craftLineEnd_err {code : String}
    (h : takeLine s.craft.long service s.craft.buffer (lineEnded service s) = printErr code (lineEnded service s)) :
    exec (.craftLineEnd service) s = .next (kick (printErr code (lineEnded service s))) := by
  rw [exec_craftLineEnd, h]
  exact next_finish_printLine (t := lineEnded service s) hw _

variable {w : Text} {ws : List Text} (hwords : words s.craft.buffer = w :: ws) (hl : s.craft.long = false)
include hwords hl

omit hw in
/-- The words of a line run the command that they spell; its gate is that of the line. -/
theorem craftLineEnd_spells {i : Instr} (hop : s.link.op ≠ .starting) (h : Spells service (w :: ws) i) :
    exec (.craftLineEnd service) s = exec i (lineEnded service s) := by
  rw [exec_craftLineEnd, hl]
  rcases craftCommand_of_spells h with ⟨n, rfl, hhead, hc⟩ | ⟨f, hf, hc⟩
  · rw [takeLine_taken (s := lineEnded service s) hwords hop (fun _ => Option.some_inj.mp hhead), hc]
    rfl
  · rw [exec_craftAsked hf]
    by_cases hunset : s.link.op = .unset ∧ w ≠ word "IDENT"
    · obtain ⟨hu, hi⟩ := hunset
      rw [takeLine_unset (s := lineEnded service s) hwords hu hi, craftAsked_unset (s := lineEnded service s) hf hu]
    · rw [takeLine_taken (s := lineEnded service s) hwords hop
        (fun hu => not_not.mp fun hi => hunset ⟨hu, hi⟩), hc, Option.getD_some]

/-- Words that spell no command are answered ERR SYNTAX. -/
theorem craftLineEnd_unspelled (hop : s.link.op ≠ .starting) (hi : s.link.op = .unset → w = word "IDENT")
    (h : ¬ SpellsCommand service (w :: ws)) :
    exec (.craftLineEnd service) s = .next (kick (printErr "SYNTAX" (lineEnded service s))) := by
  refine craftLineEnd_err hw ?_
  have hc : craftCommand service (w :: ws) = none :=
    Option.eq_none_iff_forall_ne_some.mpr fun f hf => h (spellsCommand_of_craftCommand hf)
  rw [hl, takeLine_taken (s := lineEnded service s) hwords hop hi, hc]
  rfl

end

/-- A command with a gate is answered by an error where the gate is closed. -/
theorem exec_craftAsked_err {i : Instr} {s : State} {code : String} (hw : s.link.waiting = []) (hi : (craftAsked i).isSome = true)
    (h : ∀ f, craftAsked i = some f → f s = printErr code s) : exec i s = .next (kick (printErr code s)) := by
  obtain ⟨f, hf⟩ := Option.isSome_iff_exists.mp hi
  rw [exec_craftAsked hf, h f hf]
  exact next_finish_printLine hw _

/-- Settles O49: the characters and the outcomes of a line each in turn, the gate of the commands, and the print queue. -/
theorem craftLinesAreTaken : Obligations.CraftLinesAreTaken := by
  refine ⟨fun c service s hw => ?_, fun i s hw hi => ?_⟩
  · intro text ended err erased
    have done {i : Instr} {t : State} (h : exec i s = .next (finish t)) (ht : t.link = s.link) : exec i s = .next (kick t) :=
      h.trans (next_finish_of_link hw ht)
    have kept {t : State} (hlo : 32 ≤ c.toNat) (hhi : c.toNat ≤ 126) (ht : craftKeep c s = t) (hl : t.link = s.link) :
        exec (.craftChar c) s = .next (kick t) := done ((exec_craftChar_printable hlo hhi s).trans (by rw [ht])) hl
    refine ⟨fun hlo hhi hroom => kept hlo hhi (craftKeep_kept hlo hhi hroom) rfl,
      fun hlo hhi hfull => kept hlo hhi (craftKeep_long hlo hhi hfull) rfl, fun hout h8 hcr => ?_, fun i hi => ?_, ?_,
      fun h => ?_, fun hne hlong => ?_, fun hne hlong => ?_, fun h => ?_, fun l ls h => ?_⟩
    · have h7f : c ≠ 0x7F := by
        rintro rfl
        revert hout
        decide
      have hkeep := exec_craftChar_keep h8 h7f hcr s
      rw [craftKeep_discarded (by omega)] at hkeep
      exact done hkeep rfl
    · have herase : exec i s = .next (finish (craftErase s)) := by
        simp only [List.mem_cons, List.not_mem_nil, or_false] at hi
        rcases hi with rfl | rfl | rfl <;> rfl
      rw [craftErase_eq] at herase
      refine done herase ?_
      split <;> rfl
    · rfl
    · exact (congrArg (fun t => Host.Outcome.next (finish t)) (takeLine_spaces h _)).trans (next_finish_of_link hw rfl)
    · obtain ⟨w, ws, h⟩ := List.exists_cons_of_ne_nil hne
      exact craftLineEnd_err hw (by rw [hlong]; exact takeLine_long h)
    · obtain ⟨w, ws, h⟩ := List.exists_cons_of_ne_nil hne
      have hopen (hop : Working s) : s.link.op ≠ .starting ∧ (s.link.op = .unset → w = word "IDENT") := by
        rcases hop with hop | hop <;> rw [hop] <;> exact ⟨by decide, fun hu => absurd hu (by decide)⟩
      have htext (ws' : List Text) (h' : words text = ws') : ws' = w :: ws := h'.symm.trans h
      refine ⟨fun hop => craftLineEnd_err hw (by rw [hlong]; exact takeLine_starting h hop), fun hop hhead => ?_,
        fun typed i ht hop hs => ?_, fun hop w' ws' h' hw' => ?_, fun hop hs => ?_⟩
      · rw [h] at hhead
        exact craftLineEnd_err hw (by rw [hlong]; exact takeLine_unset h hop (fun hi => hhead (congrArg some hi)))
      · rw [htext typed ht] at hs
        exact craftLineEnd_spells h hlong hop hs
      · obtain ⟨rfl, rfl⟩ := List.cons_eq_cons.mp (htext _ h')
        obtain ⟨hstart, hunset⟩ := hopen hop
        refine craftLineEnd_unspelled hw h hlong hstart hunset fun ⟨_, _, x, hx, hhead⟩ => hw' ?_
        exact List.mem_map.mpr ⟨x, hx, (Option.some_inj.mp hhead).symm⟩
      · rw [h] at hop hs
        have ⟨hstart, hunset⟩ : s.link.op ≠ .starting ∧ (s.link.op = .unset → w = word "IDENT") := by
          rcases hop with hop | ⟨hu, hi⟩
          · exact hopen hop
          · exact ⟨by rw [hu]; decide, fun _ => Option.some_inj.mp hi⟩
        exact craftLineEnd_unspelled hw h hlong hstart hunset fun ⟨i, hi, _⟩ => hs i hi
    · exact done (congrArg (fun t => Host.Outcome.next (finish t)) (lineSent_none h)) rfl
    · exact done (congrArg (fun t => Host.Outcome.next (finish t)) (lineSent_eq h)) rfl
  · have hasked : (craftAsked i).isSome = true := by
      revert hi
      cases i <;> simp [craftAsked]
    refine ⟨fun hop => exec_craftAsked_err hw hasked fun f hf => craftAsked_starting hf hop,
      fun hop => exec_craftAsked_err hw hasked fun f hf => craftAsked_unset hf hop, fun l => ?_⟩
    exact ⟨print_joins, print_waits, print_lost⟩

end Sys2Proof.Safety
end

