-- ==== Proofs/StoreOrders.lean ====
section
/-! PROOFS. The orders that read, release and clear the banks, and SET-TARIFF (R158 to R160, R164; O55). -/

namespace Sys2Proof.Safety

open Sys2Proof.Machine

/-! ## The banks by their numbers -/

/-- A bank is the argument of its number. -/
theorem bankArg_bankNum (k : BankId) : bankArg (bankNum k) = some k := by cases k <;> rfl

/-- A number above 1 names no bank. -/
theorem bankArg_none {m : Nat} (h : 1 < m) : bankArg m = none := (if_neg (by omega)).trans (if_neg (by omega))

/-- A bank is in a state where one is found there. -/
theorem bankIn_isSome (s : State) (x : BankState) :
    (bankIn s x).isSome = true ↔ s.store.a.state = x ∨ s.store.b.state = x := by
  unfold bankIn
  by_cases ha : s.store.a.state = x <;> by_cases hb : s.store.b.state = x <;> simp [ha, hb]

/-- A state byte or marker of the header is programmed where it reads other than 0xFF (R145). -/
theorem hdrSet_iff (b : Bank) (i : Nat) : hdrSet b i = true ↔ hdr b i ≠ 0xFF := decide_eq_true_iff

/-- It is not where it reads 0xFF. -/
theorem hdrSet_false_iff (b : Bank) (i : Nat) : hdrSet b i = false ↔ hdr b i = 0xFF := by
  rw [← Bool.not_eq_true, hdrSet_iff, not_not]

/-! ## READ-BANK (R158) -/

/-- What READ-BANK may name: up to 16 slots of the bank (R158). -/
def ReadRange (i c : Nat) : Prop := 1 ≤ c ∧ c ≤ 16 ∧ i + c ≤ 32768

/-- The range, as the model's check. -/
theorem readRange_iff (i c : Nat) : ReadRange i c ↔ ¬ (c = 0 || 16 < c || 32768 < i + c) = true := by
  unfold ReadRange
  simp only [Bool.or_eq_true, decide_eq_true_eq]
  omega

/-- The matter of the reply to READ-BANK: the bank's state, sequence, header and append point, and the slots named. -/
def readReply (b : Bank) (i c : Nat) : List Byte :=
  u8 (bankStateNum b.state) ++ u16 (seqOf b) ++ slotBytes b 0 ++ opt 2 (appendShown b) ++ u8 c
    ++ (List.range c).flatMap (fun k => slotShown b (i + k))

section
variable {k : BankId} {i c : Nat} {s : State}

/-- Outside the range. -/
theorem orderReadBank_range (h : ¬ ReadRange i c) : orderReadBank (bankNum k) i c s = refuse .badArg s := by
  rw [readRange_iff, not_not] at h
  unfold orderReadBank
  rw [bankArg_bankNum]
  exact if_pos h

variable (h : ReadRange i c)
include h

/-- Within the range the state of the bank decides. -/
theorem orderReadBank_ranged : orderReadBank (bankNum k) i c s = match (bank s k).state with
    | .free => refuse .state s
    | .erasing => refuse .busy s
    | .closing => refuse .busy s
    | _ => answer .ok (readReply (bank s k) i c)
      (setBank s k { bank s k with watermark := max (bank s k).watermark (i + c) }) := by
  rw [readRange_iff] at h
  unfold orderReadBank
  rw [bankArg_bankNum]
  exact if_neg h

/-- An OPEN or CLOSED bank is read, and its read watermark raised. -/
theorem orderReadBank_reads (hb : (bank s k).state = .open_ ∨ (bank s k).state = .closed) : orderReadBank (bankNum k) i c s
    = answer .ok (readReply (bank s k) i c) (setBank s k { bank s k with watermark := max (bank s k).watermark (i + c) }) := by
  rw [orderReadBank_ranged h]
  rcases hb with hb | hb <;> rw [hb]

end

/-- The matter of the reply for an OPEN or CLOSED bank: the append point is sent for an OPEN one alone. -/
theorem readReply_eq {b : Bank} (hb : b.state = .open_ ∨ b.state = .closed) (i c : Nat) : readReply b i c
    = u8 (if b.state = .open_ then 1 else 3) ++ u16 (seqOf b) ++ slotBytes b 0
      ++ (if b.state = .open_ then u16 b.append else [0xFF, 0xFF]) ++ u8 c
      ++ (List.range c).flatMap (fun k => slotShown b (i + k)) := by
  unfold readReply appendShown
  rcases hb with hb | hb <;> rw [hb] <;> rfl

/-! ## RELEASE-BANK (R159) -/

/-- A bank holds the sequence that RELEASE-BANK names. -/
def HoldsSeq (n : Nat) (b : Bank) : Prop := hdr b 2 ≠ 0xFF ∧ seqOf b = n

/-- A sequence held, as the model's check. -/
theorem holdsSeq_iff (n : Nat) (b : Bank) : holdsSequence n b = true ↔ HoldsSeq n b := by
  rw [holdsSequence, Bool.and_eq_true, seqWritten, hdrSet_iff, decide_eq_true_eq]
  rfl

/-- No bank holds the sequence. -/
theorem releaseTarget_none {s : State} {n : Nat} (ha : ¬ HoldsSeq n s.store.a) (hb : ¬ HoldsSeq n s.store.b) :
    releaseTarget s n = none := by
  rw [← holdsSeq_iff, Bool.not_eq_true] at ha hb
  unfold releaseTarget
  rw [ha, hb]
  rfl

/-- Of two banks that hold the sequence it is the one that is not ERASING (R159). -/
theorem releaseTarget_some {s : State} {n : Nat} {k : BankId} (h : HoldsSeq n (bank s k))
    (ho : HoldsSeq n (bank s (otherBank k)) → (bank s k).state ≠ .erasing ∧ (bank s (otherBank k)).state = .erasing) :
    releaseTarget s n = some k := by
  unfold releaseTarget
  rw [← holdsSeq_iff] at h ho
  cases k with
  | a =>
    replace h : holdsSequence n s.store.a = true := h
    cases hb : holdsSequence n s.store.b with
    | false => simp [h]
    | true =>
      have hne : s.store.a.state ≠ .erasing := (ho hb).1
      simp [h, hne]
  | b =>
    replace h : holdsSequence n s.store.b = true := h
    cases ha : holdsSequence n s.store.a with
    | false => simp [h]
    | true =>
      have he : s.store.a.state = .erasing := (ho ha).2
      simp [h, he]

section
variable {n : Nat} {k : BankId} {s : State} (hf : s.store.fault = false) (ht : releaseTarget s n = some k)
include hf ht

/-- The state of the bank named decides. -/
theorem orderReleaseBank_eq : orderReleaseBank n s = match (bank s k).state with
    | .erasing => refuse .busy s
    | .closing => refuse .busy s
    | .closed =>
      if s.store.lock = .effective && (closeSlot (bank s k)).any (fun j => decide ((bank s k).watermark ≤ j)) then refuse .state s
      else joinItem (.header k .released) s
    | _ => refuse .state s := by
  unfold orderReleaseBank
  rw [hf, ht]
  rfl

/-- A bank not yet erased or closed. -/
theorem orderReleaseBank_busy (h : (bank s k).state = .erasing ∨ (bank s k).state = .closing) :
    orderReleaseBank n s = refuse .busy s := by
  rw [orderReleaseBank_eq hf ht]
  rcases h with h | h <;> rw [h]

/-- A bank that holds no closed period. -/
theorem orderReleaseBank_state (h : (bank s k).state = .free ∨ (bank s k).state = .open_) :
    orderReleaseBank n s = refuse .state s := by
  rw [orderReleaseBank_eq hf ht]
  rcases h with h | h <;> rw [h]

/-- With the lock EFFECTIVE a CLOSED bank whose CLOSE record has not been read is kept. -/
theorem orderReleaseBank_unread {j : Nat} (h : (bank s k).state = .closed) (hj : closeSlot (bank s k) = some j)
    (hl : s.store.lock = .effective) (hr : (bank s k).watermark ≤ j) : orderReleaseBank n s = refuse .state s := by
  rw [orderReleaseBank_eq hf ht, h]
  exact if_pos (by simp [hl, hj, hr])

/-- A CLOSED bank is released: without a lock, or with its CLOSE record, if one stands, read. -/
theorem orderReleaseBank_joins (h : (bank s k).state = .closed)
    (hr : s.store.lock ≠ .effective ∨ ∀ j, closeSlot (bank s k) = some j → j < (bank s k).watermark) :
    orderReleaseBank n s = joinItem (.header k .released) s := by
  rw [orderReleaseBank_eq hf ht, h]
  refine if_neg ?_
  rw [Bool.and_eq_true, decide_eq_true_eq, Option.any_eq_true]
  rintro ⟨hl, j, hj, hle⟩
  rcases hr with hr | hr
  · exact hr hl
  · exact absurd (hr j hj) (Nat.not_lt.mpr (of_decide_eq_true hle))

end

/-! ## STORE-CLEAR (R160) -/

/-- STORE-CLEAR programs the RELEASED marker of a bank that is not FREE and has none. -/
def needsRelease (b : Bank) : Bool := decide (b.state ≠ .free) && decide (hdr b 16 = 0xFF)

/-- The need, as the model's check. -/
theorem needsRelease_eq (b : Bank) : (decide (b.state ≠ .free) && !hdrSet b 16) = needsRelease b := by
  rw [Bool.eq_iff_iff, Bool.and_eq_true, Bool.not_eq_true', hdrSet_false_iff, needsRelease, Bool.and_eq_true,
    decide_eq_true_eq (p := hdr b 16 = 0xFF)]

/-- The RELEASED markers that STORE-CLEAR programs. -/
def clearItems (s : State) : List StoreItem :=
  (if needsRelease s.store.a then [.header .a .released] else []) ++ if needsRelease s.store.b then [.header .b .released] else []

/-- The state with the spend list and the read watermarks cleared. -/
def spendCleared (s : State) : State := { s with store.spend := [], store.a.watermark := 0, store.b.watermark := 0 }

/-- The state with items at the tail of the append queue. -/
def joinedItems (l : List StoreItem) (s : State) : State := { s with
  store.queue := s.store.queue ++ l
  store.path := if s.store.path = .idle then .append else s.store.path }

section
variable {s : State} (hop : s.link.op = .loading)
include hop

/-- With the lock EFFECTIVE. -/
theorem orderStoreClear_locked (hl : s.store.lock = .effective) : orderStoreClear s = refuse .locked s := by
  unfold orderStoreClear
  rw [show running s = false by simp [running, hop]]
  exact if_pos hl

variable (hl : s.store.lock ≠ .effective)
include hl

/-- Without the lock the store and the banks decide. -/
theorem orderStoreClear_unlocked : orderStoreClear s = if s.store.fault then refuse .storeFault s
    else if (bankIn s .closing).isSome then refuse .busy s
    else if needsRelease s.store.a || needsRelease s.store.b then joinedItems (clearItems s) (spendCleared s)
    else answer .ok [] (spendCleared s) := by
  have hneed (i : BankId) : (decide ((bank s i).state ≠ .free) && !hdrSet (bank s i) 16) = needsRelease (bank s i) :=
    needsRelease_eq _
  unfold orderStoreClear
  rw [show running s = false by simp [running, hop], if_neg (by decide), if_neg hl]
  dsimp only
  simp only [hneed]
  refine if_congr Iff.rfl rfl (if_congr Iff.rfl rfl ?_)
  unfold clearItems
  rcases Bool.eq_false_or_eq_true (needsRelease s.store.a) with ha | ha <;>
    rcases Bool.eq_false_or_eq_true (needsRelease s.store.b) with hb | hb <;> simp only [bank, ha, hb]
  · exact joinItem_joinItem (.header .a .released) (.header .b .released) (spendCleared s)
  · rfl
  · rfl
  · rfl

end

/-! ## SET-TARIFF (R164) -/

/-- The staged tariff with a rate written, clamped to its range. -/
def rateStaged (n r : Nat) (s : State) : List Nat := s.engine.tariff.set n (if 65535 < r then 65535 else r)

/-- SET-TARIFF stages the rate. -/
theorem orderSetTariff_stages {n : Nat} (h : n ≤ 15) (r : Nat) (s : State) : orderSetTariff n r s
    = answer .ok ((rateStaged n r s).flatMap u16 ++ openRates s) { s with engine.tariff := rateStaged n r s } := by
  have hclamp : clamp 0 65535 r = if 65535 < r then 65535 else r := if_neg (Nat.not_lt_zero r)
  unfold orderSetTariff rateStaged
  rw [if_neg (by omega), hclamp]
  rfl

/-- Settles O55: each order by its checks in their order. -/
theorem storeOrdersReadAndRelease : Obligations.StoreOrdersReadAndRelease := by
  intro tag k i c n r s q w b reads slot releases clears joined holds needs range
  have readRefused {code : StatusCode} (h : orderReadBank (bankNum k) i c (taken tag (.readBank (bankNum k) i c) s)
      = refuse code (taken tag (.readBank (bankNum k) i c) s)) : reads s code [] := answers_of rfl q w q.inFlight h
  have released {code : StatusCode} (h : orderReleaseBank n (taken tag (.releaseBank n) s)
      = refuse code (taken tag (.releaseBank n) s)) : releases code := answers_of rfl q w q.inFlight h
  refine ⟨fun m hm => answers_of rfl q w q.inFlight ?_, fun hr => readRefused (orderReadBank_range hr), fun hr hs => ?_,
    fun hr hs => ?_, fun hr hs => ?_, fun hf => released (if_pos hf), fun hf ha hb => ?_, fun hf hk ho => ?_, fun hop => ?_,
    fun hn => answers_of rfl q w q.inFlight (if_pos hn), fun hn => ?_⟩
  · show orderReadBank m i c _ = _
    unfold orderReadBank
    rw [bankArg_none hm]
    rfl
  · refine readRefused ?_
    rw [orderReadBank_ranged hr]
    show (match b.state with | .free => _ | .erasing => _ | .closing => _ | _ => _) = _
    rw [hs]
  · refine readRefused ?_
    rw [orderReadBank_ranged hr]
    show (match b.state with | .free => _ | .erasing => _ | .closing => _ | _ => _) = _
    rcases hs with hs | hs <;> rw [hs]
  · refine answers_of rfl q w ((congrArg Link.inFlight (setBank_link ..)).trans q.inFlight) ?_
    refine (orderReadBank_reads (s := taken tag (.readBank (bankNum k) i c) s) hr hs).trans ?_
    rw [show bank (taken tag (.readBank (bankNum k) i c) s) k = b from rfl, readReply_eq hs]
    cases k <;> rfl
  · refine released ?_
    unfold orderReleaseBank
    rw [show releaseTarget (taken tag (.releaseBank n) s) n = none from releaseTarget_none ha hb]
    exact if_neg (Bool.eq_false_iff.mp hf)
  · have ht : releaseTarget (taken tag (.releaseBank n) s) n = some k := releaseTarget_some hk ho
    refine ⟨fun h => released (orderReleaseBank_busy hf ht h), fun h => released (orderReleaseBank_state hf ht h), fun h hj => ?_,
      fun j h hj => ⟨fun hl hle => released (orderReleaseBank_unread hf ht h hj hl hle), fun hr => ?_⟩⟩
    · refine awaits_of rfl q w (orderReleaseBank_joins hf ht h (.inr fun j hj' => ?_))
      rw [show closeSlot (bank (taken tag (.releaseBank n) s) k) = none from hj] at hj'
      cases hj'
    · refine awaits_of rfl q w (orderReleaseBank_joins hf ht h (hr.imp_right fun hlt j' hj' => ?_))
      rw [show closeSlot (bank (taken tag (.releaseBank n) s) k) = some j from hj] at hj'
      cases hj'
      exact hlt
  · let u := taken tag .storeClear s
    have hop' : u.link.op = .loading := hop
    refine ⟨fun hl => answers_of rfl q w q.inFlight (orderStoreClear_locked hop' hl), fun hl hf => ?_, fun hl hf hc => ?_,
      fun hl hf ha hb => ?_⟩
    · exact answers_of rfl q w q.inFlight ((orderStoreClear_unlocked hop' hl).trans (if_pos hf))
    · exact answers_of rfl q w q.inFlight ((orderStoreClear_unlocked hop' hl).trans ((if_neg (Bool.eq_false_iff.mp hf)).trans
        (if_pos ((bankIn_isSome u .closing).mpr hc))))
    · intro t
      have hnone : ¬ (bankIn u .closing).isSome = true := fun h => ((bankIn_isSome u .closing).mp h).elim ha hb
      have hclear := (orderStoreClear_unlocked hop' hl).trans ((if_neg (Bool.eq_false_iff.mp hf)).trans (if_neg hnone))
      refine ⟨fun na nb => answers_of (s' := t) rfl q w q.inFlight (hclear.trans (if_neg ?_)), fun h => ?_⟩
      · rw [show needsRelease u.store.a = false from na, show needsRelease u.store.b = false from nb]
        decide
      · exact awaits_of rfl q w (hclear.trans (if_pos ((Bool.or_eq_true ..).mpr h)))
  · exact answers_of (s' := { s with engine.tariff := rateStaged n r s }) rfl q w q.inFlight
      (orderSetTariff_stages hn r (taken tag (.setTariff n r) s))

end Sys2Proof.Safety
end

