-- ==== Proofs/StorePath.lean ====
section
/-! PROOFS. The programming path (R148, R149, R151, R174): what it takes up next, what a fault of the store leaves, and how the end
of a programming branches on its read-back. -/

namespace Sys2Proof.Safety

open Sys2Proof.Machine

/-! ## Banks written -/

/-- A bank written twice. -/
@[simp] theorem setBank_setBank (s : State) (i : BankId) (u v : Bank) : setBank (setBank s i u) i v = setBank s i v := by
  cases i <;> rfl

/-- A programming writes the cells of its bank alone. -/
theorem programBank_eq (i : BankId) (a : Nat) (bs : List Byte) (s : State) :
    programBank i a bs s = setBank s i { bank s i with cells := cellsAnd (bank s i).cells a bs } := rfl

/-- The state with a bank written and the mismatches in a row counted: a change of the store alone. -/
def bankCounted (s : State) (k : BankId) (v : Bank) (n : Nat) : State :=
  { s with store := { (setBank s k v).store with mismatches := n } }

/-- It is the bank written, and the count. -/
theorem bankCounted_eq (s : State) (k : BankId) (v : Bank) (n : Nat) :
    bankCounted s k v n = { setBank s k v with store.mismatches := n } := by cases k <;> rfl

/-- The bank written is the bank read. -/
theorem bank_bankCounted (s : State) (k : BankId) (v : Bank) (n : Nat) : bank (bankCounted s k v n) k = v := by cases k <;> rfl

/-- The fault flag, the queue and the path stand. -/
theorem bankCounted_keeps (s : State) (k : BankId) (v : Bank) (n : Nat) : (bankCounted s k v n).store.fault = s.store.fault
    ∧ (bankCounted s k v n).store.queue = s.store.queue ∧ (bankCounted s k v n).store.path = s.store.path := by
  cases k <;> exact ⟨rfl, rfl, rfl⟩

/-- A bank written with the count as it stands. -/
theorem bankCounted_same (s : State) (k : BankId) (v : Bank) : bankCounted s k v s.store.mismatches = setBank s k v := by
  cases k <;> rfl

/-- A bank written again, whatever the engine. -/
theorem setBank_bankCounted (s : State) (k : BankId) (u v : Bank) (n : Nat) (g : Engine) :
    setBank { bankCounted s k u n with engine := g } k v = { bankCounted s k v n with engine := g } := by cases k <;> rfl

/-- The bank that an event has written is the bank read, whatever else it wrote of the path and the engine. -/
theorem bank_congr {s t : State} (ha : t.store.a = s.store.a) (hb : t.store.b = s.store.b) (i : BankId) : bank t i = bank s i := by
  cases i with
  | a => exact ha
  | b => exact hb

/-- The OPEN bank is found by the states of the banks alone. -/
theorem openBank_congr {s t : State} (ha : t.store.a.state = s.store.a.state) (hb : t.store.b.state = s.store.b.state) :
    openBank t = openBank s := by
  unfold openBank bankIn
  rw [ha, hb]

/-- A bank written without a change of its state leaves the OPEN bank. -/
theorem openBank_setBank {s : State} {i : BankId} {v : Bank} (hv : v.state = (bank s i).state) :
    openBank (setBank s i v) = openBank s := by
  cases i with
  | a => exact openBank_congr hv rfl
  | b => exact openBank_congr rfl hv

/-! ## The next item (R151, R152) -/

/-- The head of the queue, if it is a record, finds a slot. -/
def HeadFits (s : State) : Prop :=
  match s.store.queue with
  | .record _ _ :: _ => ∃ i, openBank s = some i ∧ (bank s i).append ≤ 16383
  | _ => True

/-- The path with nothing of the statement engine's to take up: the head of the queue, or nothing. -/
def pathNext (s : State) : State := { s with store.path := if s.store.queue = [] then .idle else .append }

/-- A statement slot is to be taken up: nothing is queued, and the engine is COMPUTING short of its CLOSE record (R174). -/
def StatementDue (s : State) : Prop := s.store.queue = [] ∧ s.engine.state = .computing ∧ s.engine.closeDone = false

/-- A record that finds a slot, as the model's check. -/
theorem noSlot_of_fits {s : State} {i : BankId} (ho : openBank s = some i) (h : (bank s i).append ≤ 16383) : noSlot s = false := by
  unfold noSlot
  rw [ho]
  exact decide_eq_false (Nat.not_lt.mpr h)

/-- The idle path takes up a head that finds its slot. -/
theorem pumpStore_fits {s : State} (hf : s.store.fault = false) (hp : s.store.path = .idle) (h : HeadFits s) (n : Nat) :
    pumpStore (n + 1) s = if s.store.queue = [] then startStatement s else { s with store.path := .append } := by
  unfold HeadFits at h
  unfold pumpStore
  rw [hf, hp, if_neg (by decide)]
  split
  · next hq => rw [if_pos hq]
  · next body o q hq =>
    rw [hq] at h
    obtain ⟨i, ho, ha⟩ := h
    rw [noSlot_of_fits ho ha, hq]
    rfl
  · next hq _ => rw [if_neg hq]

/-- With nothing due the statement engine rests. -/
theorem startStatement_rests {s : State} (h : ¬ StatementDue s ∨ s.link.op = .starting) : startStatement s = s := by
  unfold startStatement
  refine if_neg fun hd => ?_
  simp only [Bool.and_eq_true, decide_eq_true_eq, Bool.not_eq_true', List.isEmpty_iff] at hd
  obtain ⟨⟨⟨⟨⟨hc, hdone⟩, -⟩, hq⟩, -⟩, hop⟩ := hd
  exact h.elim (fun h => h ⟨hq, hc, hdone⟩) hop

/-- With a statement due the engine takes up its next slot. -/
theorem startStatement_starts {s : State} (h : StatementDue s) (hp : s.store.path = .idle) (hf : s.store.fault = false)
    (hop : s.link.op ≠ .starting) : startStatement s = { takeAccount s with store.path := .statement } := by
  obtain ⟨hq, hc, hdone⟩ := h
  unfold startStatement
  exact if_pos (by simp [hq, hc, hdone, hp, hf, hop])

/-- The path goes on to the head of the queue. -/
theorem nextItem_fits {s : State} (hf : s.store.fault = false) (h : HeadFits s) : nextItem s
    = if s.store.queue = [] then startStatement { s with store.path := .idle } else { s with store.path := .append } :=
  pumpStore_fits (s := { s with store.path := .idle }) hf rfl h _

/-- With no close under way no statement is due. -/
theorem not_statementDue {s : State} (h : s.engine.state = .idle) : ¬ StatementDue s := fun hd => by
  rw [hd.2.1] at h
  cases h

/-- Where the statement engine has nothing to write the path goes on to the head of the queue, or falls idle. -/
theorem nextItem_rests {s : State} (hf : s.store.fault = false) (h : HeadFits s)
    (hd : ¬ StatementDue s ∨ s.link.op = .starting) : nextItem s = pathNext s := by
  rw [nextItem_fits hf h, pathNext]
  split
  · exact startStatement_rests (by exact hd)
  · rfl

/-- Where a statement slot is due the path goes on to it. -/
theorem nextItem_statement {s : State} (hf : s.store.fault = false) (hd : StatementDue s) (hop : s.link.op ≠ .starting) :
    nextItem s = { takeAccount { s with store.path := .idle } with store.path := .statement } := by
  have hfits : HeadFits s := by
    unfold HeadFits
    rw [hd.1]
    trivial
  rw [nextItem_fits hf hfits, if_pos hd.1]
  exact startStatement_starts (by exact hd) rfl hf hop

/-- A store with a fault takes up nothing. -/
theorem nextItem_fault {s : State} (hf : s.store.fault = true) : nextItem s = { s with store.path := .idle } := by
  unfold nextItem
  rw [show s.store.queue.length + s.engine.rolls.length + 20 = s.store.queue.length + s.engine.rolls.length + 19 + 1 from rfl,
    pumpStore]
  exact if_pos (by simp [hf])

/-- A queue whose items are no records has a head that needs no slot. -/
theorem headFits_of_noRecord {s : State} (h : s.store.queue.all (fun i => !isRecord i) = true) : HeadFits s := by
  unfold HeadFits
  split
  · next body o q hq =>
    rw [hq] at h
    cases h
  · trivial

/-- An OPEN bank with a free slot fits every head. -/
theorem headFits_of_open {s : State} {k : BankId} (ho : openBank s = some k) (h : (bank s k).append ≤ 16383) : HeadFits s := by
  unfold HeadFits
  split
  · exact ⟨k, ho, h⟩
  · trivial

/-- The store alone says whether the head finds a slot. -/
theorem headFits_congr {s t : State} (h : t.store = s.store) (hs : HeadFits s) : HeadFits t := by
  unfold HeadFits openBank bankIn at *
  rw [h]
  split at hs
  · next hq =>
    obtain ⟨i, ho, ha⟩ := hs
    exact ⟨i, ho, (congrArg Bank.append (bank_congr (congrArg Store.a h) (congrArg Store.b h) i)).trans_le ha⟩
  · trivial

/-- A path that programs, with an item queued, goes on. -/
theorem pathNext_busy {s : State} (hq : s.store.queue ≠ []) (hp : s.store.path = .append) : pathNext s = s := by
  unfold pathNext
  rw [if_neg hq, ← hp]

/-- The path does not look at the link, so a reply before it is one behind it. -/
theorem pathNext_joinReply (t : TaggedOrder) (code : StatusCode) (body : List Byte) (s : State) :
    pathNext (joinReply t code body s) = joinReply t code body (pathNext s) := by
  rw [joinReply_eq, joinReply_eq]
  rfl

/-- So is a notice. -/
theorem pathNext_notice (kind : Nat) (urgent : Bool) (body : List Byte) (s : State) :
    pathNext (notice kind urgent body s) = notice kind urgent body (pathNext s) := by
  rw [notice_eq, notice_eq]
  rfl

/-- A reply changes no store and no engine. -/
theorem joinReply_store (t : TaggedOrder) (code : StatusCode) (body : List Byte) (s : State) :
    (joinReply t code body s).store = s.store ∧ (joinReply t code body s).engine = s.engine := by
  rw [joinReply_eq]
  exact ⟨rfl, rfl⟩

/-- A notice changes no store and no engine. -/
theorem notice_store (kind : Nat) (urgent : Bool) (body : List Byte) (s : State) :
    (notice kind urgent body s).store = s.store ∧ (notice kind urgent body s).engine = s.engine := by
  rw [notice_eq]
  exact ⟨rfl, rfl⟩

/-! ## STORE_FAULT (R149) -/

/-- The close state behind a fault of the store: a close in SEQUENCE or ROLLING is taken on as R166 and R168 give. -/
def closeAfterFault : CloseState → CloseState
  | .sequence => .idle
  | .rolling => .computing
  | x => x

/-- The store in STORE_FAULT, its notice handed to the link: nothing is queued, programmed or erased. -/
def faulted (cause : FaultCause) (at_ : Option (BankId × Nat)) (s : State) : State :=
  notice nkStoreFault true (u8 (faultCauseNum cause) ++ opt 1 (at_.map (fun x => bankNum x.1)) ++ opt 2 (at_.map (·.2))
      ++ opt 4 (s.time.clock.map (·.1))) { s with
    store.fault := true
    store.queue := []
    store.path := .idle
    store.a.page := none
    store.b.page := none
    engine.rolls := []
    engine.state := closeAfterFault s.engine.state }

/-- A fault with no IDENT in hand refuses the order in flight. -/
theorem storeFault_eq {s : State} (hi : s.craft.ident = false) (cause : FaultCause) (at_ : Option (BankId × Nat)) :
    storeFault cause at_ s = refuse .storeFault (faulted cause at_ s) := by
  have hident : identFailed (faulted cause at_ s) = faulted cause at_ s := by
    unfold identFailed
    refine if_neg ?_
    rw [faulted, notice_eq]
    exact Bool.eq_false_iff.mp hi
  exact congrArg (refuse .storeFault) hident

/-- A fault leaves the order in flight to be answered. -/
theorem faulted_inFlight (cause : FaultCause) (at_ : Option (BankId × Nat)) (s : State) :
    (faulted cause at_ s).link.inFlight = s.link.inFlight := notice_inFlight ..

/-- A fault leaves the orders that wait. -/
theorem faulted_waiting (cause : FaultCause) (at_ : Option (BankId × Nat)) (s : State) :
    (faulted cause at_ s).link.waiting = s.link.waiting := notice_waiting ..

/-- A fault with no order in flight and no IDENT in hand. -/
theorem storeFault_none {s : State} (hi : s.craft.ident = false) (hn : s.link.inFlight = none) (cause : FaultCause)
    (at_ : Option (BankId × Nat)) : storeFault cause at_ s = faulted cause at_ s := by
  have hflight : (faulted cause at_ s).link.inFlight = none := (faulted_inFlight ..).trans hn
  rw [storeFault_eq hi, refuse, answer, hflight]

/-- A fault answers the order in flight. -/
theorem storeFault_answers {s : State} (hi : s.craft.ident = false) {o : TaggedOrder} (hn : s.link.inFlight = some o)
    (cause : FaultCause) (at_ : Option (BankId × Nat)) : storeFault cause at_ s
      = joinReply o .storeFault [] { faulted cause at_ s with link.inFlight := none } := by
  rw [storeFault_eq hi, refuse, answer_inFlight ((faulted_inFlight ..).trans hn)]

/-- The store has its fault. -/
theorem storeFault_fault (cause : FaultCause) (at_ : Option (BankId × Nat)) (s : State) :
    (storeFault cause at_ s).store.fault = true := by
  have hanswer (t : State) : (refuse .storeFault t).store = t.store := by
    unfold refuse answer
    split
    · rfl
    · rw [joinReply_eq]
  have hident (t : State) : (identFailed t).store = t.store := by
    unfold identFailed
    split
    · rw [printErr, printLine_eq]
    · rfl
  show (refuse .storeFault (identFailed (faulted cause at_ s))).store.fault = true
  rw [hanswer, hident, faulted, notice_eq]

/-- The store in STORE_FAULT for a slot, with no close short of COMPUTING. -/
def slotFaulted (cause : FaultCause) (k : BankId) (slot : Nat) (s : State) : State :=
  notice nkStoreFault true (u8 (faultCauseNum cause) ++ u8 (bankNum k) ++ u16 slot ++ opt 4 (s.time.clock.map (·.1))) { s with
    store.fault := true
    store.queue := []
    store.path := .idle
    store.a.page := none
    store.b.page := none
    engine.rolls := [] }

/-- A fault in a slot, where no close is short of COMPUTING. -/
theorem faulted_slot {s : State} (h : s.engine.state = .idle ∨ s.engine.state = .computing) (cause : FaultCause) (k : BankId)
    (slot : Nat) : faulted cause (some (k, slot)) s = slotFaulted cause k slot s := by
  have hstate : closeAfterFault s.engine.state = s.engine.state := by
    rcases h with h | h <;> rw [h] <;> rfl
  unfold faulted
  rw [hstate]
  rfl

/-- An event that ends with a fault in a slot, with no order in flight or waiting and no IDENT in hand. -/
theorem finish_storeFault {s : State} (hw : s.link.waiting = []) (hn : s.link.inFlight = none) (hi : s.craft.ident = false)
    (he : s.engine.state = .idle ∨ s.engine.state = .computing) (cause : FaultCause) (k : BankId) (slot : Nat) :
    finish (storeFault cause (some (k, slot)) s) = kick (slotFaulted cause k slot s) := by
  rw [storeFault_none hi hn, faulted_slot he]
  exact finish_of_none ((notice_waiting ..).trans hw)

/-- A fault in a slot of a bank just written, with nothing queued. -/
theorem slotFaulted_counted {s : State} (hq : s.store.queue = []) (cause : FaultCause) (k : BankId) (slot : Nat) (v : Bank) (n : Nat) :
    slotFaulted cause k slot (bankCounted s k v n) = notice nkStoreFault true
      (u8 (faultCauseNum cause) ++ u8 (bankNum k) ++ u16 slot ++ opt 4 (s.time.clock.map (·.1)))
      (let t := setBank s k v
      { t with
        store.mismatches := n
        store.fault := true
        store.path := .idle
        store.a.page := none
        store.b.page := none
        engine.rolls := [] }) := by
  unfold slotFaulted
  rw [← hq]
  cases k <;> rfl

/-- A mismatch below the fourth in a row is counted. -/
theorem countMismatch_counts {s : State} (h : s.store.mismatches < 3) (i : BankId) (slot : Nat) :
    countMismatch i slot s = { s with store.mismatches := s.store.mismatches + 1 } := by
  unfold countMismatch
  exact if_neg (by dsimp only; omega)

/-- The fourth mismatch in a row faults the store. -/
theorem countMismatch_faults {s : State} (h : 3 ≤ s.store.mismatches) (i : BankId) (slot : Nat) :
    countMismatch i slot s = storeFault .mismatch (some (i, slot)) { s with store.mismatches := s.store.mismatches + 1 } := by
  unfold countMismatch
  exact if_pos (by dsimp only; omega)

/-! ## The end of a slot's programming (R148) -/

/-- A bank with the state byte of a slot programmed to void it, as far as the array took it. -/
def slotVoided (p : Programmed) (slot : Nat) (b : Bank) : Bank :=
  { b with cells := cellsAnd b.cells (32 * slot + 31) [p.voids.head?.getD 0] }

/-- A slot that still reads as committed, as the model's check. -/
theorem committed_iff (b : Bank) (slot : Nat) : committed b slot = true ↔ slotState b slot = 0x0F := decide_eq_true_iff

/-- A bank with a record programmed at its append point. -/
def recordWrote (p : Programmed) (body : List Byte) (b : Bank) : Bank :=
  { b with cells := cellsAnd b.cells (32 * b.append) (took p (body ++ [0x0F])), append := b.append + 1 }

section
variable {p : Programmed} {k : BankId} {body : List Byte} {o : Origin} {q : List StoreItem} {s : State}
  (hp : s.store.path = .append) (hq : s.store.queue = .record body o :: q) (ho : openBank s = some k)
include hp hq ho

/-- A record that reads back is committed to its producer. -/
theorem recordProgrammed_commits
    (hr : slotBytes (recordWrote p body (bank s k)) (bank s k).append = body ++ [0x0F]) : recordProgrammed p s
      = nextItem (recordCommit o { setBank s k (recordWrote p body (bank s k)) with store.queue := q, store.mismatches := 0 }) := by
  unfold recordProgrammed
  rw [hp, hq, ho]
  dsimp only [advanceAppend]
  simp only [programBank_eq, setBank_setBank, bank_setBank]
  exact if_pos hr

variable (hr : slotBytes (recordWrote p body (bank s k)) (bank s k).append ≠ body ++ [0x0F])
include hr

/-- A record that does not read back is voided. -/
theorem recordProgrammed_voids : recordProgrammed p s
    = (let t := setBank s k (slotVoided p (bank s k).append (recordWrote p body (bank s k)))
      if committed (bank t k) (bank s k).append then storeFault .voidFailed (some (k, (bank s k).append)) t
      else if (countMismatch k (bank s k).append t).store.fault then countMismatch k (bank s k).append t
      else nextItem (lowCheck (countMismatch k (bank s k).append t))) := by
  unfold recordProgrammed
  rw [hp, hq, ho]
  dsimp only [advanceAppend, voidSlot]
  simp only [programBank_eq, setBank_setBank, bank_setBank]
  exact if_neg hr

/-- A void that still reads as committed faults the store. -/
theorem recordProgrammed_voidFails
    (hv : slotState (slotVoided p (bank s k).append (recordWrote p body (bank s k))) (bank s k).append = 0x0F) :
    recordProgrammed p s = storeFault .voidFailed (some (k, (bank s k).append))
      (setBank s k (slotVoided p (bank s k).append (recordWrote p body (bank s k)))) := by
  rw [recordProgrammed_voids hp hq ho hr]
  exact if_pos (by rw [bank_setBank, committed_iff]; exact hv)

variable (hv : slotState (slotVoided p (bank s k).append (recordWrote p body (bank s k))) (bank s k).append ≠ 0x0F)
include hv

/-- The fourth mismatch in a row faults the store. -/
theorem recordProgrammed_fourth (hm : 3 ≤ s.store.mismatches) : recordProgrammed p s
    = storeFault .mismatch (some (k, (bank s k).append))
      { setBank s k (slotVoided p (bank s k).append (recordWrote p body (bank s k))) with
        store.mismatches := s.store.mismatches + 1 } := by
  rw [recordProgrammed_voids hp hq ho hr]
  dsimp only
  rw [if_neg (by rw [bank_setBank, committed_iff]; exact hv), countMismatch_faults (by simpa using hm), if_pos (storeFault_fault ..),
    setBank_store_mismatches]

/-- A mismatch before it leaves the record at the head of the queue, to be written again. -/
theorem recordProgrammed_again (hm : s.store.mismatches < 3) (hf : s.store.fault = false) : recordProgrammed p s
    = nextItem (lowCheck { setBank s k (slotVoided p (bank s k).append (recordWrote p body (bank s k))) with
        store.mismatches := s.store.mismatches + 1 }) := by
  rw [recordProgrammed_voids hp hq ho hr]
  dsimp only
  rw [if_neg (by rw [bank_setBank, committed_iff]; exact hv), countMismatch_counts (by simpa using hm), setBank_store_mismatches,
    if_neg (by simp [hf])]

end

end Sys2Proof.Safety
end

