-- ==== Proofs/RecoveryScan.lean ====
section
/-! PROOFS. The recovery scan's stages, its walks, and the end of STARTING (R155 to R157, R190; O32). -/

namespace Sys2Proof.Safety

open Sys2Proof.Machine

/-! ## The walk of a region (R156) -/

/-- A walk over slots whose state bytes are programmed ends at the first erased one and changes nothing. -/
theorem walk_clean {i : BankId} {n : Nat} {s : State} (he : slotErased (bank s i) n = true) (vs : List Byte) :
    ∀ (fuel m : Nat), m ≤ n → n < m + fuel → (∀ j, m ≤ j → j < n → slotState (bank s i) j ≠ 0xFF) →
      walk i fuel m vs s = (s, n, vs)
  | 0, m, hm, hf, _ => absurd hf (by omega)
  | fuel + 1, m, hm, hf, hs => by
    unfold walk
    rcases Nat.eq_or_lt_of_le hm with rfl | hlt
    · have hlast : slotState (bank s i) m = 0xFF := by
        have hall := List.all_eq_true.mp he (slotState (bank s i) m) (List.mem_map.mpr ⟨31, List.mem_range.mpr (by decide), rfl⟩)
        exact of_decide_eq_true hall
      rw [if_pos hlast, if_pos he]
    · rw [if_neg (hs m (Nat.le_refl m) hlt)]
      exact walk_clean he vs fuel (m + 1) hlt (by omega) fun j h1 h2 => hs j (by omega) h2

/-- The walk of a journal without a torn slot finds its append point. -/
theorem walkJournal_clean {i : BankId} {n : Nat} {s : State} (h1 : 1 ≤ n) (hn : n ≤ 16383)
    (hs : ∀ j, 1 ≤ j → j < n → slotState (bank s i) j ≠ 0xFF) (he : slotErased (bank s i) n = true) (vs : List Byte) :
    walkJournal i vs s = (setBank s i { bank s i with append := n }, vs) := by
  unfold walkJournal
  rw [walk_clean he vs 16383 1 h1 (by omega) hs]

/-! ## The stages of the scan (R155 to R157, R176) -/

/-- A bank that the scan walks: OPEN or CLOSING. -/
def ScanWalks (b : Bank) : Prop := b.state = .open_ ∨ b.state = .closing

/-- A bank walked. -/
theorem walkBank_walks {i : BankId} {s : State} (h : ScanWalks (bank s i)) (vs : List Byte) : walkBank i vs s = walkJournal i vs s :=
  if_pos (by simpa [ScanWalks] using h)

/-- A bank left alone. -/
theorem walkBank_skips {i : BankId} {s : State} (h : ¬ ScanWalks (bank s i)) (vs : List Byte) : walkBank i vs s = (s, vs) :=
  if_neg (by simpa [ScanWalks] using h)

/-- With no bank OPEN the scan reads none. -/
theorem scanOpen_none {s : State} (h : openBank s = none) : scanOpen s = s := by
  unfold scanOpen
  rw [h]

/-- With no bank CLOSING the scan walks no statement region. -/
theorem scanClosing_none {s : State} (h : bankIn s .closing = none) (vs : List Byte) : scanClosing vs s = s := by
  unfold scanClosing
  rw [h]

/-- A bank that is not ERASING is not erased. -/
theorem restartErase_rests {i : BankId} {s : State} (h : (bank s i).state ≠ .erasing) : restartErase i s = s :=
  if_neg (by simp [h])

/-- With no bank OPEN no close is completed. -/
theorem completeClose_none {s : State} (h : openBank s = none) : completeClose s = s := by
  unfold completeClose
  rw [h]

/-- The scan in its stages, where the law of R146 stands. -/
theorem recoveryScan_lawful {s : State} (hop : s.link.op = .starting) (hscan : s.store.scan = .reading)
    (hl : lawBroken (scanHeaders s) = false) (vs : List Byte) : recoveryScan vs s
      = (let r := walkBank .b (walkBank .a vs (scanHeaders s)).2 (walkBank .a vs (scanHeaders s)).1
        scanAdvance { scanBanks r.2 r.1 with store.scan := .waiting }) := by
  unfold recoveryScan
  rw [if_neg (by simp [hop, hscan])]
  dsimp only
  rw [hl, if_neg Bool.false_ne_true]

/-- No bank is in a state that neither has. -/
theorem bankIn_none {s : State} {x : BankState} (ha : s.store.a.state ≠ x) (hb : s.store.b.state ≠ x) : bankIn s x = none :=
  (if_neg ha).trans (if_neg hb)

/-- A bank is in a state that the other has not. -/
theorem bankIn_some {s : State} {x : BankState} {k : BankId} (hk : (bank s k).state = x) (ho : (bank s (otherBank k)).state ≠ x) :
    bankIn s x = some k := by
  cases k with
  | a => exact if_pos hk
  | b => exact (if_neg ho).trans (if_pos hk)

/-! ## The end of STARTING (R157, R190) -/

/-- The state with STARTING ended and START handed to the link. -/
def startNoticed (s : State) : State :=
  notice nkStart true (startBytes s) { s with store.scan := .ended, link.op := .unset }

/-- The JOURNAL_LOW of a low mark changes the link alone, and leaves what waits and the operating state. -/
theorem startLow_link (s : State) : ∃ l, startLow s = { s with link := l } ∧ l.waiting = s.link.waiting ∧ l.op = s.link.op := by
  unfold startLow
  split
  · split
    · exact ⟨_, notice_eq .., (noticedLink_keeps ..).1, (noticedLink_keeps ..).2.2⟩
    · exact ⟨s.link, rfl, rfl, rfl⟩
  · exact ⟨s.link, rfl, rfl, rfl⟩

/-- Without a low mark no JOURNAL_LOW goes out. -/
theorem startLow_unmarked {s : State} (h : s.store.lowMark = false) : startLow s = s := by
  unfold startLow
  split
  · exact if_neg (by simp [h])
  · rfl

/-- The end of STARTING with the ALERT input not asserted. -/
theorem finishStart_eq {s : State} (ha : s.schedule.alertInput = false) : finishStart s
    = if (startLow (startNoticed s)).store.path = .idle then nextItem (startLow (startNoticed s)) else startLow (startNoticed s) := by
  have halert : (startLow (startNoticed s)).schedule.alertInput = false := by
    obtain ⟨l, hl, -⟩ := startLow_link (startNoticed s)
    rw [hl, startNoticed, notice_eq]
    exact ha
  have hstart : notice nkStart true (startBytes { s with store.scan := .ended, link.op := .unset })
      { s with store.scan := .ended, link.op := .unset } = startNoticed s := rfl
  unfold finishStart
  dsimp only
  rw [hstart, halert, if_neg Bool.false_ne_true]

/-- The state behind START differs in the link and the scan's phase alone. -/
theorem startLow_store (s : State) : (startLow (startNoticed s)).store = { s.store with scan := .ended }
    ∧ (startLow (startNoticed s)).engine = s.engine := by
  obtain ⟨l, hl, -⟩ := startLow_link (startNoticed s)
  rw [hl, startNoticed, notice_eq]
  exact ⟨rfl, rfl⟩

/-- A path at rest with nothing queued and no close under way stays as it is. -/
theorem nextItem_resting {s : State} (hq : s.store.queue = []) (he : s.engine.state = .idle) (hp : s.store.path = .idle) :
    nextItem s = s :=
  (nextItem_idle hq he).trans (by rw [← hp])

/-- With nothing queued and no close under way STARTING ends with its notices alone. -/
theorem finishStart_rests {s : State} (ha : s.schedule.alertInput = false) (hq : s.store.queue = []) (he : s.engine.state = .idle)
    (hp : s.store.path = .idle) : finishStart s = startLow (startNoticed s) := by
  obtain ⟨hstore, hengine⟩ := startLow_store s
  have hpath : (startLow (startNoticed s)).store.path = .idle := (congrArg Store.path hstore).trans hp
  rw [finishStart_eq ha, if_pos hpath]
  exact nextItem_resting ((congrArg Store.queue hstore).trans hq) ((congrArg Engine.state hengine).trans he) hpath

/-- The scan's end where nothing that it waits for is queued. -/
theorem scanAdvance_waits {s : State} (hop : s.link.op = .starting) (hscan : s.store.scan = .waiting) (hf : s.store.fault = false)
    (hq : s.store.queue = []) : scanAdvance s = match bankIn s .closing, openBank s with
      | some i, none =>
        if (bank s (otherBank i)).state = .free then
          { joinItem (.header (otherBank i) .opened)
              (joinItem (.header (otherBank i) (.sequence (openingSequence s (otherBank i)))) s) with
            store.minute := closeMinuteOf (bank s i) }
        else if (bank s (otherBank i)).state = .erasing then s
        else finishStart s
      | _, _ => finishStart s := by
  unfold scanAdvance
  rw [if_neg (by simp [hop, hscan]), hf, hq]
  rfl

/-- With no bank CLOSING the scan ends STARTING, also where the store has a fault. -/
theorem scanAdvance_ends {s : State} (hop : s.link.op = .starting) (hscan : s.store.scan = .waiting) (hq : s.store.queue = [])
    (hc : bankIn s .closing = none) : scanAdvance s = finishStart s := by
  cases hf : s.store.fault with
  | true =>
    unfold scanAdvance
    rw [if_neg (by simp [hop, hscan]), if_pos hf]
  | false => rw [scanAdvance_waits hop hscan hf hq, hc]

/-! ## A blank store (R155, R162, R190) -/

/-- The lock words hold their values, as the identity area gives it (R162). -/
def lockedBy (d : Identity) : Bool := d.headId ≠ 0xFFFFFFFF && d.lockA = d.headId && d.lockB = ~~~ d.headId

/-- A bank without a listed byte reads as FREE. -/
theorem bankStateOf_blank {b : Bank} (h : b.cells = []) : bankStateOf b = .free := by
  unfold bankStateOf bankBlank
  rw [h]
  rfl

/-- The state behind the scan of a blank store, START not yet sent. -/
def blankScanned (s : State) : State := { s with
  store.lock := if lockedBy s.store.identity then .effective else .none
  store.a.state := .free
  store.b.state := .free
  store.scan := .waiting
  engine.tariff := List.replicate 16 0 }

/-- The scan of a blank store finds nothing to take up. -/
theorem recoveryScan_blank {s : State} (hop : s.link.op = .starting) (hscan : s.store.scan = .reading) (ha : s.store.a.cells = [])
    (hb : s.store.b.cells = []) (vs : List Byte) : recoveryScan vs s = scanAdvance (blankScanned s) := by
  have hsa : (scanHeaders s).store.a.state = .free := bankStateOf_blank ha
  have hsb : (scanHeaders s).store.b.state = .free := bankStateOf_blank hb
  have hskip (i : BankId) : ¬ ScanWalks (bank (scanHeaders s) i) := by
    cases i <;> simp [ScanWalks, bank, hsa, hsb]
  have hstill (i : BankId) : (bank (scanHeaders s) i).state ≠ .erasing := by
    cases i <;> simp [bank, hsa, hsb]
  have hnone (x : BankState) (hx : x ≠ .free) : bankIn (scanHeaders s) x = none :=
    bankIn_none (by rw [hsa]; exact hx.symm) (by rw [hsb]; exact hx.symm)
  have htariff : scanTariff (scanHeaders s) = List.replicate 16 0 := by
    unfold scanTariff openBank
    rw [hnone _ (by decide), hnone _ (by decide), hnone _ (by decide)]
    rfl
  have hbanks : scanBanks vs (scanHeaders s) = { scanHeaders s with engine.tariff := List.replicate 16 0 } := by
    unfold scanBanks
    rw [scanOpen_none (hnone _ (by decide))]
    dsimp only
    rw [htariff, scanClosing_none (by exact hnone _ (by decide)),
      restartErase_rests (i := .a) (by exact hstill .a), restartErase_rests (i := .b) (by exact hstill .b),
      completeClose_none (by exact hnone _ (by decide))]
  rw [recoveryScan_lawful hop hscan (by simp [lawBroken, hsa, hsb])]
  dsimp only
  rw [walkBank_skips (hskip .a), walkBank_skips (hskip .b), hbanks]
  unfold blankScanned scanHeaders
  rw [bankStateOf_blank ha, bankStateOf_blank hb]
  rfl

/-- The matter of START behind the scan of a blank store. -/
theorem startBytes_blank {s : State} (ha : s.store.a.cells = []) (hb : s.store.b.cells = []) : startBytes (blankScanned s)
    = u8 (causeNum s.time.cause) ++ flag s.time.coldStart ++ [0, 0xFF, 0xFF, 0, 0xFF, 0xFF] ++ flag (lockedBy s.store.identity)
      ++ u32 s.store.identity.headId.toNat ++ flag s.store.fault := by
  have hseq {b : Bank} (h : b.cells = []) : u16 (seqOf b) = [0xFF, 0xFF] := by
    unfold seqOf
    rw [h]
    rfl
  have hlock : decide ((blankScanned s).store.lock = .effective) = lockedBy s.store.identity := by
    unfold blankScanned
    cases lockedBy s.store.identity <;> rfl
  have hfree : u8 (bankStateNum .free) = [0] := by decide
  unfold startBytes
  rw [hlock, show u16 (seqOf (blankScanned s).store.a) = [0xFF, 0xFF] from hseq ha,
    show u16 (seqOf (blankScanned s).store.b) = [0xFF, 0xFF] from hseq hb,
    show u8 (bankStateNum (blankScanned s).store.a.state) = [0] from hfree,
    show u8 (bankStateNum (blankScanned s).store.b.state) = [0] from hfree]
  simp only [List.append_assoc, List.cons_append, List.nil_append]
  rfl

/-- Settles O32: the scan of a blank store by its stages, and the walk of a journal without a torn slot. -/
theorem recoveryScanReadsTheStore : Obligations.RecoveryScanReadsTheStore := by
  refine ⟨fun voids s hw hop hscan ha hb hq hp he halert hlow => ?_, fun i k voids s h1 hk hs her =>
    walkJournal_clean h1 hk hs her voids⟩
  intro d locked
  have hend : recoveryScan voids s = startNoticed (blankScanned s) := by
    rw [recoveryScan_blank hop hscan ha hb,
      scanAdvance_ends (s := blankScanned s) hop rfl hq
        (bankIn_none (by exact BankState.noConfusion) (by exact BankState.noConfusion)),
      finishStart_rests (s := blankScanned s) halert hq he hp]
    refine startLow_unmarked ?_
    rw [startNoticed, notice_eq]
    exact hlow
  have hwait : (startNoticed (blankScanned s)).link.waiting = [] := (notice_waiting ..).trans hw
  show Host.Outcome.next (finish (recoveryScan voids s)) = _
  rw [hend, finish_of_none hwait, startNoticed, startBytes_blank ha hb]
  rfl

end Sys2Proof.Safety
end

