-- ==== Proofs/JournalRecords.lean ====
section
/-! PROOFS. How journal records commit, are voided and written again, fault the store, join the queue or find no room (R148 to R152;
O56). -/

namespace Sys2Proof.Safety

open Sys2Proof.Machine

/-! ## Room in the journal (R151, R152) -/

/-- The items behind an OPENED programming are those of the queue without a head that is none. -/
theorem behindOpened_cons {x : StoreItem} (hx : isOpened x = false) (q : List StoreItem) :
    behindOpened (x :: q) = behindOpened q := by
  unfold behindOpened
  rw [List.any_cons, hx, Bool.false_or, List.dropWhile_cons_of_pos (by rw [hx]; rfl)]

/-- The free slots of an OPEN bank with no opening in the queue. -/
theorem freeSlots_open {s : State} {k : BankId} (ho : openBank s = some k) (hb : behindOpened s.store.queue = none) :
    freeSlots s = 16384 - (bank s k).append - (s.store.queue.filter isRecord).length := by
  unfold freeSlots
  rw [hb, ho]

/-- A check for JOURNAL_LOW with the mark set already. -/
theorem lowCheck_marked {s : State} (h : s.store.lowMark = true) : lowCheck s = s := by
  unfold lowCheck
  split
  · exact if_neg (by simp [h])
  · rfl

/-- A check for JOURNAL_LOW in an OPEN bank with no opening in the queue. -/
theorem lowCheck_open {s : State} {k : BankId} (ho : openBank s = some k) (hb : behindOpened s.store.queue = none) : lowCheck s
    = if freeSlots s ≤ 256 ∧ s.store.lowMark = false then
        notice nkJournalLow true (u8 1 ++ u8 (bankNum k) ++ u16 (seqOf (bank s k)) ++ u16 (freeSlots s))
          { s with store.lowMark := true }
      else s := by
  unfold lowCheck
  rw [ho, hb]
  simp only [Bool.and_eq_true, decide_eq_true_eq, Bool.not_eq_true']

/-! ## Records that join, and records lost (R152) -/

/-- The state with the OVERFLOW programming of a bank joined to the queue, unless the marker stands or waits there. -/
def overflowMarked (k : BankId) (s : State) : State :=
  if hdr (bank s k) 18 ≠ 0xFF ∨ .header k .overflow ∈ s.store.queue then s else { s with
    store.queue := s.store.queue ++ [.header k .overflow]
    store.path := if s.store.path = .idle then .append else s.store.path }

/-- A record lost in an OPEN bank marks it and is told. -/
theorem loseRecord_open {s : State} {k : BankId} (ho : openBank s = some k) (kind : Nat) :
    loseRecord kind s = notice nkJournalLow true (u8 0 ++ u8 (kind - 1)) (overflowMarked k s) := by
  have hwaits : overflowQueued s k = true ↔ .header k .overflow ∈ s.store.queue := by
    unfold overflowQueued
    rw [List.any_eq_true]
    exact ⟨fun ⟨x, hx, h⟩ => of_decide_eq_true h ▸ hx, fun h => ⟨_, h, decide_eq_true rfl⟩⟩
  unfold loseRecord overflowMarked
  rw [ho]
  dsimp only
  rw [overflowSet, if_congr (by rw [Bool.or_eq_true, hdrSet_iff, hwaits]) rfl rfl]
  rfl

/-- The state that a record's claim of a slot leaves: the first fall of the free slots to 256 marks the bank and is told. -/
def lowNoticed (k : BankId) (s t : State) : State :=
  if freeSlots s ≤ 257 ∧ s.store.lowMark = false then
    notice nkJournalLow true (u8 1 ++ u8 (bankNum k) ++ u16 (seqOf (bank s k)) ++ u16 (freeSlots s - 1))
      { t with store.lowMark := true }
  else t

/-- A record joins an OPEN bank's journal. -/
theorem joinRecord_open {s : State} {k : BankId} (ho : openBank s = some k) (hb : behindOpened s.store.queue = none)
    (body : List Byte) (o : Origin) : joinRecord body o s = lowNoticed k s (recordJoined body o s) := by
  have hfree : freeSlots (recordJoined body o s) = freeSlots s - 1 := freeSlots_record rfl rfl rfl
  have hbehind : behindOpened (recordJoined body o s).store.queue = none := by
    show behindOpened (s.store.queue ++ [.record body o]) = none
    rw [behindOpened_snoc rfl, hb]
    rfl
  refine (lowCheck_open (s := recordJoined body o s) ho hbehind).trans ?_
  rw [hfree]
  exact if_congr (and_congr_left' (by omega)) (by cases k <;> rfl) rfl

section
variable {s : State} {k : BankId} (hf : s.store.fault = false) (ho : openBank s = some k)
include hf

include ho in
/-- An automatic record that finds no slot is lost. -/
theorem appendAuto_lost (h : freeSlots s = 0) (kind : Nat) (fields : List Byte) (o : Origin) : appendAuto kind fields o s
    = (notice nkJournalLow true (u8 0 ++ u8 (kind - 1)) (overflowMarked k s), false) := by
  unfold appendAuto
  rw [hf, if_neg (by decide), if_pos h, loseRecord_open ho]

/-- An automatic record that finds a slot joins. -/
theorem appendAuto_joins (h : 0 < freeSlots s) (kind : Nat) (fields : List Byte) (o : Origin) :
    appendAuto kind fields o s = (joinRecord (recordBody kind (minuteOf s) fields) o s, true) := by
  unfold appendAuto
  rw [hf, if_neg (by decide), if_neg (by omega)]

end

/-! ## A record at the head of the queue without a slot (R152) -/

/-- A record that finds no slot leaves the queue. -/
theorem pumpStore_loses {s : State} {body : List Byte} {o : Origin} {q : List StoreItem} (hf : s.store.fault = false)
    (hp : s.store.path = .idle) (hq : s.store.queue = .record body o :: q) (hn : noSlot s = true) (n : Nat) : pumpStore (n + 1) s
      = pumpStore n { loseHead body o { s with store.queue := q, store.path := .append } with store.path := .idle } := by
  rw [pumpStore, hf, hp, if_neg (by decide), hq]
  exact if_pos hn

/-- Behind the record lost the path goes on to the next item, where it finds a slot. -/
theorem nextItem_loses {s : State} {body : List Byte} {o : Origin} {q : List StoreItem} (hf : s.store.fault = false)
    (hq : s.store.queue = .record body o :: q) (hn : noSlot s = true)
    (hf' : (loseHead body o { s with store.queue := q, store.path := .append }).store.fault = false)
    (h : HeadFits (loseHead body o { s with store.queue := q, store.path := .append }))
    (he : (loseHead body o { s with store.queue := q, store.path := .append }).engine.state = .idle) :
    nextItem s = pathNext (loseHead body o { s with store.queue := q, store.path := .append }) := by
  unfold nextItem
  rw [show s.store.queue.length + s.engine.rolls.length + 20 = s.store.queue.length + s.engine.rolls.length + 18 + 1 + 1 from rfl,
    pumpStore_loses (s := { s with store.path := .idle }) hf rfl hq hn,
    pumpStore_fits (s := { loseHead body o { s with store.queue := q, store.path := .append } with store.path := .idle })
      hf' rfl h]
  unfold pathNext
  split
  · exact startStatement_rests (.inl fun hd => by rw [hd.2.1] at he; cases he)
  · rfl

/-! ## The end of a record's programming -/

/-- The end of a record's programming, in the event that reports it. -/
theorem exec_recordProgrammed {p : Programmed} {s t : State} (h : recordProgrammed p s = t) (hw : t.link.waiting = []) :
    exec (.journalRecordProgrammed p) s = .next (kick t) := by
  subst h
  exact congrArg Host.Outcome.next (finish_of_none hw)

/-- The state with the slot of a record voided and the mismatch counted. -/
def recordVoided (p : Programmed) (k : BankId) (body : List Byte) (s : State) : State :=
  { setBank s k (slotVoided p (bank s k).append (recordWrote p body (bank s k))) with
    store.mismatches := s.store.mismatches + 1 }

/-- The OPEN bank stays OPEN. -/
theorem recordVoided_open {s : State} {k : BankId} (ho : openBank s = some k) (p : Programmed) (body : List Byte) :
    openBank (recordVoided p k body s) = some k := (openBank_setBank (by rfl)).trans ho

/-- Its append point passes the slot. -/
theorem recordVoided_append (p : Programmed) (k : BankId) (body : List Byte) (s : State) :
    (bank (recordVoided p k body s) k).append = (bank s k).append + 1 :=
  congrArg Bank.append (bank_setBank s k (slotVoided p (bank s k).append (recordWrote p body (bank s k))))

/-- The queue, the path, the low mark, the fault flag and the engine stand. -/
theorem recordVoided_keeps (p : Programmed) (k : BankId) (body : List Byte) (s : State) :
    (recordVoided p k body s).store.queue = s.store.queue ∧ (recordVoided p k body s).store.path = s.store.path
      ∧ (recordVoided p k body s).store.lowMark = s.store.lowMark ∧ (recordVoided p k body s).store.fault = s.store.fault
      ∧ (recordVoided p k body s).engine = s.engine ∧ (recordVoided p k body s).link = s.link := by
  cases k <;> exact ⟨rfl, rfl, rfl, rfl, rfl, rfl⟩

section
variable {p : Programmed} {k : BankId} {body : List Byte} {o : Origin} {q : List StoreItem} {s : State}
  (hp : s.store.path = .append) (hq : s.store.queue = .record body o :: q) (ho : openBank s = some k)
  (hf : s.store.fault = false) (he : s.engine.state = .idle)
include hp hq ho hf he

/-- A record of no order, outage or roll that reads back: the next item is taken. -/
theorem recordProgrammed_other (horigin : o = .other) (ha : (bank s k).append < 16383)
    (hr : slotBytes (recordWrote p body (bank s k)) (bank s k).append = body ++ [0x0F]) : recordProgrammed p s
      = pathNext { setBank s k (recordWrote p body (bank s k)) with store.queue := q, store.mismatches := 0 } := by
  subst horigin
  rw [recordProgrammed_commits hp hq ho hr]
  refine nextItem_rests (by exact (setBank_store_fault ..).trans hf) (headFits_of_open (k := k) ?_ ?_)
    (.inl (not_statementDue ((congrArg Engine.state (setBank_engine ..)).trans he)))
  · exact (openBank_setBank (by rfl)).trans ho
  · exact (congrArg Bank.append (bank_setBank ..)).trans_le (by exact ha)

variable (hr : slotBytes (recordWrote p body (bank s k)) (bank s k).append ≠ body ++ [0x0F])
  (hv : slotState (slotVoided p (bank s k).append (recordWrote p body (bank s k))) (bank s k).append ≠ 0x0F)
  (hm : s.store.mismatches < 3)
include hr hv hm

/-- A record voided is written again, where slots enough stay free for no JOURNAL_LOW to be due. -/
theorem recordProgrammed_rewrites (hb : behindOpened q = none)
    (hfree : (bank s k).append + 1 + (1 + (q.filter isRecord).length) + 256 < 16384) :
    recordProgrammed p s = recordVoided p k body s := by
  obtain ⟨hqueue, hpath, -, hfault, hengine, -⟩ := recordVoided_keeps p k body s
  have hopen := recordVoided_open ho p body
  have happ := recordVoided_append p k body s
  have hroom : 256 < freeSlots (recordVoided p k body s) := by
    rw [freeSlots_open hopen (by rw [hqueue, hq, behindOpened_cons rfl, hb]), happ, hqueue, hq, List.filter_cons_of_pos rfl,
      List.length_cons]
    omega
  refine (recordProgrammed_again hp hq ho hr hv hm hf).trans ((congrArg nextItem (lowCheck_room hroom)).trans ?_)
  exact (nextItem_rests (hfault.trans hf) (headFits_of_open hopen (by omega))
    (.inl (not_statementDue (by rw [hengine, he])))).trans (pathNext_busy (by simp [hqueue, hq]) (hpath.trans hp))

omit he in
/-- A record whose last slot was voided is lost at the head of the queue. -/
theorem recordProgrammed_loses (ha : (bank s k).append = 16383) (hlow : s.store.lowMark = true) {t : State}
    (ht : loseHead body o { recordVoided p k body s with store.queue := q, store.path := .append } = t)
    (htf : t.store.fault = false) (htq : HeadFits t) (hte : t.engine.state = .idle) : recordProgrammed p s = pathNext t := by
  subst ht
  obtain ⟨hqueue, -, hmark, hfault, -, -⟩ := recordVoided_keeps p k body s
  have happ := recordVoided_append p k body s
  have hnone : noSlot (recordVoided p k body s) = true := by
    unfold noSlot
    rw [recordVoided_open ho]
    exact decide_eq_true (by omega)
  refine (recordProgrammed_again hp hq ho hr hv hm hf).trans ((congrArg nextItem (lowCheck_marked (hmark.trans hlow))).trans ?_)
  exact nextItem_loses (hfault.trans hf) (hqueue.trans hq) hnone htf htq hte

end

/-- The state with the record of a voided last slot taken from the queue. -/
def lastVoided (p : Programmed) (k : BankId) (body : List Byte) (q : List StoreItem) (s : State) : State :=
  { recordVoided p k body s with store.queue := q, store.path := .append }

/-- The items behind a record lost: the OVERFLOW programming joins them, unless the marker stands or waits there. -/
def behindLost (k : BankId) (b : Bank) (q : List StoreItem) : List StoreItem :=
  if hdr b 18 ≠ 0xFF ∨ .header k .overflow ∈ q then q else q ++ [.header k .overflow]

/-- A record lost behind its last slot marks the bank. -/
theorem overflowMarked_lastVoided (p : Programmed) (k : BankId) (body : List Byte) (q : List StoreItem) (s : State) :
    overflowMarked k (lastVoided p k body q s) = lastVoided p k body
      (behindLost k (slotVoided p (bank s k).append (recordWrote p body (bank s k))) q) s := by
  have hbank : bank (lastVoided p k body q s) k = slotVoided p (bank s k).append (recordWrote p body (bank s k)) :=
    bank_setBank s k (slotVoided p (bank s k).append (recordWrote p body (bank s k)))
  unfold overflowMarked behindLost
  rw [hbank]
  by_cases h : hdr (slotVoided p (bank s k).append (recordWrote p body (bank s k))) 18 ≠ 0xFF ∨ .header k .overflow ∈ q
  · rw [if_pos h]
    exact if_pos h
  · rw [if_neg h]
    exact if_neg h

/-- No record joins them. -/
theorem behindLost_noRecord {q : List StoreItem} (h : q.all (fun i => !isRecord i) = true) (k : BankId) (b : Bank) :
    (behindLost k b q).all (fun i => !isRecord i) = true := by
  unfold behindLost
  split
  · exact h
  · rw [List.all_append, h]
    rfl

/-- Settles O56: the end of a record's programming by its read-back, a record handed to the store by the free slots, and a record
whose last slot was voided by its origin. -/
theorem recordsCommitOrAreVoided : Obligations.RecordsCommitOrAreVoided := by
  refine ⟨fun p k body q s hw hn hi hf hp he hq ho ha hl hb => ?_, fun kind fields o k s hf ho => ?_,
    fun p k body o q s hw hf hp he hq hall hb ho ha hlow hm => ?_⟩
  · intro b j given wrote voided fault
    have faults {cause : FaultCause} {t u : State} (h : recordProgrammed p s = storeFault cause (some (k, j)) t)
        (hlink : t.link = s.link) (hcraft : t.craft = s.craft) (hengine : t.engine = s.engine)
        (hu : slotFaulted cause k j t = u) : exec (.journalRecordProgrammed p) s = .next (kick u) := by
      subst hu
      refine congrArg Host.Outcome.next ((congrArg finish h).trans (finish_storeFault ?_ ?_ ?_ (.inl ?_) ..))
      · rw [hlink, hw]
      · rw [hlink, hn]
      · rw [hcraft, hi]
      · rw [hengine, he]
    have hrecords : (q.filter isRecord).length < 100 := Nat.lt_of_le_of_lt (List.length_filter_le ..) hl
    refine ⟨fun hr => exec_recordProgrammed (recordProgrammed_other hp hq ho hf he rfl (by omega) hr)
        ((congrArg Link.waiting (setBank_link ..)).trans hw), fun hr hv => ?_, fun hr hv hm => ?_,
      fun hr hv hm => exec_recordProgrammed (recordProgrammed_rewrites hp hq ho hf he hr hv hm hb (by omega))
        ((congrArg Link.waiting (setBank_link ..)).trans hw)⟩
    · refine faults (recordProgrammed_voidFails hp hq ho hr hv) (setBank_link ..) (setBank_craft ..) (setBank_engine ..) ?_
      cases k <;> rfl
    · refine faults (recordProgrammed_fourth hp hq ho hr hv hm) (setBank_link ..) (setBank_craft ..) (setBank_engine ..) ?_
      cases k <;> rfl
  · intro body joined low marked
    refine ⟨fun h => appendAuto_lost hf ho h kind fields o, fun h hb => ⟨?_, joinRecord_open ho hb _ .order⟩⟩
    rw [appendAuto_joins hf h, joinRecord_open ho hb]
    rfl
  · intro b given wrote voided left
    have hwrote : recordWrote p body b = wrote := by
      unfold recordWrote
      rw [show b.append = 16383 from ha]
    have hvoided : slotVoided p b.append (recordWrote p body b) = voided := by
      rw [hwrote, show b.append = 16383 from ha]
      rfl
    have hleft (l : List StoreItem) : pathNext (lastVoided p k body l s) = left l := by
      unfold pathNext lastVoided recordVoided
      rw [hvoided]
    intro hr hv
    rw [← hwrote, ← show b.append = 16383 from ha] at hr
    rw [← hvoided, ← show b.append = 16383 from ha] at hv
    obtain ⟨-, -, -, hfault, hengine, hlink⟩ := recordVoided_keeps p k body s
    have hfits : HeadFits (lastVoided p k body q s) := headFits_of_noRecord hall
    have loses {t : State} := recordProgrammed_loses (t := t) hp hq ho hf hr hv hm ha hlow
    refine ⟨fun tag ord horigin hn => ?_, fun horigin hn => ?_⟩
    · have hlost : loseHead body o (lastVoided p k body q s)
          = joinReply (tagged tag ord) .journalFull [] { lastVoided p k body q s with link.inFlight := none } := by
        rw [horigin]
        exact answer_inFlight (s := lastVoided p k body q s) ((congrArg Link.inFlight hlink).trans hn) ..
      obtain ⟨hst, hen⟩ := joinReply_store (tagged tag ord) .journalFull [] { lastVoided p k body q s with link.inFlight := none }
      have hend := loses hlost ((congrArg Store.fault hst).trans (hfault.trans hf)) (headFits_congr hst hfits)
        ((congrArg Engine.state hen).trans ((congrArg Engine.state hengine).trans he))
      rw [pathNext_joinReply] at hend
      rw [exec_recordProgrammed hend ((joinReply_queue ..).1.trans ((congrArg Link.waiting hlink).trans hw)), ← hleft]
      rfl
    · have hlost : loseHead body o (lastVoided p k body q s) = notice nkJournalLow true (u8 0 ++ u8 (fld body 0 1 - 1))
          (lastVoided p k body (behindLost k voided q) s) := by
        have hkind : loseHead body o (lastVoided p k body q s) = loseRecord (fld body 0 1) (lastVoided p k body q s) := by
          rcases horigin with rfl | ⟨id, rfl⟩ <;> rfl
        rw [hkind, loseRecord_open (s := lastVoided p k body q s) (recordVoided_open ho p body), overflowMarked_lastVoided, hvoided]
      obtain ⟨hst, hen⟩ := notice_store nkJournalLow true (u8 0 ++ u8 (fld body 0 1 - 1))
        (lastVoided p k body (behindLost k voided q) s)
      have hend := loses hlost ((congrArg Store.fault hst).trans (hfault.trans hf))
        (headFits_congr hst (headFits_of_noRecord (behindLost_noRecord hall k voided)))
        ((congrArg Engine.state hen).trans ((congrArg Engine.state hengine).trans he))
      rw [pathNext_notice, hleft] at hend
      exact exec_recordProgrammed hend ((notice_waiting ..).trans ((congrArg Link.waiting (setBank_link ..)).trans hw))

end Sys2Proof.Safety
end

