-- ==== Proofs/StatementSlots.lean ====
section
/-! PROOFS. How statement slots commit or are voided, how accounts are taken up, abandoned and omitted, and the bytes of the
statement records (R148, R149, R174, R175; O59). -/

namespace Sys2Proof.Safety

open Sys2Proof.Machine

/-! ## Accounts taken up (R174) -/

/-- With an account in hand, after a truncation, or with no account left, none is taken up. -/
theorem takeAccount_rests {s : State} (h : s.engine.writing ≠ none ∨ s.engine.truncated = true ∨ accountsLeft s = []) :
    takeAccount s = s := by
  unfold takeAccount
  split
  · next hw ht hl =>
    rcases h with h | h | h
    · exact absurd hw h
    · rw [ht] at h
      cases h
    · rw [hl] at h
      cases h
  · rfl

/-- The next account, by the room of the region. -/
theorem takeAccount_next {s : State} {a : Nat} {as : List Nat} (hw : s.engine.writing = none) (ht : s.engine.truncated = false)
    (hl : accountsLeft s = a :: as) : takeAccount s
      = if regionLeft s < (statementOf (bank s s.engine.bank) a).lines.length + 5 then
          { s with engine.omitted := s.engine.omitted + (a :: as).length, engine.truncated := true }
        else { s with engine.writing := some ⟨a, statementRecords (bank s s.engine.bank) (statementOf (bank s s.engine.bank) a), [],
          (statementOf (bank s s.engine.bank) a).lines.length, (statementOf (bank s s.engine.bank) a).grand⟩ } := by
  unfold takeAccount
  rw [hw, ht, hl]

/-- An account taken up leaves the link. -/
theorem takeAccount_link (s : State) : (takeAccount s).link = s.link := by
  unfold takeAccount
  split
  · dsimp only
    split <;> rfl
  · rfl

/-! ## The next slot (R151, R174) -/

/-- A path written as it stands. -/
theorem withPath_self {s : State} {x : Path} (h : s.store.path = x) : { s with store.path := x } = s := by
  subst h
  rfl

/-- Where no account is taken up the next slot is the statement's own. -/
theorem nextItem_slot {s : State} (hf : s.store.fault = false) (hd : StatementDue s) (hop : s.link.op ≠ .starting)
    (hp : s.store.path = .statement) (h : s.engine.writing ≠ none ∨ s.engine.truncated = true ∨ accountsLeft s = []) :
    nextItem s = s := by
  rw [nextItem_statement hf hd hop, takeAccount_rests (by exact h)]
  exact withPath_self hp

/-- An item joins a queue with nothing in it, behind a programming that has ended. -/
theorem nextItem_joinItem {s : State} {k : BankId} {f : HeaderField} (hf : s.store.fault = false) (hq : s.store.queue = []) :
    nextItem (joinItem (.header k f) s) = { s with store.queue := [.header k f], store.path := .append } := by
  have hqueue : (joinItem (.header k f) s).store.queue = [.header k f] := congrArg (· ++ [StoreItem.header k f]) hq
  rw [nextItem_rests (by exact hf) (headFits_of_noRecord (by rw [hqueue]; rfl)) (.inl fun hd => by
    rw [hd.1] at hqueue
    cases hqueue)]
  unfold pathNext joinItem
  rw [hq]
  rfl

/-! ## Slots voided in turn (R148, R174) -/

/-- The cells with the state bytes of slots programmed to void them, each as far as the array took it. -/
def slotsVoided : List Nat → List Byte → List Host.Cell → List Host.Cell
  | [], _, m => m
  | k :: ks, vs, m => slotsVoided ks (vs.drop 1) (cellsAnd m (32 * k + 31) [vs.head?.getD 0])

/-- The slots with their places in the list. -/
theorem slotsVoided_eq (vs : List Byte) : ∀ (ks : List Nat) (n : Nat) (m : List Host.Cell), slotsVoided ks (vs.drop n) m
    = (ks.zipIdx n).foldl (fun m x => cellsAnd m (32 * x.1 + 31) [(vs[x.2]?).getD 0]) m
  | [], _, _ => rfl
  | k :: ks, n, m => by
    rw [slotsVoided, List.zipIdx_cons, List.foldl_cons, List.head?_drop, List.drop_drop]
    exact slotsVoided_eq vs ks (n + 1) _

/-- A byte put that is not the erased one is read back, whatever the form of the cells. -/
theorem cellGet_cellPut_programmed {x : Byte} (hx : x ≠ erasedByte) (a : Nat) : ∀ m : List Host.Cell, cellGet (cellPut m a x) a = x
  | [] => by simp [cellPut, hx, cellGet]
  | (k, v) :: t => by
    unfold cellPut
    simp only [if_neg hx]
    split
    · next h =>
      rw [cellGet, if_neg (by omega)]
      exact cellGet_cellPut_programmed hx a t
    · split
      · rw [cellGet, if_pos rfl]
      · rw [cellGet, if_pos rfl]

/-- A byte that leaves one of the low four bits clear leaves it clear in what it is programmed into. -/
theorem and_ne_of_clears {v : Byte} (hv : v &&& 0x0F ≠ 0x0F) (y : Byte) : y &&& v ≠ 0xFF ∧ y &&& v ≠ 0x0F := by
  have hself : v &&& (y &&& v) = y &&& v := by rw [BitVec.and_comm y v, ← BitVec.and_assoc, BitVec.and_self]
  refine ⟨fun h => hv ?_, fun h => hv ?_⟩
  · rw [h] at hself
    have hall : v = 0xFF := (BitVec.and_allOnes (x := v)).symm.trans hself
    rw [hall]
    decide
  · rw [h] at hself
    exact hself

/-- A slot voided by a byte that clears one of the low four bits does not read as committed. -/
theorem slotState_voided {v : Byte} (hv : v &&& 0x0F ≠ 0x0F) (b : Bank) (k : Nat) :
    slotState { b with cells := cellsAnd b.cells (32 * k + 31) [v] } k ≠ 0x0F := by
  obtain ⟨herased, hcommitted⟩ := and_ne_of_clears hv (cellGet b.cells (32 * k + 31))
  show cellGet (cellPut b.cells (32 * k + 31) (cellGet b.cells (32 * k + 31) &&& v)) (32 * k + 31) ≠ 0x0F
  rw [cellGet_cellPut_programmed herased]
  exact hcommitted

/-- Voids that take leave the store without a fault. -/
theorem voidSlots_eq (i : BankId) : ∀ (ks : List Nat) (vs : List Byte) (s : State), s.store.fault = false →
    (∀ v ∈ vs, v &&& 0x0F ≠ 0x0F) →
      voidSlots i ks vs s = setBank s i { bank s i with cells := slotsVoided ks vs (bank s i).cells }
  | [], _, s, _, _ => by cases i <;> rfl
  | k :: ks, vs, s, hf, hv => by
    have hhead : vs.head?.getD 0 &&& 0x0F ≠ (0x0F : Byte) := by
      cases vs with
      | nil => decide
      | cons v _ => exact hv v List.mem_cons_self
    have hslot : ¬ committed (bank (voidSlot i k (vs.head?.getD 0) s) i) k = true := by
      rw [committed_iff, voidSlot, programBank_eq, bank_setBank]
      exact slotState_voided hhead (bank s i) k
    have hfault : (voidSlot i k (vs.head?.getD 0) s).store.fault = false := (setBank_store_fault ..).trans hf
    rw [voidSlots, if_neg (Bool.eq_false_iff.mp hf)]
    dsimp only
    rw [if_neg hslot, voidSlots_eq i ks (vs.drop 1) _ hfault fun v h => hv v (List.mem_of_mem_drop h), voidSlot, programBank_eq,
      setBank_setBank, bank_setBank]
    rfl

/-! ## The end of a statement slot's programming (R148, R174, R175) -/

/-- A bank with a record programmed at the append point of its statement region. -/
def slotWrote (p : Programmed) (body : List Byte) (b : Bank) : Bank :=
  { b with cells := cellsAnd b.cells (32 * b.stmtAppend) (took p (body ++ [0x0F])), stmtAppend := b.stmtAppend + 1 }

/-- The bank whose statements are written. -/
abbrev closingBank (s : State) : Bank := bank s s.engine.bank

/-- The closing bank with the record in hand programmed. -/
def headWrote (p : Programmed) (s : State) : Bank := slotWrote p (statementHead s) (closingBank s)

/-- The closing bank with the slot of the record in hand voided. -/
def headVoided (p : Programmed) (s : State) : Bank := slotVoided p (closingBank s).stmtAppend (headWrote p s)

/-- The state with the slot of the record in hand voided and the mismatch counted. -/
def slotRefused (p : Programmed) (s : State) : State := bankCounted s s.engine.bank (headVoided p s) (s.store.mismatches + 1)

/-- The fault flag, the queue and the path stand. -/
theorem slotRefused_keeps (p : Programmed) (s : State) : (slotRefused p s).store.fault = s.store.fault
    ∧ (slotRefused p s).store.queue = s.store.queue ∧ (slotRefused p s).store.path = s.store.path := bankCounted_keeps ..

/-- The closing bank is the one with the slot voided. -/
theorem slotRefused_bank (p : Programmed) (s : State) : closingBank (slotRefused p s) = headVoided p s :=
  bank_bankCounted ..

/-- The state with the slot of the record in hand committed. -/
def slotCommitted (p : Programmed) (s : State) : State := bankCounted s s.engine.bank (headWrote p s) 0

/-- The fault flag, the queue and the path stand. -/
theorem slotCommitted_keeps (p : Programmed) (s : State) : (slotCommitted p s).store.fault = s.store.fault
    ∧ (slotCommitted p s).store.queue = s.store.queue ∧ (slotCommitted p s).store.path = s.store.path := bankCounted_keeps ..

/-- The slots left behind the one voided. -/
theorem regionLeft_slotRefused (p : Programmed) (s : State) :
    regionLeft (slotRefused p s) = 32768 - ((closingBank s).stmtAppend + 1) :=
  congrArg (fun b : Bank => 32768 - b.stmtAppend) (slotRefused_bank p s)

/-- The record in hand reads back as given. -/
def HeadAgrees (p : Programmed) (s : State) : Prop :=
  slotBytes (headWrote p s) (closingBank s).stmtAppend = statementHead s ++ [0x0F]

/-- The statement engine programs a slot of its region: the record of an account, or the CLOSE record with a slot left for it. -/
structure SlotInHand (s : State) : Prop where
  path  : s.store.path = .statement
  slot  : s.engine.writing ≠ none ∨ (closingBank s).stmtAppend < 32768

/-- A slot in hand, as the model's check. -/
theorem SlotInHand.programs {s : State} (h : SlotInHand s) :
    ¬ (s.engine.writing.isNone && decide (32768 ≤ (closingBank s).stmtAppend)) = true := by
  rw [Bool.and_eq_true, Option.isNone_iff_eq_none, decide_eq_true_eq]
  rintro ⟨hw, hj⟩
  exact h.slot.elim (fun h => h hw) (fun h => absurd h (Nat.not_lt.mpr hj))

section
variable {p : Programmed} {s : State} (h : SlotInHand s)
include h

/-- A slot that reads back commits. -/
theorem statementProgrammed_commits (hr : HeadAgrees p s) : statementProgrammed p s = nextItem
    (statementCommit (closingBank s).stmtAppend (slotCommitted p s)) := by
  unfold statementProgrammed
  rw [if_neg (not_not.mpr h.path)]
  dsimp only
  rw [if_neg h.programs]
  simp only [programBank_eq, setBank_setBank, bank_setBank]
  rw [slotCommitted, bankCounted_eq]
  exact if_pos hr

variable (hr : ¬ HeadAgrees p s)
include hr

/-- A slot that does not read back is voided. -/
theorem statementProgrammed_voids : statementProgrammed p s
    = (let t := setBank s s.engine.bank (headVoided p s)
      let j := (closingBank s).stmtAppend
      if committed (bank t s.engine.bank) j then storeFault .voidFailed (some (s.engine.bank, j)) t
      else if (countMismatch s.engine.bank j t).store.fault then countMismatch s.engine.bank j t
      else if (abandon (p.voids.drop 1) (countMismatch s.engine.bank j t)).store.fault then
        abandon (p.voids.drop 1) (countMismatch s.engine.bank j t)
      else nextItem (abandon (p.voids.drop 1) (countMismatch s.engine.bank j t))) := by
  unfold statementProgrammed
  rw [if_neg (not_not.mpr h.path)]
  dsimp only
  rw [if_neg h.programs]
  dsimp only [voidSlot]
  simp only [programBank_eq, setBank_setBank, bank_setBank]
  exact if_neg hr

/-- A void that still reads as committed faults the store. -/
theorem statementProgrammed_voidFails (hv : slotState (headVoided p s) (closingBank s).stmtAppend = 0x0F) : statementProgrammed p s
    = storeFault .voidFailed (some (s.engine.bank, (closingBank s).stmtAppend)) (setBank s s.engine.bank (headVoided p s)) := by
  rw [statementProgrammed_voids h hr]
  exact if_pos (by rw [bank_setBank, committed_iff]; exact hv)

variable (hv : slotState (headVoided p s) (closingBank s).stmtAppend ≠ 0x0F)
include hv

/-- The fourth mismatch in a row faults the store. -/
theorem statementProgrammed_fourth (hm : 3 ≤ s.store.mismatches) : statementProgrammed p s
    = storeFault .mismatch (some (s.engine.bank, (closingBank s).stmtAppend)) (slotRefused p s) := by
  rw [statementProgrammed_voids h hr]
  dsimp only
  rw [if_neg (by rw [bank_setBank, committed_iff]; exact hv), countMismatch_faults (by simpa using hm), if_pos (storeFault_fault ..),
    setBank_store_mismatches, slotRefused, bankCounted_eq]

/-- A mismatch before it may abandon the account in hand; the next slot follows. -/
theorem statementProgrammed_again (hm : s.store.mismatches < 3) (hf : s.store.fault = false)
    (ha : (abandon (p.voids.drop 1) (slotRefused p s)).store.fault = false) :
    statementProgrammed p s = nextItem (abandon (p.voids.drop 1) (slotRefused p s)) := by
  have hcount : countMismatch s.engine.bank (closingBank s).stmtAppend (setBank s s.engine.bank (headVoided p s))
      = slotRefused p s := by
    rw [countMismatch_counts (by simpa using hm), setBank_store_mismatches, slotRefused, bankCounted_eq]
  rw [statementProgrammed_voids h hr]
  dsimp only
  rw [if_neg (by rw [bank_setBank, committed_iff]; exact hv), hcount,
    if_neg (Bool.eq_false_iff.mp ((slotRefused_keeps p s).1.trans hf)), if_neg (Bool.eq_false_iff.mp ha)]

end

/-! ## The account in hand abandoned (R174) -/

/-- With no account in hand none is abandoned. -/
theorem abandon_none {s : State} (h : s.engine.writing = none) (vs : List Byte) : abandon vs s = s := by
  unfold abandon
  rw [h]

/-- With slots enough left for its records and four the account goes on. -/
theorem abandon_room {s : State} {w : Writing} (h : s.engine.writing = some w) (hl : w.todo.length + 4 ≤ regionLeft s)
    (vs : List Byte) : abandon vs s = s := by
  unfold abandon
  rw [h]
  exact if_neg (Nat.not_lt.mpr hl)

/-- With fewer its committed records are voided, and it and every later account are omitted. -/
theorem abandon_short {s : State} {w : Writing} (h : s.engine.writing = some w) (hl : regionLeft s < w.todo.length + 4)
    (vs : List Byte) : abandon vs s = voidSlots s.engine.bank w.slots vs { s with
      engine.writing := none, engine.omitted := s.engine.omitted + (accountsLeft s).length, engine.truncated := true } := by
  unfold abandon
  rw [h]
  exact if_pos hl

/-! ## What a commit makes of the account in hand (R174, R175) -/

section
variable {s : State}

/-- The record in hand is the account's next. -/
theorem statementHead_writing {w : Writing} {body : List Byte} {ts : List (List Byte)} (h : s.engine.writing = some w)
    (ht : w.todo = body :: ts) : statementHead s = body := by
  unfold statementHead
  rw [h]
  dsimp only
  rw [ht]
  rfl

/-- With no account in hand it is the CLOSE record. -/
theorem statementHead_close (h : s.engine.writing = none) : statementHead s = closeRecord (closingBank s) s.engine := by
  unfold statementHead
  rw [h]

/-- The account goes on to its next record. -/
theorem statementCommit_next {w : Writing} {body t : List Byte} {ts : List (List Byte)} (h : s.engine.writing = some w)
    (ht : w.todo = body :: t :: ts) (slot : Nat) : statementCommit slot s
      = { s with engine.writing := some { w with todo := t :: ts, slots := w.slots ++ [slot] } } := by
  unfold statementCommit
  rw [h]
  dsimp only
  rw [ht]

/-- The account is complete, and adds to the counts and the control total. -/
theorem statementCommit_last {w : Writing} {body : List Byte} (h : s.engine.writing = some w) (ht : w.todo = [body]) (slot : Nat) :
    statementCommit slot s = { s with
      engine.writing := none
      engine.resume := w.account + 1
      engine.statements := s.engine.statements + 1
      engine.lines := s.engine.lines + w.lines
      engine.control := s.engine.control + w.grand } := by
  unfold statementCommit
  rw [h]
  dsimp only
  rw [ht]

/-- Behind the CLOSE record CLOSED joins the queue. -/
theorem statementCommit_close (h : s.engine.writing = none) (slot : Nat) : statementCommit slot s
    = joinItem (.header s.engine.bank .closed) { s with engine.closeDone := true } := by
  unfold statementCommit
  rw [h]

end

/-! ## The records of the region in their bytes (12.5) -/

/-- A record of the statement region whose fields leave n bytes erased. -/
theorem stmtBody_eq {fields : List Byte} {n : Nat} (h : fields.length + n = 30) (kind : Nat) :
    stmtBody kind fields = u8 kind ++ fields ++ List.replicate n 0xFF := by
  have hn : 31 - (u8 kind ++ fields).length = n := by
    simp only [u8, List.length_append, be_length]
    omega
  unfold stmtBody
  dsimp only
  rw [hn]
  rfl

/-- Three flags as one byte, the first in the lowest bit. -/
theorem flagBits_three (x y z : Bool) :
    flagBits [x, y, z] = (if x = true then 1 else 0) + (if y = true then 2 else 0) + (if z = true then 4 else 0) := by
  cases x <;> cases y <;> cases z <;> rfl

/-- The bytes of a STATEMENT header. -/
theorem headerRecord_eq (b : Bank) (v : Statement) : headerRecord b v = [0x41] ++ u32 v.account ++ u16 (seqOf b) ++ be 3 v.active
    ++ be 3 v.credited ++ be 3 v.service ++ u32 v.ppv ++ u32 v.refund ++ u32 v.grand ++ u8 v.lines.length
    ++ u8 ((if openMinuteOf b + 89280 < closeMinuteOf b then 1 else 0) + (if v.gap = true then 2 else 0)
      + (if hdr b 18 ≠ 0xFF then 4 else 0)) ++ [0xFF] := by
  unfold headerRecord
  rw [stmtBody_eq (n := 1) (by simp only [u8, u16, u32, List.length_append, be_length]), flagBits_three, pastLimit,
    overflowSet, if_congr (hdrSet_iff b 18) rfl rfl,
    if_congr (decide_eq_true_iff (p := openMinuteOf b + periodLimit < closeMinuteOf b)) rfl rfl]
  simp only [List.append_assoc]
  rfl

/-- The bytes of a TIER_LINE record. -/
theorem lineRecord_eq (account : Nat) (l : TierLine) : lineRecord account l = [0x42] ++ u32 account ++ u8 l.tier ++ u16 l.rate
    ++ be 3 l.active ++ be 3 l.credited ++ be 3 l.billable ++ be 3 l.charge ++ List.replicate 11 0xFF := by
  unfold lineRecord
  rw [stmtBody_eq (n := 11) (by simp only [u8, u16, u32, List.length_append, be_length])]
  simp only [List.append_assoc]
  rfl

/-- The bytes of the CLOSE record. -/
theorem closeRecord_eq (b : Bank) (g : Engine) : closeRecord b g = [0x43] ++ u16 (seqOf b) ++ u32 (openMinuteOf b)
    ++ u32 (closeMinuteOf b) ++ u32 (min (closeMinuteOf b) (openMinuteOf b + 89280)) ++ u16 g.statements ++ u16 g.lines
    ++ u16 g.omitted ++ be 6 g.control
    ++ u8 ((if g.truncated = true then 1 else 0) + (if hdr b 18 ≠ 0xFF then 2 else 0)
      + (if openMinuteOf b + 89280 < closeMinuteOf b ∨ hdr b 17 ≠ 0xFF then 4 else 0)) ++ List.replicate 3 0xFF := by
  have hpast : (pastLimit b || overdueSet b) = true ↔ openMinuteOf b + 89280 < closeMinuteOf b ∨ hdr b 17 ≠ 0xFF := by
    rw [Bool.or_eq_true, overdueSet, hdrSet_iff]
    exact or_congr_left decide_eq_true_iff
  unfold closeRecord
  rw [stmtBody_eq (n := 3) (by simp only [u8, u16, u32, List.length_append, be_length]), flagBits_three,
    overflowSet, if_congr (hdrSet_iff b 18) rfl rfl, if_congr hpast rfl rfl]
  simp only [List.append_assoc]
  rfl

/-! ## The slots of a close (O59) -/

/-- The statement engine is writing the statements of a close, with nothing else to do on the path. -/
structure Computing (s : State) : Prop where
  waiting  : s.link.waiting = []
  op       : s.link.op ≠ .starting
  path     : s.store.path = .statement
  queue    : s.store.queue = []
  noFault  : s.store.fault = false
  state    : s.engine.state = .computing
  closing  : s.engine.closeDone = false

/-- The end of a statement slot's programming, in the event that reports it. -/
theorem exec_statementProgrammed {p : Programmed} {s t : State} (h : statementProgrammed p s = t) (hw : t.link.waiting = []) :
    exec (.statementRecordProgrammed p) s = .next (kick t) := by
  subst h
  exact congrArg Host.Outcome.next (finish_of_none hw)

section
variable {p : Programmed} {s : State} (hs : Computing s)
include hs

/-- The slot of an account in hand. -/
theorem Computing.slot {w : Writing} (h : s.engine.writing = some w) : SlotInHand s := ⟨hs.path, .inl (by rw [h]; exact nofun)⟩

/-- The state with the slot committed is one in which the engine goes on. -/
theorem Computing.due {t : State} (hq : t.store.queue = s.store.queue) (he : t.engine.state = s.engine.state)
    (hc : t.engine.closeDone = s.engine.closeDone) : StatementDue t :=
  ⟨hq.trans hs.queue, he.trans hs.state, hc.trans hs.closing⟩

/-- The record of an account commits, with another behind it. -/
theorem statementProgrammed_next {w : Writing} {body t : List Byte} {ts : List (List Byte)} (h : s.engine.writing = some w)
    (ht : w.todo = body :: t :: ts) (hr : HeadAgrees p s) : statementProgrammed p s = { slotCommitted p s with
      engine.writing := some { w with todo := t :: ts, slots := w.slots ++ [(closingBank s).stmtAppend] } } := by
  obtain ⟨hf, hq, hp⟩ := slotCommitted_keeps p s
  rw [statementProgrammed_commits (hs.slot h) hr, statementCommit_next (s := slotCommitted p s) h ht]
  exact nextItem_slot (hf.trans hs.noFault) (hs.due hq rfl rfl) hs.op (hp.trans hs.path) (.inl nofun)

/-- The last record of an account commits: the account is complete, and the next is taken up. -/
theorem statementProgrammed_last {w : Writing} {body : List Byte} (h : s.engine.writing = some w) (ht : w.todo = [body])
    (hr : HeadAgrees p s) : statementProgrammed p s = { takeAccount { slotCommitted p s with
      engine.writing := none
      engine.resume := w.account + 1
      engine.statements := s.engine.statements + 1
      engine.lines := s.engine.lines + w.lines
      engine.control := s.engine.control + w.grand
      store.path := .idle } with store.path := .statement } := by
  obtain ⟨hf, hq, -⟩ := slotCommitted_keeps p s
  rw [statementProgrammed_commits (hs.slot h) hr, statementCommit_last (s := slotCommitted p s) h ht]
  exact nextItem_statement (hf.trans hs.noFault) (hs.due hq rfl rfl) hs.op

/-- The CLOSE record commits: CLOSED joins the queue. -/
theorem statementProgrammed_close (h : s.engine.writing = none) (hj : (closingBank s).stmtAppend < 32768) (hr : HeadAgrees p s) :
    statementProgrammed p s = { slotCommitted p s with
      engine.closeDone := true, store.queue := [.header s.engine.bank .closed], store.path := .append } := by
  obtain ⟨hf, hq, -⟩ := slotCommitted_keeps p s
  rw [statementProgrammed_commits ⟨hs.path, .inr hj⟩ hr, statementCommit_close (s := slotCommitted p s) h]
  exact nextItem_joinItem (hf.trans hs.noFault) (hq.trans hs.queue)

/-- With no slot left for the CLOSE record nothing is programmed (log 76). -/
theorem statementProgrammed_full (h : s.engine.writing = none) (hj : 32768 ≤ (closingBank s).stmtAppend) : statementProgrammed p s
    = { s with engine.closeDone := true, store.queue := [.header s.engine.bank .closed], store.path := .append } := by
  unfold statementProgrammed
  rw [if_neg (not_not.mpr hs.path)]
  dsimp only
  rw [if_pos (by rw [h]; exact decide_eq_true hj), statementCommit_close h]
  exact nextItem_joinItem hs.noFault hs.queue

variable (hr : ¬ HeadAgrees p s) (hv : slotState (headVoided p s) (closingBank s).stmtAppend ≠ 0x0F) (hm : s.store.mismatches < 3)
include hr hv hm

/-- The CLOSE record is written again. -/
theorem statementProgrammed_closeAgain (h : s.engine.writing = none) (hj : (closingBank s).stmtAppend < 32768) :
    statementProgrammed p s = { takeAccount { slotRefused p s with store.path := .idle } with store.path := .statement } := by
  obtain ⟨hf, hq, -⟩ := slotRefused_keeps p s
  have habandon := abandon_none (s := slotRefused p s) h (p.voids.drop 1)
  rw [statementProgrammed_again ⟨hs.path, .inr hj⟩ hr hv hm hs.noFault (by rw [habandon, hf, hs.noFault]), habandon]
  exact nextItem_statement (hf.trans hs.noFault) (hs.due hq rfl rfl) hs.op

/-- The record of an account is written again. -/
theorem statementProgrammed_rewrites {w : Writing} (h : s.engine.writing = some w)
    (hroom : w.todo.length + 4 ≤ 32768 - ((closingBank s).stmtAppend + 1)) : statementProgrammed p s = slotRefused p s := by
  obtain ⟨hf, hq, hp⟩ := slotRefused_keeps p s
  have habandon := abandon_room (s := slotRefused p s) h (by rw [regionLeft_slotRefused]; exact hroom) (p.voids.drop 1)
  rw [statementProgrammed_again (hs.slot h) hr hv hm hs.noFault (by rw [habandon, hf, hs.noFault]), habandon]
  exact nextItem_slot (hf.trans hs.noFault) (hs.due hq rfl rfl) hs.op (hp.trans hs.path)
    (.inl (by exact h ▸ nofun))

/-- The closing bank with the slot in hand and the committed slots of the account in hand voided. -/
def accountVoided (p : Programmed) (w : Writing) (s : State) : Bank :=
  { headVoided p s with cells := slotsVoided w.slots (p.voids.drop 1) (headVoided p s).cells }

/-- The account is abandoned where its unwritten records and four find no room, its committed records voided. -/
theorem statementProgrammed_abandons {w : Writing} (h : s.engine.writing = some w)
    (hroom : 32768 - ((closingBank s).stmtAppend + 1) < w.todo.length + 4)
    (hvoids : ∀ v ∈ p.voids.drop 1, v &&& 0x0F ≠ 0x0F) : statementProgrammed p s
      = { bankCounted s s.engine.bank (accountVoided p w s) (s.store.mismatches + 1) with
          engine.writing := none
          engine.omitted := s.engine.omitted + (accountsLeft (slotRefused p s)).length
          engine.truncated := true } := by
  obtain ⟨hf, hq, hp⟩ := slotRefused_keeps p s
  have habandon : abandon (p.voids.drop 1) (slotRefused p s)
      = { bankCounted s s.engine.bank (accountVoided p w s) (s.store.mismatches + 1) with
          engine.writing := none
          engine.omitted := s.engine.omitted + (accountsLeft (slotRefused p s)).length
          engine.truncated := true } := by
    rw [abandon_short (s := slotRefused p s) h (by rw [regionLeft_slotRefused]; exact hroom),
      voidSlots_eq _ _ _ _ (by exact hf.trans hs.noFault) hvoids]
    exact (setBank_bankCounted ..).trans (by rw [accountVoided, ← slotRefused_bank p s]; rfl)
  obtain ⟨hf, hq, hp⟩ := bankCounted_keeps s s.engine.bank (accountVoided p w s) (s.store.mismatches + 1)
  rw [statementProgrammed_again (hs.slot h) hr hv hm hs.noFault (by rw [habandon]; exact hf.trans hs.noFault), habandon]
  exact nextItem_slot (hf.trans hs.noFault) (hs.due hq rfl rfl) hs.op (hp.trans hs.path) (.inr (.inl rfl))

end

/-- Settles O59: the end of a statement slot's programming by its read-back and by the account in hand, the accounts taken up or
omitted, and the records in their bytes. -/
theorem statementSlotsCommit : Obligations.StatementSlotsCommit := by
  refine ⟨fun p s hw hop hp hq hf he hc => ?_, fun s => ?_, fun b v account l g => ?_⟩
  · have hs : Computing s := ⟨hw, hop, hp, hq, hf, he, hc⟩
    intro k b j wrote base
    have hwrote {body : List Byte} (h : statementHead s = body) : headWrote p s = wrote body := by
      subst h
      rfl
    have hbase {body : List Byte} (h : statementHead s = body) : slotCommitted p s = base body := by
      rw [slotCommitted, hwrote h]
      exact bankCounted_eq ..
    have agrees {body : List Byte} (h : statementHead s = body) (hr : slotBytes (wrote body) j = body ++ [0x0F]) :
        HeadAgrees p s := by
      unfold HeadAgrees
      rw [hwrote h, h]
      exact hr
    have refuses {body : List Byte} (h : statementHead s = body) (hr : slotBytes (wrote body) j ≠ body ++ [0x0F]) :
        ¬ HeadAgrees p s := by
      unfold HeadAgrees
      rw [hwrote h, h]
      exact hr
    have hvoided {body : List Byte} (h : statementHead s = body) : headVoided p s
        = { wrote body with cells := cellsAnd (wrote body).cells (32 * j + 31) [p.voids.head?.getD 0] } := by
      rw [headVoided, hwrote h]
      rfl
    have hrefused {body : List Byte} (h : statementHead s = body) : slotRefused p s = { setBank s k
        { wrote body with cells := cellsAnd (wrote body).cells (32 * j + 31) [p.voids.head?.getD 0] } with
        store.mismatches := s.store.mismatches + 1 } := by
      rw [slotRefused, hvoided h]
      exact bankCounted_eq ..
    have hbase_link (body : List Byte) : (base body).link.waiting = [] := (congrArg Link.waiting (setBank_link ..)).trans hw
    refine ⟨fun w body t ts h ht hr => ?_, fun w body h ht hr => ?_, fun h hj => ?_,
      fun h hj => exec_statementProgrammed (statementProgrammed_full hs h hj) hw, fun hslot hn hi => ?_,
      fun w body ts h ht hr => ⟨?_, fun w body ts h ht hr => ?_⟩⟩
    · have hhead := statementHead_writing h ht
      refine exec_statementProgrammed ((statementProgrammed_next hs h ht (agrees hhead hr)).trans ?_) (hbase_link body)
      rw [hbase hhead]
    · have hhead := statementHead_writing h ht
      refine exec_statementProgrammed ((statementProgrammed_last hs h ht (agrees hhead hr)).trans ?_)
        ((congrArg Link.waiting (takeAccount_link _)).trans (hbase_link body))
      rw [hbase hhead]
    · intro body voided
      have hhead : statementHead s = body := statementHead_close h
      refine ⟨fun hr => ?_, fun hr hv hm => ?_⟩
      · refine exec_statementProgrammed ((statementProgrammed_close hs h hj (agrees hhead hr)).trans ?_) (hbase_link body)
        rw [hbase hhead]
      · have hv' : slotState (headVoided p s) j ≠ 0x0F := by rw [hvoided hhead]; exact hv
        refine exec_statementProgrammed ((statementProgrammed_closeAgain hs (refuses hhead hr) hv' hm h hj).trans ?_)
          ((congrArg Link.waiting (takeAccount_link _)).trans ((congrArg Link.waiting (setBank_link ..)).trans hw))
        rw [hrefused hhead]
    · intro body voided faulted hr
      have hdue : SlotInHand s := ⟨hp, hslot⟩
      have hhead : headVoided p s = voided := hvoided rfl
      have faults {cause : FaultCause} {t u : State} (h : statementProgrammed p s = storeFault cause (some (k, j)) t)
          (hlink : t.link = s.link) (hcraft : t.craft = s.craft) (hengine : t.engine = s.engine)
          (hu : slotFaulted cause k j t = u) : exec (.statementRecordProgrammed p) s = .next (kick u) := by
        subst hu
        refine congrArg Host.Outcome.next ((congrArg finish h).trans (finish_storeFault ?_ ?_ ?_ (.inr ?_) ..))
        · rw [hlink, hw]
        · rw [hlink, hn]
        · rw [hcraft, hi]
        · rw [hengine, he]
      refine ⟨fun hv => ?_, fun hv hm => ?_⟩
      · refine faults (statementProgrammed_voidFails hdue (refuses rfl hr) (by rw [hhead]; exact hv)) (setBank_link ..)
          (setBank_craft ..) (setBank_engine ..) ?_
        rw [hhead, ← bankCounted_same]
        exact slotFaulted_counted hq ..
      · refine faults (statementProgrammed_fourth hdue (refuses rfl hr) (by rw [hhead]; exact hv) hm) rfl rfl rfl ?_
        rw [slotRefused, hhead]
        exact slotFaulted_counted hq ..
    · intro voided hv hm hroom
      have hhead := statementHead_writing h ht
      have hv' : slotState (headVoided p s) j ≠ 0x0F := by rw [hvoided hhead]; exact hv
      refine exec_statementProgrammed ((statementProgrammed_rewrites hs (refuses hhead hr) hv' hm h ?_).trans (hrefused hhead))
        ((congrArg Link.waiting (setBank_link ..)).trans hw)
      rw [ht]
      exact hroom
    · intro voided marks cleared hv hm hroom hvoids
      have hhead := statementHead_writing h ht
      have hv' : slotState (headVoided p s) j ≠ 0x0F := by rw [hvoided hhead]; exact hv
      refine exec_statementProgrammed ((statementProgrammed_abandons hs (refuses hhead hr) hv' hm h ?_ hvoids).trans ?_)
        ((congrArg Link.waiting (setBank_link ..)).trans hw)
      · rw [ht]
        exact hroom
      · have hcleared : accountVoided p w s = { voided with cells := cleared } := by
          rw [accountVoided, hvoided hhead]
          exact congrArg (fun m => { voided with cells := m }) (slotsVoided_eq marks w.slots 0 voided.cells)
        rw [hrefused hhead, bankCounted_eq, hcleared]
        rfl
  · intro left b
    refine ⟨takeAccount_rests, fun a as hw ht hl => ?_, statementHead_close⟩
    intro v
    have h := takeAccount_next hw ht hl
    exact ⟨fun hlt => h.trans (if_pos hlt), fun hle => h.trans (if_neg (Nat.not_lt.mpr hle))⟩
  · exact ⟨headerRecord_eq b v, lineRecord_eq account l, closeRecord_eq b g⟩

end Sys2Proof.Safety
end

