-- ==== Proofs/HeaderFields.lean ====
section
/-! PROOFS. How header fields commit and move their bank, and a close through its rolls to COMPUTING (R145 to R149, R159, R160, R164
to R169, R174, R175; O57). -/

namespace Sys2Proof.Safety

open Sys2Proof.Machine

/-! ## The next item, or the next statement slot (R151) -/

/-- What the path takes up behind an item: the head of the queue, or the next statement slot, or nothing. -/
def itemNext (s : State) : State :=
  if s.store.queue = [] ∧ s.engine.state = .computing ∧ s.engine.closeDone = false then
    { takeAccount (pathNext s) with store.path := .statement }
  else pathNext s

/-- Outside STARTING the path goes on so, where the head of the queue finds a slot. -/
theorem nextItem_eq {s : State} (hf : s.store.fault = false) (h : HeadFits s) (hop : s.link.op ≠ .starting) :
    nextItem s = itemNext s := by
  unfold itemNext
  split
  · next hd =>
    rw [nextItem_statement hf hd hop, pathNext, if_pos hd.1]
  · next hd => exact nextItem_rests hf h (.inl hd)

/-- The next item or statement slot leaves the link. -/
theorem itemNext_link (s : State) : (itemNext s).link = s.link := by
  unfold itemNext
  split
  · exact takeAccount_link (pathNext s)
  · rfl

/-- With something queued, or no close COMPUTING, it is no statement slot. -/
theorem itemNext_rests {s : State} (h : s.store.queue ≠ [] ∨ s.engine.state ≠ .computing) : itemNext s = pathNext s :=
  if_neg fun hd => h.elim (fun h => h hd.1) (fun h => h hd.2.1)

/-- The path that an event leaves, from what it leaves of the queue and the engine. -/
theorem itemNext_of {s t : State} {q : List StoreItem} {g : Engine} (ht : pathNext s = t) (hq : s.store.queue = q)
    (he : s.engine.state = g.state) (hc : s.engine.closeDone = g.closeDone) : itemNext s
      = if q = [] ∧ g.state = .computing ∧ g.closeDone = false then { takeAccount t with store.path := .statement } else t := by
  unfold itemNext
  rw [ht, hq, he, hc]

/-! ## A bank written by a commit -/

/-- The state with a bank written, an item taken from the queue and the mismatch count returned to 0: a change of the store alone. -/
def bankCommitted (s : State) (k : BankId) (v : Bank) (q : List StoreItem) : State :=
  { s with store := { (setBank s k v).store with queue := q, mismatches := 0 } }

section
variable (s : State) (k : BankId) (u v : Bank) (q : List StoreItem)

/-- The path behind it, in terms of the bank written. -/
theorem pathNext_bankCommitted : pathNext (bankCommitted s k v q) = { setBank s k v with
    store.queue := q, store.mismatches := 0, store.path := if q = [] then .idle else .append } := by
  cases k <;> rfl

/-- It is the bank written, the queue and the count. -/
theorem bankCommitted_eq : bankCommitted s k v q = { setBank s k v with store.queue := q, store.mismatches := 0 } := by
  cases k <;> rfl

/-- The bank written is the bank read. -/
theorem bank_bankCommitted : bank (bankCommitted s k v q) k = v := by cases k <;> rfl

/-- A bank written again. -/
theorem setBank_bankCommitted : setBank (bankCommitted s k u q) k v = bankCommitted s k v q := by cases k <;> rfl

/-- The fault flag and the path stand. -/
theorem bankCommitted_keeps :
    (bankCommitted s k v q).store.fault = s.store.fault ∧ (bankCommitted s k v q).store.path = s.store.path := by
  cases k <;> exact ⟨rfl, rfl⟩

variable {s k v}

/-- The OPEN bank, where the bank written keeps its state. -/
theorem bankCommitted_open (hv : v.state = (bank s k).state) : openBank (bankCommitted s k v q) = openBank s :=
  openBank_setBank hv

/-- A bank made OPEN is the OPEN bank, where the other is not. -/
theorem bankCommitted_opened (hv : v.state = .open_) (ho : (bank s (otherBank k)).state ≠ .open_) :
    openBank (bankCommitted s k v q) = some k := by
  refine bankIn_some ?_ ?_
  · rw [bank_bankCommitted, hv]
  · have hother : bank (bankCommitted s k v q) (otherBank k) = bank s (otherBank k) := by cases k <;> rfl
    rw [hother]
    exact ho

end

/-! ## The end of a field's programming (R145) -/

/-- A bank with a header field programmed, as far as the array took it. -/
def fieldWrote (p : Programmed) (f : HeaderField) (b : Bank) : Bank :=
  { b with cells := cellsAnd b.cells (fieldAt f) (took p (fieldBytes f)) }

/-- Outside STARTING no scan goes on. -/
theorem scanAdvance_outside {s : State} (h : s.link.op ≠ .starting) : scanAdvance s = s := by
  unfold scanAdvance
  exact if_pos (by simp [h])

/-- The end of a header field's programming, by its read-back. -/
theorem headerProgrammed_of {s : State} {k : BankId} {f : HeaderField} {q : List StoreItem} (hp : s.store.path = .append)
    (hq : s.store.queue = .header k f :: q) (p : Programmed) : headerProgrammed p s = if fieldAgrees (fieldWrote p f (bank s k)) f then
      scanAdvance (nextItem (headerCommit k f (bankCommitted s k (fieldWrote p f (bank s k)) q)))
    else scanAdvance (countMismatch k 0 (setBank s k (fieldWrote p f (bank s k)))) := by
  unfold headerProgrammed
  rw [hp, hq]
  dsimp only
  simp only [programBank_eq, bank_setBank, bankCommitted_eq]
  rfl

/-- A header field is being programmed outside STARTING, in a store without a fault. -/
structure FieldInHand (k : BankId) (f : HeaderField) (q : List StoreItem) (s : State) : Prop where
  waiting : s.link.waiting = []
  op      : s.link.op ≠ .starting
  noFault : s.store.fault = false
  path    : s.store.path = .append
  queue   : s.store.queue = .header k f :: q

section
variable {p : Programmed} {k : BankId} {f : HeaderField} {q : List StoreItem} {s : State} (h : FieldInHand k f q s)
include h

/-- A field that reads back commits, and the path goes on. -/
theorem exec_headerCommits (hr : fieldAgrees (fieldWrote p f (bank s k)) f = true) {t : State}
    (ht : headerCommit k f (bankCommitted s k (fieldWrote p f (bank s k)) q) = t) (hl : t.link.waiting = s.link.waiting)
    (hop : t.link.op = s.link.op) (hf : t.store.fault = s.store.fault) (hfits : HeadFits t) :
    exec (.headerFieldProgrammed p) s = .next (kick (itemNext t)) := by
  have hend : headerProgrammed p s = itemNext t := by
    rw [headerProgrammed_of h.path h.queue, if_pos hr, ht, nextItem_eq (hf.trans h.noFault) hfits (hop ▸ h.op)]
    exact scanAdvance_outside (by rw [itemNext_link, hop]; exact h.op)
  show Host.Outcome.next (finish (headerProgrammed p s)) = _
  rw [hend, finish_of_none (by rw [itemNext_link, hl, h.waiting])]

/-- A field that does not read back is counted. -/
theorem exec_headerRefused (hr : fieldAgrees (fieldWrote p f (bank s k)) f = false) {t : State}
    (ht : countMismatch k 0 (setBank s k (fieldWrote p f (bank s k))) = t) (hl : t.link.waiting = s.link.waiting)
    (hop : t.link.op = s.link.op) : exec (.headerFieldProgrammed p) s = .next (kick t) := by
  have hend : headerProgrammed p s = t := by
    rw [headerProgrammed_of h.path h.queue, if_neg (by rw [hr]; decide), ht]
    exact scanAdvance_outside (hop ▸ h.op)
  show Host.Outcome.next (finish (headerProgrammed p s)) = _
  rw [hend, finish_of_none (hl.trans h.waiting)]

end

/-! ## The TARIFF records of an opening (R164) -/

/-- The TARIFF records of the staged rates, at the minute that stands. -/
def rateItems (s : State) : List StoreItem :=
  s.engine.tariff.zipIdx.map (fun x => .record (u8 7 ++ u32 (minuteOf s) ++ u8 x.2 ++ u16 x.1 ++ absent 23) .other)

/-- A TARIFF record in its bytes (12.5). -/
theorem rateRecord_eq (minute tier rate : Nat) : recordBody rkTariff minute (u8 tier ++ u16 rate)
    = u8 7 ++ u32 minute ++ u8 tier ++ u16 rate ++ absent 23 := by
  rw [recordBody_eq (n := 23) (by simp only [u8, u16, List.length_append, be_length]), ← List.append_assoc]

/-- TARIFF records join a journal with room for them. -/
theorem rates_join : ∀ (l : List (Nat × Nat)) (x : Nat × Nat) (s : State), s.store.fault = false →
    l.length + 257 < freeSlots s →
    (x :: l).foldl (fun s x => (appendAuto rkTariff (u8 x.2 ++ u16 x.1) .other s).1) s
      = itemsJoined ((x :: l).map (fun x => .record (u8 7 ++ u32 (minuteOf s) ++ u8 x.2 ++ u16 x.1 ++ absent 23) .other)) s
  | l, x, s, hf, h => by
    have hone : (appendAuto rkTariff (u8 x.2 ++ u16 x.1) .other s).1
        = itemsJoined [.record (u8 7 ++ u32 (minuteOf s) ++ u8 x.2 ++ u16 x.1 ++ absent 23) .other] s := by
      rw [appendAuto_room hf (by omega), rateRecord_eq]
      rfl
    rw [List.foldl_cons, hone]
    match l, h with
    | [], _ => rfl
    | y :: l, h =>
      have hfree : freeSlots (itemsJoined [.record (u8 7 ++ u32 (minuteOf s) ++ u8 x.2 ++ u16 x.1 ++ absent 23) .other] s)
          = freeSlots s - 1 := freeSlots_record rfl rfl rfl
      rw [List.length_cons] at h
      rw [rates_join l y (itemsJoined [.record (u8 7 ++ u32 (minuteOf s) ++ u8 x.2 ++ u16 x.1 ++ absent 23) .other] s) (by exact hf)
        (by omega), itemsJoined_itemsJoined]
      rfl

/-- The sixteen TARIFF records join a journal with room for them. -/
theorem joinTariff_room {s : State} (hl : s.engine.tariff.length = 16) (hf : s.store.fault = false) (h : 272 < freeSlots s) :
    joinTariff s = itemsJoined (rateItems s) s := by
  unfold joinTariff rateItems
  obtain ⟨x, l, hx⟩ := List.exists_cons_of_ne_nil (l := s.engine.tariff.zipIdx) (by
    intro hnil
    have := congrArg List.length hnil
    rw [List.length_zipIdx, hl] at this
    cases this)
  have hlen : l.length = 15 := by
    have := congrArg List.length hx
    rw [List.length_zipIdx, hl, List.length_cons] at this
    omega
  rw [hx]
  exact rates_join l x s hf (by omega)

/-- Sixteen records join the queue, and no OPENED programming. -/
theorem rateItems_records {s : State} (hl : s.engine.tariff.length = 16) :
    ((rateItems s).filter isRecord).length = 16 ∧ (rateItems s).any isOpened = false ∧ rateItems s ≠ [] := by
  have hlen : (rateItems s).length = 16 := by
    unfold rateItems
    rw [List.length_map, List.length_zipIdx, hl]
  refine ⟨?_, ?_, fun h => by rw [h] at hlen; cases hlen⟩
  · rw [List.filter_eq_self.mpr fun i hi => ?_, hlen]
    obtain ⟨x, -, rfl⟩ := List.mem_map.mp hi
    rfl
  · rw [List.any_eq_false]
    intro i hi
    obtain ⟨x, -, rfl⟩ := List.mem_map.mp hi
    exact Bool.false_ne_true

/-- No opening waits in the queue. -/
theorem behindOpened_none_iff (q : List StoreItem) : behindOpened q = none ↔ q.any isOpened = false := by
  unfold behindOpened
  cases q.any isOpened <;> simp

/-! ## The ROLL records of a close (R168) -/

/-- The ROLL record of a subscriber, at the minute that stands (12.5). -/
def rollItem (s : State) (r : RollEntry) : StoreItem :=
  .record (u8 8 ++ u32 (minuteOf s) ++ u32 r.account ++ u16 r.slot ++ u8 (subStateNum r.state) ++ u16 r.tiers.toNat
    ++ u8 r.segment ++ absent 16) .roll

/-- A ROLL record in its bytes. -/
theorem rollRecord_eq (minute : Nat) (r : RollEntry) : recordBody rkRoll minute (rollFields r)
    = u8 8 ++ u32 minute ++ u32 r.account ++ u16 r.slot ++ u8 (subStateNum r.state) ++ u16 r.tiers.toNat ++ u8 r.segment
      ++ absent 16 := by
  rw [recordBody_eq (n := 16) (by simp only [rollFields, serviceFields, u8, u16, u32, List.length_append, be_length])]
  simp only [rollFields, serviceFields, Option.elim_some, List.append_assoc]

/-- The next ROLL joins a journal with room for it. -/
theorem rollNext_room {s : State} (hf : s.store.fault = false) (h : 257 < freeSlots s) (r : RollEntry) (rs : List RollEntry) :
    rollNext (r :: rs) s = itemsJoined [rollItem s r] { s with engine.rolls := rs } := by
  rw [rollNext, appendAuto_room (s := { s with engine.rolls := rs }) hf h, if_pos rfl, rollRecord_eq]
  rfl

/-! ## What each field's commit does (R145, R147, R159, R166, R169, R175) -/

section
variable {p : Programmed} {k : BankId} {f : HeaderField} {q : List StoreItem} {s : State} (h : FieldInHand k f q s)
include h

/-- A field that reads back commits, and the path goes on to what is queued or to the next statement slot. -/
theorem exec_headerEnds (hr : fieldAgrees (fieldWrote p f (bank s k)) f = true) {t u : State}
    (ht : headerCommit k f (bankCommitted s k (fieldWrote p f (bank s k)) q) = t) (hu : pathNext t = u) (hq : t.store.queue = q)
    (hl : t.link.waiting = s.link.waiting) (hop : t.link.op = s.link.op) (hf : t.store.fault = s.store.fault) (hfits : HeadFits t)
    (he : t.engine.state = s.engine.state) (hc : t.engine.closeDone = s.engine.closeDone) : exec (.headerFieldProgrammed p) s
      = .next (kick (if q = [] ∧ s.engine.state = .computing ∧ s.engine.closeDone = false then
          { takeAccount u with store.path := .statement } else u)) := by
  rw [exec_headerCommits h hr ht hl hop hf hfits, itemNext_of hu hq he hc]

/-- A field that reads back commits, and the path goes on to what is queued. -/
theorem exec_headerQueues (hr : fieldAgrees (fieldWrote p f (bank s k)) f = true) {t u : State}
    (ht : headerCommit k f (bankCommitted s k (fieldWrote p f (bank s k)) q) = t) (hu : pathNext t = u)
    (hq : t.store.queue ≠ [] ∨ t.engine.state ≠ .computing) (hl : t.link.waiting = s.link.waiting) (hop : t.link.op = s.link.op)
    (hf : t.store.fault = s.store.fault) (hfits : HeadFits t) :
    exec (.headerFieldProgrammed p) s = .next (kick u) := by
  rw [exec_headerCommits h hr ht hl hop hf hfits, itemNext_rests hq, hu]

end

/-- The commit of the open minute makes the limit PENDING, and the TARIFF records join where their bank is OPEN. -/
theorem headerCommit_openMinute (s : State) (k : BankId) (v : Bank) (q : List StoreItem) (m : Nat) :
    headerCommit k (.openMinute m) (bankCommitted s k v q) = if hdrSet v 13 then
        joinTariff { bankCommitted s k v q with engine.limitTaken := false }
      else { bankCommitted s k v q with engine.limitTaken := false } := by
  rw [← bank_bankCommitted s k v q]
  exact if_congr (by rw [bank_bankCommitted]) rfl rfl

/-- The commit of CLOSING outside STARTING. -/
theorem headerCommit_closing {s : State} (h : s.link.op ≠ .starting) (k : BankId) (v : Bank) (q : List StoreItem) :
    headerCommit k .closing (bankCommitted s k v q)
      = bankCommitted s k { v with state := .closing, stmtAppend := 16384 } q := by
  have hset : setBank (bankCommitted s k v q) k { bank (bankCommitted s k v q) k with state := .closing, stmtAppend := 16384 }
      = bankCommitted s k { v with state := .closing, stmtAppend := 16384 } q := by
    rw [bank_bankCommitted, setBank_bankCommitted]
  unfold headerCommit
  dsimp only
  rw [hset]
  exact if_neg h

/-- The commit of CLOSED tells STATEMENTS_READY and ends the close. -/
theorem headerCommit_closed (s : State) (k : BankId) (v : Bank) (q : List StoreItem) :
    headerCommit k .closed (bankCommitted s k v q) = statementsReady k
      { bankCommitted s k { v with state := .closed } q with engine.state := .idle } := by
  unfold headerCommit
  dsimp only
  rw [bank_bankCommitted, setBank_bankCommitted]

/-- The CLOSE record of a bank, or what it would have held. -/
def closeBody (b : Bank) (g : Engine) : List Byte :=
  match closeSlot b with | some j => slotBytes b j | none => closeRecord b g

/-- It does not look at the states of the bank and of the close. -/
theorem closeBody_closed (b : Bank) (g : Engine) :
    (match closeSlot { b with state := .closed } with
      | none => closeRecord { b with state := .closed } { g with state := .idle }
      | some j => slotBytes { b with state := .closed } j) = closeBody b g := by
  unfold closeBody
  rw [show closeSlot { b with state := .closed } = closeSlot b from rfl]
  cases closeSlot b <;> rfl

/-- The commit of CLOSED tells STATEMENTS_READY, with what the CLOSE record holds. -/
theorem headerCommit_closed_ready (s : State) (k : BankId) (v : Bank) (q : List StoreItem) :
    headerCommit k .closed (bankCommitted s k v q)
      = notice nkStatementsReady false (((closeBody v s.engine).drop 1).take 2 ++ ((closeBody v s.engine).drop 7).take 21)
        { bankCommitted s k { v with state := .closed } q with engine.state := .idle } := by
  have hbank : bank { bankCommitted s k { v with state := .closed } q with engine.state := .idle } k = { v with state := .closed } :=
    bank_bankCommitted ..
  rw [headerCommit_closed]
  unfold statementsReady
  dsimp only
  rw [hbank]
  exact congrArg (fun r : List Byte => notice nkStatementsReady false ((r.drop 1).take 2 ++ (r.drop 7).take 21) _)
    (closeBody_closed v s.engine)

/-- The commit of RELEASED begins the erase of the bank. -/
theorem headerCommit_released (s : State) (k : BankId) (v : Bank) (q : List StoreItem) :
    headerCommit k .released (bankCommitted s k v q)
      = releaseReply k (bankCommitted s k { v with state := .erasing, page := some 255 } q) := by
  unfold headerCommit
  dsimp only
  rw [bank_bankCommitted, setBank_bankCommitted]

/-- The commit of OPENED empties the spend list and the low mark. -/
theorem headerCommit_opened (s : State) (k : BankId) (v : Bank) (q : List StoreItem) :
    headerCommit k .opened (bankCommitted s k v q) = closeOpened (if openWritten v then
        joinTariff { bankCommitted s k { v with state := .open_, append := 1 } q with
          store.spend := [], store.lowMark := false }
      else { bankCommitted s k { v with state := .open_, append := 1 } q with store.spend := [], store.lowMark := false }) := by
  unfold headerCommit openedCommit
  dsimp only
  rw [bank_bankCommitted, setBank_bankCommitted]

/-! ## The TARIFF records join an OPEN bank (R164) -/

/-- Items joined leave the banks, and with a bank OPEN and a slot free every head fits. -/
theorem itemsJoined_fits {s : State} {k : BankId} (ho : openBank s = some k) (ha : (bank s k).append ≤ 16383) (l : List StoreItem) :
    HeadFits (itemsJoined l s) :=
  headFits_of_open (k := k) ho ((congrArg Bank.append (bank_congr rfl rfl k)).trans_le ha)

section
variable {s : State} {k : BankId} (hl : s.engine.tariff.length = 16) (ho : openBank s = some k)
  (hb : behindOpened s.store.queue = none) (h : (bank s k).append + (s.store.queue.filter isRecord).length < 16100)
include hl ho hb h

/-- The TARIFF records join. -/
theorem joinTariff_open (hf : s.store.fault = false) : joinTariff s = itemsJoined (rateItems s) s :=
  joinTariff_room hl hf (by rw [freeSlots_open ho hb]; omega)

/-- They leave more than 257 slots free. -/
theorem ratesJoined_free : 257 < freeSlots (itemsJoined (rateItems s) s) := by
  obtain ⟨hlen, hany, -⟩ := rateItems_records hl
  have hbehind : behindOpened (itemsJoined (rateItems s) s).store.queue = none := by
    rw [behindOpened_none_iff] at hb ⊢
    show (s.store.queue ++ rateItems s).any isOpened = false
    rw [List.any_append, hb, hany]
    rfl
  rw [freeSlots_open (s := itemsJoined (rateItems s) s) (k := k) (by exact ho) hbehind,
    bank_congr (t := itemsJoined (rateItems s) s) (s := s) rfl rfl k,
    show (itemsJoined (rateItems s) s).store.queue = s.store.queue ++ rateItems s from rfl, List.filter_append, List.length_append,
    hlen]
  omega

end

/-! ## The commit of OPENED in a close (R166, R168) -/

/-- Outside SEQUENCE the commit of OPENED ends no close. -/
theorem closeOpened_other {s : State} (h : s.engine.state ≠ .sequence) : closeOpened s = s := if_neg h

/-- ROLLING begun: the first ROLL joins, or the close is COMPUTING. -/
def rollsBegun : List RollEntry → State → State
  | [], s => { s with engine.rolls := [], engine.state := .computing }
  | r :: rs, s => itemsJoined [rollItem s r] { s with engine.rolls := rs, engine.state := .rolling }

/-- ROLLING begins in a journal with room for a ROLL. -/
theorem rollNext_begins {s : State} (hf : s.store.fault = false) (h : 257 < freeSlots s) (rs : List RollEntry) :
    rollNext rs { s with engine.state := .rolling } = rollsBegun rs s := by
  cases rs with
  | nil => rfl
  | cons r rs => exact rollNext_room (s := { s with engine.state := .rolling }) hf h r rs

/-- ROLLING begun leaves the link, the fault flag and the banks. -/
theorem rollsBegun_keeps (rs : List RollEntry) (s : State) : (rollsBegun rs s).link = s.link
    ∧ (rollsBegun rs s).store.fault = s.store.fault ∧ (rollsBegun rs s).store.a = s.store.a
    ∧ (rollsBegun rs s).store.b = s.store.b := by
  cases rs <;> exact ⟨rfl, rfl, rfl, rfl⟩

/-- What was queued stays queued. -/
theorem rollsBegun_queue {s : State} (h : s.store.queue ≠ []) (rs : List RollEntry) : (rollsBegun rs s).store.queue ≠ [] := by
  cases rs with
  | nil => exact h
  | cons r rs => exact List.append_ne_nil_of_left_ne_nil h _

/-- With a bank OPEN and a slot free every head fits. -/
theorem rollsBegun_fits {s : State} {k : BankId} (ho : openBank s = some k) (ha : (bank s k).append ≤ 16383)
    (rs : List RollEntry) : HeadFits (rollsBegun rs s) := by
  cases rs with
  | nil => exact headFits_of_open (k := k) ho ha
  | cons r rs => exact itemsJoined_fits (k := k) ho ha _

/-- CLOSE-PERIOD in flight is answered by the commit of OPENED. -/
theorem closeOpened_answers {s u : State} (hs : s.engine.state = .sequence)
    (hroll : rollNext s.engine.rolls { s with engine.state := .rolling } = u) {tag : Byte}
    (hn : u.link.inFlight = some (tagged tag .closePeriod)) : closeOpened s
      = joinReply (tagged tag .closePeriod) .ok (u16 (seqOf (bank s s.engine.bank)) ++ u32 s.engine.minute)
        { u with link.inFlight := none } := by
  subst hroll
  rw [← answer_inFlight hn]
  unfold closeOpened
  rw [if_pos hs]
  dsimp only
  rw [hn]
  rfl

/-- With no CLOSE-PERIOD in flight nothing is answered. -/
theorem closeOpened_begins {s u : State} (hs : s.engine.state = .sequence)
    (hroll : rollNext s.engine.rolls { s with engine.state := .rolling } = u)
    (hn : ∀ tag, u.link.inFlight ≠ some (tagged tag .closePeriod)) : closeOpened s = u := by
  subst hroll
  unfold closeOpened
  rw [if_pos hs]
  dsimp only
  split
  · next tag hflight => exact absurd hflight (hn tag)
  · rfl

/-! ## The commit of RELEASED (R159, R160) -/

/-- RELEASE-BANK in flight is answered. -/
theorem releaseReply_bank {s : State} {tag : Byte} {n : Nat} (hn : s.link.inFlight = some (tagged tag (.releaseBank n)))
    (k : BankId) : releaseReply k s
      = joinReply (tagged tag (.releaseBank n)) .ok (u16 (seqOf (bank s k))) { s with link.inFlight := none } := by
  rw [← answer_inFlight hn]
  unfold releaseReply
  rw [hn]
  rfl

/-- STORE-CLEAR in flight is answered behind its last marker. -/
theorem releaseReply_clear {s : State} {tag : Byte} (hn : s.link.inFlight = some (tagged tag .storeClear)) (k : BankId) :
    ((∃ i, .header i .released ∈ s.store.queue) → releaseReply k s = s)
    ∧ ((∀ i, .header i .released ∉ s.store.queue) → releaseReply k s
      = joinReply (tagged tag .storeClear) .ok [] { s with link.inFlight := none }) := by
  have hreply : releaseReply k s
      = if s.store.queue.any (fun x => match x with | .header _ .released => true | _ => false) then s else answer .ok [] s := by
    unfold releaseReply
    rw [hn]
    rfl
  rw [hreply, ← answer_inFlight hn]
  refine ⟨fun ⟨i, hi⟩ => if_pos (List.any_eq_true.mpr ⟨_, hi, rfl⟩), fun hnone => if_neg fun hany => ?_⟩
  obtain ⟨x, hx, hm⟩ := List.any_eq_true.mp hany
  split at hm
  · next i => exact hnone i hx
  · cases hm

/-- Any other order in flight is left. -/
theorem releaseReply_other {s : State} (hb : ∀ tag n, s.link.inFlight ≠ some (tagged tag (.releaseBank n)))
    (hc : ∀ tag, s.link.inFlight ≠ some (tagged tag .storeClear)) (k : BankId) : releaseReply k s = s := by
  unfold releaseReply
  split
  · next tag n hn => exact absurd hn (hb tag n)
  · next tag hn => exact absurd hn (hc tag)
  · rfl

/-! ## The ends of a header field's programming -/

/-- Items joined to a path that goes on. -/
theorem pathNext_itemsJoined {l : List StoreItem} (hl : l ≠ []) (s : State) : pathNext (itemsJoined l s)
    = { s with store.minute := minuteOf s, store.queue := s.store.queue ++ l, store.path := .append } := by
  unfold pathNext
  rw [if_neg (show (itemsJoined l s).store.queue ≠ [] from List.append_ne_nil_of_right_ne_nil _ hl)]
  rfl

/-- ROLLING begun on a path that goes on, behind items joined. -/
def rollsJoined (q l : List StoreItem) (s : State) : List RollEntry → State
  | [] => { s with
    store.minute := minuteOf s, store.queue := q ++ l, store.path := .append, engine.state := .computing }
  | r :: rs => { s with
    store.minute := minuteOf s, store.queue := q ++ l ++ [rollItem s r], store.path := .append
    engine.state := .rolling, engine.rolls := rs }

/-- ROLLING begins behind the items joined. -/
theorem pathNext_rollsBegun {s : State} {q l : List StoreItem} (hq : s.store.queue = q) (hl : l ≠ []) {rolls : List RollEntry}
    (hr : s.engine.rolls = rolls) : pathNext (rollsBegun rolls (itemsJoined l s)) = rollsJoined q l s rolls := by
  subst hq
  cases rolls with
  | nil =>
    refine (pathNext_itemsJoined hl { s with engine.rolls := [], engine.state := .computing }).trans ?_
    show _ = { s with
      store.minute := minuteOf s, store.queue := s.store.queue ++ l, store.path := .append, engine.state := .computing }
    rw [← hr]
    rfl
  | cons r rs =>
    refine (congrArg pathNext (itemsJoined_itemsJoined l [rollItem s r]
      { s with engine.rolls := rs, engine.state := .rolling })).trans ?_
    refine (pathNext_itemsJoined (List.append_ne_nil_of_left_ne_nil hl _) _).trans ?_
    rw [rollsJoined, List.append_assoc s.store.queue l]
    rfl

section
variable {p : Programmed} {k : BankId} {f : HeaderField} {q : List StoreItem} {s : State} (h : FieldInHand k f q s)
include h

/-- A field whose commit is its bank's new state. -/
theorem exec_headerPlain (hr : fieldAgrees (fieldWrote p f (bank s k)) f = true) {x : Bank}
    (ht : headerCommit k f (bankCommitted s k (fieldWrote p f (bank s k)) q) = bankCommitted s k x q)
    (hfits : HeadFits (bankCommitted s k x q)) {u : State} (hu : pathNext (bankCommitted s k x q) = u) :
    exec (.headerFieldProgrammed p) s
      = .next (kick (if q = [] ∧ s.engine.state = .computing ∧ s.engine.closeDone = false then
          { takeAccount u with store.path := .statement } else u)) :=
  exec_headerEnds h hr ht hu rfl rfl rfl (bankCommitted_keeps ..).1 hfits rfl rfl

/-- A field whose commit answers the order in flight. -/
theorem exec_headerAnswers (hr : fieldAgrees (fieldWrote p f (bank s k)) f = true) {t : TaggedOrder} {body : List Byte} {x : Bank}
    (ht : headerCommit k f (bankCommitted s k (fieldWrote p f (bank s k)) q)
      = joinReply t .ok body { bankCommitted s k x q with link.inFlight := none })
    (hfits : HeadFits (bankCommitted s k x q)) {u : State} (hu : pathNext (bankCommitted s k x q) = u) :
    exec (.headerFieldProgrammed p) s
      = .next (kick (if q = [] ∧ s.engine.state = .computing ∧ s.engine.closeDone = false then
          { takeAccount (joinReply t .ok body { u with link.inFlight := none }) with store.path := .statement }
        else joinReply t .ok body { u with link.inFlight := none })) := by
  subst hu
  obtain ⟨hst, hen⟩ := joinReply_store t .ok body { bankCommitted s k x q with link.inFlight := none }
  obtain ⟨hwaiting, -, -, hop⟩ := joinReply_queue t .ok body { bankCommitted s k x q with link.inFlight := none }
  exact exec_headerEnds h hr ht (pathNext_joinReply ..) (congrArg Store.queue hst) hwaiting hop
    ((congrArg Store.fault hst).trans (bankCommitted_keeps ..).1) (headFits_congr hst hfits) (congrArg Engine.state hen)
    (congrArg Engine.closeDone hen)

end

section
variable {p : Programmed} {k : BankId} {f : HeaderField} {q : List StoreItem} {s : State} (h : FieldInHand k f q s)
include h

/-- A field refused for the fourth time in a row faults the store. -/
theorem exec_headerFaults (hr : fieldAgrees (fieldWrote p f (bank s k)) f = false) (hm : 3 ≤ s.store.mismatches) {u : State}
    (hu : storeFault .mismatch (some (k, 0)) (bankCounted s k (fieldWrote p f (bank s k)) (s.store.mismatches + 1)) = u)
    (hl : u.link.waiting = s.link.waiting) (hop : u.link.op = s.link.op) : exec (.headerFieldProgrammed p) s = .next (kick u) := by
  refine exec_headerRefused h hr ?_ hl hop
  rw [countMismatch_faults (by simpa using hm), setBank_store_mismatches, ← hu, bankCounted_eq]

/-- The TARIFF records join behind a field's commit. -/
theorem exec_headerRates (hr : fieldAgrees (fieldWrote p f (bank s k)) f = true) {t : State}
    (ht : headerCommit k f (bankCommitted s k (fieldWrote p f (bank s k)) q) = itemsJoined (rateItems t) t)
    (hl : t.engine.tariff.length = 16) (ho : openBank t = some k) (ha : (bank t k).append ≤ 16383) (hlink : t.link = s.link)
    (hf : t.store.fault = s.store.fault) : exec (.headerFieldProgrammed p) s = .next (kick { t with
      store.minute := minuteOf t, store.queue := t.store.queue ++ rateItems t, store.path := .append }) :=
  exec_headerQueues h hr ht (pathNext_itemsJoined (rateItems_records hl).2.2 t)
    (.inl (List.append_ne_nil_of_right_ne_nil _ (rateItems_records hl).2.2)) (congrArg Link.waiting hlink) (congrArg Link.op hlink) hf
    (itemsJoined_fits ho ha _)

/-- The commit of the open minute with its bank OPEN. -/
theorem exec_openMinuteRates {m : Nat} (hfield : f = .openMinute m) (hr : fieldAgrees (fieldWrote p f (bank s k)) f = true)
    (h13 : hdrSet (fieldWrote p f (bank s k)) 13 = true) (ho : openBank s = some k) (hl : s.engine.tariff.length = 16)
    (hb : behindOpened q = none) (hlen : (bank s k).append + (q.filter isRecord).length < 16000) {t : State}
    (ht : { bankCommitted s k (fieldWrote p f (bank s k)) q with engine.limitTaken := false } = t) :
    exec (.headerFieldProgrammed p) s = .next (kick { t with
      store.minute := minuteOf t, store.queue := t.store.queue ++ rateItems t, store.path := .append }) := by
  subst ht hfield
  have hopen : openBank { bankCommitted s k (fieldWrote p (.openMinute m) (bank s k)) q with engine.limitTaken := false } = some k :=
    (bankCommitted_open (v := fieldWrote p (.openMinute m) (bank s k)) q rfl).trans ho
  have happ : (bank { bankCommitted s k (fieldWrote p (.openMinute m) (bank s k)) q with engine.limitTaken := false } k).append
      = (bank s k).append :=
    (congrArg Bank.append (bank_bankCommitted s k (fieldWrote p (.openMinute m) (bank s k)) q)).trans rfl
  refine exec_headerRates h hr ?_ hl hopen (by omega) rfl (bankCommitted_keeps s k _ q).1
  rw [headerCommit_openMinute, if_pos h13]
  exact joinTariff_open hl hopen hb (by rw [happ]; exact Nat.lt_trans hlen (by decide))
    ((bankCommitted_keeps s k _ q).1.trans h.noFault)

end

section
variable {p : Programmed} {k : BankId} {q : List StoreItem} {s t : State} (h : FieldInHand k .opened q s)
  (hr : fieldAgrees (fieldWrote p .opened (bank s k)) .opened = true) (hs : s.engine.state = .sequence)
  (hcommit : headerCommit k .opened (bankCommitted s k (fieldWrote p .opened (bank s k)) q) = closeOpened t)
  (hlink : t.link = s.link) (hengine : t.engine = s.engine) (hf : t.store.fault = s.store.fault) (hfree : 257 < freeSlots t)
  (ho : openBank t = some k) (ha : (bank t k).append ≤ 16383) (hq : t.store.queue ≠ [])
include h hr hs hcommit hlink hengine hf hfree ho ha hq

/-- The end of a close's opening, the TARIFF records joined: ROLLING begins, and CLOSE-PERIOD in flight is answered. -/
theorem exec_closeOpened :
    (∀ tag, s.link.inFlight = some (tagged tag .closePeriod) → exec (.headerFieldProgrammed p) s
      = .next (kick (joinReply (tagged tag .closePeriod) .ok (u16 (seqOf (bank t s.engine.bank)) ++ u32 s.engine.minute)
        { pathNext (rollsBegun s.engine.rolls t) with link.inFlight := none })))
    ∧ ((∀ tag, s.link.inFlight ≠ some (tagged tag .closePeriod)) → exec (.headerFieldProgrammed p) s
      = .next (kick (pathNext (rollsBegun s.engine.rolls t)))) := by
  rw [← hengine] at hs ⊢
  obtain ⟨hrlink, hrf, -, -⟩ := rollsBegun_keeps t.engine.rolls t
  have hroll := rollNext_begins (hf.trans h.noFault) hfree t.engine.rolls
  have hqueue := rollsBegun_queue hq t.engine.rolls
  have hfits := rollsBegun_fits ho ha t.engine.rolls
  have hlinked : (rollsBegun t.engine.rolls t).link = s.link := hrlink.trans hlink
  have hflight := congrArg Link.inFlight hlinked
  have hwaiting := congrArg Link.waiting hlinked
  have hop := congrArg Link.op hlinked
  refine ⟨fun tag hn => ?_, fun hn => ?_⟩
  · have hanswer := hcommit.trans (closeOpened_answers hs hroll (hflight.trans hn))
    generalize hbody : u16 (seqOf (bank t t.engine.bank)) ++ u32 t.engine.minute = body at hanswer ⊢
    obtain ⟨hst, -⟩ := joinReply_store (tagged tag .closePeriod) .ok body
      { rollsBegun t.engine.rolls t with link.inFlight := none }
    obtain ⟨hrwaiting, -, -, hrop⟩ := joinReply_queue (tagged tag .closePeriod) .ok body
      { rollsBegun t.engine.rolls t with link.inFlight := none }
    exact exec_headerQueues h hr hanswer (pathNext_joinReply ..) (.inl (by rw [hst]; exact hqueue))
      (hrwaiting.trans hwaiting) (hrop.trans hop) ((congrArg Store.fault hst).trans (hrf.trans hf)) (headFits_congr hst hfits)
  · exact exec_headerQueues h hr (hcommit.trans (closeOpened_begins hs hroll fun tag => hflight ▸ hn tag)) rfl (.inl hqueue)
      hwaiting hop (hrf.trans hf) hfits

end

/-- A bank made OPEN at slot 1, the spend list and the low mark emptied. -/
def bankOpened (s : State) (k : BankId) (v : Bank) (q : List StoreItem) : State :=
  { bankCommitted s k { v with state := .open_, append := 1 } q with store.spend := [], store.lowMark := false }

section
variable {s : State} {k : BankId} (v : Bank) (q : List StoreItem)

/-- It is the OPEN bank, where the other is not. -/
theorem openBank_bankOpened (ho : (bank s (otherBank k)).state ≠ .open_) : openBank (bankOpened s k v q) = some k :=
  bankCommitted_opened (v := { v with state := .open_, append := 1 }) q rfl ho

/-- Its append point is slot 1. -/
theorem bankOpened_append : (bank (bankOpened s k v q) k).append = 1 :=
  congrArg Bank.append (bank_bankCommitted s k { v with state := .open_, append := 1 } q)

end

section
variable {p : Programmed} {k : BankId} {q : List StoreItem} {s : State} (h : FieldInHand k .opened q s)
  (hr : fieldAgrees (fieldWrote p .opened (bank s k)) .opened = true) (ho : (bank s (otherBank k)).state ≠ .open_)
include h hr ho

/-- The commit of OPENED outside a close, the open minute deferred. -/
theorem exec_openedBare (hs : s.engine.state ≠ .sequence) (h7 : hdrSet (fieldWrote p .opened (bank s k)) 7 = false) {u : State}
    (hu : pathNext (bankOpened s k (fieldWrote p .opened (bank s k)) q) = u) : exec (.headerFieldProgrammed p) s
      = .next (kick (if q = [] ∧ s.engine.state = .computing ∧ s.engine.closeDone = false then
          { takeAccount u with store.path := .statement } else u)) := by
  refine exec_headerEnds h hr (t := bankOpened s k (fieldWrote p .opened (bank s k)) q) ?_ hu rfl rfl rfl
    (bankCommitted_keeps s k _ q).1
    (headFits_of_open (openBank_bankOpened _ q ho) ((bankOpened_append _ q).trans_le (by decide))) rfl rfl
  rw [headerCommit_opened, openWritten, h7, if_neg Bool.false_ne_true]
  exact closeOpened_other hs

variable (h7 : hdrSet (fieldWrote p .opened (bank s k)) 7 = true) (hl : s.engine.tariff.length = 16)
  (hb : behindOpened q = none) (hlen : (q.filter isRecord).length < 16000)
include h7 hl hb hlen

omit hr in
/-- The commit of OPENED with the open minute written joins the TARIFF records. -/
theorem headerCommit_openedRates {t : State} (ht : bankOpened s k (fieldWrote p .opened (bank s k)) q = t) :
    headerCommit k .opened (bankCommitted s k (fieldWrote p .opened (bank s k)) q) = closeOpened (itemsJoined (rateItems t) t)
      ∧ 257 < freeSlots (itemsJoined (rateItems t) t) := by
  subst ht
  have hopen := openBank_bankOpened (fieldWrote p .opened (bank s k)) q ho
  have happ := bankOpened_append (s := s) (k := k) (fieldWrote p .opened (bank s k)) q
  have hroom : (bank (bankOpened s k (fieldWrote p .opened (bank s k)) q) k).append + (q.filter isRecord).length < 16100 := by omega
  refine ⟨?_, ratesJoined_free hl hopen hb hroom⟩
  rw [headerCommit_opened, openWritten, h7, if_pos rfl]
  exact congrArg closeOpened (joinTariff_open hl hopen hb hroom ((bankCommitted_keeps s k _ q).1.trans h.noFault))

/-- The commit of OPENED outside a close. -/
theorem exec_openedRates (hs : s.engine.state ≠ .sequence) {t : State}
    (ht : bankOpened s k (fieldWrote p .opened (bank s k)) q = t) : exec (.headerFieldProgrammed p) s = .next (kick { t with
      store.minute := minuteOf t, store.queue := t.store.queue ++ rateItems t, store.path := .append }) := by
  obtain ⟨hcommit, -⟩ := headerCommit_openedRates h ho h7 hl hb hlen ht
  subst ht
  exact exec_headerRates h hr (hcommit.trans (closeOpened_other (by exact hs))) hl (openBank_bankOpened _ q ho)
    ((bankOpened_append _ q).trans_le (by decide)) rfl (bankCommitted_keeps s k _ q).1

/-- The commit of OPENED in a close begins ROLLING and answers CLOSE-PERIOD. -/
theorem exec_openedClose (hs : s.engine.state = .sequence) {t u : State}
    (ht : bankOpened s k (fieldWrote p .opened (bank s k)) q = t)
    (hu : pathNext (rollsBegun s.engine.rolls (itemsJoined (rateItems t) t)) = u) :
    (∀ tag, s.link.inFlight = some (tagged tag .closePeriod) → exec (.headerFieldProgrammed p) s
      = .next (kick (joinReply (tagged tag .closePeriod) .ok (u16 (seqOf (bank t s.engine.bank)) ++ u32 s.engine.minute)
        { u with link.inFlight := none })))
    ∧ ((∀ tag, s.link.inFlight ≠ some (tagged tag .closePeriod)) → exec (.headerFieldProgrammed p) s = .next (kick u)) := by
  obtain ⟨hcommit, hfree⟩ := headerCommit_openedRates h ho h7 hl hb hlen ht
  subst ht hu
  have hne := (rateItems_records (s := bankOpened s k (fieldWrote p .opened (bank s k)) q) hl).2.2
  rw [← bank_congr (s := bankOpened s k (fieldWrote p .opened (bank s k)) q)
    (t := itemsJoined (rateItems (bankOpened s k (fieldWrote p .opened (bank s k)) q))
    (bankOpened s k (fieldWrote p .opened (bank s k)) q)) rfl rfl s.engine.bank]
  exact exec_closeOpened h hr hs hcommit rfl rfl (bankCommitted_keeps s k _ q).1 hfree (openBank_bankOpened _ q ho)
    ((congrArg Bank.append (bank_congr rfl rfl k)).trans_le
      ((bankOpened_append (fieldWrote p .opened (bank s k)) q).trans_le (by decide)))
    (List.append_ne_nil_of_right_ne_nil _ hne)

end

/-! ## A ROLL record's commit in ROLLING (R168, R174) -/

/-- A close in ROLLING has a ROLL record in hand, in a store without a fault and with slots free. -/
structure RollInHand (i : BankId) (body : List Byte) (q : List StoreItem) (s : State) : Prop where
  waiting : s.link.waiting = []
  op      : s.link.op ≠ .starting
  noFault : s.store.fault = false
  path    : s.store.path = .append
  queue   : s.store.queue = .record body .roll :: q
  opened  : openBank s = some i
  bare    : behindOpened q = none
  free    : 257 < freeSlots s
  rolling : s.engine.state = .rolling

section
variable {p : Programmed} {i : BankId} {body : List Byte} {q : List StoreItem} {s : State} (h : RollInHand i body q s)
include h

/-- Its bank stays OPEN, with as many slots free. -/
theorem rollWrote_open : openBank (bankCommitted s i (recordWrote p body (bank s i)) q) = some i
    ∧ freeSlots (bankCommitted s i (recordWrote p body (bank s i)) q) = freeSlots s
    ∧ (bank (bankCommitted s i (recordWrote p body (bank s i)) q) i).append ≤ 16383 := by
  have hopen : openBank (bankCommitted s i (recordWrote p body (bank s i)) q) = some i :=
    (bankCommitted_open (v := recordWrote p body (bank s i)) q rfl).trans h.opened
  have happ : (bank (bankCommitted s i (recordWrote p body (bank s i)) q) i).append = (bank s i).append + 1 :=
    (congrArg Bank.append (bank_bankCommitted s i (recordWrote p body (bank s i)) q)).trans rfl
  have hbare : behindOpened s.store.queue = none := by
    rw [h.queue, behindOpened_cons rfl, h.bare]
  have hfree := freeSlots_open h.opened hbare
  rw [h.queue, List.filter_cons_of_pos rfl, List.length_cons] at hfree
  have hleft := freeSlots_open hopen h.bare
  rw [happ] at hleft ⊢
  have hroom := h.free
  refine ⟨hopen, ?_, by omega⟩
  rw [hleft, hfree]
  show 16384 - ((bank s i).append + 1) - (q.filter isRecord).length = _
  omega

variable (hr : slotBytes (recordWrote p body (bank s i)) (bank s i).append = body ++ [0x0F])
include hr

/-- A ROLL that reads back is reported to the engine. -/
theorem rollProgrammed_commits : recordProgrammed p s
    = nextItem (rollNext s.engine.rolls (bankCommitted s i (recordWrote p body (bank s i)) q)) := by
  rw [recordProgrammed_commits h.path h.queue h.opened hr, ← bankCommitted_eq]
  rfl

/-- The next ROLL joins the journal. -/
theorem rollProgrammed_next {r : RollEntry} {rs : List RollEntry} (hrolls : s.engine.rolls = r :: rs) :
    recordProgrammed p s = pathNext (itemsJoined [rollItem s r]
      { bankCommitted s i (recordWrote p body (bank s i)) q with engine.rolls := rs }) := by
  obtain ⟨hopen, hfree, happ⟩ := rollWrote_open (p := p) h
  have hfault := (bankCommitted_keeps s i (recordWrote p body (bank s i)) q).1.trans h.noFault
  rw [rollProgrammed_commits h hr, hrolls, rollNext_room hfault (hfree ▸ h.free)]
  refine nextItem_rests (by exact hfault) (itemsJoined_fits (k := i) (by exact hopen) (by exact happ) _) (.inl fun hd => ?_)
  have hcomputing : s.engine.state = .computing := hd.2.1
  rw [h.rolling] at hcomputing
  cases hcomputing

/-- After the last ROLL the close is COMPUTING. -/
theorem rollProgrammed_last (hrolls : s.engine.rolls = []) : recordProgrammed p s
    = itemNext { bankCommitted s i (recordWrote p body (bank s i)) q with engine.rolls := [], engine.state := .computing } := by
  obtain ⟨hopen, -, happ⟩ := rollWrote_open (p := p) h
  have hfault := (bankCommitted_keeps s i (recordWrote p body (bank s i)) q).1.trans h.noFault
  rw [rollProgrammed_commits h hr, hrolls, rollNext]
  exact nextItem_eq (by exact hfault) (headFits_of_open (k := i) (by exact hopen) (by exact happ)) h.op

end

/-! ## The erase of a page (R159, R149) -/

/-- The cells of a byte written are those that stood and that byte. -/
theorem mem_cellPut {c : Host.Cell} {a : Nat} {x : Byte} : ∀ {m : List Host.Cell}, c ∈ cellPut m a x → c ∈ m ∨ c = (a, x)
  | [], h => by
    unfold cellPut at h
    split at h
    · cases h
    · exact .inr (List.mem_singleton.mp h)
  | (k, v) :: m, h => by
    unfold cellPut at h
    split at h
    · rcases List.mem_cons.mp h with rfl | h
      · exact .inl List.mem_cons_self
      · exact (mem_cellPut h).imp_left (List.mem_cons_of_mem _)
    · split at h
      · split at h
        · exact .inl (List.mem_cons_of_mem _ h)
        · exact (List.mem_cons.mp h).symm.imp_left (List.mem_cons_of_mem _)
      · split at h
        · exact .inl h
        · exact (List.mem_cons.mp h).symm

/-- A programmed byte written is among the cells. -/
theorem cellPut_mem {a : Nat} {x : Byte} (hx : x ≠ erasedByte) : ∀ m : List Host.Cell, (a, x) ∈ cellPut m a x
  | [] => by
    unfold cellPut
    rw [if_neg hx]
    exact List.mem_singleton_self _
  | (k, v) :: m => by
    unfold cellPut
    rw [if_neg hx, if_neg hx]
    split
    · exact List.mem_cons_of_mem _ (cellPut_mem hx m)
    · split
      · exact List.mem_cons_self
      · exact List.mem_cons_self

/-- The byte that a blank check finds in an erased page. -/
theorem find_cellPut {m : List Host.Cell} {n a : Nat} {x : Byte} (hx : x ≠ erasedByte) (ha : a < 4096) :
    (cellPut (cellsErase m n) (4096 * n + a) x).find? (fun c => c.1 / 4096 = n) = some (4096 * n + a, x) := by
  have hmem := cellPut_mem (a := 4096 * n + a) hx (cellsErase m n)
  have hpage : (4096 * n + a) / 4096 = n := by omega
  obtain ⟨c, hc⟩ := Option.isSome_iff_exists.mp
    (List.find?_isSome (p := fun c : Host.Cell => decide (c.1 / 4096 = n)) |>.mpr ⟨_, hmem, decide_eq_true hpage⟩)
  rw [hc]
  rcases mem_cellPut (List.mem_of_find?_eq_some hc) with hold | rfl
  · have hin := List.find?_some hc
    have hout := (List.mem_filter.mp hold).2
    simp_all
  · rfl

section
variable {k : BankId} {s : State} (hw : s.link.waiting = []) (hop : s.link.op ≠ .starting) (left : List Host.Cell) (torn : List Byte)

include hw in
/-- A bank with no page in hand is left alone. -/
theorem exec_erase_none (h : (bank s k).page = none) : exec (.erasePageDone k left torn) s = .next (kick s) := by
  have hend : erasePage k left torn s = s := by
    unfold erasePage
    dsimp only
    rw [h]
  show Host.Outcome.next (finish (erasePage k left torn s)) = _
  rw [hend, finish_of_none hw]

/-- A page that reads blank. -/
theorem erasePage_blank {n : Nat} (h : (bank s k).page = some n) : erasePage k [] torn s
    = if n = 0 then scanAdvance (notice nkBankFree false (u8 (bankNum k) ++ u16 (seqOf (bank s k)))
        (setBank s k { bank s k with cells := cellsErase (bank s k).cells n, state := .free, watermark := 0, page := none }))
      else setBank s k { bank s k with cells := cellsErase (bank s k).cells n, page := some (n - 1) } := by
  have hblank : (cellsErase (bank s k).cells n).find? (fun c => c.1 / 4096 = n) = none := by
    rw [List.find?_eq_none]
    intro c hc
    have hout := (List.mem_filter.mp hc).2
    simp_all
  unfold erasePage
  dsimp only
  rw [h]
  dsimp only [List.filter_nil, List.foldl_nil]
  rw [hblank, setBank_setBank, setBank_setBank]

include hw hop in
/-- The last page makes the bank FREE. -/
theorem exec_erase_last (h : (bank s k).page = some 0) : exec (.erasePageDone k [] torn) s
    = .next (kick (notice nkBankFree false (u8 (bankNum k) ++ u16 (seqOf (bank s k)))
      (setBank s k { bank s k with cells := cellsErase (bank s k).cells 0, state := .free, watermark := 0, page := none }))) := by
  have hend := (erasePage_blank torn h).trans (if_pos rfl)
  rw [scanAdvance_outside (by rw [notice_op, setBank_link]; exact hop)] at hend
  show Host.Outcome.next (finish (erasePage k [] torn s)) = _
  rw [hend, finish_of_none (by rw [notice_waiting, setBank_link]; exact hw)]

include hw in
/-- A page before it leads to the next. -/
theorem exec_erase_next {n : Nat} (h : (bank s k).page = some n) (hn : 0 < n) : exec (.erasePageDone k [] torn) s
    = .next (kick (setBank s k { bank s k with cells := cellsErase (bank s k).cells n, page := some (n - 1) })) := by
  have hend := (erasePage_blank torn h).trans (if_neg (by omega))
  show Host.Outcome.next (finish (erasePage k [] torn s)) = _
  rw [hend, finish_of_none (by rw [setBank_link]; exact hw)]

/-- With the path idle nothing is torn. -/
theorem tear_idle (h : s.store.path = .idle) : tearIdentity torn (tearSlot torn s) = s := by
  have hslot : tearSlot torn s = s := by
    unfold tearSlot inHand
    rw [h]
  rw [hslot]
  unfold tearIdentity
  rw [h]

include hw hop in
/-- A page with a byte left programmed faults the store. -/
theorem exec_erase_fault {n a : Nat} {v : Byte} (h : (bank s k).page = some n) (ha : a < 4096) (hv : v ≠ erasedByte)
    (hp : s.store.path = .idle) (hi : s.craft.ident = false) (hn : s.link.inFlight = none) :
    exec (.erasePageDone k [(a, v)] torn) s = .next (kick (faulted .erase (some (k, (4096 * n + a) / 32))
      (setBank s k { bank s k with cells := cellPut (cellsErase (bank s k).cells n) (4096 * n + a) v }))) := by
  have hend : erasePage k [(a, v)] torn s = faulted .erase (some (k, (4096 * n + a) / 32))
      (setBank s k { bank s k with cells := cellPut (cellsErase (bank s k).cells n) (4096 * n + a) v }) := by
    unfold erasePage
    dsimp only
    rw [h]
    dsimp only
    rw [List.filter_cons_of_pos (by simpa using ha), List.filter_nil, List.foldl_cons, List.foldl_nil, find_cellPut hv ha]
    dsimp only
    rw [tear_idle torn (by simpa using hp), storeFault_none (by simpa using hi) (by simpa using hn)]
    exact scanAdvance_outside (by rw [faulted, notice_op]; simpa using hop)
  show Host.Outcome.next (finish (erasePage k [(a, v)] torn s)) = _
  rw [hend, finish_of_none (by rw [faulted_waiting, setBank_link]; exact hw)]

end

/-- Settles O57: the bytes that a programming takes, a header field's end by its read-back and by the field, a ROLL's commit and a
page's erase. -/
theorem headersErasesAndRolls : Obligations.HeadersErasesAndRolls := by
  refine ⟨fun p given => ⟨took_length p given, fun hp => ?_, fun bs i hp hi => took_getElem? hp hi⟩, ?_, ?_, ?_⟩
  · unfold took
    rw [hp]
  · intro p k f q s hw hop hf hpath hq b wrote ends faulted' goesOn next commit answered rates withRates room released opened emptied
    have h : FieldInHand k f q s := ⟨hw, hop, hf, hpath, hq⟩
    refine ⟨fun hr hm => ?_, fun hr hm hi => ?_, fun hr => ?_⟩
    · refine exec_headerRefused h hr ((countMismatch_counts (by simpa using hm) k 0).trans ?_)
        (congrArg Link.waiting (setBank_link ..)) (congrArg Link.op (setBank_link ..))
      rw [setBank_store_mismatches]
      rfl
    · have hfault : faulted .mismatch (some (k, 0)) (bankCounted s k wrote (s.store.mismatches + 1)) = faulted' := by
        cases k <;> rfl
      have hwaiting : faulted'.link.waiting = s.link.waiting := hfault ▸ faulted_waiting ..
      have hstate : faulted'.link.op = s.link.op := hfault ▸ notice_op ..
      refine ⟨fun tag o hn => ?_, fun hn => exec_headerFaults h hr hm ((storeFault_none (by exact hi) (by exact hn) ..).trans hfault)
        hwaiting hstate⟩
      obtain ⟨hjw, -, -, hjo⟩ := joinReply_queue (tagged tag o) .storeFault [] { faulted' with link.inFlight := none }
      refine exec_headerFaults h hr hm ((storeFault_answers (by exact hi) (by exact hn) ..).trans ?_) (hjw.trans hwaiting)
        (hjo.trans hstate)
      exact congrArg (fun t : State => joinReply (tagged tag o) .storeFault [] { t with link.inFlight := none }) hfault
    · have plain {x : Bank} (ht : headerCommit k f (bankCommitted s k wrote q) = bankCommitted s k x q) (hg : goesOn x) :
          ends (next (commit x)) := exec_headerPlain h hr ht (by exact hg) (pathNext_bankCommitted ..)
      cases f with
      | sequence n => exact plain rfl
      | closeMinute m => exact plain rfl
      | overdue => exact plain rfl
      | overflow => exact plain rfl
      | openMinute m =>
        refine ⟨fun h13 hg => ?_, fun h13 ho ⟨hl, hb, _⟩ hlen => ?_⟩
        · refine exec_headerEnds h hr (t := { bankCommitted s k wrote q with engine.limitTaken := false }) ?_ ?_ rfl rfl rfl
            (bankCommitted_keeps s k _ q).1 (by exact hg) rfl rfl
          · rw [headerCommit_openMinute]
            exact if_neg (by rw [hdrSet_iff]; exact fun h => h h13)
          · cases k <;> rfl
        · refine (exec_openMinuteRates h rfl hr ((hdrSet_iff ..).mpr h13) ho hl hb hlen rfl).trans ?_
          cases k <;> rfl
      | closing => exact plain (headerCommit_closing hop ..)
      | closed =>
        intro hg r
        obtain ⟨hst, hen⟩ := notice_store nkStatementsReady false ((r.drop 1).take 2 ++ (r.drop 7).take 21)
          { bankCommitted s k { wrote with state := .closed } q with engine.state := .idle }
        refine exec_headerQueues h hr (headerCommit_closed_ready ..) ((pathNext_notice ..).trans ?_) (.inr ?_)
          (notice_waiting ..) (notice_op ..) ((congrArg Store.fault hst).trans (bankCommitted_keeps s k _ q).1) (headFits_congr hst (by exact hg))
        · cases k <;> rfl
        · exact fun hc => CloseState.noConfusion ((congrArg Engine.state hen).symm.trans hc)
      | released =>
        intro hg
        refine ⟨fun tag n hn => ?_, fun tag hn => ⟨fun hmore => ?_, fun hlast => ?_⟩, fun hnb hnc => ?_⟩
        · refine exec_headerAnswers h hr ((headerCommit_released ..).trans ?_) (by exact hg) (pathNext_bankCommitted ..)
          refine (releaseReply_bank (s := bankCommitted s k released q) hn k).trans ?_
          rw [bank_bankCommitted]
          rfl
        · exact plain ((headerCommit_released ..).trans ((releaseReply_clear (s := bankCommitted s k released q) hn k).1 hmore)) hg
        · exact exec_headerAnswers h hr
            ((headerCommit_released ..).trans ((releaseReply_clear (s := bankCommitted s k released q) hn k).2 hlast))
            (by exact hg) (pathNext_bankCommitted ..)
        · exact plain ((headerCommit_released ..).trans (releaseReply_other (s := bankCommitted s k released q) hnb hnc k)) hg
      | opened =>
        intro ho
        refine ⟨fun hs h7 hg => ?_, fun hs h7 ⟨hl, hb, hlen⟩ => ?_, fun hs h7 ⟨hl, hb, hlen⟩ => ?_⟩
        · refine exec_openedBare h hr ho hs ?_ ?_
          · exact (hdrSet_false_iff ..).mpr h7
          · cases k <;> rfl
        · refine (exec_openedRates h hr ho ((hdrSet_iff ..).mpr h7) hl hb hlen hs rfl).trans ?_
          cases k <;> rfl
        · intro reply t begun
          have hbegun : pathNext (rollsBegun s.engine.rolls
              (itemsJoined (rateItems (bankOpened s k wrote q)) (bankOpened s k wrote q))) = begun := by
            have hne := (rateItems_records (s := bankOpened s k wrote q) hl).2.2
            simp only [begun]
            cases hrolls : s.engine.rolls with
            | nil => exact (pathNext_rollsBegun (s := bankOpened s k wrote q) (q := q) rfl hne hrolls).trans (by cases k <;> rfl)
            | cons r rs =>
              exact (pathNext_rollsBegun (s := bankOpened s k wrote q) (q := q) rfl hne hrolls).trans (by cases k <;> rfl)
          refine (exec_openedClose h hr ho ((hdrSet_iff ..).mpr h7) hl hb hlen hs (t := bankOpened s k wrote q) rfl hbegun).imp
            (fun hin tag hn => (hin tag hn).trans ?_) id
          have hseq : bank (bankOpened s k wrote q) s.engine.bank = bank (commit opened) s.engine.bank := by
            cases k <;> exact bank_congr rfl rfl _
          rw [hseq]
  · intro p i body q s hw hop hf hpath hq ho hb hfree hroll j wrote base ends hr
    have h : RollInHand i body q s := ⟨hw, hop, hf, hpath, hq, ho, hb, hfree, hroll⟩
    have hend {t : State} (ht : recordProgrammed p s = t) (hl : t.link = s.link) : ends t :=
      exec_recordProgrammed ht ((congrArg Link.waiting hl).trans hw)
    refine ⟨fun r rs hrolls => hend ((rollProgrammed_next h hr hrolls).trans ?_) ?_,
      fun hrolls hne => hend ((rollProgrammed_last h hr hrolls).trans ?_) ?_,
      fun hrolls hnil hdone => hend ((rollProgrammed_last h hr hrolls).trans ?_) ?_⟩
    · refine (pathNext_itemsJoined (List.cons_ne_nil _ _) _).trans ?_
      rw [← hpath]
      cases i <;> rfl
    · cases i <;> rfl
    · refine (itemNext_rests (.inl hne)).trans ?_
      rw [← hrolls, pathNext, if_neg (by exact hne), ← hpath]
      cases i <;> rfl
    · cases i <;> rfl
    · have hpath' : pathNext { bankCommitted s i wrote q with engine.rolls := [], engine.state := .computing }
          = { base with store.queue := [], store.path := .idle, engine.state := .computing } := by
        rw [pathNext, if_pos (by exact hnil), hnil, ← hrolls]
        cases i <;> rfl
      exact (if_pos ⟨hnil, rfl, hdone⟩).trans
        (congrArg (fun t : State => { takeAccount t with store.path := .statement }) hpath')
    · exact (takeAccount_link _).trans (by cases i <;> rfl)
  · intro k torn s hw hop hf b blank ends
    refine ⟨fun n hn hpos => exec_erase_next hw torn hn hpos, fun hn => exec_erase_last hw hop torn hn,
      fun left hn => exec_erase_none hw left torn hn, fun n a v hn ha hv hp hi hflight => ?_⟩
    refine (exec_erase_fault hw hop torn hn ha hv hp hi hflight).trans ?_
    rw [faulted, ← hp]
    cases k <;> rfl

end Sys2Proof.Safety
end

