-- ==== Proofs/Resets.lean ====
section
/-! PROOFS. What a reset leaves of the store: a programming or an erase cut short (R145, R146, R148, R159, R161, R189; O15). -/

namespace Sys2Proof.Safety

open Sys2Proof.Machine

/-! ## A programming cut short (R148, R161) -/

/-- The bytes that the array has taken of a programming cut short, before its last byte is left short. -/
def tornWritten (given torn : List Byte) : List Byte := given.zipIdx.map (fun x => x.1 ||| (torn[x.2]?).getD 0xFF)

/-- As many bytes as were given. -/
theorem tornWritten_length (given torn : List Byte) : (tornWritten given torn).length = given.length := by
  unfold tornWritten
  rw [List.length_map, List.length_zipIdx]

/-- Each byte with the bits that were not yet cleared. -/
theorem tornWritten_getElem? {given : List Byte} {i : Nat} {b : Byte} (h : given[i]? = some b) (torn : List Byte) :
    (tornWritten given torn)[i]? = some (b ||| (torn[i]?).getD 0xFF) := by
  unfold tornWritten
  rw [List.getElem?_map, List.getElem?_zipIdx, h, Nat.zero_add]
  rfl

/-- What a programming cut short has programmed: its bytes as the array took them, or the last of them erased. -/
theorem tornBytes_cases (given torn : List Byte) :
    tornBytes given torn = (tornWritten given torn).dropLast ++ [0xFF]
    ∨ tornBytes given torn = tornWritten given torn
      ∧ ¬ (given.getLast? = some 0x0F ∧ (tornWritten given torn).getLast? = some 0x0F) := by
  have hdef : tornBytes given torn =
      if (tornWritten given torn).dropLast ≠ given.dropLast then (tornWritten given torn).dropLast ++ [0xFF]
      else if given.getLast? = some 0x0F && (tornWritten given torn).getLast? = some 0x0F then
        (tornWritten given torn).dropLast ++ [0xFF]
      else tornWritten given torn := rfl
  rw [hdef]
  split
  · exact .inl rfl
  · split
    · exact .inl rfl
    · next h =>
      rw [Bool.and_eq_true, decide_eq_true_eq, decide_eq_true_eq] at h
      exact .inr ⟨rfl, h⟩

section
variable {given : List Byte} (torn : List Byte)

/-- As many bytes as were given, where some were. -/
theorem tornBytes_length (h : given ≠ []) : (tornBytes given torn).length = given.length := by
  have hpos := List.length_pos_iff.mpr h
  have hlen := tornWritten_length given torn
  rcases tornBytes_cases given torn with he | ⟨he, -⟩
  · rw [he, List.length_append, List.length_dropLast, hlen, List.length_singleton]
    omega
  · rw [he, hlen]

/-- No bit is cleared that was not to be. -/
theorem tornBytes_getElem? {i : Nat} {b : Byte} (h : given[i]? = some b) : ∃ x, (tornBytes given torn)[i]? = some (b ||| x) := by
  have hw := tornWritten_getElem? h torn
  obtain ⟨hi, -⟩ := List.getElem?_eq_some_iff.mp h
  have hlen := tornWritten_length given torn
  rcases tornBytes_cases given torn with he | ⟨he, -⟩
  · rw [he]
    rcases Nat.lt_or_ge i (given.length - 1) with hlt | hge
    · rw [List.getElem?_append_left (by rw [List.length_dropLast, hlen]; exact hlt), List.getElem?_dropLast, hlen, if_pos hlt]
      exact ⟨_, hw⟩
    · refine ⟨0xFF, ?_⟩
      have hor : b ||| 0xFF = 0xFF := BitVec.or_allOnes
      rw [List.getElem?_append_right (by rw [List.length_dropLast, hlen]; exact hge), List.length_dropLast, hlen,
        show i - (given.length - 1) = 0 by omega, hor]
      rfl
  · rw [he]
    exact ⟨_, hw⟩

/-- A state byte to be 0x0F is left short of it. -/
theorem tornBytes_short (h : given.getLast? = some 0x0F) : (tornBytes given torn).getLast? ≠ some 0x0F := by
  rcases tornBytes_cases given torn with he | ⟨he, hne⟩
  · rw [he, List.getLast?_concat]
    decide
  · rw [he]
    exact fun hlast => hne ⟨h, hlast⟩

end

/-- A marker is left at any value. -/
theorem tornBytes_marker (x : Byte) : tornBytes [0] [x] = [x] := by
  unfold tornBytes
  simp

/-- A field is programmed in at least one byte. -/
theorem fieldBytes_ne_nil (f : HeaderField) : fieldBytes f ≠ [] := by
  cases f <;> simp [fieldBytes]

/-- The programming in hand is of at least one byte. -/
theorem inHand_given {s : State} {k : BankId} {a : Nat} {given : List Byte} (h : inHand s = some (k, a, given)) : given ≠ [] := by
  unfold inHand at h
  split at h
  · dsimp only at h
    split at h
    · cases h
      exact List.append_ne_nil_of_right_ne_nil _ (List.cons_ne_nil _ _)
    · cases h
  · obtain ⟨i, -, hi⟩ := Option.map_eq_some_iff.mp h
    cases hi
    exact List.append_ne_nil_of_right_ne_nil _ (List.cons_ne_nil _ _)
  · cases h
    exact fieldBytes_ne_nil _
  · cases h

/-- What is cut short in a bank is no identity word. -/
theorem tear_inHand {s : State} {k : BankId} {a : Nat} {given : List Byte} (h : inHand s = some (k, a, given)) (torn : List Byte) :
    tearIdentity torn (tearSlot torn s)
      = setBank s k { bank s k with cells := cellsAnd (bank s k).cells a (tornBytes given torn) } := by
  have hslot : tearSlot torn s = setBank s k { bank s k with cells := cellsAnd (bank s k).cells a (tornBytes given torn) } := by
    unfold tearSlot
    rw [h]
    exact programBank_eq ..
  rw [hslot]
  unfold tearIdentity
  rw [setBank_store_path, setBank_store_queue]
  split
  · next w v q hp hq =>
    unfold inHand at h
    rw [hp, hq] at h
    cases h
  · rfl

/-- With no slot or field in hand no bank changes. -/
theorem tearSlot_none {s : State} (h : inHand s = none) (torn : List Byte) : tearSlot torn s = s := by
  unfold tearSlot
  rw [h]

/-- A programming cut short changes the store alone. -/
theorem tear_store (torn : List Byte) (s : State) : ∃ st, tearIdentity torn (tearSlot torn s) = { s with store := st } := by
  cases h : inHand s with
  | some x =>
    obtain ⟨k, a, given⟩ := x
    rw [tear_inHand h]
    cases k <;> exact ⟨_, rfl⟩
  | none =>
    rw [tearSlot_none h]
    unfold tearIdentity
    split
    · exact ⟨_, rfl⟩
    · exact ⟨s.store, rfl⟩

/-! ## An identity word cut short (R161) -/

/-- The value of bytes with bits set is that of the bytes with those of the others set. -/
theorem unbe_foldl_or : ∀ (l : List (Byte × Byte)) (a b : Nat),
    (l.map (fun x => x.1 ||| x.2)).foldl (fun a b => a * 256 + b.toNat) (a ||| b)
      = (l.map (·.1)).foldl (fun a b => a * 256 + b.toNat) a ||| (l.map (·.2)).foldl (fun a b => a * 256 + b.toNat) b
  | [], _, _ => rfl
  | x :: l, a, b => by
    have hshift (n : Nat) (v : Byte) : n * 256 + v.toNat = n <<< 8 ||| v.toNat := by
      rw [← Nat.shiftLeft_add_eq_or_of_lt (show v.toNat < 2 ^ 8 from v.isLt), Nat.shiftLeft_eq]
    have hstep : (a ||| b) * 256 + (x.1 ||| x.2).toNat = (a * 256 + x.1.toNat) ||| (b * 256 + x.2.toNat) := by
      rw [hshift, hshift, hshift, BitVec.toNat_or, Nat.shiftLeft_or_distrib]
      ac_rfl
    simp only [List.map_cons, List.foldl_cons, hstep]
    exact unbe_foldl_or l _ _

/-- A word of the identity area is left with no bit cleared that was not to be. -/
theorem tornWord_eq (v : IdWord) (torn : List Byte) : ∃ x : IdWord,
    BitVec.ofNat 32 (unbe ((u32 v.toNat).zipIdx.map (fun x => x.1 ||| (torn[x.2]?).getD 0xFF))) = v ||| x := by
  have hfst : ((u32 v.toNat).zipIdx.map (fun x => (x.1, (torn[x.2]?).getD 0xFF))).map (·.1) = u32 v.toNat := by
    rw [List.map_map]
    exact List.zipIdx_map_fst 0 _
  have hor := unbe_foldl_or ((u32 v.toNat).zipIdx.map (fun x => (x.1, (torn[x.2]?).getD 0xFF))) 0 0
  rw [hfst, List.map_map] at hor
  refine ⟨BitVec.ofNat 32 (unbe (((u32 v.toNat).zipIdx.map (fun x => (x.1, (torn[x.2]?).getD 0xFF))).map (·.2))), ?_⟩
  have hv : unbe (u32 v.toNat) = v.toNat := unbe_be (n := 4) (by have := v.isLt; omega)
  refine (congrArg (BitVec.ofNat 32) hor).trans ?_
  show BitVec.ofNat 32 (unbe (u32 v.toNat) ||| _) = _
  rw [hv, BitVec.ofNat_or, BitVec.ofNat_toNat, BitVec.setWidth_eq]
  rfl

/-- An identity word cut short. -/
theorem tear_identity {w : IdTarget} {v : IdWord} {q : List StoreItem} {s : State} (hp : s.store.path = .append)
    (hq : s.store.queue = .identity w v :: q) (torn : List Byte) : ∃ x : IdWord, tearIdentity torn (tearSlot torn s)
      = { s with store.identity := setIdWord s.store.identity w (idWord s.store.identity w &&& (v ||| x)) } := by
  have hnone : inHand s = none := by
    unfold inHand
    rw [hp, hq]
  obtain ⟨x, hx⟩ := tornWord_eq v torn
  refine ⟨x, ?_⟩
  rw [tearSlot_none hnone, ← hx]
  unfold tearIdentity
  rw [hp, hq]

/-! ## An erase cut short (R159) -/

/-- An erase changes no byte outside its page. -/
theorem cellGet_cellsRise_outside : ∀ (bs : List Byte) (m : List Host.Cell) (a b : Nat), b < a ∨ a + bs.length ≤ b →
    cellGet (cellsRise m a bs) b = cellGet m b
  | [], _, _, _, _ => rfl
  | x :: t, m, a, b, h => by
    rw [List.length_cons] at h
    rw [cellsRise, cellGet_cellsRise_outside t _ (a + 1) b (by omega), cellGet_cellPut_other _ _ _ _ (by omega)]

/-- An erase clears no bit. -/
theorem cellGet_cellsRise_bits : ∀ (bs : List Byte) (m : List Host.Cell) (a b : Nat), cellsWf m = true →
    cellGet m b &&& cellGet (cellsRise m a bs) b = cellGet m b
  | [], m, _, b, _ => BitVec.and_self
  | x :: t, m, a, b, hm => by
    have hput : cellGet m b &&& cellGet (cellPut m a (cellGet m a ||| x)) b = cellGet m b := by
      by_cases hb : b = a
      · rw [hb, cellGet_cellPut_same m 0 a _ hm]
        ext i hi
        simp only [BitVec.getElem_and, BitVec.getElem_or]
        cases (cellGet m a)[i] <;> simp
      · rw [cellGet_cellPut_other _ _ _ _ hb, BitVec.and_self]
    have hrest := cellGet_cellsRise_bits t (cellPut m a (cellGet m a ||| x)) (a + 1) b (cellPut_wf a _ hm)
    rw [cellsRise, ← hput, BitVec.and_assoc, hrest]

/-- The cells of an erase cut short: those that stood, or the page in hand with bits set. -/
theorem cutErase_some {b : Bank} {p : Nat} (h : b.page = some p) (erased : List Byte) : cutErase b erased
    = if bankStateOf { b with cells := cellsRise b.cells (4096 * p) (erased.take 4096) } = .erasing then
        cellsRise b.cells (4096 * p) (erased.take 4096) else b.cells := by
  unfold cutErase
  rw [h]

/-! ## The states of the table of R146 -/

/-- A bank with every listed byte past its end reads as erased. -/
theorem cellGet_blank {n : Nat} : ∀ {m : List Host.Cell}, m.all (fun c => decide (n ≤ c.1)) = true → ∀ {a}, a < n →
    cellGet m a = erasedByte
  | [], _, _, _ => rfl
  | (k, v) :: t, h, a, ha => by
    rw [List.all_cons, Bool.and_eq_true, decide_eq_true_eq] at h
    obtain ⟨hk, ht⟩ := h
    rw [cellGet, if_neg (by have : n ≤ k := hk; omega)]
    exact cellGet_blank ht ha

/-- A bank that was programmed but never OPENED reads as ERASING. -/
theorem bankStateOf_unopened {b : Bank} {a : Nat} (ha : a < bankBytes) (h : cellGet b.cells a ≠ erasedByte)
    (h13 : hdrSet b 13 = false) : bankStateOf b = .erasing := by
  have hblank : bankBlank b = false := by
    refine Bool.eq_false_iff.mpr fun hb => h (cellGet_blank hb ha)
  unfold bankStateOf
  rw [hblank, h13]
  simp

/-! ## The bytes that a programming cut short leaves (R145, R148) -/

section
variable {s : State} {k : BankId} {a : Nat} {given : List Byte} (hin : inHand s = some (k, a, given)) (torn : List Byte)
include hin

/-- The bytes of its bank, programmed as far as the array took them. -/
theorem bank_tear : (bank (tearIdentity torn (tearSlot torn s)) k).cells = cellsAnd (bank s k).cells a (tornBytes given torn) := by
  rw [tear_inHand hin, bank_setBank]

/-- Outside them the bank stands. -/
theorem tear_outside {i : Nat} (h : i < a ∨ a + given.length ≤ i) :
    cellGet (bank (tearIdentity torn (tearSlot torn s)) k).cells i = cellGet (bank s k).cells i := by
  rw [bank_tear hin]
  exact cellGet_cellsAnd_outside _ _ _ _ (by rw [tornBytes_length torn (inHand_given hin)]; exact h)

variable (hm : memoryWf s = true)
include hm

/-- A byte reads with the bits that the array cleared. -/
theorem tear_inside {i : Nat} {x : Byte} (h : (tornBytes given torn)[i]? = some x) :
    cellGet (bank (tearIdentity torn (tearSlot torn s)) k).cells (a + i) = cellGet (bank s k).cells (a + i) &&& x := by
  obtain ⟨hi, hx⟩ := List.getElem?_eq_some_iff.mp h
  rw [bank_tear hin, cellGet_cellsAnd _ _ _ _ (bank_wf hm k) hi, hx]

/-- A record's slot is left short of committed. -/
theorem tear_short {body : List Byte} (hg : given = body ++ [0x0F]) (h : cellGet (bank s k).cells (a + body.length) = 0xFF) :
    cellGet (bank (tearIdentity torn (tearSlot torn s)) k).cells (a + body.length) ≠ 0x0F := by
  have hlen := tornBytes_length torn (inHand_given hin)
  have hlast := tornBytes_short torn (given := given) (by rw [hg, List.getLast?_concat])
  rw [List.getLast?_eq_getElem?, hlen, hg, List.length_append, List.length_singleton, Nat.add_sub_cancel, ← hg] at hlast
  cases hx : (tornBytes given torn)[body.length]? with
  | none =>
    rw [List.getElem?_eq_none_iff, hlen, hg, List.length_append, List.length_singleton] at hx
    omega
  | some x =>
    have hand : (0xFF : Byte) &&& x = x := BitVec.allOnes_and
    rw [tear_inside hin torn hm hx, h, hand]
    rw [hx] at hlast
    exact fun heq => hlast (congrArg some heq)

end

end Sys2Proof.Safety
end

