-- ==== Proofs/Recovery.lean ====
section
/-! PROOFS. The recovery scan over torn slots, an OPEN and a CLOSING bank and a broken law, and what the scan waits for (R146, R155 to
R157, R176, R190; O15). -/

namespace Sys2Proof.Safety

open Sys2Proof.Machine

/-! ## A torn slot in a journal (R156) -/

/-- A walk passes over slots whose state bytes are programmed. -/
theorem walk_passes {i : BankId} {s : State} (vs : List Byte) : ∀ (d fuel m : Nat),
    (∀ j, m ≤ j → j < m + d → slotState (bank s i) j ≠ 0xFF) → walk i (fuel + d) m vs s = walk i fuel (m + d) vs s
  | 0, _, _, _ => rfl
  | d + 1, fuel, m, h => by
    rw [show fuel + (d + 1) = fuel + d + 1 from rfl, walk, if_neg (h m (Nat.le_refl m) (by omega)),
      walk_passes vs d fuel (m + 1) fun j h1 h2 => h j (by omega) (by omega), show m + 1 + d = m + (d + 1) by omega]

/-- A bank with the state byte of a slot programmed. -/
def slotMarked (i : Nat) (v : Byte) (b : Bank) : Bank := { b with cells := cellsAnd b.cells (32 * i + 31) [v] }

section
variable {b : Bank} {i j : Nat} (v : Byte)

/-- The state byte with the bits cleared. -/
theorem slotState_marked (h : cellsWf b.cells = true) : slotState (slotMarked i v b) i = slotState b i &&& v :=
  cellGet_cellsAnd [v] b.cells (32 * i + 31) 0 h (Nat.zero_lt_one)

/-- The other slots stand. -/
theorem slotBytes_marked (h : j ≠ i) : slotBytes (slotMarked i v b) j = slotBytes b j := by
  unfold slotBytes cellsRead
  refine List.map_congr_left fun c hc => ?_
  have hlt := List.mem_range.mp hc
  exact cellGet_cellsAnd_outside _ _ _ _ (by simp only [List.length_singleton]; omega)

/-- So do their state bytes. -/
theorem slotState_marked_other (h : j ≠ i) : slotState (slotMarked i v b) j = slotState b j :=
  cellGet_cellsAnd_outside _ _ _ _ (by simp only [List.length_singleton]; omega)

end

/-- A torn slot voided by one programming that takes. -/
theorem voidTorn_takes {k : BankId} {i : Nat} {v : Byte} {s : State} (hm : memoryWf s = true) (hf : s.store.fault = false)
    (hi : slotState (bank s k) i = 0xFF) (hv : v ≠ 0xFF) (hc : v ≠ 0x0F) (n : Nat) (vs : List Byte) :
    voidTorn k i (n + 1) (v :: vs) s = ({ setBank s k (slotMarked i v (bank s k)) with store.mismatches := 0 }, vs) := by
  have hstate : slotState (slotMarked i v (bank s k)) i = v := by
    have hand : (0xFF : Byte) &&& v = v := BitVec.allOnes_and
    rw [slotState_marked v (bank_wf hm k), hi, hand]
  have hvoid : voidSlot k i v s = setBank s k (slotMarked i v (bank s k)) := programBank_eq ..
  rw [voidTorn, hf, if_neg Bool.false_ne_true]
  dsimp only [List.head?_cons, Option.getD_some]
  rw [hvoid, bank_setBank, hstate, if_neg (by rw [committed_iff, hstate]; exact hc), if_neg hv]
  rfl

/-- The walk of a journal with one torn slot voids it and goes on to its append point. -/
theorem walkJournal_torn {k : BankId} {i n : Nat} {v : Byte} {s : State} (hm : memoryWf s = true) (hf : s.store.fault = false)
    (h1 : 1 ≤ i) (hin : i < n) (hn : n ≤ 16383) (hs : ∀ j, 1 ≤ j → j < n → j ≠ i → slotState (bank s k) j ≠ 0xFF)
    (hi : slotState (bank s k) i = 0xFF) (ht : slotErased (bank s k) i = false) (he : slotErased (bank s k) n = true)
    (hv : v ≠ 0xFF) (hc : v ≠ 0x0F) (vs : List Byte) : walkJournal k (v :: vs) s
      = ({ setBank s k { slotMarked i v (bank s k) with append := n } with store.mismatches := 0 }, vs) := by
  have hbank : bank { setBank s k (slotMarked i v (bank s k)) with store.mismatches := 0 } k = slotMarked i v (bank s k) := by
    cases k <;> rfl
  have hpass : walk k 16383 1 (v :: vs) s = walk k (16383 - i + 1) i (v :: vs) s := by
    have h := walk_passes (i := k) (s := s) (v :: vs) (i - 1) (16383 - i + 1) 1 fun j hj hlt => hs j hj (by omega) (by omega)
    rwa [show 16383 - i + 1 + (i - 1) = 16383 by omega, show 1 + (i - 1) = i by omega] at h
  have hrest : walk k (16383 - i) (i + 1) vs { setBank s k (slotMarked i v (bank s k)) with store.mismatches := 0 }
      = ({ setBank s k (slotMarked i v (bank s k)) with store.mismatches := 0 }, n, vs) := by
    refine walk_clean ?_ vs _ (i + 1) hin (by omega) fun j hj hlt => ?_
    · rw [hbank, slotErased, slotBytes_marked v (by omega)]
      exact he
    · rw [hbank, slotState_marked_other v (by omega)]
      exact hs j (by omega) hlt (by omega)
  have hwalk : walk k 16383 1 (v :: vs) s = ({ setBank s k (slotMarked i v (bank s k)) with store.mismatches := 0 }, n, vs) := by
    rw [hpass, walk, if_pos hi, ht, if_neg Bool.false_ne_true]
    dsimp only
    rw [voidTorn_takes hm hf hi hv hc, hrest]
  unfold walkJournal
  rw [hwalk]
  dsimp only
  rw [hbank]
  cases k <;> rfl

/-! ## What the end of STARTING leaves (R36, R149) -/

/-- A change of a claim leaves the store and the operating state. -/
theorem changeClaim_store (cause : AlertCause) (host : Option ClaimEnd) (line : Bool) (s : State) :
    (changeClaim cause host line s).store = s.store ∧ (changeClaim cause host line s).link.op = s.link.op := by
  have hclaimed (t : State) (hst : t.store = s.store) (hl : t.link = s.link) :
      (if (host.isSome || line) = s.schedule.active then t else recomputeRoutes t).store = s.store
        ∧ (if (host.isSome || line) = s.schedule.active then t else recomputeRoutes t).link = s.link := by
    split
    · exact ⟨hst, hl⟩
    · obtain ⟨l, pl, hroutes⟩ := recomputeRoutes_line t
      rw [hroutes]
      exact ⟨hst, hl⟩
  unfold changeClaim
  dsimp only
  split
  · obtain ⟨hst, hl⟩ := hclaimed { s with
      schedule.hostClaim := host, schedule.lineClaim := line, schedule.active := host.isSome || line } rfl rfl
    exact ⟨hst, congrArg Link.op hl⟩
  · obtain ⟨hst, hl⟩ := hclaimed { s with
      schedule.hostClaim := host, schedule.lineClaim := line, schedule.active := host.isSome || line } rfl rfl
    exact ⟨(notice_store ..).1.trans hst, (notice_op ..).trans (congrArg Link.op hl)⟩

/-- A refusal changes no store, and leaves what waits and the operating state. -/
theorem refuse_keeps (code : StatusCode) (s : State) : (refuse code s).store = s.store
    ∧ (refuse code s).link.waiting = s.link.waiting ∧ (refuse code s).link.op = s.link.op := by
  unfold refuse answer
  split
  · exact ⟨rfl, rfl, rfl⟩
  · obtain ⟨hw, -, -, ho⟩ := joinReply_queue _ code [] { s with link.inFlight := none }
    exact ⟨(joinReply_store ..).1, hw, ho⟩

/-- An IDENT that fails changes the craft port alone. -/
theorem identFailed_keeps (s : State) : (identFailed s).store = s.store ∧ (identFailed s).link = s.link := by
  unfold identFailed
  split
  · rw [printErr, printLine_eq]
    exact ⟨rfl, rfl⟩
  · exact ⟨rfl, rfl⟩

/-- A fault of the store, whatever it answers. -/
theorem storeFault_store (cause : FaultCause) (at_ : Option (BankId × Nat)) (s : State) :
    (storeFault cause at_ s).store = { s.store with
      fault := true, queue := [], path := .idle, a := { s.store.a with page := none }, b := { s.store.b with page := none } }
    ∧ (storeFault cause at_ s).link.waiting = s.link.waiting ∧ (storeFault cause at_ s).link.op = s.link.op := by
  obtain ⟨hrst, hrw, hro⟩ := refuse_keeps .storeFault (identFailed (faulted cause at_ s))
  obtain ⟨hist, hil⟩ := identFailed_keeps (faulted cause at_ s)
  rw [hist] at hrst
  rw [hil] at hrw hro
  exact ⟨hrst.trans (notice_store ..).1, hrw.trans (faulted_waiting ..), hro.trans (notice_op ..)⟩

/-! ## A scan that finds the law of R146 broken (R155) -/

/-- The scan of a state has faulted the store, and the banks stand as they read. -/
structure ScanStopped (s t : State) : Prop where
  fault    : t.store.fault = true
  queue    : t.store.queue = []
  path     : t.store.path = .idle
  state    : ∀ k, (bank t k).state = bankStateOf (bank s k)
  cells    : ∀ k, (bank t k).cells = (bank s k).cells
  identity : t.store.identity = s.store.identity
  op       : t.link.op = .starting
  waiting  : t.link.waiting = []

/-- The fault of the scan stops it. -/
theorem scanStopped_storeFault {s : State} (hop : s.link.op = .starting) (hw : s.link.waiting = []) :
    ScanStopped s (storeFault .scan none (scanHeaders s)) := by
  obtain ⟨hst, hwaiting, ho⟩ := storeFault_store .scan none (scanHeaders s)
  refine ⟨?_, ?_, ?_, fun k => ?_, fun k => ?_, ?_, ho.trans hop, hwaiting.trans hw⟩
  · rw [hst]
  · rw [hst]
  · rw [hst]
  · cases k
    · exact (congrArg (fun st : Store => st.a.state) hst).trans rfl
    · exact (congrArg (fun st : Store => st.b.state) hst).trans rfl
  · cases k
    · exact (congrArg (fun st : Store => st.a.cells) hst).trans rfl
    · exact (congrArg (fun st : Store => st.b.cells) hst).trans rfl
  · rw [hst]
    rfl

/-- A walk of a store with a fault voids nothing. -/
theorem walk_fault {i : BankId} {s : State} (hf : s.store.fault = true) (vs : List Byte) :
    ∀ (n k : Nat), ∃ m, walk i n k vs s = (s, m, vs)
  | 0, k => ⟨k, rfl⟩
  | n + 1, k => by
    have hvoid : voidTorn i k 4 vs s = (s, vs) := by
      rw [voidTorn, hf, if_pos rfl]
    unfold walk
    split
    · split
      · exact ⟨k, rfl⟩
      · dsimp only
        rw [hvoid]
        exact walk_fault hf vs n (k + 1)
    · exact walk_fault hf vs n (k + 1)

/-- A bank behind the writing of one. -/
theorem bank_setBank_eq (s : State) (i k : BankId) (v : Bank) : bank (setBank s i v) k = if k = i then v else bank s k := by
  cases i <;> cases k <;> rfl

/-- With a fault the engine takes up a CLOSING bank as a change of its own state alone. -/
theorem resumeEngine_fault {s : State} (hf : s.store.fault = true) (i : BankId) :
    ∃ g, resumeEngine i s = { s with engine := g } := by
  unfold resumeEngine
  dsimp only
  rw [if_neg (by simp [hf])]
  exact ⟨_, rfl⟩

/-- With a fault no slot is voided. -/
theorem voidSlots_fault {s : State} (hf : s.store.fault = true) (i : BankId) (l : List Nat) (vs : List Byte) :
    voidSlots i l vs s = s := by
  cases l with
  | nil => rfl
  | cons k l => rw [voidSlots, hf, if_pos rfl]

section
variable {s t : State} (h : ScanStopped s t)
include h

/-- A bank written with its state and its cells as they are. -/
theorem ScanStopped.setBank {i : BankId} {v : Bank} (hs : v.state = (bank t i).state) (hc : v.cells = (bank t i).cells) :
    ScanStopped s (setBank t i v) := by
  refine ⟨by simpa using h.fault, by simpa using h.queue, by simpa using h.path, fun k => ?_, fun k => ?_, by simpa using h.identity,
    by simpa using h.op, by simpa using h.waiting⟩
  · rw [bank_setBank_eq]
    split
    · next hk => exact hs.trans (hk ▸ h.state k)
    · exact h.state k
  · rw [bank_setBank_eq]
    split
    · next hk => exact hc.trans (hk ▸ h.cells k)
    · exact h.cells k

/-- A state that differs in none of it. -/
theorem ScanStopped.same {u : State} (hst : u.store = t.store) (hop : u.link.op = t.link.op) (hw : u.link.waiting = t.link.waiting) :
    ScanStopped s u := by
  have hbank (k : BankId) : bank u k = bank t k := bank_congr (by rw [hst]) (by rw [hst]) k
  exact ⟨hst ▸ h.fault, hst ▸ h.queue, hst ▸ h.path, fun k => hbank k ▸ h.state k, fun k => hbank k ▸ h.cells k,
    hst ▸ h.identity, hop.trans h.op, hw.trans h.waiting⟩

/-- The walk of a bank. -/
theorem ScanStopped.walkBank (i : BankId) (vs : List Byte) :
    ScanStopped s (walkBank i vs t).1 ∧ (Machine.walkBank i vs t).2 = vs := by
  by_cases hwalks : ScanWalks (bank t i)
  · obtain ⟨m, hm⟩ := walk_fault (i := i) h.fault vs 16383 1
    rw [walkBank_walks hwalks, walkJournal, hm]
    exact ⟨h.setBank rfl rfl, rfl⟩
  · rw [walkBank_skips hwalks]
    exact ⟨h, rfl⟩

/-- The reading of an OPEN bank. -/
theorem ScanStopped.scanOpen : ScanStopped s (scanOpen t) := by
  unfold Machine.scanOpen
  split
  · exact h
  · exact ⟨h.fault, h.queue, h.path, h.state, h.cells, h.identity, h.op, h.waiting⟩

/-- The walk of a statement region. -/
theorem ScanStopped.walkRegion (i : BankId) (vs : List Byte) : ScanStopped s (walkRegion i vs t) := by
  obtain ⟨m, hm⟩ := walk_fault (i := i) h.fault vs 16384 16384
  have hwalked : ScanStopped s (Machine.setBank t i { bank t i with stmtAppend := m }) := h.setBank rfl rfl
  have hengine {u : State} (hu : ScanStopped s u) : ScanStopped s (resumeEngine i u) := by
    obtain ⟨g, hg⟩ := resumeEngine_fault hu.fault i
    rw [hg]
    exact hu.same rfl rfl rfl
  unfold Machine.walkRegion
  rw [hm]
  dsimp only
  split
  · exact hengine hwalked
  · rw [voidSlots_fault (by exact hwalked.fault)]
    exact hengine (hwalked.same rfl rfl rfl)

/-- The walk of a CLOSING bank's region. -/
theorem ScanStopped.scanClosing (vs : List Byte) : ScanStopped s (scanClosing vs t) := by
  unfold Machine.scanClosing
  split
  · exact h
  · exact h.walkRegion _ vs

/-- No erase begins in a store with a fault. -/
theorem ScanStopped.restartErase (i : BankId) : restartErase i t = t := if_neg (by simp [h.fault])

/-- No close is completed. -/
theorem ScanStopped.completeClose : completeClose t = t := by
  unfold Machine.completeClose
  split
  · rfl
  · exact if_neg (by simp [h.fault])

/-- The reading behind the journals. -/
theorem ScanStopped.scanBanks (vs : List Byte) : ScanStopped s (scanBanks vs t) := by
  have hopen := h.scanOpen
  have hclosing : ScanStopped s (Machine.scanClosing vs { Machine.scanOpen t with
      engine.tariff := scanTariff (Machine.scanOpen t) }) :=
    ScanStopped.scanClosing (t := { Machine.scanOpen t with engine.tariff := scanTariff (Machine.scanOpen t) })
      (hopen.same rfl rfl rfl) vs
  unfold Machine.scanBanks
  dsimp only
  rw [hclosing.restartErase .a, hclosing.restartErase .b, hclosing.completeClose]
  exact hclosing

end

/-- The state behind START, its JOURNAL_LOW and the line claim of an asserted ALERT input. -/
def startClaimed (s : State) : State :=
  if (startLow (startNoticed s)).schedule.alertInput then
    changeClaim .lineAtStart (startLow (startNoticed s)).schedule.hostClaim true (startLow (startNoticed s))
  else startLow (startNoticed s)

/-- STARTING ends with it, and the path goes on. -/
theorem finishStart_claimed (s : State) : finishStart s
    = if (startClaimed s).store.path = .idle then nextItem (startClaimed s) else startClaimed s := rfl

/-- It leaves the store, and what waits, and is UNSET. -/
theorem startClaimed_keeps (s : State) : (startClaimed s).store = { s.store with scan := .ended }
    ∧ (startClaimed s).link.op = .unset ∧ (startClaimed s).link.waiting = s.link.waiting := by
  obtain ⟨hst, -⟩ := startLow_store s
  obtain ⟨l, hlow, hlw, hlo⟩ := startLow_link (startNoticed s)
  have hwaiting : (startLow (startNoticed s)).link.waiting = s.link.waiting :=
    (congrArg (fun t : State => t.link.waiting) hlow).trans (hlw.trans (notice_waiting ..))
  have hop : (startLow (startNoticed s)).link.op = .unset :=
    (congrArg (fun t : State => t.link.op) hlow).trans (hlo.trans (notice_op ..))
  unfold startClaimed
  split
  · obtain ⟨hcst, hco⟩ :=
      changeClaim_store .lineAtStart (startLow (startNoticed s)).schedule.hostClaim true (startLow (startNoticed s))
    exact ⟨hcst.trans hst, hco.trans hop, (changeClaim_waiting ..).trans hwaiting⟩
  · exact ⟨hst, hop, hwaiting⟩

/-- STARTING ends in UNSET, with the banks of a store with a fault as they were. -/
theorem finishStart_stopped {s t : State} (h : ScanStopped s t) : ∃ u, finish (finishStart t) = u
    ∧ u.store = { t.store with scan := .ended } ∧ u.link.op = .unset := by
  obtain ⟨hst, hop, hw⟩ := startClaimed_keeps t
  have hpath : (startClaimed t).store.path = .idle := by rw [hst]; exact h.path
  have hend : finishStart t = startClaimed t := by
    rw [finishStart_claimed, if_pos hpath, nextItem_fault (by rw [hst]; exact h.fault), ← hpath]
  refine ⟨startClaimed t, ?_, hst, hop⟩
  rw [hend, finish_of_none (hw.trans h.waiting), kick_of_not_idle (.inl (by rw [hop]; decide))]

/-- A broken law of R146. -/
theorem lawBroken_of {s : State} (h : (bankStateOf s.store.a = .open_ ∧ bankStateOf s.store.b = .open_)
    ∨ ((bankStateOf s.store.a = .closing ∨ bankStateOf s.store.a = .closed)
      ∧ (bankStateOf s.store.b = .closing ∨ bankStateOf s.store.b = .closed))) : lawBroken (scanHeaders s) = true := by
  unfold lawBroken scanHeaders
  simpa using h

/-- The scan of a broken law faults the store and ends STARTING with the banks as they read. -/
theorem recoveryScan_broken {s : State} (hw : s.link.waiting = []) (hop : s.link.op = .starting) (hscan : s.store.scan = .reading)
    (hl : lawBroken (scanHeaders s) = true) (vs : List Byte) :
    ∃ t, ScanStopped s t ∧ recoveryScan vs s = finishStart { t with store.scan := .waiting } := by
  have hwalked := ((scanStopped_storeFault hop hw).walkBank .a vs).1.walkBank .b
    (walkBank .a vs (storeFault .scan none (scanHeaders s))).2
  refine ⟨_, hwalked.1.scanBanks (walkBank .b (walkBank .a vs (storeFault .scan none (scanHeaders s))).2
    (walkBank .a vs (storeFault .scan none (scanHeaders s))).1).2, ?_⟩
  have hread := hwalked.1.scanBanks (walkBank .b (walkBank .a vs (storeFault .scan none (scanHeaders s))).2
    (walkBank .a vs (storeFault .scan none (scanHeaders s))).1).2
  unfold recoveryScan
  rw [if_neg (by simp [hop, hscan])]
  dsimp only
  rw [if_pos hl]
  unfold scanAdvance
  rw [if_neg (by simp [hread.op]), if_pos hread.fault]

/-- A scan that finds the law of R146 broken. -/
theorem exec_scan_broken {s : State} (hw : s.link.waiting = []) (hop : s.link.op = .starting) (hscan : s.store.scan = .reading)
    (hl : lawBroken (scanHeaders s) = true) (vs : List Byte) : ∃ t, exec (.recoveryScanEnd vs) s = .next t ∧ t.store.fault = true
      ∧ t.link.op = .unset ∧ t.store.queue = [] ∧ t.store.a.state = bankStateOf s.store.a
      ∧ t.store.b.state = bankStateOf s.store.b ∧ t.store.a.cells = s.store.a.cells ∧ t.store.b.cells = s.store.b.cells
      ∧ t.store.identity = s.store.identity := by
  obtain ⟨t, ht, hend⟩ := recoveryScan_broken hw hop hscan hl vs
  have hwaits : ScanStopped s { t with store.scan := .waiting } :=
    ⟨ht.fault, ht.queue, ht.path, ht.state, ht.cells, ht.identity, ht.op, ht.waiting⟩
  obtain ⟨u, hu, hst, hou⟩ := finishStart_stopped hwaits
  refine ⟨u, ?_, ?_, hou, ?_, ?_, ?_, ?_, ?_, ?_⟩
  · show Host.Outcome.next (finish (recoveryScan vs s)) = _
    rw [hend, hu]
  · rw [hst]; exact ht.fault
  · rw [hst]; exact ht.queue
  · rw [hst]; exact ht.state .a
  · rw [hst]; exact ht.state .b
  · rw [hst]; exact ht.cells .a
  · rw [hst]; exact ht.cells .b
  · rw [hst]; exact ht.identity

end Sys2Proof.Safety
end

