-- ==== Proofs/ScanWaits.lean ====
section
/-! PROOFS. What ends the waiting of the recovery scan: CLOSING programmed, the other bank erased, and it OPENED (R157, R176, R190;
O15). -/

namespace Sys2Proof.Safety

open Sys2Proof.Machine

/-- The other bank's other bank. -/
theorem otherBank_otherBank (k : BankId) : otherBank (otherBank k) = k := by cases k <;> rfl

/-- No bank is in a state that neither a bank nor the other has. -/
theorem bankIn_none_of {s : State} {x : BankState} {k : BankId} (hk : (bank s k).state ≠ x)
    (ho : (bank s (otherBank k)).state ≠ x) : bankIn s x = none := by
  cases k with
  | a => exact bankIn_none hk ho
  | b => exact bankIn_none ho hk

/-- Bytes read before those programmed. -/
theorem cellsRead_cellsAnd_before {a n c : Nat} (h : a + n ≤ c) (m : List Host.Cell) (bs : List Byte) :
    cellsRead (cellsAnd m c bs) a n = cellsRead m a n := by
  unfold cellsRead
  refine List.map_congr_left fun i hi => ?_
  have hlt := List.mem_range.mp hi
  exact cellGet_cellsAnd_outside _ _ _ _ (.inl (by omega))

/-- A marker programmed leaves the sequence and the close minute. -/
theorem seqOf_cellsAnd {a : Nat} (h : 12 ≤ a) (b : Bank) (bs : List Byte) :
    seqOf { b with cells := cellsAnd b.cells a bs } = seqOf b
      ∧ closeMinuteOf { b with cells := cellsAnd b.cells a bs } = closeMinuteOf b := by
  unfold seqOf closeMinuteOf
  rw [cellsRead_cellsAnd_before (by omega), cellsRead_cellsAnd_before (by omega)]
  exact ⟨rfl, rfl⟩

/-! ## The waiting scan goes on (R157, R176) -/

/-- The opening of the other bank with its open minute deferred. -/
def openingOf (k : BankId) (s : State) : List StoreItem :=
  [.header (otherBank k) (.sequence ((seqOf (bank s k) + 1) % 65536)), .header (otherBank k) .opened]

/-- The scan waits, in a store without a fault. -/
structure ScanWaits (t : State) : Prop where
  op      : t.link.op = .starting
  scan    : t.store.scan = .waiting
  noFault : t.store.fault = false

/-- An item that the scan waits for: CLOSING or OPENED. -/
def isAwaited : StoreItem → Bool
  | .header _ .closing => true
  | .header _ .opened => true
  | _ => false

/-- While such an item is queued the scan waits. -/
theorem scanAdvance_awaits {t : State} (h : ScanWaits t) (hq : t.store.queue.any isAwaited = true) : scanAdvance t = t := by
  unfold scanAdvance
  rw [if_neg (by simp [h.op, h.scan]), h.noFault, if_neg Bool.false_ne_true]
  exact if_pos hq

section
variable {t : State} {k : BankId} (h : ScanWaits t) (hq : t.store.queue.any isAwaited = false)
include h hq

/-- Where the waiting scan stands with no such item queued. -/
theorem scanAdvance_goesOn : scanAdvance t = match bankIn t .closing, openBank t with
    | some i, none =>
      if (bank t (otherBank i)).state = .free then
        { joinItem (.header (otherBank i) .opened)
            (joinItem (.header (otherBank i) (.sequence (openingSequence t (otherBank i)))) t) with
          store.minute := closeMinuteOf (bank t i) }
      else if (bank t (otherBank i)).state = .erasing then t
      else finishStart t
    | _, _ => finishStart t := by
  unfold scanAdvance
  rw [if_neg (by simp [h.op, h.scan]), h.noFault, if_neg Bool.false_ne_true]
  exact if_neg fun hany => Bool.false_ne_true (hq.symm.trans hany)

/-- Of a CLOSING bank the other, FREE, is opened. -/
theorem scanAdvance_opens (hk : (bank t k).state = .closing) (ho : (bank t (otherBank k)).state = .free)
    (hp : t.store.path = .idle ∨ t.store.path = .append) : scanAdvance t = { t with
      store.queue := t.store.queue ++ openingOf k t, store.path := .append, store.minute := closeMinuteOf (bank t k) } := by
  have hclosing : bankIn t .closing = some k := bankIn_some hk (by rw [ho]; decide)
  have hopen : openBank t = none := bankIn_none_of (k := k) (by rw [hk]; decide) (by rw [ho]; decide)
  have hseq : openingSequence t (otherBank k) = (seqOf (bank t k) + 1) % 65536 := by
    unfold openingSequence
    dsimp only
    rw [otherBank_otherBank, hk]
    rfl
  have hpath : (if t.store.path = .idle then Path.append else t.store.path) = .append := by
    rcases hp with hp | hp <;> rw [hp] <;> rfl
  rw [scanAdvance_goesOn h hq, hclosing, hopen]
  dsimp only
  rw [if_pos ho, joinItem_joinItem, hseq, hpath]
  rfl

/-- While the other bank is ERASING the scan waits. -/
theorem scanAdvance_erasing (hk : (bank t k).state = .closing) (ho : (bank t (otherBank k)).state = .erasing) : scanAdvance t = t := by
  have hclosing : bankIn t .closing = some k := bankIn_some hk (by rw [ho]; decide)
  have hopen : openBank t = none := bankIn_none_of (k := k) (by rw [hk]; decide) (by rw [ho]; decide)
  rw [scanAdvance_goesOn h hq, hclosing, hopen]
  dsimp only
  rw [if_neg (by rw [ho]; decide), if_pos ho]

/-- With a bank OPEN the scan is at its end. -/
theorem scanAdvance_opened {i : BankId} (ho : openBank t = some i) : scanAdvance t = finishStart t := by
  rw [scanAdvance_goesOn h hq, ho]
  cases bankIn t .closing <;> rfl

end

/-! ## CLOSING programmed in STARTING (R176) -/

/-- The engine takes up a close with no statement written. -/
def closeResumed (k : BankId) (g : Engine) : Engine := { g with
  state := .computing, bank := k, resume := 0, writing := none, statements := 0, lines := 0, omitted := 0, control := 0
  truncated := false, closeDone := false }

/-- A region without a committed record has no statement. -/
theorem regionRecords_none {b : Bank} (h : committedSlots b 16384 16384 = []) : regionRecords b = [] := by
  unfold regionRecords
  rw [h]
  rfl

/-- The engine takes up a CLOSING bank without a committed record. -/
theorem resumeEngine_bare {k : BankId} {s : State} (h : committedSlots (bank s k) 16384 16384 = []) :
    resumeEngine k { s with engine.resume := 0 } = { s with engine := closeResumed k s.engine } := by
  have hheads : headersOf (bank s k) = [] := by
    unfold headersOf
    rw [regionRecords_none h]
    rfl
  have hcomplete : completeHeaders (bank s k) = [] := by
    unfold completeHeaders
    rw [hheads]
    exact ite_self _
  have hclose : closeSlot (bank s k) = none := by
    unfold closeSlot
    rw [h]
    rfl
  unfold resumeEngine
  dsimp only
  rw [show bank { s with engine.resume := 0 } k = bank s k from bank_congr rfl rfl k, hcomplete, hclose]
  rfl

/-- CLOSING programmed in STARTING: the engine takes up the bank, and the scan goes on. -/
theorem headerProgrammed_closing {p : Programmed} {k : BankId} {s : State} (hop : s.link.op = .starting) (hf : s.store.fault = false)
    (hp : s.store.path = .append) (hq : s.store.queue = [.header k .closing])
    (hr : hdrSet (fieldWrote p .closing (bank s k)) 14 = true)
    (hc : committedSlots (fieldWrote p .closing (bank s k)) 16384 16384 = []) {t : State}
    (ht : { bankCommitted s k { fieldWrote p .closing (bank s k) with state := .closing, stmtAppend := 16384 } [] with
      store.path := .idle, engine := closeResumed k s.engine } = t) : headerProgrammed p s = scanAdvance t := by
  subst ht
  have hbank := bank_bankCommitted s k { fieldWrote p .closing (bank s k) with state := .closing, stmtAppend := 16384 } []
  have hcommit : headerCommit k .closing (bankCommitted s k (fieldWrote p .closing (bank s k)) [])
      = { bankCommitted s k { fieldWrote p .closing (bank s k) with state := .closing, stmtAppend := 16384 } [] with
          engine := closeResumed k s.engine } := by
    unfold headerCommit
    dsimp only
    rw [bank_bankCommitted, setBank_bankCommitted, if_pos (by exact hop)]
    exact resumeEngine_bare (by rw [hbank]; exact hc)
  rw [headerProgrammed_of hp hq, if_pos (by exact hr), hcommit]
  refine congrArg scanAdvance ((nextItem_rests ?_ ?_ (.inr (by exact hop))).trans rfl)
  · exact (bankCommitted_keeps s k _ []).1.trans hf
  · exact headFits_of_noRecord rfl

/-- The state with the other bank's opening queued, its open minute deferred. -/
def otherOpening (k : BankId) (s t : State) : State :=
  { t with store.queue := openingOf k s, store.path := .append, store.minute := closeMinuteOf (bank s k) }

/-- CLOSING programmed in STARTING, the other bank FREE or ERASING. -/
theorem exec_closing {p : Programmed} {k : BankId} {s : State} (hw : s.link.waiting = []) (hs : ScanWaits s)
    (hp : s.store.path = .append) (hq : s.store.queue = [.header k .closing])
    (hr : hdrSet (fieldWrote p .closing (bank s k)) 14 = true)
    (hc : committedSlots (fieldWrote p .closing (bank s k)) 16384 16384 = [])
    (ho : (bank s (otherBank k)).state = .free ∨ (bank s (otherBank k)).state = .erasing) {t : State}
    (ht : { bankCommitted s k { fieldWrote p .closing (bank s k) with state := .closing, stmtAppend := 16384 } [] with
      store.path := .idle, engine := closeResumed k s.engine } = t) :
    exec (.headerFieldProgrammed p) s = .next (kick (if (bank s (otherBank k)).state = .free then otherOpening k s t else t)) := by
  have hend := headerProgrammed_closing hs.op hs.noFault hp hq hr hc ht
  have hwaiting : t.link = s.link := by rw [← ht]; rfl
  have hk : bank t k = { fieldWrote p .closing (bank s k) with state := .closing, stmtAppend := 16384 } := by
    rw [← ht]
    exact bank_bankCommitted s k { fieldWrote p .closing (bank s k) with state := .closing, stmtAppend := 16384 } []
  have hother : bank t (otherBank k) = bank s (otherBank k) := by
    rw [← ht]
    cases k <;> rfl
  have hwaits : ScanWaits t := by
    rw [← ht]
    exact ⟨hs.op, by cases k <;> exact hs.scan, (bankCommitted_keeps s k _ []).1.trans hs.noFault⟩
  have hempty : t.store.queue = [] := by rw [← ht]; rfl
  have hstate : (bank t k).state = .closing := by rw [hk]
  obtain ⟨hseq, hclose⟩ := seqOf_cellsAnd (a := 14) (by decide) (bank s k) (took p (fieldBytes .closing))
  have hadvance : scanAdvance t = if (bank s (otherBank k)).state = .free then otherOpening k s t else t := by
    rcases ho with ho | ho
    · rw [if_pos ho, scanAdvance_opens hwaits (by rw [hempty]; rfl) hstate (by rw [hother, ho]) (.inl (by rw [← ht])),
        otherOpening, openingOf, openingOf, hempty, List.nil_append, hk,
        ← hseq, ← hclose]
      rfl
    · rw [if_neg (by rw [ho]; decide), scanAdvance_erasing hwaits (by rw [hempty]; rfl) hstate (by rw [hother, ho])]
  show Host.Outcome.next (finish (headerProgrammed p s)) = _
  rw [hend, hadvance, finish_of_none]
  split
  · exact (congrArg Link.waiting hwaiting).trans hw
  · exact (congrArg Link.waiting hwaiting).trans hw

/-! ## The other bank erased in STARTING (R157) -/

/-- The erase of the last page is followed by the opening. -/
theorem exec_erase_opens {k : BankId} {s : State} (hw : s.link.waiting = []) (hs : ScanWaits s) (hq : s.store.queue = [])
    (hk : (bank s k).state = .closing) (hpage : (bank s (otherBank k)).page = some 0) (hp : s.store.path = .idle) (torn : List Byte) {t : State}
    (ht : notice nkBankFree false (u8 (bankNum (otherBank k)) ++ u16 (seqOf (bank s (otherBank k))))
      (setBank s (otherBank k) { bank s (otherBank k) with
        cells := cellsErase (bank s (otherBank k)).cells 0, state := .free, watermark := 0, page := none }) = t) :
    exec (.erasePageDone (otherBank k) [] torn) s = .next (kick (otherOpening k s t)) := by
  have hend := (erasePage_blank torn hpage).trans (if_pos rfl)
  rw [ht] at hend
  have hst : t.store = (setBank s (otherBank k) { bank s (otherBank k) with
      cells := cellsErase (bank s (otherBank k)).cells 0, state := .free, watermark := 0, page := none }).store := by
    rw [← ht, (notice_store ..).1]
  have hbank (i : BankId) : bank t i = bank (setBank s (otherBank k) { bank s (otherBank k) with
      cells := cellsErase (bank s (otherBank k)).cells 0, state := .free, watermark := 0, page := none }) i :=
    bank_congr (by rw [hst]) (by rw [hst]) i
  have hbk : bank t k = bank s k := by
    rw [hbank, bank_setBank_eq, if_neg]
    cases k <;> decide
  have hwaits : ScanWaits t := by
    refine ⟨?_, ?_, ?_⟩
    · rw [← ht, notice_op]
      simpa using hs.op
    · rw [hst]
      simpa using hs.scan
    · rw [hst]
      simpa using hs.noFault
  have hempty : t.store.queue = [] := by
    rw [hst]
    simpa using hq
  rw [scanAdvance_opens (k := k) hwaits (by rw [hempty]; rfl) (by rw [hbk, hk]) (by rw [hbank, bank_setBank])
    (.inl (by rw [hst]; simpa using hp)), hempty, List.nil_append] at hend
  have hopening : { t with store.queue := openingOf k t, store.path := .append, store.minute := closeMinuteOf (bank t k) }
      = otherOpening k s t := by
    unfold otherOpening openingOf
    rw [hbk]
  show Host.Outcome.next (finish (erasePage (otherBank k) [] torn s)) = _
  rw [hend, hopening, finish_of_none]
  show t.link.waiting = []
  rw [← ht, notice_waiting]
  simpa using hw

/-! ## The other bank OPENED in STARTING (R157, R190) -/

/-- The matter of START in a store without a fault. -/
theorem startBytes_noFault {s : State} (hf : s.store.fault = false) : startBytes s = u8 (causeNum s.time.cause)
    ++ flag s.time.coldStart ++ u8 (bankStateNum s.store.a.state) ++ u16 (seqOf s.store.a) ++ u8 (bankStateNum s.store.b.state)
    ++ u16 (seqOf s.store.b) ++ flag (s.store.lock = .effective) ++ u32 s.store.identity.headId.toNat ++ [0] := by
  unfold startBytes
  rw [hf]
  rfl

/-- The commit of OPENED ends STARTING, and the engine takes up the CLOSING bank. -/
theorem exec_opened_ends {p : Programmed} {o : BankId} {s : State} (hw : s.link.waiting = []) (hs : ScanWaits s)
    (hk : (bank s (otherBank o)).state = .closing) (hp : s.store.path = .append) (hq : s.store.queue = [.header o .opened])
    (hr : hdrSet (fieldWrote p .opened (bank s o)) 13 = true) (h7 : hdrSet (fieldWrote p .opened (bank s o)) 7 = false)
    (he : s.engine.state = .computing) (hdone : s.engine.closeDone = false) (ha : s.schedule.alertInput = false) {t : State}
    (ht : pathNext (bankOpened s o (fieldWrote p .opened (bank s o)) []) = t) :
    exec (.headerFieldProgrammed p) s = .next (kick { takeAccount (startNoticed t) with store.path := .statement }) := by
  have hwaits : ScanWaits t := by
    rw [← ht]
    exact ⟨hs.op, by cases o <;> exact hs.scan, (bankCommitted_keeps s o _ []).1.trans hs.noFault⟩
  have hempty : t.store.queue = [] := by rw [← ht]; rfl
  have hcommit : headerCommit o .opened (bankCommitted s o (fieldWrote p .opened (bank s o)) [])
      = bankOpened s o (fieldWrote p .opened (bank s o)) [] := by
    rw [headerCommit_opened, openWritten, h7, if_neg Bool.false_ne_true]
    exact closeOpened_other (s := bankOpened s o (fieldWrote p .opened (bank s o)) []) (by
      rw [show (bankOpened s o (fieldWrote p .opened (bank s o)) []).engine.state = .computing from he]
      decide)
  have hnext : nextItem (bankOpened s o (fieldWrote p .opened (bank s o)) []) = t := by
    rw [← ht]
    exact nextItem_rests ((bankCommitted_keeps s o _ []).1.trans hs.noFault) (headFits_of_noRecord rfl) (.inr hs.op)
  have hopen : openBank t = some o := by
    rw [← ht]
    exact openBank_bankOpened (fieldWrote p .opened (bank s o)) [] (by rw [hk]; decide)
  have hpath : t.store.path = .idle := by rw [← ht]; rfl
  have hengine : t.engine = s.engine := by rw [← ht]; rfl
  have hlow : startLow (startNoticed t) = startNoticed t := by
    refine startLow_unmarked ?_
    rw [startNoticed, (notice_store ..).1, ← ht]
    rfl
  obtain ⟨hst, hen⟩ := startLow_store t
  rw [hlow] at hst hen
  have hend : finishStart t = { takeAccount (startNoticed t) with store.path := .statement } := by
    have hidle : (startNoticed t).store.path = .idle := (congrArg Store.path hst).trans hpath
    rw [finishStart_eq (by rw [← ht]; exact ha), hlow, if_pos hidle, nextItem_statement]
    · rw [withPath_self hidle]
    · exact (congrArg Store.fault hst).trans hwaits.noFault
    · exact ⟨(congrArg Store.queue hst).trans hempty, by rw [hen, hengine, he], by rw [hen, hengine, hdone]⟩
    · rw [startNoticed, notice_op]
      exact OpState.noConfusion
  show Host.Outcome.next (finish (headerProgrammed p s)) = _
  rw [headerProgrammed_of hp hq, if_pos (by exact hr), hcommit, hnext,
    scanAdvance_opened hwaits (by rw [hempty]; rfl) hopen, hend, finish_of_none]
  show (takeAccount (startNoticed t)).link.waiting = []
  rw [takeAccount_link, startNoticed, notice_waiting, ← ht]
  exact hw

end Sys2Proof.Safety
end

