-- ==== Proofs/ScanRegion.lean ====
section
/-! PROOFS. What the recovery scan reads of a CLOSING bank's statement region (R176; O15). -/

namespace Sys2Proof.Safety

open Sys2Proof.Machine

/-! ## The records of a statement region -/

/-- The committed slots of a bank's statement region. -/
def regionSlots (b : Bank) : List Nat := committedSlots b 16384 16384

/-- The first byte of a slot, its record's kind. -/
def slotKind (b : Bank) (j : Nat) : Byte := cellGet b.cells (32 * j)

/-- The slots of the STATEMENT headers. -/
def headSlots (b : Bank) : List Nat := (regionSlots b).filter (fun j => slotKind b j = 0x41)

/-- The slots of the TIER_LINE records behind a slot. -/
def lineSlots (b : Bank) (j : Nat) : List Nat := (regionSlots b).filter (fun i => slotKind b i = 0x42 && decide (j < i))

/-- The number of tier lines that a header gives. -/
def linesWanted (b : Bank) (j : Nat) : Nat := fld (slotBytes b j) 28 1

/-- The slot of a record with the record. -/
def slotRecord (b : Bank) (j : Nat) : Nat × List Byte := (j, (slotBytes b j).take 31)

/-- A field that ends before the state byte is the slot's. -/
theorem fld_take {i n : Nat} (h : i + n ≤ 31) (r : List Byte) : fld (r.take 31) i n = fld r i n := by
  unfold fld
  rw [List.drop_take, List.take_take, Nat.min_eq_left (by omega)]

/-- The kind of a record is the first byte of its slot. -/
theorem recKind_slot (b : Bank) (j : Nat) : recKind ((slotBytes b j).take 31) = (slotKind b j).toNat := by
  have hone : (slotBytes b j).take 1 = [slotKind b j] := by
    unfold slotBytes cellsRead
    rw [← List.map_take]
    rfl
  unfold recKind
  rw [fld_take (by decide), fld, List.drop_zero, hone]
  simp [unbe]

/-- A record is of a kind exactly where its slot's first byte is. -/
theorem recKind_slot_iff (b : Bank) (j : Nat) (x : Byte) : recKind ((slotBytes b j).take 31) = x.toNat ↔ slotKind b j = x := by
  rw [recKind_slot]
  exact ⟨BitVec.eq_of_toNat_eq, congrArg BitVec.toNat⟩

/-- The headers of a region. -/
theorem headersOf_eq (b : Bank) : headersOf b = (headSlots b).map (slotRecord b) := by
  unfold headersOf headSlots regionRecords
  rw [List.filter_map]
  refine congrArg (List.map (slotRecord b)) (List.filter_congr fun j _ => ?_)
  exact decide_eq_decide.mpr (recKind_slot_iff b j 0x41)

/-- The lines behind a slot. -/
theorem linesAfter_eq (b : Bank) (j : Nat) : linesAfter b j = lineSlots b j := by
  have hcongr : (regionSlots b).filter ((fun r : Nat × List Byte => recKind r.2 = rkTierLine && decide (j < r.1)) ∘ slotRecord b)
      = lineSlots b j := by
    refine List.filter_congr fun i _ => ?_
    exact congrArg (· && decide (j < i)) (decide_eq_decide.mpr (recKind_slot_iff b i 0x42))
  unfold linesAfter regionRecords
  rw [List.filter_map, List.map_map]
  exact (congrArg (List.map _) hcongr).trans (List.map_id _)

/-- No CLOSE record is committed where no committed slot is of its kind. -/
theorem closeSlot_none {b : Bank} (h : ∀ j ∈ regionSlots b, slotKind b j ≠ 0x43) : closeSlot b = none :=
  List.find?_eq_none.mpr fun j hj => by simpa [slotKind] using h j hj

/-- One is where one is. -/
theorem closeSlot_some {b : Bank} (h : ∃ j ∈ regionSlots b, slotKind b j = 0x43) : (closeSlot b).isSome = true := by
  obtain ⟨j, hj, hk⟩ := h
  exact List.find?_isSome.mpr ⟨j, hj, decide_eq_true hk⟩

section
variable {b : Bank}

/-- In a region without a header nothing is incomplete, and the engine begins at the first account. -/
theorem region_bare (h : headSlots b = []) : incomplete b = [] ∧ completeHeaders b = [] ∧ resumePoint b = 0 := by
  have hheads : headersOf b = [] := by rw [headersOf_eq, h, List.map_nil]
  have hinc : incomplete b = [] := by
    unfold incomplete
    rw [hheads]
    rfl
  refine ⟨hinc, ?_, ?_⟩
  · unfold completeHeaders
    rw [hinc, hheads]
    rfl
  · unfold resumePoint
    rw [hheads]
    rfl

variable {hs : List Nat} {h : Nat} (hh : headSlots b = hs ++ [h])
include hh

/-- The last header. -/
theorem headersOf_last : (headersOf b).getLast? = some (slotRecord b h) := by
  rw [headersOf_eq, hh, List.map_append, List.map_singleton, List.getLast?_concat]

/-- What is incomplete of the last account. -/
theorem incomplete_last : incomplete b = if (lineSlots b h).length < linesWanted b h then h :: lineSlots b h else [] := by
  unfold incomplete
  rw [headersOf_last hh]
  dsimp only [slotRecord]
  rw [linesAfter_eq, fld_take (by decide)]
  rfl

/-- With the last account complete every header is, and the next account is taken up. -/
theorem region_complete (hc : linesWanted b h ≤ (lineSlots b h).length) : incomplete b = []
    ∧ completeHeaders b = (headSlots b).map (slotRecord b) ∧ resumePoint b = fld (slotBytes b h) 1 4 + 1 := by
  have hinc : incomplete b = [] := by rw [incomplete_last hh, if_neg (by omega)]
  refine ⟨hinc, ?_, ?_⟩
  · unfold completeHeaders
    rw [hinc, ← headersOf_eq]
    rfl
  · unfold resumePoint
    rw [headersOf_last hh, hinc]
    show fld ((slotBytes b h).take 31) 1 4 + 1 = _
    rw [fld_take (by decide)]

/-- A last account that is incomplete is taken up again. -/
theorem region_incomplete (hc : (lineSlots b h).length < linesWanted b h) :
    incomplete b = h :: lineSlots b h ∧ resumePoint b = fld (slotBytes b h) 1 4 := by
  have hinc : incomplete b = h :: lineSlots b h := by rw [incomplete_last hh, if_pos hc]
  refine ⟨hinc, ?_⟩
  unfold resumePoint
  rw [headersOf_last hh, hinc]
  show fld ((slotBytes b h).take 31) 1 4 = _
  rw [fld_take (by decide)]

end

/-! ## A region with slots voided -/

/-- A slot of which a committed record reads. -/
def committedAt (c : Host.Cell) : Option Nat :=
  if c.1 % 32 = 31 && c.2 = 0x0F && decide (16384 ≤ c.1 / 32) && decide (c.1 / 32 < 16384 + 16384) then some (c.1 / 32) else none

/-- A committed record's state byte. -/
theorem committedAt_some {c : Host.Cell} {j : Nat} (h : committedAt c = some j) : c.1 = 32 * j + 31 := by
  unfold committedAt at h
  split at h
  · next hc =>
    simp only [Bool.and_eq_true, decide_eq_true_eq] at hc
    obtain ⟨⟨⟨hmod, -⟩, -⟩, -⟩ := hc
    injection h with h
    omega
  · cases h

/-- A state byte cleared is no committed record's. -/
theorem committedAt_cleared (k : Nat) : committedAt (32 * k + 31, 0) = none := by
  unfold committedAt
  simp

/-- Cells above a slot hold no record of it. -/
theorem committedAt_above {j k : Nat} : ∀ {m : List Host.Cell} {lo : Nat}, cellsFrom lo m = true → 32 * k + 31 < lo →
    j ∈ m.filterMap committedAt → j ≠ k
  | [], _, _, _, hj => by cases hj
  | c :: m, lo, h, hlo, hj => by
    simp only [cellsFrom, Bool.and_eq_true, decide_eq_true_eq] at h
    obtain ⟨⟨hle, -⟩, hm⟩ := h
    obtain ⟨d, hd, hdj⟩ := List.mem_filterMap.mp hj
    rcases List.mem_cons.mp hd with rfl | hd
    · have := committedAt_some hdj
      omega
    · exact committedAt_above hm (by omega) (List.mem_filterMap.mpr ⟨d, hd, hdj⟩)

/-- A state byte cleared takes its slot from the committed ones. -/
theorem committed_cleared (k : Nat) : ∀ {m : List Host.Cell} {lo : Nat}, cellsFrom lo m = true →
    (cellPut m (32 * k + 31) 0).filterMap committedAt = (m.filterMap committedAt).filter (fun j => j ≠ k)
  | [], _, _ => by
    rw [cellPut, if_neg (by decide), List.filterMap_cons, committedAt_cleared]
    rfl
  | c :: m, lo, h => by
    have hcell := committedAt_cleared k
    simp only [cellsFrom, Bool.and_eq_true, decide_eq_true_eq] at h
    obtain ⟨⟨-, hv⟩, hm⟩ := h
    have hall {l : List Host.Cell} {n : Nat} (hl : cellsFrom n l = true) (hn : 32 * k + 31 < n) :
        (l.filterMap committedAt).filter (fun j => j ≠ k) = l.filterMap committedAt :=
      List.filter_eq_self.mpr fun j hj => decide_eq_true (committedAt_above hl hn hj)
    have hne : (0 : Byte) ≠ erasedByte := by decide
    unfold cellPut
    rcases Nat.lt_trichotomy c.1 (32 * k + 31) with hlt | heq | hgt
    · rw [if_pos hlt, List.filterMap_cons, List.filterMap_cons]
      cases hc : committedAt c with
      | none => exact committed_cleared k hm
      | some j =>
        have hj := committedAt_some hc
        dsimp only
        rw [List.filter_cons_of_pos (by simp; omega), committed_cleared k hm]
    · rw [if_neg (by omega), if_pos heq, if_neg hne, List.filterMap_cons, hcell, List.filterMap_cons]
      cases hc : committedAt c with
      | none => exact (hall hm (by omega)).symm
      | some j =>
        have hj := committedAt_some hc
        dsimp only
        rw [List.filter_cons_of_neg (by simp; omega)]
        exact (hall hm (by omega)).symm
    · rw [if_neg (by omega), if_neg (by omega), if_neg hne, List.filterMap_cons, hcell]
      refine (hall (n := c.1) (l := c :: m) ?_ hgt).symm
      simp only [cellsFrom, Bool.and_eq_true, decide_eq_true_eq]
      exact ⟨⟨Nat.le_refl _, hv⟩, hm⟩

/-- Cells with the state bytes of slots cleared. -/
def slotsCleared (l : List Nat) (m : List Host.Cell) : List Host.Cell := l.foldl (fun c j => cellsAnd c (32 * j + 31) [0]) m

/-- Voids without an operand clear the state bytes. -/
theorem slotsVoided_cleared : ∀ (l : List Nat) (m : List Host.Cell), slotsVoided l [] m = slotsCleared l m
  | [], _ => rfl
  | k :: l, m => slotsVoided_cleared l (cellsAnd m (32 * k + 31) [0])

/-- A state byte cleared. -/
theorem cellsAnd_zero (m : List Host.Cell) (a : Nat) : cellsAnd m a [0] = cellPut m a 0 := by
  have hzero : cellGet m a &&& 0 = 0 := BitVec.and_zero
  rw [cellsAnd, hzero]
  rfl

/-- A bank with slots voided. -/
def bankCleared (l : List Nat) (b : Bank) : Bank := { b with cells := slotsCleared l b.cells }

/-- The committed slots that are left. -/
theorem regionSlots_cleared : ∀ (l : List Nat) {b : Bank}, cellsWf b.cells = true →
    regionSlots (bankCleared l b) = (regionSlots b).filter (fun j => j ∉ l)
  | [], b, _ => (List.filter_eq_self.mpr fun j _ => by simp).symm
  | k :: l, b, h => by
    have hone : regionSlots { b with cells := cellPut b.cells (32 * k + 31) 0 } = (regionSlots b).filter (fun j => j ≠ k) :=
      committed_cleared k h
    have hrest := regionSlots_cleared l (b := { b with cells := cellPut b.cells (32 * k + 31) 0 }) (cellPut_wf _ _ h)
    have hcells : bankCleared (k :: l) b = bankCleared l { b with cells := cellPut b.cells (32 * k + 31) 0 } :=
      congrArg (fun c => { b with cells := slotsCleared l c }) (cellsAnd_zero b.cells (32 * k + 31))
    rw [hcells, hrest, hone, List.filter_filter]
    refine List.filter_congr fun j _ => ?_
    simp [List.mem_cons, Bool.and_comm]

/-- Bytes other than the state bytes cleared. -/
theorem cellGet_cleared {a : Nat} : ∀ (l : List Nat) (m : List Host.Cell), (∀ j ∈ l, a ≠ 32 * j + 31) →
    cellGet (slotsCleared l m) a = cellGet m a
  | [], _, _ => rfl
  | k :: l, m, h => by
    rw [slotsCleared, List.foldl_cons]
    refine (cellGet_cleared l _ fun j hj => h j (List.mem_cons_of_mem _ hj)).trans ?_
    rw [cellsAnd_zero]
    exact cellGet_cellPut_other _ _ _ _ (h k List.mem_cons_self)

/-- The kinds of the slots stand. -/
theorem slotKind_cleared (l : List Nat) (b : Bank) (j : Nat) : slotKind (bankCleared l b) j = slotKind b j :=
  cellGet_cleared l b.cells fun _ _ => by omega

/-- So do the slots not voided. -/
theorem slotBytes_cleared {l : List Nat} {j : Nat} (hj : j ∉ l) (b : Bank) : slotBytes (bankCleared l b) j = slotBytes b j := by
  unfold slotBytes cellsRead
  refine List.map_congr_left fun i hi => cellGet_cleared l b.cells fun x hx => ?_
  have hlt := List.mem_range.mp hi
  have hne : x ≠ j := fun h => hj (h ▸ hx)
  omega

/-- The committed slots of a bank stand in order. -/
theorem regionSlots_sorted {b : Bank} (h : cellsWf b.cells = true) : (regionSlots b).Pairwise (· < ·) := by
  have hcells : ∀ {m : List Host.Cell} {lo : Nat}, cellsFrom lo m = true → (∀ j ∈ m.filterMap committedAt, lo ≤ 32 * j + 31)
      ∧ (m.filterMap committedAt).Pairwise (· < ·) := by
    intro m
    induction m with
    | nil => exact fun _ => ⟨nofun, List.Pairwise.nil⟩
    | cons c m ih =>
      intro lo h
      simp only [cellsFrom, Bool.and_eq_true, decide_eq_true_eq] at h
      obtain ⟨⟨hle, -⟩, hm⟩ := h
      obtain ⟨hlow, hsorted⟩ := ih hm
      rw [List.filterMap_cons]
      cases hc : committedAt c with
      | none => exact ⟨fun j hj => by have := hlow j hj; omega, hsorted⟩
      | some i =>
        have hi := committedAt_some hc
        refine ⟨fun j hj => ?_, List.pairwise_cons.mpr ⟨fun j hj => ?_, hsorted⟩⟩
        · rcases List.mem_cons.mp hj with rfl | hj
          · omega
          · have := hlow j hj
            omega
        · have := hlow j hj
          omega
  exact (hcells h).2

/-- The slots voided for an incomplete account: its header and its lines. -/
def accountSlots (b : Bank) (h : Nat) : List Nat := h :: lineSlots b h

section
variable {b : Bank} {hs : List Nat} {h : Nat} (hw : cellsWf b.cells = true) (hh : headSlots b = hs ++ [h])
include hw hh

/-- A header before the last is not voided with it. -/
theorem notMem_accountSlots {j : Nat} (hj : j ∈ hs) : j ∉ accountSlots b h := by
  have hnodup : (hs ++ [h]).Nodup := by
    rw [← hh]
    exact ((regionSlots_sorted hw).imp fun hlt => Nat.ne_of_lt hlt).filter _
  have hhead : j ∈ headSlots b := hh ▸ List.mem_append_left _ hj
  have hkind : slotKind b j = 0x41 := of_decide_eq_true (List.mem_filter.mp hhead).2
  intro hmem
  rcases List.mem_cons.mp hmem with rfl | hline
  · exact (List.nodup_append.mp hnodup).2.2 j hj j (List.mem_singleton_self j) rfl
  · have hk := (List.mem_filter.mp hline).2
    rw [Bool.and_eq_true, decide_eq_true_eq, hkind] at hk
    exact absurd hk.1 (by decide)

/-- The headers before it are left. -/
theorem headSlots_cleared : headSlots (bankCleared (accountSlots b h) b) = hs := by
  have hleft : headSlots (bankCleared (accountSlots b h) b) = (headSlots b).filter (fun j => j ∉ accountSlots b h) := by
    unfold headSlots
    rw [regionSlots_cleared _ hw, List.filter_filter, List.filter_filter]
    refine List.filter_congr fun j _ => ?_
    rw [slotKind_cleared, Bool.and_comm]
  rw [hleft, hh, List.filter_append, List.filter_eq_self.mpr fun j hj => decide_eq_true (notMem_accountSlots hw hh hj),
    List.filter_cons_of_neg (by simp [accountSlots]), List.filter_nil, List.append_nil]

/-- Of the lines behind a header before it those before it are left. -/
theorem lineSlots_cleared (g : Nat) :
    lineSlots (bankCleared (accountSlots b h) b) g = (lineSlots b g).filter (fun j => decide (j < h)) := by
  have hhead : h ∈ headSlots b := hh ▸ List.mem_append_right _ (List.mem_singleton_self h)
  have hkind : slotKind b h = 0x41 := of_decide_eq_true (List.mem_filter.mp hhead).2
  unfold lineSlots
  rw [regionSlots_cleared _ hw, List.filter_filter, List.filter_filter]
  refine List.filter_congr fun j hj => ?_
  rw [slotKind_cleared]
  by_cases hk : slotKind b j = 0x42
  · have hne : j ≠ h := fun he => by
      rw [he, hkind] at hk
      exact absurd hk (by decide)
    have hmem : j ∈ accountSlots b h ↔ h < j := by
      simp [accountSlots, lineSlots, hne, hj, hk]
    have hiff : j ∉ accountSlots b h ↔ j < h := by
      rw [hmem]
      omega
    rw [decide_eq_decide.mpr hiff, Bool.and_comm]
  · rw [decide_eq_false hk]
    simp

/-- The region with the incomplete account voided has no other incomplete one. -/
theorem region_cleared (hprev : ∀ hs' g, hs = hs' ++ [g] →
      linesWanted b g ≤ ((lineSlots b g).filter (fun j => decide (j < h))).length) :
    completeHeaders (bankCleared (accountSlots b h) b) = hs.map (slotRecord b) := by
  have hheads := headSlots_cleared hw hh
  have hrecord : hs.map (slotRecord (bankCleared (accountSlots b h) b)) = hs.map (slotRecord b) :=
    List.map_congr_left fun j hj => by rw [slotRecord, slotBytes_cleared (notMem_accountSlots hw hh hj), slotRecord]
  rcases List.eq_nil_or_concat hs with hnil | ⟨hs', g, hlast⟩
  · rw [(region_bare (hheads.trans hnil)).2.1, hnil]
    rfl
  · rw [List.concat_eq_append] at hlast
    have hg : g ∉ accountSlots b h := notMem_accountSlots hw hh (hlast ▸ List.mem_append_right _ (List.mem_singleton_self g))
    have hwant : linesWanted (bankCleared (accountSlots b h) b) g ≤ (lineSlots (bankCleared (accountSlots b h) b) g).length := by
      rw [lineSlots_cleared hw hh, linesWanted, slotBytes_cleared hg]
      exact hprev hs' g hlast
    rw [(region_complete (hheads.trans hlast) hwant).2.1, hheads, hrecord]

end

end Sys2Proof.Safety
end

