-- ==== Proofs/ScanResumes.lean ====
section
/-! PROOFS. The recovery scan of an OPEN and of a CLOSING bank (R154, R156, R157, R164, R169, R176; O15). -/

namespace Sys2Proof.Safety

open Sys2Proof.Machine

/-! ## The engine takes up a CLOSING bank (R176) -/

/-- The engine that takes up a bank with statements complete. -/
def regionResumed (k : BankId) (b : Bank) (hs : List Nat) (done : Bool) (g : Engine) : Engine := { g with
  state := .computing, bank := k, writing := none, statements := hs.length, lines := (hs.map (linesWanted b)).sum, omitted := 0
  control := (hs.map (fun j => fld (slotBytes b j) 24 4)).sum, truncated := false, closeDone := done }

/-- The engine takes up a bank by its complete headers. -/
theorem resumeEngine_eq {k : BankId} {s : State} {b : Bank} {hs : List Nat}
    (h : completeHeaders (bank s k) = hs.map (slotRecord b)) (hf : s.store.fault = false) : resumeEngine k s
      = if (closeSlot (bank s k)).isSome then
          joinItem (.header k .closed) { s with engine := regionResumed k b hs (closeSlot (bank s k)).isSome s.engine }
        else { s with engine := regionResumed k b hs (closeSlot (bank s k)).isSome s.engine } := by
  have hsum {i n : Nat} (hi : i + n ≤ 31) :
      ((hs.map (slotRecord b)).map (fun r => fld r.2 i n)).sum = (hs.map (fun j => fld (slotBytes b j) i n)).sum := by
    rw [List.map_map]
    exact congrArg List.sum (List.map_congr_left fun j _ => fld_take hi (slotBytes b j))
  unfold resumeEngine
  dsimp only
  rw [h, hsum (by decide), hsum (by decide), List.length_map]
  generalize (closeSlot (bank s k)).isSome = done
  rw [hf, Bool.not_false, Bool.and_true]
  rfl

/-- The state with items queued on an idle path. -/
def queued (l : List StoreItem) (s : State) : State :=
  { s with store.queue := l, store.path := if l = [] then .idle else .append }

/-- With nothing queued an idle path stands. -/
theorem queued_nil {s : State} (hq : s.store.queue = []) (hp : s.store.path = .idle) : queued [] s = s := by
  unfold queued
  rw [if_pos rfl, ← hq, ← hp]

/-- An item joins an idle path. -/
theorem joinItem_queued {s : State} (hq : s.store.queue = []) (hp : s.store.path = .idle) (x : StoreItem) :
    joinItem x s = queued [x] s := by
  unfold joinItem queued
  rw [hq, if_pos hp]
  rfl

/-- A region read: its bank with the append point of its statements, and the engine. -/
def regionRead (k : BankId) (m : Nat) (cells : List Host.Cell) (hs : List Nat) (resume : Nat) (done : Bool) (t : State) : State :=
  { t with
    store := (setBank t k { bank t k with cells := cells, stmtAppend := m }).store
    engine := { regionResumed k (bank t k) hs done t.engine with resume := resume } }

section
variable {t : State} {k : BankId} {m : Nat} (hf : t.store.fault = false) (hq : t.store.queue = []) (hp : t.store.path = .idle)
  (h1 : 16384 ≤ m) (h2 : m ≤ 32767) (hslots : ∀ j, 16384 ≤ j → j < m → slotState (bank t k) j ≠ 0xFF)
  (he : slotErased (bank t k) m = true)

section
include h1 h2 hslots he

/-- The walk of a region without a torn slot. -/
theorem walkRegion_clean (vs : List Byte) : walkRegion k vs t
    = if (closeSlot (bank t k)).isSome then resumeEngine k (setBank t k { bank t k with stmtAppend := m })
      else resumeEngine k (voidSlots k (incomplete (bank t k)) vs
        { setBank t k { bank t k with stmtAppend := m } with engine.resume := resumePoint (bank t k) }) := by
  unfold walkRegion
  rw [walk_clean he vs 16384 16384 h1 (by omega) hslots]
  dsimp only
  rw [bank_setBank]
  rfl

end

section
include hf hq hp

/-- The engine takes up a bank without a CLOSE record. -/
theorem resumeEngine_opens {cells : List Host.Cell} {hs : List Nat} {resume : Nat}
    (hheads : completeHeaders { bank t k with cells := cells } = hs.map (slotRecord (bank t k)))
    (hc : closeSlot { bank t k with cells := cells } = none) :
    resumeEngine k { setBank t k { bank t k with cells := cells, stmtAppend := m } with engine.resume := resume }
      = queued [] (regionRead k m cells hs resume false t) := by
  have hbank : bank { setBank t k { bank t k with cells := cells, stmtAppend := m } with engine.resume := resume } k
      = { bank t k with cells := cells, stmtAppend := m } := by cases k <;> rfl
  rw [resumeEngine_eq (b := bank t k) (hs := hs) (by rw [hbank]; exact hheads) (by cases k <;> exact hf), hbank,
    show closeSlot { bank t k with cells := cells, stmtAppend := m } = none from hc]
  refine (if_neg Bool.false_ne_true).trans (Eq.trans ?_ (queued_nil ?_ ?_).symm)
  · cases k <;> rfl
  · cases k <;> exact hq
  · cases k <;> exact hp

/-- The engine takes up a bank with its CLOSE record, behind which CLOSED is programmed. -/
theorem resumeEngine_closes {hs : List Nat} (hheads : completeHeaders (bank t k) = hs.map (slotRecord (bank t k)))
    (hc : (closeSlot (bank t k)).isSome = true) : resumeEngine k (setBank t k { bank t k with stmtAppend := m })
      = queued [.header k .closed] (regionRead k m (bank t k).cells hs t.engine.resume true t) := by
  rw [resumeEngine_eq (b := bank t k) (hs := hs) (by rw [bank_setBank]; exact hheads) (by simpa using hf), bank_setBank,
    show (closeSlot { bank t k with stmtAppend := m }).isSome = true from hc, if_pos rfl, joinItem_queued]
  · cases k <;> rfl
  · cases k <;> exact hq
  · cases k <;> exact hp

include h1 h2 hslots he

/-- A region without a CLOSE record, nothing of it incomplete. -/
theorem walkRegion_opens {hs : List Nat} {resume : Nat} (hinc : incomplete (bank t k) = [])
    (hheads : completeHeaders (bank t k) = hs.map (slotRecord (bank t k))) (hresume : resumePoint (bank t k) = resume)
    (hc : ∀ j ∈ regionSlots (bank t k), slotKind (bank t k) j ≠ 0x43) (vs : List Byte) :
    walkRegion k vs t = queued [] (regionRead k m (bank t k).cells hs resume false t) := by
  have hclose := closeSlot_none hc
  rw [walkRegion_clean h1 h2 hslots he, hclose, hinc, hresume]
  exact (if_neg Bool.false_ne_true).trans (resumeEngine_opens hf hq hp hheads hclose)

/-- A region with a CLOSE record. -/
theorem walkRegion_closes {hs : List Nat} (hheads : completeHeaders (bank t k) = hs.map (slotRecord (bank t k)))
    (hc : ∃ j ∈ regionSlots (bank t k), slotKind (bank t k) j = 0x43) (vs : List Byte) : walkRegion k vs t
      = queued [.header k .closed] (regionRead k m (bank t k).cells hs t.engine.resume true t) := by
  have hclose := closeSlot_some hc
  rw [walkRegion_clean h1 h2 hslots he, hclose, if_pos rfl]
  exact resumeEngine_closes hf hq hp hheads hclose

/-- A region whose last account is incomplete: its slots are voided. -/
theorem walkRegion_voids (hw : cellsWf (bank t k).cells = true) {hs : List Nat} {h : Nat} (hh : headSlots (bank t k) = hs ++ [h])
    (hshort : (lineSlots (bank t k) h).length < linesWanted (bank t k) h)
    (hprev : ∀ hs' g, hs = hs' ++ [g] →
      linesWanted (bank t k) g ≤ ((lineSlots (bank t k) g).filter (fun j => decide (j < h))).length)
    (hc : ∀ j ∈ regionSlots (bank t k), slotKind (bank t k) j ≠ 0x43) : walkRegion k [] t
      = queued [] (regionRead k m (slotsCleared (accountSlots (bank t k) h) (bank t k).cells) hs
          (fld (slotBytes (bank t k) h) 1 4) false t) := by
  obtain ⟨hinc, hresume⟩ := region_incomplete hh hshort
  have hbank : bank { setBank t k { bank t k with stmtAppend := m } with engine.resume := fld (slotBytes (bank t k) h) 1 4 } k
      = { bank t k with stmtAppend := m } := by cases k <;> rfl
  have hvoid : voidSlots k (accountSlots (bank t k) h) []
        { setBank t k { bank t k with stmtAppend := m } with engine.resume := fld (slotBytes (bank t k) h) 1 4 }
      = { setBank t k { bank t k with cells := slotsCleared (accountSlots (bank t k) h) (bank t k).cells, stmtAppend := m } with
          engine.resume := fld (slotBytes (bank t k) h) 1 4 } := by
    rw [voidSlots_eq k _ [] _ (by cases k <;> exact hf) nofun, slotsVoided_cleared, hbank]
    cases k <;> rfl
  have hclosed : closeSlot (bankCleared (accountSlots (bank t k) h) (bank t k)) = none := by
    refine closeSlot_none fun j hj => ?_
    rw [regionSlots_cleared _ hw] at hj
    rw [slotKind_cleared]
    exact hc j (List.mem_filter.mp hj).1
  rw [walkRegion_clean h1 h2 hslots he, closeSlot_none hc, hinc, hresume]
  refine (if_neg Bool.false_ne_true).trans ((congrArg (resumeEngine k) hvoid).trans ?_)
  exact resumeEngine_opens hf hq hp (region_cleared hw hh hprev) hclosed

end

end

/-! ## The scan behind the headers (R155, R156) -/

/-- The bank that the scan has walked, by the state that its header gives and the append point found. -/
def bankWalked (n : Nat) (b : Bank) : Bank := { b with state := bankStateOf b, append := n }

/-- The state with the headers read and the journal of one bank walked. -/
def scanWalked (k : BankId) (n : Nat) (s : State) : State := setBank (scanHeaders s) k (bankWalked n (bank s k))

section
variable (k : BankId) (n : Nat) (s : State)

/-- The bank walked. -/
theorem bank_scanWalked : bank (scanWalked k n s) k = bankWalked n (bank s k) := bank_setBank ..

/-- The other bank, by the state that its header gives. -/
theorem bank_scanWalked_other :
    bank (scanWalked k n s) (otherBank k) = { bank s (otherBank k) with state := bankStateOf (bank s (otherBank k)) } := by
  cases k <;> rfl

/-- What else the scan has left. -/
theorem scanWalked_keeps : (scanWalked k n s).link = s.link ∧ (scanWalked k n s).engine = s.engine
    ∧ (scanWalked k n s).store.queue = s.store.queue ∧ (scanWalked k n s).store.path = s.store.path
    ∧ (scanWalked k n s).store.fault = s.store.fault ∧ (scanWalked k n s).schedule = s.schedule := by
  cases k <;> exact ⟨rfl, rfl, rfl, rfl, rfl, rfl⟩

end

/-- The banks as the headers give them. -/
theorem bank_scanHeaders (k : BankId) (s : State) :
    bank (scanHeaders s) k = { bank s k with state := bankStateOf (bank s k) } := by
  cases k <;> rfl

/-- What breaks the law of R146, told of a bank and the other. -/
theorem lawBroken_banks {s : State} (k : BankId) (h : lawBroken (scanHeaders s) = true) :
    (bankStateOf (bank s k) = .open_ ∧ bankStateOf (bank s (otherBank k)) = .open_)
    ∨ ((bankStateOf (bank s k) = .closing ∨ bankStateOf (bank s k) = .closed)
      ∧ (bankStateOf (bank s (otherBank k)) = .closing ∨ bankStateOf (bank s (otherBank k)) = .closed)) := by
  have hbanks : (bankStateOf s.store.a = .open_ ∧ bankStateOf s.store.b = .open_)
      ∨ ((bankStateOf s.store.a = .closing ∨ bankStateOf s.store.a = .closed)
        ∧ (bankStateOf s.store.b = .closing ∨ bankStateOf s.store.b = .closed)) := by
    simp only [lawBroken, Bool.or_eq_true, Bool.and_eq_true, decide_eq_true_eq] at h
    exact h
  cases k with
  | a => exact hbanks
  | b => exact hbanks.imp And.symm And.symm

/-- One bank is walked, by a journal without a torn slot, and the other is not. -/
structure OneWalked (k : BankId) (n : Nat) (s : State) : Prop where
  walks  : bankStateOf (bank s k) = .open_ ∨ bankStateOf (bank s k) = .closing
  stands : bankStateOf (bank s (otherBank k)) ≠ .open_ ∧ bankStateOf (bank s (otherBank k)) ≠ .closing
  first  : 1 ≤ n
  last   : n ≤ 16383
  slots  : ∀ j, 1 ≤ j → j < n → slotState (bank s k) j ≠ 0xFF
  erased : slotErased (bank s k) n = true

section
variable {k : BankId} {n : Nat} {s : State} (h : OneWalked k n s)
include h

/-- The two walks of the scan. -/
theorem walkBanks_one (vs : List Byte) : walkBank .b (walkBank .a vs (scanHeaders s)).2 (walkBank .a vs (scanHeaders s)).1
    = (scanWalked k n s, vs) := by
  have hwalk : walkBank k vs (scanHeaders s) = (scanWalked k n s, vs) := by
    have hbank := bank_scanHeaders k s
    rw [walkBank_walks (by rw [hbank]; exact h.walks), walkJournal_clean h.first h.last, hbank]
    · rfl
    · rw [hbank]
      exact h.slots
    · rw [hbank]
      exact h.erased
  have hskip (t : State) (ht : bank t (otherBank k) = { bank s (otherBank k) with state := bankStateOf (bank s (otherBank k)) }) :
      walkBank (otherBank k) vs t = (t, vs) :=
    walkBank_skips (by rw [ht]; exact fun hw => hw.elim h.stands.1 h.stands.2) vs
  cases k with
  | a =>
    rw [hwalk]
    exact hskip _ (bank_scanWalked_other .a n s)
  | b =>
    rw [show walkBank .a vs (scanHeaders s) = (scanHeaders s, vs) from hskip _ (bank_scanHeaders .a s)]
    exact hwalk

/-- The scan from there on, where the other bank is not CLOSED beside a CLOSING one. -/
theorem recoveryScan_one (hop : s.link.op = .starting) (hscan : s.store.scan = .reading)
    (hc : bankStateOf (bank s k) = .open_ ∨ bankStateOf (bank s (otherBank k)) ≠ .closed) (vs : List Byte) :
    recoveryScan vs s = scanAdvance { scanBanks vs (scanWalked k n s) with store.scan := .waiting } := by
  have hlaw : lawBroken (scanHeaders s) = false := by
    refine Bool.eq_false_iff.mpr fun hbroken => ?_
    rcases lawBroken_banks k hbroken with ⟨-, ho⟩ | ⟨hpast, hclosing | hclosed⟩
    · exact h.stands.1 ho
    · exact h.stands.2 hclosing
    · rcases hc with ho | hne
      · rw [ho] at hpast
        exact hpast.elim BankState.noConfusion BankState.noConfusion
      · exact hne hclosed
  rw [recoveryScan_lawful hop hscan hlaw]
  dsimp only
  rw [walkBanks_one h]

end

/-! ## The erases that the scan restarts (R157) -/

/-- A bank as the scan leaves it where it is not walked: by its header, its erase begun again. -/
def bankRestarted (b : Bank) : Bank :=
  { b with state := bankStateOf b, page := if bankStateOf b = .erasing then some 255 else b.page }

/-- Of two banks the one that is ERASING is erased again from its last page. -/
theorem restartErases_one {k : BankId} {t : State} (hk : (bank t k).state ≠ .erasing) (hf : t.store.fault = false) :
    restartErase .b (restartErase .a t) = setBank t (otherBank k) { bank t (otherBank k) with
      page := if (bank t (otherBank k)).state = .erasing then some 255 else (bank t (otherBank k)).page } := by
  have hone (i : BankId) : restartErase i t = setBank t i { bank t i with
      page := if (bank t i).state = .erasing then some 255 else (bank t i).page } := by
    unfold restartErase
    dsimp only
    rw [hf]
    split
    · next herasing =>
      have hstate : (bank t i).state = .erasing := by simpa using herasing
      rw [if_pos hstate]
    · next hother =>
      have hstate : (bank t i).state ≠ .erasing := by simpa using hother
      rw [if_neg hstate]
      cases i <;> rfl
  cases k with
  | a => rw [restartErase_rests (i := .a) hk]; exact hone .b
  | b =>
    rw [hone .a]
    exact restartErase_rests (i := .b) hk

/-! ## The scan of an OPEN bank (R154, R156, R164, R169) -/

/-- The state with the banks read, the lock and the rates. -/
def scanRead (k : BankId) (x : Bank) (rates : List Nat) (s : State) : State :=
  { setBank (setBank s (otherBank k) (bankRestarted (bank s (otherBank k)))) k x with
    store.lock := if lockHolds s.store.identity then .effective else .none
    store.scan := .waiting
    engine.tariff := rates }

/-- The spend list of a journal's PURCHASE records. -/
def spendOf (js : List (List Byte)) : List (Nat × Nat) :=
  js.foldl (fun l r => if recKind r = rkPurchase then addSpend l (fld r 5 4) (fld r 18 2) else l) []

/-- The journal minute of an OPEN bank beside another. -/
def journalMinute (x other : Bank) : Nat :=
  match (journal x).getLast? with
  | some r => recMinute r
  | none => if openWritten x then openMinuteOf x else closeMinuteOf other

/-- The state with an OPEN bank read. -/
def openRead (k : BankId) (n : Nat) (s : State) : State :=
  { scanRead k (bankWalked n (bank s k)) (ratesOf (bankWalked n (bank s k))) s with
    store.spend := spendOf (journal (bankWalked n (bank s k)))
    store.minute := journalMinute (bankWalked n (bank s k)) (bank s (otherBank k))
    store.lowMark := decide (16384 - n ≤ 256)
    engine.limitTaken := overdueSet (bank s k) }

/-- The state with an OPEN bank walked and its journal read. -/
def openScanned (k : BankId) (n : Nat) (s : State) : State :=
  { scanWalked k n s with
    store.spend := spendOf (journal (bankWalked n (bank s k)))
    store.minute := journalMinute (bankWalked n (bank s k)) (bank s (otherBank k))
    store.lowMark := decide (16384 - n ≤ 256)
    engine.limitTaken := overdueSet (bank s k) }

section
variable {k : BankId} {n : Nat} {s : State} (ho : bankStateOf (bank s k) = .open_)
  (hb : bankStateOf (bank s (otherBank k)) ≠ .open_ ∧ bankStateOf (bank s (otherBank k)) ≠ .closing) (hq : s.store.queue = [])
include ho hb

/-- The bank walked is the OPEN one, and none is CLOSING. -/
theorem bankIn_scanWalked : openBank (scanWalked k n s) = some k ∧ bankIn (scanWalked k n s) .closing = none := by
  have hbank : (bank (scanWalked k n s) k).state = .open_ := by
    rw [bank_scanWalked]
    exact ho
  have hother : (bank (scanWalked k n s) (otherBank k)).state = bankStateOf (bank s (otherBank k)) := by
    rw [bank_scanWalked_other]
  exact ⟨bankIn_some hbank (by rw [hother]; exact hb.1),
    bankIn_none_of (k := k) (by rw [hbank]; decide) (by rw [hother]; exact hb.2)⟩

include hq

/-- The journal of the OPEN bank read. -/
theorem scanOpen_open : scanOpen (scanWalked k n s) = openScanned k n s := by
  obtain ⟨-, -, hqueue, -, -, -⟩ := scanWalked_keeps k n s
  obtain ⟨hopen, -⟩ := bankIn_scanWalked (n := n) ho hb
  have hfree {t : State} (hst : openBank t = some k) (htq : t.store.queue = []) (htb : bank t k = bankWalked n (bank s k)) :
      freeSlots t = 16384 - n := by
    rw [freeSlots_open hst (by rw [htq]; rfl), htb, htq]
    rfl
  unfold scanOpen
  rw [hopen]
  unfold readOpenBank
  dsimp only
  rw [bank_scanWalked, bank_scanWalked_other, hfree (by exact hopen) (by exact hqueue.trans hq) (by exact bank_scanWalked k n s)]
  rfl

/-- The stages of the scan behind an OPEN bank's journal, short of a close completed. -/
theorem scanBanks_open (hf : s.store.fault = false) (vs : List Byte) : ∃ t, scanBanks vs (scanWalked k n s) = completeClose t
    ∧ { t with store.scan := .waiting } = openRead k n s ∧ t.store.fault = false ∧ bank t k = bankWalked n (bank s k)
    ∧ (bank t (otherBank k)).state = bankStateOf (bank s (otherBank k)) := by
  obtain ⟨hopen, hclosing⟩ := bankIn_scanWalked (n := n) ho hb
  have hbank : bank (openScanned k n s) k = bankWalked n (bank s k) := (bank_congr rfl rfl k).trans (bank_scanWalked k n s)
  have hother : bank (openScanned k n s) (otherBank k)
      = { bank s (otherBank k) with state := bankStateOf (bank s (otherBank k)) } :=
    (bank_congr rfl rfl (otherBank k)).trans (bank_scanWalked_other k n s)
  have hfault : (openScanned k n s).store.fault = false := by
    obtain ⟨-, -, -, -, hwf, -⟩ := scanWalked_keeps k n s
    exact hwf.trans hf
  have htariff : scanTariff (openScanned k n s) = ratesOf (bankWalked n (bank s k)) := by
    unfold scanTariff
    rw [show openBank (openScanned k n s) = some k from hopen]
    exact congrArg ratesOf hbank
  have hrestart := restartErases_one (k := k)
    (t := { openScanned k n s with engine.tariff := ratesOf (bankWalked n (bank s k)) })
    (by rw [show bank { openScanned k n s with engine.tariff := ratesOf (bankWalked n (bank s k)) } k = bankWalked n (bank s k)
          from hbank, bankWalked, ho]
        exact BankState.noConfusion) hfault
  rw [show bank { openScanned k n s with engine.tariff := ratesOf (bankWalked n (bank s k)) } (otherBank k)
    = { bank s (otherBank k) with state := bankStateOf (bank s (otherBank k)) } from hother] at hrestart
  unfold scanBanks
  rw [scanOpen_open ho hb hq]
  dsimp only
  rw [htariff, scanClosing_none (by exact hclosing), hrestart]
  refine ⟨_, rfl, ?_, ?_, ?_, ?_⟩
  · cases k <;> rfl
  · cases k <;> exact hf
  · cases k <;> rfl
  · cases k <;> rfl

end

/-- What stands beside the banks read. -/
theorem openRead_keeps (k : BankId) (n : Nat) (s : State) : (openRead k n s).link = s.link
    ∧ (openRead k n s).schedule = s.schedule ∧ (openRead k n s).store.queue = s.store.queue
    ∧ (openRead k n s).store.path = s.store.path ∧ (openRead k n s).store.fault = s.store.fault
    ∧ (openRead k n s).store.scan = .waiting ∧ (openRead k n s).engine.state = s.engine.state := by
  cases k <;> exact ⟨rfl, rfl, rfl, rfl, rfl, rfl, rfl⟩

/-- The banks read. -/
theorem bank_openRead (k : BankId) (n : Nat) (s : State) : bank (openRead k n s) k = bankWalked n (bank s k)
    ∧ bank (openRead k n s) (otherBank k) = bankRestarted (bank s (otherBank k)) := by
  cases k <;> exact ⟨rfl, rfl⟩

section
variable {k : BankId} {n : Nat} {s : State} (h : OneWalked k n s) (ho : bankStateOf (bank s k) = .open_)
  (hop : s.link.op = .starting) (hscan : s.store.scan = .reading) (hq : s.store.queue = []) (hp : s.store.path = .idle)
  (hf : s.store.fault = false)
include h ho hop hscan hq hp hf

omit hp in
/-- The scan of an OPEN bank, by its close minute. -/
theorem recoveryScan_open (vs : List Byte) : recoveryScan vs s = scanAdvance (if closeWritten (bank s k) = true
      ∧ (bankStateOf (bank s (otherBank k)) = .free ∨ bankStateOf (bank s (otherBank k)) = .erasing) then
        joinItem (.header k .closing) (openRead k n s)
      else openRead k n s) := by
  obtain ⟨t, hbanks, hread, hfault, hk, hother⟩ := scanBanks_open (n := n) ho h.stands hq hf vs
  have hopen : openBank t = some k := bankIn_some (by rw [hk]; exact ho) (by rw [hother]; exact h.stands.1)
  have hclose : completeClose t = if closeWritten (bank s k) = true
      ∧ (bankStateOf (bank s (otherBank k)) = .free ∨ bankStateOf (bank s (otherBank k)) = .erasing) then
        joinItem (.header k .closing) t else t := by
    unfold completeClose
    rw [hopen]
    dsimp only
    rw [hother, hk, hfault]
    refine if_congr ?_ rfl rfl
    rw [show closeWritten (bankWalked n (bank s k)) = closeWritten (bank s k) from rfl, Bool.not_false, Bool.and_true,
      Bool.and_eq_true, Bool.or_eq_true, decide_eq_true_eq, decide_eq_true_eq]
  rw [recoveryScan_one h hop hscan (.inl ho), hbanks, hclose, ← hread]
  congr 1
  split
  · rfl
  · rfl

/-- An OPEN bank short of a close ends STARTING. -/
theorem exec_scan_open (h12 : closeWritten (bank s k) = false) (hw : s.link.waiting = []) (he : s.engine.state = .idle)
    (ha : s.schedule.alertInput = false) (vs : List Byte) :
    exec (.recoveryScanEnd vs) s = .next (kick (startLow (startNoticed (openRead k n s)))) := by
  obtain ⟨hlink, hschedule, hqueue, hpath, -, hwaiting, hengine⟩ := openRead_keeps k n s
  obtain ⟨hbank, hother⟩ := bank_openRead k n s
  obtain ⟨l, hlow, hlw, -⟩ := startLow_link (startNoticed (openRead k n s))
  have hclosing : bankIn (openRead k n s) .closing = none :=
    bankIn_none_of (k := k) (by rw [hbank, show (bankWalked n (bank s k)).state = .open_ from ho]; decide)
      (by rw [hother]; exact h.stands.2)
  show Host.Outcome.next (finish (recoveryScan vs s)) = _
  rw [recoveryScan_open h ho hop hscan hq hf, if_neg (by rw [h12]; exact fun hc => Bool.false_ne_true hc.1),
    scanAdvance_ends (by rw [hlink, hop]) hwaiting (hqueue.trans hq) hclosing,
    finishStart_rests (by rw [hschedule, ha]) (hqueue.trans hq) (hengine.trans he) (hpath.trans hp), finish_of_none]
  rw [hlow]
  exact hlw.trans ((notice_waiting ..).trans (by rw [hlink, hw]))

/-- An OPEN bank whose close minute stands is to be CLOSING. -/
theorem exec_scan_completes (h12 : closeWritten (bank s k) = true) (hw : s.link.waiting = [])
    (hbeside : bankStateOf (bank s (otherBank k)) = .free ∨ bankStateOf (bank s (otherBank k)) = .erasing) (vs : List Byte) :
    exec (.recoveryScanEnd vs) s = .next (kick (queued [.header k .closing] (openRead k n s))) := by
  obtain ⟨hlink, -, hqueue, hpath, hfault, hwaiting, -⟩ := openRead_keeps k n s
  have hwaits : ScanWaits (queued [.header k .closing] (openRead k n s)) :=
    ⟨(congrArg Link.op hlink).trans hop, hwaiting, hfault.trans hf⟩
  show Host.Outcome.next (finish (recoveryScan vs s)) = _
  rw [recoveryScan_open h ho hop hscan hq hf, if_pos ⟨h12, hbeside⟩, joinItem_queued (hqueue.trans hq) (hpath.trans hp),
    scanAdvance_awaits hwaits rfl, finish_of_none]
  exact (congrArg Link.waiting hlink).trans hw

end

/-! ## The scan of a CLOSING bank (R157, R176) -/

/-- The writing of the other bank leaves a bank. -/
theorem bank_setBank_otherBank (s : State) (k : BankId) (v : Bank) : bank (setBank s (otherBank k) v) k = bank s k := by
  cases k <;> rfl

/-- The state with a CLOSING bank walked and the rates read. -/
def closingScanned (k : BankId) (n : Nat) (s : State) : State :=
  { scanWalked k n s with engine.tariff := ratesOf (bankWalked n (bank s k)) }

/-- The engine that takes up a bank looks at its bytes alone. -/
theorem regionResumed_walked (k : BankId) (n : Nat) (b : Bank) (hs : List Nat) (done : Bool) (g : Engine) :
    regionResumed k (bankWalked n b) hs done g = regionResumed k b hs done g := by
  have hslots (j : Nat) : slotBytes (bankWalked n b) j = slotBytes b j := rfl
  unfold regionResumed linesWanted
  simp only [hslots]

/-- The region read behind the walk. -/
theorem regionRead_scanned (k : BankId) (n m : Nat) (cells : List Host.Cell) (hs : List Nat) (resume : Nat) (done : Bool) (s : State) :
    regionRead k m cells hs resume done (closingScanned k n s) = { closingScanned k n s with
      store := (setBank (closingScanned k n s) k { bankWalked n (bank s k) with cells := cells, stmtAppend := m }).store
      engine := { regionResumed k (bank s k) hs done
        { s.engine with tariff := ratesOf (bankWalked n (bank s k)) } with resume := resume } } := by
  have hbank : bank (closingScanned k n s) k = bankWalked n (bank s k) := (bank_congr rfl rfl k).trans (bank_scanWalked k n s)
  have hengine : (closingScanned k n s).engine = { s.engine with tariff := ratesOf (bankWalked n (bank s k)) } := by
    cases k <;> rfl
  unfold regionRead
  rw [hbank, regionResumed_walked, hengine]

/-- The state with a CLOSING bank read, its region with it. -/
def closingRead (k : BankId) (n m : Nat) (cells : List Host.Cell) (hs : List Nat) (resume : Nat) (done : Bool) (s : State) : State :=
  { scanRead k { bankWalked n (bank s k) with cells := cells, stmtAppend := m } (ratesOf (bankWalked n (bank s k))) s with
    engine := { regionResumed k (bank s k) hs done
      { s.engine with tariff := ratesOf (bankWalked n (bank s k)) } with resume := resume } }

section
variable {k : BankId} {n m : Nat} {s : State} (h : OneWalked k n s) (hc : bankStateOf (bank s k) = .closing)
  (hop : s.link.op = .starting) (hscan : s.store.scan = .reading) (hf : s.store.fault = false)
  (hb : bankStateOf (bank s (otherBank k)) = .free ∨ bankStateOf (bank s (otherBank k)) = .erasing)
  {cells : List Host.Cell} {hs : List Nat} {resume : Nat} {done : Bool} {l : List StoreItem} {vs : List Byte}
  (hregion : walkRegion k vs (closingScanned k n s) = queued l (regionRead k m cells hs resume done (closingScanned k n s)))
include h hc hop hscan hf hb hregion

/-- The scan of a CLOSING bank, its region walked. -/
theorem recoveryScan_closing : recoveryScan vs s = scanAdvance (queued l (closingRead k n m cells hs resume done s)) := by
  have hbank := bank_scanWalked k n s
  have hstate : (bank (scanWalked k n s) k).state = .closing := by rw [hbank]; exact hc
  have hother : (bank (scanWalked k n s) (otherBank k)).state = bankStateOf (bank s (otherBank k)) := by
    rw [bank_scanWalked_other]
  have hclosing : bankIn (scanWalked k n s) .closing = some k := bankIn_some hstate (by rw [hother]; exact h.stands.2)
  have hopen : openBank (scanWalked k n s) = none :=
    bankIn_none_of (k := k) (by rw [hstate]; decide) (by rw [hother]; exact h.stands.1)
  have htariff : scanTariff (scanWalked k n s) = ratesOf (bankWalked n (bank s k)) := by
    unfold scanTariff
    rw [hopen, hclosing]
    exact congrArg ratesOf hbank
  have hscanned : scanClosing vs (closingScanned k n s) = queued l (regionRead k m cells hs resume done (closingScanned k n s)) := by
    rw [← hregion]
    unfold scanClosing
    rw [show bankIn (closingScanned k n s) .closing = some k from hclosing]
  have hread : (bank (queued l (regionRead k m cells hs resume done (closingScanned k n s))) k).state = .closing := by
    cases k <;> exact hc
  have hbeside : (bank (queued l (regionRead k m cells hs resume done (closingScanned k n s))) (otherBank k)).state
      = bankStateOf (bank s (otherBank k)) := by cases k <;> rfl
  have hfault : (queued l (regionRead k m cells hs resume done (closingScanned k n s))).store.fault = false := by
    cases k <;> exact hf
  have hstages : restartErase .b (restartErase .a (scanClosing vs (closingScanned k n s)))
      = setBank (queued l (regionRead k m cells hs resume done (closingScanned k n s))) (otherBank k)
        { bank (queued l (regionRead k m cells hs resume done (closingScanned k n s))) (otherBank k) with
          page := if bankStateOf (bank s (otherBank k)) = .erasing then some 255
            else (bank (queued l (regionRead k m cells hs resume done (closingScanned k n s))) (otherBank k)).page } := by
    rw [hscanned, restartErases_one (k := k) (by rw [hread]; decide) hfault, hbeside]
  have hnone : openBank (restartErase .b (restartErase .a (scanClosing vs (closingScanned k n s)))) = none := by
    rw [hstages]
    refine bankIn_none_of (k := k) ?_ ?_
    · rw [bank_setBank_otherBank, hread]
      decide
    · rw [bank_setBank, hbeside]
      exact h.stands.1
  have hbanks : scanBanks vs (scanWalked k n s) = restartErase .b (restartErase .a (scanClosing vs (closingScanned k n s))) := by
    unfold scanBanks
    rw [scanOpen_none hopen]
    dsimp only
    rw [htariff]
    exact completeClose_none hnone
  rw [recoveryScan_one h hop hscan (.inr (by rcases hb with hb | hb <;> rw [hb] <;> decide)), hbanks, hstages]
  rw [regionRead_scanned]
  congr 1
  unfold queued closingRead scanRead closingScanned scanWalked scanHeaders bankRestarted bankWalked
  cases k <;> dsimp only [setBank, bank, otherBank]

end

end Sys2Proof.Safety
end

