-- ==== Proofs/ScanEnds.lean ====
section
/-! PROOFS. How the recovery scan of an OPEN and of a CLOSING bank ends, and the reset with all that follows it (R145, R146, R155 to
R159, R161, R169, R176, R189, R190; O15). -/

namespace Sys2Proof.Safety

open Sys2Proof.Machine

/-! ## The end of STARTING with a bank OPEN (R156, R190) -/

section
variable (k : BankId) (n : Nat) (s : State)

/-- The JOURNAL_LOW of an OPEN bank whose journal is low. -/
theorem startLow_openRead (ho : bankStateOf (bank s k) = .open_) (hb : bankStateOf (bank s (otherBank k)) ≠ .open_)
    (hq : s.store.queue = []) {t : State} (ht : t.store = { (openRead k n s).store with scan := .ended }) :
    startLow t = if 16384 - n ≤ 256 then
        notice nkJournalLow true (u8 1 ++ u8 (bankNum k) ++ u16 (seqOf (bank s k)) ++ u16 (16384 - n)) t
      else t := by
  obtain ⟨hbank, hother⟩ := bank_openRead k n s
  obtain ⟨-, -, hqueue, -⟩ := openRead_keeps k n s
  have hbt (i : BankId) : bank t i = bank (openRead k n s) i := bank_congr (by rw [ht]) (by rw [ht]) i
  have hopen : openBank t = some k := bankIn_some (by rw [hbt, hbank]; exact ho) (by rw [hbt, hother]; exact hb)
  have hempty : t.store.queue = [] := by
    rw [ht]
    exact hqueue.trans hq
  have hfree : freeSlots t = 16384 - n := by
    rw [freeSlots_open hopen (by rw [hempty]; rfl), hbt, hbank, hempty]
    rfl
  have hlow : t.store.lowMark = decide (16384 - n ≤ 256) := by
    rw [ht]
    cases k <;> rfl
  unfold startLow
  rw [hopen]
  dsimp only
  rw [hfree, hbt, hbank, hlow]
  exact if_congr decide_eq_true_iff rfl rfl

/-- START behind the scan of an OPEN bank. -/
theorem startBytes_openRead (hf : s.store.fault = false) : startBytes (openRead k n s)
    = u8 (causeNum s.time.cause) ++ flag s.time.coldStart ++ u8 (bankStateNum (openRead k n s).store.a.state) ++ u16 (seqOf s.store.a)
      ++ u8 (bankStateNum (openRead k n s).store.b.state) ++ u16 (seqOf s.store.b) ++ flag (lockHolds s.store.identity)
      ++ u32 s.store.identity.headId.toNat ++ [0] := by
  obtain ⟨-, -, -, -, hfault, -⟩ := openRead_keeps k n s
  have hlock : decide ((openRead k n s).store.lock = .effective) = lockHolds s.store.identity := by
    have hread : (openRead k n s).store.lock = if lockHolds s.store.identity then .effective else .none := by cases k <;> rfl
    rw [hread]
    cases lockHolds s.store.identity <;> rfl
  rw [startBytes_noFault (hfault.trans hf), hlock]
  cases k <;> rfl

end

/-! ## The end of the scan of a CLOSING bank (R157, R176) -/

/-- What stands beside the banks read. -/
theorem closingRead_keeps (k : BankId) (n m : Nat) (cells : List Host.Cell) (hs : List Nat) (resume : Nat) (done : Bool) (s : State) :
    (closingRead k n m cells hs resume done s).link = s.link ∧ (closingRead k n m cells hs resume done s).store.fault = s.store.fault
      ∧ (closingRead k n m cells hs resume done s).store.scan = .waiting := by
  cases k <;> exact ⟨rfl, rfl, rfl⟩

/-- The banks read. -/
theorem bank_closingRead (k : BankId) (n m : Nat) (cells : List Host.Cell) (hs : List Nat) (resume : Nat) (done : Bool) (s : State) :
    bank (closingRead k n m cells hs resume done s) k = { bankWalked n (bank s k) with cells := cells, stmtAppend := m }
      ∧ bank (closingRead k n m cells hs resume done s) (otherBank k) = bankRestarted (bank s (otherBank k)) := by
  cases k <;> exact ⟨rfl, rfl⟩

section
variable {k : BankId} {n m : Nat} {s : State} (h : OneWalked k n s) (hc : bankStateOf (bank s k) = .closing)
  (hop : s.link.op = .starting) (hscan : s.store.scan = .reading) (hf : s.store.fault = false) (hw : s.link.waiting = [])
  {cells : List Host.Cell} {hs : List Nat} {resume : Nat} {done : Bool} {l : List StoreItem} {vs : List Byte}
  (hregion : walkRegion k vs (closingScanned k n s) = queued l (regionRead k m cells hs resume done (closingScanned k n s)))
  (hl : l.any isAwaited = false)
include h hc hop hscan hf hw hregion hl

/-- Beside an ERASING bank the scan waits. -/
theorem exec_scan_erasing (hb : bankStateOf (bank s (otherBank k)) = .erasing) :
    exec (.recoveryScanEnd vs) s = .next (kick (queued l (closingRead k n m cells hs resume done s))) := by
  obtain ⟨hlink, hfault, hwaiting⟩ := closingRead_keeps k n m cells hs resume done s
  obtain ⟨hbank, hother⟩ := bank_closingRead k n m cells hs resume done s
  have hwaits : ScanWaits (queued l (closingRead k n m cells hs resume done s)) :=
    ⟨(congrArg Link.op hlink).trans hop, hwaiting, hfault.trans hf⟩
  have hbk (i : BankId) : bank (queued l (closingRead k n m cells hs resume done s)) i
      = bank (closingRead k n m cells hs resume done s) i := bank_congr rfl rfl i
  show Host.Outcome.next (finish (recoveryScan vs s)) = _
  rw [recoveryScan_closing h hc hop hscan hf (.inr hb) hregion,
    scanAdvance_erasing (k := k) hwaits hl (by rw [hbk, hbank]; exact hc) (by rw [hbk, hother]; exact hb), finish_of_none]
  exact (congrArg Link.waiting hlink).trans hw

/-- Beside a FREE bank its opening joins. -/
theorem exec_scan_free (hb : bankStateOf (bank s (otherBank k)) = .free)
    (hheader : ∀ a, a < 31 → cellGet cells a = cellGet (bank s k).cells a) : exec (.recoveryScanEnd vs) s
      = .next (kick { closingRead k n m cells hs resume done s with
        store.queue := l ++ openingOf k s, store.path := .append, store.minute := closeMinuteOf (bank s k) }) := by
  obtain ⟨hlink, hfault, hwaiting⟩ := closingRead_keeps k n m cells hs resume done s
  obtain ⟨hbank, hother⟩ := bank_closingRead k n m cells hs resume done s
  have hwaits : ScanWaits (queued l (closingRead k n m cells hs resume done s)) :=
    ⟨(congrArg Link.op hlink).trans hop, hwaiting, hfault.trans hf⟩
  have hbk (i : BankId) : bank (queued l (closingRead k n m cells hs resume done s)) i
      = bank (closingRead k n m cells hs resume done s) i := bank_congr rfl rfl i
  have hread {a c : Nat} (hac : a + c ≤ 31) : cellsRead cells a c = cellsRead (bank s k).cells a c := by
    unfold cellsRead
    exact List.map_congr_left fun i hi => hheader _ (by have := List.mem_range.mp hi; omega)
  have hseq : seqOf { bankWalked n (bank s k) with cells := cells, stmtAppend := m } = seqOf (bank s k) :=
    congrArg unbe (hread (by decide))
  have hclose : closeMinuteOf { bankWalked n (bank s k) with cells := cells, stmtAppend := m } = closeMinuteOf (bank s k) :=
    congrArg unbe (hread (by decide))
  have hpath : (queued l (closingRead k n m cells hs resume done s)).store.path = .idle
      ∨ (queued l (closingRead k n m cells hs resume done s)).store.path = .append := by
    unfold queued
    dsimp only
    split
    · exact .inl rfl
    · exact .inr rfl
  show Host.Outcome.next (finish (recoveryScan vs s)) = _
  rw [recoveryScan_closing h hc hop hscan hf (.inl hb) hregion,
    scanAdvance_opens (k := k) hwaits hl (by rw [hbk, hbank]; exact hc) (by rw [hbk, hother]; exact hb) hpath, finish_of_none]
  · unfold openingOf
    rw [hbk, hbank, hseq, hclose]
    rfl
  · exact (congrArg Link.waiting hlink).trans hw

end

/-! ## The state behind the scan of an OPEN bank, in its parts (R154, R156, R164, R169) -/

/-- The journal minute of an OPEN bank. -/
theorem journalMinute_eq (x other : Bank) : journalMinute x other = match (journal x).getLast? with
    | some r => fld r 1 4
    | none => if hdr x 7 ≠ 0xFF then openMinuteOf x else closeMinuteOf other := by
  unfold journalMinute
  cases (journal x).getLast? with
  | some r => rfl
  | none => exact if_congr (hdrSet_iff x 7) rfl rfl

/-- An OPEN bank read. -/
theorem openRead_eq {k : BankId} {n : Nat} {s : State} (ho : bankStateOf (bank s k) = .open_) : openRead k n s
    = (let x : Bank := { bank s k with state := .open_, append := n }
      { scanRead k x (ratesOf x) s with
        store.spend := spendOf (journal x)
        store.minute := match (journal x).getLast? with
          | some r => fld r 1 4
          | none => if hdr (bank s k) 7 ≠ 0xFF then openMinuteOf (bank s k) else closeMinuteOf (bank s (otherBank k))
        store.lowMark := decide (16384 - n ≤ 256)
        engine.limitTaken := decide (hdr (bank s k) 17 ≠ 0xFF) }) := by
  unfold openRead bankWalked
  rw [ho, journalMinute_eq]
  rfl

/-- START leaves the store but for the phase of the scan. -/
theorem startNoticed_store (s : State) : (startNoticed s).store = { s.store with scan := .ended } := (notice_store ..).1

/-- A CLOSING bank read. -/
theorem closingRead_eq {k : BankId} {n m : Nat} {cells : List Host.Cell} {hs : List Nat} {resume : Nat} {done : Bool} {s : State}
    (hc : bankStateOf (bank s k) = .closing) : closingRead k n m cells hs resume done s
      = (let t := scanRead k { bank s k with cells := cells, state := .closing, append := n, stmtAppend := m }
          (ratesOf { bank s k with state := .closing, append := n }) s
        { t with engine := { regionResumed k (bank s k) hs done t.engine with resume := resume } }) := by
  unfold closingRead bankWalked
  rw [hc]
  cases k <;> rfl

/-- A bank that reads FREE or ERASING is neither OPEN nor CLOSING. -/
theorem notOpen_of_free {b : Bank} (h : bankStateOf b = .free ∨ bankStateOf b = .erasing) :
    bankStateOf b ≠ .open_ ∧ bankStateOf b ≠ .closing := by
  rcases h with h | h <;> rw [h] <;> exact ⟨BankState.noConfusion, BankState.noConfusion⟩

/-! ## The region of a CLOSING bank behind the walk of its journal (R176) -/

section
variable {k : BankId} {n m : Nat} {s : State} (hf : s.store.fault = false) (hq : s.store.queue = []) (hp : s.store.path = .idle)
  (h1 : 16384 ≤ m) (h2 : m ≤ 32767) (hslots : ∀ j, 16384 ≤ j → j < m → slotState (bank s k) j ≠ 0xFF)
  (he : slotErased (bank s k) m = true)
include hf hq hp h1 h2 hslots he

/-- No CLOSE record, nothing incomplete. -/
theorem scannedRegion_opens {hs : List Nat} {resume : Nat} (hinc : incomplete (bank s k) = [])
    (hheads : completeHeaders (bank s k) = hs.map (slotRecord (bank s k))) (hresume : resumePoint (bank s k) = resume)
    (hc : ∀ j ∈ regionSlots (bank s k), slotKind (bank s k) j ≠ 0x43) (vs : List Byte) :
    walkRegion k vs (closingScanned k n s)
      = queued [] (regionRead k m (bank s k).cells hs resume false (closingScanned k n s)) := by
  have hbank : bank (closingScanned k n s) k = bankWalked n (bank s k) := (bank_congr rfl rfl k).trans (bank_scanWalked k n s)
  obtain ⟨-, -, hqueue, hpath, hfault, -⟩ := scanWalked_keeps k n s
  have h := walkRegion_opens (t := closingScanned k n s) (k := k) (hs := hs) (resume := resume) (hfault.trans hf) (hqueue.trans hq)
    (hpath.trans hp) h1 h2 (by rw [hbank]; exact hslots) (by rw [hbank]; exact he) (by rw [hbank]; exact hinc)
    (by rw [hbank]; exact hheads) (by rw [hbank]; exact hresume) (by rw [hbank]; exact hc) vs
  rw [hbank] at h
  exact h

/-- A CLOSE record. -/
theorem scannedRegion_closes {hs : List Nat} (hheads : completeHeaders (bank s k) = hs.map (slotRecord (bank s k)))
    (hc : ∃ j ∈ regionSlots (bank s k), slotKind (bank s k) j = 0x43) (vs : List Byte) :
    walkRegion k vs (closingScanned k n s)
      = queued [.header k .closed] (regionRead k m (bank s k).cells hs s.engine.resume true (closingScanned k n s)) := by
  have hbank : bank (closingScanned k n s) k = bankWalked n (bank s k) := (bank_congr rfl rfl k).trans (bank_scanWalked k n s)
  obtain ⟨-, hengine, hqueue, hpath, hfault, -⟩ := scanWalked_keeps k n s
  have h := walkRegion_closes (t := closingScanned k n s) (k := k) (hs := hs) (hfault.trans hf) (hqueue.trans hq)
    (hpath.trans hp) h1 h2 (by rw [hbank]; exact hslots) (by rw [hbank]; exact he)
    (by rw [hbank]; exact hheads) (by rw [hbank]; exact hc) vs
  have hresume : (closingScanned k n s).engine.resume = s.engine.resume := by
    exact (congrArg Engine.resume hengine).trans rfl
  rw [hbank, hresume] at h
  exact h

/-- The last account incomplete. -/
theorem scannedRegion_voids (hw : cellsWf (bank s k).cells = true) {hs : List Nat} {h : Nat} (hh : headSlots (bank s k) = hs ++ [h])
    (hshort : (lineSlots (bank s k) h).length < linesWanted (bank s k) h)
    (hprev : ∀ hs' g, hs = hs' ++ [g] →
      linesWanted (bank s k) g ≤ ((lineSlots (bank s k) g).filter (fun j => decide (j < h))).length)
    (hc : ∀ j ∈ regionSlots (bank s k), slotKind (bank s k) j ≠ 0x43) : walkRegion k [] (closingScanned k n s)
      = queued [] (regionRead k m (slotsCleared (accountSlots (bank s k) h) (bank s k).cells) hs
          (fld (slotBytes (bank s k) h) 1 4) false (closingScanned k n s)) := by
  have hbank : bank (closingScanned k n s) k = bankWalked n (bank s k) := (bank_congr rfl rfl k).trans (bank_scanWalked k n s)
  obtain ⟨-, -, hqueue, hpath, hfault, -⟩ := scanWalked_keeps k n s
  have h := walkRegion_voids (t := closingScanned k n s) (k := k) (hs := hs) (h := h) (hfault.trans hf) (hqueue.trans hq)
    (hpath.trans hp) h1 h2 (by rw [hbank]; exact hslots) (by rw [hbank]; exact he) (by rw [hbank]; exact hw)
    (by rw [hbank]; exact hh) (by rw [hbank]; exact hshort) (by rw [hbank]; exact hprev) (by rw [hbank]; exact hc)
  rw [hbank] at h
  exact h

end

/-! ## O15 -/

/-- Settles O15: what a reset leaves, by what was in hand; the recovery scan over a torn slot, of an OPEN and of a CLOSING bank, and of
a broken law; and what ends its waiting. -/
theorem resetsAndRecovery : Obligations.ResetsAndRecovery := by
  refine ⟨fun r s => ?_, fun torn s hp => tear_idle torn hp, fun b erased hp => ?_, fun k a given torn s hm hin => ?_,
    fun k q s hp => ⟨fun body o hq ho => ?_, fun f hq => ?_⟩, fun w v q torn s hp hq => tear_identity hp hq torn,
    fun b p erased hm hp he => ?_, fun b hm h => ?_, fun b a ha hv h13 => ?_, ?_, ?_, ?_, ?_⟩
  · intro cut after
    obtain ⟨st, hst⟩ := tear_store r.torn s
    have hcut : cut = { s with store := st } := hst
    have hafter (cause : ResetCause) : resetState cause r cut = after cause (cause = .powerOn || s.time.coldStart) := by
      clear_value cut
      subst hcut
      rfl
    refine ⟨congrArg Host.Outcome.next (hafter .powerOn), congrArg Host.Outcome.next (hafter .resetLine),
      congrArg Host.Outcome.next (hafter .clockFault), fun x ho hk hb => ?_⟩
    exact (execOutboundFrameSent_reset ho hk hb).trans (congrArg Host.Outcome.next (hafter .order))
  · unfold cutErase
    rw [hp]
  · intro t got had
    refine ⟨?_, ?_, fun i hi => tear_outside hin torn hi, fun i b hb => ?_, fun body hg h => tear_short hin torn hm hg h,
      fun x hg hx => ?_⟩
    · exact (congrArg (bank · (otherBank k)) (tear_inHand hin torn)).trans (bank_setBank_other ..)
    · exact (congrArg (fun s : State => s.store.identity) (tear_inHand hin torn)).trans (setBank_store_identity ..)
    · obtain ⟨x, hx⟩ := tornBytes_getElem? torn hb
      exact ⟨x, tear_inside hin torn hm hx⟩
    · exact tear_inside hin torn hm (i := 0) (by rw [hg, hx, tornBytes_marker]; rfl)
  · unfold inHand
    rw [hp, hq, ho]
    rfl
  · unfold inHand
    rw [hp, hq]
  · intro cells
    have hcells : cells = _ := cutErase_some hp erased
    have hlen : (erased.take 4096).length ≤ 4096 := List.length_take_le ..
    clear_value cells
    subst hcells
    split
    · next herasing =>
      exact ⟨herasing, fun a ha => cellGet_cellsRise_outside _ _ _ _ (by omega), fun a => cellGet_cellsRise_bits _ _ _ _ hm⟩
    · exact ⟨he, fun a _ => rfl, fun a => BitVec.and_self⟩
  · exact if_pos ((bankBlank_iff hm).mpr h)
  · exact bankStateOf_unopened ha hv ((hdrSet_false_iff ..).mpr h13)
  · exact fun k i n v vs s hm hf h1 hin hn hs hi ht he hv hc => walkJournal_torn hm hf h1 hin hn hs hi ht he hv hc vs
  · intro k n voids s hw hop hscan hq hp hf he hm h1 hn hslots herased b o found beside d locked ends opening read x
      js low opened started
    refine ⟨fun ho h12 hb1 hb2 ha => ?_, fun ho h12 hb => ?_, fun m hc hb hm1 hm2 hms hme => ?_⟩
    · have hone : OneWalked k n s := ⟨.inl ho, ⟨hb1, hb2⟩, h1, hn, hslots, herased⟩
      have hread : openRead k n s = opened := openRead_eq ho
      have hstarted : startNoticed (openRead k n s) = started := by
        rw [startNoticed, startBytes_openRead k n s hf, hread]
        rfl
      have hlow := startLow_openRead k n s ho hb1 hq (startNoticed_store (openRead k n s))
      rw [hstarted] at hlow
      have hend := exec_scan_open hone ho hop hscan hq hp hf ((hdrSet_false_iff ..).mpr h12) hw he ha voids
      rw [hstarted, hlow] at hend
      refine hend.trans (congrArg (fun t => Host.Outcome.next (kick t)) (if_congr decide_eq_true_iff.symm rfl rfl))
    · have hone : OneWalked k n s := ⟨.inl ho, notOpen_of_free hb, h1, hn, hslots, herased⟩
      have hread : openRead k n s = opened := openRead_eq ho
      have hend := exec_scan_completes hone ho hop hscan hq hp hf ((hdrSet_iff ..).mpr h12) hw hb voids
      rw [hread] at hend
      exact hend
    · intro slots kind heads lines want taken
      have hone : OneWalked k n s := ⟨.inr hc, notOpen_of_free hb, h1, hn, hslots, herased⟩
      have hwf : cellsWf b.cells = true := bank_wf hm k
      have takes {cells : List Host.Cell} {hs : List Nat} {resume : Nat} {done : Bool} {l : List StoreItem}
          (hregion : walkRegion k voids (closingScanned k n s) = queued l (regionRead k m cells hs resume done (closingScanned k n s)))
          (hl : l.any isAwaited = false) (hheader : ∀ a, a < 31 → cellGet cells a = cellGet b.cells a) :
          taken cells hs resume done l := by
        have hread := closingRead_eq (k := k) (n := n) (m := m) (s := s) (cells := cells) (hs := hs) (resume := resume)
          (done := done) hc
        refine ⟨fun hb => ?_, fun hb => ?_⟩
        · have hend := exec_scan_erasing hone hc hop hscan hf hw hregion hl hb
          rw [hread] at hend
          exact hend
        · have hend := exec_scan_free hone hc hop hscan hf hw hregion hl hb hheader
          rw [hread] at hend
          exact hend
      refine ⟨fun hnone => ⟨fun hheads => ?_, fun hs h hheads hwant => ?_, fun hs h hheads hshort hvoids hprev => ?_⟩,
        fun hclosed hwant => ?_⟩
      · obtain ⟨hinc, hcomplete, hresume⟩ := region_bare hheads
        exact takes (scannedRegion_opens (hs := []) hf hq hp hm1 hm2 hms hme hinc hcomplete hresume hnone voids) rfl fun _ _ => rfl
      · obtain ⟨hinc, hcomplete, hresume⟩ := region_complete hheads hwant
        exact takes (scannedRegion_opens hf hq hp hm1 hm2 hms hme hinc hcomplete hresume hnone voids) rfl fun _ _ => rfl
      · subst hvoids
        exact takes (scannedRegion_voids hf hq hp hm1 hm2 hms hme hwf hheads hshort hprev hnone) rfl
          fun a ha => cellGet_cleared _ _ fun j _ => by omega
      · have hcomplete : completeHeaders b = heads.map (slotRecord b) := by
          rcases List.eq_nil_or_concat heads with hnil | ⟨hs, h, hlast⟩
          · rw [(region_bare hnil).2.1, hnil]
            rfl
          · rw [List.concat_eq_append] at hlast
            exact (region_complete hlast (hwant hs h hlast)).2.1
        exact takes (scannedRegion_closes hf hq hp hm1 hm2 hms hme hcomplete hclosed voids) rfl fun _ _ => rfl
  · intro k p torn s hw hop hscan hf o opening wrote
    have hwaits : ScanWaits s := ⟨hop, hscan, hf⟩
    refine ⟨?_, fun hk hpage hq hp => exec_erase_opens hw hwaits hq hk hpage hp torn rfl, ?_⟩
    · intro hp hq h14 hc ho t
      exact exec_closing (t := t) hw hwaits hp hq ((hdrSet_iff ..).mpr h14) hc ho (by cases k <;> rfl)
    · intro hk hp hq h13 h7 he hdone ha t
      have hend := exec_opened_ends (o := o) hw hwaits (by rw [otherBank_otherBank]; exact hk) hp hq ((hdrSet_iff ..).mpr h13)
        ((hdrSet_false_iff ..).mpr h7) he hdone ha rfl
      have ht : { pathNext (bankOpened s o (fieldWrote p .opened (bank s o)) []) with
          store.scan := .ended, link.op := .unset } = t := by
        cases k <;> rfl
      rw [startNoticed, ht, startBytes_noFault (by exact (bankCommitted_keeps s o _ []).1.trans hf)] at hend
      cases k <;> exact hend
  · intro voids s hw hop hscan past hl
    exact exec_scan_broken hw hop hscan (lawBroken_of hl) voids

end Sys2Proof.Safety
end
